-- ==== Sys2Proof/Word.lean ====
section
/-! DEFINITION. The word types of the device and their plainest arithmetic (spec/00_scope.md R8, R16):
bytes, 64-bit register words, and two's-complement readings of naturals. -/

namespace Sys2Proof

/-- One byte of memory, of a message or of an image (R8). -/
abbrev Byte := BitVec 8

/-- A register value: every register of the BAR0 map is 32 or 64 bits wide (R13); 32-bit registers use the low half. -/
abbrev Word := BitVec 64

/-- The `w`-bit field of `n` whose least significant bit is `lsb` (bit 0 is least significant, spec/00_scope.md). -/
def field (n lsb w : Nat) : Nat := (n >>> lsb) % 2 ^ w

/-- `n` with its `w`-bit field at `lsb` replaced by `v` (taken modulo `2 ^ w`). -/
def putField (n lsb w v : Nat) : Nat :=
  n - (field n lsb w) <<< lsb + (v % 2 ^ w) <<< lsb

/-- Bit `i` of `n`. -/
def bitOf (n i : Nat) : Bool := n.testBit i

/-- A natural read as a two's-complement integer of `w` bits (R16). -/
def toSigned (w n : Nat) : Int :=
  if n % 2 ^ w < 2 ^ (w - 1) then (n % 2 ^ w : Nat) else ((n % 2 ^ w : Nat) : Int) - (2 ^ w : Nat)

/-- An integer as a `w`-bit two's-complement pattern (R16: arithmetic wraps). -/
def ofSigned (w : Nat) (i : Int) : Nat := (i % ((2 ^ w : Nat) : Int)).toNat

/-- Saturation to the range of a `w`-bit two's-complement integer (R16, `sat()`). -/
def satSigned (w : Nat) (i : Int) : Int :=
  max (-((2 ^ (w - 1) : Nat) : Int)) (min (((2 ^ (w - 1) : Nat) : Int) - 1) i)

/-- A counter that saturates at 0xFFFF_FFFF. -/
def satAdd32 (a b : Nat) : Nat := min (a + b) 0xFFFFFFFF

/-- The little-endian value of a list of bytes (R8). -/
def leNat : List Byte → Nat
  | [] => 0
  | b :: bs => b.toNat + 256 * leNat bs

/-- `n` as `k` little-endian bytes (R8), high parts cut off. -/
def leBytes : Nat → Nat → List Byte
  | 0, _ => []
  | k + 1, n => BitVec.ofNat 8 n :: leBytes k (n / 256)

/-- The big-endian value of a list of bytes (network fields of received frames). -/
def beNat (bs : List Byte) : Nat := leNat bs.reverse

/-- `n` as `k` big-endian bytes. -/
def beBytes (k n : Nat) : List Byte := (leBytes k n).reverse

/-- The value of `k` bytes of `bs` at offset `o`, little-endian; bytes past the end read zero. -/
def leAt (bs : List Byte) (o k : Nat) : Nat := leNat ((bs.drop o).take k)

/-- The big-endian value of `k` bytes at offset `o`. -/
def beAt (bs : List Byte) (o k : Nat) : Nat := beNat ((bs.drop o).take k)

/-- Division rounded up. -/
def ceilDiv (a b : Nat) : Nat := (a + b - 1) / b

end Sys2Proof
end

