-- ==== Sys2Proof/Syntax.lean ====
section
/-! DEFINITION. The commands the block takes (spec/opcode_table.json), with their operands. A plough slot command carries
the plough, the unit where the slot kind has two, and the slot's raw 64-bit word (spec/03_nolvoren_bundles.md R62, R63).
A command that stands for an arrival carries what arrives; one that stands for an event of the block's own carries only
which instance it concerns. -/

namespace Sys2Proof

/-- The access paths of R13. -/
inductive Path where
  | pcie | usb | steward
deriving DecidableEq, Repr

/-- A frame on a CAN bus (R168, R173). `ok` is false for a frame that ends in an error frame, `own` true for an attempt of the controller itself. -/
structure CanFrame where
  id : BitVec 29
  ext : Bool
  fd : Bool
  brs : Bool
  rtr : Bool
  dlc : BitVec 4
  data : List Byte
  ok : Bool
  own : Bool
deriving DecidableEq, Repr

/-- An accepted encoder edge (R177): which input, its new level, or A and B changing in one T sample. -/
inductive EncEdge where
  | a (rise : Bool)
  | b (rise : Bool)
  | z (rise : Bool)
  | both
deriving DecidableEq, Repr

/-- The port kinds whose links PORT_LINK reports (R188, R189). -/
inductive PortKind where
  | csi | eth
deriving DecidableEq, Repr

/-- Where a maintenance cycle runs (R384): a bank of a local store, a bank of the Barn, or a stack channel. -/
inductive MaintBank where
  | ls (n : BitVec 4) (bank : BitVec 5)
  | barn (bank : BitVec 6)
  | stack (ch : BitVec 5)
deriving DecidableEq, Repr

/-- What training finds at the far end of a Poleino port (R403): whether the lanes locked and aligned, the peer's board ID, board
size, topology, device number and port, and the plan_id of its locked plan (0 while none is locked). -/
structure LinkPeer where
  locked : Bool
  board : BitVec 64
  size : BitVec 4
  topology : BitVec 2
  device : BitVec 3
  port : BitVec 2
  plan : BitVec 64
deriving DecidableEq, Repr

/-- How a received flit fails (R401), or a block with corrected bytes. -/
inductive FlitErr where
  | fecCorrected
  | fec
  | crc
  | kind
deriving DecidableEq, Repr

/-- A DATA message (R400, R407, R410): the plan_id of the sender's locked plan as the port knows it, the header of the first
flit, and the payload. -/
structure DataMsg where
  plan : BitVec 64
  ctx : BitVec 12
  gen : BitVec 20
  seq : BitVec 12
  tag : Option (BitVec 3 × BitVec 32)
  bytes : List Byte
deriving DecidableEq, Repr

/-- A NACK message (R407, R409): the context and the first link sequence number of the message refused, and the reason. -/
structure NackMsg where
  ctx : BitVec 12
  seq : BitVec 12
  reason : BitVec 8
deriving DecidableEq, Repr

/-- A squash note (R411). -/
structure NoteMsg where
  sched : BitVec 3
  mark : BitVec 32
deriving DecidableEq, Repr

/-- A received PTP message (R215–R219): header fields and the timestamps it carries. -/
structure PtpMsg where
  malformed : Bool
  mtype : BitVec 4
  domain : BitVec 8
  seq : BitVec 16
  source : BitVec 64
  twoStep : Bool
  corr : BitVec 64
  sec : BitVec 48
  ns : BitVec 32
  requester : BitVec 64
  announce : List Byte
deriving DecidableEq, Repr

/-- The Almanac's supplies (R225). -/
inductive AlmSupply where
  | standby | cap | capLow | capOk | coin | none
deriving DecidableEq, Repr

/-- A PCIe configuration request (R498). -/
inductive CfgReq where
  | read (offset : BitVec 12)
  | write (offset : BitVec 12) (value : BitVec 32)
deriving DecidableEq, Repr


/-- Who runs a bundle: a plough, or the Steward, which runs the scalar subset (R94). -/
inductive Runner where
  | plough (n : BitVec 4)
  | steward
deriving DecidableEq, Repr

/-- The number of a runner's registers among those of the cores: the plough's own, 16 for the Steward. -/
def Runner.toNat : Runner → Nat
  | .plough n => n.toNat
  | .steward => 16

/-- Whether a runner is a plough. -/
def Runner.isPlough : Runner → Bool
  | .plough _ => true
  | .steward => false

/-- The commands of the block: one constructor for every row of spec/opcode_table.json. -/
inductive Instr where
  /-- REGISTER_WRITE (R10): A software write to a register that has no row of its own stores, sets or clears its bits according to the access type. -/
  | registerWrite (path : Path) (addr : Nat) (size : Nat) (value : BitVec 64)
  /-- REGISTER_READ_CLEAR (R10): A read of an RC register returns its value and then clears it, keeping a same-clock hardware count for the next read. -/
  | registerReadClear (path : Path) (addr : Nat) (size : Nat)
  /-- LOW_HALF_WRITE (R13): A write to the low half of a 64-bit register is held until the following high-half write on the same path. -/
  | lowHalfWrite (path : Path) (addr : Nat) (value : BitVec 32)
  /-- LOW_HALF_READ (R13): A read of the low half of a 64-bit register captures the high half for the next high-half read on the same path. -/
  | lowHalfRead (path : Path) (addr : Nat)
  /-- COLLECTOR_INTAKE (R25): Event records reaching the collector in one F clock are stored in block and instance order, or dropped and counted when it is full. -/
  | collectorIntake
  /-- COLLECTOR_WRITE (R28): In an F clock the collector writes its oldest stored record to the device ring and to the context queue, or counts it lost, after applying the rate limit. -/
  | collectorWrite
  /-- TOP_EVT_CTL (R33): A write to TOP_EVT_CTL enables or disables the ring, clearing both ring counters on a 0-to-1 enable, and may re-arm the interrupt. -/
  | topEvtCtl (path : Path) (value : BitVec 32)
  /-- TOP_EVT_RING_RD (R29): A host write to the ring read counter frees ring entries ahead of any full check in the same F clock. -/
  | topEvtRingRd (path : Path) (value : BitVec 32)
  /-- PLAN_LOAD (R50): The Steward checks the plan image in order and copies its sections, entering LOADED or reporting the first failed check. -/
  | planLoad
  /-- PLAN_START (R51): The Steward accepts a start time T0 and prepares contexts, preload values, identity-derived values and the Granary before T0. -/
  | planStart
  /-- PLAN_LOCK (R51): At T0 every RWL field locks, plan_locked sets, troughs flush, Hitch banks clear and the first major period begins. -/
  | planLock
  /-- PLAN_STOP (R52): The command to end the plan at the end of the current major period is accepted. -/
  | planStop
  /-- PLAN_STOP_END (R52): At the end of the major period the running slices complete, every context is retired, RWL fields unlock and the plan returns to LOADED. -/
  | planStopEnd
  /-- PLAN_UNLOAD (R52): The loaded plan is removed, its memory is filled and the state returns to EMPTY. -/
  | planUnload
  /-- PLAN_STORE (R446): The Steward writes a plan image into the flash plan store. -/
  | planStore
  /-- MAJOR_PERIOD_BOUNDARY (R222): At boundary k the Belltower signals the new major period, records its instant and restarts the C and M counters. -/
  | majorPeriodBoundary
  /-- NOP (R63): Opcode 0x00 in any slot does nothing. -/
  | nop (p : Runner) (slot : BitVec 3) (w : BitVec 64)
  /-- ADD (R68): The scalar slot adds two registers. -/
  | add (p : Runner) (s1 : Bool) (w : BitVec 64)
  /-- SUB (R68): The scalar slot subtracts two registers. -/
  | sub (p : Runner) (s1 : Bool) (w : BitVec 64)
  /-- AND (R68): The scalar slot forms the bitwise AND of two registers. -/
  | and (p : Runner) (s1 : Bool) (w : BitVec 64)
  /-- OR (R68): The scalar slot forms the bitwise OR of two registers. -/
  | or (p : Runner) (s1 : Bool) (w : BitVec 64)
  /-- XOR (R68): The scalar slot forms the bitwise XOR of two registers. -/
  | xor (p : Runner) (s1 : Bool) (w : BitVec 64)
  /-- SHL (R68): The scalar slot shifts a register left by a register amount. -/
  | shl (p : Runner) (s1 : Bool) (w : BitVec 64)
  /-- SHR (R68): The scalar slot shifts a register right logically by a register amount. -/
  | shr (p : Runner) (s1 : Bool) (w : BitVec 64)
  /-- SRA (R68): The scalar slot shifts a register right arithmetically by a register amount. -/
  | sra (p : Runner) (s1 : Bool) (w : BitVec 64)
  /-- MUL (R68): The scalar slot forms the low 64 bits of a product with latency 3. -/
  | mul (p : Runner) (s1 : Bool) (w : BitVec 64)
  /-- MULHS (R68): The scalar slot forms the high 64 bits of a signed 128-bit product. -/
  | mulhs (p : Runner) (s1 : Bool) (w : BitVec 64)
  /-- MULHU (R68): The scalar slot forms the high 64 bits of an unsigned 128-bit product. -/
  | mulhu (p : Runner) (s1 : Bool) (w : BitVec 64)
  /-- MIN (R68): The scalar slot takes the signed minimum of two registers. -/
  | min (p : Runner) (s1 : Bool) (w : BitVec 64)
  /-- MAX (R68): The scalar slot takes the signed maximum of two registers. -/
  | max (p : Runner) (s1 : Bool) (w : BitVec 64)
  /-- MINU (R68): The scalar slot takes the unsigned minimum of two registers. -/
  | minu (p : Runner) (s1 : Bool) (w : BitVec 64)
  /-- MAXU (R68): The scalar slot takes the unsigned maximum of two registers. -/
  | maxu (p : Runner) (s1 : Bool) (w : BitVec 64)
  /-- CLZ (R68): The scalar slot counts leading zeros of a register. -/
  | clz (p : Runner) (s1 : Bool) (w : BitVec 64)
  /-- POPC (R68): The scalar slot counts the ones in a register. -/
  | popc (p : Runner) (s1 : Bool) (w : BitVec 64)
  /-- SEL (R68): The scalar slot selects one of two registers by a predicate. -/
  | sel (p : Runner) (s1 : Bool) (w : BitVec 64)
  /-- ADDI (R68): The scalar slot adds a sign-extended immediate to a register. -/
  | addi (p : Runner) (s1 : Bool) (w : BitVec 64)
  /-- ANDI (R68): The scalar slot ANDs a register with an immediate. -/
  | andi (p : Runner) (s1 : Bool) (w : BitVec 64)
  /-- ORI (R68): The scalar slot ORs a register with an immediate. -/
  | ori (p : Runner) (s1 : Bool) (w : BitVec 64)
  /-- XORI (R68): The scalar slot XORs a register with an immediate. -/
  | xori (p : Runner) (s1 : Bool) (w : BitVec 64)
  /-- SHLI (R68): The scalar slot shifts a register left by an immediate amount. -/
  | shli (p : Runner) (s1 : Bool) (w : BitVec 64)
  /-- SHRI (R68): The scalar slot shifts a register right logically by an immediate amount. -/
  | shri (p : Runner) (s1 : Bool) (w : BitVec 64)
  /-- SRAI (R68): The scalar slot shifts a register right arithmetically by an immediate amount. -/
  | srai (p : Runner) (s1 : Bool) (w : BitVec 64)
  /-- MOVI (R68): The scalar slot loads a sign-extended immediate into a register. -/
  | movi (p : Runner) (s1 : Bool) (w : BitVec 64)
  /-- MOVHI (R68): The scalar slot sets the high 32 bits of a register from an immediate. -/
  | movhi (p : Runner) (s1 : Bool) (w : BitVec 64)
  /-- CMP (R69): The scalar slot writes a predicate from a register comparison. -/
  | cmp (p : Runner) (s1 : Bool) (w : BitVec 64)
  /-- CMPI (R69): The scalar slot writes a predicate from a comparison with an immediate. -/
  | cmpi (p : Runner) (s1 : Bool) (w : BitVec 64)
  /-- PLOG (R69): The scalar slot combines two predicates into a third. -/
  | plog (p : Runner) (s1 : Bool) (w : BitVec 64)
  /-- MOVS (R70): The scalar slot reads a special register such as CCOUNT, PERIOD or MARK. -/
  | movs (p : Runner) (s1 : Bool) (w : BitVec 64)
  /-- B (R72): The control slot branches to a relative target after two delay bundles. -/
  | b (p : Runner) (w : BitVec 64)
  /-- BR (R72): The control slot branches to the address in a register after two delay bundles. -/
  | br (p : Runner) (w : BitVec 64)
  /-- CALL (R71): The control slot saves the return address in s63 and branches. -/
  | call (p : Runner) (w : BitVec 64)
  /-- LOOP (R74): The control slot starts a hardware loop with a count taken from a register. -/
  | loop (p : Runner) (w : BitVec 64)
  /-- LOOPI (R74): The control slot starts a hardware loop with an immediate count. -/
  | loopi (p : Runner) (w : BitVec 64)
  /-- WAITC (R75): The control slot holds the plough until CCOUNT reaches the given clock, or counts a late wait. -/
  | waitc (p : Runner) (w : BitVec 64)
  /-- WAITC_RELEASE (R75): CCOUNT reaches the waited clock and the next bundle issues. -/
  | waitcRelease (p : BitVec 4)
  /-- CHKPT (R76): The control slot reports a checkpoint number and CCOUNT to the Reeve, which tests it against the expected checkpoint. -/
  | chkpt (p : Runner) (w : BitVec 64)
  /-- COMMIT (R77): The control slot starts COMMIT of a schedule and mark inside a commit window. -/
  | commit (p : Runner) (w : BitVec 64)
  /-- SQUASH (R77): The control slot starts SQUASH of a schedule and mark inside a squash window, zeroing the context registers. -/
  | squash (p : Runner) (w : BitVec 64)
  /-- COMMIT_DONE (R60): Sixteen clocks after COMMIT, the OPEN regions of the mark become SEALED, provisional mode ends and held events, counts and staging rows are committed. -/
  | commitDone (p : BitVec 4)
  /-- SQUASH_DONE (R60): Sixty-four clocks after SQUASH, OPEN regions of the mark become EMPTY, held events are discarded and provisional engine work and staging rows are undone. -/
  | squashDone (p : BitVec 4)
  /-- SLICE_END (R78): The control slot ends the context's slice early and the plough idles. -/
  | sliceEnd (p : Runner) (w : BitVec 64)
  /-- TRAP (R71): The control slot raises SOFT_TRAP with a code. -/
  | trap (p : Runner) (w : BitVec 64)
  /-- LD8U (R80): A memory slot loads one byte zero-extended. -/
  | ld8u (p : Runner) (l1 : Bool) (w : BitVec 64)
  /-- LD16U (R80): A memory slot loads two bytes zero-extended. -/
  | ld16u (p : Runner) (l1 : Bool) (w : BitVec 64)
  /-- LD32U (R80): A memory slot loads four bytes zero-extended. -/
  | ld32u (p : Runner) (l1 : Bool) (w : BitVec 64)
  /-- LD64 (R80): A memory slot loads eight bytes. -/
  | ld64 (p : Runner) (l1 : Bool) (w : BitVec 64)
  /-- LD8S (R80): A memory slot loads one byte sign-extended. -/
  | ld8s (p : Runner) (l1 : Bool) (w : BitVec 64)
  /-- LD16S (R80): A memory slot loads two bytes sign-extended. -/
  | ld16s (p : Runner) (l1 : Bool) (w : BitVec 64)
  /-- LD32S (R80): A memory slot loads four bytes sign-extended. -/
  | ld32s (p : Runner) (l1 : Bool) (w : BitVec 64)
  /-- ST8 (R80): A memory slot stores one byte. -/
  | st8 (p : Runner) (l1 : Bool) (w : BitVec 64)
  /-- ST16 (R80): A memory slot stores two bytes. -/
  | st16 (p : Runner) (l1 : Bool) (w : BitVec 64)
  /-- ST32 (R80): A memory slot stores four bytes. -/
  | st32 (p : Runner) (l1 : Bool) (w : BitVec 64)
  /-- ST64 (R80): A memory slot stores eight bytes. -/
  | st64 (p : Runner) (l1 : Bool) (w : BitVec 64)
  /-- VLD (R80): A memory slot loads 1,024 bytes into a vector register. -/
  | vld (p : Runner) (l1 : Bool) (w : BitVec 64)
  /-- VST (R80): A memory slot stores 1,024 bytes from a vector register. -/
  | vst (p : Runner) (l1 : Bool) (w : BitVec 64)
  /-- DLD (R84): A memory slot loads a tensor descriptor, which the Hedge checks and may refuse. -/
  | dld (p : Runner) (l1 : Bool) (w : BitVec 64)
  /-- DST (R80): A memory slot stores a descriptor register. -/
  | dst (p : Runner) (l1 : Bool) (w : BitVec 64)
  /-- DMA (R85): A memory slot copies a descriptor pair and queues a transfer on a DMA queue. -/
  | dma (p : Runner) (l1 : Bool) (w : BitVec 64)
  /-- DMAWAIT (R85): A memory slot holds the plough until a DMA queue has at most the given number of outstanding transfers. -/
  | dmawait (p : Runner) (l1 : Bool) (w : BitVec 64)
  /-- DMA_TRANSFER_DONE (R85): A queued DMA transfer completes or halts its queue on an error. -/
  | dmaTransferDone (p : BitVec 4) (q : BitVec 2)
  /-- VLDT (R119): A memory slot loads A rows or their MX scales of a tensor into a vector register. -/
  | vldt (p : Runner) (l1 : Bool) (w : BitVec 64)
  /-- MLDW (R120): A memory slot loads a B tile and its scales into a weight buffer over T clocks. -/
  | mldw (p : Runner) (l1 : Bool) (w : BitVec 64)
  /-- MMA (R123): The matrix slot feeds A rows through the weight tile and accumulates into an accumulator bank. -/
  | mma (p : Runner) (w : BitVec 64)
  /-- MDRAIN (R126): The matrix slot drains accumulator rows through the epilogue, conversion and optional transpose to a destination. -/
  | mdrain (p : Runner) (w : BitVec 64)
  /-- RESULT_LAND (R65): A result of fixed latency lands in its register, accumulator row, buffer or memory at its planned clock. -/
  | resultLand (p : BitVec 4)
  /-- BUNDLE_RETIRE (R91): Forty-eight clocks after issue a bundle retires and its held stores, DMA, engine issues and link sends take effect. -/
  | bundleRetire (p : BitVec 4)
  /-- VADD (R135): The vector slot adds lanes. -/
  | vadd (p : Runner) (w : BitVec 64)
  /-- VSUB (R135): The vector slot subtracts lanes. -/
  | vsub (p : Runner) (w : BitVec 64)
  /-- VMUL (R135): The vector slot multiplies lanes. -/
  | vmul (p : Runner) (w : BitVec 64)
  /-- VFMA (R135): The vector slot performs a fused multiply-add per lane. -/
  | vfma (p : Runner) (w : BitVec 64)
  /-- VMIN (R136): The vector slot takes the lane minimum. -/
  | vmin (p : Runner) (w : BitVec 64)
  /-- VMAX (R136): The vector slot takes the lane maximum. -/
  | vmax (p : Runner) (w : BitVec 64)
  /-- VABS (R135): The vector slot takes the lane absolute value. -/
  | vabs (p : Runner) (w : BitVec 64)
  /-- VNEG (R135): The vector slot negates lanes. -/
  | vneg (p : Runner) (w : BitVec 64)
  /-- VAND (R135): The vector slot forms the lane bitwise AND. -/
  | vand (p : Runner) (w : BitVec 64)
  /-- VOR (R135): The vector slot forms the lane bitwise OR. -/
  | vor (p : Runner) (w : BitVec 64)
  /-- VXOR (R135): The vector slot forms the lane bitwise XOR. -/
  | vxor (p : Runner) (w : BitVec 64)
  /-- VSHL (R135): The vector slot shifts integer lanes left. -/
  | vshl (p : Runner) (w : BitVec 64)
  /-- VSRA (R135): The vector slot shifts integer lanes right arithmetically. -/
  | vsra (p : Runner) (w : BitVec 64)
  /-- VCMP (R136): The vector slot compares lanes into all-ones or zero masks. -/
  | vcmp (p : Runner) (w : BitVec 64)
  /-- VSEL (R135): The vector slot selects lanes by a mask register. -/
  | vsel (p : Runner) (w : BitVec 64)
  /-- VEXP2 (R136): The vector slot computes 2 to the power of each lane. -/
  | vexp2 (p : Runner) (w : BitVec 64)
  /-- VLOG2 (R136): The vector slot computes the base-2 logarithm of each lane. -/
  | vlog2 (p : Runner) (w : BitVec 64)
  /-- VRCP (R136): The vector slot computes the reciprocal of each lane. -/
  | vrcp (p : Runner) (w : BitVec 64)
  /-- VRSQRT (R136): The vector slot computes the reciprocal square root of each lane. -/
  | vrsqrt (p : Runner) (w : BitVec 64)
  /-- VSQRT (R136): The vector slot computes the square root of each lane. -/
  | vsqrt (p : Runner) (w : BitVec 64)
  /-- VCVT (R138): The vector slot converts lanes under conversion control, optionally with block scaling. -/
  | vcvt (p : Runner) (w : BitVec 64)
  /-- VBCAST (R135): The vector slot broadcasts a scalar register to every lane. -/
  | vbcast (p : Runner) (w : BitVec 64)
  /-- VRED (R137): The vector slot performs a grouped reduction in a fixed tree order. -/
  | vred (p : Runner) (w : BitVec 64)
  /-- VPERM (R138): The vector slot permutes 64-bit lanes through the exchange network. -/
  | vperm (p : Runner) (w : BitVec 64)
  /-- VROT (R135): The vector slot rotates 64-bit lanes through the exchange network. -/
  | vrot (p : Runner) (w : BitVec 64)
  /-- EISSUE (R88): The exchange slot issues work to an engine inside a calendar window, taking a queue place. -/
  | eissue (p : Runner) (w : BitVec 64)
  /-- EWAIT (R89): The exchange slot waits for the oldest outstanding issue to an engine and writes a predicate. -/
  | ewait (p : Runner) (w : BitVec 64)
  /-- ENGINE_WINDOW_END (R89): An engine window ends, releasing waiting EWAITs with 0 and counting jobs that overrun it. -/
  | engineWindowEnd (engine : BitVec 2)
  /-- XSEND (R406): The exchange slot sends a piece over a Poleino port. -/
  | xsend (p : Runner) (w : BitVec 64)
  /-- XRECV (R408): The exchange slot posts a receive into a piece on a Poleino port. -/
  | xrecv (p : Runner) (w : BitVec 64)
  /-- XWAIT (R87): The exchange slot waits until few enough sends and receives are outstanding on a port. -/
  | xwait (p : Runner) (w : BitVec 64)
  /-- RUN_SLICE_START (R366): A RUN slice starts and restores the occupying context's state and region registers. -/
  | runSliceStart (p : BitVec 4)
  /-- SLICE_SAVE (R366): At its planned clock the slice drains matrix work and saves the context state. -/
  | sliceSave (p : BitVec 4)
  /-- SWAP_SLICE (R368): In a SWAP slice the swap engine checks provisional mode and moves plough state and the Barn partition for a pending exchange. -/
  | swapSlice (p : BitVec 4)
  /-- EXCHANGE_COMPLETE (R368): A residency exchange finishes, taking effect at the next boundary. -/
  | exchangeComplete
  /-- MBOX_SUBMIT (R444): A PCIe or USB submission enters the mailbox queue or is answered BUSY by hardware. -/
  | mboxSubmit (path : Path) (cmd : List Byte)
  /-- STEW_MBOX_POP (R444): A write removes the oldest response from the PCIe response FIFO. -/
  | stewMboxPop (path : Path)
  /-- CREATE (R362): The Steward builds the context's tables and quotas from its MAPPING section and makes it SWAPPED. -/
  | create
  /-- SUSPEND (R362): The Steward sets a context's suspended bit after its running slice completes. -/
  | suspend
  /-- RESUME (R363): The Steward clears a context's suspended and halted bits. -/
  | resume
  /-- RETIRE (R372): The Steward retires a context through fence, engine release, fill and a new generation. -/
  | retire
  /-- EXCHANGE (R368): The Steward accepts a residency exchange for the next major period. -/
  | exchange
  /-- TOP_CTX_QUOTA (R370): A write changes one quota of the selected live context, reaching every unit within 16 F clocks. -/
  | topCtxQuota (path : Path) (i : BitVec 3) (value : BitVec 32)
  /-- POWER_CAP (R488): The Steward sets the power cap, refusing one below a locked plan's power_mw. -/
  | powerCap
  /-- LOG_READ (R446): The Steward copies log records from a given sequence to a destination. -/
  | logRead
  /-- UPDATE_STAGE (R452): The Steward checks a firmware image and writes it to the spare slot. -/
  | updateStage
  /-- UPDATE_ACTIVATE (R452): The Steward marks the staged slot for trial with three boots. -/
  | updateActivate
  /-- UPDATE_CONFIRM (R452): The Steward makes the running trial slot active and raises fw_floor. -/
  | updateConfirm
  /-- CONFIG_WRITE (R455): The Steward checks a configuration record and writes it to the other copy. -/
  | configWrite
  /-- ATTEST (R457): The Steward writes a signed quote of committed device state. -/
  | attest
  /-- CAN_SEND (R446): The Steward sends a data frame on a CAN controller. -/
  | canSend
  /-- ETH_SEND (R446): The Steward sends a frame on an Ethernet MAC. -/
  | ethSend
  /-- DEVICE_RECOVER (R446): The Steward answers and then requests a device recovery. -/
  | deviceRecover
  /-- TELEMETRY_SLICE (R458): In each frame's telemetry slice the Steward samples enabled sensors into the telemetry ring, skipping those it cannot take. -/
  | telemetrySlice (readings : List (Nat × BitVec 32))
  /-- LOG_SLICE (R460): In each frame's log slice the Steward writes up to 16 queued entries to flash and erases sectors ahead. -/
  | logSlice
  /-- MAILBOX_SLICE (R442): In each frame's mailbox slice the Steward runs mailbox commands one at a time in pieces. -/
  | mailboxSlice
  /-- HOUSEKEEPING_SLICE (R442): In each frame's housekeeping slice the Steward kicks the watchdog, runs discovery steps and writes pending generations. -/
  | housekeepingSlice
  /-- STEW_TRAP (R443): A Steward trap enters the trap entry and records its cause, or halts the Steward on a nested trap. -/
  | stewTrap (cause : BitVec 4)
  /-- STEW_TEL_CTL (R463): A write that sets the telemetry enable clears the telemetry ring counters. -/
  | stewTelCtl (path : Path) (value : BitVec 32)
  /-- STEW_TEL_RD (R459): A host write of the telemetry read counter, with any same-clock overwrite advance applied to it. -/
  | stewTelRd (path : Path) (value : BitVec 32)
  /-- STEWARD_BOOT (R451): After power-good the ROM derives the identity, chooses and checks a firmware image and the firmware applies the configuration record. -/
  | stewardBoot
  /-- HEDGE_INVAL (R160): A go write starts an invalidation of cached translations by scope. -/
  | hedgeInval (path : Path) (value : BitVec 32)
  /-- INVAL_COMPLETE (R160): A running invalidation completes within 512 F clocks. -/
  | invalComplete
  /-- HEDGE_FENCE (R161): A go write fences a context ID so that new requests are refused. -/
  | hedgeFence (path : Path) (value : BitVec 32)
  /-- FENCE_DRAIN_END (R161): After the drain time, requests still outstanding for the fenced ID are answered with errors. -/
  | fenceDrainEnd
  /-- FENCE_DONE (R161): The fenced ID's cache entries are invalidated and the fence completes. -/
  | fenceDone
  /-- TRANSLATION_WALK (R159): A walker wins the arbiter and walks the page tables for a missed translation. -/
  | translationWalk
  /-- STROBE_EDGE (R174): A filtered edge on a strobe, DRDY, encoder or 1PPS input is accepted and captured. -/
  | strobeEdge (input : BitVec 6) (rise : Bool)
  /-- STAMP_CONVERT (R208): The stamp unit converts one waiting captured edge to device time. -/
  | stampConvert
  /-- CSI_FRAME_START (R175): A CSI-2 frame-start packet is stamped and matched to a strobe pulse. -/
  | csiFrameStart (port : BitVec 3) (vc : BitVec 2) (good : Bool) (frame : BitVec 16)
  /-- CSI_LONG_PACKET (R526): A CSI-2 long packet's payload is received and written to the trough word by word. -/
  | csiLongPacket (port : BitVec 3) (vc : BitVec 2) (dt : BitVec 6) (good : Bool) (payload : List Byte)
  /-- CSI_FRAME_END (R526): At FE the last payload word and the end word of the frame are written. -/
  | csiFrameEnd (port : BitVec 3) (vc : BitVec 2)
  /-- ETH_FRAME_RECEIVE (R171): A received Ethernet frame is checked, classified to a slot or the Belltower, point-stamped and written. -/
  | ethFrameReceive (port : BitVec 2) (fcsOk : Bool) (frame : List Byte)
  /-- IMU_DRDY_EDGE (R172): An accepted DRDY edge starts an SPI burst transfer, or is ignored during one. -/
  | imuDrdyEdge (port : BitVec 1)
  /-- IMU_TRANSFER_END (R172): CS_N rises and the IMU burst becomes a sample. -/
  | imuTransferEnd (port : BitVec 1) (miso : List Byte)
  /-- CAN_FRAME_RECEIVE (R173): A CAN frame is received, acknowledged and delivered to its slot. -/
  | canFrameReceive (ctl : BitVec 1) (frame : CanFrame)
  /-- ENCODER_EDGE (R177): An accepted encoder edge updates the count and, in EDGE mode, becomes a sample. -/
  | encoderEdge (ch : BitVec 3) (edge : EncEdge)
  /-- ENCODER_LATCH (R178): Each latch period an encoder channel in LATCH mode sends a sample of its latest edge. -/
  | encoderLatch (ch : BitVec 3)
  /-- TRIGGER_PULSE (R174): A trigger output changes state at its programmed pulse instant. -/
  | triggerPulse (t : BitVec 3)
  /-- PORT_LINK (R188): A sensor port link comes up or goes down. -/
  | portLink (kind : PortKind) (port : BitVec 3) (up : Bool)
  /-- GATE_SLOT_MAP (R180): A write to a slot mapping takes effect at the next sample boundary, with enable forced off on a conflict. -/
  | gateSlotMap (path : Path) (n : BitVec 4) (value : BitVec 32)
  /-- GATE_DISCOVER (R185): A go write starts sensor discovery on the selected buses. -/
  | gateDiscover (path : Path) (value : BitVec 32)
  /-- DISCOVERY (R185): Discovery probes identity memories, reads and verifies each record and updates the identity registers. -/
  | discovery (found : List (Nat × Nat × List Byte))
  /-- INJECTED_SAMPLE (R183): The Gatehouse completes an injected sample's header, checks its order and passes it to the trough. -/
  | injectedSample (n : BitVec 4)
  /-- DROP_PACKET (R197): The consumer or a software command discards the rest of the current packet at the trough head. -/
  | dropPacket (n : BitVec 4) (sw : Bool)
  /-- TROUGH_FLUSH (R197): A flush sets rd to wr and discards words up to the next start of packet. -/
  | troughFlush (n : BitVec 4)
  /-- TROUGH_HEAD_ARRIVAL (R198): A word reaches the trough head, where a start-of-packet is time-gated and an uncorrectable word becomes an abort word. -/
  | troughHeadArrival (n : BitVec 4)
  /-- SAMPLE_INTAKE (R234): The Yoke takes a sample's last word, decodes it into its streams' histories and copies payloads to rings. -/
  | sampleIntake
  /-- FUSE_PROV (R250): A FUSE_PROV window evaluates a mark at the provisional deadline and writes the provisional frame. -/
  | fuseProv (s : BitVec 3)
  /-- FUSE_COMMIT (R251): A FUSE_COMMIT window re-evaluates a mark at the commit deadline, decides KEPT or REFUSED and writes the committed frame. -/
  | fuseCommit (s : BitVec 3)
  /-- PROJECT (R267): The projection unit projects points into the selected cameras' depth, index and map outputs. -/
  | project
  /-- CLEAR (R270): The projection unit clears the selected cameras' depth and index images. -/
  | projClear
  /-- PROJ_JOB_END (R271): A projection job completes or ends with JOB_ERROR. -/
  | projJobEnd
  /-- SWEEP (R278): The Sieve reads the sweeps of a frame, deskews points, fills the point buffer and samples voxels. -/
  | sweep
  /-- RULES (R290): The Sieve builds a rule book for a submanifold or strided sparse convolution. -/
  | rules
  /-- GATHER (R293): The Sieve gathers feature rows named by a rule-book segment into a tile. -/
  | gather
  /-- SCATTER_ADD (R293): The Sieve adds tile rows into the feature rows named by a rule-book segment. -/
  | scatterAdd
  /-- SIEVE_JOB_END (R277): A Sieve job completes with its result block or ends with JOB_ERROR. -/
  | sieveJobEnd
  /-- KIN (R308): The Mill computes poses and Jacobians of the task frames. -/
  | kin (q : BitVec 3)
  /-- INVDYN (R308): The Mill computes joint torques by recursive Newton-Euler. -/
  | invdyn (q : BitVec 3)
  /-- FWDDYN (R308): The Mill computes joint accelerations through the mass matrix and an LDLT solve. -/
  | fwddyn (q : BitVec 3)
  /-- WBIK (R310): The Mill runs N damped Gauss-Newton steps of whole-body inverse kinematics. -/
  | wbik (q : BitVec 3)
  /-- LSQ (R310): The Mill applies deltas to a resident slot and runs N steps of bounded least squares. -/
  | lsq (q : BitVec 3)
  /-- MILL_JOB_END (R313): A Mill job completes, returns at its deadline with the best iterate, or ends with JOB_ERROR. -/
  | millJobEnd (q : BitVec 3)
  /-- OPEN (R334): The Granary opens the lowest free sequence for the issuing context. -/
  | granOpen (lane : BitVec 2)
  /-- CLOSE (R334): The Granary releases a sequence's pages and staging buffer. -/
  | granClose (lane : BitVec 2)
  /-- FORK (R338): The Granary opens a child sequence sharing the parent's prefix pages. -/
  | granFork (lane : BitVec 2)
  /-- TRIM (R339): The Granary cuts a sequence to a length with copy-on-write of the boundary page. -/
  | granTrim (lane : BitVec 2)
  /-- APPEND (R335): The Granary converts and appends token rows to a sequence's staging buffer, flushing a full page first. -/
  | granAppend (lane : BitVec 2)
  /-- FLUSH (R336): The Granary flushes a full staging buffer into a pool frame. -/
  | granFlush (lane : BitVec 2)
  /-- ATTEND (R344): The Granary computes attention over a key range block by block. -/
  | attend (lane : BitVec 2)
  /-- MERGE (R347): The Granary folds partial attention records into one. -/
  | merge (lane : BitVec 2)
  /-- EXPAND (R349): The Granary writes stored or up-projected rows of a token range to a tile. -/
  | expand (lane : BitVec 2)
  /-- BWD (R350): The Granary recomputes probabilities and score gradients for the backward pass. -/
  | bwd (lane : BitVec 2)
  /-- GRAN_JOB_END (R332): A Granary job ends with DONE, REFUSED, ERROR or SQUASHED and writes its status. -/
  | granJobEnd (lane : BitVec 2)
  /-- GRAN_INIT (R328): A write of GRAN_CTL.init starts clearing descriptors and refcounts and filling the free stacks. -/
  | granInit (path : Path) (value : BitVec 32)
  /-- GRAN_INIT_DONE (R328): Granary initialisation completes and ready sets. -/
  | granInitDone
  /-- STACK_REQUEST_SERVE (R391): A stack request is served in a window of its requester, one word per M clock per channel. -/
  | stackRequestServe (ch : BitVec 5)
  /-- STACK_WINDOW_END (R391): A stack window ends with requests left unserved, which wait for the next window. -/
  | stackWindowEnd (ch : BitVec 5)
  /-- REFRESH_WINDOW (R390): A planned all-bank refresh runs on a channel. -/
  | refreshWindow (ch : BitVec 5)
  /-- TIMER_REFRESH (R387): A channel's own timer starts an all-bank refresh in open mode or after the last planned refresh. -/
  | timerRefresh (ch : BitVec 5)
  /-- MAINTENANCE_CYCLE (R384): A bank's maintenance cycle or a channel's maintenance window is used for write-back, fill or scrub. -/
  | maintenanceCycle (bank : MaintBank)
  /-- FILL_DONE (R395): A fill of a context's or plan's memory completes. -/
  | fillDone
  /-- STACK_TEMP_READ (R397): Every 1 ms the stack temperatures are read and STACK_HOT is raised at 95 °C. -/
  | stackTempRead (t0 : BitVec 8) (t1 : BitVec 8)
  /-- STACK_PHY (R386): A stack PHY, parity or die-to-die lane fault leads to a device recovery. -/
  | stackPhy (stack : BitVec 1)
  /-- PORT_TRAINING (R403): A Poleino port starts training on enable, retrain or lane fault. -/
  | portTraining (port : BitVec 2)
  /-- TRAINING_DONE (R403): A port finishes training, checks the wiring table and comes up or is held down. -/
  | trainingDone (port : BitVec 2) (peer : LinkPeer)
  /-- LANE_FAULT (R402): A lane loses lock or the replay threshold is broken and the port goes down. -/
  | laneFault (port : BitVec 2) (lanes : BitVec 8)
  /-- FLIT_ERROR (R401): A received flit fails FEC, CRC or kind checks and a replay is requested. -/
  | flitError (port : BitVec 2) (err : FlitErr)
  /-- REPLAY (R401): The sender resends its replay buffer from the requested flit onward. -/
  | replay (port : BitVec 2) (seq : BitVec 16)
  /-- DATA_MESSAGE (R407): The first flit of a DATA message is checked and matched to a posted receive or the unexpected buffer. -/
  | dataMessage (port : BitVec 2) (msg : DataMsg)
  /-- NACK_MSG (R409): A NACK halts the sending context's entries on that port. -/
  | nackMsg (port : BitVec 2) (msg : NackMsg)
  /-- NOTE (R411): A squash note from a peer is compared with this device's commits. -/
  | noteMsg (port : BitVec 2) (msg : NoteMsg)
  /-- RECEIVE_LANDED (R412): A receive completes when its last byte lands in memory, or ends with a size error. -/
  | receiveLanded (port : BitVec 2) (xfer : Nat)
  /-- SEND_DONE (R412): A send completes when its acknowledgement returns. -/
  | sendDone (port : BitVec 2) (xfer : Nat)
  /-- TIME_REQUEST (R413): At each interval a device sends a TIME flit to its source port and stamps t1. -/
  | timeRequest
  /-- TIME_ANSWER (R413): A peer stamps an arriving TIME flit and returns t2 and t3. -/
  | timeAnswer (port : BitVec 2) (t1 : BitVec 64)
  /-- TIME_RESPONSE (R413): The requester stamps t4, forms the offset and runs a servo update. -/
  | timeResponse (port : BitVec 2) (t1 : BitVec 64) (t2 : BitVec 64) (t3 : BitVec 64)
  /-- HOLDOVER_TIMEOUT (R211): No update arrives for holdover_to intervals and the servo enters HOLDOVER. -/
  | holdoverTimeout
  /-- RATE_APPLY (R205): A waiting new rate takes effect at a T edge. -/
  | rateApply
  /-- BELL_SET (R207): A high-half write sets device time at the next T edge, or is refused while a plan is locked. -/
  | bellSet (path : Path) (value : BitVec 64)
  /-- BELL_CTL (R211): A write selects the time source and moves the servo state. -/
  | bellCtl (path : Path) (value : BitVec 32)
  /-- VT_ADVANCE (R223): A high-half write of BELL_VT_PENDING requests a virtual time advance, refused if it regresses. -/
  | vtAdvance (path : Path) (value : BitVec 64)
  /-- BELL_ALM_SET (R227): A write holds new Almanac seconds for the next A edge. -/
  | bellAlmSet (path : Path) (value : BitVec 64)
  /-- ALMANAC_TICK (R227): An A edge takes a held Almanac set or a rewrite from device time. -/
  | almanacTick
  /-- PTP_SYNC (R217): A Sync message is stamped on the slave port and, in one-step mode, gives an offset. -/
  | ptpSync (port : BitVec 2) (msg : PtpMsg)
  /-- PTP_FOLLOW_UP (R217): A Follow_Up supplies the precise origin timestamp and gives an offset. -/
  | ptpFollowUp (port : BitVec 2) (msg : PtpMsg)
  /-- PTP_DELAY_REQ (R216): A master port answers a Delay_Req within its rate limit. -/
  | ptpDelayReq (port : BitVec 2) (msg : PtpMsg)
  /-- PTP_DELAY_RESP (R217): A Delay_Resp gives a path delay measurement. -/
  | ptpDelayResp (port : BitVec 2) (msg : PtpMsg)
  /-- PTP_PDELAY_REQ (R216): A port answers a Pdelay_Req within its rate limit. -/
  | ptpPdelayReq (port : BitVec 2) (msg : PtpMsg)
  /-- PTP_PDELAY_RESP (R217): A Pdelay_Resp gives a peer delay measurement. -/
  | ptpPdelayResp (port : BitVec 2) (msg : PtpMsg)
  /-- PTP_PDELAY_RESP_FOLLOW_UP (R217): A Pdelay_Resp_Follow_Up completes a two-step peer delay measurement. -/
  | ptpPdelayRespFollowUp (port : BitVec 2) (msg : PtpMsg)
  /-- PTP_ANNOUNCE (R218): An Announce on the slave port updates the forwarded grandmaster fields and UTC offset. -/
  | ptpAnnounce (port : BitVec 2) (msg : PtpMsg)
  /-- PTP_SYNC_INTERVAL (R216): A master port sends Sync at its interval. -/
  | ptpSyncInterval (port : BitVec 2)
  /-- PTP_ANNOUNCE_INTERVAL (R218): A master port sends Announce at its interval. -/
  | ptpAnnounceInterval (port : BitVec 2)
  /-- PPS_OUT_RISE (R220): The 1PPS output rises at each whole second of device time. -/
  | ppsOutRise
  /-- PPS_OUT_FALL (R220): The 1PPS output falls after out_width. -/
  | ppsOutFall
  /-- PPS_IN (R221): An accepted 1PPS input pulse is stamped and may serve as a servo update. -/
  | ppsIn
  /-- PCIE_LINK_UP (R497): The PCIe link finishes training and host_link_up sets. -/
  | pcieLinkUp (speed : BitVec 3) (width : BitVec 5)
  /-- PCIE_LINK_DOWN (R418): The PCIe link goes down and every host queue halts. -/
  | pcieLinkDown
  /-- PERST (R418): PERST_N resets the host attachment, or ends standby on its falling edge. -/
  | perst (low : Bool)
  /-- HOT_RESET (R418): A hot reset resets the host attachment only. -/
  | hotReset
  /-- FLR (R418): A Function Level Reset halts host queues and returns the HOST registers to reset. -/
  | flr
  /-- BAR_READ (R420): A BAR0, BAR2 or BAR4 read is translated and served, or answered with Completer Abort. -/
  | barRead (bar : BitVec 3) (offset : Nat) (len : Nat)
  /-- BAR_WRITE (R420): A BAR2 or BAR4 write is translated and performed, or discarded on refusal. -/
  | barWrite (bar : BitVec 3) (offset : Nat) (bytes : List Byte)
  /-- BAR_TIMEOUT (R421): A BAR read not completed within 10 ms completes with Completer Abort. -/
  | barTimeout (tag : Nat)
  /-- HOST_Q_TAIL (R422): A write advances a copy queue's tail. -/
  | hostQTail (path : Path) (q : BitVec 2) (value : BitVec 32)
  /-- HOST_DMA_TRANSFER (R423): The host DMA engine serves one transfer of up to 512 bytes for the queue its arbiter chooses, completing descriptors. -/
  | hostDmaTransfer (desc : List Byte) (data : List Byte) (ok : Bool)
  /-- HOST_Q_CTL (R424): A write of enable restarts a halted queue after its failed descriptor. -/
  | hostQCtl (path : Path) (q : BitVec 2) (value : BitVec 32)
  /-- INJECTION_WORD (R195): An injection queue passes a waiting word to its trough once the trough has room. -/
  | injectionWord (n : BitVec 4)
  /-- DOORBELL_TIME (R426): A context doorbell write requests a virtual time advance. -/
  | doorbellTime (ctx : BitVec 12) (value : BitVec 64)
  /-- DOORBELL_TAIL (R426): A context doorbell write advances an injection queue's tail. -/
  | doorbellTail (ctx : BitVec 12) (value : BitVec 32)
  /-- MSIX_UNMASK (R427): Unmasking an MSI-X vector sends its pending message. -/
  | msixUnmask (v : BitVec 8)
  /-- REG_READ (R429): A USB request reads a register. -/
  | regRead (addr : Nat) (size : Nat)
  /-- REG_WRITE (R429): A USB request writes a register. -/
  | regWrite (addr : Nat) (size : Nat) (value : BitVec 64)
  /-- MEM_READ (R429): A USB request reads management memory. -/
  | memRead (addr : Nat) (len : Nat)
  /-- MEM_WRITE (R429): A USB request writes management memory. -/
  | memWrite (addr : Nat) (bytes : List Byte)
  /-- USB_ATTACH (R491): A USB attach configures the service port and ends standby. -/
  | usbAttach (speed : BitVec 2)
  /-- HITCH_READ_CYCLE (R431): The master reads a word of the active bank in the same bus cycle. -/
  | hitchReadCycle (addr : BitVec 16)
  /-- HITCH_WRITE_CYCLE (R431): The master writes a word into the inbound write bank. -/
  | hitchWriteCycle (addr : BitVec 16) (word : BitVec 32)
  /-- PUBLISH_COPY (R433): 80 ns after publication the Hitch copies the area to the shadow bank and posts the swap. -/
  | publishCopy
  /-- BANK_SWAP (R432): At a K edge with CS_N high a posted swap or capture exchanges banks. -/
  | bankSwap
  /-- SWAP_ACKNOWLEDGE (R433): The swap acknowledgement reaches domain F and swap_pending clears. -/
  | swapAcknowledge
  /-- AGE_INCREMENT (R434): At t_m + deadline without a publication the age increments and PUB_LATE is raised. -/
  | ageIncrement
  /-- INBOUND_CAPTURE (R435): At t_m + capture the Hitch posts a capture of the inbound bank. -/
  | inboundCapture
  /-- CAPTURE_ACKNOWLEDGE (R435): The capture acknowledgement arrives and the captured bank is copied to the Barn and cleared. -/
  | captureAcknowledge
  /-- CHECKPOINT_MISS (R465): An expected checkpoint has no report by its planned clock plus margin, or is reported early or out of order. -/
  | checkpointMiss (p : BitVec 4)
  /-- ENGINE_HANG (R467): An engine job runs longer than its watchdog limit. -/
  | engineHang (engine : BitVec 2)
  /-- HEARTBEAT_TIMEOUT (R467): A device-level block's heartbeat stops for 100 µs. -/
  | heartbeatTimeout (block : BitVec 4)
  /-- STEWARD_WATCHDOG_EXPIRY (R468): The Steward watchdog expires and starts a device recovery. -/
  | stewardWatchdogExpiry
  /-- RECOVERY_REQUEST (R469): A REEVE_CMD go requests recovery of a named unit. -/
  | recoveryRequest (path : Path) (value : BitVec 32)
  /-- UNPARK (R469): A REEVE_CMD go with unpark releases a parked unit. -/
  | unpark (path : Path) (value : BitVec 32)
  /-- DUMP_READ_TIMEOUT (R474): A dump read gets no answer in 10 µs and the word is written as the pattern. -/
  | dumpReadTimeout
  /-- DUMP_DONE (R474): A full or summary dump completes. -/
  | dumpDone
  /-- RECOVERY_DONE (R472): A unit finishes reset and squash and rejoins at its next planned slice or window. -/
  | recoveryDone (unit : BitVec 5)
  /-- RECOVERY_ESCALATION (R472): A recovery step exceeds its bound and escalates to a device recovery. -/
  | recoveryEscalation (unit : BitVec 5)
  /-- DEVICE_RECOVERY (R477): The Reeve isolates every unit and dumps the device before the device reset. -/
  | deviceRecovery
  /-- DEVICE_RESET (R494): Every block and memory except the kept parts is reset and start-up follows. -/
  | deviceReset
  /-- INPUT_START (R482): The input has been above 35.0 V for 10 ms and the power stage starts. -/
  | inputStart
  /-- INPUT_STOP (R483): The input falls below 33.0 V for 100 µs and the logic rails are removed. -/
  | inputStop
  /-- POWER_GOOD (R496): Standby rail, crystal and always-on generators are good and the always-on domain leaves reset. -/
  | powerGood
  /-- POWER_SAMPLE (R489): Every 10 µs PWR takes input voltage and current and updates the power averages. -/
  | powerSample (mv : BitVec 32) (ma : BitVec 32)
  /-- OVER_LIMIT (R489): The 1 ms average has exceeded 240 W for 10 consecutive milliseconds and a device recovery is requested. -/
  | overLimit
  /-- THERMAL_SAMPLE (R490): Every 10 µs each die site is compared with its warning threshold. -/
  | thermalSample (temps : List (Nat × BitVec 8))
  /-- THERMAL_TRIP (R490): A site above 110 °C for 1 ms turns every switched domain off and enters STANDBY. -/
  | thermalTrip (site : Nat)
  /-- PWR_DOMAIN_REQ (R486): A write requests power domains on or off while no plan is locked. -/
  | pwrDomainReq (path : Path) (value : BitVec 64)
  /-- DOMAIN_SWITCH (R486): One requested domain is switched, 20 µs after the previous one. -/
  | domainSwitch
  /-- DOMAIN_FAULT (R487): A domain's rail is not good within 1 ms, or a generator loses lock, and a device recovery is requested. -/
  | domainFault (n : BitVec 6)
  /-- STANDBY (R491): A write of PWR_CTL.standby in plan state EMPTY turns every switched domain off. -/
  | standby (path : Path)
  /-- WAKE_ALARM (R491): The Almanac reaches PWR_WAKE and standby ends. -/
  | wakeAlarm
  /-- STACK_PHY_TRAINED (R497): Both stacks finish PHY training and the start-up fill begins. -/
  | stackPhyTrained
  /-- SMBUS_READ_WORD (R510): The SMBus target returns a status or telemetry word. -/
  | smbusReadWord (cmd : BitVec 8)
  /-- ALMANAC_SUPPLY_CHANGE (R225): The Almanac's supply source changes as the supercapacitor falls below its hold voltage or recovers, the coin cell takes over, or every source fails and the Almanac stops with valid cleared and lost set. -/
  | almanacSupplyChange (supply : AlmSupply)
  /-- USB_DETACH (R428): The USB host detaches or the USB link is lost, and HOST_STATUS.usb_up clears. -/
  | usbDetach
  /-- CONFIGURATION_REQUEST (R498): A PCIe configuration read or write reaches the endpoint and is answered with Retry Status until the configuration space is loaded, or served, including power-state changes. -/
  | configurationRequest (req : CfgReq)
  /-- PTP_DELAY_REQ_INTERVAL (R217): At its interval the slave port sends a Delay_Req, or a port in peer-to-peer mode sends a Pdelay_Req, and stamps its egress as t3. -/
  | ptpDelayReqInterval (port : BitVec 2)
  /-- WAKE_N_TIMEOUT (R491): WAKE_N is released 100 ms after the device left standby on its own when PERST_N has not fallen. -/
  | wakeNTimeout
  /-- PPS_IN_SEEN_EXPIRY (R229): BELL_STATUS.pps_in_seen clears when no 1PPS pulse has been accepted for 2 s. -/
  | ppsInSeenExpiry
  /-- HITCH_CLOCK_STOPPED (R440): HITCH_STATUS.k_active clears when no K edge has been seen for 1 µs. -/
  | hitchClockStopped
  /-- CAN_BUS_OFF_RECOVERY (R173): A CAN controller in bus-off returns to error active after the recovery sequence of ISO 11898-1 and GATE_STATUS.can_on sets again. -/
  | canBusOffRecovery (ctl : BitVec 1)
  /-- PRIMARY_SIDE_FAULT (R501): A fault on the primary side latches cause 5 in the cause latch and removes the logic-side rails. -/
  | primarySideFault
  /-- HEAD_WORD_TAKE (R196): In an F clock the Yoke intake takes a non-final word from the head of the trough its pointer chooses, advancing rd and the intake pointer. -/
  | headWordTake
deriving DecidableEq, Repr

end Sys2Proof
end

