-- ==== Sys2Proof/Config.lean ====
section
/-! DEFINITION. What the spec leaves open: free values without a body, so that nothing can be proved of the value chosen
(each one is named in a row of the assumption log), and the device's own secrets, which the spec does not give. -/

namespace Sys2Proof.Config

/-- A fresh free value for each count of the model's counter `Dev.free` (log 6). -/
opaque freeNat : Nat → Nat

/-- Which set of the translation cache a page falls in (R158 gives no index function; log 30). -/
opaque tlbSet : Nat → Nat → Nat → Nat

/-- The physical address of the level-0 table that the Steward builds for a context of a generation (R152 leaves the
placement to the Steward; log 31). -/
opaque tableRoot : Nat → Nat → Nat

/-- The root the Steward writes to HEDGE_MGMT_ROOT (R524 leaves its place in the top 16 MiB open; log 31). -/
opaque mgmtRoot : Nat

/-- The mark entry point of a context on a plough (R56, R363 name it and give no place for it; log 32). -/
opaque markEntry : Nat → Nat → Nat

/-- The seed that the PUF array yields through the helper data, or none when correction fails (R456; the array is the part's own; log 33). -/
opaque pufSeed : List Byte → Option (List Byte)

/-- The record that the Steward puts in a log entry of its own, by the entry's kind and what it reports (R460 gives no layout; log 35). -/
opaque stewRecord : Nat → List Nat → List Byte

/-- The 64 bytes of a job in a dump, from its block address, kind, lane, context and state (R475 gives no layout; log 38). -/
opaque dumpJob : List Nat → List Byte

/-- Wyduken's default PCIe identity: vendor, subsystem vendor, subsystem (R498; the values are the maker's; log 42). -/
opaque defaultIds : Nat

/-- A word of the configuration space that the spec does not lay out, by its index and what was last written to it (R417; log 42). -/
opaque cfgWord : Nat → Nat → Nat

/-- The fraction count of an entry of the factor L, and of the words inside a solve (R311 gives no class; log 64). -/
opaque millLFrac : Nat
/-- See `millLFrac`. -/
opaque millSolveFrac : Nat

/-- The root public key of the boot ROM, x then y (R451; the value is the maker's own; log 33). -/
opaque rootKey : Nat × Nat

/-- Where the Steward has put a page of tables (R153): space, generation, level, the virtual address bits above it; in units of 4 KiB of
stack memory (log 31). -/
opaque tablePage : Nat → Nat → Nat → Nat → Nat

/-- Where the Steward's RAM lies among the addresses of its own code (R443 names the RAM and mapped space, no address; log 96). -/
opaque stewRam : Nat

end Sys2Proof.Config
end

