-- ==== Sys2Proof/Machine/Bits.lean ====
section
/-! DEFINITION. Sparse maps in one canonical form: lists of (key, value) pairs with strictly rising keys and no
entry equal to what an unlisted key reads as. Memory, the register file and the scalar registers are such maps. -/

namespace Sys2Proof.Machine

/-- A sparse map from naturals. -/
abbrev SMap (α : Type) := List (Nat × α)

/-- The value at key `k`; an unlisted key reads `dflt k`. -/
def SMap.get {α : Type} (dflt : Nat → α) : SMap α → Nat → α
  | [], k => dflt k
  | (j, v) :: m, k => if k < j then dflt k else if k = j then v else SMap.get dflt m k

/-- The map with key `k` removed. -/
def SMap.erase {α : Type} : SMap α → Nat → SMap α
  | [], _ => []
  | (j, v) :: m, k => if k < j then (j, v) :: m else if k = j then m else (j, v) :: SMap.erase m k

/-- The map with `k` bound to `v`, kept sorted. -/
def SMap.insert {α : Type} : SMap α → Nat → α → SMap α
  | [], k, v => [(k, v)]
  | (j, u) :: m, k, v =>
    if k < j then (k, v) :: (j, u) :: m
    else if k = j then (k, v) :: m
    else (j, u) :: SMap.insert m k v

/-- Write `v` at `k`: writing what an unlisted key reads as removes the entry. -/
def SMap.set {α : Type} [DecidableEq α] (dflt : Nat → α) (m : SMap α) (k : Nat) (v : α) : SMap α :=
  if v = dflt k then SMap.erase m k else SMap.insert m k v

/-- Every key of `m` is above `b` and the keys rise strictly; no entry equals its default. -/
def SMap.wfAbove {α : Type} [DecidableEq α] (dflt : Nat → α) : Nat → SMap α → Bool
  | _, [] => true
  | b, (j, v) :: m => decide (b ≤ j) && decide (v ≠ dflt j) && SMap.wfAbove dflt (j + 1) m

/-- The canonical form. -/
def SMap.wf {α : Type} [DecidableEq α] (dflt : Nat → α) (m : SMap α) : Bool := SMap.wfAbove dflt 0 m

/-- Change the value at `k`. -/
def SMap.modify {α : Type} [DecidableEq α] (dflt : Nat → α) (m : SMap α) (k : Nat) (f : α → α) : SMap α :=
  SMap.set dflt m k (f (SMap.get dflt m k))

/-- Remove the entries whose key and value satisfy `p`. -/
def SMap.dropIf {α : Type} (p : Nat → α → Bool) (m : SMap α) : SMap α := m.filter fun e => !p e.1 e.2

/-- The first index of `l` at or cyclically after `start` (of `n` places) that satisfies `p`: a rotating-priority pick. -/
def rotPick (n start : Nat) (p : Nat → Bool) : Option Nat :=
  ((List.range n).map fun i => (start + i) % n).find? p

/-- Replace element `i` of a list. -/
def setAt {α : Type} (l : List α) (i : Nat) (v : α) : List α := l.set i v

/-- The element at index `i`, or `d`. -/
def getAt {α : Type} (l : List α) (i : Nat) (d : α) : α := l.getD i d

/-- Set bit `i` of `n` to `b`. -/
def putBit (n i : Nat) (b : Bool) : Nat := putField n i 1 (if b then 1 else 0)

/-- 0 or 1. -/
def b2n (b : Bool) : Nat := if b then 1 else 0

/-- Run `f` on the numbers `0 … n - 1` in order. -/
def iter {α : Type} (n : Nat) (a : α) (f : Nat → α → α) : α := (List.range n).foldl (fun x i => f i x) a

end Sys2Proof.Machine
end

