-- ==== Sys2Proof/Machine/Float.lean ====
section
/-! DEFINITION. The number formats of the device (spec/04_number_formats.md R97–R114): exact dyadic values, the format
codes, decoding, rounding in every mode, conversion with its range rules, block scaling, and the FP32 operations that
round once. Values are computed exactly and rounded once, as the spec states. -/

namespace Sys2Proof.Machine.Fp

/-- A dyadic rational `(-1)^neg · man · 2^exp`; a zero keeps its sign (R100). -/
structure Dyad where
  neg : Bool
  man : Nat
  exp : Int
deriving DecidableEq, Repr

/-- A floating value: canonical NaN, an infinity or a finite dyadic (R98, R99). -/
inductive FVal where
  | nan
  | inf (neg : Bool)
  | fin (d : Dyad)
deriving DecidableEq, Repr

/-- A floating format of R98: field widths, bias, largest finite magnitude pattern, and which specials it has (R99). -/
structure FFmt where
  ebits : Nat
  mbits : Nat
  bias : Nat
  maxMag : Nat
  hasInf : Bool
  hasNan : Bool
  nanBits : Nat
deriving DecidableEq, Repr

def fp32 : FFmt := ⟨8, 23, 127, 0x7F7FFFFF, true, true, 0x7FC00000⟩
def fp16 : FFmt := ⟨5, 10, 15, 0x7BFF, true, true, 0x7E00⟩
def bf16 : FFmt := ⟨8, 7, 127, 0x7F7F, true, true, 0x7FC0⟩
def e4m3 : FFmt := ⟨4, 3, 7, 0x7E, false, true, 0x7F⟩
def e5m2 : FFmt := ⟨5, 2, 15, 0x7B, true, true, 0x7E⟩
def e3m2 : FFmt := ⟨3, 2, 3, 0x1F, false, false, 0⟩
def e2m3 : FFmt := ⟨2, 3, 1, 0x1F, false, false, 0⟩
def e2m1 : FFmt := ⟨2, 1, 1, 0x7, false, false, 0⟩

/-- The floating format with code `c` (R97). -/
def floatFmt : Nat → Option FFmt
  | 0 => some fp32 | 1 => some fp16 | 2 => some bf16 | 3 => some e4m3
  | 4 => some e5m2 | 5 => some e3m2 | 6 => some e2m3 | 7 => some e2m1 | _ => none

/-- Width in bits of format code `c`; 0 for a reserved code (R97). -/
def fmtBits : Nat → Nat
  | 0 => 32 | 1 => 16 | 2 => 16 | 3 => 8 | 4 => 8 | 5 => 6 | 6 => 6 | 7 => 4
  | 8 => 32 | 9 => 16 | 10 => 8 | 11 => 4 | 12 => 32 | _ => 0

/-- Whether the code is one of R97. -/
def fmtValid (c : Nat) : Bool := c ≤ 12

/-- Whether block scaling is allowed on the format (R97). -/
def fmtMx : Nat → Bool
  | 3 => true | 4 => true | 5 => true | 6 => true | 7 => true | 10 => true | _ => false

/-- Whether the code is an integer format. -/
def fmtInt (c : Nat) : Bool := 8 ≤ c && c ≤ 11

/-- `floor (log2 n)` for `n > 0`. -/
def lg (n : Nat) : Nat := Nat.log2 n

/-- Decode a bit pattern of a floating format (R98, R99). -/
def decode (f : FFmt) (bits : Nat) : FVal :=
  let neg := bits.testBit (f.ebits + f.mbits)
  let e := (bits >>> f.mbits) % 2 ^ f.ebits
  let m := bits % 2 ^ f.mbits
  let mag := bits % 2 ^ (f.ebits + f.mbits)
  if f.hasNan && f.maxMag < mag && !(f.hasInf && mag == f.maxMag + 1) then .nan
  else if f.hasInf && mag == f.maxMag + 1 then .inf neg
  else if e = 0 then .fin ⟨neg, m, 1 - (f.bias : Int) - f.mbits⟩
  else .fin ⟨neg, 2 ^ f.mbits + m, (e : Int) - f.bias - f.mbits⟩

/-- The rounding modes of R106; `sr u` carries the 16 random bits of R107. -/
inductive Rm where
  | rne | rtz | rdn | rup
  | sr (u : Nat)
deriving DecidableEq, Repr

/-- Round `man · 2^(-sh)` to an integer in mode `rm` (R106, R107). -/
def roundShift (rm : Rm) (neg : Bool) (man : Nat) (sh : Int) : Nat :=
  if sh ≤ 0 then man <<< (-sh).toNat
  else
    let k := sh.toNat
    let q := man >>> k
    let r := man % 2 ^ k
    match rm with
    | .rne => if 2 * r > 2 ^ k || (2 * r == 2 ^ k && q % 2 == 1) then q + 1 else q
    | .rtz => q
    | .rdn => if neg && r != 0 then q + 1 else q
    | .rup => if !neg && r != 0 then q + 1 else q
    | .sr u => if (r * 65536) >>> k + u ≥ 65536 then q + 1 else q

/-- The magnitude pattern (exponent and mantissa fields together, unbounded above) of a non-zero dyadic rounded to
the grid of `f`. -/
def roundMag (f : FFmt) (rm : Rm) (d : Dyad) : Nat :=
  let l : Int := (lg d.man : Int) + d.exp
  let e : Int := max l (1 - (f.bias : Int))
  let g : Int := e - f.mbits
  let q := roundShift rm d.neg d.man (g - d.exp)
  ((e + f.bias - 1).toNat) <<< f.mbits + q

/-- The sign bit of a format in place. -/
def signBit (f : FFmt) (neg : Bool) : Nat := if neg then 2 ^ (f.ebits + f.mbits) else 0

/-- Whether mode `rm` may round the finite value `d` beyond the largest finite magnitude of `f` (R109): the directed
modes only in their own direction; SR only by the grid step it adds (log 20). -/
def roundsAway (f : FFmt) (rm : Rm) (d : Dyad) : Bool :=
  match rm with
  | .rne => true
  | .rtz => false
  | .rdn => d.neg
  | .rup => !d.neg
  | .sr _ => roundMag f rm d ≠ roundMag f .rtz d

/-- Whether a conversion result saturated or met a NaN, for PLOUGH_CVT_SAT and PLOUGH_CVT_NAN (R109). -/
inductive CvtNote where
  | none | sat | nan
deriving DecidableEq, Repr

/-- Encode a value in floating format `f` (R108, R109). -/
def encode (f : FFmt) (rm : Rm) (sat : Bool) (v : FVal) : Nat × CvtNote :=
  match v with
  | .nan => if f.hasNan then (f.nanBits, .none) else (0, .nan)
  | .inf neg =>
    if f.hasInf && !sat then (signBit f neg + f.maxMag + 1, .none)
    else (signBit f neg + f.maxMag, .sat)
  | .fin d =>
    if d.man = 0 then (signBit f d.neg, .none)
    else
      let mag := roundMag f rm d
      if mag ≤ f.maxMag then (signBit f d.neg + mag, .none)
      else if !roundsAway f rm d then (signBit f d.neg + f.maxMag, .none)
      else if f.hasInf && !sat then (signBit f d.neg + f.maxMag + 1, .none)
      else (signBit f d.neg + f.maxMag, .sat)

/-- Round a dyadic to an integer in mode `rm`. -/
def roundInt (rm : Rm) (d : Dyad) : Int :=
  let q := roundShift rm d.neg d.man (-d.exp)
  if d.neg then -(q : Int) else (q : Int)

/-- Encode a value in a `w`-bit integer format: the nearest range end outside the range, 0 for NaN (R109). -/
def encodeInt (w : Nat) (rm : Rm) (v : FVal) : Nat × CvtNote :=
  match v with
  | .nan => (0, .nan)
  | .inf neg => (if neg then 2 ^ (w - 1) else 2 ^ (w - 1) - 1, .sat)
  | .fin d =>
    let i := roundInt rm d
    let s := satSigned w i
    (ofSigned w s, if s = i then .none else .sat)

/-- An integer as an exact value. -/
def ofInt (i : Int) : FVal := .fin ⟨decide (i < 0), i.natAbs, 0⟩

/-- The exact value of an element of format code `c` with pattern `bits` (R98, R101); FX32 has fraction count 0 here. -/
def decodeElem (c bits : Nat) : FVal :=
  match floatFmt c with
  | some f => decode f bits
  | none => ofInt (toSigned (fmtBits c) bits)

/-- Encode an exact value in format code `c`. -/
def encodeElem (c : Nat) (rm : Rm) (sat : Bool) (v : FVal) : Nat × CvtNote :=
  match floatFmt c with
  | some f => encode f rm sat v
  | none => encodeInt (fmtBits c) rm v

/-- Multiply a value exactly by `2^k`. -/
def scale2 (k : Int) : FVal → FVal
  | .fin d => .fin { d with exp := d.exp + k }
  | v => v

/-- Exact sum of two finite dyadics; a zero sum of opposite signs is +0 (RNE, R100). -/
def addD (a b : Dyad) : Dyad :=
  let e := min a.exp b.exp
  let x : Int := (if a.neg then -1 else 1) * ((a.man <<< (a.exp - e).toNat : Nat) : Int)
  let y : Int := (if b.neg then -1 else 1) * ((b.man <<< (b.exp - e).toNat : Nat) : Int)
  let s := x + y
  if s = 0 then ⟨a.neg && b.neg, 0, e⟩ else ⟨decide (s < 0), s.natAbs, e⟩

/-- Exact product. -/
def mulD (a b : Dyad) : Dyad := ⟨a.neg != b.neg, a.man * b.man, a.exp + b.exp⟩

/-- Exact sum with IEEE 754 special values. -/
def addV : FVal → FVal → FVal
  | .nan, _ => .nan
  | _, .nan => .nan
  | .inf a, .inf b => if a = b then .inf a else .nan
  | .inf a, _ => .inf a
  | _, .inf b => .inf b
  | .fin a, .fin b => .fin (addD a b)

/-- Exact product with IEEE 754 special values. -/
def mulV : FVal → FVal → FVal
  | .nan, _ => .nan
  | _, .nan => .nan
  | .inf a, .inf b => .inf (a != b)
  | .inf a, .fin d => if d.man = 0 then .nan else .inf (a != d.neg)
  | .fin d, .inf a => if d.man = 0 then .nan else .inf (a != d.neg)
  | .fin a, .fin b => .fin (mulD a b)

/-- Change the sign. -/
def negV : FVal → FVal
  | .nan => .nan
  | .inf a => .inf (!a)
  | .fin d => .fin { d with neg := !d.neg }

/-- A quotient with one sticky bit below 80 quotient bits, enough for one correct rounding to any format here. -/
def divD (a b : Dyad) : Dyad :=
  let k := 120 + lg b.man
  let n := a.man <<< k
  let q := n / b.man
  ⟨a.neg != b.neg, 2 * q + b2n (n % b.man != 0), a.exp - b.exp - k - 1⟩

/-- Quotient with IEEE 754 special values. -/
def divV : FVal → FVal → FVal
  | .nan, _ => .nan
  | _, .nan => .nan
  | .inf _, .inf _ => .nan
  | .inf a, .fin d => .inf (a != d.neg)
  | .fin d, .inf a => .fin ⟨d.neg != a, 0, 0⟩
  | .fin a, .fin b =>
    if b.man = 0 then (if a.man = 0 then .nan else .inf (a.neg != b.neg)) else .fin (divD a b)

/-- Integer square root, one result bit at a time from bit `k`. -/
def isqrtFrom : Nat → Nat → Nat → Nat
  | 0, _, r => r
  | k + 1, n, r => let c := r + 2 ^ k; isqrtFrom k n (if c * c ≤ n then c else r)

/-- `floor (sqrt n)`. -/
def isqrt (n : Nat) : Nat := isqrtFrom (lg n / 2 + 1) n 0

/-- Square root with a sticky bit. -/
def sqrtD (d : Dyad) : Dyad :=
  let k : Nat := 160
  let odd := d.exp % 2 ≠ 0
  let m := (if odd then 2 * d.man else d.man) <<< (2 * k)
  let e := (if odd then d.exp - 1 else d.exp) / 2 - k
  let r := isqrt m
  ⟨false, 2 * r + b2n (r * r != m), e - 1⟩

/-- √x: −0 stays −0 and a negative operand gives NaN (IEEE 754-2019, R136). -/
def sqrtV : FVal → FVal
  | .nan => .nan
  | .inf neg => if neg then .nan else .inf false
  | .fin d => if d.man = 0 then .fin d else if d.neg then .nan else .fin (sqrtD d)

/-- 1/√x for a positive dyadic, with a sticky bit. -/
def rsqrtD (d : Dyad) : Dyad :=
  let odd := d.exp % 2 ≠ 0
  let m := if odd then 2 * d.man else d.man
  let e := (if odd then d.exp - 1 else d.exp) / 2
  let k := 160 + lg m
  let y := 2 ^ (2 * k) / m
  let r := isqrt y
  ⟨false, 2 * r + b2n (r * r * m != 2 ^ (2 * k)), -e - k - 1⟩

/-- 1/√x; ±0 gives ±∞ (R136). -/
def rsqrtV : FVal → FVal
  | .nan => .nan
  | .inf neg => if neg then .nan else .fin ⟨false, 0, 0⟩
  | .fin d => if d.man = 0 then .inf d.neg else if d.neg then .nan else .fin (rsqrtD d)

/-! ### Transcendental functions: fixed-point values with `P` fraction bits, accurate far beyond one rounding -/

/-- Fraction bits of the fixed-point evaluations. -/
def P : Nat := 320

/-- Σ terms of a series; each round gets the index and the last term. -/
def series (f : Nat → Int → Int) : Nat → Nat → Int → Int → Int
  | 0, _, _, s => s
  | k + 1, n, t, s => let t' := f n t; series f k (n + 1) t' (s + t')

/-- Fixed-point product. -/
def fxMul (a b : Int) : Int := (a * b) / 2 ^ P

/-- ln 2 = Σ 1 / (k 2^k). -/
def ln2Fx : Int := (List.range 340).foldl (fun s i => s + (2 ^ P : Int) / (((i + 1) * 2 ^ (i + 1) : Nat) : Int)) 0

/-- e^x for a small non-negative fixed-point x. -/
def expFx (x : Int) : Int := 2 ^ P + series (fun n t => fxMul t x / (n : Int)) 90 1 (2 ^ P) 0

/-- The arctangent of a fixed-point x in [0, 1/4]: the alternating series. -/
def atanSmall (x : Int) : Int :=
  let x2 := fxMul x x
  ((List.range 90).foldl (fun (a : Int × Int) i =>
    let t := a.1 / ((2 * i + 1 : Nat) : Int)
    (fxMul a.1 x2, a.2 + (if i % 2 = 0 then t else -t))) (x, 0)).2

/-- Fixed-point square root of a non-negative value. -/
def sqrtFx (x : Int) : Int := (isqrt (x.toNat <<< P) : Nat)

/-- arctan of a fixed-point value in [0, 1], by three halvings of the angle. -/
def atanUnit (x : Int) : Int :=
  let half (z : Int) : Int := (z * 2 ^ P) / (2 ^ P + sqrtFx (2 ^ P + fxMul z z))
  8 * atanSmall (half (half (half x)))

/-- π = 4 arctan 1. -/
def piFx : Int := 4 * atanUnit (2 ^ P)

/-- atan2 (y, x) for y ≥ 0, x ≥ 0, not both zero. -/
def atan2Fx (y x : Int) : Int :=
  if y ≤ x then atanUnit ((y * 2 ^ P) / x) else piFx / 2 - atanUnit ((x * 2 ^ P) / y)

/-- sin of a fixed-point angle in [0, π/2]. -/
def sinSmall (x : Int) : Int :=
  let x2 := fxMul x x
  x + series (fun n t => -(fxMul t x2) / (((2 * n) * (2 * n + 1) : Nat) : Int)) 60 1 x 0

/-- sin of a fixed-point angle by reduction to the first quadrant. -/
def sinFx (x : Int) : Int :=
  let q := x / (piFx / 2)
  let r := x - q * (piFx / 2)
  match (q % 4).toNat with
  | 0 => sinSmall r
  | 1 => sinSmall (piFx / 2 - r)
  | 2 => -(sinSmall r)
  | _ => -(sinSmall (piFx / 2 - r))

/-- cos through sin. -/
def cosFx (x : Int) : Int := sinFx (x + piFx / 2)

/-- A dyadic as a fixed-point value (bits below the fixed point are cut). -/
def toFx (d : Dyad) : Int :=
  let m : Int := if d.neg then -(d.man : Int) else d.man
  let s := d.exp + P
  if 0 ≤ s then m * 2 ^ s.toNat else m / 2 ^ (-s).toNat

/-- An inexact fixed-point value as a dyadic with a sticky bit. -/
def ofFx (x : Int) : Dyad := ⟨decide (x < 0), 2 * x.natAbs + 1, -(P : Int) - 1⟩

/-- 2^x, exact value with a sticky bit (R136). -/
def exp2V : FVal → FVal
  | .nan => .nan
  | .inf neg => if neg then .fin ⟨false, 0, 0⟩ else .inf false
  | .fin d =>
    if d.man = 0 then .fin ⟨false, 1, 0⟩
    else if (lg d.man : Int) + d.exp > 12 then (if d.neg then .fin ⟨false, 1, -5000⟩ else .fin ⟨false, 1, 5000⟩)
    else
      let x := toFx d
      let n := x / 2 ^ P
      let f := x - n * 2 ^ P
      if f = 0 then
        (if 0 ≤ d.exp + (P : Int) then .fin ⟨false, 1, n⟩ else .fin ⟨false, 2 ^ 200 + b2n (!d.neg), n - 200⟩)
      else .fin { ofFx (expFx (fxMul f ln2Fx)) with exp := -(P : Int) - 1 + n }

/-- The fraction bits of log2 of a fixed-point value in [1, 2), by repeated squaring. -/
def log2Bits : Nat → Nat → Nat → Nat
  | 0, _, acc => acc
  | k + 1, y, acc =>
    let y2 := (y * y) >>> P
    if y2 ≥ 2 ^ (P + 1) then log2Bits k (y2 / 2) (2 * acc + 1) else log2Bits k y2 (2 * acc)

/-- log2 x (R136): ±0 gives −∞ and a negative operand NaN. -/
def log2V : FVal → FVal
  | .nan => .nan
  | .inf neg => if neg then .nan else .inf false
  | .fin d =>
    if d.man = 0 then .inf true
    else if d.neg then .nan
    else
      let l := lg d.man
      let e : Int := (l : Int) + d.exp
      if d.man = 2 ^ l then .fin ⟨decide (e < 0), e.natAbs, 0⟩
      else
        let fr : Nat := log2Bits 120 (d.man <<< (P - l)) 0
        let v : Int := e * 2 ^ 121 + (2 * fr + 1 : Nat)
        .fin ⟨decide (v < 0), v.natAbs, -121⟩

/-! ### FP32 operations on 32-bit patterns, each rounded once, RNE -/

/-- Round an exact value to FP32, RNE. -/
def rnd (v : FVal) : Nat := (encode fp32 .rne false v).1
/-- The exact value of an FP32 pattern. -/
def val (b : Nat) : FVal := decode fp32 b

def add (a b : Nat) : Nat := rnd (addV (val a) (val b))
def sub (a b : Nat) : Nat := rnd (addV (val a) (negV (val b)))
def mul (a b : Nat) : Nat := rnd (mulV (val a) (val b))
def div (a b : Nat) : Nat := rnd (divV (val a) (val b))
def fma (a b c : Nat) : Nat := rnd (addV (mulV (val a) (val b)) (val c))
def sqrt (a : Nat) : Nat := rnd (sqrtV (val a))
def rsqrt (a : Nat) : Nat := rnd (rsqrtV (val a))
def exp2 (a : Nat) : Nat := rnd (exp2V (val a))
def log2 (a : Nat) : Nat := rnd (log2V (val a))
def neg (a : Nat) : Nat := if val a = .nan then 0x7FC00000 else a ^^^ 0x80000000
def abs (a : Nat) : Nat := a % 0x80000000
/-- An integer rounded to FP32. -/
def ofZ (i : Int) : Nat := rnd (ofInt i)
/-- A rational `n / d` rounded once to FP32. -/
def ofRat (n : Int) (d : Nat) : Nat := rnd (divV (ofInt n) (ofInt d))
def isNan (a : Nat) : Bool := val a == .nan
def isInf (a : Nat) : Bool := a % 0x80000000 == 0x7F800000
def isFinite (a : Nat) : Bool := !isNan a && !isInf a

/-- The sign of the difference of two non-NaN values. -/
def cmpV : FVal → FVal → Option Ordering
  | .nan, _ => none
  | _, .nan => none
  | .inf a, .inf b => some (compare (!a) (!b))
  | .inf a, _ => some (if a then .lt else .gt)
  | _, .inf b => some (if b then .gt else .lt)
  | .fin a, .fin b =>
    let s := addD a { b with neg := !b.neg }
    some (if s.man = 0 then .eq else if s.neg then .lt else .gt)

/-- `a < b` (false when unordered). -/
def lt (a b : Nat) : Bool := cmpV (val a) (val b) == some .lt
def le (a b : Nat) : Bool := cmpV (val a) (val b) == some .lt || cmpV (val a) (val b) == some .eq
def eq (a b : Nat) : Bool := cmpV (val a) (val b) == some .eq

/-- sin, cos, acos and atan of FP32 values, each the exact value rounded once. -/
def sin (a : Nat) : Nat :=
  match val a with
  | .fin d => if d.man = 0 then a else rnd (.fin (ofFx (sinFx (toFx d))))
  | _ => 0x7FC00000
def cos (a : Nat) : Nat :=
  match val a with
  | .fin d => if d.man = 0 then 0x3F800000 else rnd (.fin (ofFx (cosFx (toFx d))))
  | _ => 0x7FC00000
/-- acos on [−1, 1]; outside it NaN. -/
def acos (a : Nat) : Nat :=
  match val a with
  | .fin d =>
    let x := toFx d
    if x = 2 ^ P then 0
    else if x > 2 ^ P || x < -(2 ^ P) then 0x7FC00000
    else
      let s := sqrtFx (2 ^ P - fxMul x x)
      rnd (.fin (ofFx (if 0 ≤ x then atan2Fx s x else piFx - atan2Fx s (-x))))
  | _ => 0x7FC00000
/-- atan2 (y, x) of FP32 values for y ≥ 0 and x ≥ 0, not both zero. -/
def atan2 (y x : Nat) : Nat :=
  match val y, val x with
  | .fin a, .fin b => if a.man = 0 then 0 else rnd (.fin (ofFx (atan2Fx (toFx a) (toFx b))))
  | _, _ => 0x7FC00000

/-- IEEE minimum of R136: −0 below +0, a NaN yields the other operand. -/
def minV (a b : FVal) : FVal :=
  match a, b with
  | .nan, .nan => .nan
  | .nan, y => y
  | x, .nan => x
  | x, y =>
    match cmpV x y with
    | some .lt => x
    | some .gt => y
    | _ => match x with
      | .fin d => if d.neg then x else y
      | _ => x

/-- IEEE maximum of R136. -/
def maxV (a b : FVal) : FVal :=
  match a, b with
  | .nan, .nan => .nan
  | .nan, y => y
  | x, .nan => x
  | x, y =>
    match cmpV x y with
    | some .gt => x
    | some .lt => y
    | _ => match x with
      | .fin d => if d.neg then y else x
      | _ => x

/-! ### Stochastic rounding bits (R107) -/

/-- `sr_mix` of R107. -/
def srMix (x : BitVec 64) : BitVec 64 :=
  let x := x ^^^ (x >>> 31)
  let x := x * 0xD6E8FEB86659FD93#64
  let x := x ^^^ (x >>> 29)
  let x := x * 0xA5CB3D2714E19F3B#64
  x ^^^ (x >>> 32)

/-- `sr_bits` of R107. -/
def srBits (seed : BitVec 64) (period ccount plough slot e : Nat) : Nat :=
  let k := srMix (BitVec.ofNat 64 ((period % 2 ^ 32) <<< 32 + ccount % 2 ^ 32))
  let x := srMix (seed ^^^ k ^^^ BitVec.ofNat 64 (plough <<< 59) ^^^ BitVec.ofNat 64 (slot <<< 56)
    ^^^ BitVec.ofNat 64 ((e % 2 ^ 32) >>> 2))
  (x.toNat >>> (16 * (e % 4))) % 65536

/-- The rounding mode with code `rm` of R106 for element `e`; `none` for a reserved code. -/
def rmOf (rm : Nat) (u : Nat) : Option Rm :=
  match rm with
  | 0 => some .rne | 1 => some .rtz | 2 => some .rdn | 3 => some .rup | 4 => some (.sr u) | _ => none

/-! ### Packing (R102) and block scaling (R103–R105) -/

/-- Element `i` of a packed little-endian array of `w`-bit elements held as one number. -/
def elemAt (n w i : Nat) : Nat := (n >>> (w * i)) % 2 ^ w

/-- Pack `w`-bit elements, element 0 lowest. -/
def pack (w : Nat) : List Nat → Nat
  | [] => 0
  | x :: xs => x % 2 ^ w + (pack w xs) <<< w

/-- emax of R105 for a block-scaled element format. -/
def emax : Nat → Int
  | 3 => 8 | 4 => 15 | 5 => 4 | 6 => 2 | 7 => 2 | _ => 0

/-- The value of a block-scaled element under scale byte `x` (R103). -/
def mxValue (c x bits : Nat) : FVal :=
  if x = 0xFF then .nan
  else
    let v := match floatFmt c with
      | some f => decode f bits
      | none => scale2 (-6) (ofInt (toSigned 8 bits))
    scale2 ((x : Int) - 127) v

/-- The largest magnitude among exact values. -/
def amax (vs : List FVal) : Dyad :=
  vs.foldl (fun (m : Dyad) v =>
    match v with
    | .fin d => if (addD { d with neg := false } { m with neg := true }).neg then m
                else { d with neg := false }
    | _ => m) ⟨false, 0, 0⟩

/-- Form one MX block from exact values (R105): its scale byte, its elements, and whether it got the NaN scale. The
rounding mode may depend on the element's place. -/
def mxBlock (c : Nat) (rm : Nat → Rm) (vs : List FVal) : Nat × List Nat × Bool :=
  let bad := vs.any fun v => match v with | .fin _ => false | _ => true
  let a := amax vs
  if bad then (0xFF, vs.map fun _ => 0, true)
  else
    let x : Nat :=
      if a.man = 0 then 0
      else
        let e : Int := (lg a.man : Int) + a.exp - emax c
        (max (-127) (min 127 e) + 127).toNat
    let conv (v : FVal) (i : Nat) : Nat :=
      let y := scale2 (127 - (x : Int) + (if c = 10 then 6 else 0)) v
      (encodeElem c (rm i) true y).1
    (x, (vs.zip (List.range vs.length)).map fun p => conv p.1 p.2, false)

/-! ### FX32 (R113, R114) -/

/-- Round an exact value `n / 2^f` to `fd` fraction bits, RNE, saturated to 32 bits; the flag reports saturation. -/
def fxRound (n : Int) (f fd : Nat) : Int × Bool :=
  let sh : Int := (f : Int) - fd
  let q := roundShift .rne (decide (n < 0)) n.natAbs sh
  let v : Int := if n < 0 then -(q : Int) else q
  let s := satSigned 32 v
  (s, decide (s ≠ v))

/-- FP32 into FX32 with fraction count `f` (R109, R114): NaN gives 0; NaN and saturation set SAT. -/
def toFx32 (f bits : Nat) : Int × Bool :=
  match val bits with
  | .nan => (0, true)
  | .inf neg => (if neg then -(2 ^ 31) else 2 ^ 31 - 1, true)
  | .fin d =>
    let i := roundInt .rne { d with exp := d.exp + f }
    let s := satSigned 32 i
    (s, decide (s ≠ i))

/-- FX32 into FP32, RNE (R114). -/
def ofFx32 (f : Nat) (k : Int) : Nat := rnd (.fin ⟨decide (k < 0), k.natAbs, -(f : Int)⟩)

end Sys2Proof.Machine.Fp
end

