-- ==== Sys2Proof/Machine/RegMap.lean ====
section
/-! DEFINITION. The BAR0 register map (spec/01_architecture.md R21, spec/00_scope.md R9, R10, R13, R14): the address of
every register of the spec's register tables, its fields, their access types and their reset values. `R.X` is the address
of register X (index arguments for arrays); `F.X_f` is field f of register X. Written from the register tables of
R33, R96, R115, R140, R163, R189, R203, R229, R261, R274, R298, R321, R357, R375, R398, R416, R440, R441, R463, R480, R501. -/

namespace Sys2Proof.Machine

/-- The access types of R10. -/
inductive Access where
  | ro | rw | wo | w1c | w1s | rc | rwl
deriving DecidableEq, Repr

/-- One field of a register table: its place, access type and reset value. -/
structure RegField where
  lsb : Nat
  width : Nat
  acc : Access
  reset : Nat
deriving DecidableEq, Repr

/-- One register of the tables, or an array of them: `dims` lists (count, stride) from the outermost. -/
structure RegRow where
  name : String
  base : Nat
  dims : List (Nat × Nat)
  wide : Bool
  fields : List RegField
deriving DecidableEq, Repr

/-- A named field at an absolute BAR0 address. -/
structure FieldRef where
  addr : Nat
  lsb : Nat
  width : Nat
deriving DecidableEq, Repr

/-- Registers of block TOP. -/
def regsTOP : List RegRow :=
  [
    ⟨"TOP_ID", 0, [], false, [⟨0, 16, .ro, 0x4816⟩, ⟨16, 8, .ro, 0xB1⟩]⟩,
    ⟨"TOP_REV", 4, [], false, [⟨0, 8, .ro, 2⟩, ⟨8, 8, .ro, 1⟩]⟩,
    ⟨"TOP_DEVICE_NUM", 8, [], false, [⟨0, 3, .ro, 0⟩, ⟨4, 2, .ro, 0⟩, ⟨8, 4, .ro, 1⟩]⟩,
    ⟨"TOP_SCRATCH", 0xC, [], false, [⟨0, 32, .rw, 0⟩]⟩,
    ⟨"TOP_STATUS", 0x10, [], false, [⟨0, 1, .ro, 0⟩, ⟨1, 1, .ro, 0⟩, ⟨2, 1, .ro, 0⟩, ⟨3, 1, .ro, 0⟩, ⟨4, 1, .ro, 0⟩, ⟨5, 1, .ro, 0⟩, ⟨6, 1, .ro, 0⟩, ⟨7, 1, .ro, 0⟩, ⟨8, 4, .ro, 0⟩]⟩,
    ⟨"TOP_IRQ_SUMMARY", 0x20, [], false, [⟨0, 1, .ro, 0⟩, ⟨1, 14, .ro, 0⟩, ⟨16, 1, .ro, 0⟩]⟩,
    ⟨"TOP_IRQ_MASK", 0x24, [], false, [⟨0, 17, .rw, 0x1FFFF⟩]⟩,
    ⟨"TOP_IRQ_CTL", 0x28, [], false, [⟨0, 8, .rw, 1⟩]⟩,
    ⟨"TOP_EVT_RING_BASE", 0x40, [], true, [⟨12, 52, .rw, 0⟩]⟩,
    ⟨"TOP_EVT_RING_SIZE", 0x48, [], false, [⟨0, 5, .rw, 7⟩]⟩,
    ⟨"TOP_EVT_CTL", 0x4C, [], false, [⟨0, 1, .rw, 0⟩, ⟨1, 1, .w1s, 0⟩, ⟨8, 8, .rw, 0⟩]⟩,
    ⟨"TOP_EVT_RING_WR", 0x50, [], false, [⟨0, 32, .ro, 0⟩]⟩]
  ++ [
    ⟨"TOP_EVT_RING_RD", 0x54, [], false, [⟨0, 32, .rw, 0⟩]⟩,
    ⟨"TOP_EVT_LOST", 0x58, [], false, [⟨0, 32, .rc, 0⟩]⟩,
    ⟨"TOP_CTX_CMD", 0x200, [], false, [⟨0, 12, .rw, 0⟩, ⟨12, 4, .rw, 0⟩, ⟨16, 6, .rw, 0⟩, ⟨31, 1, .wo, 0⟩]⟩,
    ⟨"TOP_CTX_CMD_STATUS", 0x204, [], false, [⟨0, 1, .ro, 0⟩, ⟨1, 1, .w1c, 0⟩, ⟨8, 8, .ro, 0⟩]⟩,
    ⟨"TOP_CTX_SEL", 0x210, [], false, [⟨0, 12, .rw, 0⟩]⟩,
    ⟨"TOP_CTX_STATE", 0x214, [], false, [⟨0, 2, .ro, 0⟩, ⟨2, 1, .ro, 0⟩, ⟨3, 1, .ro, 0⟩, ⟨4, 6, .ro, 0⟩, ⟨12, 20, .ro, 1⟩]⟩,
    ⟨"TOP_CTX_QUOTA", 0x220, [(6, 4)], false, [⟨0, 32, .rw, 0⟩]⟩,
    ⟨"TOP_CTX_USAGE", 0x240, [(6, 4)], false, [⟨0, 32, .ro, 0⟩]⟩,
    ⟨"TOP_CTX_SLICE_CUT", 0x258, [], false, [⟨0, 32, .rc, 0⟩]⟩]

/-- Registers of block PLOUGH. -/
def regsPLOUGH : List RegRow :=
  [
    ⟨"PLOUGH_STATUS", 0x1000000, [(16, 0x100000)], false, [⟨0, 2, .ro, 0⟩, ⟨2, 1, .ro, 0⟩, ⟨3, 3, .ro, 0⟩, ⟨6, 2, .ro, 0⟩]⟩,
    ⟨"PLOUGH_CTX", 0x1000004, [(16, 0x100000)], false, [⟨0, 12, .ro, 0⟩, ⟨12, 20, .ro, 0⟩]⟩,
    ⟨"PLOUGH_IRQ_MASK", 0x1000008, [(16, 0x100000)], false, [⟨0, 1, .rw, 1⟩, ⟨1, 1, .rw, 1⟩]⟩,
    ⟨"PLOUGH_IRQ_STATUS", 0x100000C, [(16, 0x100000)], false, [⟨0, 1, .w1c, 0⟩, ⟨1, 1, .w1c, 0⟩]⟩,
    ⟨"PLOUGH_FAULT", 0x1000010, [(16, 0x100000)], false, [⟨0, 8, .ro, 0⟩, ⟨8, 3, .ro, 0⟩, ⟨11, 1, .w1c, 0⟩, ⟨12, 12, .ro, 0⟩]⟩,
    ⟨"PLOUGH_FAULT_PC", 0x1000018, [(16, 0x100000)], true, [⟨0, 64, .ro, 0⟩]⟩,
    ⟨"PLOUGH_FAULT_INFO", 0x1000020, [(16, 0x100000)], true, [⟨0, 64, .ro, 0⟩]⟩,
    ⟨"PLOUGH_FAULT_COUNT", 0x1000028, [(16, 0x100000)], false, [⟨0, 32, .rc, 0⟩]⟩,
    ⟨"PLOUGH_SQUASHED_FAULTS", 0x100002C, [(16, 0x100000)], false, [⟨0, 32, .rc, 0⟩]⟩,
    ⟨"PLOUGH_CCOUNT", 0x1000030, [(16, 0x100000)], false, [⟨0, 32, .ro, 0⟩]⟩,
    ⟨"PLOUGH_WAIT_LATE", 0x1000034, [(16, 0x100000)], false, [⟨0, 32, .rc, 0⟩]⟩,
    ⟨"PLOUGH_SR_SEED", 0x1000040, [(16, 0x100000)], true, [⟨0, 64, .rwl, 0⟩]⟩]
  ++ [
    ⟨"PLOUGH_CVT_SAT", 0x1000048, [(16, 0x100000)], false, [⟨0, 32, .rc, 0⟩]⟩,
    ⟨"PLOUGH_CVT_NAN", 0x100004C, [(16, 0x100000)], false, [⟨0, 32, .rc, 0⟩]⟩,
    ⟨"PLOUGH_MAT_STATUS", 0x1000050, [(16, 0x100000)], false, [⟨0, 1, .ro, 0⟩, ⟨1, 1, .ro, 0⟩, ⟨2, 1, .ro, 0⟩, ⟨3, 1, .ro, 0⟩, ⟨4, 1, .ro, 0⟩, ⟨5, 1, .ro, 0⟩, ⟨6, 1, .ro, 0⟩, ⟨7, 2, .ro, 0⟩]⟩,
    ⟨"PLOUGH_MAT_ROWS", 0x1000058, [(16, 0x100000)], true, [⟨0, 64, .ro, 0⟩]⟩]

/-- Registers of block HEDGE. -/
def regsHEDGE : List RegRow :=
  [
    ⟨"HEDGE_STATUS", 0x800000, [], false, [⟨0, 3, .ro, 0⟩, ⟨3, 1, .ro, 0⟩, ⟨8, 5, .ro, 0⟩]⟩,
    ⟨"HEDGE_CTX_TABLE", 0x800008, [], true, [⟨16, 32, .rwl, 0⟩]⟩,
    ⟨"HEDGE_MGMT_ROOT", 0x800010, [], true, [⟨12, 36, .rw, 0⟩]⟩,
    ⟨"HEDGE_INVAL", 0x800018, [], false, [⟨0, 12, .rw, 0⟩, ⟨12, 2, .rw, 0⟩, ⟨31, 1, .wo, 0⟩]⟩,
    ⟨"HEDGE_INVAL_VA", 0x800020, [], true, [⟨12, 36, .rw, 0⟩]⟩,
    ⟨"HEDGE_INVAL_PAGES", 0x800028, [], false, [⟨0, 32, .rw, 1⟩]⟩,
    ⟨"HEDGE_FENCE", 0x800030, [], false, [⟨0, 12, .rw, 0⟩, ⟨31, 1, .wo, 0⟩]⟩,
    ⟨"HEDGE_FENCE_STATUS", 0x800034, [], false, [⟨0, 1, .ro, 0⟩, ⟨1, 1, .ro, 0⟩, ⟨2, 1, .ro, 0⟩, ⟨16, 16, .ro, 0⟩]⟩,
    ⟨"HEDGE_IRQ_STATUS", 0x800040, [], false, [⟨0, 1, .w1c, 0⟩, ⟨1, 1, .w1c, 0⟩, ⟨2, 1, .w1c, 0⟩]⟩,
    ⟨"HEDGE_IRQ_MASK", 0x800044, [], false, [⟨0, 3, .rw, 7⟩]⟩,
    ⟨"HEDGE_FAULT_COUNT", 0x800050, [], false, [⟨0, 32, .rc, 0⟩]⟩,
    ⟨"HEDGE_IDX_ZERO", 0x800054, [], false, [⟨0, 32, .rc, 0⟩]⟩]
  ++ [
    ⟨"HEDGE_EXT_PROV", 0x800058, [], false, [⟨0, 32, .rc, 0⟩]⟩,
    ⟨"HEDGE_GEN_DISCARD", 0x80005C, [], false, [⟨0, 32, .rc, 0⟩]⟩,
    ⟨"HEDGE_WALKS", 0x800060, [], false, [⟨0, 32, .rc, 0⟩]⟩,
    ⟨"HEDGE_REGION_SEL", 0x800068, [], false, [⟨0, 8, .rw, 0⟩]⟩,
    ⟨"HEDGE_REGION_STATE", 0x80006C, [], false, [⟨0, 2, .ro, 0⟩, ⟨2, 3, .ro, 0⟩]⟩,
    ⟨"HEDGE_REGION_MARK", 0x800070, [], false, [⟨0, 32, .ro, 0⟩]⟩]

/-- Registers of block GATE. -/
def regsGATE : List RegRow :=
  [
    ⟨"GATE_STATUS", 0x100000, [], false, [⟨0, 8, .ro, 0⟩, ⟨8, 4, .ro, 0⟩, ⟨12, 2, .ro, 0⟩, ⟨14, 1, .ro, 0⟩, ⟨15, 1, .ro, 0⟩]⟩,
    ⟨"GATE_IRQ_STATUS", 0x100004, [], false, [⟨0, 1, .w1c, 0⟩, ⟨1, 1, .w1c, 0⟩, ⟨2, 1, .w1c, 0⟩, ⟨3, 1, .w1c, 0⟩]⟩,
    ⟨"GATE_IRQ_MASK", 0x100008, [], false, [⟨0, 1, .rw, 1⟩, ⟨1, 1, .rw, 1⟩, ⟨2, 1, .rw, 1⟩, ⟨3, 1, .rw, 1⟩]⟩,
    ⟨"GATE_ETH_UNMATCHED", 0x10000C, [], false, [⟨0, 32, .rc, 0⟩]⟩,
    ⟨"GATE_ID_POLICY", 0x100010, [], false, [⟨0, 16, .rwl, 0x5555⟩]⟩,
    ⟨"GATE_ID_SEL", 0x100014, [], false, [⟨0, 3, .rw, 0⟩, ⟨3, 3, .rw, 0⟩]⟩,
    ⟨"GATE_ID_INFO", 0x100018, [], false, [⟨0, 2, .ro, 0⟩, ⟨2, 4, .ro, 0⟩, ⟨6, 4, .ro, 0⟩, ⟨10, 4, .ro, 0⟩, ⟨16, 16, .ro, 0⟩]⟩,
    ⟨"GATE_ID_MODEL", 0x10001C, [], false, [⟨0, 32, .ro, 0⟩]⟩,
    ⟨"GATE_ID_SERIAL", 0x100020, [], true, [⟨0, 64, .ro, 0⟩]⟩,
    ⟨"GATE_DISCOVER", 0x100030, [], false, [⟨0, 8, .rw, 0xFF⟩, ⟨31, 1, .wo, 0⟩]⟩,
    ⟨"GATE_SLOT_MAP", 0x100100, [(16, 0x20)], false, [⟨0, 4, .rwl, 0⟩, ⟨4, 4, .rwl, 0⟩, ⟨8, 16, .rwl, 0⟩, ⟨24, 1, .rwl, 0⟩, ⟨25, 1, .rwl, 0⟩, ⟨26, 1, .rwl, 0⟩, ⟨27, 1, .rwl, 0⟩]⟩,
    ⟨"GATE_SLOT_OWNER", 0x100104, [(16, 0x20)], false, [⟨0, 12, .rwl, 0⟩]⟩]
  ++ [
    ⟨"GATE_SLOT_OFFSET", 0x100108, [(16, 0x20)], false, [⟨0, 32, .rwl, 0⟩]⟩,
    ⟨"GATE_SLOT_SEQ", 0x10010C, [(16, 0x20)], false, [⟨0, 32, .ro, 0⟩]⟩,
    ⟨"GATE_SLOT_DISCARD", 0x100110, [(16, 0x20)], false, [⟨0, 32, .rc, 0⟩]⟩,
    ⟨"GATE_SLOT_ERR", 0x100114, [(16, 0x20)], false, [⟨0, 32, .rc, 0⟩]⟩,
    ⟨"GATE_SLOT_PARSE", 0x100118, [(16, 0x20)], false, [⟨0, 11, .rwl, 0⟩, ⟨11, 7, .rwl, 0⟩, ⟨18, 9, .rwl, 0⟩, ⟨27, 2, .rwl, 0⟩, ⟨29, 2, .rwl, 0⟩]⟩,
    ⟨"GATE_CSI_CTL", 0x100400, [(8, 0x10)], false, [⟨0, 3, .rwl, 4⟩, ⟨3, 2, .rwl, 0⟩, ⟨5, 3, .rwl, 0⟩, ⟨8, 8, .rwl, 4⟩, ⟨16, 16, .rwl, 0x2710⟩]⟩,
    ⟨"GATE_CSI_FS_OFFSET", 0x100404, [(8, 0x10)], false, [⟨0, 32, .rwl, 0⟩]⟩,
    ⟨"GATE_ETH_CTL", 0x100500, [(4, 0x10)], false, [⟨0, 3, .rwl, 0⟩, ⟨3, 1, .rwl, 0⟩, ⟨16, 14, .rwl, 0x5EE⟩]⟩,
    ⟨"GATE_ETH_INGRESS_CORR", 0x100504, [(4, 0x10)], false, [⟨0, 32, .rwl, 0⟩]⟩,
    ⟨"GATE_ETH_EGRESS_CORR", 0x100508, [(4, 0x10)], false, [⟨0, 32, .rwl, 0⟩]⟩,
    ⟨"GATE_IMU_CTL", 0x100600, [(2, 0x10)], false, [⟨0, 2, .rwl, 0⟩, ⟨2, 8, .rwl, 4⟩, ⟨10, 1, .rwl, 0⟩, ⟨11, 8, .rwl, 0⟩, ⟨19, 8, .rwl, 0⟩, ⟨27, 1, .rwl, 0⟩, ⟨28, 4, .rwl, 4⟩]⟩,
    ⟨"GATE_CAN_NOM", 0x100640, [(2, 0x10)], false, [⟨0, 8, .rwl, 0⟩, ⟨8, 8, .rwl, 0x3A⟩, ⟨16, 7, .rwl, 0x13⟩, ⟨23, 7, .rwl, 0x13⟩]⟩]
  ++ [
    ⟨"GATE_CAN_DATA", 0x100644, [(2, 0x10)], false, [⟨0, 8, .rwl, 0⟩, ⟨8, 5, .rwl, 0xE⟩, ⟨13, 4, .rwl, 3⟩, ⟨17, 4, .rwl, 3⟩, ⟨21, 7, .rwl, 0xF⟩, ⟨28, 1, .rwl, 1⟩]⟩,
    ⟨"GATE_CAN_CTL", 0x100648, [(2, 0x10)], false, [⟨0, 1, .rwl, 0⟩, ⟨1, 1, .rwl, 1⟩, ⟨2, 1, .rwl, 0⟩, ⟨3, 2, .ro, 0⟩, ⟨5, 8, .ro, 0⟩, ⟨13, 8, .ro, 0⟩]⟩,
    ⟨"GATE_ENC_CTL", 0x100680, [(8, 0x10)], false, [⟨0, 1, .rwl, 0⟩, ⟨1, 1, .rwl, 0⟩, ⟨2, 1, .rwl, 0⟩, ⟨3, 8, .rwl, 8⟩, ⟨11, 20, .rwl, 0x3E8⟩]⟩,
    ⟨"GATE_ENC_COUNT", 0x100684, [(8, 0x10)], false, [⟨0, 32, .ro, 0⟩]⟩,
    ⟨"GATE_TRIG_START", 0x100700, [(8, 0x10)], true, [⟨0, 64, .rwl, 0⟩]⟩,
    ⟨"GATE_TRIG_PERIOD", 0x100708, [(8, 0x10)], false, [⟨0, 32, .rwl, 0⟩]⟩,
    ⟨"GATE_TRIG_WIDTH", 0x10070C, [(8, 0x10)], false, [⟨0, 30, .rwl, 0x2710⟩, ⟨30, 1, .rwl, 0⟩, ⟨31, 1, .rwl, 0⟩]⟩]

/-- Registers of block TROUGH. -/
def regsTROUGH : List RegRow :=
  [
    ⟨"TROUGH_STATUS", 0x200000, [], false, [⟨0, 16, .ro, 0⟩, ⟨16, 16, .ro, 0⟩]⟩,
    ⟨"TROUGH_IRQ_STATUS", 0x200004, [], false, [⟨0, 16, .w1c, 0⟩, ⟨16, 1, .w1c, 0⟩, ⟨17, 1, .w1c, 0⟩, ⟨18, 1, .w1c, 0⟩]⟩,
    ⟨"TROUGH_IRQ_MASK", 0x200008, [], false, [⟨0, 16, .rw, 0xFFFF⟩, ⟨16, 1, .rw, 1⟩, ⟨17, 1, .rw, 1⟩, ⟨18, 1, .rw, 1⟩]⟩,
    ⟨"TROUGH_CTL", 0x200100, [(16, 0x20)], false, [⟨0, 12, .rw, 0⟩, ⟨12, 1, .rw, 0⟩, ⟨13, 1, .rwl, 0⟩]⟩,
    ⟨"TROUGH_PTR", 0x200104, [(16, 0x20)], false, [⟨0, 12, .ro, 0⟩, ⟨16, 12, .ro, 0⟩]⟩,
    ⟨"TROUGH_CMD", 0x200108, [(16, 0x20)], false, [⟨0, 1, .wo, 0⟩, ⟨1, 1, .wo, 0⟩]⟩,
    ⟨"TROUGH_DROP_PKTS", 0x20010C, [(16, 0x20)], false, [⟨0, 32, .rc, 0⟩]⟩,
    ⟨"TROUGH_ABORT_PKTS", 0x200110, [(16, 0x20)], false, [⟨0, 32, .rc, 0⟩]⟩,
    ⟨"TROUGH_GATE_DROP", 0x200114, [(16, 0x20)], false, [⟨0, 32, .rc, 0⟩]⟩,
    ⟨"TROUGH_GATE", 0x200118, [(16, 0x20)], false, [⟨0, 16, .rwl, 0x3E8⟩, ⟨16, 16, .rwl, 0x64⟩]⟩,
    ⟨"TROUGH_PEAK", 0x20011C, [(16, 0x20)], false, [⟨0, 12, .rc, 0⟩]⟩]

/-- Registers of block BELL. -/
def regsBELL : List RegRow :=
  [
    ⟨"BELL_STATUS", 0x300000, [], false, [⟨0, 3, .ro, 0⟩, ⟨3, 1, .ro, 0⟩, ⟨4, 1, .ro, 0⟩]⟩,
    ⟨"BELL_CTL", 0x300004, [], false, [⟨0, 2, .rw, 0⟩, ⟨2, 2, .rw, 0⟩, ⟨4, 1, .rw, 1⟩, ⟨5, 1, .rw, 1⟩]⟩,
    ⟨"BELL_TIME", 0x300008, [], true, [⟨0, 64, .ro, 0⟩]⟩,
    ⟨"BELL_TIME_FRAC", 0x300010, [], false, [⟨0, 8, .ro, 0⟩]⟩,
    ⟨"BELL_RATE", 0x300014, [], false, [⟨0, 32, .ro, 0⟩]⟩,
    ⟨"BELL_RATE_MANUAL", 0x300018, [], false, [⟨0, 32, .rw, 0⟩]⟩,
    ⟨"BELL_SET", 0x300020, [], true, [⟨0, 64, .wo, 0⟩]⟩,
    ⟨"BELL_SERVO_GAIN", 0x300028, [], false, [⟨0, 16, .rw, 0x800⟩, ⟨16, 16, .rw, 0x80⟩]⟩,
    ⟨"BELL_SERVO_LIMITS", 0x30002C, [], false, [⟨0, 12, .rw, 0x64⟩, ⟨12, 10, .rw, 0x3E8⟩, ⟨22, 10, .rw, 8⟩]⟩,
    ⟨"BELL_OFFSET", 0x300030, [], true, [⟨0, 64, .ro, 0⟩]⟩,
    ⟨"BELL_PATH_DELAY", 0x300038, [], false, [⟨0, 32, .ro, 0⟩]⟩,
    ⟨"BELL_SERVO_CLAMP", 0x30003C, [], false, [⟨0, 32, .rc, 0⟩]⟩]
  ++ [
    ⟨"BELL_PTP_CTL", 0x300040, [], false, [⟨0, 8, .rw, 0⟩, ⟨8, 4, .rw, 0xD⟩, ⟨12, 4, .rw, 0⟩, ⟨16, 1, .rw, 0⟩, ⟨17, 1, .rw, 0⟩, ⟨18, 2, .rw, 0⟩, ⟨20, 1, .rw, 0⟩, ⟨21, 1, .rw, 0⟩]⟩,
    ⟨"BELL_PTP_ROLE", 0x300044, [], false, [⟨0, 8, .rw, 0⟩]⟩,
    ⟨"BELL_PTP_CLOCK_ID", 0x300048, [], true, [⟨0, 64, .ro, 0⟩]⟩,
    ⟨"BELL_PTP_DISCARD", 0x300050, [], false, [⟨0, 32, .rc, 0⟩]⟩,
    ⟨"BELL_UTC_OFFSET", 0x300054, [], false, [⟨0, 16, .rw, 0x25⟩, ⟨16, 1, .rw, 0⟩]⟩,
    ⟨"BELL_PPS_CTL", 0x300058, [], false, [⟨0, 1, .rw, 0⟩, ⟨1, 1, .rw, 0⟩, ⟨2, 1, .rw, 0⟩, ⟨3, 8, .rw, 8⟩, ⟨11, 20, .rw, 0x186A0⟩]⟩,
    ⟨"BELL_PPS_IN_STAMP", 0x300060, [], true, [⟨0, 64, .ro, 0⟩]⟩,
    ⟨"BELL_PERIOD_BASE", 0x300068, [], true, [⟨0, 64, .ro, 0⟩]⟩,
    ⟨"BELL_VT_SEL", 0x300070, [], false, [⟨0, 12, .rw, 0⟩]⟩,
    ⟨"BELL_VT_CUR", 0x300078, [], true, [⟨0, 64, .ro, 0⟩]⟩,
    ⟨"BELL_VT_PENDING", 0x300080, [], true, [⟨0, 64, .rw, 0⟩]⟩,
    ⟨"BELL_VT_REGRESS", 0x300088, [], false, [⟨0, 32, .rc, 0⟩]⟩]
  ++ [
    ⟨"BELL_ALM_SEC", 0x300090, [], true, [⟨0, 48, .ro, 0⟩]⟩,
    ⟨"BELL_ALM_SUB", 0x300098, [], false, [⟨0, 15, .ro, 0⟩]⟩,
    ⟨"BELL_ALM_STATUS", 0x30009C, [], false, [⟨0, 1, .ro, 0⟩, ⟨1, 2, .ro, 0⟩, ⟨3, 1, .w1c, 0⟩, ⟨4, 1, .ro, 0⟩]⟩,
    ⟨"BELL_ALM_SET", 0x3000A0, [], true, [⟨0, 48, .wo, 0⟩]⟩,
    ⟨"BELL_IRQ_STATUS", 0x3000A8, [], false, [⟨0, 1, .w1c, 0⟩, ⟨1, 1, .w1c, 0⟩, ⟨2, 1, .w1c, 0⟩, ⟨3, 1, .w1c, 0⟩, ⟨4, 1, .w1c, 0⟩, ⟨5, 1, .w1c, 0⟩, ⟨6, 1, .w1c, 0⟩]⟩,
    ⟨"BELL_IRQ_MASK", 0x3000AC, [], false, [⟨0, 1, .rw, 1⟩, ⟨1, 1, .rw, 1⟩, ⟨2, 1, .rw, 1⟩, ⟨3, 1, .rw, 1⟩, ⟨4, 1, .rw, 1⟩, ⟨5, 1, .rw, 1⟩, ⟨6, 1, .rw, 1⟩]⟩,
    ⟨"BELL_STAMP_OVERRUN", 0x3000B0, [], false, [⟨0, 32, .rc, 0⟩]⟩]

/-- Registers of block YOKE. -/
def regsYOKE : List RegRow :=
  [
    ⟨"YOKE_STATUS", 0x400000, [], false, [⟨0, 1, .ro, 0⟩, ⟨1, 1, .ro, 0⟩, ⟨2, 4, .ro, 0⟩]⟩,
    ⟨"YOKE_IRQ_STATUS", 0x400004, [], false, [⟨0, 1, .w1c, 0⟩, ⟨1, 1, .w1c, 0⟩, ⟨2, 1, .w1c, 0⟩, ⟨3, 1, .w1c, 0⟩, ⟨4, 1, .w1c, 0⟩, ⟨5, 1, .w1c, 0⟩, ⟨6, 1, .w1c, 0⟩, ⟨7, 1, .w1c, 0⟩]⟩,
    ⟨"YOKE_IRQ_MASK", 0x400008, [], false, [⟨0, 1, .rw, 1⟩, ⟨1, 1, .rw, 1⟩, ⟨2, 1, .rw, 1⟩, ⟨3, 1, .rw, 1⟩, ⟨4, 1, .rw, 1⟩, ⟨5, 1, .rw, 1⟩, ⟨6, 1, .rw, 1⟩, ⟨7, 1, .rw, 1⟩]⟩,
    ⟨"YOKE_DECODE_SHORT", 0x400010, [], false, [⟨0, 32, .rc, 0⟩]⟩,
    ⟨"YOKE_DECODE_FIX", 0x400014, [], false, [⟨0, 32, .rc, 0⟩]⟩,
    ⟨"YOKE_OVERRUN", 0x400018, [], false, [⟨0, 32, .rc, 0⟩]⟩,
    ⟨"YOKE_MARK_PERIOD", 0x400100, [(8, 0x40)], false, [⟨0, 32, .rwl, 0⟩]⟩,
    ⟨"YOKE_MARK_PHASE", 0x400104, [(8, 0x40)], false, [⟨0, 32, .rwl, 0⟩]⟩,
    ⟨"YOKE_MARK_CTL", 0x400108, [(8, 0x40)], true, [⟨0, 32, .rwl, 0⟩, ⟨32, 32, .rwl, 0⟩]⟩,
    ⟨"YOKE_MARK_CFG", 0x400110, [(8, 0x40)], false, [⟨0, 1, .rwl, 0⟩, ⟨1, 1, .rwl, 0⟩, ⟨2, 3, .rwl, 1⟩, ⟨8, 8, .rwl, 0⟩, ⟨16, 12, .rwl, 0⟩]⟩,
    ⟨"YOKE_MARK_INDEX", 0x400114, [(8, 0x40)], false, [⟨0, 32, .ro, 0⟩]⟩,
    ⟨"YOKE_MARK_VERDICT", 0x400118, [(8, 0x40)], false, [⟨0, 2, .ro, 0⟩]⟩]
  ++ [
    ⟨"YOKE_MARK_REFUSED", 0x40011C, [(8, 0x40)], false, [⟨0, 32, .rc, 0⟩]⟩,
    ⟨"YOKE_MARK_KEPT", 0x400120, [(8, 0x40)], false, [⟨0, 32, .rc, 0⟩]⟩,
    ⟨"YOKE_MARK_SKIPPED", 0x400124, [(8, 0x40)], false, [⟨0, 32, .rc, 0⟩]⟩,
    ⟨"YOKE_MARK_ARRIVALS", 0x400128, [(8, 0x40)], false, [⟨0, 32, .rc, 0⟩]⟩,
    ⟨"YOKE_SLOT_LATE", 0x400400, [(16, 0x10)], false, [⟨0, 32, .rc, 0⟩]⟩,
    ⟨"YOKE_SLOT_HIST_DROP", 0x400404, [(16, 0x10)], false, [⟨0, 32, .rc, 0⟩]⟩,
    ⟨"YOKE_STREAM_SEL", 0x400800, [], false, [⟨0, 6, .rw, 0⟩]⟩,
    ⟨"YOKE_STREAM_STATE", 0x400804, [], false, [⟨0, 16, .ro, 0⟩, ⟨16, 7, .ro, 0⟩]⟩,
    ⟨"YOKE_STREAM_AGE", 0x400808, [], false, [⟨0, 32, .ro, 0⟩]⟩,
    ⟨"YOKE_STREAM_LAST", 0x400810, [], true, [⟨0, 64, .ro, 0⟩]⟩,
    ⟨"YOKE_PAIR_CONFLICT", 0x400A00, [(32, 4)], false, [⟨0, 32, .rc, 0⟩]⟩]

/-- Registers of block YOKE_PROJ. -/
def regsYOKE_PROJ : List RegRow :=
  [
    ⟨"YOKE_PROJ_STATUS", 0x480000, [], false, [⟨0, 1, .ro, 0⟩, ⟨1, 4, .ro, 0⟩, ⟨8, 8, .ro, 0⟩]⟩,
    ⟨"YOKE_PROJ_IRQ_STATUS", 0x480004, [], false, [⟨0, 1, .w1c, 0⟩, ⟨1, 1, .w1c, 0⟩, ⟨2, 1, .w1c, 0⟩, ⟨3, 1, .w1c, 0⟩]⟩,
    ⟨"YOKE_PROJ_IRQ_MASK", 0x480008, [], false, [⟨0, 1, .rw, 1⟩, ⟨1, 1, .rw, 1⟩, ⟨2, 1, .rw, 1⟩, ⟨3, 1, .rw, 1⟩]⟩,
    ⟨"YOKE_PROJ_JOBS", 0x480010, [], false, [⟨0, 32, .rc, 0⟩]⟩,
    ⟨"YOKE_PROJ_BAD", 0x480014, [], false, [⟨0, 32, .rc, 0⟩]⟩,
    ⟨"YOKE_PROJ_OVERRUN", 0x480018, [], false, [⟨0, 32, .rc, 0⟩]⟩,
    ⟨"YOKE_PROJ_CAM_CTL", 0x480100, [(8, 0x80)], false, [⟨0, 1, .rwl, 0⟩, ⟨1, 1, .rwl, 0⟩, ⟨2, 1, .rwl, 0⟩, ⟨3, 3, .rwl, 0⟩, ⟨6, 1, .ro, 0⟩]⟩,
    ⟨"YOKE_PROJ_CAM_SIZE", 0x480104, [(8, 0x80)], false, [⟨0, 16, .rwl, 0⟩, ⟨16, 16, .rwl, 0⟩]⟩,
    ⟨"YOKE_PROJ_CAM_MODEL", 0x480108, [(8, 0x80)], false, [⟨0, 1, .rwl, 0⟩]⟩,
    ⟨"YOKE_PROJ_CAM_INTR", 0x480110, [(8, 0x80), (11, 4)], false, [⟨0, 32, .rwl, 0⟩]⟩,
    ⟨"YOKE_PROJ_CAM_POS", 0x480140, [(8, 0x80), (3, 4)], false, [⟨0, 32, .rwl, 0⟩]⟩,
    ⟨"YOKE_PROJ_CAM_ORIENT", 0x480150, [(8, 0x80)], false, [⟨0, 32, .rwl, 0x3F800000⟩]⟩]
  ++ [
    ⟨"YOKE_PROJ_CAM_ORIENT", 0x480154, [(8, 0x80), (3, 4)], false, [⟨0, 32, .rwl, 0⟩]⟩,
    ⟨"YOKE_PROJ_CAM_NEAR", 0x480160, [(8, 0x80)], false, [⟨0, 32, .rwl, 0x3DCCCCCD⟩]⟩,
    ⟨"YOKE_PROJ_CAM_FAR", 0x480164, [(8, 0x80)], false, [⟨0, 32, .rwl, 0x7F800000⟩]⟩,
    ⟨"YOKE_PROJ_CAM_HIT", 0x480170, [(8, 0x80)], false, [⟨0, 32, .rc, 0⟩]⟩,
    ⟨"YOKE_PROJ_CAM_CULL", 0x480174, [(8, 0x80)], false, [⟨0, 32, .rc, 0⟩]⟩,
    ⟨"YOKE_PROJ_CAM_OUTSIDE", 0x480178, [(8, 0x80)], false, [⟨0, 32, .rc, 0⟩]⟩]

/-- Registers of block SIEVE. -/
def regsSIEVE : List RegRow :=
  [
    ⟨"SIEVE_STATUS", 0x500000, [], false, [⟨0, 1, .ro, 0⟩, ⟨1, 4, .ro, 0⟩, ⟨5, 1, .ro, 0⟩]⟩,
    ⟨"SIEVE_IRQ_STATUS", 0x500004, [], false, [⟨0, 1, .w1c, 0⟩, ⟨1, 1, .w1c, 0⟩, ⟨2, 1, .w1c, 0⟩, ⟨3, 1, .w1c, 0⟩, ⟨4, 1, .w1c, 0⟩, ⟨5, 1, .w1c, 0⟩]⟩,
    ⟨"SIEVE_IRQ_MASK", 0x500008, [], false, [⟨0, 1, .rw, 1⟩, ⟨1, 1, .rw, 1⟩, ⟨2, 1, .rw, 1⟩, ⟨3, 1, .rw, 1⟩, ⟨4, 1, .rw, 1⟩, ⟨5, 1, .rw, 1⟩]⟩,
    ⟨"SIEVE_JOBS", 0x500010, [], false, [⟨0, 32, .rc, 0⟩]⟩,
    ⟨"SIEVE_POINTS", 0x500014, [], false, [⟨0, 32, .rc, 0⟩]⟩,
    ⟨"SIEVE_VOXELS", 0x500018, [], false, [⟨0, 32, .rc, 0⟩]⟩,
    ⟨"SIEVE_CELL_DROP", 0x50001C, [], false, [⟨0, 32, .rc, 0⟩]⟩,
    ⟨"SIEVE_SUPERSEDED", 0x500020, [], false, [⟨0, 32, .rc, 0⟩]⟩,
    ⟨"SIEVE_SAMPLED", 0x500024, [], false, [⟨0, 32, .rc, 0⟩]⟩,
    ⟨"SIEVE_OUT_OF_GRID", 0x500028, [], false, [⟨0, 32, .rc, 0⟩]⟩,
    ⟨"SIEVE_SKIPPED", 0x50002C, [], false, [⟨0, 32, .rc, 0⟩]⟩,
    ⟨"SIEVE_BAD", 0x500030, [], false, [⟨0, 32, .rc, 0⟩]⟩]
  ++ [
    ⟨"SIEVE_TRUNCATED", 0x500034, [], false, [⟨0, 32, .rc, 0⟩]⟩,
    ⟨"SIEVE_PAIRS", 0x500038, [], false, [⟨0, 32, .rc, 0⟩]⟩,
    ⟨"SIEVE_OVERRUN", 0x50003C, [], false, [⟨0, 32, .rc, 0⟩]⟩,
    ⟨"SIEVE_LAST_JOB", 0x500040, [], true, [⟨0, 64, .ro, 0⟩]⟩,
    ⟨"SIEVE_LAST_END", 0x500048, [], false, [⟨0, 8, .ro, 0⟩, ⟨8, 3, .ro, 0⟩]⟩,
    ⟨"SIEVE_SLOT_DROP", 0x500100, [(16, 0x10)], false, [⟨0, 32, .rc, 0⟩]⟩,
    ⟨"SIEVE_SLOT_RING_LOST", 0x500104, [(16, 0x10)], false, [⟨0, 32, .rc, 0⟩]⟩,
    ⟨"SIEVE_SLOT_POINTS", 0x500108, [(16, 0x10)], false, [⟨0, 32, .rc, 0⟩]⟩]

/-- Registers of block MILL. -/
def regsMILL : List RegRow :=
  [
    ⟨"MILL_STATUS", 0x600000, [], false, [⟨0, 4, .ro, 0⟩, ⟨4, 1, .ro, 0⟩, ⟨5, 1, .ro, 0⟩, ⟨8, 15, .ro, 0⟩]⟩,
    ⟨"MILL_IRQ_STATUS", 0x600004, [], false, [⟨0, 1, .w1c, 0⟩, ⟨1, 1, .w1c, 0⟩, ⟨2, 1, .w1c, 0⟩, ⟨3, 1, .w1c, 0⟩, ⟨4, 1, .w1c, 0⟩, ⟨5, 1, .w1c, 0⟩]⟩,
    ⟨"MILL_IRQ_MASK", 0x600008, [], false, [⟨0, 1, .rw, 1⟩, ⟨1, 1, .rw, 1⟩, ⟨2, 1, .rw, 1⟩, ⟨3, 1, .rw, 1⟩, ⟨4, 1, .rw, 1⟩, ⟨5, 1, .rw, 1⟩]⟩,
    ⟨"MILL_JOBS", 0x600010, [], false, [⟨0, 32, .rc, 0⟩]⟩,
    ⟨"MILL_INSTANCES", 0x600014, [], false, [⟨0, 32, .rc, 0⟩]⟩,
    ⟨"MILL_ITERATIONS", 0x600018, [], false, [⟨0, 32, .rc, 0⟩]⟩,
    ⟨"MILL_SAT", 0x60001C, [], false, [⟨0, 32, .rc, 0⟩]⟩,
    ⟨"MILL_PIVOT_SMALL", 0x600020, [], false, [⟨0, 32, .rc, 0⟩]⟩,
    ⟨"MILL_WARM_REJECT", 0x600024, [], false, [⟨0, 32, .rc, 0⟩]⟩,
    ⟨"MILL_DEADLINE", 0x600028, [], false, [⟨0, 32, .rc, 0⟩]⟩,
    ⟨"MILL_OVER_QUOTA", 0x60002C, [], false, [⟨0, 32, .rc, 0⟩]⟩,
    ⟨"MILL_LAST_JOB", 0x600040, [], true, [⟨0, 64, .ro, 0⟩]⟩]
  ++ [
    ⟨"MILL_LAST_END", 0x600048, [], false, [⟨0, 8, .ro, 0⟩, ⟨8, 3, .ro, 0⟩]⟩,
    ⟨"MILL_MODEL_SEL", 0x600080, [], false, [⟨0, 4, .rw, 0⟩]⟩,
    ⟨"MILL_MODEL_INFO", 0x600084, [], false, [⟨0, 1, .ro, 0⟩, ⟨1, 7, .ro, 0⟩, ⟨8, 7, .ro, 0⟩, ⟨15, 6, .ro, 0⟩, ⟨21, 8, .ro, 0⟩]⟩,
    ⟨"MILL_MODEL_SIG", 0x600088, [], true, [⟨0, 64, .ro, 0⟩]⟩,
    ⟨"MILL_RES_SEL", 0x6000C0, [], false, [⟨0, 4, .rw, 0⟩]⟩,
    ⟨"MILL_RES_INFO", 0x6000C4, [], false, [⟨0, 1, .ro, 0⟩, ⟨1, 8, .ro, 0⟩, ⟨9, 7, .ro, 0⟩, ⟨16, 12, .ro, 0⟩]⟩,
    ⟨"MILL_RES_SIG", 0x6000C8, [], true, [⟨0, 64, .ro, 0⟩]⟩]

/-- Registers of block GRAN. -/
def regsGRAN : List RegRow :=
  [
    ⟨"GRAN_STATUS", 0x700000, [], false, [⟨0, 4, .ro, 0⟩, ⟨4, 1, .ro, 0⟩, ⟨5, 1, .ro, 0⟩, ⟨6, 1, .ro, 0⟩, ⟨7, 1, .ro, 0⟩, ⟨8, 2, .ro, 0⟩]⟩,
    ⟨"GRAN_IRQ_STATUS", 0x700004, [], false, [⟨0, 1, .w1c, 0⟩, ⟨1, 1, .w1c, 0⟩, ⟨2, 1, .w1c, 0⟩, ⟨3, 1, .w1c, 0⟩, ⟨4, 1, .w1c, 0⟩]⟩,
    ⟨"GRAN_IRQ_MASK", 0x700008, [], false, [⟨0, 1, .rw, 1⟩, ⟨1, 1, .rw, 1⟩, ⟨2, 1, .rw, 1⟩, ⟨3, 1, .rw, 1⟩, ⟨4, 1, .rw, 1⟩]⟩,
    ⟨"GRAN_CTL", 0x70000C, [], false, [⟨0, 1, .wo, 0⟩]⟩,
    ⟨"GRAN_SEQ_BASE", 0x700010, [], true, [⟨16, 32, .rwl, 0⟩]⟩,
    ⟨"GRAN_PT_BASE", 0x700018, [], true, [⟨16, 32, .rwl, 0⟩]⟩,
    ⟨"GRAN_STAGE_BASE", 0x700020, [], true, [⟨16, 32, .rwl, 0⟩]⟩,
    ⟨"GRAN_STAGE_CFG", 0x700028, [], false, [⟨0, 13, .rwl, 0⟩, ⟨16, 16, .rwl, 0⟩]⟩,
    ⟨"GRAN_JOBS", 0x700030, [], false, [⟨0, 32, .rc, 0⟩]⟩,
    ⟨"GRAN_REFUSED", 0x700034, [], false, [⟨0, 32, .rc, 0⟩]⟩,
    ⟨"GRAN_ERRORS", 0x700038, [], false, [⟨0, 32, .rc, 0⟩]⟩,
    ⟨"GRAN_FLUSHES", 0x70003C, [], false, [⟨0, 32, .rc, 0⟩]⟩]
  ++ [
    ⟨"GRAN_COW", 0x700040, [], false, [⟨0, 32, .rc, 0⟩]⟩,
    ⟨"GRAN_EMPTY_ROWS", 0x700044, [], false, [⟨0, 32, .rc, 0⟩]⟩,
    ⟨"GRAN_NAN_KEYS", 0x700048, [], false, [⟨0, 32, .rc, 0⟩]⟩,
    ⟨"GRAN_WALK_MISS", 0x70004C, [], false, [⟨0, 32, .rc, 0⟩]⟩,
    ⟨"GRAN_OVERRUN", 0x700050, [], false, [⟨0, 32, .rc, 0⟩]⟩,
    ⟨"GRAN_SQUASHED", 0x700054, [], false, [⟨0, 32, .rc, 0⟩]⟩,
    ⟨"GRAN_LAST_JOB", 0x700060, [], true, [⟨0, 64, .ro, 0⟩]⟩,
    ⟨"GRAN_LAST_END", 0x700068, [], false, [⟨0, 8, .ro, 0⟩, ⟨8, 8, .ro, 0⟩]⟩,
    ⟨"GRAN_POOL_BASE", 0x700100, [(4, 0x40)], true, [⟨6, 42, .rwl, 0⟩]⟩,
    ⟨"GRAN_POOL_RC", 0x700108, [(4, 0x40)], true, [⟨6, 42, .rwl, 0⟩]⟩,
    ⟨"GRAN_POOL_STACK", 0x700110, [(4, 0x40)], true, [⟨6, 42, .rwl, 0⟩]⟩,
    ⟨"GRAN_POOL_CFG", 0x700118, [(4, 0x40)], false, [⟨0, 1, .rwl, 0⟩, ⟨1, 2, .rwl, 0⟩, ⟨3, 7, .rwl, 0⟩, ⟨10, 5, .rwl, 0⟩, ⟨15, 1, .rwl, 0⟩, ⟨18, 5, .rwl, 0⟩, ⟨23, 2, .rwl, 0⟩, ⟨25, 1, .rwl, 0⟩]⟩]
  ++ [
    ⟨"GRAN_POOL_FRAMES", 0x70011C, [(4, 0x40)], false, [⟨0, 23, .rwl, 0⟩]⟩,
    ⟨"GRAN_POOL_FREE", 0x700120, [(4, 0x40)], false, [⟨0, 23, .ro, 0⟩]⟩,
    ⟨"GRAN_POOL_SLICE", 0x700124, [(4, 0x40)], false, [⟨0, 17, .ro, 0⟩]⟩,
    ⟨"GRAN_POOL_BIAS", 0x700128, [(4, 0x40)], true, [⟨8, 40, .rwl, 0⟩]⟩]

/-- Registers of block MEM. -/
def regsMEM : List RegRow :=
  [
    ⟨"MEM_STATUS", 0x900000, [], false, [⟨0, 1, .ro, 0⟩, ⟨1, 1, .ro, 0⟩, ⟨2, 1, .ro, 1⟩, ⟨3, 1, .ro, 0⟩]⟩,
    ⟨"MEM_IRQ_STATUS", 0x900004, [], false, [⟨0, 1, .w1c, 0⟩, ⟨1, 1, .w1c, 0⟩, ⟨2, 1, .w1c, 0⟩, ⟨3, 1, .w1c, 0⟩, ⟨4, 1, .w1c, 0⟩]⟩,
    ⟨"MEM_IRQ_MASK", 0x900008, [], false, [⟨0, 1, .rw, 1⟩, ⟨1, 1, .rw, 1⟩, ⟨2, 1, .rw, 1⟩, ⟨3, 1, .rw, 1⟩, ⟨4, 1, .rw, 1⟩]⟩,
    ⟨"MEM_CORR_COUNT", 0x900010, [], false, [⟨0, 32, .rc, 0⟩]⟩,
    ⟨"MEM_UNCORR_COUNT", 0x900014, [], false, [⟨0, 32, .rc, 0⟩]⟩,
    ⟨"MEM_WB_DROP", 0x900018, [], false, [⟨0, 32, .rc, 0⟩]⟩,
    ⟨"MEM_WINDOW_MISS", 0x90001C, [], false, [⟨0, 32, .rc, 0⟩]⟩,
    ⟨"MEM_SRAM_LAPS", 0x900020, [], false, [⟨0, 32, .rc, 0⟩]⟩,
    ⟨"MEM_LAST_ERR", 0x900028, [], true, [⟨0, 48, .ro, 0⟩, ⟨56, 8, .ro, 0⟩]⟩,
    ⟨"MEM_SCRUB_LAP", 0x900030, [], false, [⟨0, 32, .ro, 0⟩]⟩,
    ⟨"MEM_STACK_TEMP", 0x900034, [], false, [⟨0, 8, .ro, 0⟩, ⟨8, 8, .ro, 0⟩]⟩,
    ⟨"MEM_FLIP_ADDR", 0x900040, [], true, [⟨5, 43, .rw, 0⟩, ⟨56, 8, .rw, 0⟩]⟩]
  ++ [
    ⟨"MEM_FLIP_DATA", 0x900048, [], true, [⟨0, 64, .rw, 0⟩]⟩,
    ⟨"MEM_FLIP_CHECK", 0x900050, [], false, [⟨0, 32, .rw, 0⟩]⟩,
    ⟨"MEM_FLIP_CTL", 0x900054, [], false, [⟨0, 2, .rw, 0⟩, ⟨2, 1, .w1s, 0⟩]⟩]

/-- Registers of block LINK. -/
def regsLINK : List RegRow :=
  [
    ⟨"LINK_STATUS", 0xA00000, [], false, [⟨0, 4, .ro, 0⟩, ⟨4, 4, .ro, 0⟩, ⟨8, 4, .ro, 0⟩]⟩,
    ⟨"LINK_IRQ_STATUS", 0xA00004, [], false, [⟨0, 1, .w1c, 0⟩, ⟨1, 1, .w1c, 0⟩, ⟨2, 1, .w1c, 0⟩, ⟨3, 1, .w1c, 0⟩, ⟨4, 1, .w1c, 0⟩, ⟨5, 1, .w1c, 0⟩]⟩,
    ⟨"LINK_IRQ_MASK", 0xA00008, [], false, [⟨0, 1, .rw, 1⟩, ⟨1, 1, .rw, 1⟩, ⟨2, 1, .rw, 1⟩, ⟨3, 1, .rw, 1⟩, ⟨4, 1, .rw, 1⟩, ⟨5, 1, .rw, 1⟩]⟩,
    ⟨"LINK_BOARD_ID", 0xA00010, [], true, [⟨0, 64, .ro, 0⟩]⟩,
    ⟨"LINK_TIME_CTL", 0xA00018, [], false, [⟨0, 16, .rw, 0x3E8⟩, ⟨16, 1, .rw, 0⟩]⟩,
    ⟨"LINK_PORT_CTL", 0xA00100, [(4, 0x40)], false, [⟨0, 1, .rw, 0⟩, ⟨1, 1, .rw, 1⟩, ⟨2, 1, .wo, 0⟩, ⟨8, 8, .rw, 0x40⟩]⟩,
    ⟨"LINK_PORT_STATE", 0xA00104, [(4, 0x40)], false, [⟨0, 2, .ro, 0⟩, ⟨2, 3, .ro, 0⟩, ⟨5, 2, .ro, 0⟩, ⟨16, 8, .ro, 0⟩]⟩,
    ⟨"LINK_PORT_PEER_PLAN", 0xA00108, [(4, 0x40)], true, [⟨0, 64, .ro, 0⟩]⟩,
    ⟨"LINK_PORT_TIME_OFFSET", 0xA00110, [(4, 0x40)], true, [⟨0, 64, .ro, 0⟩]⟩,
    ⟨"LINK_PORT_FEC_CORR", 0xA00118, [(4, 0x40)], false, [⟨0, 32, .rc, 0⟩]⟩,
    ⟨"LINK_PORT_REPLAY", 0xA0011C, [(4, 0x40)], false, [⟨0, 32, .rc, 0⟩]⟩,
    ⟨"LINK_PORT_DISCARD", 0xA00120, [(4, 0x40)], false, [⟨0, 32, .rc, 0⟩]⟩]
  ++ [
    ⟨"LINK_PORT_RETRAIN", 0xA00124, [(4, 0x40)], false, [⟨0, 32, .rc, 0⟩]⟩,
    ⟨"LINK_PORT_XFER_ERR", 0xA00128, [(4, 0x40)], false, [⟨0, 32, .rc, 0⟩]⟩]

/-- Registers of block HITCH. -/
def regsHITCH : List RegRow :=
  [
    ⟨"HITCH_STATUS", 0xB00000, [], false, [⟨0, 1, .ro, 0⟩, ⟨1, 1, .ro, 0⟩, ⟨2, 1, .ro, 0⟩, ⟨3, 1, .ro, 0⟩]⟩,
    ⟨"HITCH_IRQ_STATUS", 0xB00004, [], false, [⟨0, 1, .w1c, 0⟩, ⟨1, 1, .w1c, 0⟩, ⟨2, 1, .w1c, 0⟩]⟩,
    ⟨"HITCH_IRQ_MASK", 0xB00008, [], false, [⟨0, 1, .rw, 1⟩, ⟨1, 1, .rw, 1⟩, ⟨2, 1, .rw, 1⟩]⟩,
    ⟨"HITCH_CFG", 0xB00010, [], false, [⟨0, 3, .rwl, 0⟩, ⟨3, 1, .rwl, 0⟩, ⟨4, 1, .rwl, 0⟩, ⟨5, 11, .rwl, 4⟩, ⟨16, 11, .rwl, 0⟩]⟩,
    ⟨"HITCH_PUB_ADDR", 0xB00018, [], true, [⟨6, 42, .rwl, 0⟩]⟩,
    ⟨"HITCH_IN_ADDR", 0xB00020, [], true, [⟨6, 42, .rwl, 0⟩]⟩,
    ⟨"HITCH_DEADLINE", 0xB00028, [], false, [⟨0, 32, .rwl, 0⟩]⟩,
    ⟨"HITCH_CAPTURE", 0xB0002C, [], false, [⟨0, 32, .rwl, 0⟩]⟩,
    ⟨"HITCH_MARK", 0xB00030, [], false, [⟨0, 32, .ro, 0⟩]⟩,
    ⟨"HITCH_AGE", 0xB00034, [], false, [⟨0, 32, .ro, 0⟩]⟩,
    ⟨"HITCH_PUBLISHED", 0xB00040, [], false, [⟨0, 32, .rc, 0⟩]⟩,
    ⟨"HITCH_PUB_DROP", 0xB00044, [], false, [⟨0, 32, .rc, 0⟩]⟩]
  ++ [
    ⟨"HITCH_IN_DROP", 0xB00048, [], false, [⟨0, 32, .rc, 0⟩]⟩,
    ⟨"HITCH_READS", 0xB0004C, [], false, [⟨0, 32, .rc, 0⟩]⟩]

/-- Registers of block HOST. -/
def regsHOST : List RegRow :=
  [
    ⟨"HOST_STATUS", 0xB80000, [], false, [⟨0, 1, .ro, 0⟩, ⟨1, 3, .ro, 0⟩, ⟨4, 5, .ro, 0⟩, ⟨9, 1, .ro, 0⟩, ⟨10, 2, .ro, 0⟩]⟩,
    ⟨"HOST_IRQ_STATUS", 0xB80004, [], false, [⟨0, 1, .w1c, 0⟩, ⟨1, 1, .w1c, 0⟩, ⟨2, 1, .w1c, 0⟩, ⟨3, 1, .w1c, 0⟩, ⟨4, 1, .w1c, 0⟩]⟩,
    ⟨"HOST_IRQ_MASK", 0xB80008, [], false, [⟨0, 1, .rw, 1⟩, ⟨1, 1, .rw, 1⟩, ⟨2, 1, .rw, 1⟩, ⟨3, 1, .rw, 1⟩, ⟨4, 1, .rw, 1⟩]⟩,
    ⟨"HOST_BAR2_VA", 0xB80010, [], true, [⟨26, 22, .rw, 0⟩]⟩,
    ⟨"HOST_BAR4_VA", 0xB80018, [], true, [⟨36, 12, .rw, 0⟩]⟩,
    ⟨"HOST_DB_DISCARD", 0xB80020, [], false, [⟨0, 32, .rc, 0⟩]⟩,
    ⟨"HOST_BAR_TIMEOUT", 0xB80024, [], false, [⟨0, 32, .rc, 0⟩]⟩,
    ⟨"HOST_Q_BASE", 0xB80100, [(4, 0x40)], true, [⟨6, 58, .rw, 0⟩]⟩,
    ⟨"HOST_INJ_BASE", 0xB80400, [(16, 0x40)], true, [⟨6, 58, .rw, 0⟩]⟩,
    ⟨"HOST_Q_CTL", 0xB80108, [(4, 0x40)], false, [⟨0, 1, .rw, 0⟩, ⟨1, 1, .ro, 0⟩, ⟨2, 5, .rw, 4⟩, ⟨8, 8, .rw, 0⟩]⟩,
    ⟨"HOST_INJ_CTL", 0xB80408, [(16, 0x40)], false, [⟨0, 1, .rw, 0⟩, ⟨1, 1, .ro, 0⟩, ⟨2, 5, .rw, 4⟩, ⟨8, 8, .rw, 0⟩]⟩,
    ⟨"HOST_Q_TAIL", 0xB8010C, [(4, 0x40)], false, [⟨0, 16, .rw, 0⟩]⟩]
  ++ [
    ⟨"HOST_Q_HEAD", 0xB80110, [(4, 0x40)], false, [⟨0, 16, .ro, 0⟩]⟩,
    ⟨"HOST_INJ_HEAD", 0xB80410, [(16, 0x40)], false, [⟨0, 16, .ro, 0⟩]⟩,
    ⟨"HOST_Q_ERR", 0xB80114, [(4, 0x40)], false, [⟨0, 8, .ro, 0⟩]⟩,
    ⟨"HOST_INJ_STALL", 0xB80414, [(16, 0x40)], false, [⟨0, 32, .rc, 0⟩]⟩]

/-- Registers of block STEW. -/
def regsSTEW : List RegRow :=
  [
    ⟨"STEW_STATUS", 0xC00000, [], false, [⟨0, 2, .ro, 0⟩, ⟨2, 1, .ro, 0⟩, ⟨3, 1, .ro, 0⟩, ⟨4, 1, .ro, 0⟩, ⟨5, 1, .ro, 0⟩]⟩,
    ⟨"STEW_IRQ_STATUS", 0xC00004, [], false, [⟨0, 1, .w1c, 0⟩, ⟨1, 1, .w1c, 0⟩, ⟨2, 1, .w1c, 0⟩, ⟨3, 1, .w1c, 0⟩]⟩,
    ⟨"STEW_IRQ_MASK", 0xC00008, [], false, [⟨0, 1, .rw, 1⟩, ⟨1, 1, .rw, 1⟩, ⟨2, 1, .rw, 1⟩, ⟨3, 1, .rw, 1⟩]⟩,
    ⟨"STEW_FW_VERSION", 0xC0000C, [], false, [⟨0, 32, .ro, 0⟩]⟩,
    ⟨"STEW_CFG_VERSION", 0xC00010, [], false, [⟨0, 32, .ro, 0⟩]⟩,
    ⟨"STEW_TRAP", 0xC00014, [], false, [⟨0, 4, .ro, 0⟩, ⟨4, 1, .ro, 0⟩]⟩,
    ⟨"STEW_MBOX_CMD", 0xC00100, [(16, 4)], false, [⟨0, 32, .rw, 0⟩]⟩,
    ⟨"STEW_MBOX_SUBMIT", 0xC00140, [], false, [⟨0, 1, .wo, 0⟩]⟩,
    ⟨"STEW_MBOX_CTL", 0xC00144, [], false, [⟨0, 8, .rw, 0⟩, ⟨8, 7, .ro, 0⟩, ⟨15, 1, .ro, 0⟩, ⟨16, 7, .ro, 0⟩]⟩,
    ⟨"STEW_MBOX_RSP", 0xC00180, [(8, 4)], false, [⟨0, 32, .ro, 0⟩]⟩,
    ⟨"STEW_MBOX_POP", 0xC001A0, [], false, [⟨0, 32, .wo, 0⟩]⟩,
    ⟨"STEW_MBOX_BUSY", 0xC001A4, [], false, [⟨0, 32, .rc, 0⟩]⟩]
  ++ [
    ⟨"STEW_TEL_BASE", 0xC00200, [], true, [⟨6, 42, .rw, 0⟩]⟩,
    ⟨"STEW_TEL_CTL", 0xC00208, [], false, [⟨0, 1, .rw, 0⟩, ⟨1, 5, .rw, 8⟩]⟩,
    ⟨"STEW_TEL_MASK", 0xC0020C, [], false, [⟨0, 32, .rw, 0x3FF07FF⟩]⟩,
    ⟨"STEW_TEL_WR", 0xC00210, [], false, [⟨0, 32, .ro, 0⟩]⟩,
    ⟨"STEW_TEL_RD", 0xC00214, [], false, [⟨0, 32, .rw, 0⟩]⟩,
    ⟨"STEW_TEL_DROP", 0xC00218, [], false, [⟨0, 32, .rc, 0⟩]⟩,
    ⟨"STEW_TEL_SKIP", 0xC0021C, [], false, [⟨0, 32, .rc, 0⟩]⟩,
    ⟨"STEW_FRAME_LATE", 0xC00220, [], false, [⟨0, 32, .rc, 0⟩]⟩,
    ⟨"STEW_LOG_MASK", 0xC00300, [], false, [⟨0, 17, .rw, 0x1FFFE⟩]⟩,
    ⟨"STEW_LOG_SEQ", 0xC00308, [], true, [⟨0, 64, .ro, 0⟩]⟩,
    ⟨"STEW_LOG_DROP", 0xC00310, [], false, [⟨0, 32, .rc, 0⟩]⟩,
    ⟨"STEW_IDKEY_SEL", 0xC00400, [], false, [⟨0, 5, .rw, 0⟩]⟩]
  ++ [
    ⟨"STEW_IDKEY_DATA", 0xC00404, [], false, [⟨0, 32, .ro, 0⟩]⟩]

/-- Registers of block REEVE. -/
def regsREEVE : List RegRow :=
  [
    ⟨"REEVE_STATUS", 0xD00000, [], false, [⟨0, 1, .ro, 0⟩, ⟨1, 1, .ro, 0⟩]⟩,
    ⟨"REEVE_IRQ_STATUS", 0xD00004, [], false, [⟨0, 1, .w1c, 0⟩, ⟨1, 1, .w1c, 0⟩, ⟨2, 1, .w1c, 0⟩, ⟨3, 1, .w1c, 0⟩]⟩,
    ⟨"REEVE_IRQ_MASK", 0xD00008, [], false, [⟨0, 1, .rw, 1⟩, ⟨1, 1, .rw, 1⟩, ⟨2, 1, .rw, 1⟩, ⟨3, 1, .rw, 1⟩]⟩,
    ⟨"REEVE_CTL", 0xD0000C, [], false, [⟨0, 4, .rw, 0⟩, ⟨4, 1, .rw, 1⟩]⟩,
    ⟨"REEVE_UNIT_BUSY", 0xD00010, [], false, [⟨0, 16, .ro, 0⟩, ⟨16, 4, .ro, 0⟩]⟩,
    ⟨"REEVE_UNIT_PARKED", 0xD00014, [], false, [⟨0, 16, .ro, 0⟩, ⟨16, 4, .ro, 0⟩]⟩,
    ⟨"REEVE_HUNG", 0xD00018, [], false, [⟨0, 16, .w1c, 0⟩, ⟨16, 4, .w1c, 0⟩]⟩,
    ⟨"REEVE_CMD", 0xD0001C, [], false, [⟨0, 5, .rw, 0⟩, ⟨8, 1, .rw, 0⟩, ⟨31, 1, .wo, 0⟩]⟩,
    ⟨"REEVE_ENG_LIMIT", 0xD00020, [(4, 4)], false, [⟨0, 32, .rwl, 0x4E20⟩]⟩,
    ⟨"REEVE_MISS_COUNT", 0xD00030, [], false, [⟨0, 32, .rc, 0⟩]⟩,
    ⟨"REEVE_RECOVERIES", 0xD00034, [], false, [⟨0, 32, .rc, 0⟩]⟩,
    ⟨"REEVE_DUMP_TIMEOUTS", 0xD00038, [], false, [⟨0, 32, .rc, 0⟩]⟩]
  ++ [
    ⟨"REEVE_WAIVED", 0xD0003C, [], false, [⟨0, 32, .rc, 0⟩]⟩,
    ⟨"REEVE_DISCARDED", 0xD00040, [], false, [⟨0, 32, .rc, 0⟩]⟩,
    ⟨"REEVE_LAST_MISS", 0xD00048, [], true, [⟨0, 16, .ro, 0⟩, ⟨16, 4, .ro, 0⟩, ⟨20, 2, .ro, 0⟩, ⟨32, 32, .ro, 0⟩]⟩,
    ⟨"REEVE_DUMP_STATUS", 0xD00060, [], false, [⟨0, 1, .ro, 0⟩, ⟨1, 1, .ro, 0⟩, ⟨8, 24, .ro, 0⟩]⟩,
    ⟨"REEVE_DUMP_PAGE", 0xD00064, [], false, [⟨0, 4, .rw, 0⟩]⟩,
    ⟨"REEVE_DUMP_WIN", 0xD40000, [(65536, 4)], false, [⟨0, 32, .ro, 0⟩]⟩]

/-- Registers of block PWR. -/
def regsPWR : List RegRow :=
  [
    ⟨"PWR_STATUS", 0xE00000, [], false, [⟨0, 2, .ro, 2⟩, ⟨2, 1, .ro, 0⟩, ⟨3, 1, .ro, 0⟩, ⟨4, 1, .ro, 0⟩, ⟨5, 1, .ro, 0⟩]⟩,
    ⟨"PWR_IRQ_STATUS", 0xE00004, [], false, [⟨0, 1, .w1c, 0⟩, ⟨1, 1, .w1c, 0⟩, ⟨2, 1, .w1c, 0⟩, ⟨3, 1, .w1c, 0⟩]⟩,
    ⟨"PWR_IRQ_MASK", 0xE00008, [], false, [⟨0, 1, .rw, 1⟩, ⟨1, 1, .rw, 1⟩, ⟨2, 1, .rw, 1⟩, ⟨3, 1, .rw, 1⟩]⟩,
    ⟨"PWR_CTL", 0xE0000C, [], false, [⟨0, 1, .rw, 0⟩, ⟨1, 1, .rw, 0⟩, ⟨2, 1, .wo, 0⟩]⟩,
    ⟨"PWR_CAP", 0xE00010, [], false, [⟨0, 32, .ro, 0x35B60⟩]⟩,
    ⟨"PWR_INPUT_V", 0xE00014, [], false, [⟨0, 32, .ro, 0⟩]⟩,
    ⟨"PWR_INPUT_I", 0xE00018, [], false, [⟨0, 32, .ro, 0⟩]⟩,
    ⟨"PWR_INPUT_P", 0xE0001C, [], false, [⟨0, 32, .ro, 0⟩]⟩,
    ⟨"PWR_AVG10", 0xE00020, [], false, [⟨0, 32, .ro, 0⟩]⟩,
    ⟨"PWR_PEAK", 0xE00024, [], false, [⟨0, 32, .rc, 0⟩]⟩,
    ⟨"PWR_OVER_COUNT", 0xE00028, [], false, [⟨0, 32, .rc, 0⟩]⟩,
    ⟨"PWR_DOMAIN_ON", 0xE00030, [], true, [⟨0, 36, .ro, 0⟩]⟩]
  ++ [
    ⟨"PWR_DOMAIN_REQ", 0xE00038, [], true, [⟨0, 33, .rw, 0x1FFFFFFFF⟩, ⟨33, 3, .ro, 7⟩]⟩,
    ⟨"PWR_DOMAIN_FAULT", 0xE00040, [], true, [⟨0, 36, .w1c, 0⟩]⟩,
    ⟨"PWR_THERM", 0xE00048, [], false, [⟨0, 8, .rw, 0x64⟩]⟩,
    ⟨"PWR_RESET_CAUSE", 0xE00050, [], false, [⟨0, 4, .rc, 0⟩]⟩,
    ⟨"PWR_WAKE", 0xE00058, [], true, [⟨0, 48, .rw, 0⟩]⟩]

def R.TOP_ID : Nat := 0
def R.TOP_REV : Nat := 4
def R.TOP_DEVICE_NUM : Nat := 8
def R.TOP_SCRATCH : Nat := 0xC
def R.TOP_STATUS : Nat := 0x10
def R.TOP_IRQ_SUMMARY : Nat := 0x20
def R.TOP_IRQ_MASK : Nat := 0x24
def R.TOP_IRQ_CTL : Nat := 0x28
def R.TOP_EVT_RING_BASE : Nat := 0x40
def R.TOP_EVT_RING_SIZE : Nat := 0x48
def R.TOP_EVT_CTL : Nat := 0x4C
def R.TOP_EVT_RING_WR : Nat := 0x50
def R.TOP_EVT_RING_RD : Nat := 0x54
def R.TOP_EVT_LOST : Nat := 0x58
def R.PLOUGH_STATUS (i : Nat) : Nat := 0x1000000 + i * 0x100000
def R.PLOUGH_CTX (i : Nat) : Nat := 0x1000004 + i * 0x100000
def R.PLOUGH_IRQ_MASK (i : Nat) : Nat := 0x1000008 + i * 0x100000
def R.PLOUGH_IRQ_STATUS (i : Nat) : Nat := 0x100000C + i * 0x100000
def R.PLOUGH_FAULT (i : Nat) : Nat := 0x1000010 + i * 0x100000
def R.PLOUGH_FAULT_PC (i : Nat) : Nat := 0x1000018 + i * 0x100000
def R.PLOUGH_FAULT_INFO (i : Nat) : Nat := 0x1000020 + i * 0x100000
def R.PLOUGH_FAULT_COUNT (i : Nat) : Nat := 0x1000028 + i * 0x100000
def R.PLOUGH_SQUASHED_FAULTS (i : Nat) : Nat := 0x100002C + i * 0x100000
def R.PLOUGH_CCOUNT (i : Nat) : Nat := 0x1000030 + i * 0x100000
def R.PLOUGH_WAIT_LATE (i : Nat) : Nat := 0x1000034 + i * 0x100000
def R.PLOUGH_SR_SEED (i : Nat) : Nat := 0x1000040 + i * 0x100000
def R.PLOUGH_CVT_SAT (i : Nat) : Nat := 0x1000048 + i * 0x100000
def R.PLOUGH_CVT_NAN (i : Nat) : Nat := 0x100004C + i * 0x100000
def R.PLOUGH_MAT_STATUS (i : Nat) : Nat := 0x1000050 + i * 0x100000
def R.PLOUGH_MAT_ROWS (i : Nat) : Nat := 0x1000058 + i * 0x100000
def R.HEDGE_STATUS : Nat := 0x800000
def R.HEDGE_CTX_TABLE : Nat := 0x800008
def R.HEDGE_MGMT_ROOT : Nat := 0x800010
def R.HEDGE_INVAL : Nat := 0x800018
def R.HEDGE_INVAL_VA : Nat := 0x800020
def R.HEDGE_INVAL_PAGES : Nat := 0x800028
def R.HEDGE_FENCE : Nat := 0x800030
def R.HEDGE_FENCE_STATUS : Nat := 0x800034
def R.HEDGE_IRQ_STATUS : Nat := 0x800040
def R.HEDGE_IRQ_MASK : Nat := 0x800044
def R.HEDGE_FAULT_COUNT : Nat := 0x800050
def R.HEDGE_IDX_ZERO : Nat := 0x800054
def R.HEDGE_EXT_PROV : Nat := 0x800058
def R.HEDGE_GEN_DISCARD : Nat := 0x80005C
def R.HEDGE_WALKS : Nat := 0x800060
def R.HEDGE_REGION_SEL : Nat := 0x800068
def R.HEDGE_REGION_STATE : Nat := 0x80006C
def R.HEDGE_REGION_MARK : Nat := 0x800070
def R.GATE_STATUS : Nat := 0x100000
def R.GATE_IRQ_STATUS : Nat := 0x100004
def R.GATE_IRQ_MASK : Nat := 0x100008
def R.GATE_ETH_UNMATCHED : Nat := 0x10000C
def R.GATE_ID_POLICY : Nat := 0x100010
def R.GATE_ID_SEL : Nat := 0x100014
def R.GATE_ID_INFO : Nat := 0x100018
def R.GATE_ID_MODEL : Nat := 0x10001C
def R.GATE_ID_SERIAL : Nat := 0x100020
def R.GATE_DISCOVER : Nat := 0x100030
def R.GATE_SLOT_MAP (i : Nat) : Nat := 0x100100 + i * 0x20
def R.GATE_SLOT_OWNER (i : Nat) : Nat := 0x100104 + i * 0x20
def R.GATE_SLOT_OFFSET (i : Nat) : Nat := 0x100108 + i * 0x20
def R.GATE_SLOT_SEQ (i : Nat) : Nat := 0x10010C + i * 0x20
def R.GATE_SLOT_DISCARD (i : Nat) : Nat := 0x100110 + i * 0x20
def R.GATE_SLOT_ERR (i : Nat) : Nat := 0x100114 + i * 0x20
def R.GATE_SLOT_PARSE (i : Nat) : Nat := 0x100118 + i * 0x20
def R.GATE_CSI_CTL (i : Nat) : Nat := 0x100400 + i * 0x10
def R.GATE_CSI_FS_OFFSET (i : Nat) : Nat := 0x100404 + i * 0x10
def R.GATE_ETH_CTL (i : Nat) : Nat := 0x100500 + i * 0x10
def R.GATE_ETH_INGRESS_CORR (i : Nat) : Nat := 0x100504 + i * 0x10
def R.GATE_ETH_EGRESS_CORR (i : Nat) : Nat := 0x100508 + i * 0x10
def R.GATE_IMU_CTL (i : Nat) : Nat := 0x100600 + i * 0x10
def R.GATE_CAN_NOM (i : Nat) : Nat := 0x100640 + i * 0x10
def R.GATE_CAN_DATA (i : Nat) : Nat := 0x100644 + i * 0x10
def R.GATE_CAN_CTL (i : Nat) : Nat := 0x100648 + i * 0x10
def R.GATE_ENC_CTL (i : Nat) : Nat := 0x100680 + i * 0x10
def R.GATE_ENC_COUNT (i : Nat) : Nat := 0x100684 + i * 0x10
def R.GATE_TRIG_START (i : Nat) : Nat := 0x100700 + i * 0x10
def R.GATE_TRIG_PERIOD (i : Nat) : Nat := 0x100708 + i * 0x10
def R.GATE_TRIG_WIDTH (i : Nat) : Nat := 0x10070C + i * 0x10
def R.TROUGH_STATUS : Nat := 0x200000
def R.TROUGH_IRQ_STATUS : Nat := 0x200004
def R.TROUGH_IRQ_MASK : Nat := 0x200008
def R.TROUGH_CTL (i : Nat) : Nat := 0x200100 + i * 0x20
def R.TROUGH_PTR (i : Nat) : Nat := 0x200104 + i * 0x20
def R.TROUGH_CMD (i : Nat) : Nat := 0x200108 + i * 0x20
def R.TROUGH_DROP_PKTS (i : Nat) : Nat := 0x20010C + i * 0x20
def R.TROUGH_ABORT_PKTS (i : Nat) : Nat := 0x200110 + i * 0x20
def R.TROUGH_GATE_DROP (i : Nat) : Nat := 0x200114 + i * 0x20
def R.TROUGH_GATE (i : Nat) : Nat := 0x200118 + i * 0x20
def R.TROUGH_PEAK (i : Nat) : Nat := 0x20011C + i * 0x20
def R.BELL_STATUS : Nat := 0x300000
def R.BELL_CTL : Nat := 0x300004
def R.BELL_TIME : Nat := 0x300008
def R.BELL_TIME_FRAC : Nat := 0x300010
def R.BELL_RATE : Nat := 0x300014
def R.BELL_RATE_MANUAL : Nat := 0x300018
def R.BELL_SET : Nat := 0x300020
def R.BELL_SERVO_GAIN : Nat := 0x300028
def R.BELL_SERVO_LIMITS : Nat := 0x30002C
def R.BELL_OFFSET : Nat := 0x300030
def R.BELL_PATH_DELAY : Nat := 0x300038
def R.BELL_SERVO_CLAMP : Nat := 0x30003C
def R.BELL_PTP_CTL : Nat := 0x300040
def R.BELL_PTP_ROLE : Nat := 0x300044
def R.BELL_PTP_CLOCK_ID : Nat := 0x300048
def R.BELL_PTP_DISCARD : Nat := 0x300050
def R.BELL_UTC_OFFSET : Nat := 0x300054
def R.BELL_PPS_CTL : Nat := 0x300058
def R.BELL_PPS_IN_STAMP : Nat := 0x300060
def R.BELL_PERIOD_BASE : Nat := 0x300068
def R.BELL_VT_SEL : Nat := 0x300070
def R.BELL_VT_CUR : Nat := 0x300078
def R.BELL_VT_PENDING : Nat := 0x300080
def R.BELL_VT_REGRESS : Nat := 0x300088
def R.BELL_ALM_SEC : Nat := 0x300090
def R.BELL_ALM_SUB : Nat := 0x300098
def R.BELL_ALM_STATUS : Nat := 0x30009C
def R.BELL_ALM_SET : Nat := 0x3000A0
def R.BELL_IRQ_STATUS : Nat := 0x3000A8
def R.BELL_IRQ_MASK : Nat := 0x3000AC
def R.BELL_STAMP_OVERRUN : Nat := 0x3000B0
def R.YOKE_STATUS : Nat := 0x400000
def R.YOKE_IRQ_STATUS : Nat := 0x400004
def R.YOKE_IRQ_MASK : Nat := 0x400008
def R.YOKE_DECODE_SHORT : Nat := 0x400010
def R.YOKE_DECODE_FIX : Nat := 0x400014
def R.YOKE_OVERRUN : Nat := 0x400018
def R.YOKE_MARK_PERIOD (i : Nat) : Nat := 0x400100 + i * 0x40
def R.YOKE_MARK_PHASE (i : Nat) : Nat := 0x400104 + i * 0x40
def R.YOKE_MARK_CTL (i : Nat) : Nat := 0x400108 + i * 0x40
def R.YOKE_MARK_CFG (i : Nat) : Nat := 0x400110 + i * 0x40
def R.YOKE_MARK_INDEX (i : Nat) : Nat := 0x400114 + i * 0x40
def R.YOKE_MARK_VERDICT (i : Nat) : Nat := 0x400118 + i * 0x40
def R.YOKE_MARK_REFUSED (i : Nat) : Nat := 0x40011C + i * 0x40
def R.YOKE_MARK_KEPT (i : Nat) : Nat := 0x400120 + i * 0x40
def R.YOKE_MARK_SKIPPED (i : Nat) : Nat := 0x400124 + i * 0x40
def R.YOKE_MARK_ARRIVALS (i : Nat) : Nat := 0x400128 + i * 0x40
def R.YOKE_SLOT_LATE (i : Nat) : Nat := 0x400400 + i * 0x10
def R.YOKE_SLOT_HIST_DROP (i : Nat) : Nat := 0x400404 + i * 0x10
def R.YOKE_STREAM_SEL : Nat := 0x400800
def R.YOKE_STREAM_STATE : Nat := 0x400804
def R.YOKE_STREAM_AGE : Nat := 0x400808
def R.YOKE_STREAM_LAST : Nat := 0x400810
def R.YOKE_PAIR_CONFLICT (i : Nat) : Nat := 0x400A00 + i * 4
def R.YOKE_PROJ_STATUS : Nat := 0x480000
def R.YOKE_PROJ_IRQ_STATUS : Nat := 0x480004
def R.YOKE_PROJ_IRQ_MASK : Nat := 0x480008
def R.YOKE_PROJ_JOBS : Nat := 0x480010
def R.YOKE_PROJ_BAD : Nat := 0x480014
def R.YOKE_PROJ_OVERRUN : Nat := 0x480018
def R.YOKE_PROJ_CAM_CTL (i : Nat) : Nat := 0x480100 + i * 0x80
def R.YOKE_PROJ_CAM_SIZE (i : Nat) : Nat := 0x480104 + i * 0x80
def R.YOKE_PROJ_CAM_MODEL (i : Nat) : Nat := 0x480108 + i * 0x80
def R.YOKE_PROJ_CAM_INTR (i : Nat) (j : Nat) : Nat := 0x480110 + i * 0x80 + j * 4
def R.YOKE_PROJ_CAM_POS (i : Nat) (j : Nat) : Nat := 0x480140 + i * 0x80 + j * 4
def R.YOKE_PROJ_CAM_ORIENT (i : Nat) (j : Nat) : Nat := 0x480150 + i * 0x80 + j * 4
def R.YOKE_PROJ_CAM_NEAR (i : Nat) : Nat := 0x480160 + i * 0x80
def R.YOKE_PROJ_CAM_FAR (i : Nat) : Nat := 0x480164 + i * 0x80
def R.YOKE_PROJ_CAM_HIT (i : Nat) : Nat := 0x480170 + i * 0x80
def R.YOKE_PROJ_CAM_CULL (i : Nat) : Nat := 0x480174 + i * 0x80
def R.YOKE_PROJ_CAM_OUTSIDE (i : Nat) : Nat := 0x480178 + i * 0x80
def R.SIEVE_STATUS : Nat := 0x500000
def R.SIEVE_IRQ_STATUS : Nat := 0x500004
def R.SIEVE_IRQ_MASK : Nat := 0x500008
def R.SIEVE_JOBS : Nat := 0x500010
def R.SIEVE_POINTS : Nat := 0x500014
def R.SIEVE_VOXELS : Nat := 0x500018
def R.SIEVE_CELL_DROP : Nat := 0x50001C
def R.SIEVE_SUPERSEDED : Nat := 0x500020
def R.SIEVE_SAMPLED : Nat := 0x500024
def R.SIEVE_OUT_OF_GRID : Nat := 0x500028
def R.SIEVE_SKIPPED : Nat := 0x50002C
def R.SIEVE_BAD : Nat := 0x500030
def R.SIEVE_TRUNCATED : Nat := 0x500034
def R.SIEVE_PAIRS : Nat := 0x500038
def R.SIEVE_OVERRUN : Nat := 0x50003C
def R.SIEVE_LAST_JOB : Nat := 0x500040
def R.SIEVE_LAST_END : Nat := 0x500048
def R.SIEVE_SLOT_DROP (i : Nat) : Nat := 0x500100 + i * 0x10
def R.SIEVE_SLOT_RING_LOST (i : Nat) : Nat := 0x500104 + i * 0x10
def R.SIEVE_SLOT_POINTS (i : Nat) : Nat := 0x500108 + i * 0x10
def R.MILL_STATUS : Nat := 0x600000
def R.MILL_IRQ_STATUS : Nat := 0x600004
def R.MILL_IRQ_MASK : Nat := 0x600008
def R.MILL_JOBS : Nat := 0x600010
def R.MILL_INSTANCES : Nat := 0x600014
def R.MILL_ITERATIONS : Nat := 0x600018
def R.MILL_SAT : Nat := 0x60001C
def R.MILL_PIVOT_SMALL : Nat := 0x600020
def R.MILL_WARM_REJECT : Nat := 0x600024
def R.MILL_DEADLINE : Nat := 0x600028
def R.MILL_OVER_QUOTA : Nat := 0x60002C
def R.MILL_LAST_JOB : Nat := 0x600040
def R.MILL_LAST_END : Nat := 0x600048
def R.MILL_MODEL_SEL : Nat := 0x600080
def R.MILL_MODEL_INFO : Nat := 0x600084
def R.MILL_MODEL_SIG : Nat := 0x600088
def R.MILL_RES_SEL : Nat := 0x6000C0
def R.MILL_RES_INFO : Nat := 0x6000C4
def R.MILL_RES_SIG : Nat := 0x6000C8
def R.GRAN_STATUS : Nat := 0x700000
def R.GRAN_IRQ_STATUS : Nat := 0x700004
def R.GRAN_IRQ_MASK : Nat := 0x700008
def R.GRAN_CTL : Nat := 0x70000C
def R.GRAN_SEQ_BASE : Nat := 0x700010
def R.GRAN_PT_BASE : Nat := 0x700018
def R.GRAN_STAGE_BASE : Nat := 0x700020
def R.GRAN_STAGE_CFG : Nat := 0x700028
def R.GRAN_JOBS : Nat := 0x700030
def R.GRAN_REFUSED : Nat := 0x700034
def R.GRAN_ERRORS : Nat := 0x700038
def R.GRAN_FLUSHES : Nat := 0x70003C
def R.GRAN_COW : Nat := 0x700040
def R.GRAN_EMPTY_ROWS : Nat := 0x700044
def R.GRAN_NAN_KEYS : Nat := 0x700048
def R.GRAN_WALK_MISS : Nat := 0x70004C
def R.GRAN_OVERRUN : Nat := 0x700050
def R.GRAN_SQUASHED : Nat := 0x700054
def R.GRAN_LAST_JOB : Nat := 0x700060
def R.GRAN_LAST_END : Nat := 0x700068
def R.GRAN_POOL_BASE (i : Nat) : Nat := 0x700100 + i * 0x40
def R.GRAN_POOL_RC (i : Nat) : Nat := 0x700108 + i * 0x40
def R.GRAN_POOL_STACK (i : Nat) : Nat := 0x700110 + i * 0x40
def R.GRAN_POOL_CFG (i : Nat) : Nat := 0x700118 + i * 0x40
def R.GRAN_POOL_FRAMES (i : Nat) : Nat := 0x70011C + i * 0x40
def R.GRAN_POOL_FREE (i : Nat) : Nat := 0x700120 + i * 0x40
def R.GRAN_POOL_SLICE (i : Nat) : Nat := 0x700124 + i * 0x40
def R.GRAN_POOL_BIAS (i : Nat) : Nat := 0x700128 + i * 0x40
def R.TOP_CTX_CMD : Nat := 0x200
def R.TOP_CTX_CMD_STATUS : Nat := 0x204
def R.TOP_CTX_SEL : Nat := 0x210
def R.TOP_CTX_STATE : Nat := 0x214
def R.TOP_CTX_QUOTA (i : Nat) : Nat := 0x220 + i * 4
def R.TOP_CTX_USAGE (i : Nat) : Nat := 0x240 + i * 4
def R.TOP_CTX_SLICE_CUT : Nat := 0x258
def R.MEM_STATUS : Nat := 0x900000
def R.MEM_IRQ_STATUS : Nat := 0x900004
def R.MEM_IRQ_MASK : Nat := 0x900008
def R.MEM_CORR_COUNT : Nat := 0x900010
def R.MEM_UNCORR_COUNT : Nat := 0x900014
def R.MEM_WB_DROP : Nat := 0x900018
def R.MEM_WINDOW_MISS : Nat := 0x90001C
def R.MEM_SRAM_LAPS : Nat := 0x900020
def R.MEM_LAST_ERR : Nat := 0x900028
def R.MEM_SCRUB_LAP : Nat := 0x900030
def R.MEM_STACK_TEMP : Nat := 0x900034
def R.MEM_FLIP_ADDR : Nat := 0x900040
def R.MEM_FLIP_DATA : Nat := 0x900048
def R.MEM_FLIP_CHECK : Nat := 0x900050
def R.MEM_FLIP_CTL : Nat := 0x900054
def R.LINK_STATUS : Nat := 0xA00000
def R.LINK_IRQ_STATUS : Nat := 0xA00004
def R.LINK_IRQ_MASK : Nat := 0xA00008
def R.LINK_BOARD_ID : Nat := 0xA00010
def R.LINK_TIME_CTL : Nat := 0xA00018
def R.LINK_PORT_CTL (i : Nat) : Nat := 0xA00100 + i * 0x40
def R.LINK_PORT_STATE (i : Nat) : Nat := 0xA00104 + i * 0x40
def R.LINK_PORT_PEER_PLAN (i : Nat) : Nat := 0xA00108 + i * 0x40
def R.LINK_PORT_TIME_OFFSET (i : Nat) : Nat := 0xA00110 + i * 0x40
def R.LINK_PORT_FEC_CORR (i : Nat) : Nat := 0xA00118 + i * 0x40
def R.LINK_PORT_REPLAY (i : Nat) : Nat := 0xA0011C + i * 0x40
def R.LINK_PORT_DISCARD (i : Nat) : Nat := 0xA00120 + i * 0x40
def R.LINK_PORT_RETRAIN (i : Nat) : Nat := 0xA00124 + i * 0x40
def R.LINK_PORT_XFER_ERR (i : Nat) : Nat := 0xA00128 + i * 0x40
def R.HITCH_STATUS : Nat := 0xB00000
def R.HITCH_IRQ_STATUS : Nat := 0xB00004
def R.HITCH_IRQ_MASK : Nat := 0xB00008
def R.HITCH_CFG : Nat := 0xB00010
def R.HITCH_PUB_ADDR : Nat := 0xB00018
def R.HITCH_IN_ADDR : Nat := 0xB00020
def R.HITCH_DEADLINE : Nat := 0xB00028
def R.HITCH_CAPTURE : Nat := 0xB0002C
def R.HITCH_MARK : Nat := 0xB00030
def R.HITCH_AGE : Nat := 0xB00034
def R.HITCH_PUBLISHED : Nat := 0xB00040
def R.HITCH_PUB_DROP : Nat := 0xB00044
def R.HITCH_IN_DROP : Nat := 0xB00048
def R.HITCH_READS : Nat := 0xB0004C
def R.HOST_STATUS : Nat := 0xB80000
def R.HOST_IRQ_STATUS : Nat := 0xB80004
def R.HOST_IRQ_MASK : Nat := 0xB80008
def R.HOST_BAR2_VA : Nat := 0xB80010
def R.HOST_BAR4_VA : Nat := 0xB80018
def R.HOST_DB_DISCARD : Nat := 0xB80020
def R.HOST_BAR_TIMEOUT : Nat := 0xB80024
def R.HOST_Q_BASE (i : Nat) : Nat := 0xB80100 + i * 0x40
def R.HOST_INJ_BASE (i : Nat) : Nat := 0xB80400 + i * 0x40
def R.HOST_Q_CTL (i : Nat) : Nat := 0xB80108 + i * 0x40
def R.HOST_INJ_CTL (i : Nat) : Nat := 0xB80408 + i * 0x40
def R.HOST_Q_TAIL (i : Nat) : Nat := 0xB8010C + i * 0x40
def R.HOST_Q_HEAD (i : Nat) : Nat := 0xB80110 + i * 0x40
def R.HOST_INJ_HEAD (i : Nat) : Nat := 0xB80410 + i * 0x40
def R.HOST_Q_ERR (i : Nat) : Nat := 0xB80114 + i * 0x40
def R.HOST_INJ_STALL (i : Nat) : Nat := 0xB80414 + i * 0x40
def R.STEW_STATUS : Nat := 0xC00000
def R.STEW_IRQ_STATUS : Nat := 0xC00004
def R.STEW_IRQ_MASK : Nat := 0xC00008
def R.STEW_FW_VERSION : Nat := 0xC0000C
def R.STEW_CFG_VERSION : Nat := 0xC00010
def R.STEW_TRAP : Nat := 0xC00014
def R.STEW_MBOX_CMD (i : Nat) : Nat := 0xC00100 + i * 4
def R.STEW_MBOX_SUBMIT : Nat := 0xC00140
def R.STEW_MBOX_CTL : Nat := 0xC00144
def R.STEW_MBOX_RSP (i : Nat) : Nat := 0xC00180 + i * 4
def R.STEW_MBOX_POP : Nat := 0xC001A0
def R.STEW_MBOX_BUSY : Nat := 0xC001A4
def R.STEW_TEL_BASE : Nat := 0xC00200
def R.STEW_TEL_CTL : Nat := 0xC00208
def R.STEW_TEL_MASK : Nat := 0xC0020C
def R.STEW_TEL_WR : Nat := 0xC00210
def R.STEW_TEL_RD : Nat := 0xC00214
def R.STEW_TEL_DROP : Nat := 0xC00218
def R.STEW_TEL_SKIP : Nat := 0xC0021C
def R.STEW_FRAME_LATE : Nat := 0xC00220
def R.STEW_LOG_MASK : Nat := 0xC00300
def R.STEW_LOG_SEQ : Nat := 0xC00308
def R.STEW_LOG_DROP : Nat := 0xC00310
def R.STEW_IDKEY_SEL : Nat := 0xC00400
def R.STEW_IDKEY_DATA : Nat := 0xC00404
def R.REEVE_STATUS : Nat := 0xD00000
def R.REEVE_IRQ_STATUS : Nat := 0xD00004
def R.REEVE_IRQ_MASK : Nat := 0xD00008
def R.REEVE_CTL : Nat := 0xD0000C
def R.REEVE_UNIT_BUSY : Nat := 0xD00010
def R.REEVE_UNIT_PARKED : Nat := 0xD00014
def R.REEVE_HUNG : Nat := 0xD00018
def R.REEVE_CMD : Nat := 0xD0001C
def R.REEVE_ENG_LIMIT (i : Nat) : Nat := 0xD00020 + i * 4
def R.REEVE_MISS_COUNT : Nat := 0xD00030
def R.REEVE_RECOVERIES : Nat := 0xD00034
def R.REEVE_DUMP_TIMEOUTS : Nat := 0xD00038
def R.REEVE_WAIVED : Nat := 0xD0003C
def R.REEVE_DISCARDED : Nat := 0xD00040
def R.REEVE_LAST_MISS : Nat := 0xD00048
def R.REEVE_DUMP_STATUS : Nat := 0xD00060
def R.REEVE_DUMP_PAGE : Nat := 0xD00064
def R.REEVE_DUMP_WIN (i : Nat) : Nat := 0xD40000 + i * 4
def R.PWR_STATUS : Nat := 0xE00000
def R.PWR_IRQ_STATUS : Nat := 0xE00004
def R.PWR_IRQ_MASK : Nat := 0xE00008
def R.PWR_CTL : Nat := 0xE0000C
def R.PWR_CAP : Nat := 0xE00010
def R.PWR_INPUT_V : Nat := 0xE00014
def R.PWR_INPUT_I : Nat := 0xE00018
def R.PWR_INPUT_P : Nat := 0xE0001C
def R.PWR_AVG10 : Nat := 0xE00020
def R.PWR_PEAK : Nat := 0xE00024
def R.PWR_OVER_COUNT : Nat := 0xE00028
def R.PWR_DOMAIN_ON : Nat := 0xE00030
def R.PWR_DOMAIN_REQ : Nat := 0xE00038
def R.PWR_DOMAIN_FAULT : Nat := 0xE00040
def R.PWR_THERM : Nat := 0xE00048
def R.PWR_RESET_CAUSE : Nat := 0xE00050
def R.PWR_WAKE : Nat := 0xE00058

def F.TOP_ID_part : FieldRef := ⟨R.TOP_ID, 0, 16⟩
def F.TOP_ID_stepping : FieldRef := ⟨R.TOP_ID, 16, 8⟩
def F.TOP_REV_module_rev : FieldRef := ⟨R.TOP_REV, 0, 8⟩
def F.TOP_REV_rom_rev : FieldRef := ⟨R.TOP_REV, 8, 8⟩
def F.TOP_DEVICE_NUM_device_num : FieldRef := ⟨R.TOP_DEVICE_NUM, 0, 3⟩
def F.TOP_DEVICE_NUM_topology : FieldRef := ⟨R.TOP_DEVICE_NUM, 4, 2⟩
def F.TOP_DEVICE_NUM_board_size : FieldRef := ⟨R.TOP_DEVICE_NUM, 8, 4⟩
def F.TOP_SCRATCH_value : FieldRef := ⟨R.TOP_SCRATCH, 0, 32⟩
def F.TOP_STATUS_steward_ready : FieldRef := ⟨R.TOP_STATUS, 0, 1⟩
def F.TOP_STATUS_stack_ready : FieldRef := ⟨R.TOP_STATUS, 1, 1⟩
def F.TOP_STATUS_plan_loaded : FieldRef := ⟨R.TOP_STATUS, 2, 1⟩
def F.TOP_STATUS_plan_locked : FieldRef := ⟨R.TOP_STATUS, 3, 1⟩
def F.TOP_STATUS_recovery_active : FieldRef := ⟨R.TOP_STATUS, 4, 1⟩
def F.TOP_STATUS_power_capped : FieldRef := ⟨R.TOP_STATUS, 5, 1⟩
def F.TOP_STATUS_holdover : FieldRef := ⟨R.TOP_STATUS, 6, 1⟩
def F.TOP_STATUS_host_link_up : FieldRef := ⟨R.TOP_STATUS, 7, 1⟩
def F.TOP_STATUS_links_up : FieldRef := ⟨R.TOP_STATUS, 8, 4⟩
def F.TOP_IRQ_SUMMARY_evt : FieldRef := ⟨R.TOP_IRQ_SUMMARY, 0, 1⟩
def F.TOP_IRQ_SUMMARY_block : FieldRef := ⟨R.TOP_IRQ_SUMMARY, 1, 14⟩
def F.TOP_IRQ_SUMMARY_plough : FieldRef := ⟨R.TOP_IRQ_SUMMARY, 16, 1⟩
def F.TOP_IRQ_MASK_mask : FieldRef := ⟨R.TOP_IRQ_MASK, 0, 17⟩
def F.TOP_IRQ_CTL_vector : FieldRef := ⟨R.TOP_IRQ_CTL, 0, 8⟩
def F.TOP_EVT_RING_BASE_base : FieldRef := ⟨R.TOP_EVT_RING_BASE, 12, 52⟩
def F.TOP_EVT_RING_SIZE_log2_records : FieldRef := ⟨R.TOP_EVT_RING_SIZE, 0, 5⟩
def F.TOP_EVT_CTL_enable : FieldRef := ⟨R.TOP_EVT_CTL, 0, 1⟩
def F.TOP_EVT_CTL_armed : FieldRef := ⟨R.TOP_EVT_CTL, 1, 1⟩
def F.TOP_EVT_CTL_vector : FieldRef := ⟨R.TOP_EVT_CTL, 8, 8⟩
def F.TOP_EVT_RING_WR_count : FieldRef := ⟨R.TOP_EVT_RING_WR, 0, 32⟩
def F.TOP_EVT_RING_RD_count : FieldRef := ⟨R.TOP_EVT_RING_RD, 0, 32⟩
def F.TOP_EVT_LOST_count : FieldRef := ⟨R.TOP_EVT_LOST, 0, 32⟩
def F.PLOUGH_STATUS_state (i : Nat) : FieldRef := ⟨(R.PLOUGH_STATUS i), 0, 2⟩
def F.PLOUGH_STATUS_pmode (i : Nat) : FieldRef := ⟨(R.PLOUGH_STATUS i), 2, 1⟩
def F.PLOUGH_STATUS_pschedule (i : Nat) : FieldRef := ⟨(R.PLOUGH_STATUS i), 3, 3⟩
def F.PLOUGH_STATUS_loop_depth (i : Nat) : FieldRef := ⟨(R.PLOUGH_STATUS i), 6, 2⟩
def F.PLOUGH_CTX_ctx_id (i : Nat) : FieldRef := ⟨(R.PLOUGH_CTX i), 0, 12⟩
def F.PLOUGH_CTX_ctx_gen (i : Nat) : FieldRef := ⟨(R.PLOUGH_CTX i), 12, 20⟩
def F.PLOUGH_IRQ_MASK_fault (i : Nat) : FieldRef := ⟨(R.PLOUGH_IRQ_MASK i), 0, 1⟩
def F.PLOUGH_IRQ_MASK_wait_late (i : Nat) : FieldRef := ⟨(R.PLOUGH_IRQ_MASK i), 1, 1⟩
def F.PLOUGH_IRQ_STATUS_fault (i : Nat) : FieldRef := ⟨(R.PLOUGH_IRQ_STATUS i), 0, 1⟩
def F.PLOUGH_IRQ_STATUS_wait_late (i : Nat) : FieldRef := ⟨(R.PLOUGH_IRQ_STATUS i), 1, 1⟩
def F.PLOUGH_FAULT_code (i : Nat) : FieldRef := ⟨(R.PLOUGH_FAULT i), 0, 8⟩
def F.PLOUGH_FAULT_slot (i : Nat) : FieldRef := ⟨(R.PLOUGH_FAULT i), 8, 3⟩
def F.PLOUGH_FAULT_valid (i : Nat) : FieldRef := ⟨(R.PLOUGH_FAULT i), 11, 1⟩
def F.PLOUGH_FAULT_ctx_id (i : Nat) : FieldRef := ⟨(R.PLOUGH_FAULT i), 12, 12⟩
def F.PLOUGH_FAULT_PC_address (i : Nat) : FieldRef := ⟨(R.PLOUGH_FAULT_PC i), 0, 64⟩
def F.PLOUGH_FAULT_INFO_info (i : Nat) : FieldRef := ⟨(R.PLOUGH_FAULT_INFO i), 0, 64⟩
def F.PLOUGH_FAULT_COUNT_count (i : Nat) : FieldRef := ⟨(R.PLOUGH_FAULT_COUNT i), 0, 32⟩
def F.PLOUGH_SQUASHED_FAULTS_count (i : Nat) : FieldRef := ⟨(R.PLOUGH_SQUASHED_FAULTS i), 0, 32⟩
def F.PLOUGH_CCOUNT_count (i : Nat) : FieldRef := ⟨(R.PLOUGH_CCOUNT i), 0, 32⟩
def F.PLOUGH_WAIT_LATE_count (i : Nat) : FieldRef := ⟨(R.PLOUGH_WAIT_LATE i), 0, 32⟩
def F.PLOUGH_SR_SEED_seed (i : Nat) : FieldRef := ⟨(R.PLOUGH_SR_SEED i), 0, 64⟩
def F.PLOUGH_CVT_SAT_count (i : Nat) : FieldRef := ⟨(R.PLOUGH_CVT_SAT i), 0, 32⟩
def F.PLOUGH_CVT_NAN_count (i : Nat) : FieldRef := ⟨(R.PLOUGH_CVT_NAN i), 0, 32⟩
def F.PLOUGH_MAT_STATUS_array_busy (i : Nat) : FieldRef := ⟨(R.PLOUGH_MAT_STATUS i), 0, 1⟩
def F.PLOUGH_MAT_STATUS_drain_in_busy (i : Nat) : FieldRef := ⟨(R.PLOUGH_MAT_STATUS i), 1, 1⟩
def F.PLOUGH_MAT_STATUS_drain_out_busy (i : Nat) : FieldRef := ⟨(R.PLOUGH_MAT_STATUS i), 2, 1⟩
def F.PLOUGH_MAT_STATUS_w0_loaded (i : Nat) : FieldRef := ⟨(R.PLOUGH_MAT_STATUS i), 3, 1⟩
def F.PLOUGH_MAT_STATUS_w1_loaded (i : Nat) : FieldRef := ⟨(R.PLOUGH_MAT_STATUS i), 4, 1⟩
def F.PLOUGH_MAT_STATUS_w0_poison (i : Nat) : FieldRef := ⟨(R.PLOUGH_MAT_STATUS i), 5, 1⟩
def F.PLOUGH_MAT_STATUS_w1_poison (i : Nat) : FieldRef := ⟨(R.PLOUGH_MAT_STATUS i), 6, 1⟩
def F.PLOUGH_MAT_STATUS_xbuf_busy (i : Nat) : FieldRef := ⟨(R.PLOUGH_MAT_STATUS i), 7, 2⟩
def F.PLOUGH_MAT_ROWS_count (i : Nat) : FieldRef := ⟨(R.PLOUGH_MAT_ROWS i), 0, 64⟩
def F.HEDGE_STATUS_walkers_busy : FieldRef := ⟨R.HEDGE_STATUS, 0, 3⟩
def F.HEDGE_STATUS_inval_busy : FieldRef := ⟨R.HEDGE_STATUS, 3, 1⟩
def F.HEDGE_STATUS_arb_ptr : FieldRef := ⟨R.HEDGE_STATUS, 8, 5⟩
def F.HEDGE_CTX_TABLE_base : FieldRef := ⟨R.HEDGE_CTX_TABLE, 16, 32⟩
def F.HEDGE_MGMT_ROOT_root : FieldRef := ⟨R.HEDGE_MGMT_ROOT, 12, 36⟩
def F.HEDGE_INVAL_ctx_id : FieldRef := ⟨R.HEDGE_INVAL, 0, 12⟩
def F.HEDGE_INVAL_scope : FieldRef := ⟨R.HEDGE_INVAL, 12, 2⟩
def F.HEDGE_INVAL_go : FieldRef := ⟨R.HEDGE_INVAL, 31, 1⟩
def F.HEDGE_INVAL_VA_start : FieldRef := ⟨R.HEDGE_INVAL_VA, 12, 36⟩
def F.HEDGE_INVAL_PAGES_pages : FieldRef := ⟨R.HEDGE_INVAL_PAGES, 0, 32⟩
def F.HEDGE_FENCE_ctx_id : FieldRef := ⟨R.HEDGE_FENCE, 0, 12⟩
def F.HEDGE_FENCE_go : FieldRef := ⟨R.HEDGE_FENCE, 31, 1⟩
def F.HEDGE_FENCE_STATUS_busy : FieldRef := ⟨R.HEDGE_FENCE_STATUS, 0, 1⟩
def F.HEDGE_FENCE_STATUS_active : FieldRef := ⟨R.HEDGE_FENCE_STATUS, 1, 1⟩
def F.HEDGE_FENCE_STATUS_forced : FieldRef := ⟨R.HEDGE_FENCE_STATUS, 2, 1⟩
def F.HEDGE_FENCE_STATUS_outstanding : FieldRef := ⟨R.HEDGE_FENCE_STATUS, 16, 16⟩
def F.HEDGE_IRQ_STATUS_fault : FieldRef := ⟨R.HEDGE_IRQ_STATUS, 0, 1⟩
def F.HEDGE_IRQ_STATUS_ext_prov : FieldRef := ⟨R.HEDGE_IRQ_STATUS, 1, 1⟩
def F.HEDGE_IRQ_STATUS_fence_done : FieldRef := ⟨R.HEDGE_IRQ_STATUS, 2, 1⟩
def F.HEDGE_IRQ_MASK_mask : FieldRef := ⟨R.HEDGE_IRQ_MASK, 0, 3⟩
def F.HEDGE_FAULT_COUNT_count : FieldRef := ⟨R.HEDGE_FAULT_COUNT, 0, 32⟩
def F.HEDGE_IDX_ZERO_count : FieldRef := ⟨R.HEDGE_IDX_ZERO, 0, 32⟩
def F.HEDGE_EXT_PROV_count : FieldRef := ⟨R.HEDGE_EXT_PROV, 0, 32⟩
def F.HEDGE_GEN_DISCARD_count : FieldRef := ⟨R.HEDGE_GEN_DISCARD, 0, 32⟩
def F.HEDGE_WALKS_count : FieldRef := ⟨R.HEDGE_WALKS, 0, 32⟩
def F.HEDGE_REGION_SEL_region : FieldRef := ⟨R.HEDGE_REGION_SEL, 0, 8⟩
def F.HEDGE_REGION_STATE_state : FieldRef := ⟨R.HEDGE_REGION_STATE, 0, 2⟩
def F.HEDGE_REGION_STATE_sched : FieldRef := ⟨R.HEDGE_REGION_STATE, 2, 3⟩
def F.HEDGE_REGION_MARK_mark : FieldRef := ⟨R.HEDGE_REGION_MARK, 0, 32⟩
def F.GATE_STATUS_csi_up : FieldRef := ⟨R.GATE_STATUS, 0, 8⟩
def F.GATE_STATUS_eth_up : FieldRef := ⟨R.GATE_STATUS, 8, 4⟩
def F.GATE_STATUS_can_on : FieldRef := ⟨R.GATE_STATUS, 12, 2⟩
def F.GATE_STATUS_discovery_busy : FieldRef := ⟨R.GATE_STATUS, 14, 1⟩
def F.GATE_STATUS_discovery_done : FieldRef := ⟨R.GATE_STATUS, 15, 1⟩
def F.GATE_IRQ_STATUS_port : FieldRef := ⟨R.GATE_IRQ_STATUS, 0, 1⟩
def F.GATE_IRQ_STATUS_identity : FieldRef := ⟨R.GATE_IRQ_STATUS, 1, 1⟩
def F.GATE_IRQ_STATUS_slot : FieldRef := ⟨R.GATE_IRQ_STATUS, 2, 1⟩
def F.GATE_IRQ_STATUS_stamp : FieldRef := ⟨R.GATE_IRQ_STATUS, 3, 1⟩
def F.GATE_IRQ_MASK_port : FieldRef := ⟨R.GATE_IRQ_MASK, 0, 1⟩
def F.GATE_IRQ_MASK_identity : FieldRef := ⟨R.GATE_IRQ_MASK, 1, 1⟩
def F.GATE_IRQ_MASK_slot : FieldRef := ⟨R.GATE_IRQ_MASK, 2, 1⟩
def F.GATE_IRQ_MASK_stamp : FieldRef := ⟨R.GATE_IRQ_MASK, 3, 1⟩
def F.GATE_ETH_UNMATCHED_count : FieldRef := ⟨R.GATE_ETH_UNMATCHED, 0, 32⟩
def F.GATE_ID_POLICY_policy : FieldRef := ⟨R.GATE_ID_POLICY, 0, 16⟩
def F.GATE_ID_SEL_bus : FieldRef := ⟨R.GATE_ID_SEL, 0, 3⟩
def F.GATE_ID_SEL_addr : FieldRef := ⟨R.GATE_ID_SEL, 3, 3⟩
def F.GATE_ID_INFO_state : FieldRef := ⟨R.GATE_ID_INFO, 0, 2⟩
def F.GATE_ID_INFO_class : FieldRef := ⟨R.GATE_ID_INFO, 2, 4⟩
def F.GATE_ID_INFO_attach_kind : FieldRef := ⟨R.GATE_ID_INFO, 6, 4⟩
def F.GATE_ID_INFO_attach_port : FieldRef := ⟨R.GATE_ID_INFO, 10, 4⟩
def F.GATE_ID_INFO_vendor : FieldRef := ⟨R.GATE_ID_INFO, 16, 16⟩
def F.GATE_ID_MODEL_model : FieldRef := ⟨R.GATE_ID_MODEL, 0, 32⟩
def F.GATE_ID_SERIAL_serial : FieldRef := ⟨R.GATE_ID_SERIAL, 0, 64⟩
def F.GATE_DISCOVER_buses : FieldRef := ⟨R.GATE_DISCOVER, 0, 8⟩
def F.GATE_DISCOVER_go : FieldRef := ⟨R.GATE_DISCOVER, 31, 1⟩
def F.GATE_SLOT_MAP_kind (i : Nat) : FieldRef := ⟨(R.GATE_SLOT_MAP i), 0, 4⟩
def F.GATE_SLOT_MAP_port (i : Nat) : FieldRef := ⟨(R.GATE_SLOT_MAP i), 4, 4⟩
def F.GATE_SLOT_MAP_sel (i : Nat) : FieldRef := ⟨(R.GATE_SLOT_MAP i), 8, 16⟩
def F.GATE_SLOT_MAP_enable (i : Nat) : FieldRef := ⟨(R.GATE_SLOT_MAP i), 24, 1⟩
def F.GATE_SLOT_MAP_inject (i : Nat) : FieldRef := ⟨(R.GATE_SLOT_MAP i), 25, 1⟩
def F.GATE_SLOT_MAP_id_req (i : Nat) : FieldRef := ⟨(R.GATE_SLOT_MAP i), 26, 1⟩
def F.GATE_SLOT_MAP_wsir_offset (i : Nat) : FieldRef := ⟨(R.GATE_SLOT_MAP i), 27, 1⟩
def F.GATE_SLOT_OWNER_ctx_id (i : Nat) : FieldRef := ⟨(R.GATE_SLOT_OWNER i), 0, 12⟩
def F.GATE_SLOT_OFFSET_offset (i : Nat) : FieldRef := ⟨(R.GATE_SLOT_OFFSET i), 0, 32⟩
def F.GATE_SLOT_SEQ_seq (i : Nat) : FieldRef := ⟨(R.GATE_SLOT_SEQ i), 0, 32⟩
def F.GATE_SLOT_DISCARD_count (i : Nat) : FieldRef := ⟨(R.GATE_SLOT_DISCARD i), 0, 32⟩
def F.GATE_SLOT_ERR_count (i : Nat) : FieldRef := ⟨(R.GATE_SLOT_ERR i), 0, 32⟩
def F.GATE_SLOT_PARSE_first (i : Nat) : FieldRef := ⟨(R.GATE_SLOT_PARSE i), 0, 11⟩
def F.GATE_SLOT_PARSE_stride (i : Nat) : FieldRef := ⟨(R.GATE_SLOT_PARSE i), 11, 7⟩
def F.GATE_SLOT_PARSE_count (i : Nat) : FieldRef := ⟨(R.GATE_SLOT_PARSE i), 18, 9⟩
def F.GATE_SLOT_PARSE_unit (i : Nat) : FieldRef := ⟨(R.GATE_SLOT_PARSE i), 27, 2⟩
def F.GATE_SLOT_PARSE_mode (i : Nat) : FieldRef := ⟨(R.GATE_SLOT_PARSE i), 29, 2⟩
def F.GATE_CSI_CTL_lanes (i : Nat) : FieldRef := ⟨(R.GATE_CSI_CTL i), 0, 3⟩
def F.GATE_CSI_CTL_strobe_mode (i : Nat) : FieldRef := ⟨(R.GATE_CSI_CTL i), 3, 2⟩
def F.GATE_CSI_CTL_strobe_input (i : Nat) : FieldRef := ⟨(R.GATE_CSI_CTL i), 5, 3⟩
def F.GATE_CSI_CTL_filter (i : Nat) : FieldRef := ⟨(R.GATE_CSI_CTL i), 8, 8⟩
def F.GATE_CSI_CTL_window (i : Nat) : FieldRef := ⟨(R.GATE_CSI_CTL i), 16, 16⟩
def F.GATE_CSI_FS_OFFSET_offset (i : Nat) : FieldRef := ⟨(R.GATE_CSI_FS_OFFSET i), 0, 32⟩
def F.GATE_ETH_CTL_mode (i : Nat) : FieldRef := ⟨(R.GATE_ETH_CTL i), 0, 3⟩
def F.GATE_ETH_CTL_vlan_strip (i : Nat) : FieldRef := ⟨(R.GATE_ETH_CTL i), 3, 1⟩
def F.GATE_ETH_CTL_max_frame (i : Nat) : FieldRef := ⟨(R.GATE_ETH_CTL i), 16, 14⟩
def F.GATE_ETH_INGRESS_CORR_corr (i : Nat) : FieldRef := ⟨(R.GATE_ETH_INGRESS_CORR i), 0, 32⟩
def F.GATE_ETH_EGRESS_CORR_corr (i : Nat) : FieldRef := ⟨(R.GATE_ETH_EGRESS_CORR i), 0, 32⟩
def F.GATE_IMU_CTL_spi_mode (i : Nat) : FieldRef := ⟨(R.GATE_IMU_CTL i), 0, 2⟩
def F.GATE_IMU_CTL_div (i : Nat) : FieldRef := ⟨(R.GATE_IMU_CTL i), 2, 8⟩
def F.GATE_IMU_CTL_drdy_pol (i : Nat) : FieldRef := ⟨(R.GATE_IMU_CTL i), 10, 1⟩
def F.GATE_IMU_CTL_burst (i : Nat) : FieldRef := ⟨(R.GATE_IMU_CTL i), 11, 8⟩
def F.GATE_IMU_CTL_cmd (i : Nat) : FieldRef := ⟨(R.GATE_IMU_CTL i), 19, 8⟩
def F.GATE_IMU_CTL_cmd_en (i : Nat) : FieldRef := ⟨(R.GATE_IMU_CTL i), 27, 1⟩
def F.GATE_IMU_CTL_drdy_filter (i : Nat) : FieldRef := ⟨(R.GATE_IMU_CTL i), 28, 4⟩
def F.GATE_CAN_NOM_brp (i : Nat) : FieldRef := ⟨(R.GATE_CAN_NOM i), 0, 8⟩
def F.GATE_CAN_NOM_tseg1 (i : Nat) : FieldRef := ⟨(R.GATE_CAN_NOM i), 8, 8⟩
def F.GATE_CAN_NOM_tseg2 (i : Nat) : FieldRef := ⟨(R.GATE_CAN_NOM i), 16, 7⟩
def F.GATE_CAN_NOM_sjw (i : Nat) : FieldRef := ⟨(R.GATE_CAN_NOM i), 23, 7⟩
def F.GATE_CAN_DATA_brp (i : Nat) : FieldRef := ⟨(R.GATE_CAN_DATA i), 0, 8⟩
def F.GATE_CAN_DATA_tseg1 (i : Nat) : FieldRef := ⟨(R.GATE_CAN_DATA i), 8, 5⟩
def F.GATE_CAN_DATA_tseg2 (i : Nat) : FieldRef := ⟨(R.GATE_CAN_DATA i), 13, 4⟩
def F.GATE_CAN_DATA_sjw (i : Nat) : FieldRef := ⟨(R.GATE_CAN_DATA i), 17, 4⟩
def F.GATE_CAN_DATA_tdc_offset (i : Nat) : FieldRef := ⟨(R.GATE_CAN_DATA i), 21, 7⟩
def F.GATE_CAN_DATA_tdc (i : Nat) : FieldRef := ⟨(R.GATE_CAN_DATA i), 28, 1⟩
def F.GATE_CAN_CTL_enable (i : Nat) : FieldRef := ⟨(R.GATE_CAN_CTL i), 0, 1⟩
def F.GATE_CAN_CTL_fd (i : Nat) : FieldRef := ⟨(R.GATE_CAN_CTL i), 1, 1⟩
def F.GATE_CAN_CTL_listen_only (i : Nat) : FieldRef := ⟨(R.GATE_CAN_CTL i), 2, 1⟩
def F.GATE_CAN_CTL_state (i : Nat) : FieldRef := ⟨(R.GATE_CAN_CTL i), 3, 2⟩
def F.GATE_CAN_CTL_tec (i : Nat) : FieldRef := ⟨(R.GATE_CAN_CTL i), 5, 8⟩
def F.GATE_CAN_CTL_rec (i : Nat) : FieldRef := ⟨(R.GATE_CAN_CTL i), 13, 8⟩
def F.GATE_ENC_CTL_latch (i : Nat) : FieldRef := ⟨(R.GATE_ENC_CTL i), 0, 1⟩
def F.GATE_ENC_CTL_z_reset (i : Nat) : FieldRef := ⟨(R.GATE_ENC_CTL i), 1, 1⟩
def F.GATE_ENC_CTL_invert (i : Nat) : FieldRef := ⟨(R.GATE_ENC_CTL i), 2, 1⟩
def F.GATE_ENC_CTL_filter (i : Nat) : FieldRef := ⟨(R.GATE_ENC_CTL i), 3, 8⟩
def F.GATE_ENC_CTL_period (i : Nat) : FieldRef := ⟨(R.GATE_ENC_CTL i), 11, 20⟩
def F.GATE_ENC_COUNT_count (i : Nat) : FieldRef := ⟨(R.GATE_ENC_COUNT i), 0, 32⟩
def F.GATE_TRIG_START_start (i : Nat) : FieldRef := ⟨(R.GATE_TRIG_START i), 0, 64⟩
def F.GATE_TRIG_PERIOD_period (i : Nat) : FieldRef := ⟨(R.GATE_TRIG_PERIOD i), 0, 32⟩
def F.GATE_TRIG_WIDTH_width (i : Nat) : FieldRef := ⟨(R.GATE_TRIG_WIDTH i), 0, 30⟩
def F.GATE_TRIG_WIDTH_invert (i : Nat) : FieldRef := ⟨(R.GATE_TRIG_WIDTH i), 30, 1⟩
def F.GATE_TRIG_WIDTH_enable (i : Nat) : FieldRef := ⟨(R.GATE_TRIG_WIDTH i), 31, 1⟩
def F.TROUGH_STATUS_nonempty : FieldRef := ⟨R.TROUGH_STATUS, 0, 16⟩
def F.TROUGH_STATUS_full : FieldRef := ⟨R.TROUGH_STATUS, 16, 16⟩
def F.TROUGH_IRQ_STATUS_level : FieldRef := ⟨R.TROUGH_IRQ_STATUS, 0, 16⟩
def F.TROUGH_IRQ_STATUS_overflow : FieldRef := ⟨R.TROUGH_IRQ_STATUS, 16, 1⟩
def F.TROUGH_IRQ_STATUS_ecc : FieldRef := ⟨R.TROUGH_IRQ_STATUS, 17, 1⟩
def F.TROUGH_IRQ_STATUS_gate : FieldRef := ⟨R.TROUGH_IRQ_STATUS, 18, 1⟩
def F.TROUGH_IRQ_MASK_level : FieldRef := ⟨R.TROUGH_IRQ_MASK, 0, 16⟩
def F.TROUGH_IRQ_MASK_overflow : FieldRef := ⟨R.TROUGH_IRQ_MASK, 16, 1⟩
def F.TROUGH_IRQ_MASK_ecc : FieldRef := ⟨R.TROUGH_IRQ_MASK, 17, 1⟩
def F.TROUGH_IRQ_MASK_gate : FieldRef := ⟨R.TROUGH_IRQ_MASK, 18, 1⟩
def F.TROUGH_CTL_level (i : Nat) : FieldRef := ⟨(R.TROUGH_CTL i), 0, 12⟩
def F.TROUGH_CTL_consumer_hold (i : Nat) : FieldRef := ⟨(R.TROUGH_CTL i), 12, 1⟩
def F.TROUGH_CTL_gate_en (i : Nat) : FieldRef := ⟨(R.TROUGH_CTL i), 13, 1⟩
def F.TROUGH_PTR_wr (i : Nat) : FieldRef := ⟨(R.TROUGH_PTR i), 0, 12⟩
def F.TROUGH_PTR_rd (i : Nat) : FieldRef := ⟨(R.TROUGH_PTR i), 16, 12⟩
def F.TROUGH_CMD_drop_packet (i : Nat) : FieldRef := ⟨(R.TROUGH_CMD i), 0, 1⟩
def F.TROUGH_CMD_flush (i : Nat) : FieldRef := ⟨(R.TROUGH_CMD i), 1, 1⟩
def F.TROUGH_DROP_PKTS_count (i : Nat) : FieldRef := ⟨(R.TROUGH_DROP_PKTS i), 0, 32⟩
def F.TROUGH_ABORT_PKTS_count (i : Nat) : FieldRef := ⟨(R.TROUGH_ABORT_PKTS i), 0, 32⟩
def F.TROUGH_GATE_DROP_count (i : Nat) : FieldRef := ⟨(R.TROUGH_GATE_DROP i), 0, 32⟩
def F.TROUGH_GATE_past (i : Nat) : FieldRef := ⟨(R.TROUGH_GATE i), 0, 16⟩
def F.TROUGH_GATE_future (i : Nat) : FieldRef := ⟨(R.TROUGH_GATE i), 16, 16⟩
def F.TROUGH_PEAK_peak (i : Nat) : FieldRef := ⟨(R.TROUGH_PEAK i), 0, 12⟩
def F.BELL_STATUS_servo_state : FieldRef := ⟨R.BELL_STATUS, 0, 3⟩
def F.BELL_STATUS_seeded : FieldRef := ⟨R.BELL_STATUS, 3, 1⟩
def F.BELL_STATUS_pps_in_seen : FieldRef := ⟨R.BELL_STATUS, 4, 1⟩
def F.BELL_CTL_source : FieldRef := ⟨R.BELL_CTL, 0, 2⟩
def F.BELL_CTL_link_port : FieldRef := ⟨R.BELL_CTL, 2, 2⟩
def F.BELL_CTL_auto_step : FieldRef := ⟨R.BELL_CTL, 4, 1⟩
def F.BELL_CTL_alm_rewrite : FieldRef := ⟨R.BELL_CTL, 5, 1⟩
def F.BELL_TIME_ns : FieldRef := ⟨R.BELL_TIME, 0, 64⟩
def F.BELL_TIME_FRAC_frac : FieldRef := ⟨R.BELL_TIME_FRAC, 0, 8⟩
def F.BELL_RATE_rate : FieldRef := ⟨R.BELL_RATE, 0, 32⟩
def F.BELL_RATE_MANUAL_rate : FieldRef := ⟨R.BELL_RATE_MANUAL, 0, 32⟩
def F.BELL_SET_ns : FieldRef := ⟨R.BELL_SET, 0, 64⟩
def F.BELL_SERVO_GAIN_kp : FieldRef := ⟨R.BELL_SERVO_GAIN, 0, 16⟩
def F.BELL_SERVO_GAIN_ki : FieldRef := ⟨R.BELL_SERVO_GAIN, 16, 16⟩
def F.BELL_SERVO_LIMITS_lock_thr : FieldRef := ⟨R.BELL_SERVO_LIMITS, 0, 12⟩
def F.BELL_SERVO_LIMITS_step_thr : FieldRef := ⟨R.BELL_SERVO_LIMITS, 12, 10⟩
def F.BELL_SERVO_LIMITS_holdover_to : FieldRef := ⟨R.BELL_SERVO_LIMITS, 22, 10⟩
def F.BELL_OFFSET_theta : FieldRef := ⟨R.BELL_OFFSET, 0, 64⟩
def F.BELL_PATH_DELAY_delay : FieldRef := ⟨R.BELL_PATH_DELAY, 0, 32⟩
def F.BELL_SERVO_CLAMP_count : FieldRef := ⟨R.BELL_SERVO_CLAMP, 0, 32⟩
def F.BELL_PTP_CTL_domain : FieldRef := ⟨R.BELL_PTP_CTL, 0, 8⟩
def F.BELL_PTP_CTL_log_sync : FieldRef := ⟨R.BELL_PTP_CTL, 8, 4⟩
def F.BELL_PTP_CTL_log_announce : FieldRef := ⟨R.BELL_PTP_CTL, 12, 4⟩
def F.BELL_PTP_CTL_delay_mech : FieldRef := ⟨R.BELL_PTP_CTL, 16, 1⟩
def F.BELL_PTP_CTL_one_step : FieldRef := ⟨R.BELL_PTP_CTL, 17, 1⟩
def F.BELL_PTP_CTL_transport : FieldRef := ⟨R.BELL_PTP_CTL, 18, 2⟩
def F.BELL_PTP_CTL_profile : FieldRef := ⟨R.BELL_PTP_CTL, 20, 1⟩
def F.BELL_PTP_CTL_enable : FieldRef := ⟨R.BELL_PTP_CTL, 21, 1⟩
def F.BELL_PTP_ROLE_role : FieldRef := ⟨R.BELL_PTP_ROLE, 0, 8⟩
def F.BELL_PTP_CLOCK_ID_id : FieldRef := ⟨R.BELL_PTP_CLOCK_ID, 0, 64⟩
def F.BELL_PTP_DISCARD_count : FieldRef := ⟨R.BELL_PTP_DISCARD, 0, 32⟩
def F.BELL_UTC_OFFSET_offset : FieldRef := ⟨R.BELL_UTC_OFFSET, 0, 16⟩
def F.BELL_UTC_OFFSET_valid : FieldRef := ⟨R.BELL_UTC_OFFSET, 16, 1⟩
def F.BELL_PPS_CTL_out_en : FieldRef := ⟨R.BELL_PPS_CTL, 0, 1⟩
def F.BELL_PPS_CTL_in_en : FieldRef := ⟨R.BELL_PPS_CTL, 1, 1⟩
def F.BELL_PPS_CTL_in_pol : FieldRef := ⟨R.BELL_PPS_CTL, 2, 1⟩
def F.BELL_PPS_CTL_filter : FieldRef := ⟨R.BELL_PPS_CTL, 3, 8⟩
def F.BELL_PPS_CTL_out_width : FieldRef := ⟨R.BELL_PPS_CTL, 11, 20⟩
def F.BELL_PPS_IN_STAMP_ns : FieldRef := ⟨R.BELL_PPS_IN_STAMP, 0, 64⟩
def F.BELL_PERIOD_BASE_ns : FieldRef := ⟨R.BELL_PERIOD_BASE, 0, 64⟩
def F.BELL_VT_SEL_ctx_id : FieldRef := ⟨R.BELL_VT_SEL, 0, 12⟩
def F.BELL_VT_CUR_ns : FieldRef := ⟨R.BELL_VT_CUR, 0, 64⟩
def F.BELL_VT_PENDING_ns : FieldRef := ⟨R.BELL_VT_PENDING, 0, 64⟩
def F.BELL_VT_REGRESS_count : FieldRef := ⟨R.BELL_VT_REGRESS, 0, 32⟩
def F.BELL_ALM_SEC_sec : FieldRef := ⟨R.BELL_ALM_SEC, 0, 48⟩
def F.BELL_ALM_SUB_ticks : FieldRef := ⟨R.BELL_ALM_SUB, 0, 15⟩
def F.BELL_ALM_STATUS_valid : FieldRef := ⟨R.BELL_ALM_STATUS, 0, 1⟩
def F.BELL_ALM_STATUS_supply : FieldRef := ⟨R.BELL_ALM_STATUS, 1, 2⟩
def F.BELL_ALM_STATUS_lost : FieldRef := ⟨R.BELL_ALM_STATUS, 3, 1⟩
def F.BELL_ALM_STATUS_cap_low : FieldRef := ⟨R.BELL_ALM_STATUS, 4, 1⟩
def F.BELL_ALM_SET_sec : FieldRef := ⟨R.BELL_ALM_SET, 0, 48⟩
def F.BELL_IRQ_STATUS_servo : FieldRef := ⟨R.BELL_IRQ_STATUS, 0, 1⟩
def F.BELL_IRQ_STATUS_step : FieldRef := ⟨R.BELL_IRQ_STATUS, 1, 1⟩
def F.BELL_IRQ_STATUS_vt : FieldRef := ⟨R.BELL_IRQ_STATUS, 2, 1⟩
def F.BELL_IRQ_STATUS_ptp : FieldRef := ⟨R.BELL_IRQ_STATUS, 3, 1⟩
def F.BELL_IRQ_STATUS_alm : FieldRef := ⟨R.BELL_IRQ_STATUS, 4, 1⟩
def F.BELL_IRQ_STATUS_pps : FieldRef := ⟨R.BELL_IRQ_STATUS, 5, 1⟩
def F.BELL_IRQ_STATUS_overrun : FieldRef := ⟨R.BELL_IRQ_STATUS, 6, 1⟩
def F.BELL_IRQ_MASK_servo : FieldRef := ⟨R.BELL_IRQ_MASK, 0, 1⟩
def F.BELL_IRQ_MASK_step : FieldRef := ⟨R.BELL_IRQ_MASK, 1, 1⟩
def F.BELL_IRQ_MASK_vt : FieldRef := ⟨R.BELL_IRQ_MASK, 2, 1⟩
def F.BELL_IRQ_MASK_ptp : FieldRef := ⟨R.BELL_IRQ_MASK, 3, 1⟩
def F.BELL_IRQ_MASK_alm : FieldRef := ⟨R.BELL_IRQ_MASK, 4, 1⟩
def F.BELL_IRQ_MASK_pps : FieldRef := ⟨R.BELL_IRQ_MASK, 5, 1⟩
def F.BELL_IRQ_MASK_overrun : FieldRef := ⟨R.BELL_IRQ_MASK, 6, 1⟩
def F.BELL_STAMP_OVERRUN_count : FieldRef := ⟨R.BELL_STAMP_OVERRUN, 0, 32⟩
def F.YOKE_STATUS_busy : FieldRef := ⟨R.YOKE_STATUS, 0, 1⟩
def F.YOKE_STATUS_recovering : FieldRef := ⟨R.YOKE_STATUS, 1, 1⟩
def F.YOKE_STATUS_intake_ptr : FieldRef := ⟨R.YOKE_STATUS, 2, 4⟩
def F.YOKE_IRQ_STATUS_stale : FieldRef := ⟨R.YOKE_IRQ_STATUS, 0, 1⟩
def F.YOKE_IRQ_STATUS_conflict : FieldRef := ⟨R.YOKE_IRQ_STATUS, 1, 1⟩
def F.YOKE_IRQ_STATUS_refused : FieldRef := ⟨R.YOKE_IRQ_STATUS, 2, 1⟩
def F.YOKE_IRQ_STATUS_late : FieldRef := ⟨R.YOKE_IRQ_STATUS, 3, 1⟩
def F.YOKE_IRQ_STATUS_history : FieldRef := ⟨R.YOKE_IRQ_STATUS, 4, 1⟩
def F.YOKE_IRQ_STATUS_skip : FieldRef := ⟨R.YOKE_IRQ_STATUS, 5, 1⟩
def F.YOKE_IRQ_STATUS_overrun : FieldRef := ⟨R.YOKE_IRQ_STATUS, 6, 1⟩
def F.YOKE_IRQ_STATUS_bad_commit : FieldRef := ⟨R.YOKE_IRQ_STATUS, 7, 1⟩
def F.YOKE_IRQ_MASK_stale : FieldRef := ⟨R.YOKE_IRQ_MASK, 0, 1⟩
def F.YOKE_IRQ_MASK_conflict : FieldRef := ⟨R.YOKE_IRQ_MASK, 1, 1⟩
def F.YOKE_IRQ_MASK_refused : FieldRef := ⟨R.YOKE_IRQ_MASK, 2, 1⟩
def F.YOKE_IRQ_MASK_late : FieldRef := ⟨R.YOKE_IRQ_MASK, 3, 1⟩
def F.YOKE_IRQ_MASK_history : FieldRef := ⟨R.YOKE_IRQ_MASK, 4, 1⟩
def F.YOKE_IRQ_MASK_skip : FieldRef := ⟨R.YOKE_IRQ_MASK, 5, 1⟩
def F.YOKE_IRQ_MASK_overrun : FieldRef := ⟨R.YOKE_IRQ_MASK, 6, 1⟩
def F.YOKE_IRQ_MASK_bad_commit : FieldRef := ⟨R.YOKE_IRQ_MASK, 7, 1⟩
def F.YOKE_DECODE_SHORT_count : FieldRef := ⟨R.YOKE_DECODE_SHORT, 0, 32⟩
def F.YOKE_DECODE_FIX_count : FieldRef := ⟨R.YOKE_DECODE_FIX, 0, 32⟩
def F.YOKE_OVERRUN_count : FieldRef := ⟨R.YOKE_OVERRUN, 0, 32⟩
def F.YOKE_MARK_PERIOD_ns (i : Nat) : FieldRef := ⟨(R.YOKE_MARK_PERIOD i), 0, 32⟩
def F.YOKE_MARK_PHASE_ns (i : Nat) : FieldRef := ⟨(R.YOKE_MARK_PHASE i), 0, 32⟩
def F.YOKE_MARK_CTL_prov_lag (i : Nat) : FieldRef := ⟨(R.YOKE_MARK_CTL i), 0, 32⟩
def F.YOKE_MARK_CTL_commit_lag (i : Nat) : FieldRef := ⟨(R.YOKE_MARK_CTL i), 32, 32⟩
def F.YOKE_MARK_CFG_enable (i : Nat) : FieldRef := ⟨(R.YOKE_MARK_CFG i), 0, 1⟩
def F.YOKE_MARK_CFG_virtual (i : Nat) : FieldRef := ⟨(R.YOKE_MARK_CFG i), 1, 1⟩
def F.YOKE_MARK_CFG_nbuf_m1 (i : Nat) : FieldRef := ⟨(R.YOKE_MARK_CFG i), 2, 3⟩
def F.YOKE_MARK_CFG_region_base (i : Nat) : FieldRef := ⟨(R.YOKE_MARK_CFG i), 8, 8⟩
def F.YOKE_MARK_CFG_owner (i : Nat) : FieldRef := ⟨(R.YOKE_MARK_CFG i), 16, 12⟩
def F.YOKE_MARK_INDEX_mark (i : Nat) : FieldRef := ⟨(R.YOKE_MARK_INDEX i), 0, 32⟩
def F.YOKE_MARK_VERDICT_verdict (i : Nat) : FieldRef := ⟨(R.YOKE_MARK_VERDICT i), 0, 2⟩
def F.YOKE_MARK_REFUSED_count (i : Nat) : FieldRef := ⟨(R.YOKE_MARK_REFUSED i), 0, 32⟩
def F.YOKE_MARK_KEPT_count (i : Nat) : FieldRef := ⟨(R.YOKE_MARK_KEPT i), 0, 32⟩
def F.YOKE_MARK_SKIPPED_count (i : Nat) : FieldRef := ⟨(R.YOKE_MARK_SKIPPED i), 0, 32⟩
def F.YOKE_MARK_ARRIVALS_count (i : Nat) : FieldRef := ⟨(R.YOKE_MARK_ARRIVALS i), 0, 32⟩
def F.YOKE_SLOT_LATE_count (i : Nat) : FieldRef := ⟨(R.YOKE_SLOT_LATE i), 0, 32⟩
def F.YOKE_SLOT_HIST_DROP_count (i : Nat) : FieldRef := ⟨(R.YOKE_SLOT_HIST_DROP i), 0, 32⟩
def F.YOKE_STREAM_SEL_stream : FieldRef := ⟨R.YOKE_STREAM_SEL, 0, 6⟩
def F.YOKE_STREAM_STATE_flags : FieldRef := ⟨R.YOKE_STREAM_STATE, 0, 16⟩
def F.YOKE_STREAM_STATE_fill : FieldRef := ⟨R.YOKE_STREAM_STATE, 16, 7⟩
def F.YOKE_STREAM_AGE_age_ns : FieldRef := ⟨R.YOKE_STREAM_AGE, 0, 32⟩
def F.YOKE_STREAM_LAST_stamp_ns : FieldRef := ⟨R.YOKE_STREAM_LAST, 0, 64⟩
def F.YOKE_PAIR_CONFLICT_count (i : Nat) : FieldRef := ⟨(R.YOKE_PAIR_CONFLICT i), 0, 32⟩
def F.YOKE_PROJ_STATUS_busy : FieldRef := ⟨R.YOKE_PROJ_STATUS, 0, 1⟩
def F.YOKE_PROJ_STATUS_held : FieldRef := ⟨R.YOKE_PROJ_STATUS, 1, 4⟩
def F.YOKE_PROJ_STATUS_cam_valid : FieldRef := ⟨R.YOKE_PROJ_STATUS, 8, 8⟩
def F.YOKE_PROJ_IRQ_STATUS_cam : FieldRef := ⟨R.YOKE_PROJ_IRQ_STATUS, 0, 1⟩
def F.YOKE_PROJ_IRQ_STATUS_job : FieldRef := ⟨R.YOKE_PROJ_IRQ_STATUS, 1, 1⟩
def F.YOKE_PROJ_IRQ_STATUS_bad : FieldRef := ⟨R.YOKE_PROJ_IRQ_STATUS, 2, 1⟩
def F.YOKE_PROJ_IRQ_STATUS_overrun : FieldRef := ⟨R.YOKE_PROJ_IRQ_STATUS, 3, 1⟩
def F.YOKE_PROJ_IRQ_MASK_cam : FieldRef := ⟨R.YOKE_PROJ_IRQ_MASK, 0, 1⟩
def F.YOKE_PROJ_IRQ_MASK_job : FieldRef := ⟨R.YOKE_PROJ_IRQ_MASK, 1, 1⟩
def F.YOKE_PROJ_IRQ_MASK_bad : FieldRef := ⟨R.YOKE_PROJ_IRQ_MASK, 2, 1⟩
def F.YOKE_PROJ_IRQ_MASK_overrun : FieldRef := ⟨R.YOKE_PROJ_IRQ_MASK, 3, 1⟩
def F.YOKE_PROJ_JOBS_count : FieldRef := ⟨R.YOKE_PROJ_JOBS, 0, 32⟩
def F.YOKE_PROJ_BAD_count : FieldRef := ⟨R.YOKE_PROJ_BAD, 0, 32⟩
def F.YOKE_PROJ_OVERRUN_count : FieldRef := ⟨R.YOKE_PROJ_OVERRUN, 0, 32⟩
def F.YOKE_PROJ_CAM_CTL_enable (i : Nat) : FieldRef := ⟨(R.YOKE_PROJ_CAM_CTL i), 0, 1⟩
def F.YOKE_PROJ_CAM_CTL_intr_src (i : Nat) : FieldRef := ⟨(R.YOKE_PROJ_CAM_CTL i), 1, 1⟩
def F.YOKE_PROJ_CAM_CTL_extr_src (i : Nat) : FieldRef := ⟨(R.YOKE_PROJ_CAM_CTL i), 2, 1⟩
def F.YOKE_PROJ_CAM_CTL_port (i : Nat) : FieldRef := ⟨(R.YOKE_PROJ_CAM_CTL i), 3, 3⟩
def F.YOKE_PROJ_CAM_CTL_valid (i : Nat) : FieldRef := ⟨(R.YOKE_PROJ_CAM_CTL i), 6, 1⟩
def F.YOKE_PROJ_CAM_SIZE_width (i : Nat) : FieldRef := ⟨(R.YOKE_PROJ_CAM_SIZE i), 0, 16⟩
def F.YOKE_PROJ_CAM_SIZE_height (i : Nat) : FieldRef := ⟨(R.YOKE_PROJ_CAM_SIZE i), 16, 16⟩
def F.YOKE_PROJ_CAM_MODEL_model (i : Nat) : FieldRef := ⟨(R.YOKE_PROJ_CAM_MODEL i), 0, 1⟩
def F.YOKE_PROJ_CAM_INTR_value (i : Nat) (j : Nat) : FieldRef := ⟨(R.YOKE_PROJ_CAM_INTR i j), 0, 32⟩
def F.YOKE_PROJ_CAM_POS_value (i : Nat) (j : Nat) : FieldRef := ⟨(R.YOKE_PROJ_CAM_POS i j), 0, 32⟩
def F.YOKE_PROJ_CAM_ORIENT_value (i : Nat) (j : Nat) : FieldRef := ⟨(R.YOKE_PROJ_CAM_ORIENT i j), 0, 32⟩
def F.YOKE_PROJ_CAM_NEAR_value (i : Nat) : FieldRef := ⟨(R.YOKE_PROJ_CAM_NEAR i), 0, 32⟩
def F.YOKE_PROJ_CAM_FAR_value (i : Nat) : FieldRef := ⟨(R.YOKE_PROJ_CAM_FAR i), 0, 32⟩
def F.YOKE_PROJ_CAM_HIT_count (i : Nat) : FieldRef := ⟨(R.YOKE_PROJ_CAM_HIT i), 0, 32⟩
def F.YOKE_PROJ_CAM_CULL_count (i : Nat) : FieldRef := ⟨(R.YOKE_PROJ_CAM_CULL i), 0, 32⟩
def F.YOKE_PROJ_CAM_OUTSIDE_count (i : Nat) : FieldRef := ⟨(R.YOKE_PROJ_CAM_OUTSIDE i), 0, 32⟩
def F.SIEVE_STATUS_busy : FieldRef := ⟨R.SIEVE_STATUS, 0, 1⟩
def F.SIEVE_STATUS_held : FieldRef := ⟨R.SIEVE_STATUS, 1, 4⟩
def F.SIEVE_STATUS_recovering : FieldRef := ⟨R.SIEVE_STATUS, 5, 1⟩
def F.SIEVE_IRQ_STATUS_error : FieldRef := ⟨R.SIEVE_IRQ_STATUS, 0, 1⟩
def F.SIEVE_IRQ_STATUS_truncated : FieldRef := ⟨R.SIEVE_IRQ_STATUS, 1, 1⟩
def F.SIEVE_IRQ_STATUS_ring : FieldRef := ⟨R.SIEVE_IRQ_STATUS, 2, 1⟩
def F.SIEVE_IRQ_STATUS_quota : FieldRef := ⟨R.SIEVE_IRQ_STATUS, 3, 1⟩
def F.SIEVE_IRQ_STATUS_bad : FieldRef := ⟨R.SIEVE_IRQ_STATUS, 4, 1⟩
def F.SIEVE_IRQ_STATUS_overrun : FieldRef := ⟨R.SIEVE_IRQ_STATUS, 5, 1⟩
def F.SIEVE_IRQ_MASK_error : FieldRef := ⟨R.SIEVE_IRQ_MASK, 0, 1⟩
def F.SIEVE_IRQ_MASK_truncated : FieldRef := ⟨R.SIEVE_IRQ_MASK, 1, 1⟩
def F.SIEVE_IRQ_MASK_ring : FieldRef := ⟨R.SIEVE_IRQ_MASK, 2, 1⟩
def F.SIEVE_IRQ_MASK_quota : FieldRef := ⟨R.SIEVE_IRQ_MASK, 3, 1⟩
def F.SIEVE_IRQ_MASK_bad : FieldRef := ⟨R.SIEVE_IRQ_MASK, 4, 1⟩
def F.SIEVE_IRQ_MASK_overrun : FieldRef := ⟨R.SIEVE_IRQ_MASK, 5, 1⟩
def F.SIEVE_JOBS_count : FieldRef := ⟨R.SIEVE_JOBS, 0, 32⟩
def F.SIEVE_POINTS_count : FieldRef := ⟨R.SIEVE_POINTS, 0, 32⟩
def F.SIEVE_VOXELS_count : FieldRef := ⟨R.SIEVE_VOXELS, 0, 32⟩
def F.SIEVE_CELL_DROP_count : FieldRef := ⟨R.SIEVE_CELL_DROP, 0, 32⟩
def F.SIEVE_SUPERSEDED_count : FieldRef := ⟨R.SIEVE_SUPERSEDED, 0, 32⟩
def F.SIEVE_SAMPLED_count : FieldRef := ⟨R.SIEVE_SAMPLED, 0, 32⟩
def F.SIEVE_OUT_OF_GRID_count : FieldRef := ⟨R.SIEVE_OUT_OF_GRID, 0, 32⟩
def F.SIEVE_SKIPPED_count : FieldRef := ⟨R.SIEVE_SKIPPED, 0, 32⟩
def F.SIEVE_BAD_count : FieldRef := ⟨R.SIEVE_BAD, 0, 32⟩
def F.SIEVE_TRUNCATED_count : FieldRef := ⟨R.SIEVE_TRUNCATED, 0, 32⟩
def F.SIEVE_PAIRS_count : FieldRef := ⟨R.SIEVE_PAIRS, 0, 32⟩
def F.SIEVE_OVERRUN_count : FieldRef := ⟨R.SIEVE_OVERRUN, 0, 32⟩
def F.SIEVE_LAST_JOB_address : FieldRef := ⟨R.SIEVE_LAST_JOB, 0, 64⟩
def F.SIEVE_LAST_END_kind : FieldRef := ⟨R.SIEVE_LAST_END, 0, 8⟩
def F.SIEVE_LAST_END_reason : FieldRef := ⟨R.SIEVE_LAST_END, 8, 3⟩
def F.SIEVE_SLOT_DROP_count (i : Nat) : FieldRef := ⟨(R.SIEVE_SLOT_DROP i), 0, 32⟩
def F.SIEVE_SLOT_RING_LOST_count (i : Nat) : FieldRef := ⟨(R.SIEVE_SLOT_RING_LOST i), 0, 32⟩
def F.SIEVE_SLOT_POINTS_count (i : Nat) : FieldRef := ⟨(R.SIEVE_SLOT_POINTS i), 0, 32⟩
def F.MILL_STATUS_lane_busy : FieldRef := ⟨R.MILL_STATUS, 0, 4⟩
def F.MILL_STATUS_batch_busy : FieldRef := ⟨R.MILL_STATUS, 4, 1⟩
def F.MILL_STATUS_recovering : FieldRef := ⟨R.MILL_STATUS, 5, 1⟩
def F.MILL_STATUS_held : FieldRef := ⟨R.MILL_STATUS, 8, 15⟩
def F.MILL_IRQ_STATUS_error : FieldRef := ⟨R.MILL_IRQ_STATUS, 0, 1⟩
def F.MILL_IRQ_STATUS_sat : FieldRef := ⟨R.MILL_IRQ_STATUS, 1, 1⟩
def F.MILL_IRQ_STATUS_pivot : FieldRef := ⟨R.MILL_IRQ_STATUS, 2, 1⟩
def F.MILL_IRQ_STATUS_warm : FieldRef := ⟨R.MILL_IRQ_STATUS, 3, 1⟩
def F.MILL_IRQ_STATUS_deadline : FieldRef := ⟨R.MILL_IRQ_STATUS, 4, 1⟩
def F.MILL_IRQ_STATUS_quota : FieldRef := ⟨R.MILL_IRQ_STATUS, 5, 1⟩
def F.MILL_IRQ_MASK_error : FieldRef := ⟨R.MILL_IRQ_MASK, 0, 1⟩
def F.MILL_IRQ_MASK_sat : FieldRef := ⟨R.MILL_IRQ_MASK, 1, 1⟩
def F.MILL_IRQ_MASK_pivot : FieldRef := ⟨R.MILL_IRQ_MASK, 2, 1⟩
def F.MILL_IRQ_MASK_warm : FieldRef := ⟨R.MILL_IRQ_MASK, 3, 1⟩
def F.MILL_IRQ_MASK_deadline : FieldRef := ⟨R.MILL_IRQ_MASK, 4, 1⟩
def F.MILL_IRQ_MASK_quota : FieldRef := ⟨R.MILL_IRQ_MASK, 5, 1⟩
def F.MILL_JOBS_count : FieldRef := ⟨R.MILL_JOBS, 0, 32⟩
def F.MILL_INSTANCES_count : FieldRef := ⟨R.MILL_INSTANCES, 0, 32⟩
def F.MILL_ITERATIONS_count : FieldRef := ⟨R.MILL_ITERATIONS, 0, 32⟩
def F.MILL_SAT_count : FieldRef := ⟨R.MILL_SAT, 0, 32⟩
def F.MILL_PIVOT_SMALL_count : FieldRef := ⟨R.MILL_PIVOT_SMALL, 0, 32⟩
def F.MILL_WARM_REJECT_count : FieldRef := ⟨R.MILL_WARM_REJECT, 0, 32⟩
def F.MILL_DEADLINE_count : FieldRef := ⟨R.MILL_DEADLINE, 0, 32⟩
def F.MILL_OVER_QUOTA_count : FieldRef := ⟨R.MILL_OVER_QUOTA, 0, 32⟩
def F.MILL_LAST_JOB_address : FieldRef := ⟨R.MILL_LAST_JOB, 0, 64⟩
def F.MILL_LAST_END_kind : FieldRef := ⟨R.MILL_LAST_END, 0, 8⟩
def F.MILL_LAST_END_reason : FieldRef := ⟨R.MILL_LAST_END, 8, 3⟩
def F.MILL_MODEL_SEL_slot : FieldRef := ⟨R.MILL_MODEL_SEL, 0, 4⟩
def F.MILL_MODEL_INFO_valid : FieldRef := ⟨R.MILL_MODEL_INFO, 0, 1⟩
def F.MILL_MODEL_INFO_bodies : FieldRef := ⟨R.MILL_MODEL_INFO, 1, 7⟩
def F.MILL_MODEL_INFO_ndof : FieldRef := ⟨R.MILL_MODEL_INFO, 8, 7⟩
def F.MILL_MODEL_INFO_frames : FieldRef := ⟨R.MILL_MODEL_INFO, 15, 6⟩
def F.MILL_MODEL_INFO_rows : FieldRef := ⟨R.MILL_MODEL_INFO, 21, 8⟩
def F.MILL_MODEL_SIG_signature : FieldRef := ⟨R.MILL_MODEL_SIG, 0, 64⟩
def F.MILL_RES_SEL_slot : FieldRef := ⟨R.MILL_RES_SEL, 0, 4⟩
def F.MILL_RES_INFO_valid : FieldRef := ⟨R.MILL_RES_INFO, 0, 1⟩
def F.MILL_RES_INFO_m : FieldRef := ⟨R.MILL_RES_INFO, 1, 8⟩
def F.MILL_RES_INFO_n : FieldRef := ⟨R.MILL_RES_INFO, 9, 7⟩
def F.MILL_RES_INFO_owner : FieldRef := ⟨R.MILL_RES_INFO, 16, 12⟩
def F.MILL_RES_SIG_signature : FieldRef := ⟨R.MILL_RES_SIG, 0, 64⟩
def F.GRAN_STATUS_lane_busy : FieldRef := ⟨R.GRAN_STATUS, 0, 4⟩
def F.GRAN_STATUS_init_busy : FieldRef := ⟨R.GRAN_STATUS, 4, 1⟩
def F.GRAN_STATUS_ready : FieldRef := ⟨R.GRAN_STATUS, 5, 1⟩
def F.GRAN_STATUS_recovering : FieldRef := ⟨R.GRAN_STATUS, 6, 1⟩
def F.GRAN_STATUS_table_bad : FieldRef := ⟨R.GRAN_STATUS, 7, 1⟩
def F.GRAN_STATUS_walk_ptr : FieldRef := ⟨R.GRAN_STATUS, 8, 2⟩
def F.GRAN_IRQ_STATUS_error : FieldRef := ⟨R.GRAN_IRQ_STATUS, 0, 1⟩
def F.GRAN_IRQ_STATUS_refused : FieldRef := ⟨R.GRAN_IRQ_STATUS, 1, 1⟩
def F.GRAN_IRQ_STATUS_nan : FieldRef := ⟨R.GRAN_IRQ_STATUS, 2, 1⟩
def F.GRAN_IRQ_STATUS_overrun : FieldRef := ⟨R.GRAN_IRQ_STATUS, 3, 1⟩
def F.GRAN_IRQ_STATUS_table : FieldRef := ⟨R.GRAN_IRQ_STATUS, 4, 1⟩
def F.GRAN_IRQ_MASK_error : FieldRef := ⟨R.GRAN_IRQ_MASK, 0, 1⟩
def F.GRAN_IRQ_MASK_refused : FieldRef := ⟨R.GRAN_IRQ_MASK, 1, 1⟩
def F.GRAN_IRQ_MASK_nan : FieldRef := ⟨R.GRAN_IRQ_MASK, 2, 1⟩
def F.GRAN_IRQ_MASK_overrun : FieldRef := ⟨R.GRAN_IRQ_MASK, 3, 1⟩
def F.GRAN_IRQ_MASK_table : FieldRef := ⟨R.GRAN_IRQ_MASK, 4, 1⟩
def F.GRAN_CTL_init : FieldRef := ⟨R.GRAN_CTL, 0, 1⟩
def F.GRAN_SEQ_BASE_base : FieldRef := ⟨R.GRAN_SEQ_BASE, 16, 32⟩
def F.GRAN_PT_BASE_base : FieldRef := ⟨R.GRAN_PT_BASE, 16, 32⟩
def F.GRAN_STAGE_BASE_base : FieldRef := ⟨R.GRAN_STAGE_BASE, 16, 32⟩
def F.GRAN_STAGE_CFG_count : FieldRef := ⟨R.GRAN_STAGE_CFG, 0, 13⟩
def F.GRAN_STAGE_CFG_stride : FieldRef := ⟨R.GRAN_STAGE_CFG, 16, 16⟩
def F.GRAN_JOBS_count : FieldRef := ⟨R.GRAN_JOBS, 0, 32⟩
def F.GRAN_REFUSED_count : FieldRef := ⟨R.GRAN_REFUSED, 0, 32⟩
def F.GRAN_ERRORS_count : FieldRef := ⟨R.GRAN_ERRORS, 0, 32⟩
def F.GRAN_FLUSHES_count : FieldRef := ⟨R.GRAN_FLUSHES, 0, 32⟩
def F.GRAN_COW_count : FieldRef := ⟨R.GRAN_COW, 0, 32⟩
def F.GRAN_EMPTY_ROWS_count : FieldRef := ⟨R.GRAN_EMPTY_ROWS, 0, 32⟩
def F.GRAN_NAN_KEYS_count : FieldRef := ⟨R.GRAN_NAN_KEYS, 0, 32⟩
def F.GRAN_WALK_MISS_count : FieldRef := ⟨R.GRAN_WALK_MISS, 0, 32⟩
def F.GRAN_OVERRUN_count : FieldRef := ⟨R.GRAN_OVERRUN, 0, 32⟩
def F.GRAN_SQUASHED_count : FieldRef := ⟨R.GRAN_SQUASHED, 0, 32⟩
def F.GRAN_LAST_JOB_address : FieldRef := ⟨R.GRAN_LAST_JOB, 0, 64⟩
def F.GRAN_LAST_END_kind : FieldRef := ⟨R.GRAN_LAST_END, 0, 8⟩
def F.GRAN_LAST_END_code : FieldRef := ⟨R.GRAN_LAST_END, 8, 8⟩
def F.GRAN_POOL_BASE_base (i : Nat) : FieldRef := ⟨(R.GRAN_POOL_BASE i), 6, 42⟩
def F.GRAN_POOL_RC_base (i : Nat) : FieldRef := ⟨(R.GRAN_POOL_RC i), 6, 42⟩
def F.GRAN_POOL_STACK_base (i : Nat) : FieldRef := ⟨(R.GRAN_POOL_STACK i), 6, 42⟩
def F.GRAN_POOL_CFG_form (i : Nat) : FieldRef := ⟨(R.GRAN_POOL_CFG i), 0, 1⟩
def F.GRAN_POOL_CFG_elem (i : Nat) : FieldRef := ⟨(R.GRAN_POOL_CFG i), 1, 2⟩
def F.GRAN_POOL_CFG_stores_m1 (i : Nat) : FieldRef := ⟨(R.GRAN_POOL_CFG i), 3, 7⟩
def F.GRAN_POOL_CFG_r_m1 (i : Nat) : FieldRef := ⟨(R.GRAN_POOL_CFG i), 10, 5⟩
def F.GRAN_POOL_CFG_bias_en (i : Nat) : FieldRef := ⟨(R.GRAN_POOL_CFG i), 15, 1⟩
def F.GRAN_POOL_CFG_g_m1 (i : Nat) : FieldRef := ⟨(R.GRAN_POOL_CFG i), 18, 5⟩
def F.GRAN_POOL_CFG_d (i : Nat) : FieldRef := ⟨(R.GRAN_POOL_CFG i), 23, 2⟩
def F.GRAN_POOL_CFG_enable (i : Nat) : FieldRef := ⟨(R.GRAN_POOL_CFG i), 25, 1⟩
def F.GRAN_POOL_FRAMES_frames (i : Nat) : FieldRef := ⟨(R.GRAN_POOL_FRAMES i), 0, 23⟩
def F.GRAN_POOL_FREE_free (i : Nat) : FieldRef := ⟨(R.GRAN_POOL_FREE i), 0, 23⟩
def F.GRAN_POOL_SLICE_bytes (i : Nat) : FieldRef := ⟨(R.GRAN_POOL_SLICE i), 0, 17⟩
def F.GRAN_POOL_BIAS_base (i : Nat) : FieldRef := ⟨(R.GRAN_POOL_BIAS i), 8, 40⟩
def F.TOP_CTX_CMD_ctx_id : FieldRef := ⟨R.TOP_CTX_CMD, 0, 12⟩
def F.TOP_CTX_CMD_cmd : FieldRef := ⟨R.TOP_CTX_CMD, 12, 4⟩
def F.TOP_CTX_CMD_rslot : FieldRef := ⟨R.TOP_CTX_CMD, 16, 6⟩
def F.TOP_CTX_CMD_go : FieldRef := ⟨R.TOP_CTX_CMD, 31, 1⟩
def F.TOP_CTX_CMD_STATUS_busy : FieldRef := ⟨R.TOP_CTX_CMD_STATUS, 0, 1⟩
def F.TOP_CTX_CMD_STATUS_rejected : FieldRef := ⟨R.TOP_CTX_CMD_STATUS, 1, 1⟩
def F.TOP_CTX_CMD_STATUS_result : FieldRef := ⟨R.TOP_CTX_CMD_STATUS, 8, 8⟩
def F.TOP_CTX_SEL_ctx_id : FieldRef := ⟨R.TOP_CTX_SEL, 0, 12⟩
def F.TOP_CTX_STATE_state : FieldRef := ⟨R.TOP_CTX_STATE, 0, 2⟩
def F.TOP_CTX_STATE_suspended : FieldRef := ⟨R.TOP_CTX_STATE, 2, 1⟩
def F.TOP_CTX_STATE_halted : FieldRef := ⟨R.TOP_CTX_STATE, 3, 1⟩
def F.TOP_CTX_STATE_rslot : FieldRef := ⟨R.TOP_CTX_STATE, 4, 6⟩
def F.TOP_CTX_STATE_gen : FieldRef := ⟨R.TOP_CTX_STATE, 12, 20⟩
def F.TOP_CTX_QUOTA_value (i : Nat) : FieldRef := ⟨(R.TOP_CTX_QUOTA i), 0, 32⟩
def F.TOP_CTX_USAGE_value (i : Nat) : FieldRef := ⟨(R.TOP_CTX_USAGE i), 0, 32⟩
def F.TOP_CTX_SLICE_CUT_count : FieldRef := ⟨R.TOP_CTX_SLICE_CUT, 0, 32⟩
def F.MEM_STATUS_stack0_ready : FieldRef := ⟨R.MEM_STATUS, 0, 1⟩
def F.MEM_STATUS_stack1_ready : FieldRef := ⟨R.MEM_STATUS, 1, 1⟩
def F.MEM_STATUS_open_mode : FieldRef := ⟨R.MEM_STATUS, 2, 1⟩
def F.MEM_STATUS_fill_busy : FieldRef := ⟨R.MEM_STATUS, 3, 1⟩
def F.MEM_IRQ_STATUS_corr : FieldRef := ⟨R.MEM_IRQ_STATUS, 0, 1⟩
def F.MEM_IRQ_STATUS_uncorr : FieldRef := ⟨R.MEM_IRQ_STATUS, 1, 1⟩
def F.MEM_IRQ_STATUS_miss : FieldRef := ⟨R.MEM_IRQ_STATUS, 2, 1⟩
def F.MEM_IRQ_STATUS_lap : FieldRef := ⟨R.MEM_IRQ_STATUS, 3, 1⟩
def F.MEM_IRQ_STATUS_stack : FieldRef := ⟨R.MEM_IRQ_STATUS, 4, 1⟩
def F.MEM_IRQ_MASK_corr : FieldRef := ⟨R.MEM_IRQ_MASK, 0, 1⟩
def F.MEM_IRQ_MASK_uncorr : FieldRef := ⟨R.MEM_IRQ_MASK, 1, 1⟩
def F.MEM_IRQ_MASK_miss : FieldRef := ⟨R.MEM_IRQ_MASK, 2, 1⟩
def F.MEM_IRQ_MASK_lap : FieldRef := ⟨R.MEM_IRQ_MASK, 3, 1⟩
def F.MEM_IRQ_MASK_stack : FieldRef := ⟨R.MEM_IRQ_MASK, 4, 1⟩
def F.MEM_CORR_COUNT_count : FieldRef := ⟨R.MEM_CORR_COUNT, 0, 32⟩
def F.MEM_UNCORR_COUNT_count : FieldRef := ⟨R.MEM_UNCORR_COUNT, 0, 32⟩
def F.MEM_WB_DROP_count : FieldRef := ⟨R.MEM_WB_DROP, 0, 32⟩
def F.MEM_WINDOW_MISS_count : FieldRef := ⟨R.MEM_WINDOW_MISS, 0, 32⟩
def F.MEM_SRAM_LAPS_count : FieldRef := ⟨R.MEM_SRAM_LAPS, 0, 32⟩
def F.MEM_LAST_ERR_address : FieldRef := ⟨R.MEM_LAST_ERR, 0, 48⟩
def F.MEM_LAST_ERR_target : FieldRef := ⟨R.MEM_LAST_ERR, 56, 8⟩
def F.MEM_SCRUB_LAP_ms : FieldRef := ⟨R.MEM_SCRUB_LAP, 0, 32⟩
def F.MEM_STACK_TEMP_stack0 : FieldRef := ⟨R.MEM_STACK_TEMP, 0, 8⟩
def F.MEM_STACK_TEMP_stack1 : FieldRef := ⟨R.MEM_STACK_TEMP, 8, 8⟩
def F.MEM_FLIP_ADDR_address : FieldRef := ⟨R.MEM_FLIP_ADDR, 5, 43⟩
def F.MEM_FLIP_ADDR_target : FieldRef := ⟨R.MEM_FLIP_ADDR, 56, 8⟩
def F.MEM_FLIP_DATA_mask : FieldRef := ⟨R.MEM_FLIP_DATA, 0, 64⟩
def F.MEM_FLIP_CHECK_mask : FieldRef := ⟨R.MEM_FLIP_CHECK, 0, 32⟩
def F.MEM_FLIP_CTL_quarter : FieldRef := ⟨R.MEM_FLIP_CTL, 0, 2⟩
def F.MEM_FLIP_CTL_arm : FieldRef := ⟨R.MEM_FLIP_CTL, 2, 1⟩
def F.LINK_STATUS_up : FieldRef := ⟨R.LINK_STATUS, 0, 4⟩
def F.LINK_STATUS_training : FieldRef := ⟨R.LINK_STATUS, 4, 4⟩
def F.LINK_STATUS_held : FieldRef := ⟨R.LINK_STATUS, 8, 4⟩
def F.LINK_IRQ_STATUS_state : FieldRef := ⟨R.LINK_IRQ_STATUS, 0, 1⟩
def F.LINK_IRQ_STATUS_lane : FieldRef := ⟨R.LINK_IRQ_STATUS, 1, 1⟩
def F.LINK_IRQ_STATUS_wiring : FieldRef := ⟨R.LINK_IRQ_STATUS, 2, 1⟩
def F.LINK_IRQ_STATUS_replay : FieldRef := ⟨R.LINK_IRQ_STATUS, 3, 1⟩
def F.LINK_IRQ_STATUS_discard : FieldRef := ⟨R.LINK_IRQ_STATUS, 4, 1⟩
def F.LINK_IRQ_STATUS_peer_squash : FieldRef := ⟨R.LINK_IRQ_STATUS, 5, 1⟩
def F.LINK_IRQ_MASK_state : FieldRef := ⟨R.LINK_IRQ_MASK, 0, 1⟩
def F.LINK_IRQ_MASK_lane : FieldRef := ⟨R.LINK_IRQ_MASK, 1, 1⟩
def F.LINK_IRQ_MASK_wiring : FieldRef := ⟨R.LINK_IRQ_MASK, 2, 1⟩
def F.LINK_IRQ_MASK_replay : FieldRef := ⟨R.LINK_IRQ_MASK, 3, 1⟩
def F.LINK_IRQ_MASK_discard : FieldRef := ⟨R.LINK_IRQ_MASK, 4, 1⟩
def F.LINK_IRQ_MASK_peer_squash : FieldRef := ⟨R.LINK_IRQ_MASK, 5, 1⟩
def F.LINK_BOARD_ID_id : FieldRef := ⟨R.LINK_BOARD_ID, 0, 64⟩
def F.LINK_TIME_CTL_interval : FieldRef := ⟨R.LINK_TIME_CTL, 0, 16⟩
def F.LINK_TIME_CTL_enable : FieldRef := ⟨R.LINK_TIME_CTL, 16, 1⟩
def F.LINK_PORT_CTL_enable (i : Nat) : FieldRef := ⟨(R.LINK_PORT_CTL i), 0, 1⟩
def F.LINK_PORT_CTL_auto_retrain (i : Nat) : FieldRef := ⟨(R.LINK_PORT_CTL i), 1, 1⟩
def F.LINK_PORT_CTL_retrain (i : Nat) : FieldRef := ⟨(R.LINK_PORT_CTL i), 2, 1⟩
def F.LINK_PORT_CTL_fault_thr (i : Nat) : FieldRef := ⟨(R.LINK_PORT_CTL i), 8, 8⟩
def F.LINK_PORT_STATE_state (i : Nat) : FieldRef := ⟨(R.LINK_PORT_STATE i), 0, 2⟩
def F.LINK_PORT_STATE_peer_device (i : Nat) : FieldRef := ⟨(R.LINK_PORT_STATE i), 2, 3⟩
def F.LINK_PORT_STATE_peer_port (i : Nat) : FieldRef := ⟨(R.LINK_PORT_STATE i), 5, 2⟩
def F.LINK_PORT_STATE_lane_ok (i : Nat) : FieldRef := ⟨(R.LINK_PORT_STATE i), 16, 8⟩
def F.LINK_PORT_PEER_PLAN_plan_id (i : Nat) : FieldRef := ⟨(R.LINK_PORT_PEER_PLAN i), 0, 64⟩
def F.LINK_PORT_TIME_OFFSET_theta (i : Nat) : FieldRef := ⟨(R.LINK_PORT_TIME_OFFSET i), 0, 64⟩
def F.LINK_PORT_FEC_CORR_count (i : Nat) : FieldRef := ⟨(R.LINK_PORT_FEC_CORR i), 0, 32⟩
def F.LINK_PORT_REPLAY_count (i : Nat) : FieldRef := ⟨(R.LINK_PORT_REPLAY i), 0, 32⟩
def F.LINK_PORT_DISCARD_count (i : Nat) : FieldRef := ⟨(R.LINK_PORT_DISCARD i), 0, 32⟩
def F.LINK_PORT_RETRAIN_count (i : Nat) : FieldRef := ⟨(R.LINK_PORT_RETRAIN i), 0, 32⟩
def F.LINK_PORT_XFER_ERR_count (i : Nat) : FieldRef := ⟨(R.LINK_PORT_XFER_ERR i), 0, 32⟩
def F.HITCH_STATUS_k_active : FieldRef := ⟨R.HITCH_STATUS, 0, 1⟩
def F.HITCH_STATUS_swap_pending : FieldRef := ⟨R.HITCH_STATUS, 1, 1⟩
def F.HITCH_STATUS_bank : FieldRef := ⟨R.HITCH_STATUS, 2, 1⟩
def F.HITCH_STATUS_valid : FieldRef := ⟨R.HITCH_STATUS, 3, 1⟩
def F.HITCH_IRQ_STATUS_drop : FieldRef := ⟨R.HITCH_IRQ_STATUS, 0, 1⟩
def F.HITCH_IRQ_STATUS_late : FieldRef := ⟨R.HITCH_IRQ_STATUS, 1, 1⟩
def F.HITCH_IRQ_STATUS_fault : FieldRef := ⟨R.HITCH_IRQ_STATUS, 2, 1⟩
def F.HITCH_IRQ_MASK_drop : FieldRef := ⟨R.HITCH_IRQ_MASK, 0, 1⟩
def F.HITCH_IRQ_MASK_late : FieldRef := ⟨R.HITCH_IRQ_MASK, 1, 1⟩
def F.HITCH_IRQ_MASK_fault : FieldRef := ⟨R.HITCH_IRQ_MASK, 2, 1⟩
def F.HITCH_CFG_schedule : FieldRef := ⟨R.HITCH_CFG, 0, 3⟩
def F.HITCH_CFG_out_en : FieldRef := ⟨R.HITCH_CFG, 3, 1⟩
def F.HITCH_CFG_in_en : FieldRef := ⟨R.HITCH_CFG, 4, 1⟩
def F.HITCH_CFG_out_words : FieldRef := ⟨R.HITCH_CFG, 5, 11⟩
def F.HITCH_CFG_in_words : FieldRef := ⟨R.HITCH_CFG, 16, 11⟩
def F.HITCH_PUB_ADDR_address : FieldRef := ⟨R.HITCH_PUB_ADDR, 6, 42⟩
def F.HITCH_IN_ADDR_address : FieldRef := ⟨R.HITCH_IN_ADDR, 6, 42⟩
def F.HITCH_DEADLINE_ns : FieldRef := ⟨R.HITCH_DEADLINE, 0, 32⟩
def F.HITCH_CAPTURE_ns : FieldRef := ⟨R.HITCH_CAPTURE, 0, 32⟩
def F.HITCH_MARK_value : FieldRef := ⟨R.HITCH_MARK, 0, 32⟩
def F.HITCH_AGE_value : FieldRef := ⟨R.HITCH_AGE, 0, 32⟩
def F.HITCH_PUBLISHED_count : FieldRef := ⟨R.HITCH_PUBLISHED, 0, 32⟩
def F.HITCH_PUB_DROP_count : FieldRef := ⟨R.HITCH_PUB_DROP, 0, 32⟩
def F.HITCH_IN_DROP_count : FieldRef := ⟨R.HITCH_IN_DROP, 0, 32⟩
def F.HITCH_READS_count : FieldRef := ⟨R.HITCH_READS, 0, 32⟩
def F.HOST_STATUS_link_up : FieldRef := ⟨R.HOST_STATUS, 0, 1⟩
def F.HOST_STATUS_speed : FieldRef := ⟨R.HOST_STATUS, 1, 3⟩
def F.HOST_STATUS_width : FieldRef := ⟨R.HOST_STATUS, 4, 5⟩
def F.HOST_STATUS_usb_up : FieldRef := ⟨R.HOST_STATUS, 9, 1⟩
def F.HOST_STATUS_usb_speed : FieldRef := ⟨R.HOST_STATUS, 10, 2⟩
def F.HOST_IRQ_STATUS_queue : FieldRef := ⟨R.HOST_IRQ_STATUS, 0, 1⟩
def F.HOST_IRQ_STATUS_inject : FieldRef := ⟨R.HOST_IRQ_STATUS, 1, 1⟩
def F.HOST_IRQ_STATUS_doorbell : FieldRef := ⟨R.HOST_IRQ_STATUS, 2, 1⟩
def F.HOST_IRQ_STATUS_link : FieldRef := ⟨R.HOST_IRQ_STATUS, 3, 1⟩
def F.HOST_IRQ_STATUS_bar : FieldRef := ⟨R.HOST_IRQ_STATUS, 4, 1⟩
def F.HOST_IRQ_MASK_queue : FieldRef := ⟨R.HOST_IRQ_MASK, 0, 1⟩
def F.HOST_IRQ_MASK_inject : FieldRef := ⟨R.HOST_IRQ_MASK, 1, 1⟩
def F.HOST_IRQ_MASK_doorbell : FieldRef := ⟨R.HOST_IRQ_MASK, 2, 1⟩
def F.HOST_IRQ_MASK_link : FieldRef := ⟨R.HOST_IRQ_MASK, 3, 1⟩
def F.HOST_IRQ_MASK_bar : FieldRef := ⟨R.HOST_IRQ_MASK, 4, 1⟩
def F.HOST_BAR2_VA_base : FieldRef := ⟨R.HOST_BAR2_VA, 26, 22⟩
def F.HOST_BAR4_VA_base : FieldRef := ⟨R.HOST_BAR4_VA, 36, 12⟩
def F.HOST_DB_DISCARD_count : FieldRef := ⟨R.HOST_DB_DISCARD, 0, 32⟩
def F.HOST_BAR_TIMEOUT_count : FieldRef := ⟨R.HOST_BAR_TIMEOUT, 0, 32⟩
def F.HOST_Q_BASE_address (i : Nat) : FieldRef := ⟨(R.HOST_Q_BASE i), 6, 58⟩
def F.HOST_INJ_BASE_address (i : Nat) : FieldRef := ⟨(R.HOST_INJ_BASE i), 6, 58⟩
def F.HOST_Q_CTL_enable (i : Nat) : FieldRef := ⟨(R.HOST_Q_CTL i), 0, 1⟩
def F.HOST_Q_CTL_halted (i : Nat) : FieldRef := ⟨(R.HOST_Q_CTL i), 1, 1⟩
def F.HOST_Q_CTL_log2_entries (i : Nat) : FieldRef := ⟨(R.HOST_Q_CTL i), 2, 5⟩
def F.HOST_Q_CTL_vector (i : Nat) : FieldRef := ⟨(R.HOST_Q_CTL i), 8, 8⟩
def F.HOST_INJ_CTL_enable (i : Nat) : FieldRef := ⟨(R.HOST_INJ_CTL i), 0, 1⟩
def F.HOST_INJ_CTL_halted (i : Nat) : FieldRef := ⟨(R.HOST_INJ_CTL i), 1, 1⟩
def F.HOST_INJ_CTL_log2_entries (i : Nat) : FieldRef := ⟨(R.HOST_INJ_CTL i), 2, 5⟩
def F.HOST_INJ_CTL_vector (i : Nat) : FieldRef := ⟨(R.HOST_INJ_CTL i), 8, 8⟩
def F.HOST_Q_TAIL_index (i : Nat) : FieldRef := ⟨(R.HOST_Q_TAIL i), 0, 16⟩
def F.HOST_Q_HEAD_index (i : Nat) : FieldRef := ⟨(R.HOST_Q_HEAD i), 0, 16⟩
def F.HOST_INJ_HEAD_index (i : Nat) : FieldRef := ⟨(R.HOST_INJ_HEAD i), 0, 16⟩
def F.HOST_Q_ERR_reason (i : Nat) : FieldRef := ⟨(R.HOST_Q_ERR i), 0, 8⟩
def F.HOST_INJ_STALL_ns (i : Nat) : FieldRef := ⟨(R.HOST_INJ_STALL i), 0, 32⟩
def F.STEW_STATUS_mode : FieldRef := ⟨R.STEW_STATUS, 0, 2⟩
def F.STEW_STATUS_identity_ok : FieldRef := ⟨R.STEW_STATUS, 2, 1⟩
def F.STEW_STATUS_cfg_copy : FieldRef := ⟨R.STEW_STATUS, 3, 1⟩
def F.STEW_STATUS_slot : FieldRef := ⟨R.STEW_STATUS, 4, 1⟩
def F.STEW_STATUS_trial : FieldRef := ⟨R.STEW_STATUS, 5, 1⟩
def F.STEW_IRQ_STATUS_boot : FieldRef := ⟨R.STEW_IRQ_STATUS, 0, 1⟩
def F.STEW_IRQ_STATUS_busy : FieldRef := ⟨R.STEW_IRQ_STATUS, 1, 1⟩
def F.STEW_IRQ_STATUS_drop : FieldRef := ⟨R.STEW_IRQ_STATUS, 2, 1⟩
def F.STEW_IRQ_STATUS_trap : FieldRef := ⟨R.STEW_IRQ_STATUS, 3, 1⟩
def F.STEW_IRQ_MASK_boot : FieldRef := ⟨R.STEW_IRQ_MASK, 0, 1⟩
def F.STEW_IRQ_MASK_busy : FieldRef := ⟨R.STEW_IRQ_MASK, 1, 1⟩
def F.STEW_IRQ_MASK_drop : FieldRef := ⟨R.STEW_IRQ_MASK, 2, 1⟩
def F.STEW_IRQ_MASK_trap : FieldRef := ⟨R.STEW_IRQ_MASK, 3, 1⟩
def F.STEW_FW_VERSION_version : FieldRef := ⟨R.STEW_FW_VERSION, 0, 32⟩
def F.STEW_CFG_VERSION_version : FieldRef := ⟨R.STEW_CFG_VERSION, 0, 32⟩
def F.STEW_TRAP_cause : FieldRef := ⟨R.STEW_TRAP, 0, 4⟩
def F.STEW_TRAP_done : FieldRef := ⟨R.STEW_TRAP, 4, 1⟩
def F.STEW_MBOX_CMD_word (i : Nat) : FieldRef := ⟨(R.STEW_MBOX_CMD i), 0, 32⟩
def F.STEW_MBOX_SUBMIT_go : FieldRef := ⟨R.STEW_MBOX_SUBMIT, 0, 1⟩
def F.STEW_MBOX_CTL_vector : FieldRef := ⟨R.STEW_MBOX_CTL, 0, 8⟩
def F.STEW_MBOX_CTL_rsp_count : FieldRef := ⟨R.STEW_MBOX_CTL, 8, 7⟩
def F.STEW_MBOX_CTL_last_busy : FieldRef := ⟨R.STEW_MBOX_CTL, 15, 1⟩
def F.STEW_MBOX_CTL_pending : FieldRef := ⟨R.STEW_MBOX_CTL, 16, 7⟩
def F.STEW_MBOX_RSP_word (i : Nat) : FieldRef := ⟨(R.STEW_MBOX_RSP i), 0, 32⟩
def F.STEW_MBOX_POP_value : FieldRef := ⟨R.STEW_MBOX_POP, 0, 32⟩
def F.STEW_MBOX_BUSY_value : FieldRef := ⟨R.STEW_MBOX_BUSY, 0, 32⟩
def F.STEW_TEL_BASE_base : FieldRef := ⟨R.STEW_TEL_BASE, 6, 42⟩
def F.STEW_TEL_CTL_enable : FieldRef := ⟨R.STEW_TEL_CTL, 0, 1⟩
def F.STEW_TEL_CTL_log2_records : FieldRef := ⟨R.STEW_TEL_CTL, 1, 5⟩
def F.STEW_TEL_MASK_mask : FieldRef := ⟨R.STEW_TEL_MASK, 0, 32⟩
def F.STEW_TEL_WR_count : FieldRef := ⟨R.STEW_TEL_WR, 0, 32⟩
def F.STEW_TEL_RD_count : FieldRef := ⟨R.STEW_TEL_RD, 0, 32⟩
def F.STEW_TEL_DROP_count : FieldRef := ⟨R.STEW_TEL_DROP, 0, 32⟩
def F.STEW_TEL_SKIP_count : FieldRef := ⟨R.STEW_TEL_SKIP, 0, 32⟩
def F.STEW_FRAME_LATE_count : FieldRef := ⟨R.STEW_FRAME_LATE, 0, 32⟩
def F.STEW_LOG_MASK_mask : FieldRef := ⟨R.STEW_LOG_MASK, 0, 17⟩
def F.STEW_LOG_SEQ_value : FieldRef := ⟨R.STEW_LOG_SEQ, 0, 64⟩
def F.STEW_LOG_DROP_value : FieldRef := ⟨R.STEW_LOG_DROP, 0, 32⟩
def F.STEW_IDKEY_SEL_index : FieldRef := ⟨R.STEW_IDKEY_SEL, 0, 5⟩
def F.STEW_IDKEY_DATA_word : FieldRef := ⟨R.STEW_IDKEY_DATA, 0, 32⟩
def F.REEVE_STATUS_active : FieldRef := ⟨R.REEVE_STATUS, 0, 1⟩
def F.REEVE_STATUS_dump_busy : FieldRef := ⟨R.REEVE_STATUS, 1, 1⟩
def F.REEVE_IRQ_STATUS_hang : FieldRef := ⟨R.REEVE_IRQ_STATUS, 0, 1⟩
def F.REEVE_IRQ_STATUS_recovery : FieldRef := ⟨R.REEVE_IRQ_STATUS, 1, 1⟩
def F.REEVE_IRQ_STATUS_dump : FieldRef := ⟨R.REEVE_IRQ_STATUS, 2, 1⟩
def F.REEVE_IRQ_STATUS_parked : FieldRef := ⟨R.REEVE_IRQ_STATUS, 3, 1⟩
def F.REEVE_IRQ_MASK_hang : FieldRef := ⟨R.REEVE_IRQ_MASK, 0, 1⟩
def F.REEVE_IRQ_MASK_recovery : FieldRef := ⟨R.REEVE_IRQ_MASK, 1, 1⟩
def F.REEVE_IRQ_MASK_dump : FieldRef := ⟨R.REEVE_IRQ_MASK, 2, 1⟩
def F.REEVE_IRQ_MASK_parked : FieldRef := ⟨R.REEVE_IRQ_MASK, 3, 1⟩
def F.REEVE_CTL_field_scope : FieldRef := ⟨R.REEVE_CTL, 0, 4⟩
def F.REEVE_CTL_auto : FieldRef := ⟨R.REEVE_CTL, 4, 1⟩
def F.REEVE_UNIT_BUSY_plough : FieldRef := ⟨R.REEVE_UNIT_BUSY, 0, 16⟩
def F.REEVE_UNIT_BUSY_engine : FieldRef := ⟨R.REEVE_UNIT_BUSY, 16, 4⟩
def F.REEVE_UNIT_PARKED_plough : FieldRef := ⟨R.REEVE_UNIT_PARKED, 0, 16⟩
def F.REEVE_UNIT_PARKED_engine : FieldRef := ⟨R.REEVE_UNIT_PARKED, 16, 4⟩
def F.REEVE_HUNG_plough : FieldRef := ⟨R.REEVE_HUNG, 0, 16⟩
def F.REEVE_HUNG_engine : FieldRef := ⟨R.REEVE_HUNG, 16, 4⟩
def F.REEVE_CMD_unit : FieldRef := ⟨R.REEVE_CMD, 0, 5⟩
def F.REEVE_CMD_unpark : FieldRef := ⟨R.REEVE_CMD, 8, 1⟩
def F.REEVE_CMD_go : FieldRef := ⟨R.REEVE_CMD, 31, 1⟩
def F.REEVE_ENG_LIMIT_us (i : Nat) : FieldRef := ⟨(R.REEVE_ENG_LIMIT i), 0, 32⟩
def F.REEVE_MISS_COUNT_count : FieldRef := ⟨R.REEVE_MISS_COUNT, 0, 32⟩
def F.REEVE_RECOVERIES_count : FieldRef := ⟨R.REEVE_RECOVERIES, 0, 32⟩
def F.REEVE_DUMP_TIMEOUTS_count : FieldRef := ⟨R.REEVE_DUMP_TIMEOUTS, 0, 32⟩
def F.REEVE_WAIVED_count : FieldRef := ⟨R.REEVE_WAIVED, 0, 32⟩
def F.REEVE_DISCARDED_count : FieldRef := ⟨R.REEVE_DISCARDED, 0, 32⟩
def F.REEVE_LAST_MISS_number : FieldRef := ⟨R.REEVE_LAST_MISS, 0, 16⟩
def F.REEVE_LAST_MISS_plough : FieldRef := ⟨R.REEVE_LAST_MISS, 16, 4⟩
def F.REEVE_LAST_MISS_kind : FieldRef := ⟨R.REEVE_LAST_MISS, 20, 2⟩
def F.REEVE_LAST_MISS_ccount : FieldRef := ⟨R.REEVE_LAST_MISS, 32, 32⟩
def F.REEVE_DUMP_STATUS_valid : FieldRef := ⟨R.REEVE_DUMP_STATUS, 0, 1⟩
def F.REEVE_DUMP_STATUS_busy : FieldRef := ⟨R.REEVE_DUMP_STATUS, 1, 1⟩
def F.REEVE_DUMP_STATUS_seq : FieldRef := ⟨R.REEVE_DUMP_STATUS, 8, 24⟩
def F.REEVE_DUMP_PAGE_page : FieldRef := ⟨R.REEVE_DUMP_PAGE, 0, 4⟩
def F.REEVE_DUMP_WIN_word (i : Nat) : FieldRef := ⟨(R.REEVE_DUMP_WIN i), 0, 32⟩
def F.PWR_STATUS_state : FieldRef := ⟨R.PWR_STATUS, 0, 2⟩
def F.PWR_STATUS_input_ok : FieldRef := ⟨R.PWR_STATUS, 2, 1⟩
def F.PWR_STATUS_capped : FieldRef := ⟨R.PWR_STATUS, 3, 1⟩
def F.PWR_STATUS_thermal_warn : FieldRef := ⟨R.PWR_STATUS, 4, 1⟩
def F.PWR_STATUS_changing : FieldRef := ⟨R.PWR_STATUS, 5, 1⟩
def F.PWR_IRQ_STATUS_cap : FieldRef := ⟨R.PWR_IRQ_STATUS, 0, 1⟩
def F.PWR_IRQ_STATUS_thermal : FieldRef := ⟨R.PWR_IRQ_STATUS, 1, 1⟩
def F.PWR_IRQ_STATUS_input : FieldRef := ⟨R.PWR_IRQ_STATUS, 2, 1⟩
def F.PWR_IRQ_STATUS_domain : FieldRef := ⟨R.PWR_IRQ_STATUS, 3, 1⟩
def F.PWR_IRQ_MASK_cap : FieldRef := ⟨R.PWR_IRQ_MASK, 0, 1⟩
def F.PWR_IRQ_MASK_thermal : FieldRef := ⟨R.PWR_IRQ_MASK, 1, 1⟩
def F.PWR_IRQ_MASK_input : FieldRef := ⟨R.PWR_IRQ_MASK, 2, 1⟩
def F.PWR_IRQ_MASK_domain : FieldRef := ⟨R.PWR_IRQ_MASK, 3, 1⟩
def F.PWR_CTL_gate_unused : FieldRef := ⟨R.PWR_CTL, 0, 1⟩
def F.PWR_CTL_over_action : FieldRef := ⟨R.PWR_CTL, 1, 1⟩
def F.PWR_CTL_standby : FieldRef := ⟨R.PWR_CTL, 2, 1⟩
def F.PWR_CAP_mw : FieldRef := ⟨R.PWR_CAP, 0, 32⟩
def F.PWR_INPUT_V_value : FieldRef := ⟨R.PWR_INPUT_V, 0, 32⟩
def F.PWR_INPUT_I_value : FieldRef := ⟨R.PWR_INPUT_I, 0, 32⟩
def F.PWR_INPUT_P_value : FieldRef := ⟨R.PWR_INPUT_P, 0, 32⟩
def F.PWR_AVG10_value : FieldRef := ⟨R.PWR_AVG10, 0, 32⟩
def F.PWR_PEAK_value : FieldRef := ⟨R.PWR_PEAK, 0, 32⟩
def F.PWR_OVER_COUNT_value : FieldRef := ⟨R.PWR_OVER_COUNT, 0, 32⟩
def F.PWR_DOMAIN_ON_on : FieldRef := ⟨R.PWR_DOMAIN_ON, 0, 36⟩
def F.PWR_DOMAIN_REQ_req : FieldRef := ⟨R.PWR_DOMAIN_REQ, 0, 33⟩
def F.PWR_DOMAIN_FAULT_fault : FieldRef := ⟨R.PWR_DOMAIN_FAULT, 0, 36⟩
def F.PWR_THERM_warn : FieldRef := ⟨R.PWR_THERM, 0, 8⟩
def F.PWR_RESET_CAUSE_cause : FieldRef := ⟨R.PWR_RESET_CAUSE, 0, 4⟩
def F.PWR_WAKE_sec : FieldRef := ⟨R.PWR_WAKE, 0, 48⟩

/-- The register rows of the block that the address lies in (R21). -/
def blockRows (a : Nat) : List RegRow :=
  match a / 0x100000 with
  | 0x0 => regsTOP
  | 0x1 => regsGATE
  | 0x2 => regsTROUGH
  | 0x3 => regsBELL
  | 0x4 => if a < 0x480000 then regsYOKE else regsYOKE_PROJ
  | 0x5 => regsSIEVE
  | 0x6 => regsMILL
  | 0x7 => regsGRAN
  | 0x8 => regsHEDGE
  | 0x9 => regsMEM
  | 0xA => regsLINK
  | 0xB => if a < 0xB80000 then regsHITCH else regsHOST
  | 0xC => regsSTEW
  | 0xD => regsREEVE
  | 0xE => regsPWR
  | b => if 0x10 ≤ b ∧ b < 0x20 then regsPLOUGH else []

/-- Whether an array of registers with these dimensions has an element at offset `o`. -/
def dimsHit : List (Nat × Nat) → Nat → Bool
  | [], o => o == 0
  | (c, st) :: ds, o => decide (o / st < c) && dimsHit ds (o % st)

/-- The row whose register starts at address `a` (R9); `none` where no register lies (R14). -/
def regRowAt (a : Nat) : Option RegRow :=
  (blockRows a).find? fun r => decide (r.base ≤ a) && dimsHit r.dims (a - r.base)

/-- The reset value of a list of fields. -/
def fieldsReset : List RegField → Nat
  | [] => 0
  | f :: fs => (f.reset <<< f.lsb) + fieldsReset fs

/-- The reset value of the register at `a`; an address without a register reads zero (R14). -/
def regReset (a : Nat) : Word :=
  match regRowAt a with
  | some r => BitVec.ofNat 64 (fieldsReset r.fields)
  | none => 0

/-- Whether the register at `a` holds an RWL field (R523). -/
def hasRwl (r : RegRow) : Bool := r.fields.any fun f => f.acc == .rwl

end Sys2Proof.Machine
end

