-- ==== Sys2Proof/Machine/Types.lean ====
section
/-! DEFINITION. The state of every unit of the device, as plain data (spec/01_architecture.md R17 and the chapters named at
each structure). Registers that software addresses live in the register file (RegMap); what stands here is the rest. -/

namespace Sys2Proof.Machine

/-- The tag of provisional work: schedule and mark (R27, R58, R59). -/
structure PTag where
  sched : Nat
  mark : Nat
deriving DecidableEq, Repr

/-! ### Events (R22–R30, R525) -/

/-- An event record (R22); `detail` is bytes 16–31 as a little-endian number. `key` is the rate-limit key beside the code
(the instance, unless the chapter names another), `limited` whether the code is limited (R525), and `info` and `slot`
serve the fault registers of a plough when the record is a plough's fault (R92); `arrive` is the F clock in which the record
reaches the collector (R25). -/
structure Event where
  stamp : Nat
  inst : Nat
  code : Nat
  ctx : Nat
  gen : Nat
  detail : Nat
  limited : Bool
  key : Nat
  plough : Option Nat
  info : Nat
  arrive : Nat
deriving DecidableEq, Repr

/-- Counts a unit holds until the mark commits (R27): the register field they belong to. -/
structure HeldCount where
  tag : PTag
  addr : Nat
  amount : Nat
deriving DecidableEq, Repr

/-- What the hardware and software did to a register in the present clock of its own domain (R11): `before` its value before that
clock and `gain` what the clock has counted or set, for an RC register; `set` the bits that the hardware has set, `wrote` the W1S bits
that software has written. `clk` is that clock. -/
structure Touch where
  addr : Nat
  clk : Nat
  before : Nat
  gain : Nat := 0
  set : Nat := 0
  wrote : Nat := 0
deriving DecidableEq, Repr

/-- The event collector. `lastWrite` is the F clock of the last record written (R25), `waiting` a record taken out to be written that has
found the ring without room and may still be met by a write of TOP_EVT_RING_RD in its F clock (R29), `silent` the F clock of
the last record written to the ring without the vector (R30). -/
structure EvtState where
  arriving : List Event := []
  fifo : List Event := []
  lastWrite : Option Nat := none
  waiting : Option Event := none
  silent : Option Nat := none
  held : List (PTag × Event) := []
  counts : List HeldCount := []
  lossCount : Nat := 0
  firstLost : Nat := 0
  passed : List (Nat × Nat × Nat) := []
  summaryPrev : Nat := 0
  ringUndefined : Bool := false
deriving DecidableEq, Repr

/-! ### Contexts (R358–R374) -/

/-- The states of R360. -/
inductive CtxLife where
  | retired | swapped | resident | retiring
deriving DecidableEq, Repr

/-- One context ID. `evWr`, `evRd` are the device's copies of its event queue's counters (R373); `vtCur` and `vtPend`
its virtual times (R223), `vtPrev` the pending one before the F clock `vtSetF` of its last change, `vtReg` the values that register writes
have requested in an F clock, with the pending one before them (R224). `entryOn` lists the ploughs
on which its next slice starts at the mark entry (R56, R363), `recoverOn` those on which it starts at the recovery entry
(R471); `outcast` keeps the slices of a suspect idle until its release; `retStep` is the step of a retirement, `haltAt` the F clock
of the fault that halted the context last (R372). -/
structure Ctx where
  life : CtxLife := .retired
  suspended : Bool := false
  halted : Bool := false
  entryOn : List Nat := []
  recoverOn : List Nat := []
  outcast : Bool := false
  retStep : Nat := 0
  rslot : Nat := 0
  gen : Nat := 1
  quota : List Nat := [0, 0, 0, 0, 0, 0]
  usage : List Nat := [0, 0, 0, 0, 0, 0]
  newSliceQuota : Option Nat := none
  quotaOld : Option (Nat × List Nat) := none
  sliceCut : Nat := 0
  evOn : Bool := false
  evWr : Nat := 0
  evRd : Nat := 0
  evLost : Nat := 0
  evFirstLost : Nat := 0
  vtCur : Nat := 0
  vtPend : Nat := 0
  vtPrev : Nat := 0
  vtSetF : Nat := 0
  vtReg : Option (Nat × Nat × List Nat) := none
  haltAt : Option Nat := none
deriving DecidableEq, Repr

/-- Where a context command came from: the TOP_CTX_CMD register or the mailbox command with this sequence (R362). -/
inductive CmdFrom where
  | reg
  | mbox
deriving DecidableEq, Repr

/-- The running context command (R362); `begun` says that it is the RETIRE under which its context retires (R372). -/
structure CtxCmd where
  cmd : Nat
  id : Nat
  rslot : Nat
  src : CmdFrom
  begun : Bool := false
deriving DecidableEq, Repr

/-- An accepted residency exchange (R368): the incoming context, the slot, the outgoing context if there is one, the period it takes
effect in, the ploughs swapped, and whether every plough has been. -/
structure Exchange where
  id : Nat
  rslot : Nat
  out : Option Nat
  period : Nat
  swapped : List Nat
  done : Bool
deriving DecidableEq, Repr

/-! ### Plan (R46–R53) -/

/-- The plan states. -/
inductive PlanPhase where
  | empty | loaded | locked
deriving DecidableEq, Repr

/-- One section of the loaded image (R48), with its bytes. -/
structure PlanSection where
  stype : Nat
  inst : Nat
  flags : Nat
  load : Nat
  bytes : List Byte
deriving DecidableEq, Repr

/-- The loaded plan: its phase, its management address or that it came from flash, the 512-byte header and the sections; the
pending start (`t0`, `preloaded` once the start is prepared) and stop (`ended` once its last period is over); and the run: the period
index (MOVS index 1), the number of the next boundary, the C and M clocks of the last one. -/
structure PlanState where
  phase : PlanPhase := .empty
  base : Nat := 0
  fromFlash : Bool := false
  ended : Bool := false
  header : List Byte := []
  sections : List PlanSection := []
  t0 : Option Nat := none
  preloaded : Bool := false
  stopping : Bool := false
  period : Nat := 0
  nextBoundary : Nat := 0
  cBase : Nat := 0
  mBase : Nat := 0
  lockedAt : Nat := 0
deriving DecidableEq, Repr

/-! ### Ploughs (R34–R96, R116–R140) -/

/-- The state of a provisional region (R58): 0 EMPTY, 1 OPEN, 2 SEALED. -/
structure PRegion where
  state : Nat := 0
  sched : Nat := 0
  mark : Nat := 0
deriving DecidableEq, Repr

/-- The sum of one accumulate step for one element (R110–R112), before it is added to the accumulator. -/
inductive StepSum where
  | int (v : Int)
  | flt (v : Fp.FVal)
deriving DecidableEq, Repr

/-- What a weight buffer holds (R119–R121): whether it is loaded, its tile as element codes in row order (row k, column c at
index 128 k + c), the scale bytes, whether the MLDW issued in provisional mode, and the address of an uncorrectable word. -/
structure WBuf where
  loaded : Bool := false
  fmt : Nat := 0
  mx : Bool := false
  elems : List Nat := []
  scales : List Nat := []
  prov : Bool := false
  poison : Option Nat := none
deriving DecidableEq, Repr

/-- Where a result of fixed latency lands (R65, R66). -/
inductive Dest where
  | scalar (n : Nat) (v : BitVec 64)
  | pred (n : Nat) (b : Bool)
  | vec (n : Nat) (v : BitVec 8192)
  | desc (n : Nat) (v : BitVec 512)
  | accStep (bank row : Nat) (zero : Bool) (sums : List StepSum)
  | accClear (bank row : Nat)
  | memRow (key : Nat) (bytes : List Byte) (vis : Nat) (pte : BitVec 64)
  | wbuf (w : Nat) (b : WBuf)
  | counts (sat nan : Nat) (tag : Option PTag)
deriving DecidableEq, Repr

/-- A pending result: the C clock at which it lands, the clock and slot it issued in. -/
structure Pend where
  land : Nat
  issue : Nat
  slot : Nat
  dst : Dest
deriving DecidableEq, Repr

/-- A DMA transfer (R85): copies of the source and destination descriptors and of their index descriptors, the issuing
context, its provisional tag, and the indices read at issue for STRICT use (R150). -/
structure Dma where
  src : BitVec 512
  dst : BitVec 512
  srcIdx : BitVec 512
  dstIdx : BitVec 512
  srcVals : Option (List Int)
  dstVals : Option (List Int)
  ctx : Nat
  gen : Nat
  tag : Option PTag
  issue : Nat
  held : Bool
deriving DecidableEq, Repr

/-- One DMA queue; `halt` holds the fault code and detail that the next use of the queue takes (R156, R383). -/
structure DmaQueue where
  xfers : List Dma := []
  halt : Option (Nat × Nat × Nat) := none
deriving DecidableEq, Repr

/-- A held effect of a bundle (R91), waiting for its retirement. -/
inductive Effect where
  | store (key : Nat) (bytes : List Byte) (pte : BitVec 64)
  | dma (q : Nat)
  | issue (job : Nat)
  | send (port : Nat) (xfer : Nat)
  | recv (port : Nat) (xfer : Nat)
deriving DecidableEq, Repr

/-- A held effect with its issue clock and slot. -/
structure HeldEff where
  issue : Nat
  slot : Nat
  eff : Effect
deriving DecidableEq, Repr

/-- One region register (R79): a mapped range of the context, or a range that failed the check of R157 with its reason. -/
structure Region where
  va : Nat
  len : Nat
  key : Nat
  pte : BitVec 64
  bad : Option Nat
deriving DecidableEq, Repr

/-- An occupancy of a shared resource over C clocks [lo, hi) (R83, R131); resource 0 is the Barn port, 1 to 8 are those of
R131, `sub` the bank or buffer. -/
structure Occ where
  res : Nat
  sub : Nat
  lo : Nat
  hi : Nat
  issue : Nat
deriving DecidableEq, Repr

/-- What a plough waits for (R75, R85, R87, R89). -/
inductive Wait where
  | clock (c : Nat)
  | dma (q lim : Nat)
  | engine (job pd eng winEnd : Nat)
  | link (port lim : Nat)
deriving DecidableEq, Repr

/-- One hardware loop level (R74). -/
structure LoopLvl where
  first : Nat
  last : Nat
  left : Nat
deriving DecidableEq, Repr

/-- The states of PLOUGH_STATUS. -/
inductive PlStatus where
  | idle | running | faulted | recovering
deriving DecidableEq, Repr

/-- What a CHKPT or a late WAITC of the last clock reports (R75, R76): the clock and CCOUNT of its issue, the bundle's address, the
checkpoint number, or none for a late wait. -/
structure Report where
  issue : Nat
  ccount : Nat
  pc : Nat
  num : Option Nat
deriving DecidableEq, Repr

/-- A running COMMIT or SQUASH (R77). -/
structure MarkOp where
  squash : Bool
  tag : PTag
  issue : Nat
  due : Nat
  known : Bool
deriving DecidableEq, Repr

/-- A fault of the bundle that issued in the present C clock (R91, R92): the lowest slot that has faulted so far, the plough's mode, branch and
started loop before it, and the record, which leaves at the end of the clock. -/
structure Trap where
  slot : Nat
  mode : Option PTag
  branch : Option (Nat × Nat)
  loopEnter : Option LoopLvl
  ev : Event
deriving DecidableEq, Repr

/-- One plough core. `opens` keeps, per unretired bundle that opened a provisional region, the clock, the region and its state
before, for a fault of that bundle (R91). Scalar, vector, accumulator and descriptor files are sparse over zero; p0 reads 1 and s0 reads 0 in
the accessors. Clocks are C clocks counted from reset. A slice (R366) runs the entry `sliceIdx` of the plough's slice table: the bundle
at `pc` issues at clock `pcAt` if that lies before `issueTo`; `nextEntry` is the first entry of the period not begun, `stopped` says that the
bundle stream of the slice has stopped (R466), `ran` lists the contexts whose slices the period has run (R470), `waived` the entries of the period that were idle or
whose stream has stopped (R466), `waits` what the bundle at `pc` waits for, `trap` the fault of the present C clock. Number 16 holds the Steward's
registers and its place in its code (R94). -/
structure Plough where
  status : PlStatus := .idle
  ctx : Nat := 0
  gen : Nat := 0
  s : SMap (BitVec 64) := []
  p : BitVec 16 := 0
  v : SMap (BitVec 8192) := []
  a : SMap (BitVec 32) := []
  d : SMap (BitVec 512) := []
  pc : Nat := 0
  branch : Option (Nat × Nat) := none
  loops : List LoopLvl := []
  loopEnter : Option LoopLvl := none
  ended : Bool := false
  waits : List Wait := []
  pmode : Option PTag := none
  faultAt : Option Nat := none
  markOps : List MarkOp := []
  pend : List Pend := []
  held : List HeldEff := []
  regions : List Region := []
  q0 : DmaQueue := {}
  q1 : DmaQueue := {}
  q2 : DmaQueue := {}
  q3 : DmaQueue := {}
  w0 : WBuf := {}
  w1 : WBuf := {}
  occ : List Occ := []
  opens : List (Nat × Nat × PRegion) := []
  reports : List Report := []
  sliceIdx : Option Nat := none
  nextEntry : Nat := 0
  pcAt : Nat := 0
  issueTo : Nat := 0
  stopped : Bool := false
  ran : List Nat := []
  waived : List Nat := []
  trap : Option Trap := none
deriving DecidableEq, Repr

/-! ### Engines: jobs and calendars (R43, R44, R87–R89) -/

/-- An issue to an engine, from its queue place to its end: `engine` 0 to 3, `lane` a queue of the engine, `winEnd` the C clock
at which the window of its issue ends; `dd` and `dd2` the descriptors copied at issue. `ran` says that the engine has done the
work, `result` is its end code, `hold` the quota it holds, `notes` the engine's own numbers (chapter by chapter). -/
structure Job where
  id : Nat
  engine : Nat
  lane : Nat
  kind : Nat
  plough : Nat
  ctx : Nat
  gen : Nat
  addr : Nat
  dd : BitVec 512
  dd2 : BitVec 512
  tag : Option PTag
  issue : Nat
  winEnd : Nat
  accepted : Bool
  acceptAt : Nat
  ran : Bool
  result : Nat
  hold : Nat
  overrun : Bool
  notes : List Nat
deriving DecidableEq, Repr

/-! ### Memory and the Hedge (R141–R163, R376–R398) -/

/-- The error pattern of one ECC word (R378, R396): data bits wrong, check bits wrong, or the poison pattern. -/
structure EccErr where
  data : Nat := 0
  check : Nat := 0
  poison : Bool := false
deriving DecidableEq, Repr

/-- A queued write-back of one word (R380, R381); `poison` rewrites the poison pattern. -/
structure WriteBack where
  word : Nat
  poison : Bool
deriving DecidableEq, Repr

/-- A stack request (R391): requester, word address, whether it writes, M clock of issue, and whether it waited past a
window. -/
structure StackReq where
  req : Nat
  word : Nat
  write : Bool
  mclk : Nat
  missed : Bool
  ctx : Nat
  gen : Nat
deriving DecidableEq, Repr

/-- A running fill (R394, R395) over [lo, lo + len) of the management space; `next` is, by bank, the first word still to fill. -/
structure Fill where
  lo : Nat
  len : Nat
  next : SMap Nat := []
deriving DecidableEq, Repr

/-- A group of fills whose completion FILL_DONE reports (R395). -/
structure FillJob where
  parts : List Fill
  ctx : Option Nat
  plan : Bool
  boot : Bool
deriving DecidableEq, Repr

/-- The memory controllers. By channel: the rotating pointer of open mode, the M clock of the last refresh, the end of a running
one, the end of the last window whose end was taken; by bank: the scrubbers' places and the start of the stack lap. `hot` holds
a bit per stack at 95 °C. `served` lists the words that a served stack request has read for a requester whose transfer is still
to end: their errors are counted already. By bank, `moved` is 1 more than its clock in which it last moved a word for a channel's requester or for
maintenance, `reserved` the same of the last maintenance cycle (R384). `wrote` holds the ranges written in the present M clock while a flip may be
armed: the M clock, the key, the bytes (R396). -/
structure MemState where
  wb : List WriteBack := []
  reqs : List StackReq := []
  arb : SMap Nat := []
  refreshAt : SMap Nat := []
  refreshing : SMap Nat := []
  winEnds : SMap Nat := []
  scrub : SMap Nat := []
  lapStart : SMap Nat := []
  sramScrub : SMap Nat := []
  fills : List FillJob := []
  hot : Nat := 0
  served : List (Nat × Nat) := []
  moved : SMap Nat := []
  reserved : SMap Nat := []
  wrote : List (Nat × Nat × Nat) := []
deriving DecidableEq, Repr

/-- A leaf of a context's page tables: base, bytes, page table entry (R153). -/
structure Leaf where
  va : Nat
  size : Nat
  pte : BitVec 64
deriving DecidableEq, Repr

/-- An entry of the translation cache (R158). -/
structure Tlb where
  set : Nat
  way : Nat
  ctx : Nat
  gen : Nat
  leaf : Leaf
deriving DecidableEq, Repr

/-- A missed translation waiting for a walker (R159). -/
structure WalkReq where
  req : Nat
  ctx : Nat
  gen : Nat
  va : Nat
deriving DecidableEq, Repr

/-- A walk that a walker makes (R159): the walker's number, the request, the F clock of its start. -/
structure Walk where
  walker : Nat
  req : Nat
  ctx : Nat
  gen : Nat
  va : Nat
  start : Nat
deriving DecidableEq, Repr

/-- A running invalidation (R160): scope, context, range, and the F clock of its start. -/
structure Inval where
  scope : Nat
  ctx : Nat
  va : Nat
  pages : Nat
  start : Nat
deriving DecidableEq, Repr

/-- The running or standing fence of a context ID (R161): `step` is 1 while requests drain, 3 when they have been answered, 4 when
the fence is complete, 0 while it waits for another to complete. -/
structure Fence where
  ctx : Nat
  gen : Nat
  step : Nat
  start : Nat
  forced : Nat
deriving DecidableEq, Repr

/-- The Hedge. `nodes` is the second cache (R158): context and generation, level, index; `tables` maps a context ID to its leaves; `walks` are
the walkers at work, `lastInval` the last invalidation and the F clock of its completion, `shown` the ID of the fence that HEDGE_FENCE_STATUS
shows; `noExt` and `prov` list the management ranges with ext = 0 and
with provisional attributes (R524). -/
structure HedgeState where
  tables : SMap (List Leaf) := []
  noExt : List (Nat × Nat) := []
  prov : List (Nat × Nat × Nat × Nat) := []
  tlb : List Tlb := []
  ways : SMap Nat := []
  nodes : List (Nat × Nat × Nat) := []
  waiting : List WalkReq := []
  walks : List Walk := []
  inval : Option Inval := none
  lastInval : Option (Inval × Nat) := none
  fences : List Fence := []
  shown : Nat := 0
  regions : SMap PRegion := []
deriving DecidableEq, Repr

/-- Who makes a memory access: the Hedge requester number (R159), the stack requester number (R388), the context. -/
structure Who where
  hreq : Nat
  sreq : Nat
  ctx : Nat := 0
  gen : Nat := 0
deriving DecidableEq, Repr

/-- A request to the Hedge (R155); `mgmt` is one in the management address space, `ext` an external access (R155 step 7),
`lslot` the plough of an L-slot access (step 8). -/
structure XReq where
  req : Nat
  ctx : Nat := 0
  gen : Nat := 0
  va : Nat
  write : Bool := false
  exec : Bool := false
  ext : Bool := false
  mgmt : Bool := false
  lslot : Option Nat := none
deriving DecidableEq, Repr

/-- The Hedge's answer: the management key of the byte and the page table entry, or the failing step's reason code. -/
inductive XRes where
  | ok (key : Nat) (left : Nat) (pte : BitVec 64)
  | fail (reason : Nat)
deriving DecidableEq, Repr

/-! ### Gatehouse and troughs (R164–R203) -/

/-- A sample header in the making (R168); `stamp` is in 1/256 ns. -/
structure Hdr where
  slot : Nat := 0
  kind : Nat := 0
  stamp : Nat := 0
  flags : Nat := 0
  seq : Nat := 0
  bytes : Nat := 0
  src : Nat := 0
  aux : Nat := 0
deriving DecidableEq, Repr

/-- An open CSI-2 frame (R170, R526): its port, virtual channel and data type, the slot that took it, the header, the bytes
received and not yet written, the total, the lines, the partial flag, whether its first word is written, and whether R181 discards it. -/
structure CsiFrame where
  port : Nat
  vc : Nat
  dt : Nat
  slot : Nat
  hdr : Hdr
  buf : List Byte
  total : Nat
  lines : Nat
  partialF : Bool
  started : Bool
  drop : Bool := false
deriving DecidableEq, Repr

/-- The capture of one edge (R208): device time of the captured T edge in 1/256 ns, its direction, and the holdover flag at that edge (R167). -/
structure Capture where
  time : Nat
  rise : Bool
  hold : Nat := 0
deriving DecidableEq, Repr

/-- A running IMU transfer (R172, R179): the stamp of its DRDY edge, the holdover flag then, and the slot that took the source at its start. -/
structure ImuXfer where
  stamp : Nat
  hold : Nat := 0
  slot : Option Nat := none
deriving DecidableEq, Repr

/-- A strobe pulse (R175): rise and fall stamps, and the ports it has served. -/
structure Pulse where
  rise : Nat
  fall : Nat
  served : List Nat
deriving DecidableEq, Repr

/-- One strobe input: the stamp of a rise without its fall, and the pulses seen. -/
structure Strobe where
  rise : Option Nat := none
  pulses : List Pulse := []
deriving DecidableEq, Repr

/-- An encoder channel (R177, R178). `seen` gives the stamps of the last edges accepted on A, B and Z (R515), `hold` the holdover flag of the
latest edge (R167). -/
structure Enc where
  aLevel : Bool := false
  bLevel : Bool := false
  stamp : Nat := 0
  count : Nat := 0
  interval : Nat := 0xFFFFFFFF
  edge : Nat := 7
  fresh : Bool := false
  any : Bool := false
  hold : Nat := 0
  seen : List (Option Nat) := [none, none, none]
  nextLatch : Option Nat := none
deriving DecidableEq, Repr

/-- A trigger output (R174): whether it is armed, its next pulse instant, and the end of the running pulse. -/
structure Trig where
  armed : Bool := false
  next : Option Nat := none
  level : Bool := false
  fallAt : Nat := 0
deriving DecidableEq, Repr

/-- An identity memory's record as last found (R184, R185): 0 ABSENT, 1 VERIFIED, 2 UNSIGNED, 3 FAILED. -/
structure IdRec where
  state : Nat := 0
  bytes : List Byte := []
deriving DecidableEq, Repr

/-- The Gatehouse. -/
structure GateState where
  seqs : SMap Nat := []
  lastStamp : SMap Nat := []
  csi : List CsiFrame := []
  strobes : SMap Strobe := []
  imu : SMap (Option ImuXfer) := []
  enc : SMap Enc := []
  trig : SMap Trig := []
  pendMap : SMap (Option (BitVec 32)) := []
  ids : SMap IdRec := []
  serials : SMap (List Byte) := []
  discovering : Nat := 0
  canLast : SMap Nat := []
  inj : SMap (List Byte) := []
deriving DecidableEq, Repr

/-- One trough word (R190–R192), with the error patterns of its two ECC words (R199, R378). -/
structure TWord where
  bytes : List Byte
  sop : Bool
  eop : Bool
  abort : Bool
  errLo : EccErr
  errHi : EccErr
deriving DecidableEq, Repr

/-- A word in the head chain (R190, R193, R199): as the read path gives it, with an abort word in the place of a lost one; whether it was
lost, whether it or the word it replaces ends its packet, the header stamp if it starts one, the F clock from which it may stand at
the head. -/
structure Stage where
  word : TWord
  lost : Bool
  last : Bool
  stamp : Nat
  ready : Nat
deriving DecidableEq, Repr

/-- A word that the write side still has to write (R526): when, in units of `Dev.clk`, its sample's stamp, whether it starts the sample. -/
structure ToWrite where
  due : Nat
  stamp : Nat
  first : Bool
  word : TWord
deriving DecidableEq, Repr

/-- One trough. `words` is the buffer from rd to wr, of which the read side has counted `counted`; `due` gives the F clock in which it
counts each of the others (R193). `chain` is the head chain, filled with the first words of the buffer; `head` says that its first word
stands at the head. `dropping` is a running drop, `toSop` the discard after a flush, `aborting` the discard after an uncorrectable word,
`skip` that the write side discards the rest of the sample it was writing (R194), `writing` what it has still to write, `fill0` the
read side's fill before the present F clock (R200), `takes` when words have left it lately, which the write side may not know (R193). -/
structure Trough where
  words : List TWord := []
  wr : Nat := 0
  rd : Nat := 0
  counted : Nat := 0
  due : List Nat := []
  chain : List Stage := []
  head : Bool := false
  dropping : Bool := false
  toSop : Bool := false
  aborting : Bool := false
  stamp : Nat := 0
  skip : Bool := false
  writing : List ToWrite := []
  fill0 : Nat := 0
  takes : List Nat := []
deriving DecidableEq, Repr

/-! ### Belltower (R204–R229) -/

/-- The PTP state of one port (R215–R218). `sync` is a two-step Sync awaiting its Follow_Up (t2 and the correction), `last` the
latest t1, t2 and correction; `req` an own delay request (sequence and egress stamp), `presp` a two-step Pdelay_Resp (t2, t4,
correction). Stamps are in 1/256 ns, corrections in 2^-16 ns. `syncAt` and `annAt` are the times of the last Sync and Announce sent, in
units of `Dev.clk` (R216). -/
structure PtpPort where
  txSeq : Nat := 0
  annSeq : Nat := 0
  reqSeq : Nat := 0
  sync : Option (Nat × Nat × Int) := none
  last : Option (Nat × Nat × Int) := none
  req : Option (Nat × Nat) := none
  presp : Option (Nat × Nat × Int) := none
  answered : Nat := 0
  answeredFrom : Nat := 0
  syncAt : Option Nat := none
  annAt : Option Nat := none
deriving DecidableEq, Repr

/-- The Belltower. `t48` is device time in units of 2^-48 ns (R205); `hist` the device times, in 1/256 ns, of the latest T
edges, newest first; `setPend` a set for the next T edge in 1/256 ns and whether it seeds, `stepPend` a step. `captures` are the edges that wait for
conversion, `stamps` converted stamps that wait for their user, `convT` the T clock of the last conversion. `delays` holds the latest delay
measurements in 2^-17 ns. `ppsEdge` is the T edge of the last rise of the 1PPS output; `almHeld` the value in the crossing to domain A with the
time of its write (R31). -/
structure BellState where
  t48 : Nat := 0
  tEdges : Nat := 0
  hist : List Nat := []
  rate : Int := 0
  sinceChange : Nat := 1024
  waitRate : Option Int := none
  acc : Int := 0
  small : Nat := 0
  lastUpdate : Nat := 0
  setPend : Option (Nat × Bool) := none
  stepPend : Option Int := none
  seedPend : Bool := true
  stampPtr : Nat := 0
  convT : Option Nat := none
  captures : SMap (List Capture) := []
  stamps : SMap (List Capture) := []
  delays : List Nat := []
  ports : SMap PtpPort := []
  grandmaster : List Byte := []
  ppsHigh : Bool := false
  ppsFall : Nat := 0
  ppsEdge : Nat := 0
  ppsLast : Option Nat := none
  ppsSeenT : Nat := 0
  almHeld : Option (Nat × Nat) := none
  almSec : Nat := 0
  timeReq : Bool := false
deriving DecidableEq, Repr

/-- The Almanac (R225–R227), kept over every reset. -/
structure Almanac where
  sec : Nat := 0
  ticks : Nat := 0
  valid : Bool := false
  supply : Nat := 0
  lost : Bool := false
  capLow : Bool := false
  stopped : Bool := false
deriving DecidableEq, Repr

/-! ### Yoke (R230–R261) -/

/-- A history entry (R236): stamp and arrival in 1/256 ns of the slot's time base, header fields, channels, ring address, the error pattern of
its word of the history memory (R378). -/
structure Hist where
  stamp : Nat
  arrival : Nat
  seq : Nat
  flags : Nat
  bytes : Nat
  aux : Nat
  ch : List Nat
  ring : Nat
  err : EccErr := {}
deriving DecidableEq, Repr

/-- The value of one stream at a mark (R238–R248): `ref` is the stamp of the reference sample in 1/256 ns, `age` in ns. -/
structure StreamVal where
  stream : Nat := 0
  kind : Nat := 0
  ref : Nat := 0
  flags : Nat := 0
  used : Nat := 0
  age : Nat := 0
  seq : Nat := 0
  ch : List Nat := []
deriving DecidableEq, Repr

/-- The value of one output (R244, R249). -/
structure OutVal where
  out : Nat := 0
  nch : Nat := 0
  flags : Nat := 0
  mask : Nat := 0
  ch : List Nat := []
deriving DecidableEq, Repr

/-- An evaluated frame: streams, outputs, conflict mask. -/
structure Eval where
  mark : Nat
  streams : List StreamVal
  outs : List OutVal
  conflict : Nat
deriving DecidableEq, Repr

/-- Per schedule: the newest marks that fusion windows served (R528, R255), what the provisional issue of
each mark not yet committed left (none for a skipped one, R250), the verdicts of the
committed copies (1 KEPT, 2 REFUSED), and the marks that COMMIT or SQUASH has resolved. -/
structure Sched where
  provDone : Option Nat := none
  commitDone : Option Nat := none
  provs : List (Nat × Option Eval) := []
  verdicts : List (Nat × Nat) := []
  sealedMarks : List (Nat × Bool) := []
deriving DecidableEq, Repr

/-- The Yoke's fusion half. `part` holds the words taken of an unfinished sample, `ringPos` the next place in a stream's payload
ring, `busyUntil` the C clock at which the running fusion completes, `runWin` the window that has run (kind, boundary count,
start), `running` the schedule, mark and window end of a fusion whose window has not ended, `lastTake` the F clock of the last word taken, `lastState` flags and age of each stream at its latest committed copy, `camBad`
the cameras whose identity record names no model (R264). -/
structure YokeState where
  part : SMap (List TWord) := []
  hist : SMap (List Hist) := []
  ringPos : SMap Nat := []
  scheds : SMap Sched := []
  busyUntil : Nat := 0
  runWin : Option (Nat × Nat × Nat) := none
  running : Option (Nat × Nat × Nat) := none
  lastTake : Option Nat := none
  lastState : SMap (Nat × Nat) := []
  camBad : Nat := 0
deriving DecidableEq, Repr

/-! ### Mill (R299–R321) -/

/-- A resident slot (R309): dimensions, signature, owner, A in row order, b, w, lo, hi as FX32 words. -/
structure ResSlot where
  valid : Bool := false
  m : Nat := 0
  n : Nat := 0
  sig : Nat := 0
  owner : Nat := 0
  a : List Int := []
  b : List Int := []
  w : List Int := []
  lo : List Int := []
  hi : List Int := []
deriving DecidableEq, Repr

/-- The Mill: resident slots, and the C clock at which each lane is free. -/
structure MillState where
  res : SMap ResSlot := []
  laneFree : SMap Nat := []
deriving DecidableEq, Repr

/-! ### Granary (R322–R357) -/

/-- The Granary's own state beside its tables in memory: the tags (sequence × 1,024 + line) of each lane's walk cache by entry,
their pointers (R329), for each charged frame (pool × 4,194,304 + frame) its context ID plus 1 (R340), and the F clock and lane of the latest
job that changed frames (R333). -/
structure GranState where
  cache : SMap (SMap Nat) := []
  ptrs : SMap Nat := []
  charged : SMap Nat := []
  lastFrames : Option (Nat × Nat) := none
deriving DecidableEq, Repr

/-! ### Poleino links (R399–R416) -/

/-- A send or a receive in a plough's X slot order (R405–R408): `sent` is the link sequence number of its first flit once its wire
part has begun, `msg` the message a receive has taken, `asked` says that a send's stack requests have been issued (R45). -/
structure LinkXfer where
  id : Nat
  port : Nat
  plough : Nat
  send : Bool
  ctx : Nat
  gen : Nat
  desc : BitVec 512
  tag : Option PTag
  issue : Nat
  accepted : Bool
  sent : Option Nat
  msg : Option DataMsg
  asked : Bool
deriving DecidableEq, Repr

/-- One port: whether training is due, the times of the replays of the last 1 ms, the end of the running wire part, the next
sequence numbers sent and expected, the replay buffer, the unexpected messages, the marks of provisional DATA that passed
in this major period. -/
structure LinkPort where
  want : Bool := false
  replays : List Nat := []
  txEnd : Nat := 0
  txSeq : Nat := 0
  rxSeq : Nat := 0
  buf : List (Nat × List Byte) := []
  waiting : List DataMsg := []
  carried : List PTag := []
deriving DecidableEq, Repr

/-- A context's entries halted on a port of a plough, with the reason (R409). -/
structure LinkHalt where
  plough : Nat
  port : Nat
  ctx : Nat
  gen : Nat
  reason : Nat
deriving DecidableEq, Repr

/-- The links: transfers in issue order, halted entries, squash notes held, and the provisional receives that completed in the present F clock. -/
structure LinkState where
  ports : SMap LinkPort := []
  xfers : List LinkXfer := []
  halts : List LinkHalt := []
  notes : List (Nat × PTag) := []
  landed : List (Nat × LinkXfer × DataMsg) := []
deriving DecidableEq, Repr

/-! ### Hitch port (R430–R440) -/

/-- A publication that waits for its copy (R433): when it retired (clk), device time then in ns, the mark stored. -/
structure Publication where
  at' : Nat
  ns : Nat
  mark : Nat
deriving DecidableEq, Repr

/-- The Hitch port. The banks are sparse over zero, by word. `post` counts the K edges since a posted swap, `ack` an applied swap
whose acknowledgement is on its way; `inPost`, `inAck` likewise for a capture, with its mark; `group` holds the words 0x0001 and
0x0002 of the running group; `kSeen` the time of the last K edge; `agePrev`, `ageEdges` the age before its last change and the
K edges since; `pubs` the device times of retired publications not yet judged, `ageMark`, `capMark` the next marks. -/
structure HitchState where
  bank0 : SMap Nat := []
  bank1 : SMap Nat := []
  copy : Option Publication := none
  post : Option Nat := none
  postMark : Nat := 0
  ack : Bool := false
  in0 : SMap Nat := []
  in1 : SMap Nat := []
  inBank : Bool := false
  inPost : Option (Nat × Nat) := none
  inAck : Option (Nat × Nat) := none
  inWrites : Nat := 0
  group : Option (Nat × Nat) := none
  kSeen : Nat := 0
  agePrev : Nat := 0
  ageEdges : Nat := 4
  pubs : List Nat := []
  ageMark : Nat := 0
  capMark : Nat := 0
deriving DecidableEq, Repr

/-! ### Host attachment (R417–R429) -/

/-- The sample in flight of an injection queue (R425): its descriptor, the bytes read, and once the Gatehouse has taken it the words
still to pass, how many have passed, and whether it was cut (R418). -/
structure Inject where
  desc : List Byte
  buf : List Byte := []
  taken : Bool := false
  words : List TWord := []
  passed : Nat := 0
  stamp : Nat := 0
  cut : Bool := false
deriving DecidableEq, Repr

/-- A BAR2 or BAR4 access that waits for a window of requester 0x5D (R420): its tag, range, data for a write, time of arrival. -/
structure BarReq where
  tag : Nat
  va : Nat
  len : Nat
  data : Option (List Byte)
  at' : Nat
deriving DecidableEq, Repr

/-- The host attachment. `msix` holds the words of the MSI-X table by word index and `pba` the pending bits (R427); `cfg` the
configuration space by word; `loaded` that it is loaded (R498); `perst` that PERST_N is low; by queue number (0 to 19) the bytes moved
of the running copy descriptor with the descriptor, the sample in flight, whether the halt left a failed descriptor, the tail of
an injection ring; the DMA arbiter's pointer; the waiting BAR accesses and the next tag. Of the present clock: the vectors sent (R427), the
registers written over USB (R429); by queue, 1 more than the F clock of its last word passed to a trough. -/
structure HostState where
  msix : SMap Nat := []
  pba : Nat := 0
  cfg : SMap Nat := []
  loaded : Bool := false
  perst : Bool := true
  moved : SMap Nat := []
  desc : SMap (Option (List Byte)) := []
  inj : SMap (Option Inject) := []
  failed : List Nat := []
  tails : SMap Nat := []
  arb : Nat := 0
  bars : List BarReq := []
  nextTag : Nat := 0
  sent : List (Nat × Nat) := []
  usbWrote : List (Nat × Nat) := []
  injAt : SMap Nat := []
deriving DecidableEq, Repr

/-! ### Steward (R442–R463) -/

/-- A mailbox command (R445) with its path and the device time in ns at which it was received. -/
structure MboxCmd where
  path : Path
  bytes : List Byte
  rx : Nat
deriving DecidableEq, Repr

/-- The Steward: pending commands, oldest first, the running one, the PCIe responses; whether it has booted, is in its trap entry,
has halted; the log queue (kind and 32 bytes), the entries dropped since the last one written, the log's next place (R460),
the boot count; the identity keys (R456), the record and the firmware header in force; by slice of the frame (R442) the number
after that of the last frame whose work is done; the suspects whose generation it is to renew, with whether it retires them (R471); and whether an image has been staged (R452).
Its core (R94, R95): the 8 MiB of RAM as bytes by offset, the bundles it has issued, whether a slot of the present bundle has been given and
whether that bundle has trapped, the bundle's stores (slot, address, bytes). `usbAt` is the F clock of the last command accepted over USB (R444),
`telAdv` the S clock in which the Steward has last advanced STEW_TEL_RD and by how many (R459). -/
structure StewState where
  queue : List MboxCmd := []
  running : Option MboxCmd := none
  rsps : List (List Byte) := []
  booted : Bool := false
  inTrap : Bool := false
  halted : Bool := false
  logQ : List (Nat × List Byte) := []
  logLost : Nat := 0
  bootCount : Nat := 0
  idKey : Option (Nat × Nat × Nat) := none
  bootKey : List Byte := []
  record : List Byte := []
  fwHeader : List Byte := []
  frames : SMap Nat := []
  renew : List (Nat × Bool) := []
  staged : Bool := false
  ram : SMap (BitVec 8) := []
  idx : Nat := 0
  issuing : Bool := false
  trapped : Bool := false
  stores : List (Nat × Nat × List Byte) := []
  usbAt : Option Nat := none
  telAdv : Nat × Nat := (0, 0)
deriving DecidableEq, Repr

/-! ### Reeve (R464–R480) -/

/-- A running recovery (R472, R475): unit as REEVE_CMD codes it, cause, the dump's sequence, time of detection in ns, F clock, Reeve
CCOUNT and period then, detail; its suspects with their old generations, the schedules and the marks to squash; whether it writes
a summary dump, the F clock of the dump's start, the dump words that timed out, and whether the dump is done. -/
structure Recovery where
  unit : Nat
  cause : Nat
  seq : Nat
  ns : Nat
  fclk : Nat
  ccount : Nat
  period : Nat
  detail : Nat
  suspects : List (Nat × Nat) := []
  scheds : List Nat := []
  marks : List PTag := []
  summary : Bool := false
  dumpFrom : Nat := 0
  timeouts : List Nat := []
  dumped : Bool := false
deriving DecidableEq, Repr

/-- The Reeve: by plough the next checkpoint (R465), the running recoveries, the requests that wait (unit, cause, detail), the units
and times of completions (R469, in clk), the device recovery (R477) and whether its isolation has begun, the next summary record, the
sequence of the last dump, the clk of the watchdog's last kick, whether steward_ready has set since the reset (R468), and by lane of an
engine (8 * engine + lane) the C clock at which its last job ended (R467). -/
structure ReeveState where
  next : SMap Nat := []
  recs : List Recovery := []
  waiting : List (Nat × Nat × Nat) := []
  done : List (Nat × Nat) := []
  device : Option Recovery := none
  deviceRuns : Bool := false
  sumNext : Nat := 0
  seq : Nat := 0
  kick : Nat := 0
  ready : Bool := false
  laneEnd : SMap Nat := []
deriving DecidableEq, Repr

/-! ### Power (R481–R501) -/

/-- What a device reset waits for: the cause of the start-up (R494). -/
inductive ResetFor where
  | standbyExit (own : Bool) | thermalRelease
deriving DecidableEq, Repr

/-- Power and start-up: whether the power stage runs, power-good has come (R496), start-up step 3 is done, the stacks are trained, and the start-up fill has begun once (R497);
the clk of the last domain switch; the power samples of the last 10 ms in mW, newest first; the clk since which the 1 ms average
has been above the limit, a bit per site the clk since which it is above 110 °C or below 90 °C; the temperatures; whether a trip
holds the device, and a reset that is due; WAKE_N and the clk of its assertion. -/
structure PwrState where
  on : Bool := true
  good : Bool := false
  started : Bool := false
  trained : Bool := false
  filled : Bool := false
  lastSwitch : Nat := 0
  samples : List Nat := []
  overSince : Option Nat := none
  hotSince : SMap (Option Nat) := []
  coolSince : SMap (Option Nat) := []
  temps : SMap Int := []
  tripped : Bool := false
  reset : Option ResetFor := none
  wakeN : Option Nat := none
  restore : Nat := 0
deriving DecidableEq, Repr

end Sys2Proof.Machine
end

