-- ==== Sys2Proof/Machine/State.lean ====
section
/-! DEFINITION. The state of the block: the queue of waiting commands, what survives a device reset, and the device. -/

namespace Sys2Proof.Machine

/-- What the block gives out to its surroundings (a field of the model's own, log 7), newest first. -/
inductive Output where
  | value (path : Path) (v : BitVec 64)
  | msix (vector : Nat)
  | barData (bytes : List Byte)
  | barAbort
  | barRetry
  | usb (status : Nat) (bytes : List Byte)
  | ethFrame (port : Nat) (bytes : List Byte)
  | canFrame (ctl : Nat) (frame : CanFrame)
  | canFlag (ctl : Nat) (error : Bool)
  | spi (port mode div bits : Nat) (cmd : Option Nat)
  | ptp (port transport : Nat) (msg : PtpMsg)
  | pin (name : String) (index : Nat) (level : Bool)
  | link (port : Nat) (kind : Nat) (bytes : List Byte)
  | timeAnswer (port : Nat) (t1 t2 t3 : BitVec 64)
  | hostWrite (addr : Nat) (bytes : List Byte)
  | word (w : BitVec 32)
  | smbus (w : Option Nat)
  | i2c (bus : Nat) (addr : Nat)
  | cfg (v : Option (BitVec 32))
deriving DecidableEq, Repr

/-- What every device reset keeps: the Almanac (R225), the dump buffer and summary records (R476, R480), the cause latch
(R483) and the flash. -/
structure Kept where
  alm : Almanac := {}
  dump : List Byte := []
  dumpValid : Bool := false
  dumpSeq : Nat := 0
  summaries : SMap (List Byte) := []
  cause : Nat := 0
  flash : SMap Byte := []
deriving DecidableEq, Repr

/-- The device: everything a device reset clears. `clk` counts units of 1/24 ns from reset (log 3); `same` what happened to registers
in the present clock (R11). -/
structure Dev where
  clk : Nat := 0
  regs : SMap Word := []
  same : List Touch := []
  lowHeld : List (Path × Nat × Nat) := []
  highCap : List (Path × Nat × Nat) := []
  mem : List Host.Cell := []
  ecc : SMap EccErr := []
  memc : MemState := {}
  hedge : HedgeState := {}
  evt : EvtState := {}
  ctxs : SMap Ctx := []
  ctxCmd : Option CtxCmd := none
  exch : Option Exchange := none
  plan : PlanState := {}
  ploughs : SMap Plough := []
  jobs : List Job := []
  nextId : Nat := 0
  gate : GateState := {}
  troughs : SMap Trough := []
  bell : BellState := {}
  yoke : YokeState := {}
  mill : MillState := {}
  gran : GranState := {}
  links : LinkState := {}
  hitch : HitchState := {}
  host : HostState := {}
  stew : StewState := {}
  reeve : ReeveState := {}
  pwr : PwrState := {}
  free : Nat := 0
  out : List Output := []
deriving DecidableEq, Repr

/-- The whole state: the commands waiting, first in first out; the kept part; the device. -/
structure State where
  pending : List Instr
  kept : Kept
  dev : Dev
deriving DecidableEq, Repr

/-- Why the machine would stop with a fault. No meaning of this block faults: every failure the spec describes is an
effect on the state. The constructor is raised by nothing and is safe. -/
inductive Fault where
  /-- Raised by nothing; safe. -/
  | none
deriving DecidableEq, Repr

/-- Why a command has no meaning. -/
inductive Refusal where
  /-- Raised by an arm of exec whose meaning is not written; safe. -/
  | notModelled (mnemonic : String)
deriving DecidableEq, Repr

/-- Right after the first power-up: no command waits, the kept parts are empty (log 8), every register reads its Reset
column, every memory reads zero (log 5). -/
def State.reset : State := { pending := [], kept := {}, dev := {} }

end Sys2Proof.Machine
end

