-- ==== Sys2Proof/Machine/Ops.lean ====
section
/-! DEFINITION. The named operations over the device's registers, clocks, counters, free values and bytes of memory. -/

namespace Sys2Proof.Machine

/-! ### Registers and fields (R9, R10) -/

/-- The stored value of the register at a BAR0 address. -/
def Dev.reg (d : Dev) (a : Nat) : Word := SMap.get regReset d.regs a

/-- Store a register value. -/
def Dev.setReg (d : Dev) (a : Nat) (v : Word) : Dev := { d with regs := SMap.set regReset d.regs a v }

/-- The value of a named field. -/
def Dev.getF (d : Dev) (f : FieldRef) : Nat := field (d.reg f.addr).toNat f.lsb f.width

/-- Whether a one-bit field is set. -/
def Dev.flag (d : Dev) (f : FieldRef) : Bool := d.getF f != 0

/-- Store a value in a named field. -/
def Dev.setF (d : Dev) (f : FieldRef) (v : Nat) : Dev :=
  d.setReg f.addr (BitVec.ofNat 64 (putField (d.reg f.addr).toNat f.lsb f.width v))

/-- Set or clear a one-bit field. -/
def Dev.setB (d : Dev) (f : FieldRef) (b : Bool) : Dev := d.setF f (b2n b)

/-! ### One clock, two changes (R11, R493) -/

/-- Units of `Dev.clk` in a clock of the domain that holds the registers of a BAR0 address: C for ploughs and engines, M for MEM, T for BELL,
S for STEW, F for the other blocks (R493, log 95). -/
def regPeriod (a : Nat) : Nat :=
  match a / 0x100000 with
  | 3 => 48
  | 4 => 20
  | 5 => 20
  | 6 => 20
  | 7 => 20
  | 9 => 15
  | 0xC => 60
  | b => if 0x10 ≤ b ∧ b < 0x20 then 20 else 24

/-- The clock of a register's own domain. -/
def Dev.regClk (d : Dev) (a : Nat) : Nat := d.clk / regPeriod a

/-- What has happened to a register in the present clock; `v` is its value now. -/
def Dev.touchOf (d : Dev) (a v : Nat) : Touch :=
  match d.same.find? fun t => t.addr == a && t.clk == d.regClk a with
  | some t => t
  | none => { addr := a, clk := d.regClk a, before := v }

/-- Note what has happened to a register; what earlier clocks left is dropped. -/
def Dev.note (d : Dev) (t : Touch) : Dev :=
  { d with same := t :: d.same.filter fun x => x.addr != t.addr && x.clk == d.regClk x.addr }

/-- The hardware counts `n` in the RC register at `a`, whose value is now `v`. -/
def Dev.noteCount (d : Dev) (a v n : Nat) : Dev :=
  let t := d.touchOf a v
  d.note { t with gain := satAdd32 t.gain n }

/-- The hardware sets the bits of `m` in the register at `a`; a write that clears them in the same clock leaves them set (R11). -/
def Dev.hwSetBits (d : Dev) (a m : Nat) : Dev :=
  let t := d.touchOf a (d.reg a).toNat
  (d.note { t with set := t.set ||| m }).setReg a (d.reg a ||| BitVec.ofNat 64 m)

/-- The hardware sets a field. -/
def Dev.hwSet (d : Dev) (f : FieldRef) : Dev := d.hwSetBits f.addr ((2 ^ f.width - 1) <<< f.lsb)

/-- The hardware gives the RC field at `a`, whose value is now `v`, the value `n`. -/
def Dev.noteValue (d : Dev) (a v n : Nat) : Dev :=
  let t := d.touchOf a v
  d.note { t with gain := n }

/-- The hardware clears a one-bit field, unless software has written 1 to it in the same clock (R11). -/
def Dev.hwClear (d : Dev) (f : FieldRef) : Dev :=
  if (d.touchOf f.addr 0).wrote.testBit f.lsb then d else d.setF f 0

/-- What a read that clears the RC register at `a` returns and leaves, `v` being its value: the value from before this clock, and what
this clock has counted (R11). -/
def Dev.takeCount (d : Dev) (a v : Nat) : Nat × Nat × Dev :=
  let t := d.touchOf a v
  (t.before, t.gain, d.note { t with before := 0 })

/-- Add to the 32-bit counter at an address, saturating at 0xFFFF_FFFF. -/
def Dev.bump (d : Dev) (a : Nat) (n : Nat := 1) : Dev :=
  (d.noteCount a (d.reg a).toNat n).setReg a (BitVec.ofNat 64 (satAdd32 (d.reg a).toNat n))

/-- The place in `Dev.same` of a context's TOP_CTX_SLICE_CUT, which has no register of its own. -/
def sliceCutKey (id : Nat) : Nat := 0x10000000 + id

/-- Raise the RC register at `a`, which holds the greatest value seen, to `v`. -/
def Dev.raisePeak (d : Dev) (a v : Nat) : Dev :=
  let old := (d.reg a).toNat
  if v ≤ old ∧ v ≤ (d.touchOf a old).gain then d
  else
    let t := d.touchOf a old
    (d.note { t with gain := max t.gain v }).setReg a (BitVec.ofNat 64 (max old v))

/-- The progress of a mark schedule. -/
def Dev.sched (d : Dev) (s : Nat) : Sched := SMap.get (fun _ => {}) d.yoke.scheds s

/-- Whether this device has resolved a mark: true for COMMIT, false for SQUASH. -/
def Dev.markSealed (d : Dev) (t : PTag) : Option Bool :=
  ((d.sched t.sched).sealedMarks.find? fun x => x.1 == t.mark).map (·.2)

/-- Count now, or hold the count of provisional work until its mark commits (R27, R60); of a mark resolved since, count or drop it. -/
def Dev.bumpFor (d : Dev) (tag : Option PTag) (a : Nat) (n : Nat := 1) : Dev :=
  match tag with
  | none => d.bump a n
  | some t =>
    match d.markSealed t with
    | some true => d.bump a n
    | some false => d
    | none => if n = 0 then d else { d with evt := { d.evt with counts := d.evt.counts ++ [⟨t, a, n⟩] } }

/-- What a software write of `v` leaves in one field (R10, R12): RW stores, W1C clears but for the bits of `set`, which the hardware has
set in the same clock (R11), W1S sets, RWL stores until the lock. -/
def fieldWrite (locked : Bool) (set old v : Nat) (f : RegField) : Nat :=
  match f.acc with
  | .rw => field v f.lsb f.width
  | .w1c => (List.range f.width).foldl (fun n i =>
      if old.testBit (f.lsb + i) && (!v.testBit (f.lsb + i) || set.testBit (f.lsb + i)) then n + 2 ^ i else n) 0
  | .w1s => field old f.lsb f.width ||| field v f.lsb f.width
  | .rwl => if locked then field old f.lsb f.width else field v f.lsb f.width
  | _ => field old f.lsb f.width

/-- A software write of the whole register at `a` by the types of its fields (R10, R14). -/
def Dev.storeReg (d : Dev) (a v : Nat) : Dev :=
  match regRowAt a with
  | none => d
  | some r =>
    let old := (d.reg a).toNat
    let t := d.touchOf a old
    let new := r.fields.foldl (fun n f => putField n f.lsb f.width (fieldWrite (d.plan.phase == .locked) t.set old v f)) old
    let w1s := r.fields.foldl (fun n f => if f.acc = .w1s then n ||| (field v f.lsb f.width <<< f.lsb) else n) 0
    let d := if w1s = 0 then d else d.note { t with wrote := t.wrote ||| w1s }
    d.setReg a (BitVec.ofNat 64 new)

/-- A fresh free value (log 6). -/
def Dev.fresh (d : Dev) : Nat × Dev := (Config.freeNat d.free, { d with free := d.free + 1 })

/-- Give a value to the surroundings. -/
def Dev.emit (d : Dev) (o : Output) : Dev := { d with out := o :: d.out }

/-! ### Clocks (the clock table of spec/01_architecture.md; log 3) -/

/-- C clocks since reset. -/
def Dev.cclk (d : Dev) : Nat := d.clk / 20

/-- F clocks since reset. -/
def Dev.fclk (d : Dev) : Nat := d.clk / 24

/-- M clocks since reset. -/
def Dev.mclk (d : Dev) : Nat := d.clk / 15

/-- CCOUNT (R40): C clocks since the current major period boundary. -/
def Dev.ccount (d : Dev) : Nat := d.cclk - d.plan.cBase

/-- M clocks since the current major period boundary (R40). -/
def Dev.mcount (d : Dev) : Nat := d.mclk - d.plan.mBase

/-- Device time in whole nanoseconds (R204). -/
def Dev.devNs (d : Dev) : Nat := d.bell.t48 / 2 ^ 48

/-- Device time in units of 1/256 ns (R204). -/
def Dev.dev256 (d : Dev) : Nat := d.bell.t48 / 2 ^ 40

/-! ### Contexts, ploughs, plan -/

/-- A context ID. -/
def Dev.ctxOf (d : Dev) (id : Nat) : Ctx := SMap.get (fun _ => {}) d.ctxs id

/-- Change a context ID. -/
def Dev.updCtx (d : Dev) (id : Nat) (f : Ctx → Ctx) : Dev :=
  { d with ctxs := SMap.modify (fun _ => {}) d.ctxs id f }

/-- Live: SWAPPED, RESIDENT, or RETIRING until its last step (R360). -/
def Ctx.live (c : Ctx) : Bool := c.life != .retired

/-- A quota of a context as a unit checks it now: in the F clock in which a new value arrives still the old one (R316, R370). -/
def Dev.quotaNow (d : Dev) (ctx i : Nat) : Nat :=
  let c := d.ctxOf ctx
  match c.quotaOld with
  | some (f, q) => if f = d.fclk then q.getD i 0 else c.quota.getD i 0
  | none => c.quota.getD i 0

/-- SWAPPED or RESIDENT (R362, R369, R426). -/
def Ctx.active (c : Ctx) : Bool := c.life == .swapped || c.life == .resident

/-- A plough. -/
def Dev.plough (d : Dev) (n : Nat) : Plough := SMap.get (fun _ => {}) d.ploughs n

/-- Change a plough. -/
def Dev.updPlough (d : Dev) (n : Nat) (f : Plough → Plough) : Dev :=
  { d with ploughs := SMap.modify (fun _ => {}) d.ploughs n f }

/-- A unit of the Reeve that is recovering: bit `u` of REEVE_UNIT_BUSY (R480). -/
def Dev.unitBusy (d : Dev) (u : Nat) : Bool := (d.reg R.REEVE_UNIT_BUSY).toNat.testBit u

/-- The bytes of the plan section of a type and instance; an absent section is empty. -/
def Dev.section (d : Dev) (stype inst : Nat) : List Byte :=
  match d.plan.sections.find? fun x => x.stype == stype && x.inst == inst with
  | some x => x.bytes
  | none => []

/-- A header field of the loaded plan (R46). -/
def Dev.header (d : Dev) (off size : Nat) : Nat := leAt d.plan.header off size

/-- The MAPPING section of a context ID (R358). -/
def Dev.mapping (d : Dev) (id : Nat) : List Byte := d.section 5 id

/-- context_count of the plan (R46). -/
def Dev.ctxCount (d : Dev) : Nat := d.header 0x44 2

/-- The plan is LOCKED. -/
def Dev.locked (d : Dev) : Bool := d.plan.phase == .locked

/-- Bit `i` of MAPPING flags (R358). -/
def Dev.mapFlag (d : Dev) (id i : Nat) : Bool := (leAt (d.mapping id) 2 1).testBit i

/-- provisional_lag_ns of a schedule. -/
def Dev.provLag (d : Dev) (s : Nat) : Nat := d.getF (F.YOKE_MARK_CTL_prov_lag s)
/-- commit_lag_ns of a schedule. -/
def Dev.commitLag (d : Dev) (s : Nat) : Nat := d.getF (F.YOKE_MARK_CTL_commit_lag s)

/-- R232: a schedule whose lags are equal issues no provisional frames and its tolerance has no effect. -/
def Dev.noProv (d : Dev) (s : Nat) : Bool := d.provLag s == d.commitLag s

/-- A context has tolerance for a schedule (tol_mask of R358; R57, R232, R371). -/
def Dev.tolerates (d : Dev) (id s : Nat) : Bool := (leAt (d.mapping id) 3 1).testBit s && !d.noProv s

/-- The number of set bits of `mask` below bit `n`: the place of plough `n` in a save area (R358, R365). -/
def maskBelow (mask n : Nat) : Nat := ((List.range n).filter fun i => mask.testBit i).length

/-! ### Bytes of memory (R8, R376)

Memory is one map of bytes keyed by the management address of R524: the stack at 0, the Barn at 0x10_0000_0000, local store n
at 0x20_0000_0000 + n × 0x100_0000. A byte that nothing has written reads zero (log 5, R394). -/

/-- What an unlisted byte reads as. -/
def memDefault (_ : Nat) : Byte := 0

/-- Read one byte. -/
def Memory.read1 (m : List Host.Cell) (k : Nat) : Byte := SMap.get memDefault m k

/-- Write one byte. -/
def Memory.write1 (m : List Host.Cell) (k : Nat) (b : Byte) : List Host.Cell := SMap.set memDefault m k b

/-- The canonical form of memory: addresses rise strictly and no entry is zero. -/
def Memory.wf (m : List Host.Cell) : Bool := SMap.wf memDefault m

/-- The cells of a range. -/
def Memory.within (m : List Host.Cell) (k n : Nat) : List Host.Cell :=
  m.filter fun c => decide (k ≤ c.1 ∧ c.1 < k + n)

/-- Read `n` bytes from `k`. -/
def Memory.read (m : List Host.Cell) (k n : Nat) : List Byte :=
  let c := Memory.within m k n
  (List.range n).map fun i => Memory.read1 c (k + i)

/-- The non-zero cells of bytes laid from `k`. -/
def Memory.cells : Nat → List Byte → List Host.Cell
  | _, [] => []
  | k, b :: bs => if b = 0 then Memory.cells (k + 1) bs else (k, b) :: Memory.cells (k + 1) bs

/-- Write bytes from `k`. -/
def Memory.write (m : List Host.Cell) (k : Nat) (bs : List Byte) : List Host.Cell :=
  let e := k + bs.length
  m.filter (fun c => decide (c.1 < k)) ++ Memory.cells k bs ++ m.filter (fun c => decide (e ≤ c.1))

/-- Zero `n` bytes from `k` (R394). -/
def Memory.fill (m : List Host.Cell) (k n : Nat) : List Host.Cell :=
  m.filter fun c => decide (c.1 < k ∨ k + n ≤ c.1)

/-- The first key of the Barn. -/
def barnKey : Nat := 0x1000000000

/-- The first key of local store n. -/
def lsKey (n : Nat) : Nat := 0x2000000000 + n * 0x1000000

/-- The key of a physical address: targets 0 to 15 are local stores, 0x10 the Barn, 0x11 the stack (R376, R398). -/
def keyOf (target phys : Nat) : Nat :=
  if target < 0x10 then lsKey target + phys else if target = 0x10 then barnKey + phys else phys

/-- The target of a key. -/
def targetOf (key : Nat) : Nat :=
  if key < barnKey then 0x11 else if key < lsKey 0 then 0x10 else (key - lsKey 0) / 0x1000000

/-- The physical address of a key within its target. -/
def physOf (key : Nat) : Nat :=
  if key < barnKey then key else if key < lsKey 0 then key - barnKey else (key - lsKey 0) % 0x1000000

/-- Bytes of a target (R376). -/
def targetSize (target : Nat) : Nat :=
  if target < 0x10 then 0x600000 else if target = 0x10 then 0x3000000 else 0xC00000000

/-- Whether the `n` bytes from `key` lie in one memory of R376. -/
def keyOk (key n : Nat) : Bool := decide (physOf key + n ≤ targetSize (targetOf key)) && decide (targetOf key ≤ 0x11)

/-- Raw bytes from a key, without the code. -/
def Dev.peek (d : Dev) (key n : Nat) : List Byte := Memory.read d.mem key n

/-- Raw write of bytes, without the code. -/
def Dev.poke (d : Dev) (key : Nat) (bs : List Byte) : Dev := { d with mem := Memory.write d.mem key bs }

end Sys2Proof.Machine
end

