-- ==== Sys2Proof/Machine/Flags.lean ====
section
/-! DEFINITION. Event records, interrupt status bits, the interrupt summary and MSI-X (R22–R30, R33, R427, R525). -/

namespace Sys2Proof.Machine

/-- A detail field: `v` in `n` bytes from record byte `off` (R22: detail is bytes 16 to 31). -/
def dAt (off n v : Nat) : Nat := (v % 2 ^ (8 * n)) <<< (8 * (off - 16))

/-- The codes that their chapters mark as limited (R182, R202, R228, R260, R273, R297, R320, R356, R374, R397, R415, R439, R462, R500). -/
def limitedCodes : List Nat :=
  [0x0011, 0x0102, 0x0103, 0x0105, 0x0106, 0x0107, 0x0108, 0x0202, 0x0204, 0x0302, 0x0304, 0x0305, 0x0308, 0x0401, 0x0402, 0x0403, 0x0404,
    0x0405, 0x0409, 0x0443]
  ++ [0x0502, 0x0503, 0x0505, 0x0602, 0x0603, 0x0604, 0x0702, 0x0703, 0x0901, 0x0902, 0x0904, 0x0A04, 0x0A05, 0x0B01, 0x0B02, 0x0B81, 0x0B82,
    0x0B85, 0x0C03, 0x0C04, 0x0C05, 0x0C08, 0x0E03, 0x0E04]

/-- The interrupt status bit that a code sets, from the IRQ_STATUS tables of the chapters. -/
def irqBit (code inst : Nat) : Option FieldRef :=
  let at' (l : List (Nat × FieldRef)) : Option FieldRef := (l.find? fun e => e.1 == code).map (·.2)
  match code / 256 with
  | 0x01 => at' [(0x0101, F.GATE_IRQ_STATUS_port), (0x0102, F.GATE_IRQ_STATUS_stamp), (0x0103, F.GATE_IRQ_STATUS_slot),
      (0x0104, F.GATE_IRQ_STATUS_slot), (0x0105, F.GATE_IRQ_STATUS_slot), (0x0106, F.GATE_IRQ_STATUS_stamp),
      (0x0107, F.GATE_IRQ_STATUS_stamp), (0x0108, F.GATE_IRQ_STATUS_stamp), (0x0109, F.GATE_IRQ_STATUS_stamp),
      (0x010A, F.GATE_IRQ_STATUS_identity), (0x010B, F.GATE_IRQ_STATUS_identity)]
  | 0x02 => at' [(0x0201, ⟨R.TROUGH_IRQ_STATUS, inst % 16, 1⟩), (0x0202, F.TROUGH_IRQ_STATUS_overflow),
      (0x0203, F.TROUGH_IRQ_STATUS_ecc), (0x0204, F.TROUGH_IRQ_STATUS_gate)]
  | 0x03 => at' [(0x0301, F.BELL_IRQ_STATUS_servo), (0x0302, F.BELL_IRQ_STATUS_step), (0x0303, F.BELL_IRQ_STATUS_step),
      (0x0304, F.BELL_IRQ_STATUS_vt), (0x0305, F.BELL_IRQ_STATUS_ptp), (0x0306, F.BELL_IRQ_STATUS_alm),
      (0x0307, F.BELL_IRQ_STATUS_pps), (0x0308, F.BELL_IRQ_STATUS_overrun), (0x0309, F.BELL_IRQ_STATUS_step)]
  | 0x04 => at' [(0x0401, F.YOKE_IRQ_STATUS_stale), (0x0402, F.YOKE_IRQ_STATUS_conflict), (0x0403, F.YOKE_IRQ_STATUS_refused),
      (0x0404, F.YOKE_IRQ_STATUS_late), (0x0405, F.YOKE_IRQ_STATUS_history), (0x0406, F.YOKE_IRQ_STATUS_skip),
      (0x0407, F.YOKE_IRQ_STATUS_overrun), (0x0408, F.YOKE_IRQ_STATUS_bad_commit), (0x0409, F.YOKE_IRQ_STATUS_history),
      (0x0440, F.YOKE_PROJ_IRQ_STATUS_cam), (0x0441, F.YOKE_PROJ_IRQ_STATUS_cam), (0x0442, F.YOKE_PROJ_IRQ_STATUS_job),
      (0x0443, F.YOKE_PROJ_IRQ_STATUS_bad), (0x0444, F.YOKE_PROJ_IRQ_STATUS_overrun)]
  | 0x05 => at' [(0x0501, F.SIEVE_IRQ_STATUS_error), (0x0502, F.SIEVE_IRQ_STATUS_truncated), (0x0503, F.SIEVE_IRQ_STATUS_ring),
      (0x0504, F.SIEVE_IRQ_STATUS_quota), (0x0505, F.SIEVE_IRQ_STATUS_bad), (0x0506, F.SIEVE_IRQ_STATUS_overrun)]
  | 0x06 => at' [(0x0601, F.MILL_IRQ_STATUS_error), (0x0602, F.MILL_IRQ_STATUS_sat), (0x0603, F.MILL_IRQ_STATUS_pivot),
      (0x0604, F.MILL_IRQ_STATUS_warm), (0x0605, F.MILL_IRQ_STATUS_deadline), (0x0606, F.MILL_IRQ_STATUS_quota)]
  | 0x07 => at' [(0x0701, F.GRAN_IRQ_STATUS_error), (0x0702, F.GRAN_IRQ_STATUS_refused), (0x0703, F.GRAN_IRQ_STATUS_nan),
      (0x0704, F.GRAN_IRQ_STATUS_overrun), (0x0705, F.GRAN_IRQ_STATUS_table), (0x0706, F.GRAN_IRQ_STATUS_table)]
  | 0x08 => if code = 0x0825 then some F.HEDGE_IRQ_STATUS_ext_prov
      else if code = 0x0827 then some F.HEDGE_IRQ_STATUS_fence_done else some F.HEDGE_IRQ_STATUS_fault
  | 0x09 => at' [(0x0901, F.MEM_IRQ_STATUS_miss), (0x0902, F.MEM_IRQ_STATUS_corr), (0x0903, F.MEM_IRQ_STATUS_uncorr),
      (0x0904, F.MEM_IRQ_STATUS_corr), (0x0905, F.MEM_IRQ_STATUS_lap), (0x0906, F.MEM_IRQ_STATUS_lap),
      (0x0907, F.MEM_IRQ_STATUS_stack), (0x0908, F.MEM_IRQ_STATUS_stack)]
  | 0x0A => at' [(0x0A01, F.LINK_IRQ_STATUS_state), (0x0A02, F.LINK_IRQ_STATUS_lane), (0x0A03, F.LINK_IRQ_STATUS_wiring),
      (0x0A04, F.LINK_IRQ_STATUS_replay), (0x0A05, F.LINK_IRQ_STATUS_discard), (0x0A06, F.LINK_IRQ_STATUS_peer_squash)]
  | 0x0B => at' [(0x0B01, F.HITCH_IRQ_STATUS_drop), (0x0B02, F.HITCH_IRQ_STATUS_late), (0x0B03, F.HITCH_IRQ_STATUS_fault),
      (0x0B80, F.HOST_IRQ_STATUS_queue), (0x0B81, F.HOST_IRQ_STATUS_inject), (0x0B82, F.HOST_IRQ_STATUS_doorbell),
      (0x0B83, F.HOST_IRQ_STATUS_link), (0x0B84, F.HOST_IRQ_STATUS_link), (0x0B85, F.HOST_IRQ_STATUS_bar)]
  | 0x0C => at' [(0x0C01, F.STEW_IRQ_STATUS_boot), (0x0C02, F.STEW_IRQ_STATUS_boot), (0x0C03, F.STEW_IRQ_STATUS_busy),
      (0x0C04, F.STEW_IRQ_STATUS_drop), (0x0C05, F.STEW_IRQ_STATUS_drop), (0x0C06, F.STEW_IRQ_STATUS_boot),
      (0x0C07, F.STEW_IRQ_STATUS_trap), (0x0C08, F.STEW_IRQ_STATUS_trap), (0x0C09, F.STEW_IRQ_STATUS_boot)]
  | 0x0D => at' [(0x0D01, F.REEVE_IRQ_STATUS_hang), (0x0D02, F.REEVE_IRQ_STATUS_hang), (0x0D03, F.REEVE_IRQ_STATUS_recovery),
      (0x0D04, F.REEVE_IRQ_STATUS_recovery), (0x0D05, F.REEVE_IRQ_STATUS_recovery), (0x0D06, F.REEVE_IRQ_STATUS_dump),
      (0x0D07, F.REEVE_IRQ_STATUS_parked)]
  | 0x0E => at' [(0x0E01, F.PWR_IRQ_STATUS_cap), (0x0E02, F.PWR_IRQ_STATUS_cap), (0x0E03, F.PWR_IRQ_STATUS_thermal),
      (0x0E04, F.PWR_IRQ_STATUS_input), (0x0E05, F.PWR_IRQ_STATUS_domain)]
  | 0x10 => if code = 0x100B then some (F.PLOUGH_IRQ_STATUS_wait_late (inst % 16)) else none
  | _ => none

/-- Set an interrupt status bit, if there is one. -/
def Dev.setIrq (d : Dev) (f : Option FieldRef) : Dev :=
  match f with
  | some r => d.hwSet r
  | none => d

/-- The status and mask registers whose unmasked bits make each TOP_IRQ_SUMMARY bit of R33. -/
def summarySources : List (Nat × Nat × Nat) :=
  [(1, R.GATE_IRQ_STATUS, R.GATE_IRQ_MASK), (2, R.TROUGH_IRQ_STATUS, R.TROUGH_IRQ_MASK), (3, R.BELL_IRQ_STATUS, R.BELL_IRQ_MASK),
    (4, R.YOKE_IRQ_STATUS, R.YOKE_IRQ_MASK), (4, R.YOKE_PROJ_IRQ_STATUS, R.YOKE_PROJ_IRQ_MASK), (5, R.SIEVE_IRQ_STATUS, R.SIEVE_IRQ_MASK),
    (6, R.MILL_IRQ_STATUS, R.MILL_IRQ_MASK), (7, R.GRAN_IRQ_STATUS, R.GRAN_IRQ_MASK), (8, R.HEDGE_IRQ_STATUS, R.HEDGE_IRQ_MASK)]
  ++ [(9, R.MEM_IRQ_STATUS, R.MEM_IRQ_MASK), (0xA, R.LINK_IRQ_STATUS, R.LINK_IRQ_MASK), (0xB, R.HITCH_IRQ_STATUS, R.HITCH_IRQ_MASK),
    (0xB, R.HOST_IRQ_STATUS, R.HOST_IRQ_MASK), (0xC, R.STEW_IRQ_STATUS, R.STEW_IRQ_MASK), (0xD, R.REEVE_IRQ_STATUS, R.REEVE_IRQ_MASK),
    (0xE, R.PWR_IRQ_STATUS, R.PWR_IRQ_MASK)]
  ++ (List.range 16).map fun n => (16, R.PLOUGH_IRQ_STATUS n, R.PLOUGH_IRQ_MASK n)

/-- Whether status bits stand that their mask lets through. -/
def Dev.pendingIrq (d : Dev) (st mask : Nat) : Bool :=
  ((d.reg st) &&& ~~~ (d.reg mask)) &&& 0xFFFFFFFF#64 != 0

/-- TOP_IRQ_SUMMARY (R33): bit 0 while the ring holds unread records, bit n while block n has an unmasked pending bit, bit 16
for the ploughs. -/
def Dev.irqSummary (d : Dev) : Nat :=
  let ring := b2n (d.getF F.TOP_EVT_RING_WR_count != d.getF F.TOP_EVT_RING_RD_count)
  summarySources.foldl (fun acc s => if d.pendingIrq s.2.1 s.2.2 then acc ||| (1 <<< s.1) else acc) ring

/-- Word `i` of the MSI-X table: the mask bit of each entry's fourth word is set after reset (log 40). -/
def msixDefault (i : Nat) : Nat := if i % 4 = 3 then 1 else 0

/-- Whether MSI-X vector `v` is masked (R427). -/
def Dev.msixMasked (d : Dev) (v : Nat) : Bool := (SMap.get msixDefault d.host.msix (4 * v + 3)).testBit 0

/-- Send MSI-X vector `v`: a masked vector sets its pending bit, and sources of one clock make one message (R427; the H clock is log 41's); with
the link down the message is lost (log 41). -/
def Dev.sendMsix (d : Dev) (v : Nat) : Dev :=
  if d.msixMasked (v % 256) then { d with host := { d.host with pba := putBit d.host.pba (v % 256) true } }
  else if d.flag F.HOST_STATUS_link_up && !d.host.sent.contains (d.clk, v % 256) then
    ({ d with host := { d.host with sent := (d.clk, v % 256) :: d.host.sent.filter fun x => x.1 == d.clk } } : Dev).emit (.msix (v % 256))
  else d

/-- Send the summary vector when an unmasked summary bit has gone from 0 to 1 (R33). -/
def Dev.summaryCheck (d : Dev) : Dev :=
  let now := d.irqSummary
  let rising := (List.range 17).any fun i =>
    now.testBit i && !d.evt.summaryPrev.testBit i && !(d.getF F.TOP_IRQ_MASK_mask).testBit i
  let d1 := { d with evt := { d.evt with summaryPrev := now } }
  if rising then d1.sendMsix (d.getF F.TOP_IRQ_CTL_vector) else d1

/-- A record raised now (R22): block and instance from the code and `inst`; generation 0 means no context (R24). -/
def Dev.mkEvent (d : Dev) (code inst ctx gen detail : Nat) : Event :=
  { stamp := d.devNs, inst := inst % 256, code := code, ctx := if gen = 0 then 0 else ctx, gen := gen, detail := detail,
    limited := limitedCodes.contains code, key := if code = 0x0011 then ctx else if code = 0x0443 then 0 else inst % 256, plough := none, info := 0, arrive := 0 }

/-- The 32 bytes of a record (R22). -/
def Event.bytes (e : Event) : List Byte :=
  leBytes 8 e.stamp ++ leBytes 1 (e.code / 256) ++ leBytes 1 e.inst ++ leBytes 2 e.code
    ++ leBytes 4 (e.ctx % 4096 + (e.gen % 2 ^ 20) * 4096) ++ leBytes 16 e.detail

/-- Whether a record passes the limit of R525: no record of its code and key passed it less than 1 ms earlier. -/
def Dev.passesLimit (d : Dev) (e : Event) : Bool :=
  !e.limited || !(d.evt.passed.any fun p => p.1 == e.code && p.2.1 == e.key && decide (d.dev256 < p.2.2 + 256000000))

/-- The fault registers of a plough, written when its fault record is delivered (R92, R96). -/
def Dev.plFaultRegs (d : Dev) (e : Event) : Dev :=
  match e.plough with
  | none => d
  | some n =>
    let d := d.setF (F.PLOUGH_FAULT_code n) (e.code % 256)
    let d := d.setF (F.PLOUGH_FAULT_slot n) (e.info % 8)
    let d := d.hwSet (F.PLOUGH_FAULT_valid n)
    let d := d.setF (F.PLOUGH_FAULT_ctx_id n) e.ctx
    let d := d.setReg (R.PLOUGH_FAULT_PC n) (BitVec.ofNat 64 (e.info / 8 % 2 ^ 64))
    let d := d.setReg (R.PLOUGH_FAULT_INFO n) (BitVec.ofNat 64 (e.info / 2 ^ 67))
    let d := d.bump (R.PLOUGH_FAULT_COUNT n)
    d.hwSet (F.PLOUGH_IRQ_STATUS_fault n)

/-- The Hedge counts its fault events (R163). -/
def hedgeFault (code : Nat) : Bool := code / 256 == 8 && code != 0x0825 && code != 0x0827

/-- Deliver a record (R27, R525): the limit is tested, the record goes to the collector, its status bits set. That a record which the limit
suppresses sets its status bit too is the model's choice (DESIGN CHOICE, log 98): R525 does not say. -/
def Dev.deliver (d : Dev) (e : Event) : Dev :=
  let pass := d.passesLimit e
  let evt := if pass then
      { d.evt with arriving := d.evt.arriving ++ [{ e with arrive := d.fclk }],
                   passed := if e.limited then (e.code, e.key, d.dev256) :: d.evt.passed.filter (fun p => !(p.1 == e.code && p.2.1 == e.key))
                             else d.evt.passed }
    else d.evt
  let d := { d with evt := evt }
  let d := d.setIrq (irqBit e.code e.inst)
  let d := d.plFaultRegs e
  let d := if hedgeFault e.code then d.bump R.HEDGE_FAULT_COUNT else d
  d.summaryCheck

/-- Raise a record on committed data: delivered at once (R27). -/
def Dev.raise (d : Dev) (code inst ctx gen detail : Nat) : Dev := d.deliver (d.mkEvent code inst ctx gen detail)

/-- A record that a squash discards: a plough's fault record counts PLOUGH_SQUASHED_FAULTS (R92). -/
def Dev.dropEvent (d : Dev) (e : Event) : Dev :=
  match e.plough with
  | some n => d.bump (R.PLOUGH_SQUASHED_FAULTS n)
  | none => d

/-- Raise a record from work under a provisional tag: held until the mark is committed or squashed (R27); of a mark resolved since, delivered or
discarded. -/
def Dev.raiseEvent (d : Dev) (tag : Option PTag) (e : Event) : Dev :=
  match tag with
  | none => d.deliver e
  | some t =>
    match d.markSealed t with
    | some true => d.deliver e
    | some false => d.dropEvent e
    | none => { d with evt := { d.evt with held := d.evt.held ++ [(t, e)] } }

/-- Raise a record, held when the work is provisional. -/
def Dev.raiseFor (d : Dev) (tag : Option PTag) (code inst ctx gen detail : Nat) : Dev :=
  d.raiseEvent tag (d.mkEvent code inst ctx gen detail)

/-- COMMIT of a mark: its held records are delivered with their original stamps and its held counts are added (R27, R60). -/
def Dev.releaseHeld (d : Dev) (t : PTag) : Dev :=
  let evs := d.evt.held.filter fun p => p.1 == t
  let cnts := d.evt.counts.filter fun c => c.tag == t
  let d := { d with evt := { d.evt with held := d.evt.held.filter (fun p => p.1 != t), counts := d.evt.counts.filter (fun c => c.tag != t) } }
  let d := evs.foldl (fun d p => d.deliver p.2) d
  cnts.foldl (fun d c => d.bump c.addr c.amount) d

/-- SQUASH of a mark: its held records are discarded, a plough's fault record counting PLOUGH_SQUASHED_FAULTS, and its held
counts are dropped (R27, R92). -/
def Dev.dropHeld (d : Dev) (t : PTag) : Dev :=
  let evs := d.evt.held.filter fun p => p.1 == t
  let d := { d with evt := { d.evt with held := d.evt.held.filter (fun p => p.1 != t), counts := d.evt.counts.filter (fun c => c.tag != t) } }
  evs.foldl (fun d p => d.dropEvent p.2) d

end Sys2Proof.Machine
end

