-- ==== Sys2Proof/Machine/Memory.lean ====
section
/-! DEFINITION. Reads and writes of the three memories under their codes (R376–R383, R396): corrections, poison, write-backs,
the flip mask. -/

namespace Sys2Proof.Machine

/-- No error. -/
def eccNone (_ : Nat) : EccErr := {}

/-- The number of set bits. -/
def popcount (n : Nat) (w : Nat) : Nat := ((List.range w).filter fun i => n.testBit i).length

/-- How many units of error a word holds (R378): bits on chip, bytes on the stack. -/
def EccErr.units (e : EccErr) (stack : Bool) : Nat :=
  if stack then
    ((List.range 32).filter fun i => field e.data (8 * i) 8 != 0).length
      + ((List.range 4).filter fun i => field e.check (8 * i) 8 != 0).length
  else popcount e.data 256 + popcount e.check 10

/-- What a read of a word finds (R378): clean, correctable, uncorrectable, or more errors than the code detects. -/
inductive EccFind where
  | clean | corr | uncorr | beyond
deriving DecidableEq, Repr

/-- Classify a word's error (R378, R381). -/
def EccErr.find (e : EccErr) (stack : Bool) : EccFind :=
  if e.poison then .uncorr
  else
    let n := e.units stack
    if n = 0 then .clean
    else if n = 1 then .corr
    else if n = 2 then .uncorr
    else if stack && n == 3 then .uncorr
    else .beyond

/-- Whether the word at key `32 w` lies in the stack. -/
def wordOnStack (w : Nat) : Bool := targetOf (32 * w) == 0x11

/-- The bank (on chip) or channel (stack) of a word (R376, R377), each numbered apart. -/
def bankOf (w : Nat) : Nat :=
  let k := 32 * w
  let t := targetOf k
  if t < 0x10 then 1000 + t * 32 + (physOf k / 32) % 32
  else if t = 0x10 then 2000 + (physOf k / 256) % 64
  else (physOf k / 2048) % 32

/-- Words a write-back queue holds (R380): 4 per on-chip bank, 16 per channel. -/
def wbCapacity (w : Nat) : Nat := if wordOnStack w then 16 else 4

/-- The MEM instance byte of a word's events (R397). -/
def memInst (w : Nat) : Nat := if wordOnStack w then bankOf w else targetOf (32 * w)

/-- Where an ECC record points (R397, R398): the instance, the target code of MEM_FLIP_ADDR, the address and the requester. -/
structure EccAt where
  inst : Nat
  target : Nat
  addr : Nat
  req : Nat

/-- The place of a word of the three memories. -/
def eccAt (w : Nat) (who : Who) : EccAt :=
  ⟨memInst w, targetOf (32 * w), physOf (32 * w), if wordOnStack w then who.sreq else who.hreq⟩

/-- Detail of an ECC record (R397); the syndrome in bytes 26 and 27 is a free value (log 6). -/
def eccDetail (a : EccAt) (kind count syndrome : Nat) : Nat :=
  dAt 16 8 (a.addr % 2 ^ 48 + a.target * 2 ^ 56) + dAt 24 1 a.req + dAt 25 1 kind + dAt 26 2 syndrome + dAt 28 4 count

/-- Count and report a correction at a place (R380). -/
def Dev.corrAt (d : Dev) (a : EccAt) (ctx gen kind : Nat) : Dev :=
  let d := d.bump R.MEM_CORR_COUNT
  let (syn, d) := d.fresh
  d.raise 0x0902 a.inst ctx gen (eccDetail a kind (d.reg R.MEM_CORR_COUNT).toNat syn)

/-- Count and report an uncorrectable detection at a place (R381). -/
def Dev.uncorrAt (d : Dev) (a : EccAt) (ctx gen kind : Nat) : Dev :=
  let d := d.bump R.MEM_UNCORR_COUNT
  let d := d.setF F.MEM_LAST_ERR_address a.addr
  let d := d.setF F.MEM_LAST_ERR_target a.target
  let (syn, d) := d.fresh
  d.raise 0x0903 a.inst ctx gen (eccDetail a kind (d.reg R.MEM_UNCORR_COUNT).toNat syn)

/-- Count and report a correction of a word (R380). -/
def Dev.noteCorr (d : Dev) (w : Nat) (who : Who) (kind : Nat) : Dev := d.corrAt (eccAt w who) who.ctx who.gen kind

/-- Count and report an uncorrectable word (R381). -/
def Dev.noteUncorr (d : Dev) (w : Nat) (who : Who) (kind : Nat) : Dev := d.uncorrAt (eccAt w who) who.ctx who.gen kind

/-- Queue a write-back of a word, or drop it when its bank's or channel's queue is full (R380). -/
def Dev.queueWb (d : Dev) (w : Nat) (poison : Bool) (who : Who) : Dev :=
  if d.memc.wb.any (fun x => x.word == w) then d
  else if (d.memc.wb.filter fun x => bankOf x.word == bankOf w).length < wbCapacity w then
    { d with memc := { d.memc with wb := d.memc.wb ++ [⟨w, poison⟩] } }
  else
    let d := d.bump R.MEM_WB_DROP
    let (syn, d) := d.fresh
    d.raise 0x0904 (memInst w) who.ctx who.gen (eccDetail (eccAt w who) 3 (d.reg R.MEM_WB_DROP).toNat syn)

/-- The error of a word as the next read meets it: an on-chip word whose correction waits in the write-back buffer is read
from the buffer (R380). -/
def Dev.wordErr (d : Dev) (w : Nat) : EccErr :=
  if !wordOnStack w && d.memc.wb.any (fun x => x.word == w && !x.poison) then {} else SMap.get eccNone d.ecc w

/-- Read the words with errors in a range: the device after counting and queueing, the keys of the uncorrectable words, and
the words whose data a code beyond its detection has changed, with their free data (R378). `counts` says whether this read
is the one that counts (a served stack request has counted its word already). -/
def Dev.scanRead (d : Dev) (ws : List Nat) (who : Who) (kind : Nat) (counts : Bool) :
    Dev × List Nat × List (Nat × Nat) :=
  ws.foldl (fun (acc : Dev × List Nat × List (Nat × Nat)) w =>
    let (d, bad, wrong) := acc
    let counts := counts && !d.memc.served.contains (who.sreq, w)
    match (d.wordErr w).find (wordOnStack w) with
    | .clean => (d, bad, wrong)
    | .corr => if counts then ((d.noteCorr w who kind).queueWb w false who, bad, wrong) else (d, bad, wrong)
    | .uncorr =>
      let d := if counts then d.noteUncorr w who kind else d
      let d := if (d.wordErr w).poison then d else d.queueWb w true who
      (d, bad ++ [w], wrong)
    | .beyond =>
      let (how, d) := d.fresh
      if how % 3 = 0 then ((d.noteUncorr w who kind).queueWb w true who, bad ++ [w], wrong)
      else
        let (v, d) := d.fresh
        if how % 3 = 1 then ((d.noteCorr w who kind).queueWb w false who, bad, wrong ++ [(w, v)])
        else (d, bad, wrong ++ [(w, v)])) (d, [], [])

/-- The words of a range that hold an error. -/
def Dev.badWords (d : Dev) (key n : Nat) : List Nat :=
  (d.ecc.filter fun e => decide (key / 32 ≤ e.1) && decide (32 * e.1 < key + n)).map (·.1)

/-- Lay free data over the bytes of words read beyond their code. -/
def overlayWrong (key : Nat) (bs : List Byte) (wrong : List (Nat × Nat)) : List Byte :=
  wrong.foldl (fun bs p =>
    (List.range bs.length).map fun i =>
      if (key + i) / 32 = p.1 then BitVec.ofNat 8 (p.2 >>> (8 * ((key + i) % 32))) else bs.getD i 0) bs

/-! ### Memory of domains that are off (R484, R485) -/

/-- The bits of PWR_DOMAIN_ON whose domains hold memory: ploughs, Barn, stacks. -/
def memDomains : Nat := 0x3F0FFFF

/-- The power domain of a word. -/
def wordDomain (w : Nat) : Nat :=
  let t := targetOf (32 * w)
  if t < 0x10 then t else if t = 0x10 then 20 + (physOf (32 * w) / 256) % 64 / 16 else 24 + bankOf w / 16

/-- The first word of a range whose domain is off. -/
def Dev.downWord (d : Dev) (key n : Nat) : Option Nat :=
  let on := d.getF F.PWR_DOMAIN_ON_on
  if on &&& memDomains = memDomains then none
  else ((List.range (n / 32 + 2)).map (key / 32 + ·)).find? fun w => decide (32 * w < key + n) && !on.testBit (wordDomain w)

/-- Read `n` bytes at a key under the code: the device, the bytes, and the first word (if any) that is uncorrectable. -/
def Dev.readKey (d : Dev) (key n : Nat) (who : Who) (kind : Nat := 0) (counts : Bool := true) : Dev × List Byte × Option Nat :=
  match d.downWord key n with
  | some w => (d, List.replicate n 0, some (32 * w))
  | none =>
    match d.badWords key n with
    | [] => (d, d.peek key n, none)
    | ws =>
      let (d, bad, wrong) := d.scanRead ws who kind counts
      (d, overlayWrong key (d.peek key n) wrong, bad.head?.map (32 * ·))

/-- The word that MEM_FLIP_ADDR names, when a flip is armed (R396). -/
def Dev.flipWord (d : Dev) : Option Nat :=
  let t := d.getF F.MEM_FLIP_ADDR_target
  if d.flag F.MEM_FLIP_CTL_arm && decide (t ≤ 0x11) && decide (d.getF F.MEM_FLIP_ADDR_address * 32 < targetSize t) then some (keyOf t (d.getF F.MEM_FLIP_ADDR_address * 32) / 32) else none

/-- The error a flip leaves in the word written (R396). -/
def Dev.flipErr (d : Dev) (onStack : Bool) : EccErr :=
  { data := (d.reg R.MEM_FLIP_DATA).toNat <<< (64 * d.getF F.MEM_FLIP_CTL_quarter),
    check := if onStack then d.getF F.MEM_FLIP_CHECK_mask else d.getF F.MEM_FLIP_CHECK_mask % 1024 }

/-- A range has been written in this M clock: an arm of the flip mask in the same clock still applies to it (R396). -/
def Dev.noteWrote (d : Dev) (key n : Nat) : Dev :=
  if d.locked || d.flag F.MEM_FLIP_CTL_arm then d
  else { d with memc := { d.memc with wrote := (d.mclk, key, n) :: d.memc.wrote.filter fun x => x.1 == d.mclk } }

/-- A flip that is armed applies to a write that its word has had in the same clock (R396). -/
def Dev.flipArmed (d : Dev) : Dev :=
  match d.flipWord with
  | none => d
  | some w =>
    if d.memc.wrote.any fun x => x.1 == d.mclk && decide (x.2.1 / 32 ≤ w) && decide (32 * w < x.2.1 + x.2.2) then
      ({ d with ecc := SMap.set eccNone d.ecc w { d.flipErr (wordOnStack w) with poison := (SMap.get eccNone d.ecc w).poison } } : Dev).setF
        F.MEM_FLIP_CTL_arm 0
    else d

/-- A word has been written with fresh check bits: its error goes, its queued write-back is discarded (R380), and an armed
flip applies to it (R396). -/
def Dev.wordWritten (d : Dev) (w : Nat) : Dev :=
  let d := { d with ecc := SMap.set eccNone d.ecc w {}, memc := { d.memc with wb := d.memc.wb.filter fun x => x.word != w } }
  if d.flipWord = some w then
    let d := { d with ecc := SMap.set eccNone d.ecc w (d.flipErr (wordOnStack w)) }
    d.hwClear F.MEM_FLIP_CTL_arm
  else d

/-- Whether the bytes `[key, key + n)` cover the whole word `w`. -/
def coversWord (key n w : Nat) : Bool := decide (key ≤ 32 * w) && decide (32 * w + 32 ≤ key + n)

/-- The words of a range that need more than a plain write: those with errors, those with a queued write-back, and the armed
flip word. -/
def Dev.oddWords (d : Dev) (key n : Nat) : List Nat :=
  let inR := fun w => decide (key / 32 ≤ w) && decide (32 * w < key + n)
  let a := d.badWords key n
  let b := (d.memc.wb.filter fun x => inR x.word && !a.contains x.word).map (·.word)
  match d.flipWord with
  | some w => if inR w && !(a ++ b).contains w then a ++ b ++ [w] else a ++ b
  | none => a ++ b

/-- Put back the bytes of a word that a write was not allowed to change. -/
def restoreWord (key : Nat) (bs old : List Byte) (w : Nat) : List Byte :=
  (List.range bs.length).map fun i => if (key + i) / 32 = w then old.getD i 0 else bs.getD i 0

/-- Write bytes at a key under the code (R382): the device and the first word that refused a partial write. -/
def Dev.writeKey (d : Dev) (key : Nat) (bs : List Byte) (who : Who) : Dev × Option Nat :=
  let n := bs.length
  if n = 0 then (d, none) else
  match d.downWord key n with
  | some w => (d, some (32 * w))
  | none =>
  match d.oddWords key n with
  | [] => ((d.poke key bs).noteWrote key n, none)
  | ws =>
    let old := d.peek key n
    let (d, bs, bad) := ws.foldl (fun (acc : Dev × List Byte × Option Nat) w =>
      let (d, bs, bad) := acc
      if coversWord key n w then (d.wordWritten w, bs, bad)
      else match (d.wordErr w).find (wordOnStack w) with
        | .clean => (d.wordWritten w, bs, bad)
        | .corr => ((d.noteCorr w who 1).wordWritten w, bs, bad)
        | .uncorr =>
          let d := d.noteUncorr w who 1
          let d := if (d.wordErr w).poison then d else d.queueWb w true who
          (d, restoreWord key bs old w, bad.orElse fun _ => some (32 * w))
        | .beyond =>
          let (how, d) := d.fresh
          if how % 3 = 0 then
            ((d.noteUncorr w who 1).queueWb w true who, restoreWord key bs old w, bad.orElse fun _ => some (32 * w))
          else
            let (v, d) := d.fresh
            let d := if how % 3 = 1 then d.noteCorr w who 1 else d
            ((d.poke (32 * w) (leBytes 32 v)).wordWritten w, bs, bad)) (d, bs, none)
    (if bad.isSome then d.poke key bs else (d.poke key bs).noteWrote key n, bad)

/-- A write of `n` bytes at `key` that would meet memory that is off (R485), or a partial one an uncorrectable word, is not
performed; the latter is a detection like any other (R86, R381, R382). `fresh` names words that a waiting write replaces. -/
def Dev.partialStop (d : Dev) (key n : Nat) (fresh : Nat → Bool) (who : Who) : Dev × Bool :=
  match d.downWord key n with
  | some _ => (d, true)
  | none =>
    match (d.badWords key n).find? fun w => !fresh w && !coversWord key n w && (d.wordErr w).find (wordOnStack w) == .uncorr with
    | none => (d, false)
    | some w =>
      let d := d.noteUncorr w who 1
      (if (d.wordErr w).poison then d else d.queueWb w true who, true)

/-- Fill (R394): zeros with fresh check bits over `n` bytes from a key. -/
def Dev.fillKey (d : Dev) (key n : Nat) : Dev :=
  let ws := d.oddWords key n
  let d := { d with mem := Memory.fill d.mem key n }
  ws.foldl (fun d w => d.wordWritten w) (d.noteWrote key n)

/-! ### Stack windows (R388) -/

/-- A stack window table entry. -/
structure StackWindow where
  start : Nat
  len : Nat
  channels : Nat
  req : Nat
  bound : Nat
deriving DecidableEq, Repr

/-- The entries of a STACK_WIN section. -/
def stackWindows (bs : List Byte) : List StackWindow :=
  (List.range (leAt bs 0 4)).map fun i =>
    let o := 64 + 16 * i
    { start := leAt bs o 4, len := leAt bs (o + 4) 4, channels := leAt bs (o + 8) 2, req := leAt bs (o + 10) 1,
      bound := leAt bs (o + 12) 4 }

/-- The windows of a channel, in start order (R377, R388). -/
def Dev.chanWindows (d : Dev) (ch : Nat) : List StackWindow :=
  (stackWindows (d.section 3 (ch / 16))).filter fun w => w.channels.testBit (ch % 16)

/-- The window of a channel that is open at this M clock; windows on one channel do not overlap (R389). -/
def Dev.chanWindow (d : Dev) (ch : Nat) : Option StackWindow :=
  (d.chanWindows ch).find? fun w => decide (w.start ≤ d.mcount) && decide (d.mcount < w.start + w.len)

/-- Open mode (R387). -/
def Dev.openMode (d : Dev) : Bool := d.flag F.MEM_STATUS_open_mode

/-- The channel of a word of stack memory (R377). -/
def chanOf (w : Nat) : Nat := (32 * w / 2048) % 32

/-- Enqueue stack requests of a requester (R45): one issued while no window of its requester is open on its channel is marked. -/
def Dev.stackRequest (d : Dev) (who : Who) (ws : List (Nat × Bool)) : Dev :=
  let reqs := ws.map fun x =>
    let inWin := d.openMode || (match d.chanWindow (chanOf x.1) with
      | some w => w.req == who.sreq
      | none => false)
    (⟨who.sreq, x.1, x.2, d.mclk, !inWin, who.ctx, who.gen⟩ : StackReq)
  { d with memc := { d.memc with reqs := d.memc.reqs ++ reqs } }

/-- The stack words of mapped pieces, as requests. -/
def pieceWords (write : Bool) (ps : List (Nat × Nat × BitVec 64)) : List (Nat × Bool) :=
  ps.foldl (fun acc x =>
    if targetOf x.1 == 0x11 && x.2.1 != 0 then
      acc ++ (List.range ((x.1 + x.2.1 - 1) / 32 - x.1 / 32 + 1)).map fun i => (x.1 / 32 + i, write)
    else acc) []

/-- The requesters whose accesses are made when their command runs and whose stack words then wait for their windows: swap engines, engines, the
Granary's walkers, USB and the management (R388; log 99). A DMA queue, a send and a receive issue their requests ahead, a Hedge walker its own; the
host's accesses wait as a whole (R420). -/
def touches (sreq : Nat) : Bool := (decide (0x40 ≤ sreq) && decide (sreq < 0x58)) || sreq == 0x5E || sreq == 0x5F

/-- The stack words of an access of such a requester become requests (R45); in open mode those of USB and of the management are served at once. -/
def Dev.stackTouch (d : Dev) (who : Who) (write : Bool) (ps : List (Nat × Nat × BitVec 64)) : Dev :=
  if touches who.sreq && !(d.openMode && decide (0x58 ≤ who.sreq)) then
    match (pieceWords write ps).filter fun x => !(d.memc.reqs.any fun y => y.req == who.sreq && y.ctx == who.ctx && y.word == x.1 && y.write == x.2) with
    | [] => d
    | ws => d.stackRequest who ws
  else d

/-- A requester still has requests of a context waiting. -/
def Dev.stackBusy (d : Dev) (sreq ctx : Nat) : Bool := d.memc.reqs.any fun x => x.req == sreq && x.ctx == ctx

end Sys2Proof.Machine
end

