-- ==== Sys2Proof/Machine/Hedge.lean ====
section
/-! DEFINITION. The Hedge: page table entries, translation and its checks, provisional regions (R58, R152–R159, R524). -/

namespace Sys2Proof.Machine

/-! ### Page table entries (R153) -/

/-- Field bits of a page table entry. -/
def pteF (p : BitVec 64) (lsb w : Nat) : Nat := field p.toNat lsb w

/-- Bytes of a page by its size code (R153); code 3 is reserved. -/
def pageBytes (code : Nat) : Nat := if code = 0 then 0x1000 else if code = 1 then 0x10000 else if code = 2 then 0x200000 else 0

/-- The memory target of an entry: 0 to 15 local store, 0x10 Barn, 0x11 stack; 0x12 for the reserved code. -/
def pteTarget (p : BitVec 64) : Nat :=
  match pteF p 8 2 with
  | 0 => pteF p 10 4
  | 1 => 0x10
  | 2 => 0x11
  | _ => 0x12

/-- The provisional attribute of an entry: its region and schedule. -/
def pteProv (p : BitVec 64) : Option (Nat × Nat) := if p.getLsbD 14 then some (pteF p 18 8, pteF p 15 3) else none

/-- A leaf entry for a range: attribute bits [25:4], size code, and the frame of a physical address (R153, R358). -/
def mkPte (attrs size phys : Nat) : BitVec 64 :=
  BitVec.ofNat 64 (3 + size * 4 + (field attrs 4 22) * 16 + (phys / 4096) * 2 ^ 26)

/-- Whether an entry breaks R153 or R376: reserved size or target, a frame at or past the end of its target, a frame not on
its page. -/
def pteBad (p : BitVec 64) : Bool :=
  let size := pageBytes (pteF p 2 2)
  let phys := pteF p 26 36 * 4096
  size == 0 || pteTarget p == 0x12 || !p.getLsbD 1 || pteF p 62 2 != 0 || decide (targetSize (pteTarget p) < phys + size)
    || phys % size != 0

/-- A leaf that maps an address. -/
def Leaf.covers (l : Leaf) (va : Nat) : Bool := decide (l.va ≤ va) && decide (va < l.va + l.size)

/-! ### The management address space (R524) -/

/-- The address space of the management tables among those of the context IDs. -/
def mgmtSpace : Nat := 4096

/-- Whether a range meets a page. -/
def meets (lo n page size : Nat) : Bool := decide (lo < page + size) && decide (page < lo + n)

/-- The attribute bits of a management page: r and w, ext unless a protected range meets the page, the provisional attributes of
the region that meets it. -/
def Dev.mgmtBits (d : Dev) (page size target plough : Nat) : Nat :=
  let ext := !(d.hedge.noExt.any fun r => meets r.1 r.2 page size)
  let pbits := match d.hedge.prov.find? fun r => meets r.1 r.2.1 page size with
    | some r => 2 ^ 14 + (r.2.2.1 % 8) * 2 ^ 15 + (r.2.2.2 % 256) * 2 ^ 18
    | none => 0
  0x30 + b2n ext * 0x80 + target * 0x100 + plough * 0x400 + pbits

/-- A page is whole when no protected or provisional range meets only a part of it; else the Steward splits it into pages of 4 KiB (R524). -/
def Dev.mgmtWhole (d : Dev) (page size : Nat) : Bool :=
  let ok := fun (lo n : Nat) => !meets lo n page size || (decide (lo ≤ page) && decide (page + size ≤ lo + n))
  (d.hedge.noExt.all fun r => ok r.1 r.2) && d.hedge.prov.all fun r => ok r.1 r.2.1

/-- A page of the management space with its own attributes. -/
def Dev.mgmtPage (d : Dev) (va target plough base code : Nat) : Leaf :=
  let big := pageBytes code
  let whole := d.mgmtWhole (va / big * big) big
  let size := if whole then big else 0x1000
  let page := va / size * size
  ⟨page, size, mkPte (d.mgmtBits page size target plough) (if whole then code else 0) (page - base)⟩

/-- The leaf of the management space that maps an address: the fixed layout with 2 MiB pages of the stack and 64 KiB pages of the Barn and
the local stores; `none` where nothing is mapped. -/
def Dev.mgmtLeaf (d : Dev) (va : Nat) : Option Leaf :=
  if va < 0xC00000000 then some (d.mgmtPage va 2 0 0 2)
  else if barnKey ≤ va ∧ va < barnKey + 0x3000000 then some (d.mgmtPage va 1 0 barnKey 1)
  else if lsKey 0 ≤ va ∧ va < lsKey 16 ∧ (va - lsKey 0) % 0x1000000 < 0x600000 then
    let n := (va - lsKey 0) / 0x1000000
    some (d.mgmtPage va 0 n (lsKey n) 1)
  else none

/-! ### Tables (R152, R153, R158) -/

/-- The cached translation of a page, if it is held for this space and generation (R158). -/
def Dev.tlbHit (d : Dev) (ctx gen va : Nat) : Option Leaf :=
  (d.hedge.tlb.find? fun t => t.ctx == ctx && t.gen == gen && t.leaf.covers va).map (·.leaf)

/-- The leaf that a space's tables hold for an address. -/
def Dev.tableLeaf (d : Dev) (ctx va : Nat) : Option Leaf :=
  if ctx = mgmtSpace then d.mgmtLeaf va else (SMap.get (fun _ => []) d.hedge.tables ctx).find? (·.covers va)

/-- An entry of a table (R153): not in use, a pointer to the next table, or a page; the words hold what mkPte lays out, a pointer's
permission and provisional fields being zero. -/
inductive TableEntry where
  | invalid
  | table
  | page (l : Leaf)
deriving DecidableEq, Repr

/-- The virtual address bits below the index of a level: 39, 30, 21, 12 (R153). -/
def levelShift (level : Nat) : Nat := 39 - 9 * level

/-- The level at which a page's leaf stands (R153). -/
def Leaf.level (l : Leaf) : Nat := if l.size = 0x200000 then 2 else 3

/-- Whether the tables of a space have something below the entry of a level that an address selects. -/
def Dev.tableBelow (d : Dev) (ctx level va : Nat) : Bool :=
  let span := 2 ^ levelShift level
  if ctx = mgmtSpace then
    let page := va / span * span
    meets 0 0xC00000000 page span || meets barnKey 0x3000000 page span
      || (List.range 16).any fun n => meets (lsKey n) 0x600000 page span
  else (SMap.get (fun _ => []) d.hedge.tables ctx).any fun l => meets l.va l.size (va / span * span) span

/-- The entry that a walk reads at a level (R153). -/
def Dev.tableEntry (d : Dev) (ctx level va : Nat) : TableEntry :=
  match d.tableLeaf ctx va with
  | some l => if l.level = level then .page l else .table
  | none => if level < 3 && d.tableBelow ctx level va then .table else .invalid

/-- Whether an entry breaks R153 at its level. -/
def TableEntry.bad (level : Nat) : TableEntry → Bool
  | .invalid => false
  | .table => level == 3
  | .page l => decide (level < 2) || l.level != level || pteBad l.pte

/-- The word of the context table entry of an ID in stack memory (R152). -/
def Dev.ctxTableKey (d : Dev) (id : Nat) : Nat := d.getF F.HEDGE_CTX_TABLE_base * 0x10000 + 16 * id

/-- Whether the read of a table word meets an uncorrectable error (R155 step 5, R383). -/
def Dev.tableWordBad (d : Dev) (key : Nat) : Bool :=
  !d.ecc.isEmpty && (d.wordErr (key / 32)).find (wordOnStack (key / 32)) == .uncorr

/-- Whether the context table read of a walk meets an uncorrectable error (R155 step 5, R383). -/
def Dev.ctxTableBad (d : Dev) (id : Nat) : Bool := id != mgmtSpace && d.tableWordBad (d.ctxTableKey id)

/-- The address of the table entry that a walk reads at a level: in the root that the context table or HEDGE_MGMT_ROOT names, or in the page
of tables that the level above points to, whose placement is the Steward's (log 31). -/
def tableAddr (ctx gen level va : Nat) : Nat :=
  let idx := 8 * (va / 2 ^ levelShift level % 512)
  if level = 0 then (if ctx = mgmtSpace then Config.mgmtRoot else Config.tableRoot ctx gen) / 4096 % 2 ^ 36 * 4096 + idx
  else Config.tablePage ctx gen level (va / 2 ^ levelShift (level - 1)) % 2 ^ 23 * 4096 + idx

/-- The walk of a translation from a level on (R153, R155 steps 4 and 5): the leaf, or the reason. -/
def Dev.walkFrom (d : Dev) (ctx gen va : Nat) : Nat → Nat → Except Nat Leaf
  | 0, _ => .error 0x07
  | fuel + 1, level =>
    if d.tableWordBad (tableAddr ctx gen level va) then .error 0x07
    else
      let e := d.tableEntry ctx level va
      if e.bad level then .error 0x07
      else match e with
        | .invalid => .error 0x01
        | .page l => .ok l
        | .table => Dev.walkFrom d ctx gen va fuel (level + 1)

/-- A whole walk: the context table, then the four levels. -/
def Dev.walk (d : Dev) (ctx gen va : Nat) : Except Nat Leaf :=
  if d.ctxTableBad ctx then .error 0x07 else d.walkFrom ctx gen va 4 0

/-- The stack words that a walk reads: the context table entry and the entries of the levels that are not cached, down to the last (R158,
R159). -/
def Dev.walkWords (d : Dev) (ctx gen va : Nat) : List Nat :=
  let cached := fun (level : Nat) => d.hedge.nodes.contains (ctx * 2 ^ 20 + gen, level, va / 2 ^ levelShift level)
  let root := if ctx = mgmtSpace || cached 0 then [] else [d.ctxTableKey ctx / 32]
  let depth := fun (level : Nat) => (List.range level).all fun k => d.tableEntry ctx k va == .table
  root ++ ((List.range 4).filter fun k => depth k && !cached k).map fun k => tableAddr ctx gen k va / 32

/-- The set bit of a fence on an ID (R161): from the fence's first step on. -/
def Dev.fenced (d : Dev) (id : Nat) : Bool := d.hedge.fences.any fun f => f.ctx == id && decide (1 ≤ f.step)

/-- Whether a generation is the current one of a live ID (R37, R155 step 2). -/
def Dev.genOk (d : Dev) (id gen : Nat) : Bool := (d.ctxOf id).live && (d.ctxOf id).gen == gen

/-- The state of a provisional region (R58). -/
def Dev.region (d : Dev) (g : Nat) : PRegion := SMap.get (fun _ => {}) d.hedge.regions g

/-- Set the state of a provisional region. -/
def Dev.setRegion (d : Dev) (g : Nat) (r : PRegion) : Dev :=
  { d with hedge := { d.hedge with regions := SMap.set (fun _ => {}) d.hedge.regions g r } }

/-- The checks of R155 from step 4 on, over the entry found. -/
def Dev.checkPte (d : Dev) (q : XReq) (left : Nat) (off : Nat) (p : BitVec 64) : XRes :=
  if !p.getLsbD 0 then .fail 0x01
  else if pteBad p then .fail 0x07
  else if q.exec && !p.getLsbD 6 then .fail 0x04
  else if !q.exec && q.write && !p.getLsbD 5 then .fail 0x03
  else if !q.exec && !q.write && !p.getLsbD 4 then .fail 0x02
  else if q.ext && !p.getLsbD 7 then .fail 0x05
  else if (match q.lslot with
      | some n => pteTarget p != 0x10 && pteTarget p != n
      | none => false) then .fail 0x0A
  else if q.write && (q.ext || q.mgmt) && (match pteProv p with
      | some (g, _) => (d.region g).state == 1
      | none => false) then .fail 0x0B
  else .ok (keyOf (pteTarget p) (pteF p 26 36 * 4096) + off) left p

/-- The space and generation that tag a request's translations. -/
def XReq.space (q : XReq) : Nat × Nat := if q.mgmt then (mgmtSpace, 0) else (q.ctx, q.gen)

/-- The cached leaf of an address, or the walk's. -/
def Dev.leafOf (d : Dev) (ctx gen va : Nat) : Except Nat Leaf :=
  match d.tlbHit ctx gen va with
  | some l => .ok l
  | none => d.walk ctx gen va

/-- Steps 4 and on of R155: the leaf, then the checks of its entry. -/
def Dev.xlateLeaf (d : Dev) (q : XReq) : XRes :=
  match d.leafOf q.space.1 q.space.2 q.va with
  | .ok l => d.checkPte q (l.va + l.size - q.va) (q.va - l.va) l.pte
  | .error r => .fail r

/-- Translate and check a request: the steps of R155 in order. -/
def Dev.xlate (d : Dev) (q : XReq) : XRes :=
  if !q.mgmt && d.fenced q.ctx then .fail 0x08
  else if !q.mgmt && !d.genOk q.ctx q.gen then .fail 0x09
  else if 2 ^ 48 ≤ q.va then .fail 0x06
  else d.xlateLeaf q

/-- The page table entry a request's walk ends at, before the permission checks. -/
def Dev.pteOf (d : Dev) (ctx va : Nat) : Option (BitVec 64) := (d.tableLeaf ctx va).map (·.pte)

/-- Where the page that an address lies in begins: that of its leaf, or of its 4 KiB. -/
def Dev.pageOf (d : Dev) (ctx va : Nat) : Nat := ((d.tableLeaf ctx va).map (·.va)).getD (va / 0x1000 * 0x1000)

/-- Register a miss: a request whose page is not cached waits for a walker (R159). -/
def Dev.noteMiss (d : Dev) (q : XReq) : Dev :=
  let sp := q.space
  if (!q.mgmt && (d.fenced q.ctx || !d.genOk q.ctx q.gen)) || decide (2 ^ 48 ≤ q.va) || (d.tlbHit sp.1 sp.2 q.va).isSome then d
  else
    let va := d.pageOf sp.1 q.va
    if d.hedge.waiting.any (fun w => w.req == q.req && w.ctx == sp.1 && w.gen == sp.2 && w.va == va)
      || d.hedge.walks.any (fun w => w.req == q.req && w.ctx == sp.1 && w.gen == sp.2 && w.va == va) then d
    else { d with hedge := { d.hedge with waiting := d.hedge.waiting ++ [⟨q.req, sp.1, sp.2, va⟩] } }

/-- Register the misses of a range, page by page, up to one that translates to nothing. -/
def Dev.noteMisses (d : Dev) (q : XReq) : Nat → Nat → Dev
  | 0, _ => d
  | fuel + 1, n =>
    if n = 0 then d
    else
      let d1 := d.noteMiss q
      match d.xlate q with
      | .fail _ => d1
      | .ok _ left _ => if n ≤ left then d1 else Dev.noteMisses d1 { q with va := q.va + left } fuel (n - left)

/-- A refused request is counted when its generation is stale (R155). -/
def Dev.noteStale (d : Dev) (r : Nat) : Dev := if r = 0x09 then d.bump R.HEDGE_GEN_DISCARD else d

/-- Translate `n` bytes from a virtual address, page by page, over at most `fuel` pages: the physical pieces in order, or the
first failing address and its reason. -/
def Dev.xlateRange (d : Dev) (q : XReq) : Nat → Nat → Except (Nat × Nat) (List (Nat × Nat × BitVec 64))
  | 0, _ => .ok []
  | fuel + 1, n =>
    if n = 0 then .ok []
    else match d.xlate q with
      | .fail r => .error (q.va, r)
      | .ok k left p =>
        if n ≤ left then .ok [(k, n, p)]
        else match Dev.xlateRange d { q with va := q.va + left } fuel (n - left) with
          | .ok ps => .ok ((k, left, p) :: ps)
          | .error e => .error e

/-- Pages that `n` bytes can touch. -/
def pagesOf (n : Nat) : Nat := n / 0x1000 + 2

/-- The detail bytes of the Hedge's codes (R162). -/
def hedgeDetail (va req reason bits dq low : Nat) : Nat :=
  dAt 16 8 va + dAt 24 1 req + dAt 25 1 reason + dAt 26 1 bits + dAt 27 1 dq + dAt 28 4 low

/-- Raise XLATE_FAULT for a requester (R156, R162). -/
def Dev.xlateFault (d : Dev) (q : XReq) (va reason : Nat) (tag : Option PTag := none) : Dev :=
  d.raiseFor tag 0x0824 q.req q.ctx q.gen (hedgeDetail va q.req reason (b2n q.write + 2 * b2n q.ext) 0 0)

/-- Whether a translated page belongs to an OPEN provisional region (R58). -/
def Dev.pteOpen (d : Dev) (p : BitVec 64) : Bool :=
  match pteProv p with
  | some (g, _) => (d.region g).state == 1
  | none => false

/-! ### Accesses of the management space (R58, R156) -/

/-- Read through the management space: bytes of OPEN regions read zero, are counted and reported (R58, R156). The second
component is the bytes, or the failing reason (0x10 for an uncorrectable error). -/
def Dev.mgmtRead (d : Dev) (req sreq : Nat) (ext : Bool) (va n : Nat) (ctx : Nat := 0) (gen : Nat := 0) : Dev × Except Nat (List Byte) :=
  let q : XReq := { req := req, va := va, ext := ext, mgmt := true }
  let d := d.noteMisses q (pagesOf n) n
  match d.xlateRange q (pagesOf n) n with
  | .error e => (d.xlateFault q e.1 e.2, .error e.2)
  | .ok ps =>
    let isOpen := ps.any fun x => d.pteOpen x.2.2
    let d := d.stackTouch ⟨req, sreq, ctx, gen⟩ false ps
    let (d, bs, bad) := ps.foldl (fun (acc : Dev × List Byte × Option Nat) x =>
      let (d, bs, bad) := acc
      if d.pteOpen x.2.2 then (d, bs ++ List.replicate x.2.1 0, bad)
      else
        let (d, b, e) := d.readKey x.1 x.2.1 ⟨req, sreq, ctx, gen⟩
        (d, bs ++ b, bad.orElse fun _ => e)) (d, [], none)
    let d := if isOpen then
        (d.bump R.HEDGE_EXT_PROV).raise 0x0825 req 0 0 (hedgeDetail va req 0 (2 * b2n ext) 0 0)
      else d
    match bad with
    | some _ => (d, .error 0x10)
    | none => (d, .ok bs)

/-- Write through the management space; a refusal writes nothing (R155, R156). The answer is the failing reason, 0x10 for an
uncorrectable error. -/
def Dev.mgmtWrite (d : Dev) (req sreq : Nat) (ext : Bool) (va : Nat) (bs : List Byte) (quiet : Bool := false) (ctx : Nat := 0)
    (gen : Nat := 0) : Dev × Option Nat :=
  let q : XReq := { req := req, va := va, ext := ext, mgmt := true, write := true }
  let d := d.noteMisses q (pagesOf bs.length) bs.length
  match d.xlateRange q (pagesOf bs.length) bs.length with
  | .error e => (if quiet then d else d.xlateFault q e.1 e.2, some e.2)
  | .ok ps =>
    let (d, _, bad) := ps.foldl (fun (acc : Dev × List Byte × Option Nat) x =>
      let (d, rest, bad) := acc
      let (d, e) := d.writeKey x.1 (rest.take x.2.1) ⟨req, sreq, ctx, gen⟩
      (d, rest.drop x.2.1, bad.orElse fun _ => e)) (d.stackTouch ⟨req, sreq, ctx, gen⟩ true ps, bs, none)
    (d, bad.map fun _ => 0x10)

/-- The pieces of a write by memory words of 32 bytes. -/
def wordPieces : Nat → Nat → List Byte → List (Nat × List Byte)
  | 0, _, _ => []
  | fuel + 1, va, bs =>
    if bs.isEmpty then [] else (va, bs.take (32 - va % 32)) :: wordPieces fuel (va + (32 - va % 32)) (bs.drop (32 - va % 32))

/-- Write through the management space word by word, up to the first access that fails: the writes before it stay (R445). -/
def Dev.mgmtWriteEach (d : Dev) (req sreq : Nat) (ext : Bool) (va : Nat) (bs : List Byte) : Dev × Option Nat :=
  (wordPieces (bs.length / 32 + 2) va bs).foldl (fun (acc : Dev × Option Nat) x =>
    match acc with
    | (d, some r) => (d, some r)
    | (d, none) => d.mgmtWrite req sreq ext x.1 x.2) (d, none)

/-- Whether a range of the management space can be read or written, without doing it. -/
def Dev.mgmtOk (d : Dev) (req : Nat) (ext write : Bool) (va n : Nat) : Bool :=
  match d.xlateRange { req := req, va := va, ext := ext, mgmt := true, write := write } (pagesOf n) n with
  | .ok _ => true
  | .error _ => false

/-! ### Accesses of a context's engine, DMA or link work (R36, R58, R59, R156) -/

/-- How an engine's or DMA's access of a range fails: a reason of R155, a provisional rule (R58, R59, answered with DMA_PROV),
or an uncorrectable error. -/
inductive AccErr where
  | xlate (va reason : Nat)
  | prov (va : Nat)
  | ecc (key : Nat)
deriving DecidableEq, Repr

/-- R58 and R59 for a read under a tag: an OPEN region is read only by a context with tolerance for its schedule, and under a
tag only of the tag's own schedule. -/
def Dev.readProvOk (d : Dev) (ctx : Nat) (tag : Option PTag) (p : BitVec 64) : Bool :=
  match pteProv p with
  | none => true
  | some (g, s) =>
    if (d.region g).state == 1 then
      d.tolerates ctx s && (match tag with
        | some t => t.sched == s
        | none => true)
    else true

/-- R58 and R59 for a write under a tag: provisional work writes only provisional storage of its schedule that is not OPEN for
another mark; committed work writes any region as ordinary storage. -/
def Dev.writeProvOk (d : Dev) (tag : Option PTag) (p : BitVec 64) : Bool :=
  match tag, pteProv p with
  | none, _ => true
  | some _, none => false
  | some t, some (g, s) => s == t.sched && ((d.region g).state != 1 || (d.region g).mark == t.mark)

/-- The first write in provisional mode opens the region (R58). -/
def Dev.openRegion (d : Dev) (tag : Option PTag) (p : BitVec 64) : Dev :=
  match tag, pteProv p with
  | some t, some (g, s) => d.setRegion g { state := 1, sched := s, mark := t.mark }
  | _, _ => d

/-- The requesters that read no OPEN region outside provisional mode, whatever the context tolerates: the Sieve and the Mill (R295, R318). -/
def Who.strict (w : Who) : Bool := w.sreq == 0x51 || w.sreq == 0x52

/-- Read a range for an engine, a DMA queue or the link in a context: translated, checked, read under the code. -/
def Dev.ctxRead (d : Dev) (who : Who) (tag : Option PTag) (va n : Nat) (counts : Bool := true) : Dev × Except AccErr (List Byte) :=
  let q : XReq := { req := who.hreq, ctx := who.ctx, gen := who.gen, va := va }
  let d := d.noteMisses q (pagesOf n) n
  match d.xlateRange q (pagesOf n) n with
  | .error e => (d.noteStale e.2, .error (.xlate e.1 e.2))
  | .ok ps =>
    if ps.any fun x => !d.readProvOk who.ctx tag x.2.2 || (who.strict && tag.isNone && d.pteOpen x.2.2) then (d, .error (.prov va))
    else
      let d := d.stackTouch who false ps
      let (d, bs, bad) := ps.foldl (fun (acc : Dev × List Byte × Option Nat) x =>
        let (d, bs, bad) := acc
        let (d, b, e) := d.readKey x.1 x.2.1 who 0 counts
        (d, bs ++ b, bad.orElse fun _ => e)) (d, [], none)
      match bad with
      | some k => (d, .error (.ecc k))
      | none => (d, .ok bs)

/-- Write a range for an engine, a DMA queue or the link in a context; a refused range writes nothing. -/
def Dev.ctxWrite (d : Dev) (who : Who) (tag : Option PTag) (va : Nat) (bs : List Byte) : Dev × Except AccErr Unit :=
  let q : XReq := { req := who.hreq, ctx := who.ctx, gen := who.gen, va := va, write := true }
  let d := d.noteMisses q (pagesOf bs.length) bs.length
  match d.xlateRange q (pagesOf bs.length) bs.length with
  | .error e => (d.noteStale e.2, .error (.xlate e.1 e.2))
  | .ok ps =>
    if ps.any fun x => !d.writeProvOk tag x.2.2 then (d, .error (.prov va))
    else
      let d := d.stackTouch who true ps
      let (d, _, bad) := ps.foldl (fun (acc : Dev × List Byte × Option Nat) x =>
        let (d, rest, bad) := acc
        let d := d.openRegion tag x.2.2
        let (d, e) := d.writeKey x.1 (rest.take x.2.1) who
        (d, rest.drop x.2.1, bad.orElse fun _ => e)) (d, bs, none)
      match bad with
      | some k => (d, .error (.ecc k))
      | none => (d, .ok ())

/-- Whether a context may write a range under a tag, without writing it. -/
def Dev.ctxWriteOk (d : Dev) (who : Who) (tag : Option PTag) (va n : Nat) : Except AccErr Unit :=
  match d.xlateRange { req := who.hreq, ctx := who.ctx, gen := who.gen, va := va, write := true } (pagesOf n) n with
  | .error e => .error (.xlate e.1 e.2)
  | .ok ps => if ps.any fun x => !d.writeProvOk tag x.2.2 then .error (.prov va) else .ok ()

/-- Report an engine's failed access (R156): XLATE_FAULT for a translation, DMA_PROV for a provisional rule (R162). A stale
generation is discarded without a report (R155). -/
def Dev.reportAcc (d : Dev) (who : Who) (tag : Option PTag) (write : Bool) (e : AccErr) : Dev :=
  match e with
  | .xlate va r =>
    if r = 0x09 then d
    else d.raiseFor tag 0x0824 who.hreq who.ctx who.gen (hedgeDetail va who.hreq r (b2n write) 0 0)
  | .prov va => d.raiseFor tag 0x0826 who.hreq who.ctx who.gen (hedgeDetail va who.hreq 0 (b2n write) 0 0)
  | .ecc _ => d

end Sys2Proof.Machine
end

