-- ==== Sys2Proof/Machine/Operands.lean ====
section
/-! DEFINITION. Slot words: their fields, reserved bits and guard (R63, R64), and a plough's registers as a bundle reads them
(R35, R65–R67). -/

namespace Sys2Proof.Machine

/-! ### Slot fields -/

/-- Field of a slot word. -/
def wf' (w : BitVec 64) (lsb n : Nat) : Nat := field w.toNat lsb n

/-- rd, ra, rb of layout RR and RI. -/
def fRd (w : BitVec 64) : Nat := wf' w 45 6
/-- The ra field. -/
def fRa (w : BitVec 64) : Nat := wf' w 39 6
/-- The rb field. -/
def fRb (w : BitVec 64) : Nat := wf' w 33 6
/-- imm32, sign-extended to 64 bits. -/
def fImm (w : BitVec 64) : BitVec 64 := (w.extractLsb' 0 32).signExtend 64
/-- imm32 as a signed number. -/
def fImmInt (w : BitVec 64) : Int := (w.extractLsb' 0 32).toInt

/-- Whether all the listed fields (lsb, width) are zero. -/
def zeros (w : BitVec 64) (l : List (Nat × Nat)) : Bool := l.all fun x => wf' w x.1 x.2 == 0

/-- Slots of a bundle (R62). -/
def slotK : Nat := 0
/-- S0 or S1. -/
def slotS (s1 : Bool) : Nat := if s1 then 2 else 1
/-- The vector slot. -/
def slotV : Nat := 3
/-- The matrix slot. -/
def slotM : Nat := 4
/-- L0 or L1. -/
def slotL (l1 : Bool) : Nat := if l1 then 6 else 5
/-- The exchange slot. -/
def slotX : Nat := 7

/-! ### Register files (R35) -/

/-- A scalar register; s0 reads zero. -/
def Plough.rdS (pl : Plough) (n : Nat) : BitVec 64 := if n = 0 then 0 else SMap.get (fun _ => 0) pl.s n
/-- A predicate; p0 reads 1. -/
def Plough.rdP (pl : Plough) (n : Nat) : Bool := if n = 0 then true else pl.p.getLsbD n
/-- A vector register. -/
def Plough.rdV (pl : Plough) (n : Nat) : BitVec 8192 := SMap.get (fun _ => 0) pl.v n
/-- A descriptor register. -/
def Plough.rdD (pl : Plough) (n : Nat) : BitVec 512 := SMap.get (fun _ => 0) pl.d n
/-- Index of an accumulator element: bank, row, column. -/
def accIdx (bank row col : Nat) : Nat := (bank * 128 + row) * 128 + col
/-- An accumulator element. -/
def Plough.rdA (pl : Plough) (bank row col : Nat) : BitVec 32 := SMap.get (fun _ => 0) pl.a (accIdx bank row col)

/-- Write a scalar register; writes to s0 are discarded (R67). -/
def Plough.wrS (pl : Plough) (n : Nat) (v : BitVec 64) : Plough :=
  if n = 0 then pl else { pl with s := SMap.set (fun _ => 0) pl.s n v }
/-- Write a predicate; writes to p0 are discarded (R67). -/
def Plough.wrP (pl : Plough) (n : Nat) (b : Bool) : Plough :=
  if n = 0 then pl else { pl with p := BitVec.ofNat 16 (putBit pl.p.toNat n b) }
/-- Write a vector register. -/
def Plough.wrV (pl : Plough) (n : Nat) (v : BitVec 8192) : Plough := { pl with v := SMap.set (fun _ => 0) pl.v n v }
/-- Write a descriptor register. -/
def Plough.wrD (pl : Plough) (n : Nat) (v : BitVec 512) : Plough := { pl with d := SMap.set (fun _ => 0) pl.d n v }
/-- Write an accumulator element. -/
def Plough.wrA (pl : Plough) (bank row col : Nat) (v : BitVec 32) : Plough :=
  { pl with a := SMap.set (fun _ => 0) pl.a (accIdx bank row col) v }

/-- One accumulate step lands in an element (R110–R112, R118): an exact integer sum wraps in INT32, an exact sum of
products is added to the FP32 value with one rounding. -/
def accAdd (prev : BitVec 32) (zero : Bool) : StepSum → BitVec 32
  | .int v => BitVec.ofInt 32 ((if zero then 0 else prev.toInt) + v)
  | .flt v =>
    BitVec.ofNat 32 (Fp.rnd (Fp.addV (Fp.val (if zero then 0 else prev.toNat)) v))

/-- The rows of sums of one step added to an accumulator row. -/
def accRow (pl : Plough) (bank row : Nat) (zero : Bool) : Nat → List StepSum → Plough
  | _, [] => pl
  | c, x :: xs => accRow (pl.wrA bank row c (accAdd (pl.rdA bank row c) zero x)) bank row zero (c + 1) xs

/-- A result lands in its register, predicate, accumulator row or weight buffer; rows in memory and counts land elsewhere. -/
def Plough.land (pl : Plough) : Dest → Plough
  | .scalar n v => pl.wrS n v
  | .pred n b => pl.wrP n b
  | .vec n v => pl.wrV n v
  | .desc n v => pl.wrD n v
  | .accStep bank row zero sums => accRow pl bank row zero 0 sums
  | .accClear bank row => iter 128 pl fun c pl => pl.wrA bank row c 0
  | .memRow .. => pl
  | .counts .. => pl
  | .wbuf w b => if w = 0 then { pl with w0 := b } else { pl with w1 := b }

/-- The order in which results land (R66): by clock, then by the bundle's issue, then by slot. -/
def Pend.before (a b : Pend) : Bool :=
  decide (a.land < b.land) || (a.land == b.land && (decide (a.issue < b.issue) || (a.issue == b.issue && decide (a.slot ≤ b.slot))))

/-- Insert a result in landing order. -/
def insertPend (x : Pend) : List Pend → List Pend
  | [] => [x]
  | y :: ys => if Pend.before y x then y :: insertPend x ys else x :: y :: ys

/-- The results of a list in landing order. -/
def sortPend (l : List Pend) : List Pend := l.foldl (fun acc x => insertPend x acc) []

/-- The results whose clock has come. -/
def Plough.due (pl : Plough) (now : Nat) : List Pend := sortPend (pl.pend.filter fun x => decide (x.land ≤ now))

/-- The plough's registers as a bundle issuing at C clock `now` reads them (R65): every result due by then has landed. -/
def Plough.view (pl : Plough) (now : Nat) : Plough := (pl.due now).foldl (fun pl x => pl.land x.dst) pl

/-- The number of the Steward's core. -/
def stewCore : Nat := 16

/-- The clock of a core's results: the C clock of a plough; the Steward counts the bundles it has issued (R95). -/
def Dev.coreClock (d : Dev) (p : Nat) : Nat := if p = stewCore then d.stew.idx else d.cclk

/-- The Steward's registers as its next bundle reads them: a read waits for the result it names, so every result of the bundles before has
landed, in the order in which a plough lands them (R95). -/
def Plough.interlocked (pl : Plough) (idx : Nat) : Plough :=
  (sortPend (pl.pend.filter fun x => decide (x.issue < idx))).foldl (fun pl x => pl.land x.dst) pl

/-- A core's registers as a bundle issuing now reads them. -/
def Dev.pview (d : Dev) (p : Nat) : Plough :=
  if p = stewCore then (d.plough p).interlocked d.stew.idx else (d.plough p).view d.cclk

/-- Whether the guard lets the slot execute (R64). -/
def Plough.guard (pl : Plough) (w : BitVec 64) : Bool := pl.rdP (wf' w 52 4) != w.getLsbD 51

end Sys2Proof.Machine
end

