-- ==== Sys2Proof/Machine/Sched.lean ====
section
/-! DEFINITION. Engine calendars and their windows (R43, R44, R367), mark schedules and their instants (R230, R70), virtual
time (R223, R224). -/

namespace Sys2Proof.Machine

/-! ### Calendars (R43) -/

/-- A calendar entry of R43. -/
structure CalEntry where
  start : Nat
  len : Nat
  slot : Nat
  kind : Nat
  flags : Nat
deriving DecidableEq, Repr

/-- The calendar entries of a section. -/
def calEntries (bs : List Byte) : List CalEntry :=
  (List.range (bs.length / 16)).map fun i =>
    { start := leAt bs (16 * i) 4, len := leAt bs (16 * i + 4) 4, slot := leAt bs (16 * i + 8) 2,
      kind := leAt bs (16 * i + 10) 1, flags := leAt bs (16 * i + 11) 1 }

/-- The calendar of an engine: 0 Yoke, 1 Sieve, 2 Mill, 3 Granary (R49). -/
def Dev.calendar (d : Dev) (e : Nat) : List CalEntry := calEntries (d.section 2 e)

/-- The context that holds a resident slot (R360). -/
def Dev.slotHolder (d : Dev) (rs : Nat) : Option Nat :=
  (d.ctxs.find? fun e => e.2.life == .resident && e.2.rslot == rs).map (·.1)

/-- The context that a ctx_slot names (R43, R367). -/
def Dev.ctxOfSlot (d : Dev) (slot : Nat) : Option Nat :=
  if 0x1000 ≤ slot ∧ slot < 0x1040 then d.slotHolder (slot - 0x1000) else if slot < d.ctxCount then some slot else none

/-- The window of a calendar that contains a C clock of the period; windows of one calendar do not overlap (R43). -/
def windowAt (l : List CalEntry) (c : Nat) : Option CalEntry :=
  l.find? fun e => decide (e.start ≤ c) && decide (c < e.start + e.len)

/-- The window of an engine open at this clock, while the plan is locked. -/
def Dev.window (d : Dev) (e : Nat) : Option CalEntry :=
  if d.locked then windowAt (d.calendar e) d.ccount else none

/-- The window of an engine open now that serves a context, of a kind that `okKind` admits (R44). -/
def Dev.windowFor (d : Dev) (e ctx : Nat) (okKind : CalEntry → Bool) : Option CalEntry :=
  match d.window e with
  | some w => if d.ctxOfSlot w.slot == some ctx && okKind w then some w else none
  | none => none

/-! ### Mark schedules -/

/-- A schedule is enabled. -/
def Dev.schedOn (d : Dev) (s : Nat) : Bool := d.flag (F.YOKE_MARK_CFG_enable s)
/-- A schedule runs on virtual time. -/
def Dev.schedVirtual (d : Dev) (s : Nat) : Bool := d.flag (F.YOKE_MARK_CFG_virtual s)
/-- The owner context of a schedule. -/
def Dev.schedOwner (d : Dev) (s : Nat) : Nat := d.getF (F.YOKE_MARK_CFG_owner s)
/-- period_ns. -/
def Dev.schedPeriod (d : Dev) (s : Nat) : Nat := d.getF (F.YOKE_MARK_PERIOD_ns s)

/-- The base of the marks of a schedule: T0 for device time, 0 for virtual time (R230). -/
def Dev.schedBase (d : Dev) (s : Nat) : Nat := if d.schedVirtual s then 0 else d.plan.t0.getD 0

/-- t_m in ns (R230). -/
def Dev.markTime (d : Dev) (s m : Nat) : Nat := d.schedBase s + d.getF (F.YOKE_MARK_PHASE_ns s) + m * d.schedPeriod s

/-- Current virtual time of a context (R224). -/
def Dev.vtCurrent (d : Dev) (ctx : Nat) : Nat := (d.ctxOf ctx).vtCur

/-- The present instant in the time base of a schedule, in ns (R70, R255). -/
def Dev.schedNow (d : Dev) (s : Nat) : Nat := if d.schedVirtual s then d.vtCurrent (d.schedOwner s) else d.devNs

/-- The newest mark whose t_m plus `lag` lies at or before `now`; none before mark 0 (R70, R528). -/
def Dev.newestMark (d : Dev) (s lag now : Nat) : Option Nat :=
  let first := d.markTime s 0 + lag
  if d.schedPeriod s = 0 ∨ now < first then none else some ((now - first) / d.schedPeriod s)

/-- MARK of MOVS (R70). -/
def Dev.markNow (d : Dev) (s : Nat) : Nat := ((d.newestMark s 0 (d.schedNow s)).getD 0xFFFFFFFF) % 2 ^ 32

end Sys2Proof.Machine
end

