-- ==== Sys2Proof/Machine/PloughOps.lean ====
section
/-! DEFINITION. What every slot command shares: issuing under a guard, precise faults and trap entry (R91–R93), results in
flight (R65), the Barn port and other shared resources (R83, R131), region registers and provisional mode (R57–R59, R79, R90). -/

namespace Sys2Proof.Machine

/-! ### Faults (R91–R93) -/

/-- The names of the plough's codes (R93, R140). -/
def fEngineWindow : Nat := 0x1001
/-- RESOURCE_COLLISION. -/
def fResource : Nat := 0x1002
/-- PROV_READ. -/
def fProvRead : Nat := 0x1003
/-- PROV_WRITE. -/
def fProvWrite : Nat := 0x1004
/-- DESC_PROV. -/
def fDescProv : Nat := 0x1005
/-- ILLEGAL. -/
def fIllegal : Nat := 0x1006
/-- ALIGN. -/
def fAlign : Nat := 0x1007
/-- ACCESS. -/
def fAccess : Nat := 0x1008
/-- ECC_UNCORR. -/
def fEcc : Nat := 0x1009
/-- SOFT_TRAP. -/
def fSoftTrap : Nat := 0x100A
/-- MAT_COLLISION. -/
def fMat : Nat := 0x100C
/-- DESC_ALIAS, DESC_FORMAT, DESC_INDEX, INDEX_STRICT, XLATE_FAULT, DMA_PROV (R162). -/
def fDescAlias : Nat := 0x0820
/-- DESC_FORMAT. -/
def fDescFormat : Nat := 0x0821
/-- DESC_INDEX. -/
def fDescIndex : Nat := 0x0822
/-- INDEX_STRICT. -/
def fIndexStrict : Nat := 0x0823

/-- XLATE_FAULT. -/
def fXlate : Nat := 0x0824
/-- DMA_PROV. -/
def fDmaProv : Nat := 0x0826

/-- A fault as its slot finds it: code, detail bytes 25, 26 (Hedge codes) and 27, the low 32 bits of detail, the value of PLOUGH_FAULT_INFO. -/
structure PFault where
  code : Nat
  b25 : Nat := 0
  b26 : Nat := 0
  b27 : Nat := 0
  low : Nat := 0
  info : Nat := 0
deriving DecidableEq, Repr

/-- What PLOUGH_FAULT_INFO takes: the data address or the TRAP code, otherwise 0 (R96). -/
def PFault.infoReg (f : PFault) : Nat :=
  if f.code = fAlign ∨ f.code = fAccess ∨ f.code = fEcc ∨ f.code = fSoftTrap then f.info else 0

/-- A fault with a data address: its low half in the detail, the whole in PLOUGH_FAULT_INFO (R93, R96). -/
def faultAt (code b25 va : Nat) : PFault := { code := code, b25 := b25, low := va, info := va }

/-- ILLEGAL. -/
def illegalF : PFault := { code := fIllegal }

/-- The record's detail (R93 for the plough's codes, R162 for the Hedge's). -/
def faultDetail (pc p slot : Nat) (mode : Option PTag) (f : PFault) : Nat :=
  if f.code / 256 = 0x08 then
    dAt 16 8 (if f.code = fXlate ∨ f.code = fDmaProv then f.info else pc) + dAt 24 1 p + dAt 25 1 f.b25 + dAt 26 1 f.b26
      + dAt 27 1 f.b27 + dAt 28 4 f.low
  else
    let m := match mode with
      | some t => 1 + 2 * (t.sched % 8)
      | none => 0
    dAt 16 8 pc + dAt 24 1 slot + dAt 25 1 f.b25 + dAt 26 1 m + dAt 27 1 f.b27 + dAt 28 4 f.low

/-- Put provisional regions back to their state before the bundles issued at or after `now` opened them (R91). -/
def Dev.undoOpens (d : Dev) (p now : Nat) : Dev :=
  let os := (d.plough p).opens.filter fun o => decide (now ≤ o.1)
  let d := os.reverse.foldl (fun d o => d.setRegion o.2.1 o.2.2) d
  d.updPlough p fun pl => { pl with opens := pl.opens.filter fun o => decide (o.1 < now) }

/-- Drop what bundles issued at or after `now` have started (R91): results, held effects, queue places, occupancies. -/
def Plough.dropFrom (pl : Plough) (now : Nat) : Plough :=
  let q := fun (x : DmaQueue) => { x with xfers := x.xfers.filter fun t => decide (t.issue < now) }
  { pl with
    pend := pl.pend.filter fun x => decide (x.issue < now),
    held := pl.held.filter fun x => decide (x.issue < now),
    reports := pl.reports.filter fun x => decide (x.issue < now),
    markOps := pl.markOps.filter fun x => decide (x.issue < now),
    occ := pl.occ.filter fun x => decide (x.issue < now),
    q0 := q pl.q0, q1 := q pl.q1, q2 := q pl.q2, q3 := q pl.q3 }

/-- The trap policy of a context is HALT_CONTEXT (R56, R358). -/
def Dev.haltPolicy (d : Dev) (ctx : Nat) : Bool := d.mapFlag ctx 4

/-! ### The Steward's core (R94, R95, R443) -/

/-- Change the Steward. -/
def Dev.updStew (d : Dev) (f : StewState → StewState) : Dev := { d with stew := f d.stew }

/-- The command of the running mailbox command whose opcode is `op`. -/
def Dev.runs (d : Dev) (op : Nat) : Option (List Byte) :=
  match d.stew.running with
  | some c => if leAt c.bytes 0 2 = op then some c.bytes else none
  | none => none

/-- An event of the Steward (R462): the opcode's low byte, the result or reason. -/
def Dev.stewEvent (d : Dev) (code op reason : Nat) (fw : Nat := 0) : Dev :=
  d.raise code 0 0 0 (dAt 24 1 op + dAt 25 1 reason + dAt 28 4 fw)

/-- The firmware runs: booted, not in ROM, not halted. -/
def Dev.firmware (d : Dev) : Bool := d.stew.booted && d.getF F.STEW_STATUS_mode != 0 && !d.stew.halted

/-- A trap of the Steward (R443): what the bundle has done is undone, the code goes on at the trap entry of the image's header, and the cause is
recorded and raised; a second trap before the entry has written done halts the Steward. -/
def Dev.stewTrap (d : Dev) (cause : Nat) : Dev :=
  let idx := d.stew.idx
  let entry := Config.stewRam + leAt d.stew.fwHeader 0x14 4
  let d := d.updPlough stewCore fun pl =>
    { pl with pend := pl.pend.filter (fun x => decide (x.issue < idx)), branch := none, loopEnter := none, loops := [], pc := entry }
  let d := d.updStew fun x => { x with trapped := true, stores := [] }
  if d.stew.inTrap then d.updStew fun x => { x with halted := true }
  else
    let d := (d.setF F.STEW_TRAP_cause cause).setB F.STEW_TRAP_done false
    (d.updStew fun x => { x with inTrap := true }).stewEvent 0x0C07 0 cause

/-- A fault of the Steward's bundle as a trap (R443). R443 names no cause for TRAP; it is free (log 96). -/
def Dev.stewFault (d : Dev) (f : PFault) : Dev :=
  if f.code = fAlign then d.stewTrap 2
  else if f.code = fAccess then d.stewTrap 3
  else if f.code = fEcc then d.stewTrap 4
  else if f.code = fSoftTrap then d.fresh.2.stewTrap (d.fresh.1 % 16)
  else d.stewTrap 1

/-! ### Trap entry of a plough (R56, R91, R92) -/

/-- A fault of the bundle that issued at C clock `t` (R91, R92, R56): the bundle and everything after it leave no effect, the plough leaves
provisional mode and idles, HALT_CONTEXT sets halted (R360); the record leaves at the end of the clock, so that a lower slot of
the bundle that faults too can still take its place. -/
def Dev.plFaultAt (d : Dev) (p slot t : Nat) (f : PFault) : Dev :=
  if p = stewCore then d.stewFault f
  else
    let pl := d.plough p
    let ev0 := d.mkEvent f.code p pl.ctx pl.gen (faultDetail pl.pc p slot pl.pmode f)
    let ev := { ev0 with plough := some p, info := slot % 8 + 8 * (pl.pc % 2 ^ 64) + 2 ^ 67 * f.infoReg }
    let d := d.undoOpens p t
    let d := d.updPlough p fun x =>
      { x.dropFrom t with status := .faulted, faultAt := some t, pmode := none, branch := none, loopEnter := none, waits := [], stopped := true
                          trap := some ⟨slot, x.pmode, x.branch, x.loopEnter, ev⟩ }
    let d := { d with
      jobs := d.jobs.filter (fun j => !(j.plough == p && !j.accepted && decide (t ≤ j.issue))),
      links := { d.links with xfers := d.links.xfers.filter fun x => !(x.plough == p && !x.accepted && decide (t ≤ x.issue)) } }
    let halt := d.haltPolicy pl.ctx
    d.updCtx pl.ctx fun c => { c with halted := c.halted || halt, haltAt := if halt then some d.fclk else c.haltAt, entryOn := if c.entryOn.contains p then c.entryOn else p :: c.entryOn }

/-- A fault of the bundle that issues now. -/
def Dev.plFault (d : Dev) (p slot : Nat) (f : PFault) : Dev := d.plFaultAt p slot d.cclk f

/-- The record of a fault leaves the plough, held when the plough was in provisional mode (R92). -/
def Dev.trapOut (d : Dev) (p : Nat) : Dev :=
  match (d.plough p).trap with
  | some t => (d.updPlough p fun pl => { pl with trap := none }).raiseEvent t.mode t.ev
  | none => d

/-- The region register that covers a range. -/
def Plough.regionOf (pl : Plough) (va n : Nat) : Option Region :=
  pl.regions.find? fun r => decide (r.va ≤ va) && decide (va + n ≤ r.va + r.len)

/-- Whether the bundle at `pc` issues at a C clock: in the bundle phase of a running slice (R366). A plough that waits or has ended its
slice keeps `pcAt` at the clock of its last bundle. -/
def Plough.issues (pl : Plough) (now : Nat) : Bool :=
  pl.status == .running && pl.pcAt == now && decide (now < pl.issueTo)

/-- The fault of the bundle fetch at `pc` (R79, R86): no executable region of the plough's own local store covers the bundle, or its words
are uncorrectable. -/
def Dev.fetchFault (d : Dev) (p : Nat) : Option PFault :=
  let pl := d.plough p
  let acc := fun (r : Nat) => some (faultAt fAccess r pl.pc)
  if d.fenced pl.ctx then acc 0x08
  else if 2 ^ 48 < pl.pc + 64 then acc 0x06
  else match pl.regionOf pl.pc 64 with
    | none => acc 0x01
    | some r =>
      match r.bad with
      | some why => acc why
      | none =>
        let key := r.key + (pl.pc - r.va)
        if !r.pte.getLsbD 6 then acc 0x04
        else if pteTarget r.pte != p then acc 0x0A
        else ((d.badWords key 64).find? fun w => (d.wordErr w).find (wordOnStack w) == .uncorr).map fun _ => faultAt fEcc 0 pl.pc

/-- The fetch of the bundle that issues now is a read under the code (R86, R383). -/
def Dev.fetchRead (d : Dev) (n : Nat) : Dev :=
  let pl := d.plough n
  if !pl.issues d.cclk then d
  else match pl.regionOf pl.pc 64 with
    | some r =>
      if r.bad.isNone && pteTarget r.pte == n && r.pte.getLsbD 6 then (d.readKey (r.key + (pl.pc - r.va)) 64 ⟨n, 0, pl.ctx, pl.gen⟩).1
      else d
    | none => d

/-! ### Running a slot (R63, R64, R73) -/

/-- No placement rule. -/
def anyPlace (_ : Plough) : Bool := false

/-- A slot of a core that issues a bundle: ILLEGAL in a place that R73 forbids, whatever the guard; nothing when the guard is
false; ILLEGAL when its reserved bits are not zero; else the slot's body on the registers the bundle reads. -/
def Dev.slotBody (d : Dev) (n slot : Nat) (w : BitVec 64) (okBits : Bool) (body : Plough → Dev → Dev) (misplaced : Plough → Bool) : Dev :=
  if misplaced (d.plough n) then d.plFault n slot illegalF
  else
    let v := d.pview n
    if !v.guard w then d
    else if !okBits then d.plFault n slot illegalF
    else body v d

/-- A slot of a plough's bundle: the fetch's fault, if it has one, else the slot. -/
def Dev.ploughSlot (d : Dev) (n slot : Nat) (w : BitVec 64) (okBits : Bool) (body : Plough → Dev → Dev) (misplaced : Plough → Bool) : Dev :=
  match d.fetchFault n with
  | some f => d.plFault n slotK f
  | none => d.slotBody n slot w okBits body misplaced

/-- The trap of the bundle of this clock, when it is at a slot after `slot` (R91). -/
def Plough.laterTrap (pl : Plough) (now slot : Nat) : Option Trap :=
  pl.trap.filter fun t => pl.status == .faulted && pl.faultAt == some now && decide (slot < t.slot)

/-- A plough as it was before its trap, for another slot of the same bundle. -/
def Plough.beforeTrap (pl : Plough) (t : Trap) : Plough :=
  { pl with status := .running, pmode := t.mode, branch := t.branch, loopEnter := t.loopEnter, trap := none }

/-- Run a slot: nothing when its core issues no bundle. In a bundle that has faulted at a later slot only the slot's own fault counts, whose record
takes the other's place (R91). The Steward's bundle is that of the present S clock (R94, log 96). -/
def Dev.slotRun (d : Dev) (p : Runner) (slot : Nat) (w : BitVec 64) (okBits : Bool) (body : Plough → Dev → Dev)
    (misplaced : Plough → Bool := anyPlace) : Dev :=
  let n := p.toNat
  match p with
  | .steward =>
    if !d.firmware || d.stew.trapped then d
    else (d.updStew fun x => { x with issuing := true }).slotBody n slot w okBits body misplaced
  | .plough _ =>
    if (d.plough n).issues d.cclk then d.ploughSlot n slot w okBits body misplaced
    else match (d.plough n).laterTrap d.cclk slot with
      | none => d
      | some t =>
        let r := (d.updPlough n fun pl => pl.beforeTrap t).ploughSlot n slot w okBits body misplaced
        match (r.plough n).trap with
        | some x => d.updPlough n fun pl => { pl with trap := some x }
        | none => d

/-- Run a slot whose operation the Steward's subset leaves out: there it is an illegal instruction (R94). -/
def Dev.ploughRun (d : Dev) (p : Runner) (slot : Nat) (w : BitVec 64) (okBits : Bool) (body : Plough → Dev → Dev) : Dev :=
  d.slotRun p slot w (okBits && p.isPlough) body

/-- A result of latency `lat` (R65). -/
def Dev.result (d : Dev) (p slot lat : Nat) (dst : Dest) : Dev :=
  let now := d.coreClock p
  d.updPlough p fun pl => { pl with pend := pl.pend ++ [⟨now + lat, now, slot, dst⟩] }

/-- Hold an effect until the bundle retires (R91). -/
def Dev.holdEff (d : Dev) (p slot : Nat) (e : Effect) : Dev :=
  let now := d.cclk
  d.updPlough p fun pl => { pl with held := pl.held ++ [⟨now, slot, e⟩] }

/-! ### Shared resources (R83, R131) -/

/-- Whether a resource is held in some clock of [lo, hi). -/
def Plough.busy (pl : Plough) (res sub lo hi : Nat) : Bool :=
  pl.occ.any fun o => o.res == res && o.sub == sub && decide (lo < o.hi) && decide (o.lo < hi)

/-- Hold a resource over [lo, hi). -/
def Dev.occupy (d : Dev) (p res sub lo hi : Nat) : Dev :=
  let now := d.cclk
  d.updPlough p fun pl => { pl with occ := pl.occ ++ [⟨res, sub, lo, hi, now⟩] }

/-- The bundle waits for something more (R75, R85, R87, R89). -/
def Plough.hold (pl : Plough) (x : Wait) : Plough := { pl with waits := pl.waits ++ [x] }

/-! ### Region registers (R79) and provisional mode (R57–R59, R90) -/

/-- Pieces of a translated range: key, bytes, entry. -/
abbrev Pieces := List (Nat × Nat × BitVec 64)

/-- Translate an L-slot address against the region registers (R79) in the order of R155: the key, the bytes left in the region and its
entry, or the Hedge reason. A page that no region holds is refused with the reason its entry gives, or as not mapped. -/
def Dev.lregion (d : Dev) (p : Nat) (pl : Plough) (va : Nat) (write : Bool) : Except Nat (Nat × Nat × BitVec 64) :=
  let q : XReq := { req := p, ctx := pl.ctx, gen := pl.gen, va := va, write := write, lslot := some p }
  match pl.regionOf va 1 with
  | some r =>
    match r.bad with
    | some why => .error why
    | none =>
      match d.checkPte q (r.va + r.len - va) (va - r.va) r.pte with
      | .fail why => .error why
      | .ok _ left pte => .ok (r.key + (va - r.va), left, pte)
  | none =>
    match d.tableLeaf pl.ctx va with
    | none => .error 0x01
    | some l =>
      match d.checkPte q 0 0 l.pte with
      | .fail why => .error why
      | .ok .. => .error 0x01

/-- Translate `n` bytes region by region, over at most `fuel` regions. -/
def Dev.lpieces (d : Dev) (p : Nat) (pl : Plough) (write : Bool) : Nat → Nat → Nat → Except Nat Pieces
  | 0, _, _ => .error 0x01
  | fuel + 1, va, n =>
    match d.lregion p pl va write with
    | .error r => .error r
    | .ok (key, left, pte) =>
      if n ≤ left then .ok [(key, n, pte)]
      else match Dev.lpieces d p pl write fuel (va + left) (n - left) with
        | .error r => .error r
        | .ok ps => .ok ((key, left, pte) :: ps)

/-- Translate an L-slot access against the region registers (R79, R155): its pieces, or the Hedge reason. -/
def Dev.lxlate (d : Dev) (p : Nat) (pl : Plough) (va n : Nat) (write : Bool) : Except Nat Pieces :=
  if d.fenced pl.ctx then .error 0x08
  else if 2 ^ 48 < va + n then .error 0x06
  else d.lpieces p pl write 17 va n

/-- A key lies in the Barn. -/
def inBarn (key : Nat) : Bool := targetOf key == 0x10

/-- Some piece lies in the Barn. -/
def Pieces.barn (ps : Pieces) : Bool := ps.any fun x => inBarn x.1

/-- What a load from a page does to provisional mode (R58, R59): fault, enter the mode with a tag, or nothing. -/
inductive ProvLoad where
  | fault
  | enter (t : PTag)
  | plain
deriving DecidableEq, Repr

/-- R58 and R59 for a load by a plough. -/
def Dev.provLoad (d : Dev) (pl : Plough) (pte : BitVec 64) : ProvLoad :=
  match pteProv pte with
  | none => .plain
  | some (g, s) =>
    let r := d.region g
    if r.state != 1 then .plain
    else if !d.tolerates pl.ctx s then .fault
    else match pl.pmode with
      | none => .enter ⟨s, r.mark⟩
      | some t => if t.sched == s then .plain else .fault

/-- R59 for a store in the plough's present mode. -/
def Dev.provStoreOk (d : Dev) (pl : Plough) (pte : BitVec 64) : Bool := pl.pmode.isNone || d.writeProvOk pl.pmode pte

/-- A plough's write to a page opens its region (R58); the region's state before is kept for a fault of the bundle. -/
def Dev.ploughOpen (d : Dev) (p : Nat) (pte : BitVec 64) : Dev :=
  match (d.plough p).pmode, pteProv pte with
  | some _, some (g, _) =>
    let now := d.cclk
    let old := d.region g
    (d.openRegion (d.plough p).pmode pte).updPlough p fun pl => { pl with opens := pl.opens ++ [(now, g, old)] }
  | _, _ => d

/-- Whether a send on a port reaches a device with another plan_id (R59, R410). -/
def Dev.otherPlan (d : Dev) (port : Nat) : Bool := (d.reg (R.LINK_PORT_PEER_PLAN port)).toNat != d.header 0x18 8

/-- When a load enters provisional mode, the other slots of its bundle are checked against R59 (R90): the lowest that breaks
it, with its fault. -/
def Dev.bundleProvFault (d : Dev) (p : Nat) (t : PTag) : Option (Nat × PFault) :=
  let pl := d.plough p
  let now := d.cclk
  let provWrite : PFault := { code := fProvWrite }
  let stores := pl.held.filterMap fun h => match h.eff with
    | .store _ _ pte => if h.issue == now && !d.writeProvOk (some t) pte then some (h.slot, provWrite) else none
    | _ => none
  let rows := pl.pend.filterMap fun x => match x.dst with
    | .memRow _ _ _ pte => if x.issue == now && !d.writeProvOk (some t) pte then some (x.slot, provWrite) else none
    | .desc _ _ => if x.issue == now then some (x.slot, ({ code := fDescProv } : PFault)) else none
    | _ => none
  let sends := d.links.xfers.filterMap fun x =>
    if x.plough == p && x.issue == now && x.send && !x.accepted && d.otherPlan x.port then some (slotX, provWrite) else none
  (rows ++ stores ++ sends).foldl (fun acc x => match acc with
    | none => some x
    | some y => if x.1 < y.1 then some x else acc) none

/-- A result of the bundle that enters provisional mode is provisional too (R90, R133). -/
def Dest.underTag (t : PTag) : Dest → Dest
  | .counts sat nan _ => .counts sat nan (some t)
  | .wbuf w b => .wbuf w { b with prov := true }
  | x => x

/-- The pages that the stores and drained rows of the bundle at a clock write. -/
def Plough.bundlePtes (pl : Plough) (now : Nat) : List (BitVec 64) :=
  (pl.held.filterMap fun h => match h.eff with
    | .store _ _ pte => if h.issue = now then some pte else none
    | _ => none)
  ++ pl.pend.filterMap fun x => match x.dst with
    | .memRow _ _ _ pte => if x.issue = now then some pte else none
    | _ => none

/-- Enter provisional mode in this bundle (R59, R90): the bundle's own transfers, issues, sends, counts and weight buffers take the tag, its
stores open their regions. -/
def Dev.enterProv (d : Dev) (p : Nat) (t : PTag) : Dev :=
  let now := d.cclk
  let q := fun (x : DmaQueue) => { x with xfers := x.xfers.map fun y => if y.issue = now then { y with tag := some t } else y }
  let ptes := (d.plough p).bundlePtes now
  let d := d.updPlough p fun pl => { pl with
    pmode := some t, q0 := q pl.q0, q1 := q pl.q1, q2 := q pl.q2, q3 := q pl.q3
    pend := pl.pend.map fun x => if x.issue = now then { x with dst := x.dst.underTag t } else x }
  let d := { d with
    jobs := d.jobs.map fun (j : Job) => if j.plough == p && j.issue == now && !j.accepted then { j with tag := some t } else j
    links := { d.links with xfers := d.links.xfers.map fun (x : LinkXfer) =>
      if x.plough == p && x.issue == now && x.send && !x.accepted then { x with tag := some t } else x } }
  ptes.foldl (fun d e => d.ploughOpen p e) d

/-- Apply R58, R59 and R90 for a load from a page, then go on; a fault names the slot it belongs to. -/
def Dev.withProvLoad (d : Dev) (p slot : Nat) (pte : BitVec 64) (k : Dev → Dev) : Dev :=
  match d.provLoad (d.plough p) pte with
  | .fault => d.plFault p slot { code := fProvRead }
  | .plain => k d
  | .enter t =>
    match d.bundleProvFault p t with
    | some (s, f) => (d.updPlough p fun pl => { pl with pmode := some t }).plFault p s f
    | none => k (d.enterProv p t)

/-- R58, R59 and R90 for the pages of one load in turn. -/
def Dev.withProvLoads (d : Dev) (p slot : Nat) (k : Dev → Dev) : List (BitVec 64) → Dev
  | [] => k d
  | e :: es => d.withProvLoad p slot e fun d => Dev.withProvLoads d p slot k es

/-! ### A plough's own view of memory (R82, R127) -/

/-- The stores and drained rows of a plough that its own loads issued now see before they are in memory: with the clock they
become visible, in order. -/
def Plough.ownWrites (pl : Plough) (now : Nat) : List (Nat × List Byte) :=
  let st := pl.held.filterMap fun h => match h.eff with
    | .store k bs _ => if h.issue < now then some (⟨h.issue + 1, h.issue, h.slot, .memRow k bs 0 0⟩ : Pend) else none
    | _ => none
  let rows := pl.pend.filterMap fun x => match x.dst with
    | .memRow k bs vis _ => if vis ≤ now then some (⟨vis, x.issue, x.slot, .memRow k bs 0 0⟩ : Pend) else none
    | _ => none
  (sortPend (st ++ rows)).filterMap fun x => match x.dst with
    | .memRow k bs _ _ => some (k, bs)
    | _ => none

/-- Lay a write over bytes read at a key. -/
def overlay (key : Nat) (bs : List Byte) (wk : Nat) (wb : List Byte) : List Byte :=
  if key + bs.length ≤ wk ∨ wk + wb.length ≤ key then bs
  else (List.range bs.length).map fun i =>
    if wk ≤ key + i ∧ key + i < wk + wb.length then wb.getD (key + i - wk) 0 else bs.getD i 0

/-- Read for a plough's own slot: memory under the code, then the plough's own earlier stores laid over it. -/
def Dev.ploughRead (d : Dev) (p : Nat) (key n : Nat) : Dev × List Byte × Option Nat :=
  let pl := d.plough p
  let own := pl.ownWrites d.cclk
  let (d, bs, bad) := d.readKey key n ⟨p, 0, pl.ctx, pl.gen⟩
  let bad := bad.filter fun k => !own.any fun w => decide (w.1 ≤ k) && decide (k + 32 ≤ w.1 + w.2.length)
  (d, own.foldl (fun bs w => overlay key bs w.1 w.2) bs, bad)

/-- Read the pieces of a range at `va` for a plough's own slot: the bytes, and the address of the first uncorrectable word. -/
def Dev.readRange (d : Dev) (p : Nat) : Nat → Pieces → Dev × List Byte × Option Nat
  | _, [] => (d, [], none)
  | va, (key, n, _) :: rest =>
    let (d, bs, bad) := d.ploughRead p key n
    let (d, bs', bad') := Dev.readRange d p (va + n) rest
    (d, bs ++ bs', (bad.map fun k => va + k - key).orElse fun _ => bad')

/-- Split bytes over the pieces of a range. -/
def cutPieces : Pieces → List Byte → List (Nat × List Byte × BitVec 64)
  | [], _ => []
  | (key, n, pte) :: rest, bs => (key, bs.take n, pte) :: cutPieces rest (bs.drop n)

end Sys2Proof.Machine
end

