-- ==== Sys2Proof/Machine/Scalar.lean ====
section
/-! DEFINITION. NOP and the scalar slots S0 and S1 (R63, R68–R70). -/

namespace Sys2Proof.Machine

/-- The outcome with a changed device: every command of the block answers a next state. -/
def State.withDev (s : State) (f : Dev → Dev) : Host.Outcome State Fault Refusal := .next { s with dev := f s.dev }

/-- A scalar result: latency, the value computed from the registers the bundle reads. -/
def scalarOp (p : Runner) (s1 : Bool) (w : BitVec 64) (okBits : Bool) (lat : Nat) (val : Plough → BitVec 64) (d : Dev) : Dev :=
  d.slotRun p (slotS s1) w okBits fun v d => d.result p.toNat (slotS s1) lat (.scalar (fRd w) (val v))

/-- Layout RR of the scalar slots: [32:0] reserved (R64). -/
def rrOk (w : BitVec 64) : Bool := zeros w [(0, 33)]

/-- Layout RR with one source: rb must be 0 too (R68). -/
def rr1Ok (w : BitVec 64) : Bool := zeros w [(0, 39)]

/-- Layout RI: [38:32] reserved (R64). -/
def riOk (w : BitVec 64) : Bool := zeros w [(32, 7)]

/-- An operation on ra and rb. -/
def rrOp (p : Runner) (s1 : Bool) (w : BitVec 64) (lat : Nat) (f : BitVec 64 → BitVec 64 → BitVec 64) (d : Dev) : Dev :=
  scalarOp p s1 w (rrOk w) lat (fun v => f (v.rdS (fRa w)) (v.rdS (fRb w))) d

/-- An operation on ra and imm32. -/
def riOp (p : Runner) (s1 : Bool) (w : BitVec 64) (f : BitVec 64 → BitVec 64 → BitVec 64) (d : Dev) : Dev :=
  scalarOp p s1 w (riOk w) 1 (fun v => f (v.rdS (fRa w)) (fImm w)) d

/-- Leading zeros of a 64-bit value, 0 to 64. -/
def clz64 (v : BitVec 64) : Nat := if v = 0 then 64 else 63 - Nat.log2 v.toNat

/-- The comparisons of R69 by cond code; codes above 9 are not defined. -/
def condHolds (c : Nat) (a b : BitVec 64) : Bool :=
  match c with
  | 0 => a == b
  | 1 => a != b
  | 2 => decide (a.toInt < b.toInt)
  | 3 => decide (a.toInt ≤ b.toInt)
  | 4 => decide (b.toInt < a.toInt)
  | 5 => decide (b.toInt ≤ a.toInt)
  | 6 => decide (a.toNat < b.toNat)
  | 7 => decide (a.toNat ≤ b.toNat)
  | 8 => decide (b.toNat < a.toNat)
  | _ => decide (b.toNat ≤ a.toNat)

/-- The predicate operations of PLOG (R69). -/
def plogOp (op : Nat) (a b : Bool) : Bool :=
  match op with
  | 0 => a && b
  | 1 => a || b
  | 2 => a != b
  | _ => a && !b

/-- A predicate result of a scalar slot. -/
def predOp (p : Runner) (s1 : Bool) (w : BitVec 64) (okBits : Bool) (val : Plough → Bool) (d : Dev) : Dev :=
  d.slotRun p (slotS s1) w okBits fun v d => d.result p.toNat (slotS s1) 1 (.pred (wf' w 45 4) (val v))

/-- The special registers of MOVS (R70), as a bundle issuing now reads them. -/
def movsValue (d : Dev) (p : Nat) (v : Plough) (w : BitVec 64) : Nat :=
  match wf' w 0 8 with
  | 0 => d.ccount
  | 1 => d.plan.period
  | 2 => p
  | 3 => v.ctx % 4096 + (v.gen % 2 ^ 20) * 4096
  | 4 => d.markNow (wf' w 8 3)
  | _ => match (d.plough p).pmode with
    | some t => 1 + 2 * (t.sched % 8) + 16 * (t.mark % 2 ^ 32)
    | none => 0

/-- MOVS word: ra and [38:32] zero, an index of 0 to 5, imm32[10:8] only with index 4 (R70). -/
def movsOk (w : BitVec 64) : Bool :=
  zeros w [(32, 13), (11, 21)] && decide (wf' w 0 8 ≤ 5) && (wf' w 0 8 == 4 || wf' w 8 3 == 0)

/-- The special registers that the Steward has (R94): 2 and 3. What they hold there R94 does not say; they are free (log 96). -/
def stewMovs (w : BitVec 64) : Bool := wf' w 0 8 == 2 || wf' w 0 8 == 3

/-- NOP (R63): opcode 0x00 does nothing; a guarded-on NOP with non-zero reserved bits is ILLEGAL, as is a slot word whose opcode is not
defined for its slot, which this row carries (log 12). -/
def execNop (p : Runner) (slot : BitVec 3) (w : BitVec 64) (s : State) : Host.Outcome State Fault Refusal :=
  s.withDev fun d => d.slotRun p slot.toNat w (zeros w [(56, 8), (0, 51)]) fun _ d => d

/-- ADD (R68). -/
def execAdd (p : Runner) (s1 : Bool) (w : BitVec 64) (s : State) : Host.Outcome State Fault Refusal :=
  s.withDev (rrOp p s1 w 1 fun va vb => va + vb)

/-- SUB (R68). -/
def execSub (p : Runner) (s1 : Bool) (w : BitVec 64) (s : State) : Host.Outcome State Fault Refusal :=
  s.withDev (rrOp p s1 w 1 fun va vb => va - vb)

/-- AND (R68). -/
def execAnd (p : Runner) (s1 : Bool) (w : BitVec 64) (s : State) : Host.Outcome State Fault Refusal :=
  s.withDev (rrOp p s1 w 1 fun va vb => va &&& vb)

/-- OR (R68). -/
def execOr (p : Runner) (s1 : Bool) (w : BitVec 64) (s : State) : Host.Outcome State Fault Refusal :=
  s.withDev (rrOp p s1 w 1 fun va vb => va ||| vb)

/-- XOR (R68). -/
def execXor (p : Runner) (s1 : Bool) (w : BitVec 64) (s : State) : Host.Outcome State Fault Refusal :=
  s.withDev (rrOp p s1 w 1 fun va vb => va ^^^ vb)

/-- SHL (R68). -/
def execShl (p : Runner) (s1 : Bool) (w : BitVec 64) (s : State) : Host.Outcome State Fault Refusal :=
  s.withDev (rrOp p s1 w 1 fun va vb => va <<< (vb.toNat % 64))

/-- SHR (R68). -/
def execShr (p : Runner) (s1 : Bool) (w : BitVec 64) (s : State) : Host.Outcome State Fault Refusal :=
  s.withDev (rrOp p s1 w 1 fun va vb => va >>> (vb.toNat % 64))

/-- SRA (R68). -/
def execSra (p : Runner) (s1 : Bool) (w : BitVec 64) (s : State) : Host.Outcome State Fault Refusal :=
  s.withDev (rrOp p s1 w 1 fun va vb => va.sshiftRight (vb.toNat % 64))

/-- MUL (R68). -/
def execMul (p : Runner) (s1 : Bool) (w : BitVec 64) (s : State) : Host.Outcome State Fault Refusal :=
  s.withDev (rrOp p s1 w 3 fun va vb => va * vb)

/-- MULHS (R68). -/
def execMulhs (p : Runner) (s1 : Bool) (w : BitVec 64) (s : State) : Host.Outcome State Fault Refusal :=
  s.withDev (rrOp p s1 w 3 fun va vb => BitVec.ofInt 64 ((va.toInt * vb.toInt) / 2 ^ 64))

/-- MULHU (R68). -/
def execMulhu (p : Runner) (s1 : Bool) (w : BitVec 64) (s : State) : Host.Outcome State Fault Refusal :=
  s.withDev (rrOp p s1 w 3 fun va vb => BitVec.ofNat 64 ((va.toNat * vb.toNat) / 2 ^ 64))

/-- MIN (R68). -/
def execMin (p : Runner) (s1 : Bool) (w : BitVec 64) (s : State) : Host.Outcome State Fault Refusal :=
  s.withDev (rrOp p s1 w 1 fun va vb => if va.toInt ≤ vb.toInt then va else vb)

/-- MAX (R68). -/
def execMax (p : Runner) (s1 : Bool) (w : BitVec 64) (s : State) : Host.Outcome State Fault Refusal :=
  s.withDev (rrOp p s1 w 1 fun va vb => if va.toInt ≤ vb.toInt then vb else va)

/-- MINU (R68). -/
def execMinu (p : Runner) (s1 : Bool) (w : BitVec 64) (s : State) : Host.Outcome State Fault Refusal :=
  s.withDev (rrOp p s1 w 1 fun va vb => if va.toNat ≤ vb.toNat then va else vb)

/-- MAXU (R68). -/
def execMaxu (p : Runner) (s1 : Bool) (w : BitVec 64) (s : State) : Host.Outcome State Fault Refusal :=
  s.withDev (rrOp p s1 w 1 fun va vb => if va.toNat ≤ vb.toNat then vb else va)

/-- CLZ (R68). -/
def execClz (p : Runner) (s1 : Bool) (w : BitVec 64) (s : State) : Host.Outcome State Fault Refusal :=
  s.withDev (scalarOp p s1 w (rr1Ok w) 1 fun v => BitVec.ofNat 64 (clz64 (v.rdS (fRa w))))

/-- POPC (R68). -/
def execPopc (p : Runner) (s1 : Bool) (w : BitVec 64) (s : State) : Host.Outcome State Fault Refusal :=
  s.withDev (scalarOp p s1 w (rr1Ok w) 1 fun v => BitVec.ofNat 64 (popcount (v.rdS (fRa w)).toNat 64))

/-- SEL (R68): ps in [31:28]. -/
def execSel (p : Runner) (s1 : Bool) (w : BitVec 64) (s : State) : Host.Outcome State Fault Refusal :=
  s.withDev (scalarOp p s1 w (zeros w [(0, 28), (32, 1)]) 1 fun v =>
    if v.rdP (wf' w 28 4) then v.rdS (fRa w) else v.rdS (fRb w))

/-- ADDI (R68). -/
def execAddi (p : Runner) (s1 : Bool) (w : BitVec 64) (s : State) : Host.Outcome State Fault Refusal :=
  s.withDev (riOp p s1 w fun va imm => va + imm)

/-- ANDI (R68). -/
def execAndi (p : Runner) (s1 : Bool) (w : BitVec 64) (s : State) : Host.Outcome State Fault Refusal :=
  s.withDev (riOp p s1 w fun va imm => va &&& imm)

/-- ORI (R68). -/
def execOri (p : Runner) (s1 : Bool) (w : BitVec 64) (s : State) : Host.Outcome State Fault Refusal :=
  s.withDev (riOp p s1 w fun va imm => va ||| imm)

/-- XORI (R68). -/
def execXori (p : Runner) (s1 : Bool) (w : BitVec 64) (s : State) : Host.Outcome State Fault Refusal :=
  s.withDev (riOp p s1 w fun va imm => va ^^^ imm)

/-- SHLI (R68). -/
def execShli (p : Runner) (s1 : Bool) (w : BitVec 64) (s : State) : Host.Outcome State Fault Refusal :=
  s.withDev (riOp p s1 w fun va imm => va <<< (imm.toNat % 64))

/-- SHRI (R68). -/
def execShri (p : Runner) (s1 : Bool) (w : BitVec 64) (s : State) : Host.Outcome State Fault Refusal :=
  s.withDev (riOp p s1 w fun va imm => va >>> (imm.toNat % 64))

/-- SRAI (R68). -/
def execSrai (p : Runner) (s1 : Bool) (w : BitVec 64) (s : State) : Host.Outcome State Fault Refusal :=
  s.withDev (riOp p s1 w fun va imm => va.sshiftRight (imm.toNat % 64))

/-- MOVI (R68): ra must be 0. -/
def execMovi (p : Runner) (s1 : Bool) (w : BitVec 64) (s : State) : Host.Outcome State Fault Refusal :=
  s.withDev (scalarOp p s1 w (zeros w [(32, 13)]) 1 fun _ => fImm w)

/-- MOVHI (R68): the high half from imm32, the low half of ra. -/
def execMovhi (p : Runner) (s1 : Bool) (w : BitVec 64) (s : State) : Host.Outcome State Fault Refusal :=
  s.withDev (riOp p s1 w fun va imm => BitVec.ofNat 64 ((imm.toNat % 2 ^ 32) * 2 ^ 32 + va.toNat % 2 ^ 32))

/-- CMP (R69): pd in [48:45], cond in [31:28]. -/
def execCmp (p : Runner) (s1 : Bool) (w : BitVec 64) (s : State) : Host.Outcome State Fault Refusal :=
  s.withDev (predOp p s1 w (zeros w [(0, 28), (32, 1), (49, 2)] && decide (wf' w 28 4 ≤ 9)) fun v =>
    condHolds (wf' w 28 4) (v.rdS (fRa w)) (v.rdS (fRb w)))

/-- CMPI (R69): cond in [38:35]. -/
def execCmpi (p : Runner) (s1 : Bool) (w : BitVec 64) (s : State) : Host.Outcome State Fault Refusal :=
  s.withDev (predOp p s1 w (zeros w [(32, 3), (49, 2)] && decide (wf' w 35 4 ≤ 9)) fun v =>
    condHolds (wf' w 35 4) (v.rdS (fRa w)) (fImm w))

/-- PLOG (R69): pa in [44:41], pb in [40:37], op in [31:28]. -/
def execPlog (p : Runner) (s1 : Bool) (w : BitVec 64) (s : State) : Host.Outcome State Fault Refusal :=
  s.withDev (predOp p s1 w (zeros w [(0, 28), (32, 5), (49, 2)] && decide (wf' w 28 4 ≤ 3)) fun v =>
    plogOp (wf' w 28 4) (v.rdP (wf' w 41 4)) (v.rdP (wf' w 37 4)))

/-- MOVS (R70): the value at issue. -/
def execMovs (p : Runner) (s1 : Bool) (w : BitVec 64) (s : State) : Host.Outcome State Fault Refusal :=
  s.withDev fun d =>
    if p.isPlough then scalarOp p s1 w (movsOk w) 1 (fun v => BitVec.ofNat 64 (movsValue d p.toNat v w)) d
    else scalarOp p s1 w (movsOk w && stewMovs w) 1 (fun _ => BitVec.ofNat 64 d.fresh.1) d.fresh.2

end Sys2Proof.Machine
end

