-- ==== Sys2Proof/Machine/Belltower.lean ====
section
/-! DEFINITION. The Belltower: device time, captures and stamps, the servo, PTP, 1PPS, virtual time and the Almanac
(R204–R229, R413). -/

namespace Sys2Proof.Machine

/-! ### Device time (R204–R207) -/

/-- Change the Belltower. -/
def Dev.updBell (d : Dev) (f : BellState → BellState) : Dev := { d with bell := f d.bell }

/-- The limit of a rate: 100 ppm in parts per 2^40 (R205). -/
def rateLim : Int := 109951163

/-- A rate clamped to the limit. -/
def clampRate (r : Int) : Int := max (-rateLim) (min rateLim r)

/-- A new rate waits for its T edge; it replaces one that waits (R205). -/
def Dev.requestRate (d : Dev) (r : Int) : Dev := d.updBell fun b => { b with waitRate := some (clampRate r) }

/-- One T edge (R204, R205, R207, R213): device time, 64 bits of ns with 48 below them, advances at the rate in force, or takes the pending set,
or the pending step. -/
def Dev.tEdge (d : Dev) : Dev :=
  let b := d.bell
  let adv := b.t48 + (512 * ((2 : Int) ^ 40 + b.rate)).toNat
  let t := match b.setPend, b.stepPend with
    | some v, _ => v.1 * 2 ^ 40
    | none, some st => ofSigned 112 ((adv : Int) + st * (2 : Int) ^ 40)
    | none, none => adv % 2 ^ 112
  let d := if b.setPend.any (·.2) then d.setF F.BELL_STATUS_seeded 1 else d
  d.updBell fun b => { b with t48 := t, tEdges := b.tEdges + 1, hist := ((t / 2 ^ 40) :: b.hist).take 300,
                              sinceChange := min (b.sinceChange + 1) 1024, setPend := none, stepPend := none }

/-- RATE_APPLY (R205): a waiting rate takes effect, so that the next T edge advances at it, once 1,024 T clocks have passed since the
previous change. -/
def execRateApply (s : State) : Host.Outcome State Fault Refusal :=
  s.withDev fun d =>
    match d.bell.waitRate with
    | some r =>
      if d.bell.sinceChange < 1024 then d
      else
        let d := d.updBell fun b => { b with rate := r, waitRate := none, sinceChange := 0 }
        d.setF F.BELL_RATE_rate (ofSigned 32 r)
    | none => d

/-- The servo state shown in BELL_STATUS: 0 FREERUN, 1 ACQUIRING, 2 LOCKED, 3 HOLDOVER. -/
def Dev.servo (d : Dev) : Nat := d.getF F.BELL_STATUS_servo_state

/-- Detail of a Belltower record (R228): the value in bytes 16–23, the servo state or capture number in byte 24. -/
def bellDetail (v : Int) (b24 b25 : Nat) : Nat := dAt 16 8 (ofSigned 64 v) + dAt 24 1 b24 + dAt 25 1 b25

/-- A write of BELL_SET (R207): device time takes the value at the next T edge; refused while a plan is locked. -/
def Dev.bellSet (d : Dev) (v : Nat) : Dev :=
  if d.locked then d.raise 0x0309 0 0 0 (bellDetail (toSigned 64 v) d.servo 0)
  else d.updBell fun b => { b with setPend := some (v * 256, true) }

/-! ### Captures and stamps (R208, R209) -/

/-- The time of the T edge `n` edges before the latest one, in 1/256 ns. -/
def Dev.edgeTime (d : Dev) (n : Nat) : Nat := d.bell.hist.getD n (d.dev256 - n * 512)

/-- The waiting edges of a capture register. -/
def Dev.captured (d : Dev) (r : Nat) : List Capture := SMap.get (fun _ => []) d.bell.captures r

/-- The holdover flag of what is stamped now (R167). -/
def Dev.holdoverFlag (d : Dev) : Nat := d.getF F.TOP_STATUS_holdover

/-- The slot whose errors a capture register's source counts (R208): given by the caller where the source maps one. -/
def Dev.stampOverrun (d : Dev) (r : Nat) (slot : Option Nat) : Dev :=
  let d := d.bump R.BELL_STAMP_OVERRUN
  let d := match slot with
    | some n => d.bump (R.GATE_SLOT_ERR n)
    | none => d
  d.raise 0x0308 0 0 0 (bellDetail 0 r 0)

/-- Capture an edge whose first sample lay `n` T edges ago (R174, R208): a register with two waiting edges loses it. The flag
says whether the edge was taken. -/
def Dev.capture (d : Dev) (r n : Nat) (rise : Bool) (slot : Option Nat) : Dev × Bool :=
  if 2 ≤ (d.captured r).length then (d.stampOverrun r slot, false)
  else (d.updBell fun b => { b with captures := SMap.modify (fun _ => []) b.captures r (· ++ [⟨d.edgeTime n, rise, d.holdoverFlag⟩]) }, true)

/-- A converted edge of a strobe input forms pulses (R175): a rise and the next fall. Stamps lie 1 ns before the captured edge. -/
def Strobe.edge (x : Strobe) (c : Capture) : Strobe :=
  if c.rise then { x with rise := some (c.time - 256) }
  else match x.rise with
    | some r => { rise := none, pulses := ({ rise := r, fall := c.time - 256, served := [] } :: x.pulses).take 64 }
    | none => x

/-- Convert the oldest edge of a register (R208). -/
def Dev.convert (d : Dev) (r : Nat) : Dev :=
  match d.captured r with
  | [] => d
  | c :: cs =>
    let d := d.updBell fun b => { b with captures := SMap.set (fun _ => []) b.captures r cs }
    if r < 8 then { d with gate := { d.gate with strobes := SMap.modify (fun _ => {}) d.gate.strobes r (·.edge c) } }
    else d.updBell fun b => { b with stamps := SMap.modify (fun _ => []) b.stamps r (· ++ [c]) }

/-- One conversion (R208): the register that the rotating pointer finds first converts an edge, and the pointer passes it. -/
def Dev.convertNext (d : Dev) : Dev :=
  match rotPick 37 d.bell.stampPtr fun r => !(d.captured r).isEmpty with
  | some r => (d.convert r).updBell fun b => { b with stampPtr := (r + 1) % 37, convT := some b.tEdges }
  | none => d

/-- STAMP_CONVERT (R208): one conversion in a T clock. -/
def Dev.convertClock (d : Dev) : Dev := if d.bell.convT = some d.bell.tEdges then d else d.convertNext

/-- A user of a register's edges waits for them: conversions go on in the pointer's order until none of them waits, 75 at most (R208; log 52). -/
def Dev.convertUntil (d : Dev) (r : Nat) : Nat → Dev
  | 0 => d
  | k + 1 => if (d.captured r).isEmpty then d else d.convertNext.convertUntil r k

/-- The stamp of the oldest edge of a register, converted first if it still waits; an edge whose capture was not commanded apart has the
latest T edge that its filter of `n` edges gives. -/
def Dev.takeStamp (d : Dev) (r n : Nat) (rise : Bool) : Dev × Capture :=
  let d := if (SMap.get (fun _ => []) d.bell.stamps r).isEmpty then d.convertUntil r 75 else d
  match SMap.get (fun _ => []) d.bell.stamps r with
  | c :: cs => (d.updBell fun b => { b with stamps := SMap.set (fun _ => []) b.stamps r cs }, c)
  | [] => (d, ⟨d.edgeTime n, rise, d.holdoverFlag⟩)

/-! ### The servo (R211–R214) -/

/-- lock_thr in 1/256 ns; 0 acts as 1 ns. -/
def Dev.lockThr (d : Dev) : Int := (max 1 (d.getF F.BELL_SERVO_LIMITS_lock_thr) * 256 : Nat)
/-- step_thr in 1/256 ns; 0 acts as 1 µs. -/
def Dev.stepThr (d : Dev) : Int := (max 1 (d.getF F.BELL_SERVO_LIMITS_step_thr) * 256000 : Nat)

/-- The servo enters a state: SERVO_STATE is raised with the last offset, TOP_STATUS.holdover follows (R211). -/
def Dev.enterServo (d : Dev) (st : Nat) : Dev :=
  if d.servo = st then d
  else
    let d := (d.setF F.BELL_STATUS_servo_state st).setB F.TOP_STATUS_holdover (st == 3)
    let d := d.updBell fun b => { b with small := 0, lastUpdate := d.clk }
    d.raise 0x0301 0 0 0 (bellDetail (toSigned 64 (d.getF F.BELL_OFFSET_theta)) st 0)

/-- Eight small offsets in a row lock the servo (R211). -/
def Dev.servoLock (d : Dev) : Dev := if d.servo = 1 ∧ 8 ≤ d.bell.small then d.enterServo 2 else d

/-- An accepted update with offset θ in 1/256 ns (R211–R213). -/
def Dev.servoUpdate (d : Dev) (theta : Int) : Dev :=
  let d := d.setF F.BELL_OFFSET_theta (ofSigned 64 theta)
  let mag : Int := theta.natAbs
  let d := if d.servo = 3 ∨ (d.servo = 2 ∧ 4 * d.lockThr ≤ mag) then d.enterServo 1 else d
  let d := d.updBell fun b => { b with lastUpdate := d.clk, small := if mag < d.lockThr then b.small + 1 else 0 }
  if d.servo = 1 ∧ d.stepThr ≤ mag ∧ d.flag F.BELL_CTL_auto_step ∧ !d.locked then
    let d := d.updBell fun b => { b with stepPend := some (-theta) }
    (d.raise 0x0303 0 0 0 (bellDetail (-theta) d.servo 0)).servoLock
  else
    let d := if d.servo = 1 ∧ d.stepThr ≤ mag ∧ d.locked then d.raise 0x0302 0 0 0 (bellDetail theta d.servo 0) else d
    let t : Int := max (-(2 ^ 40)) (min (2 ^ 40) theta)
    let acc := clampRate (d.bell.acc - (t * (d.getF F.BELL_SERVO_GAIN_ki : Int)) / 256)
    let r := clampRate (acc - (t * (d.getF F.BELL_SERVO_GAIN_kp : Int)) / 256)
    let d := d.updBell fun b => { b with acc := acc }
    let d := if r = rateLim ∨ r = -rateLim then d.bump R.BELL_SERVO_CLAMP else d
    (d.requestRate r).servoLock

/-- A write of BELL_CTL (R211): a new source moves the servo to FREERUN (NONE) or ACQUIRING. -/
def Dev.bellCtl (d : Dev) (v : Nat) : Dev :=
  let old := d.getF F.BELL_CTL_source
  let d := d.storeReg R.BELL_CTL v
  let new := d.getF F.BELL_CTL_source
  if new = old then d
  else if new = 0 then (d.enterServo 0).requestRate (toSigned 32 (d.getF F.BELL_RATE_MANUAL_rate))
  else
    let d := if d.servo = 0 then d.updBell fun b => { b with acc := b.rate } else d
    (d.enterServo 1).updBell fun b => { b with lastUpdate := d.clk, small := 0 }

/-- A write of BELL_RATE_MANUAL takes effect in FREERUN (R211). -/
def Dev.rateManualWritten (d : Dev) : Dev :=
  if d.servo = 0 then d.requestRate (toSigned 32 (d.getF F.BELL_RATE_MANUAL_rate)) else d

/-- log_sync: −7 to 0, other values act as −3 (R229). -/
def Dev.logSync (d : Dev) : Nat :=
  let v := toSigned 4 (d.getF F.BELL_PTP_CTL_log_sync)
  if -7 ≤ v ∧ v ≤ 0 then (-v).toNat else 3

/-- The update interval of the source, in units of the model's clock (R211, R413). -/
def Dev.updateInterval (d : Dev) : Nat :=
  match d.getF F.BELL_CTL_source with
  | 1 => 24000000000 / 2 ^ d.logSync
  | 2 => 24000000000
  | _ => 24000 * max 125 (d.getF F.LINK_TIME_CTL_interval)

/-- HOLDOVER_TIMEOUT (R211, R214): holdover_to intervals without an update while ACQUIRING or LOCKED. -/
def execHoldoverTimeout (s : State) : Host.Outcome State Fault Refusal :=
  s.withDev fun d =>
    if (d.servo = 1 ∨ d.servo = 2) ∧ d.bell.lastUpdate + max 1 (d.getF F.BELL_SERVO_LIMITS_holdover_to) * d.updateInterval ≤ d.clk then
      (d.enterServo 3).requestRate d.bell.acc
    else d

/-! ### PTP (R215–R219) -/

/-- The state of a PTP port. -/
def Dev.ptp (d : Dev) (p : Nat) : PtpPort := SMap.get (fun _ => {}) d.bell.ports p
/-- Change a PTP port. -/
def Dev.updPtp (d : Dev) (p : Nat) (f : PtpPort → PtpPort) : Dev :=
  d.updBell fun b => { b with ports := SMap.modify (fun _ => {}) b.ports p f }

/-- The role of a port (R216): 0 disabled, 1 master, 2 slave; only the lowest slave port stands. -/
def Dev.ptpRole (d : Dev) (p : Nat) : Nat :=
  let r := fun i => field (d.getF F.BELL_PTP_ROLE_role) (2 * i) 2
  if !d.flag F.BELL_PTP_CTL_enable then 0
  else match r p with
    | 1 => 1
    | 2 => if (List.range p).any fun i => r i == 2 then 0 else 2
    | _ => 0

/-- Peer-to-peer delay: delay_mech, or profile 802.1AS (R215). -/
def Dev.ptpPeer (d : Dev) : Bool := d.flag F.BELL_PTP_CTL_delay_mech || d.flag F.BELL_PTP_CTL_profile

/-- Ingress stamp of a message that arrives now (R165, R217). -/
def Dev.ingress (d : Dev) (p : Nat) : Nat := d.dev256 - d.getF (F.GATE_ETH_INGRESS_CORR_corr p)
/-- Egress stamp of a message that leaves now (R165, R217). -/
def Dev.egress (d : Dev) (p : Nat) : Nat := d.dev256 + d.getF (F.GATE_ETH_EGRESS_CORR_corr p)

/-- PTP_DISCARD with its reason (R219, R228). -/
def Dev.ptpDiscard (d : Dev) (p reason : Nat) : Dev :=
  (d.bump R.BELL_PTP_DISCARD).raise 0x0305 p 0 0 (bellDetail 0 d.servo reason)

/-- A PTP timestamp in 1/256 ns; none beyond 2^64 − 1 ns (R217). -/
def ptpTime (m : PtpMsg) : Option Nat :=
  let ns := m.sec.toNat * 1000000000 + m.ns.toNat
  if 2 ^ 64 ≤ ns then none else some (ns * 256)

/-- The checks of R219 on a message of type `mtype` for a port that runs PTP, then its handling. -/
def Dev.ptpAccept (d : Dev) (p mtype : Nat) (m : PtpMsg) (k : Dev → Dev) : Dev :=
  if d.ptpRole p = 0 then d
  else if m.malformed then d.ptpDiscard p 2
  else if m.mtype.toNat ≠ mtype then d.ptpDiscard p 3
  else if m.domain.toNat ≠ d.getF F.BELL_PTP_CTL_domain then d.ptpDiscard p 1
  else k d

/-- Round a number of 2^-k units to whole units, ties to even. -/
def rneShift (v : Int) (k : Nat) : Int :=
  let q := Fp.roundShift .rne (decide (v < 0)) v.natAbs (k : Int)
  if v < 0 then -(q : Int) else q

/-- A correction field as a signed number of 2^-16 ns. -/
def corrOf (m : PtpMsg) : Int := m.corr.toInt

/-- The mean path delay in force, 1/256 ns. -/
def Dev.pathDelay (d : Dev) : Int := (d.getF F.BELL_PATH_DELAY_delay : Int)

/-- An offset measurement (R217): θ = t2 − t1 − c − d, an update when PTP is the source. -/
def Dev.ptpOffset (d : Dev) (p t1 t2 : Nat) (corr : Int) : Dev :=
  let d := d.updPtp p fun x => { x with last := some (t1, t2, corr), sync := none }
  let theta : Int := (t2 : Int) - t1 - rneShift corr 8 - d.pathDelay
  if d.getF F.BELL_CTL_source = 1 then d.servoUpdate theta else d

/-- A delay measurement in 2^-17 ns (R217): outside 0 to 1 ms it is discarded; the mean of the last 8 is shown. -/
def Dev.ptpDelay (d : Dev) (p : Nat) (v : Int) : Dev :=
  if v < 0 ∨ 1000000 * 2 ^ 17 < v then d.ptpDiscard p 5
  else
    let l := (v.toNat :: d.bell.delays).take 8
    let sum := l.foldl (· + ·) 0
    let mean := rneShift (((sum * 2 ^ 20 / l.length : Nat) : Int)) 29
    (d.updBell fun b => { b with delays := l }).setF F.BELL_PATH_DELAY_delay mean.toNat

/-- PTP_SYNC (R217). -/
def execPtpSync (port : BitVec 2) (m : PtpMsg) (s : State) : Host.Outcome State Fault Refusal :=
  s.withDev fun d => d.ptpAccept port.toNat 0 m fun d =>
    let p := port.toNat
    if d.ptpRole p ≠ 2 then d
    else
      let t2 := d.ingress p
      if m.twoStep then d.updPtp p fun x => { x with sync := some (m.seq.toNat, t2, corrOf m) }
      else match ptpTime m with
        | none => d.ptpDiscard p 5
        | some t1 => d.ptpOffset p t1 t2 (corrOf m)

/-- PTP_FOLLOW_UP (R217). -/
def execPtpFollowUp (port : BitVec 2) (m : PtpMsg) (s : State) : Host.Outcome State Fault Refusal :=
  s.withDev fun d => d.ptpAccept port.toNat 8 m fun d =>
    let p := port.toNat
    match (d.ptp p).sync with
    | some (seq, t2, c) =>
      if d.ptpRole p ≠ 2 ∨ seq ≠ m.seq.toNat then d
      else match ptpTime m with
        | none => d.ptpDiscard p 5
        | some t1 => d.ptpOffset p t1 t2 (c + corrOf m)
    | none => d

/-- The message a port sends (R215): its own clock identity and the domain. -/
def Dev.ptpMsg (d : Dev) (mtype seq : Nat) : PtpMsg :=
  { malformed := false, mtype := BitVec.ofNat 4 mtype, domain := BitVec.ofNat 8 (d.getF F.BELL_PTP_CTL_domain),
    seq := BitVec.ofNat 16 seq, source := d.reg R.BELL_PTP_CLOCK_ID, twoStep := false, corr := 0, sec := 0, ns := 0,
    requester := 0, announce := [] }

/-- The transport of the messages sent (R215): 0 Layer 2, 1 UDP over IPv4, 2 UDP over IPv6; profile 1 forces Layer 2. -/
def Dev.ptpTransport (d : Dev) : Nat :=
  let v := d.getF F.BELL_PTP_CTL_transport
  if d.flag F.BELL_PTP_CTL_profile ∨ v = 3 then 0 else v

/-- A message leaves a port. -/
def Dev.ptpSend (d : Dev) (p : Nat) (m : PtpMsg) : Dev := d.emit (.ptp p d.ptpTransport m)

/-- A message with a timestamp in 1/256 ns: whole ns in the timestamp, the fraction in the correction field. -/
def ptpStamped (m : PtpMsg) (t : Nat) : PtpMsg :=
  { m with sec := BitVec.ofNat 48 (t / 256 / 1000000000), ns := BitVec.ofNat 32 (t / 256 % 1000000000),
           corr := m.corr + BitVec.ofNat 64 (t % 256 * 256) }

/-- Whether a port may answer one more request in this second (R216). -/
def Dev.ptpMayAnswer (d : Dev) (p : Nat) : Bool :=
  let x := d.ptp p
  !(decide (x.answeredFrom ≤ d.dev256) && decide (d.dev256 < x.answeredFrom + 256000000000)) || decide (x.answered < 1024)

/-- Count an answered request. -/
def Dev.ptpAnswered (d : Dev) (p : Nat) : Dev :=
  let now := d.dev256
  d.updPtp p fun x =>
    if x.answeredFrom ≤ now ∧ now < x.answeredFrom + 256000000000 ∧ x.answered ≠ 0 then { x with answered := x.answered + 1 }
    else { x with answered := 1, answeredFrom := now }

/-- PTP_DELAY_REQ (R216): a master port answers with its ingress stamp. -/
def execPtpDelayReq (port : BitVec 2) (m : PtpMsg) (s : State) : Host.Outcome State Fault Refusal :=
  s.withDev fun d => d.ptpAccept port.toNat 1 m fun d =>
    let p := port.toNat
    if d.ptpRole p ≠ 1 then d
    else if !d.ptpMayAnswer p then d.ptpDiscard p 4
    else
      let r := { d.ptpMsg 9 m.seq.toNat with requester := m.source }
      let t := ptpStamped r (d.ingress p)
      (d.ptpAnswered p).ptpSend p { t with corr := m.corr - t.corr }

/-- PTP_PDELAY_REQ (R216): the answer carries the ingress stamp; a Pdelay_Resp_Follow_Up carries the answer's egress stamp. -/
def execPtpPdelayReq (port : BitVec 2) (m : PtpMsg) (s : State) : Host.Outcome State Fault Refusal :=
  s.withDev fun d => d.ptpAccept port.toNat 2 m fun d =>
    let p := port.toNat
    if !d.ptpMayAnswer p then d.ptpDiscard p 4
    else
      let r := { d.ptpMsg 3 m.seq.toNat with requester := m.source, twoStep := true }
      let f := { d.ptpMsg 10 m.seq.toNat with requester := m.source, corr := m.corr }
      let t := ptpStamped r (d.ingress p)
      ((d.ptpAnswered p).ptpSend p { t with corr := 0 - t.corr }).ptpSend p (ptpStamped f (d.egress p))

/-- PTP_DELAY_REQ_INTERVAL (R217): the slave port sends a Delay_Req, or any port in peer-to-peer mode a Pdelay_Req, and keeps its
egress stamp. -/
def execPtpDelayReqInterval (port : BitVec 2) (s : State) : Host.Outcome State Fault Refusal :=
  s.withDev fun d =>
    let p := port.toNat
    if d.ptpRole p = 0 ∨ (!d.ptpPeer ∧ d.ptpRole p ≠ 2) then d
    else
      let seq := (d.ptp p).reqSeq
      let t := d.egress p
      (d.updPtp p fun x => { x with reqSeq := (seq + 1) % 65536, req := some (seq, t), presp := none }).ptpSend p
        (d.ptpMsg (if d.ptpPeer then 2 else 1) seq)

/-- PTP_DELAY_RESP (R217): the end-to-end delay ((t2 − t1) + (t4 − t3) − corrections) / 2. -/
def execPtpDelayResp (port : BitVec 2) (m : PtpMsg) (s : State) : Host.Outcome State Fault Refusal :=
  s.withDev fun d => d.ptpAccept port.toNat 9 m fun d =>
    let p := port.toNat
    match (d.ptp p).req, (d.ptp p).last with
    | some (seq, t3), some (t1, t2, c) =>
      if d.ptpRole p ≠ 2 ∨ d.ptpPeer ∨ seq ≠ m.seq.toNat ∨ m.requester ≠ d.reg R.BELL_PTP_CLOCK_ID then d
      else match ptpTime m with
        | none => d.ptpDiscard p 5
        | some t4 =>
          (d.updPtp p fun x => { x with req := none }).ptpDelay p
            ((((t2 : Int) - t1) + ((t4 : Int) - t3)) * 256 - c - corrOf m)
    | _, _ => d

/-- PTP_PDELAY_RESP (R217): on the slave port; one-step, the correction carries the turnaround; two-step, the Follow_Up completes it. -/
def execPtpPdelayResp (port : BitVec 2) (m : PtpMsg) (s : State) : Host.Outcome State Fault Refusal :=
  s.withDev fun d => d.ptpAccept port.toNat 3 m fun d =>
    let p := port.toNat
    let t4 := d.ingress p
    match (d.ptp p).req with
    | some (seq, t1) =>
      if d.ptpRole p ≠ 2 ∨ !d.ptpPeer ∨ seq ≠ m.seq.toNat ∨ m.requester ≠ d.reg R.BELL_PTP_CLOCK_ID then d
      else if m.twoStep then match ptpTime m with
        | none => d.ptpDiscard p 5
        | some t2 => d.updPtp p fun x => { x with presp := some (t2, t4, corrOf m) }
      else (d.updPtp p fun x => { x with req := none }).ptpDelay p (((t4 : Int) - t1) * 256 - corrOf m)
    | none => d

/-- PTP_PDELAY_RESP_FOLLOW_UP (R217): on the slave port, ((t4 − t1) − (t3 − t2) − corrections) / 2. -/
def execPtpPdelayRespFollowUp (port : BitVec 2) (m : PtpMsg) (s : State) : Host.Outcome State Fault Refusal :=
  s.withDev fun d => d.ptpAccept port.toNat 10 m fun d =>
    let p := port.toNat
    match (d.ptp p).req, (d.ptp p).presp with
    | some (seq, t1), some (t2, t4, c) =>
      if d.ptpRole p ≠ 2 ∨ !d.ptpPeer ∨ seq ≠ m.seq.toNat ∨ m.requester ≠ d.reg R.BELL_PTP_CLOCK_ID then d
      else match ptpTime m with
        | none => d.ptpDiscard p 5
        | some t3 =>
          (d.updPtp p fun x => { x with req := none, presp := none }).ptpDelay p
            ((((t4 : Int) - t1) - ((t3 : Int) - t2)) * 256 - c - corrOf m)
    | _, _ => d

/-- The body of an Announce (R218; log 50): currentUtcOffset, a zero byte, priority1, clockClass, clockAccuracy, variance,
priority2, grandmaster identity, stepsRemoved, timeSource, currentUtcOffsetValid. -/
def Dev.announceBody (d : Dev) (variance : Nat) : List Byte :=
  let gm := d.bell.grandmaster
  let utc := beBytes 2 (d.getF F.BELL_UTC_OFFSET_offset)
  let valid := leBytes 1 (d.getF F.BELL_UTC_OFFSET_valid)
  if d.servo = 0 ∨ gm.length < 20 then
    utc ++ [0, 128, 248, 0xFE] ++ beBytes 2 variance ++ [128] ++ beBytes 8 (d.reg R.BELL_PTP_CLOCK_ID).toNat ++ beBytes 2 0 ++ [0xA0] ++ valid
  else
    utc ++ [0, 128] ++ (gm.drop 4).take 4 ++ [128] ++ (gm.drop 9).take 8 ++ beBytes 2 (beAt gm 17 2 + 1) ++ (gm.drop 19).take 1 ++ valid

/-- PTP_ANNOUNCE (R218): the slave port keeps the grandmaster fields and the UTC offset. -/
def execPtpAnnounce (port : BitVec 2) (m : PtpMsg) (s : State) : Host.Outcome State Fault Refusal :=
  s.withDev fun d => d.ptpAccept port.toNat 11 m fun d =>
    if d.ptpRole port.toNat ≠ 2 then d
    else if m.announce.length < 20 then d.ptpDiscard port.toNat 2
    else
      let d := d.updBell fun b => { b with grandmaster := m.announce.take 20 }
      (d.setF F.BELL_UTC_OFFSET_offset (beAt m.announce 0 2)).setF F.BELL_UTC_OFFSET_valid (leAt m.announce 20 1)

/-- log_announce: −3 to 3, other values act as 0 (R229); the interval in units of `Dev.clk`. -/
def Dev.announceInterval (d : Dev) : Nat :=
  let v := toSigned 4 (d.getF F.BELL_PTP_CTL_log_announce)
  let v := if -3 ≤ v ∧ v ≤ 3 then v else 0
  24000000000 * 2 ^ (v + 3).toNat / 8

/-- A message that was last sent at `last` is due again after an interval. -/
def Dev.ptpDue (d : Dev) (last : Option Nat) (interval : Nat) : Bool := last.all fun t => decide (t + interval ≤ d.clk)

/-- PTP_SYNC_INTERVAL (R216): at its interval a master port sends Sync, in two-step mode with its Follow_Up. -/
def execPtpSyncInterval (port : BitVec 2) (s : State) : Host.Outcome State Fault Refusal :=
  s.withDev fun d =>
    let p := port.toNat
    if d.ptpRole p ≠ 1 ∨ !d.ptpDue (d.ptp p).syncAt (24000000000 / 2 ^ d.logSync) then d
    else
      let seq := (d.ptp p).txSeq
      let t := d.egress p
      let d := d.updPtp p fun x => { x with txSeq := (seq + 1) % 65536, syncAt := some d.clk }
      if d.flag F.BELL_PTP_CTL_one_step then d.ptpSend p (ptpStamped (d.ptpMsg 0 seq) t)
      else (d.ptpSend p { d.ptpMsg 0 seq with twoStep := true }).ptpSend p (ptpStamped (d.ptpMsg 8 seq) t)

/-- PTP_ANNOUNCE_INTERVAL (R216, R218): at its interval a master port sends Announce. The variance of FREERUN is not stated: a free value (log 51). -/
def execPtpAnnounceInterval (port : BitVec 2) (s : State) : Host.Outcome State Fault Refusal :=
  s.withDev fun d =>
    let p := port.toNat
    if d.ptpRole p ≠ 1 ∨ !d.ptpDue (d.ptp p).annAt d.announceInterval then d
    else
      let (v, d) := d.fresh
      let seq := (d.ptp p).annSeq
      let m := { d.ptpMsg 11 seq with announce := d.announceBody v }
      (d.updPtp p fun x => { x with annSeq := (seq + 1) % 65536, annAt := some d.clk }).ptpSend p m

/-! ### 1PPS (R220, R221, R229) -/

/-- The latest T edge is the first whose device time is at or after a whole second (R220): the edge before it lay below that second. -/
def Dev.secondEdge (d : Dev) : Bool :=
  match d.bell.hist with
  | [] => false
  | now :: before => decide (before.headD 0 / 256000000000 < now / 256000000000)

/-- PPS_OUT_RISE (R220): the output rises after the first T edge at or after a whole second of device time. -/
def execPpsOutRise (s : State) : Host.Outcome State Fault Refusal :=
  s.withDev fun d =>
    if !d.flag F.BELL_PPS_CTL_out_en ∨ d.bell.ppsHigh ∨ !d.secondEdge ∨ d.bell.ppsEdge = d.bell.tEdges then d
    else
      let w := d.getF F.BELL_PPS_CTL_out_width
      let width := if 1 ≤ w ∧ w ≤ 999999 then w else 100000
      (d.updBell fun b => { b with ppsHigh := true, ppsEdge := b.tEdges, ppsFall := d.dev256 + width * 256000 }).emit (.pin "PPS_OUT" 0 true)

/-- PPS_OUT_FALL (R220). -/
def execPpsOutFall (s : State) : Host.Outcome State Fault Refusal :=
  s.withDev fun d =>
    if !d.bell.ppsHigh ∨ d.dev256 < d.bell.ppsFall then d
    else (d.updBell fun b => { b with ppsHigh := false }).emit (.pin "PPS_OUT" 0 false)

/-- PPS_IN (R221): an accepted pulse is stamped and stored, PPS_IN raised; it is an update when PPS is the source. -/
def execPpsIn (s : State) : Host.Outcome State Fault Refusal :=
  s.withDev fun d =>
    if !d.flag F.BELL_PPS_CTL_in_en then d
    else
      let (d, c) := d.takeStamp 36 (1 + d.getF F.BELL_PPS_CTL_filter) (!d.flag F.BELL_PPS_CTL_in_pol)
      let st := c.time - 256
      if (match d.bell.ppsLast with
          | some t => decide (t ≤ st) && decide (st < t + 128000000000)
          | none => false) then d
      else
        let sec : Nat := 256000000000
        let r := st % sec
        let theta : Int := if r < sec / 2 then (r : Int) else (r : Int) - sec
        let d := d.setF F.BELL_PPS_IN_STAMP_ns (st / 256)
        let d := (d.updBell fun b => { b with ppsLast := some st, ppsSeenT := d.clk }).setF F.BELL_STATUS_pps_in_seen 1
        let d := d.raise 0x0307 0 0 0 (bellDetail theta 36 0)
        if d.getF F.BELL_CTL_source = 2 then d.servoUpdate theta else d

/-- PPS_IN_SEEN_EXPIRY (R229): no pulse has been accepted for 2 s. -/
def execPpsInSeenExpiry (s : State) : Host.Outcome State Fault Refusal :=
  s.withDev fun d =>
    if d.flag F.BELL_STATUS_pps_in_seen ∧ d.bell.ppsSeenT + 48000000000 ≤ d.clk then d.setF F.BELL_STATUS_pps_in_seen 0 else d

/-! ### Board time over Poleino (R413) -/

/-- A Poleino port is up. -/
def Dev.linkUp (d : Dev) (p : Nat) : Bool := d.getF (F.LINK_PORT_STATE_state p) == 2

/-- TIME_REQUEST (R413): with source LINK, a TIME flit leaves on the source port, stamped t1. -/
def execTimeRequest (s : State) : Host.Outcome State Fault Refusal :=
  s.withDev fun d =>
    let p := d.getF F.BELL_CTL_link_port
    if d.getF F.BELL_CTL_source = 3 ∧ d.flag F.LINK_TIME_CTL_enable ∧ d.linkUp p then
      (d.updBell fun b => { b with timeReq := true }).emit (.link p 3 (leBytes 8 d.dev256))
    else d

/-- TIME_ANSWER (R413): an up port stamps the arrival as t2 and its answer as t3. -/
def execTimeAnswer (port : BitVec 2) (t1 : BitVec 64) (s : State) : Host.Outcome State Fault Refusal :=
  s.withDev fun d =>
    if d.linkUp port.toNat then
      d.emit (.timeAnswer port.toNat t1 (BitVec.ofNat 64 d.dev256) (BitVec.ofNat 64 d.dev256))
    else d

/-- TIME_RESPONSE (R413): the arrival is t4; θ = (s64(t1 + t4) − s64(t2 + t3)) >> 1 is shown and is a servo update. -/
def execTimeResponse (port : BitVec 2) (t1 t2 t3 : BitVec 64) (s : State) : Host.Outcome State Fault Refusal :=
  s.withDev fun d =>
    let p := port.toNat
    if d.getF F.BELL_CTL_source = 3 ∧ d.getF F.BELL_CTL_link_port = p ∧ d.linkUp p ∧ d.bell.timeReq then
      let t4 : BitVec 64 := BitVec.ofNat 64 d.dev256
      let theta : Int := ((t1 + t4).toInt - (t2 + t3).toInt) / 2
      let d := (d.updBell fun b => { b with timeReq := false }).setF (F.LINK_PORT_TIME_OFFSET_theta p) (ofSigned 64 theta)
      d.servoUpdate theta
    else d

/-! ### Virtual time (R223, R224) -/

/-- An advance below the pending value is refused and reported (R223). -/
def Dev.vtRegress (d : Dev) (ctx v : Nat) : Dev :=
  (d.bump R.BELL_VT_REGRESS).raise 0x0304 0 ctx (d.ctxOf ctx).gen (bellDetail (v : Int) d.servo 0)

/-- The pending virtual time takes a value; the one before this F clock is kept for a boundary in it (R224). -/
def Ctx.vtTake (c : Ctx) (now v : Nat) : Ctx :=
  { c with vtPend := v, vtPrev := if c.vtSetF = now then c.vtPrev else c.vtPend, vtSetF := now }

/-- Request an advance of a context's virtual time: below the pending value it is refused and reported (R223). -/
def Dev.vtAdvance (d : Dev) (ctx v : Nat) : Dev :=
  let c := d.ctxOf ctx
  if v < c.vtPend then d.vtRegress ctx v
  else if v = c.vtPend then d
  else d.updCtx ctx fun c => c.vtTake (d.fclk + 1) v

/-- An advance through BELL_VT_PENDING: what it asked is kept for this F clock, in which a doorbell goes before it (R224). -/
def Dev.vtAdvanceReg (d : Dev) (ctx v : Nat) : Dev :=
  let c := d.ctxOf ctx
  let (base, vs) := match c.vtReg with
    | some (f, b, l) => if f = d.fclk then (b, l) else (c.vtPend, [])
    | none => (c.vtPend, [])
  let d' := d.vtAdvance ctx v
  if v < c.vtPend then d' else d'.updCtx ctx fun c => { c with vtReg := some (d.fclk, base, vs ++ [v]) }

/-- An advance through a doorbell (R224): it is applied before the register advances of the same F clock, which it may make regress. -/
def Dev.vtAdvanceBell (d : Dev) (ctx v : Nat) : Dev :=
  let c := d.ctxOf ctx
  match c.vtReg with
  | some (f, base, vs) =>
    if f ≠ d.fclk then d.vtAdvance ctx v
    else if v < base then d.vtRegress ctx v
    else
      let low := vs.filter fun x => decide (x < v)
      let d := low.foldl (fun (d : Dev) x => d.vtRegress ctx x) d
      d.updCtx ctx fun c =>
        let c := { c with vtReg := some (f, v, vs.filter fun x => decide (v ≤ x)) }
        if c.vtPend < v then c.vtTake (d.fclk + 1) v else c
  | none => d.vtAdvance ctx v

/-- The boundary copies the pending virtual times; one written in the boundary's own F clock waits for the next (R224). -/
def Dev.vtBoundary (d : Dev) : Dev :=
  let now := d.fclk + 1
  d.ctxs.foldl (fun d e => d.updCtx e.1 fun c => { c with vtCur := if c.vtSetF = now then c.vtPrev else c.vtPend }) d

/-! ### The Almanac (R225–R227) -/

/-- A write of BELL_ALM_SET (R31, R227): the seconds are held for domain A; discarded while the servo is LOCKED. -/
def Dev.almSet (d : Dev) (v : Nat) : Dev := if d.servo = 2 then d else d.updBell fun b => { b with almHeld := some (v % 2 ^ 48, d.clk) }

/-- A held value is taken at the first A edge at least 100 ns after its write (R31). -/
def Dev.almReady (d : Dev) : Option Nat :=
  match d.bell.almHeld with
  | some (v, at') => if at' + 2400 ≤ d.clk then some v else none
  | none => none

/-- The seed of device time from the Almanac in 1/256 ns (R226): a u64 count of ns and its fraction, 6 ns later. -/
def almSeed (a : Almanac) : Nat :=
  let sub := a.ticks * 7812500
  ((a.sec * 1000000000 + sub / 256) % 2 ^ 64 * 256 + sub % 256 + 6 * 256) % 2 ^ 72

/-- ALMANAC_TICK (R225–R227): an A edge counts one tick; a rewrite from device time, or else a held set, replaces the count; the
first A edge after a device reset seeds device time. -/
def execAlmanacTick (s : State) : Host.Outcome State Fault Refusal :=
  let d := s.dev
  let a := s.kept.alm
  if a.stopped then .next s
  else
    let total := a.sec * 32768 + a.ticks + 1
    let counted : Almanac := { a with sec := total / 32768 % 2 ^ 48, ticks := total % 32768 }
    let devSec := d.devNs / 1000000000
    let rewrite := d.servo == 2 && d.flag F.BELL_CTL_alm_rewrite && devSec != d.bell.almSec
    let a' : Almanac :=
      if rewrite then { counted with sec := devSec % 2 ^ 48, ticks := 0, valid := true }
      else match d.almReady with
        | some v => { counted with sec := v, ticks := 0, valid := true }
        | none => counted
    let d := d.updBell fun b => { b with almHeld := if d.almReady.isSome then none else b.almHeld, almSec := devSec,
                                         seedPend := b.seedPend && !d.pwr.good }
    let d := if !s.dev.bell.seedPend || !s.dev.pwr.good then d
      else if a'.valid then d.updBell fun b => { b with setPend := some (almSeed a', true) }
      else (d.updBell fun b => { b with setPend := some (0, false) }).raise 0x0306 0 0 0 (bellDetail 0 d.servo 0)
    .next { s with dev := d, kept := { s.kept with alm := a' } }

/-- ALMANAC_SUPPLY_CHANGE (R225, R519, R520): the source shown in BELL_ALM_STATUS; with none left the Almanac stops, valid
clears and lost sets. -/
def execAlmanacSupplyChange (x : AlmSupply) (s : State) : Host.Outcome State Fault Refusal :=
  let a := s.kept.alm
  let a' : Almanac := match x with
    | .standby => { a with supply := 0, stopped := false }
    | .cap => { a with supply := 1, capLow := false, stopped := false }
    | .capLow => { a with capLow := true }
    | .capOk => { a with capLow := false }
    | .coin => { a with supply := 2, capLow := true, stopped := false }
    | .none => { a with stopped := true, valid := false, lost := true, capLow := true }
  .next { s with kept := { s.kept with alm := a' } }

end Sys2Proof.Machine
end

