-- ==== Sys2Proof/Machine/Control.lean ====
section
/-! DEFINITION. The control slot K (R71–R78): branches, loops, waits, checkpoints, commit and squash, the end of a slice, traps; and
the plough's way from one bundle to the next. -/

namespace Sys2Proof.Machine

/-! ### From one bundle to the next (R72, R74) -/

/-- The address `n` bundles on from `pc`, modulo 2^64. -/
def bundleAt (pc : Nat) (n : Int) : Nat := (((pc : Int) + 64 * n) % (2 ^ 64 : Int)).toNat

/-- What follows the bundle at `pc` in the loops that are active, innermost first: the next iteration of a body that ends there, or
the next sequential bundle (R74). -/
def stepLoops (pc : Nat) : List LoopLvl → Nat × List LoopLvl
  | [] => (bundleAt pc 1, [])
  | l :: ls =>
    if pc = l.last then
      if 1 < l.left then (l.first, { l with left := l.left - 1 } :: ls) else stepLoops pc ls
    else (bundleAt pc 1, l :: ls)

/-- The plough goes on to its next bundle, which issues at C clock `now` (R72, R74): the delay bundles of a branch are the next two
sequential ones, its target ends the loops whose body it leaves, and a loop of count 0 passes its body. -/
def Plough.advance (pl : Plough) (now : Nat) : Plough :=
  let pl := { pl with pcAt := now }
  match pl.branch with
  | some (t, 0) => { pl with pc := t, branch := none, loops := pl.loops.filter fun l => decide (l.first ≤ t) && decide (t ≤ l.last) }
  | some (t, n + 1) => { pl with pc := bundleAt pl.pc 1, branch := some (t, n) }
  | none =>
    match pl.loopEnter with
    | some l =>
      if l.left = 0 then
        let x := stepLoops l.last pl.loops
        { pl with pc := x.1, loops := x.2, loopEnter := none }
      else { pl with pc := bundleAt pl.pc 1, loops := l :: pl.loops, loopEnter := none }
    | none =>
      let x := stepLoops pl.pc pl.loops
      { pl with pc := x.1, loops := x.2 }

/-! ### The control slot (R71) -/

/-- The places that R73 forbids: a delay bundle, and the last bundle of a loop body. -/
def Plough.misplaced (pl : Plough) : Bool := pl.branch.isSome || pl.loops.any fun l => l.last == pl.pc

/-- A control slot whose place R73 restricts: ILLEGAL in a delay bundle or in the last bundle of a loop body, whatever its guard. -/
def Dev.placedRun (d : Dev) (p : Runner) (w : BitVec 64) (okBits : Bool) (body : Plough → Dev → Dev) : Dev :=
  d.slotRun p slotK w okBits body Plough.misplaced

/-- Branch to an address after two delay bundles (R72). -/
def Dev.branchTo (d : Dev) (n target : Nat) : Dev := d.updPlough n fun pl => { pl with branch := some (target, 2) }

/-- B (R71, R72). -/
def execB (p : Runner) (w : BitVec 64) (s : State) : Host.Outcome State Fault Refusal :=
  s.withDev fun d => d.placedRun p w (zeros w [(32, 19)]) fun v d => d.branchTo p.toNat (bundleAt v.pc (fImmInt w))

/-- BR (R71–R73): a target off the 64-byte grid faults with ALIGN. -/
def execBr (p : Runner) (w : BitVec 64) (s : State) : Host.Outcome State Fault Refusal :=
  s.withDev fun d => d.placedRun p w (zeros w [(45, 6), (0, 39)]) fun v d =>
    let t := (v.rdS (fRa w)).toNat
    if t % 64 ≠ 0 then d.plFault p.toNat slotK (faultAt fAlign 0 t) else d.branchTo p.toNat t

/-- CALL (R71, R72): s63 takes the address three bundles on, with the latency of a scalar result (log 10). -/
def execCall (p : Runner) (w : BitVec 64) (s : State) : Host.Outcome State Fault Refusal :=
  s.withDev fun d => d.placedRun p w (zeros w [(32, 19)]) fun v d =>
    (d.branchTo p.toNat (bundleAt v.pc (fImmInt w))).result p.toNat slotK 1 (.scalar 63 (BitVec.ofNat 64 (v.pc + 192)))

/-- Start a hardware loop (R74): a third active level faults with ILLEGAL; a count of 0 enters none. -/
def Dev.loopStart (d : Dev) (n : Nat) (v : Plough) (w : BitVec 64) (count : Nat) : Dev :=
  if count ≠ 0 ∧ 2 ≤ v.loops.length then d.plFault n slotK illegalF
  else d.updPlough n fun pl => { pl with loopEnter := some ⟨bundleAt v.pc 1, bundleAt v.pc (fImmInt w), count⟩ }

/-- LOOP (R74): the count is ra[31:0]. -/
def execLoop (p : Runner) (w : BitVec 64) (s : State) : Host.Outcome State Fault Refusal :=
  s.withDev fun d => d.placedRun p w (zeros w [(45, 6), (32, 7)]) fun v d =>
    d.loopStart p.toNat v w ((v.rdS (fRa w)).toNat % 2 ^ 32)

/-- LOOPI (R74): the count is bits [50:39]. -/
def execLoopi (p : Runner) (w : BitVec 64) (s : State) : Host.Outcome State Fault Refusal :=
  s.withDev fun d => d.placedRun p w (zeros w [(32, 7)]) fun v d => d.loopStart p.toNat v w (wf' w 39 12)

/-- A report that leaves the plough in the clock after issue (R75, R76). -/
def Dev.report (d : Dev) (n : Nat) (v : Plough) (num : Option Nat) : Dev :=
  let r : Report := ⟨d.cclk, d.ccount, v.pc, num⟩
  d.updPlough n fun pl => { pl with reports := pl.reports ++ [r] }

/-- WAITC (R75): the plough waits for the clock, or goes on and reports a late wait. -/
def execWaitc (p : Runner) (w : BitVec 64) (s : State) : Host.Outcome State Fault Refusal :=
  s.withDev fun d => d.ploughRun p slotK w (zeros w [(32, 19)]) fun v d =>
    if wf' w 0 32 ≤ d.ccount then d.report p.toNat v none
    else d.updPlough p.toNat fun pl => pl.hold (.clock (wf' w 0 32))

/-- The clock waits of a plough whose clock has come end. -/
def Plough.clockDone (pl : Plough) (ccount : Nat) : Plough :=
  { pl with waits := pl.waits.filter fun x => match x with
      | .clock c => decide (ccount < c)
      | _ => true }

/-- WAITC_RELEASE (R75): CCOUNT has reached the clock, and the next bundle issues, unless the bundle waits for something else too. -/
def execWaitcRelease (p : BitVec 4) (s : State) : Host.Outcome State Fault Refusal :=
  s.withDev fun d =>
    let n := p.toNat
    let pl := (d.plough n).clockDone d.ccount
    if pl.waits.length = (d.plough n).waits.length then d
    else if pl.waits.isEmpty then (d.updPlough n fun _ => pl.advance d.cclk).fetchRead n
    else d.updPlough n fun _ => pl

/-- CHKPT (R76): the checkpoint number and CCOUNT go to the Reeve in the clock after issue. -/
def execChkpt (p : Runner) (w : BitVec 64) (s : State) : Host.Outcome State Fault Refusal :=
  s.withDev fun d => d.ploughRun p slotK w (zeros w [(16, 35)]) fun v d => d.report p.toNat v (some (wf' w 0 16))

/-- Start COMMIT or SQUASH (R77) in a commit or squash window of the Yoke that serves the context. A mark that is sealed or squashed
already changes nothing. -/
def Dev.markStart (d : Dev) (n : Nat) (v : Plough) (w : BitVec 64) (squash : Bool) : Dev :=
  let t : PTag := ⟨wf' w 32 3, (v.rdS (fRa w)).toNat % 2 ^ 32⟩
  match d.windowFor 0 v.ctx fun e => e.kind == 0x20 + t.sched && e.flags.testBit (if squash then 2 else 1) with
  | none => d.plFault n slotK { code := fEngineWindow }
  | some _ =>
    let now := d.cclk
    d.updPlough n fun pl => { pl with
      markOps := pl.markOps ++ [⟨squash, t, now, now + (if squash then 64 else 16), (d.markSealed t).isSome⟩] }

/-- Reserved bits of COMMIT and SQUASH. -/
def markOk (w : BitVec 64) : Bool := zeros w [(45, 6), (35, 4), (0, 32)]

/-- COMMIT (R77). -/
def execCommit (p : Runner) (w : BitVec 64) (s : State) : Host.Outcome State Fault Refusal :=
  s.withDev fun d => d.ploughRun p slotK w (markOk w) fun v d => d.markStart p.toNat v w false

/-- SQUASH (R77). -/
def execSquash (p : Runner) (w : BitVec 64) (s : State) : Host.Outcome State Fault Refusal :=
  s.withDev fun d => d.ploughRun p slotK w (markOk w) fun v d => d.markStart p.toNat v w true

/-- SLICE_END (R78): the bundle stream stops; the context resumes at the next bundle in its next slice. -/
def execSliceEnd (p : Runner) (w : BitVec 64) (s : State) : Host.Outcome State Fault Refusal :=
  s.withDev fun d => d.ploughRun p slotK w (zeros w [(0, 51)]) fun _ d => d.updPlough p.toNat fun pl => { pl with ended := true, stopped := true }

/-- TRAP (R71): SOFT_TRAP with the code. -/
def execTrap (p : Runner) (w : BitVec 64) (s : State) : Host.Outcome State Fault Refusal :=
  s.withDev fun d => d.slotRun p slotK w (zeros w [(16, 35)]) fun _ d =>
    d.plFault p.toNat slotK (faultAt fSoftTrap 0 (wf' w 0 16))

/-! ### The end of COMMIT and SQUASH (R60, R77, R133) -/

/-- SQUASH zeroes s1 to s63, p1 to p15, v0 to v31 and a0 to a3 from the clock after issue (R60, R77); it cancels the rows of MMA that
have not landed, the rows of MDRAIN that have not been written, and every provisional weight buffer (R133), and with
the registers the results on their way to them (log 11). Tagged transfers of its queues are removed. -/
def Plough.squashZero (pl : Plough) (now : Nat) : Plough :=
  let wb := fun (b : WBuf) => if b.prov then ({} : WBuf) else b
  { pl with s := [], p := 0, v := [], a := [], w0 := wb pl.w0, w1 := wb pl.w1,
            pend := pl.pend.filter fun x => decide (now ≤ x.issue) || (match x.dst with
              | .desc .. => true
              | .counts .. => true
              | .memRow _ _ vis _ => decide (vis ≤ now)
              | .wbuf _ b => !b.prov
              | _ => false) }

/-- Move every region of schedule `s` that `p` admits to a state. -/
def Dev.moveRegions (d : Dev) (p : PRegion → Bool) (st : Nat) : Dev :=
  (List.range 256).foldl (fun d g =>
    let r := d.region g
    if r.state = 1 ∧ p r = true then d.setRegion g (if st = 0 then { sched := r.sched } else { r with state := st }) else d) d

/-- Remove the tagged transfers that SQUASH undoes, or untag those that COMMIT has made ordinary (R60). -/
def Dev.resolveDma (d : Dev) (t : PTag) (commit : Bool) : Dev :=
  iter 16 d fun n d => d.updPlough n fun pl =>
    let g := fun (l : List Dma) =>
      if commit then l.map fun (y : Dma) => if y.tag = some t then { y with tag := none } else y
      else l.filter fun y => y.tag != some t
    let f := fun (x : DmaQueue) => { x with xfers := g x.xfers }
    { pl with q0 := f pl.q0, q1 := f pl.q1, q2 := f pl.q2, q3 := f pl.q3 }

end Sys2Proof.Machine
end

