-- ==== Sys2Proof/Machine/Desc.lean ====
section
/-! DEFINITION. Tensor descriptors: their fields, the checks at load, element addresses, gather and scatter (R141–R151). -/

namespace Sys2Proof.Machine

/-- The fields of a descriptor (R141). -/
structure TDesc where
  base : Nat
  fmt : Nat
  nd : Nat
  mx : Bool
  mode : Nat
  idxMode : Nat
  noalias : Bool
  writable : Bool
  blockDim : Nat
  idxReg : Nat
  gatherDim : Nat
  scaleOff : Int
  ext : List Nat
  stride : List Int
  reserved : Bool
deriving DecidableEq, Repr

/-- Byte field of a descriptor. -/
def dField (v : BitVec 512) (byte lsb w : Nat) : Nat := field v.toNat (8 * byte + lsb) w

/-- Read a descriptor (R141); `reserved` says whether a reserved bit or code is non-zero. -/
def tdesc (v : BitVec 512) : TDesc :=
  { base := dField v 0 0 64, fmt := dField v 8 0 4, nd := dField v 8 4 3 + 1, mx := dField v 8 7 1 == 1,
    mode := dField v 9 0 3, idxMode := dField v 9 3 2, noalias := dField v 9 5 1 == 1, writable := dField v 9 6 1 == 1,
    blockDim := dField v 10 0 3, idxReg := dField v 10 3 5, gatherDim := dField v 11 0 3,
    scaleOff := toSigned 32 (dField v 12 0 32),
    ext := (List.range 6).map fun i => dField v (16 + 4 * i) 0 32,
    stride := (List.range 6).map fun i => toSigned 32 (dField v (40 + 4 * i) 0 32),
    reserved := dField v 9 7 1 != 0 || dField v 11 3 5 != 0 || decide (4 < dField v 9 0 3) || decide (5 < dField v 8 4 3)
      || !Fp.fmtValid (dField v 8 0 4) }

/-- Extent and stride of dimension i. -/
def TDesc.e (t : TDesc) (i : Nat) : Nat := t.ext.getD i 1
/-- Stride of dimension i. -/
def TDesc.st (t : TDesc) (i : Nat) : Int := t.stride.getD i 0
/-- Width of an element in bits. -/
def TDesc.width (t : TDesc) : Nat := Fp.fmtBits t.fmt

/-- Number of elements over the extents. -/
def TDesc.count (t : TDesc) : Nat := (List.range t.nd).foldl (fun n i => n * t.e i) 1

/-- Extents of the scale array (R144). -/
def TDesc.scaleExt (t : TDesc) (i : Nat) : Nat := if i = t.blockDim then ceilDiv (t.e i) 32 else t.e i

/-- Number of scale bytes. -/
def TDesc.scaleCount (t : TDesc) : Nat := (List.range t.nd).foldl (fun n i => n * t.scaleExt i) 1

/-- Lowest element offset reachable. -/
def TDesc.minOff (t : TDesc) : Int :=
  (List.range t.nd).foldl (fun s i => s + min 0 (((t.e i : Int) - 1) * t.st i)) 0
/-- Highest element offset reachable. -/
def TDesc.maxOff (t : TDesc) : Int :=
  (List.range t.nd).foldl (fun s i => s + max 0 (((t.e i : Int) - 1) * t.st i)) 0

/-- The format checks of R145. -/
def TDesc.formatBad (t : TDesc) : Bool :=
  let lo := (t.base * 8 : Int) + t.minOff * t.width
  let hi := (t.base * 8 : Int) + t.maxOff * t.width + t.width - 1
  let slo := (t.base : Int) + t.scaleOff
  let shi := slo + t.scaleCount - 1
  let lim := (2 ^ 48 : Int)
  t.reserved || decide (2 ^ 48 ≤ t.base) || (t.mx && (!Fp.fmtMx t.fmt || decide (t.nd ≤ t.blockDim)))
    || (List.range t.nd).any (fun i => t.e i == 0)
    || (List.range 6).any (fun i => decide (t.nd ≤ i) && (t.e i != 1 || t.st i != 0))
    || decide (lo < 0) || decide (lim * 8 ≤ hi) || (t.mx && (decide (slo < 0) || decide (lim ≤ shi)))

/-- Greatest common divisor with a coefficient: (g, x) with g = gcd a b and x · a ≡ g modulo b. -/
def egcd : Nat → Int → Int → Int × Int × Int
  | 0, a, _ => (a, 1, 0)
  | n + 1, a, b => if b = 0 then (a, 1, 0) else
      let (g, x, y) := egcd n b (a % b)
      (g, y, x - (a / b) * y)

/-- Ceiling and floor division by a positive number. -/
def cdiv (a b : Int) : Int := -((-a) / b)

/-- The t with |x0 + t m| < e, as a closed range (m ≠ 0). -/
def boundRange (x0 m : Int) (e : Nat) : Int × Int :=
  let lo := (-(e : Int) + 1 - x0)
  let hi := ((e : Int) - 1 - x0)
  if 0 < m then (cdiv lo m, hi / m) else (cdiv (-hi) (-m), (-lo) / (-m))

/-- Whether some (x, y) ≠ (0, 0) when c = 0, with |x| < e0 and |y| < e1, has x · s0 + y · s1 = c; s0 and s1 are not 0. -/
def solve2 (s0 s1 : Int) (e0 e1 : Nat) (c : Int) : Bool :=
  let (g0, x0, y0) := egcd 80 s0 s1
  let (g, x0, y0) := if g0 < 0 then (-g0, -x0, -y0) else (g0, x0, y0)
  if g = 0 ∨ c % g ≠ 0 then false
  else if c = 0 then
    decide ((s1 / g).natAbs < e0) && decide ((s0 / g).natAbs < e1)
  else
    let x := x0 * (c / g)
    let y := y0 * (c / g)
    let (a, b) := boundRange x (s1 / g) e0
    let (a', b') := boundRange y (-(s0 / g)) e1
    decide (max a a' ≤ min b b')

/-- Whether two distinct index vectors of up to three dimensions reach one element (R146); every stride of a dimension with
extent above 1 is non-zero. -/
def overlaps (dims : List (Nat × Int)) : Bool :=
  match dims with
  | [] => false
  | [_] => false
  | [(e0, s0), (e1, s1)] => solve2 s0 s1 e0 e1 0
  | (ea, sa) :: (eb, sb) :: (ec, sc) :: _ =>
    let span := (ea - 1) * sa.natAbs + (eb - 1) * sb.natAbs + (ec - 1) * sc.natAbs + 1
    if span < ea * eb * ec then true
    else
      let go := fun (e2 : Nat) (s2 : Int) (e0 : Nat) (s0 : Int) (e1 : Nat) (s1 : Int) =>
        (List.range e2).any fun k => solve2 s0 s1 e0 e1 (-((k : Int) * s2))
      if ea ≤ eb ∧ ea ≤ ec then go ea sa eb sb ec sc
      else if eb ≤ ea ∧ eb ≤ ec then go eb sb ea sa ec sc
      else go ec sc ea sa eb sb

/-- The alias check of R146 for a writable AFFINE descriptor: the reason, 0 when it is accepted. -/
def TDesc.aliasReason (t : TDesc) : Nat :=
  if !t.writable || t.mode != 0 then 0
  else
    let dims := ((List.range t.nd).map fun i => (t.e i, t.st i)).filter fun x => decide (1 < x.1)
    if dims.any fun x => x.2 == 0 then 1
    else if 4 ≤ t.nd then (if t.noalias then 0 else 3)
    else if overlaps dims then 2 else 0

/-- The index of iteration position `l` along each dimension, dimension 0 fastest (R143). -/
def TDesc.indices (ext : List Nat) (l : Nat) : List Nat :=
  match ext with
  | [] => []
  | e :: es => (l % max e 1) :: TDesc.indices es (l / max e 1)

/-- The bit address of an element (R142). -/
def TDesc.bitAddr (t : TDesc) (idx : List Nat) : Int :=
  (t.base * 8 : Int) + ((idx.zip t.stride).foldl (fun (s : Int) x => s + (x.1 : Int) * x.2) 0) * (t.width : Int)

/-- The byte address of the scale byte of an element (R144). -/
def TDesc.scaleAddr (t : TDesc) (idx : List Nat) : Int :=
  let pos := (List.range t.nd).reverse.foldl (fun acc i =>
    acc * t.scaleExt i + (if i = t.blockDim then idx.getD i 0 / 32 else idx.getD i 0)) 0
  (t.base : Int) + t.scaleOff + pos

/-- GATHER, SCATTER or SCATTER_ADD. -/
def TDesc.indexed (t : TDesc) : Bool := t.mode == 1 || t.mode == 2 || t.mode == 3

/-- The rule of R147 for the index descriptor of a use. -/
def idxDescOk (t ix : TDesc) : Bool := ix.mode == 0 && (ix.fmt == 8 || ix.fmt == 9) && decide (t.gatherDim < t.nd) && !ix.formatBad

/-- What an index becomes along gather_dim (R149): an index, a zero element, or a STRICT fault. -/
inductive IdxUse where
  | at (i : Nat)
  | zero
  | strict
deriving DecidableEq, Repr

/-- R149. -/
def TDesc.useIndex (t : TDesc) (i : Int) : IdxUse :=
  let n : Int := t.e t.gatherDim
  if 0 ≤ i ∧ i < n then .at i.toNat
  else match t.idxMode with
    | 0 => .strict
    | 1 => .at (min (max i 0) (n - 1)).toNat
    | 2 => .zero
    | _ => .at (((i % n) + n) % n).toNat

/-- The extents a use iterates over: along gather_dim the element count of the index tensor (R143). -/
def TDesc.iterExt (t : TDesc) (ix : TDesc) : List Nat :=
  (List.range t.nd).map fun i => if t.indexed && i == t.gatherDim then ix.count else t.e i

/-- The number of elements a use visits. -/
def TDesc.iterCount (t ix : TDesc) : Nat := (t.iterExt ix).foldl (· * ·) 1

/-- The bits of an element inside the bytes that hold it. -/
def bitsOf (bs : List Byte) (off w : Nat) : Nat := field (leNat bs) off w

/-- Bytes that hold `w` bits from bit offset `off` of a byte. -/
def bytesFor (off w : Nat) : Nat := (off + w + 7) / 8

/-- Read an element at a bit address for an engine or DMA queue. -/
def Dev.elemRead (d : Dev) (who : Who) (tag : Option PTag) (bit : Int) (w : Nat) (counts : Bool := true) : Dev × Except AccErr Nat :=
  if bit < 0 then (d, .error (.xlate 0 0x06))
  else
    let a := bit.toNat / 8
    let off := bit.toNat % 8
    match d.ctxRead who tag a (bytesFor off w) counts with
    | (d, .ok bs) => (d, .ok (bitsOf bs off w))
    | (d, .error e) => (d, .error e)

/-- Write an element at a bit address for an engine or DMA queue; the bits beside it keep their values. -/
def Dev.elemWrite (d : Dev) (who : Who) (tag : Option PTag) (bit : Int) (w v : Nat) : Dev × Except AccErr Unit :=
  if bit < 0 then (d, .error (.xlate 0 0x06))
  else
    let a := bit.toNat / 8
    let off := bit.toNat % 8
    let n := bytesFor off w
    if off = 0 ∧ w % 8 = 0 then d.ctxWrite who tag a (leBytes n v)
    else
      let q : XReq := { req := who.hreq, ctx := who.ctx, gen := who.gen, va := a, write := true }
      match d.xlateRange q (pagesOf n) n with
      | .error e => (d, .error (.xlate e.1 e.2))
      | .ok ps =>
        let old := ps.foldl (fun acc x => acc ++ d.peek x.1 x.2.1) []
        d.ctxWrite who tag a (leBytes n (putField (leNat old) off w v))

/-- Add a contribution to an element in its own format (R151): integers and FX32 modulo 2^width, floating with one RNE
rounding. -/
def elemAdd (fmt a b : Nat) : Nat :=
  if Fp.fmtInt fmt || fmt == 12 then (a + b) % 2 ^ Fp.fmtBits fmt
  else (Fp.encodeElem fmt .rne false (Fp.addV (Fp.decodeElem fmt a) (Fp.decodeElem fmt b))).1

/-- The 64 bytes of a descriptor as a register value. -/
def descOfBytes (bs : List Byte) : BitVec 512 := BitVec.ofNat 512 (leNat bs)

/-- The stack words of an access of a transfer. -/
def Dev.accWords (d : Dev) (who : Who) (write : Bool) (bit : Int) (w : Nat) : List (Nat × Bool) :=
  if bit < 0 then []
  else
    let n := bytesFor (bit.toNat % 8) w
    match d.xlateRange { req := who.hreq, ctx := who.ctx, gen := who.gen, va := bit.toNat / 8, write := write } (pagesOf n) n with
    | .ok ps => pieceWords write ps
    | .error _ => []

end Sys2Proof.Machine
end

