-- ==== Sys2Proof/Machine/Trough.lean ====
section
/-! DEFINITION. The troughs (R190–R203). -/

namespace Sys2Proof.Machine

/-- A trough. -/
def Dev.trough (d : Dev) (n : Nat) : Trough := SMap.get (fun _ => {}) d.troughs n
/-- Change a trough. -/
def Dev.updTrough (d : Dev) (n : Nat) (f : Trough → Trough) : Dev :=
  { d with troughs := SMap.modify (fun _ => {}) d.troughs n f }

/-- The fill in words (R191), as the read side counts it (R193). -/
def Trough.fill (t : Trough) : Nat := t.counted

/-- Words of a trough. -/
def troughWords : Nat := 2048

/-- The owner context of a slot. -/
def Dev.slotOwner (d : Dev) (n : Nat) : Nat := d.getF (F.GATE_SLOT_OWNER_ctx_id n)

/-- A record of a trough (R202): header stamp, fill, counter, and the slot's owner context. -/
def Dev.troughEvent (d : Dev) (code n stamp counter : Nat) : Dev :=
  let o := d.slotOwner n
  d.raise code n o (d.ctxOf o).gen (dAt 16 8 (stamp / 256) + dAt 24 4 (d.trough n).fill + dAt 28 4 counter)

/-! ### The read path and the head chain (R190, R193, R199) -/

/-- Put bytes in the place of one half of a trough word. -/
def TWord.setHalf (w : TWord) (hi : Bool) (v : Nat) : TWord :=
  if hi then { w with bytes := w.bytes.take 32 ++ leBytes 32 v } else { w with bytes := leBytes 32 v ++ w.bytes.drop 32 }

/-- What the read path of a trough finds in one ECC word of buffer word `i` behind rd (R199, R378): whether it is lost. A correction and a
detection are counted and reported; beyond its detection the code may do anything (R378), also hand on changed data. -/
def Dev.troughHalf (d : Dev) (n i : Nat) (hi : Bool) (w : TWord) : Dev × TWord × Bool :=
  let e := if hi then w.errHi else w.errLo
  let clean : TWord := if hi then { w with errHi := {} } else { w with errLo := {} }
  let (req, d') := d.fresh
  let at' : EccAt := ⟨0x20 + n, 0x20 + n, 64 * (((d.trough n).rd + i) % 2048) + (if hi then 32 else 0), req % 256⟩
  match e.find false with
  | .clean => (d, w, false)
  | .corr => (d'.corrAt at' 0 0 0, clean, false)
  | .uncorr => (d'.uncorrAt at' 0 0 0, w, true)
  | .beyond =>
    let (how, d') := d'.fresh
    let (v, d') := d'.fresh
    if how % 3 = 0 then (d'.uncorrAt at' 0 0 0, w, true)
    else if how % 3 = 1 then (d'.corrAt at' 0 0 0, clean.setHalf hi v, false)
    else (d', clean.setHalf hi v, false)

/-- A word from bytes, padded with zeros to 64. -/
def mkWord (bs : List Byte) (sop eop abort : Bool) : TWord :=
  { bytes := bs.take 64 ++ List.replicate (64 - bs.length) 0, sop := sop, eop := eop, abort := abort, errLo := {}, errHi := {} }

/-- The terminator of an aborted sample (R192, R194). -/
def terminator : TWord := mkWord [] false true true

/-- The stamp in the header that a first word carries, in 1/256 ns (R168). -/
def wordStamp (w : TWord) : Nat := leAt w.bytes 0 8 * 256 + leAt w.bytes 8 1

/-- The stamp of a packet whose first word is lost: its header's, or a free value where the header itself is lost (R202; log 6). -/
def Dev.lostStamp (d : Dev) (n : Nat) (w : TWord) (headerLost : Bool) : Dev × Nat :=
  if !w.sop then (d, (d.trough n).stamp)
  else if headerLost then
    let (v, d) := d.fresh
    (d, v % 2 ^ 64 * 256)
  else (d, wordStamp w)

/-- The next counted word enters the chain, if a stage is free: at the head it may stand from F clock `ready` on. -/
def Dev.troughFetch (d : Dev) (n ready : Nat) : Dev :=
  let t := d.trough n
  let i := t.chain.length
  if 4 ≤ i ∨ t.counted ≤ i then d
  else match t.words[i]? with
    | none => d
    | some w =>
      let (d, w, lostLo) := d.troughHalf n i false w
      let (d, w, lostHi) := d.troughHalf n i true w
      let lost := lostLo || lostHi
      let (d, st) := if lost then d.lostStamp n w lostLo else (d, wordStamp w)
      let g : Stage := { word := if lost then { terminator with sop := w.sop } else w, lost := lost, last := w.eop, stamp := st, ready := ready }
      d.updTrough n fun t => { t with chain := t.chain ++ [g] }

/-- The front word leaves the trough. -/
def Trough.pop (t : Trough) (now : Nat) : Trough :=
  { t with words := t.words.drop 1, counted := t.counted - 1, rd := (t.rd + 1) % 4096, chain := t.chain.drop 1, head := false,
           takes := now :: t.takes.filter fun c => decide (now < c + 7200) }

/-- Whether the word that has come to the head must not reach the consumer: a running drop, a flush or an abort discards it (R197–R199). A
word that stands at the head stays. -/
def Trough.discards (t : Trough) (fclk : Nat) : Bool :=
  !t.head && match t.chain with
    | [] => false
    | g :: _ => decide (g.ready ≤ fclk) && ((t.toSop && !g.word.sop) || t.dropping || t.aborting)

/-- Discard the word that has come to the head, one in an F clock (R197, R199). A lost word ends a drop as the abort word that it has become; the
rest of its packet goes with it. -/
def Trough.discard (t : Trough) (now : Nat) : Trough :=
  match t.chain with
  | [] => t
  | g :: _ =>
    let cut := t.toSop && !g.word.sop
    { t.pop now with
        toSop := cut
        dropping := t.dropping && (cut || t.aborting || !(g.last || g.lost))
        aborting := if cut then t.aborting else if t.aborting || g.lost then !g.last else false }

/-- The discard of one F clock: ECC_DROP for a lost word. -/
def Dev.troughDiscard (d : Dev) (n : Nat) : Dev :=
  let t := d.trough n
  match t.chain with
  | g :: _ =>
    if !t.discards d.fclk then d
    else
      let d := d.updTrough n fun t => t.discard d.clk
      if g.lost then d.troughEvent 0x0203 n g.stamp 0 else d
  | [] => d

/-- The end of an F clock: the level crossing and the peak (R200, R203). -/
def Dev.troughLevel (d : Dev) (n : Nat) : Dev :=
  let f0 := (d.trough n).fill0
  let f1 := (d.trough n).fill
  if f0 = f1 then d
  else
    let level := min (d.getF (F.TROUGH_CTL_level n)) 2048
    let d := (d.raisePeak (R.TROUGH_PEAK n) f1).updTrough n fun t => { t with fill0 := f1 }
    if level ≠ 0 ∧ f0 < level ∧ level ≤ f1 then d.troughEvent 0x0201 n 0 0 else d

/-- The read side counts the words whose pointer has crossed (R193). -/
def Trough.count (t : Trough) (fclk : Nat) : Trough :=
  let k := (t.due.takeWhile fun c => decide (c ≤ fclk)).length
  { t with counted := t.counted + k, due := t.due.drop k }

/-- The read side of one trough at an F edge: the clock before ends, words are counted, one is discarded, and one enters the chain, from the
write bypass when the trough was empty, else from the SRAM with its 2 clocks (R193). -/
def Dev.troughEdge (d : Dev) (n : Nat) : Dev :=
  if (d.trough n).words.isEmpty ∧ (d.trough n).fill0 = 0 then d
  else
    let d := d.troughLevel n
    let was := (d.trough n).counted
    let d := (d.updTrough n fun t => t.count d.fclk).troughDiscard n
    d.troughFetch n (d.fclk + if was = 0 then 1 else 2)

/-- An armed flip of one of the two ECC words of the buffer word that a trough writes next applies to it (R396). -/
def Dev.troughFlip (d : Dev) (n : Nat) (w : TWord) : Dev × TWord :=
  if d.flag F.MEM_FLIP_CTL_arm && d.getF F.MEM_FLIP_ADDR_target == 0x20 + n
      && d.getF F.MEM_FLIP_ADDR_address / 2 == (d.trough n).wr % 2048 then
    let e := d.flipErr false
    (d.hwClear F.MEM_FLIP_CTL_arm, if d.getF F.MEM_FLIP_ADDR_address % 2 = 0 then { w with errLo := e } else { w with errHi := e })
  else (d, w)

/-- Whether a trough is written in a port clock: its slot takes a camera or Ethernet source (R193). -/
def Dev.portClocked (d : Dev) (n : Nat) : Bool :=
  let k := d.getF (F.GATE_SLOT_MAP_kind n)
  (k == 1 || k == 2) && !d.flag (F.GATE_SLOT_MAP_inject n)

/-- Write one word into a trough, at `at'` in units of `Dev.clk` (R193): a word written in domain F is counted at once and, in an empty trough,
enters the chain; the pointer of one written in a port clock is counted at F edge 2. -/
def Dev.troughPutAt (d : Dev) (n at' : Nat) (w : TWord) : Dev :=
  let (d, w) := d.troughFlip n w
  let port := d.portClocked n
  let empty := (d.trough n).words.isEmpty
  let d := d.updTrough n fun t =>
    let t := { t with words := t.words ++ [w], wr := (t.wr + 1) % 4096 }
    if port ∨ t.due ≠ [] then { t with due := t.due ++ [at' / 24 + 3] } else { t with counted := t.counted + 1 }
  if empty && !port then d.troughFetch n (d.fclk + 1) else d

/-- Write one word now. -/
def Dev.troughPut (d : Dev) (n : Nat) (w : TWord) : Dev := d.troughPutAt n d.clk w

/-- Free words (R191). -/
def Dev.troughFree (d : Dev) (n : Nat) : Nat := troughWords - (d.trough n).words.length

/-- Free words as the write side sees them (R193, R194): a port clock's copy of rd may lag by up to 3 of its clocks, 300 ns at most, so which of
the latest takes it has seen is free where the test of 2 words rests on it (log 60). -/
def Dev.troughSees (d : Dev) (n : Nat) : Nat × Dev :=
  let free := d.troughFree n
  let late := ((d.trough n).takes.filter fun c => decide (d.clk < c + 7200)).length
  if !d.portClocked n || free < 2 || 2 + late ≤ free then (free, d)
  else
    let (v, d) := d.fresh
    (free - v % (late + 1), d)

/-- OVERFLOW with the counter named (R194, R202). -/
def Dev.overflow (d : Dev) (n stamp counterAddr : Nat) : Dev :=
  let d := d.bump counterAddr
  d.troughEvent 0x0202 n stamp (d.reg counterAddr).toNat

/-- The first word of a port sample (R194): written when 2 words are free, otherwise the sample is dropped whole. -/
def Dev.portStartAt (d : Dev) (n stamp at' : Nat) (w : TWord) : Dev :=
  let (free, d) := d.troughSees n
  if 2 ≤ free then (d.troughPutAt n at' w).updTrough n fun t => { t with skip := false }
  else (d.updTrough n fun t => { t with skip := true }).overflow n stamp (R.TROUGH_DROP_PKTS n)

/-- A further word of a port sample (R194): written when 2 words are free, otherwise the terminator takes the kept word and the
rest is discarded. -/
def Dev.portNextAt (d : Dev) (n stamp at' : Nat) (w : TWord) : Dev :=
  if (d.trough n).skip then d
  else
    let (free, d) := d.troughSees n
    if 2 ≤ free then d.troughPutAt n at' w
    else
      let d := d.troughPutAt n at' terminator
      (d.updTrough n fun t => { t with skip := true }).overflow n stamp (R.TROUGH_ABORT_PKTS n)

/-- The first word of a sample, written now. -/
def Dev.portStart (d : Dev) (n stamp : Nat) (w : TWord) : Dev := d.portStartAt n stamp d.clk w

/-- A further word, written now. -/
def Dev.portNext (d : Dev) (n stamp : Nat) (w : TWord) : Dev := d.portNextAt n stamp d.clk w

/-- Cut bytes into words of 64 with at most `fuel` words. -/
def chunk64 : Nat → List Byte → List (List Byte)
  | 0, _ => []
  | fuel + 1, bs => if bs.length ≤ 64 then [bs] else bs.take 64 :: chunk64 fuel (bs.drop 64)

/-- Whether a word's instant has come. -/
def ToWrite.now (clk : Nat) (x : ToWrite) : Bool := decide (x.due ≤ clk)

/-- The words of a trough whose instant has come are written (R526). -/
def Dev.portPump (d : Dev) (n : Nat) : Dev :=
  let l := (d.trough n).writing
  let go := l.takeWhile (ToWrite.now d.clk)
  if go.isEmpty then d
  else go.foldl (fun (d : Dev) x => if x.first then d.portStartAt n x.stamp x.due x.word else d.portNextAt n x.stamp x.due x.word)
    (d.updTrough n fun t => { t with writing := l.dropWhile (ToWrite.now d.clk) })

/-- Write a whole port sample of header and payload, one word each `period` hundredths of a unit of `Dev.clk` (R192, R194, R526). -/
def Dev.portSample (d : Dev) (n stamp period : Nat) (bytes : List Byte) : Dev :=
  let from' := ((d.trough n).writing.map fun x => x.due + ceilDiv period 100).foldl max d.clk
  let ws := chunk64 (bytes.length / 64 + 1) bytes
  let l := (ws.zip (List.range ws.length)).map fun x =>
    ({ due := from' + x.2 * period / 100, stamp := stamp, first := x.2 == 0, word := mkWord x.1 (x.2 == 0) (x.2 + 1 == ws.length) false } : ToWrite)
  (d.updTrough n fun t => { t with writing := t.writing ++ l }).portPump n

/-- A drop starts: words are discarded from the head up to the next eop (R197). -/
def Trough.startDrop (t : Trough) : Trough := { t with dropping := true, head := false }

/-- DROP_PACKET (R197): the rest of the current packet is discarded from the head, one word in an F clock. An abort word that
stands at the head for an uncorrectable word ends the drop with its eop, and what R199 discards goes on behind it. -/
def Trough.drop (t : Trough) (now : Nat) : Trough :=
  match t.head, t.chain with
  | true, g :: _ => if g.lost then { t.pop now with aborting := !g.last } else t.startDrop
  | _, _ => t.startDrop

/-- Flush (R197): rd takes the read side's wr, a running drop ends, and words up to the next sop are discarded. -/
def Trough.flush (t : Trough) : Trough :=
  { t with words := t.words.drop t.counted, counted := 0, rd := (t.rd + t.counted) % 4096, chain := [], head := false, dropping := false,
           aborting := false, toSop := true }

/-- DROP_PACKET: the consumer's, in an F clock in which it takes no word, or a software write of TROUGH_CMD while consumer_hold is 1 (R196,
R197). -/
def execDropPacket (n : BitVec 4) (sw : Bool) (s : State) : Host.Outcome State Fault Refusal :=
  s.withDev fun d =>
    let i := n.toNat
    if sw != d.flag (F.TROUGH_CTL_consumer_hold i) ∨ (sw = false ∧ d.yoke.lastTake = some d.fclk) then d
    else
      let d := d.updTrough i fun t => t.drop d.clk
      if sw then d else { d with yoke := { d.yoke with lastTake := some d.fclk } }

/-- TROUGH_FLUSH: a software write of TROUGH_CMD.flush while consumer_hold is 1 (R197). -/
def execTroughFlush (n : BitVec 4) (s : State) : Host.Outcome State Fault Refusal :=
  s.withDev fun d =>
    let i := n.toNat
    if d.flag (F.TROUGH_CTL_consumer_hold i) then d.updTrough i Trough.flush else d

/-- Whether a context runs on a virtual time base (R39). -/
def Dev.virtualCtx (d : Dev) (ctx : Nat) : Bool := d.mapFlag ctx 3

/-- The present instant of a slot's time base in 1/256 ns (R39, R198, R234). -/
def Dev.slotNow (d : Dev) (n : Nat) : Nat :=
  let o := d.slotOwner n
  if d.virtualCtx o then d.vtCurrent o * 256 else d.dev256

/-- TROUGH_HEAD_ARRIVAL (R198, R199): the front word of the chain, once it has fallen through, comes to the head. An abort word in the place of a
lost one is reported; a first word outside the time gate has its packet dropped. -/
def execTroughHeadArrival (n : BitVec 4) (s : State) : Host.Outcome State Fault Refusal :=
  s.withDev fun d =>
    let i := n.toNat
    let t := d.trough i
    match t.chain with
    | [] => d
    | g :: _ =>
      if t.head || decide (d.fclk < g.ready) || t.discards d.fclk then d
      else
        let d := d.updTrough i fun t => { t with toSop := false, stamp := if g.word.sop then g.stamp else t.stamp }
        if g.lost then (d.updTrough i fun t => { t with head := true }).troughEvent 0x0203 i g.stamp 0
        else
          let now := d.slotNow i
          let past := d.getF (F.TROUGH_GATE_past i) * 256000
          let future := d.getF (F.TROUGH_GATE_future i) * 256000
          if g.word.sop && d.flag (F.TROUGH_CTL_gate_en i) && !(decide (now ≤ g.stamp + past) && decide (g.stamp < now + future)) then
            let d := d.updTrough i Trough.startDrop
            let d := d.bump (R.TROUGH_GATE_DROP i)
            d.troughEvent 0x0204 i g.stamp (d.reg (R.TROUGH_GATE_DROP i)).toNat
          else d.updTrough i fun t => { t with head := true }

/-- The consumer takes the head word (R191, R196); behind an abort word that replaced a lost one the rest of its packet is discarded (R199). -/
def Dev.troughTake (d : Dev) (n : Nat) : Dev :=
  d.updTrough n fun t =>
    match t.chain with
    | g :: _ => { t.pop d.clk with aborting := if g.lost then !g.last else t.aborting }
    | [] => t

/-- The word that stands at a trough's head. -/
def Trough.headWord (t : Trough) : Option TWord := if t.head then t.chain.head?.map (·.word) else none

/-- The fields of TROUGH_STATUS (R203). -/
def Dev.troughStatus (d : Dev) : Nat :=
  (List.range 16).foldl (fun v n =>
    let f := (d.trough n).fill
    v + (if f = 0 then 0 else 2 ^ n) + (if f = troughWords then 2 ^ (16 + n) else 0)) 0

/-- The fields of TROUGH_PTR (R203): the read side's copy of wr, and rd. -/
def Dev.troughPtr (d : Dev) (n : Nat) : Nat :=
  let t := d.trough n
  (t.rd + t.counted) % 4096 + t.rd * 65536

end Sys2Proof.Machine
end

