-- ==== Sys2Proof/Machine/Fusion.lean ====
section
/-! DEFINITION. The fusion arithmetic of the Yoke: decoding, stream kinds, outputs, gates, the change test and the bytes of a
frame (R235, R238–R249, R252, R256, R259). Values are FP32 patterns; instants are in 1/256 ns. -/

namespace Sys2Proof.Machine
open Sys2Proof.Machine.Fp

/-! ### The SCHEDULES section (R259) -/

/-- The section. -/
def Dev.schedSec (d : Dev) : List Byte := d.section 6 0

/-- Record `i` of table `t` (0 schedules, 1 streams, 2 channels, 3 outputs, 4 gates) of `size` bytes. -/
def schedRec (sec : List Byte) (t size i : Nat) : List Byte := (sec.drop (leAt sec (8 + 4 * t) 4 + size * i)).take size

/-- Streams of the plan. -/
def Dev.streamCount (d : Dev) : Nat := leAt d.schedSec 0 2

/-- A stream record. -/
structure StreamRec where
  slot : Nat
  kind : Nat
  nch : Nat
  depth : Nat
  horizon : Nat
  firstCh : Nat
  srcMask : Nat
  srcVal : Nat
  tol : Nat
  poseQ : Nat
  poseP : Nat
  ringBase : Nat
  ringBytes : Nat
deriving DecidableEq, Repr

/-- Stream record `i`. -/
def Dev.streamRec (d : Dev) (i : Nat) : StreamRec :=
  let b := schedRec d.schedSec 1 48 i
  { slot := leAt b 0 1 % 16, kind := leAt b 0 1 / 16, nch := leAt b 1 1, depth := leAt b 2 1, horizon := leAt b 4 2,
    firstCh := leAt b 6 2, srcMask := leAt b 8 4, srcVal := leAt b 12 4, tol := leAt b 16 4, poseQ := leAt b 20 1,
    poseP := leAt b 21 1, ringBase := leAt b 24 8, ringBytes := leAt b 32 4 }

/-- The numbers below `n` whose bit of `mask` is set. -/
def maskList (mask n : Nat) : List Nat := (List.range n).filter fun i => mask.testBit i

/-! ### Decoding (R235) -/

/-- Bytes of a channel type. -/
def chanSize (t : Nat) : Nat := if t < 2 then 1 else if t < 4 then 2 else if t = 6 then 2 else 4

/-- One channel of a sample: none when it reaches past the end; the flag says that a NaN or infinity was replaced. -/
def decodeChan (rec sample : List Byte) : Option (Nat × Bool) :=
  let off := leAt rec 0 2
  let ty := leAt rec 2 1
  let n := chanSize (ty % 8)
  if sample.length < off + n then none
  else
    let raw := if ty.testBit 7 then beAt sample off n else leAt sample off n
    let x := match ty % 8 with
      | 6 => rnd (decode fp16 raw)
      | 7 => raw
      | t => ofZ (if t % 2 = 1 then toSigned (8 * n) raw else (raw : Int))
    let y := Fp.add (Fp.mul x (leAt rec 4 4)) (leAt rec 8 4)
    if isNan y then some (0, true)
    else if isInf y then some (if y = 0x7F800000 then 0x7F7FFFFF else 0xFF7FFFFF, true)
    else some (y, false)

/-! ### Interpolation (R240) -/

/-- A stamp difference in seconds, rounded once (R240). -/
def secs (d : Int) : Nat := ofRat d 256000000000

/-- Sum of products in order. -/
def dotF (a b : List Nat) : Nat :=
  match (a.zip b).map fun x => Fp.mul x.1 x.2 with
  | [] => 0
  | p :: ps => ps.foldl Fp.add p

/-- 2^-40. -/
def tiny : Nat := 0x2B800000

/-- Normalise; a norm² below 2^-40 gives the identity and says so (R240, R244). -/
def normQ (q : List Nat) : List Nat × Bool :=
  let n2 := dotF q q
  if Fp.lt n2 tiny then ([0x3F800000, 0, 0, 0], true) else (q.map fun x => Fp.div x (Fp.sqrt n2), false)

/-- The fraction u of R240. -/
def lerpU (s0 s1 : Hist) (te : Nat) : Nat :=
  Fp.div (ofZ ((te : Int) - s0.stamp)) (ofZ ((s1.stamp : Int) - s0.stamp))

/-- a + (b − a) u for each channel. -/
def lerpF (a b : List Nat) (u : Nat) : List Nat := (a.zip b).map fun x => Fp.add x.1 (Fp.mul (Fp.sub x.2 x.1) u)

/-- LINEAR between two samples over `n` channels (R240). -/
def linVals (n te : Nat) (s0 : Hist) : Option Hist → List Nat
  | none => s0.ch.take n
  | some s1 => if s0.stamp = s1.stamp then s1.ch.take n else lerpF (s0.ch.take n) (s1.ch.take n) (lerpU s0 s1 te)

/-- SLERP between two samples (R240). -/
def slerpVals (te : Nat) (s0 : Hist) : Option Hist → List Nat
  | none => s0.ch.take 4
  | some s1 =>
    if s0.stamp = s1.stamp then s1.ch.take 4
    else
      let q0 := s0.ch.take 4
      let u := lerpU s0 s1 te
      let d0 := dotF q0 (s1.ch.take 4)
      let flip := Fp.lt d0 0
      let q1 := (s1.ch.take 4).map fun x => if flip then Fp.neg x else x
      let dt := if flip then Fp.neg d0 else d0
      if Fp.lt 0x3F7FDF3B dt then (normQ (lerpF q0 q1 u)).1
      else
        let a := Fp.acos dt
        let sa := Fp.sin a
        let w0 := Fp.sin (Fp.mul (Fp.sub 0x3F800000 u) a)
        let w1 := Fp.sin (Fp.mul u a)
        (normQ ((q0.zip q1).map fun x => Fp.div (Fp.add (Fp.mul w0 x.1) (Fp.mul w1 x.2)) sa)).1

/-- The two samples of LINEAR and SLERP at `te` among the visible ones in history order, by index: s0, s1 (none for one sample
alone), and whether there is an s_b (R238). -/
def pickPair (vis : List Hist) (te : Nat) : Nat × Option Nat × Bool :=
  let before := (vis.takeWhile fun h => decide (h.stamp < te)).length
  match vis.drop before with
  | [] => if 2 ≤ before then (before - 2, some (before - 1), false) else (0, none, false)
  | b :: bs =>
    let j := before + (bs.takeWhile fun h => decide (h.stamp = b.stamp)).length
    if before = 0 then (j, none, true) else (before - 1, some j, true)

/-- The sample at an index. -/
def histAt (vis : List Hist) (i : Nat) : Hist := vis.getD i { stamp := 0, arrival := 0, seq := 0, flags := 0, bytes := 0, aux := 0, ch := [], ring := 0 }

/-! ### IMU_INT (R241) -/

/-- The curve at `x` and the samples used: `atEnd` takes the first of the samples that share the stamp `x`, otherwise the last. -/
def curveAt (vis : List Hist) (x : Nat) (atEnd : Bool) : List Nat × List Nat :=
  let before := (vis.takeWhile fun h => decide (h.stamp < x)).length
  match vis.drop before with
  | [] => ((histAt vis (before - 1)).ch.take 6, [before - 1])
  | b :: bs =>
    if b.stamp = x then
      let j := if atEnd then before else before + (bs.takeWhile fun h => decide (h.stamp = x)).length
      ((histAt vis j).ch.take 6, [j])
    else if before = 0 then (b.ch.take 6, [0])
    else (linVals 6 x (histAt vis (before - 1)) (some b), [before - 1, before])

/-- One segment of the trapezoid rule. -/
def trap (acc a b : List Nat) (d : Int) : List Nat :=
  (acc.zip (a.zip b)).map fun x => Fp.add x.1 (Fp.mul (Fp.mul (Fp.add x.2.1 x.2.2) 0x3F000000) (secs d))

/-- The increments over [start, te), and the samples used. -/
def integrate (vis : List Hist) (start te : Nat) : List Nat × List Nat :=
  let zero := List.replicate 6 0
  if te ≤ start then (zero, [])
  else
    let (c0, u0) := curveAt vis start false
    let mids := (vis.zip (List.range vis.length)).filter fun x => decide (start < x.1.stamp) && decide (x.1.stamp < te)
    let (acc, cur, lastT, used) := mids.foldl (fun (a : List Nat × List Nat × Nat × List Nat) x =>
      (trap a.1 a.2.1 (x.1.ch.take 6) ((x.1.stamp : Int) - a.2.2.1), x.1.ch.take 6, x.1.stamp, x.2 :: a.2.2.2)) (zero, c0, start, u0)
    let (c1, u1) := curveAt vis te true
    (trap acc cur c1 ((te : Int) - lastT), u1 ++ used)

/-! ### The stream kinds (R238–R243) -/

/-- STALE, EXTRAPOLATED, NO_DATA, HOLDOVER, CHANGED, HISTORY_SHORT, PARTIAL (R248). -/
def sfStale : Nat := 1
/-- EXTRAPOLATED. -/
def sfExtra : Nat := 2
/-- NO_DATA. -/
def sfNoData : Nat := 4
/-- HOLDOVER. -/
def sfHold : Nat := 8
/-- CHANGED. -/
def sfChanged : Nat := 16
/-- HISTORY_SHORT. -/
def sfShort : Nat := 32
/-- PARTIAL. -/
def sfPartial : Nat := 64

/-- Whether a stream's horizon has passed at `t` (R239). -/
def staleAt (r : StreamRec) (last t : Nat) : Bool := decide (last < t) && decide (r.horizon * 256000 ≤ t - last)

/-- t_e of R239. -/
def evalTime (r : StreamRec) (last t : Nat) : Nat := if staleAt r last t then last + r.horizon * 256000 else t

/-- The value of a pose stream at an instant (R242): SLERP or LINEAR at t_e; zeros without a visible sample. -/
def poseAt (d : Dev) (i t cut : Nat) : List Nat :=
  let r := d.streamRec i
  let vis := (SMap.get (fun _ => []) d.yoke.hist i).filter fun h => decide (h.arrival < cut)
  match vis.getLast? with
  | none => [0, 0, 0, 0]
  | some l =>
    let te := evalTime r l.stamp t
    let (i0, i1, _) := pickPair vis te
    if r.kind = 3 then slerpVals te (histAt vis i0) (i1.map (histAt vis)) else linVals r.nch te (histAt vis i0) (i1.map (histAt vis))

/-- A quaternion product, terms in the order of the first factor (log 62). -/
def qmul (a b : List Nat) : List Nat :=
  let g := fun (l : List Nat) i => l.getD i 0
  let m := fun i j => Fp.mul (g a i) (g b j)
  [Fp.sub (Fp.sub (Fp.sub (m 0 0) (m 1 1)) (m 2 2)) (m 3 3), Fp.sub (Fp.add (Fp.add (m 0 1) (m 1 0)) (m 2 3)) (m 3 2),
    Fp.add (Fp.add (Fp.sub (m 0 2) (m 1 3)) (m 2 0)) (m 3 1), Fp.add (Fp.sub (Fp.add (m 0 3) (m 1 2)) (m 2 1)) (m 3 0)]

/-- Pad the channels of an entry to 16. -/
def pad16 (l : List Nat) : List Nat := l.take 16 ++ List.replicate (16 - l.length) 0

/-- What a kind answers: channels, reference sample, flags, samples used by index. -/
abbrev KindVal := List Nat × Option Hist × Nat × List Nat

/-- NEAREST: on a tie of distance the one at or after, of equal stamps the later-arrived. -/
def nearestVal (r : StreamRec) (vis : List Hist) (te : Nat) : KindVal :=
  let dist := fun (h : Hist) => ((h.stamp : Int) - te).natAbs
  let best := (vis.zip (List.range vis.length)).foldl (fun (b : Option (Hist × Nat)) x => match b with
    | none => some x
    | some y => if dist x.1 ≤ dist y.1 then some x else some y) none
  match best with
  | some (h, i) => (h.ch.take r.nch, some h, 0, [i])
  | none => ([], none, 0, [])

/-- HOLD. -/
def holdVal (r : StreamRec) (vis : List Hist) (te : Nat) : KindVal :=
  let n := (vis.takeWhile fun h => decide (h.stamp ≤ te)).length
  if n = 0 then ([], none, sfNoData, []) else ((histAt vis (n - 1)).ch.take r.nch, some (histAt vis (n - 1)), 0, [n - 1])

/-- The samples a pair uses: of two with equal stamps only the later-arrived. -/
def pairUsed (vis : List Hist) : Nat → Option Nat → List Nat
  | i, none => [i]
  | i, some j => if (histAt vis i).stamp = (histAt vis j).stamp then [j] else [i, j]

/-- LINEAR, SLERP and IMU_INT. -/
def curveVal (r : StreamRec) (vis : List Hist) (te : Nat) (tPrev : Int) : KindVal :=
  let (i0, i1, hasB) := pickPair vis te
  let fl := if hasB then 0 else sfExtra
  let s0 := histAt vis i0
  let s1 := i1.map (histAt vis)
  let used := pairUsed vis i0 i1
  if r.kind = 3 then (slerpVals te s0 s1, vis.getLast?, fl, used)
  else if r.kind = 2 then (linVals r.nch te s0 s1, vis.getLast?, fl, used)
  else
    let oldest := (histAt vis 0).stamp
    let short := decide (tPrev < (oldest : Int))
    let (inc, u) := integrate vis (if short then oldest else tPrev.toNat) te
    (linVals 6 te s0 s1 ++ inc, vis.getLast?, fl + (if short then sfShort else 0), used ++ u)

/-- IMAGE (R242). -/
def imageVal (d : Dev) (r : StreamRec) (vis : List Hist) (t cut : Nat) : KindVal :=
  let n := (vis.takeWhile fun h => decide (h.stamp ≤ t)).length
  if n = 0 then ([], none, sfNoData, [])
  else
    let f := histAt vis (n - 1)
    let rot := if r.poseQ = 0xFF then [0x3F800000, 0, 0, 0]
      else
        let q := poseAt d r.poseQ f.stamp cut
        qmul (poseAt d r.poseQ t cut) (q.take 1 ++ (q.drop 1).map Fp.neg)
    let tr := if r.poseP = 0xFF then [0, 0, 0]
      else ((poseAt d r.poseP t cut).zip (poseAt d r.poseP f.stamp cut)).map (fun x => Fp.sub x.1 x.2) |>.take 3
    ([f.seq, f.ring % 2 ^ 32, f.ring / 2 ^ 32 % 2 ^ 32, f.bytes, secs ((t : Int) - f.stamp)] ++ rot ++ tr, some f,
      if f.flags.testBit 1 || f.flags.testBit 3 then sfPartial else 0, [n - 1])

/-- SWEEP (R243). -/
def sweepVal (vis : List Hist) (t : Nat) (tPrev : Int) : KindVal :=
  let ps := (vis.zip (List.range vis.length)).filter fun x => decide (tPrev ≤ (x.1.stamp : Int)) && decide (x.1.stamp < t)
  match ps.head?, ps.getLast? with
  | some a, some b =>
    let points := ps.foldl (fun n x => n + field x.1.aux 32 16) 0
    ([a.1.seq, b.1.seq, ps.length, points % 2 ^ 32, a.1.ring % 2 ^ 32, a.1.ring / 2 ^ 32 % 2 ^ 32], some b.1, 0, ps.map (·.2))
  | _, _ => ([], none, 0, [])

/-- The entry of stream `i` at `t` with cut `cut`; `tPrev` is t_{m−1}. -/
def Dev.evalStream (d : Dev) (i t cut : Nat) (tPrev : Int) : StreamVal :=
  let r := d.streamRec i
  let vis := (SMap.get (fun _ => []) d.yoke.hist i).filter fun h => decide (h.arrival < cut)
  match vis.getLast? with
  | none => { stream := i, kind := r.kind, flags := sfNoData + sfStale, age := 0xFFFFFFFF, ch := pad16 [] }
  | some l =>
    let stale := staleAt r l.stamp t
    let te := evalTime r l.stamp t
    let (ch, ref, fl, used) : KindVal := match r.kind with
      | 0 => nearestVal r vis te
      | 1 => holdVal r vis te
      | 5 => imageVal d r vis t cut
      | 6 => sweepVal vis t tPrev
      | _ => curveVal r vis te tPrev
    let used := used.eraseDups
    let hold := used.any fun i => (histAt vis i).flags.testBit 0
    { stream := i, kind := r.kind, ref := (ref.map (·.stamp)).getD 0, seq := (ref.map (·.seq)).getD 0,
      flags := fl + (if stale then sfStale else 0) + (if hold then sfHold else 0), used := used.length,
      age := min ((t - l.stamp) / 256) 0xFFFFFFFF, ch := pad16 ch }

/-! ### Outputs and gates (R244, R245) -/

/-- The entry of a stream in a frame. -/
def entryOf (es : List StreamVal) (i : Nat) : StreamVal :=
  match es.find? fun e => e.stream == i with
  | some e => e
  | none => { stream := i, flags := sfNoData + sfStale, ch := pad16 [] }

/-- Add products term by term. -/
def addTerms : List (List Nat) → List Nat
  | [] => []
  | t :: ts => ts.foldl (fun a b => (a.zip b).map fun x => Fp.add x.1 x.2) t

/-- Output `o` from the entries of the frame (R244). -/
def Dev.combine (d : Dev) (o : Nat) (es : List StreamVal) : OutVal :=
  let b := schedRec d.schedSec 3 80 o
  let n := leAt b 1 1
  let terms := ((List.range (leAt b 2 1)).map fun i => (i, leAt b (16 + 8 * i) 1, leAt b (17 + 8 * i) 1, leAt b (20 + 8 * i) 4)).filter
    fun t => !((leAt b 3 1).testBit 0 && (entryOf es t.2.1).flags % 2 + (entryOf es t.2.1).flags / 4 % 2 != 0)
  let xs := terms.map fun t => (((entryOf es t.2.1).ch.drop t.2.2.1).take n, t.2.2.2)
  let mask := terms.foldl (fun m t => m + 2 ^ t.1) 0
  let prods := fun (l : List (List Nat × Nat)) => l.map fun x => x.1.map fun v => Fp.mul x.2 v
  let wsum := match xs.map (·.2) with
    | [] => 0
    | w :: ws => ws.foldl Fp.add w
  let zero := List.replicate n 0
  let some' := fun (l : List Nat) => if l.isEmpty then zero else l
  match leAt b 0 1 with
  | 0 => { out := o, nch := n, mask := mask, ch := some' (addTerms (prods xs)) }
  | 1 =>
    if wsum % 0x80000000 = 0 then { out := o, nch := n, mask := mask, flags := 2, ch := zero }
    else { out := o, nch := n, mask := mask, ch := (some' (addTerms (prods xs))).map fun v => Fp.div v wsum }
  | _ =>
    let first := (xs.head?.map (·.1)).getD []
    let ys := xs.map fun x => (if Fp.lt (dotF x.1 first) 0 then x.1.map Fp.neg else x.1, x.2)
    let (q, bad) := normQ (some' (addTerms (prods ys)))
    { out := o, nch := n, mask := mask, flags := b2n bad, ch := q }

/-- Whether gate pair `p` is exceeded (R245). -/
def Dev.gateHit (d : Dev) (p : Nat) (es : List StreamVal) : Bool :=
  let b := schedRec d.schedSec 4 16 p
  let xs := (((entryOf es (leAt b 0 1)).ch.zip (entryOf es (leAt b 1 1)).ch).drop (leAt b 2 1)).take (leAt b 3 1)
  let terms := xs.map fun x => Fp.mul (Fp.mul (Fp.sub x.1 x.2) (Fp.sub x.1 x.2)) (leAt b 4 4)
  match terms with
  | [] => false
  | t :: ts => Fp.lt (leAt b 8 4) (ts.foldl Fp.add t)

/-! ### The schedule's masks and the frame (R246–R249, R256) -/

/-- The schedule record. -/
def Dev.schedBytes (d : Dev) (s : Nat) : List Byte := schedRec d.schedSec 0 64 s
/-- The streams of a schedule, ascending. -/
def Dev.schedStreams (d : Dev) (s : Nat) : List Nat := maskList (leAt (d.schedBytes s) 16 8) d.streamCount
/-- The outputs of a schedule, ascending. -/
def Dev.schedOuts (d : Dev) (s : Nat) : List Nat := maskList (leAt (d.schedBytes s) 24 4) (leAt d.schedSec 4 1)
/-- The gate pairs of a schedule. -/
def Dev.schedGates (d : Dev) (s : Nat) : List Nat := maskList (leAt (d.schedBytes s) 28 4) (leAt d.schedSec 5 1)
/-- nbuf. -/
def Dev.nbuf (d : Dev) (s : Nat) : Nat := d.getF (F.YOKE_MARK_CFG_nbuf_m1 s) + 1
/-- frame_bytes (R246). -/
def Dev.frameBytes (d : Dev) (s : Nat) : Nat := 64 + 96 * (d.schedStreams s).length + 80 * (d.schedOuts s).length

/-- Evaluate every stream, output and gate pair of a schedule at mark `m` with a cut in 1/256 ns (R250, R251). -/
def Dev.evaluate (d : Dev) (s m cut : Nat) : Eval :=
  let t := d.markTime s m * 256
  let es := (d.schedStreams s).map fun i => d.evalStream i t cut ((t : Int) - (d.schedPeriod s * 256 : Nat))
  { mark := m, streams := es, outs := (d.schedOuts s).map fun o => d.combine o es,
    conflict := (d.schedGates s).foldl (fun c p => if d.gateHit p es then c + 2 ^ p else c) 0 }

/-- Whether a stream has changed between its two evaluations (R252). -/
def Dev.streamChanged (d : Dev) (p c : StreamVal) : Bool :=
  let r := d.streamRec c.stream
  let bits := fun (v : StreamVal) => (v.flags % 2, v.flags / 4 % 2)
  if bits p ≠ bits c then true
  else if c.flags / 4 % 2 = 1 then false
  else match r.kind with
    | 3 => Fp.lt r.tol (Fp.mul 0x40000000 (Fp.acos (Fp.abs (dotF (p.ch.take 4) (c.ch.take 4)))))
    | 5 => decide (p.ref ≠ c.ref ∨ p.seq ≠ c.seq)
    | 6 =>
      let tol : Int := match Fp.val r.tol with
        | .fin x => roundInt .rdn x
        | _ => 0xFFFFFFFF
      decide (tol < (c.ch.getD 2 0 : Int) - (p.ch.getD 2 0 : Int))
    | k => ((p.ch.zip c.ch).take (if k = 4 then 12 else r.nch)).any fun x => Fp.lt r.tol (Fp.abs (Fp.sub x.1 x.2))

/-- A stream entry (R248). -/
def StreamVal.bytes (e : StreamVal) : List Byte :=
  leBytes 8 (e.ref / 256) ++ leBytes 1 e.ref ++ leBytes 1 e.stream ++ leBytes 1 e.kind ++ [0] ++ leBytes 2 e.flags ++ leBytes 2 e.used
    ++ leBytes 4 e.age ++ leBytes 4 e.seq ++ leBytes 8 0 ++ (pad16 e.ch).flatMap (leBytes 4)

/-- An output entry (R249). -/
def OutVal.bytes (o : OutVal) : List Byte :=
  leBytes 1 o.out ++ leBytes 1 o.nch ++ leBytes 2 o.flags ++ leBytes 1 o.mask ++ leBytes 11 0 ++ (pad16 o.ch).flatMap (leBytes 4)

/-- A frame (R246, R247). -/
def Dev.frame (d : Dev) (s : Nat) (e : Eval) (committed : Bool) (verdict arrivals changed written : Nat) (skipped : Bool) : List Byte :=
  let anyF := fun m => b2n (e.streams.any fun x => x.flags / m % 2 == 1)
  let flags := anyF 1 + 2 * b2n (e.conflict != 0) + 4 * b2n skipped + 8 * anyF sfHold + 16 * anyF sfShort + 32 * anyF sfNoData
    + 64 * b2n (e.outs.any fun o => o.flags != 0)
  let stale := e.streams.foldl (fun n x => if x.flags % 2 = 1 then n + 2 ^ x.stream else n) 0
  leBytes 8 (d.markTime s e.mark) ++ leBytes 4 e.mark
    ++ leBytes 1 (s % 8 + 8 * b2n (d.schedVirtual s) + 16 * (if committed then 2 else 1)) ++ leBytes 1 verdict ++ leBytes 2 flags
    ++ leBytes 1 e.streams.length ++ leBytes 1 e.outs.length ++ leBytes 2 (d.frameBytes s) ++ leBytes 4 arrivals ++ leBytes 8 written
    ++ leBytes 4 e.conflict ++ leBytes 4 0 ++ leBytes 8 stale ++ leBytes 8 changed ++ leBytes 8 0
    ++ e.streams.flatMap StreamVal.bytes ++ e.outs.flatMap OutVal.bytes

/-- The cost of a stream in C clocks (R256). -/
def StreamRec.cost (r : StreamRec) : Nat :=
  match r.kind with
  | 2 => 16 + 2 * r.nch
  | 3 => 48
  | 4 => 24 + 12 * r.depth
  | 5 => 160
  | 6 => 24 + r.depth
  | _ => 8 + r.nch

/-- The bound on a fusion in ns: prov_ns, or commit_ns (R256). -/
def Dev.fuseBound (d : Dev) (s : Nat) (committed : Bool) : Nat :=
  let streams := d.schedStreams s
  let c := 200 + (streams.foldl (fun n i => n + (d.streamRec i).cost) 0)
    + ((d.schedOuts s).foldl (fun n o =>
        let b := schedRec d.schedSec 3 80 o
        n + 20 + 4 * leAt b 2 1 * leAt b 1 1) 0)
    + ((d.schedGates s).foldl (fun n p => n + 12 + 4 * leAt (schedRec d.schedSec 4 16 p) 3 1) 0)
  let c := if committed then c + 4 * streams.length else c
  (5 * c + 5) / 6 + (d.frameBytes s + 63) / 64 + 100

end Sys2Proof.Machine
end

