-- ==== Sys2Proof/Machine/Gatehouse.lean ====
section
/-! DEFINITION. The Gatehouse: ports, stamps, stream slots, triggers (R164–R189, R526, R527, R529). -/

namespace Sys2Proof.Machine

/-- Change the Gatehouse. -/
def Dev.updGate (d : Dev) (f : GateState → GateState) : Dev := { d with gate := f d.gate }

/-! ### Slots (R179–R181, R188) -/

/-- The kind of a slot; other codes act as 0 (R189). -/
def Dev.slotKind (d : Dev) (n : Nat) : Nat :=
  let k := d.getF (F.GATE_SLOT_MAP_kind n)
  if 1 ≤ k ∧ k ≤ 5 then k else 0

/-- A Gatehouse record whose instance is a slot: it carries the owner context while a plan is locked and the owner is live (R188). -/
def Dev.gateEvent (d : Dev) (code n stamp b25 : Nat) : Dev :=
  let o := d.slotOwner n
  let c := d.ctxOf o
  let g := if d.locked && c.live then c.gen else 0
  d.raise code n o g (dAt 16 8 (stamp / 256) + dAt 24 1 (d.slotKind n) + dAt 25 1 b25)

/-- A source: kind, port, and what the selector is compared with (R189): VC and DT, UDP port, or CAN identifier and format. -/
structure Source where
  kind : Nat
  port : Nat
  key : Nat := 0
  ext : Bool := false
deriving DecidableEq, Repr

/-- Whether a selector takes a key (R189). -/
def selTakes (kind sel : Nat) (x : Source) : Bool :=
  if kind = 4 then
    let k := min 11 (field sel 11 4)
    let id11 := if x.ext then x.key / 2 ^ 18 else x.key % 2048
    field sel 15 1 == b2n x.ext && id11 / 2 ^ k == field sel 0 11 / 2 ^ k
  else sel == x.key

/-- Whether a slot maps a source. -/
def Dev.slotMaps (d : Dev) (n : Nat) (x : Source) : Bool :=
  d.slotKind n == x.kind && d.getF (F.GATE_SLOT_MAP_port n) == x.port && selTakes x.kind (d.getF (F.GATE_SLOT_MAP_sel n)) x

/-- A slot is enabled. -/
def Dev.slotOn (d : Dev) (n : Nat) : Bool := d.flag (F.GATE_SLOT_MAP_enable n)
/-- A slot is fed by injection. -/
def Dev.slotInj (d : Dev) (n : Nat) : Bool := d.flag (F.GATE_SLOT_MAP_inject n)

/-- The taking slot of a source (R181). -/
def Dev.takingSlot (d : Dev) (x : Source) : Option Nat :=
  (List.range 16).find? fun n => d.slotMaps n x && d.slotOn n && !d.slotInj n

/-- A receive error belongs to the taking slot (R527). -/
def Dev.rxError (d : Dev) (code : Nat) (x : Source) (stamp : Nat) : Dev :=
  match d.takingSlot x with
  | some n => (d.bump (R.GATE_SLOT_ERR n)).gateEvent code n stamp 0
  | none => d

/-- Discard a sample for a slot, with the case of R181. -/
def Dev.slotDiscard (d : Dev) (n stamp case : Nat) : Dev :=
  (d.bump (R.GATE_SLOT_DISCARD n)).gateEvent 0x0103 n stamp case

/-- Whether a VERIFIED record names a port (R181, R187). -/
def Dev.portVerified (d : Dev) (kind port : Nat) : Bool :=
  d.gate.ids.any fun e => e.2.state == 1 && leAt e.2.bytes 9 1 == kind && leAt e.2.bytes 10 1 == port

/-- The slot that takes a sample of a source, or the discard of R181. -/
def Dev.takeIn (d : Dev) (x : Source) (stamp : Nat) : Dev × Option Nat :=
  match d.takingSlot x with
  | some n =>
    if d.virtualCtx (d.slotOwner n) then (d.slotDiscard n stamp 1, none)
    else if d.flag (F.GATE_SLOT_MAP_id_req n) && !d.portVerified x.kind x.port then (d.slotDiscard n stamp 2, none)
    else (d, some n)
  | none =>
    let l := (List.range 16).filter fun n => d.slotMaps n x
    match l.find? fun n => d.slotOn n && d.slotInj n with
    | some n => (d.slotDiscard n stamp 0, none)
    | none => match l.find? fun n => !d.slotOn n with
      | some n => (d.slotDiscard n stamp 3, none)
      | none => (d, none)

/-! ### Headers (R166–R168, R529) -/

/-- The 32 bytes of a sample header (R168). -/
def Hdr.encode (h : Hdr) : List Byte :=
  leBytes 8 (h.stamp / 256) ++ leBytes 1 h.stamp ++ leBytes 1 (h.slot % 16 + 16 * (h.kind % 16)) ++ leBytes 2 h.flags ++ leBytes 4 h.seq
    ++ leBytes 4 h.bytes ++ leBytes 4 h.src ++ leBytes 8 h.aux

/-- A stamp with a signed offset added, within its 72 bits (R166). -/
def addStamp (stamp : Nat) (off : Int) : Nat := ofSigned 72 ((stamp : Int) + off)

/-- GATE_SLOT_OFFSET, signed. -/
def Dev.slotOffset (d : Dev) (n : Nat) : Int := toSigned 32 (d.getF (F.GATE_SLOT_OFFSET_offset n))

/-- The next number of a slot and the device that has taken it (R529). -/
def Dev.takeSeq (d : Dev) (n : Nat) : Nat × Dev :=
  let q := SMap.get (fun _ => 0) d.gate.seqs n
  (q, (d.updGate fun g => { g with seqs := SMap.set (fun _ => 0) g.seqs n ((q + 1) % 2 ^ 32) }).setF (F.GATE_SLOT_SEQ_seq n) q)

/-- Record the last stamp of a slot (R183). -/
def Dev.noteStamp (d : Dev) (n stamp : Nat) : Dev :=
  d.updGate fun g => { g with lastStamp := SMap.set (fun _ => 0) g.lastStamp n (stamp + 1) }

/-- The time between two words of a port sample (R193, R526), in hundredths of a unit of `Dev.clk`: an F clock, or for an Ethernet source the
clock of its port at the speed of its mode. -/
def Dev.wordPeriod (d : Dev) (kind port : Nat) : Nat :=
  if kind ≠ 2 then 2400
  else match d.getF (F.GATE_ETH_CTL_mode port) with
    | 1 => 19200
    | 2 => 7680
    | 3 => 14895
    | _ => 7447

/-- A port sample of a known slot is numbered and written (R168, R529, R526); `flags` are its whole flags. -/
def Dev.emitSample (d : Dev) (n stamp flags src aux : Nat) (payload : List Byte) : Dev :=
  let (q, d) := d.takeSeq n
  let h : Hdr := { slot := n, kind := d.slotKind n, stamp := stamp, flags := flags, seq := q, bytes := payload.length, src := src, aux := aux }
  (d.noteStamp n stamp).portSample n stamp (d.wordPeriod (d.slotKind n) (d.getF (F.GATE_SLOT_MAP_port n))) (h.encode ++ payload)

/-- A whole port sample with its corrected stamp: the taking slot's offset is added (R166, R181). -/
def Dev.portArrival (d : Dev) (x : Source) (stamp flags src aux : Nat) (payload : List Byte) : Dev :=
  match d.takeIn x stamp with
  | (d, some n) => d.emitSample n (addStamp stamp (d.slotOffset n)) flags src aux payload
  | (d, none) => d

/-! ### Edges and stamps (R174, R175, R208) -/

/-- Edges of filter of a capture register's input, edge 0 not counted (R174). -/
def Dev.filterEdges (d : Dev) (r : Nat) : Nat :=
  if r < 8 then 1 + d.getF (F.GATE_CSI_CTL_filter r)
  else if r = 16 ∨ r = 17 then 1 + d.getF (F.GATE_IMU_CTL_drdy_filter (r - 16))
  else if 20 ≤ r ∧ r < 28 then 1 + d.getF (F.GATE_ENC_CTL_filter (r - 20))
  else if r = 36 then 1 + d.getF F.BELL_PPS_CTL_filter
  else 0

/-- The slot that counts a lost edge (R208): the lowest enabled port-fed slot of the register's source. -/
def Dev.registerSlot (d : Dev) (r : Nat) : Option Nat :=
  let of' := fun (k : Nat) (okPort : Nat → Bool) =>
    (List.range 16).find? fun n => d.slotOn n && !d.slotInj n && d.slotKind n == k && okPort (d.getF (F.GATE_SLOT_MAP_port n))
  if r < 8 then of' 1 fun p => decide (p < 8) && d.getF (F.GATE_CSI_CTL_strobe_input p) == r
  else if r < 16 then of' 1 (· == r - 8)
  else if r < 18 then of' 3 (· == r - 16)
  else if r < 20 then of' 4 (· == r - 18)
  else if r < 28 then of' 5 (· == r - 20)
  else if r < 36 then of' 2 (· == (r - 28) % 4)
  else none

/-- STAMP_CONVERT (R208): the stamp unit converts one edge, unless it has done so in this T clock. -/
def execStampConvert (s : State) : Host.Outcome State Fault Refusal := s.withDev Dev.convertClock

/-- STROBE_EDGE (R174, R208): an edge of a capture input is accepted and captured. DRDY and 1PPS capture their active edge. -/
def execStrobeEdge (input : BitVec 6) (rise : Bool) (s : State) : Host.Outcome State Fault Refusal :=
  s.withDev fun d =>
    let r := input.toNat
    let active :=
      if r = 16 ∨ r = 17 then rise != d.flag (F.GATE_IMU_CTL_drdy_pol (r - 16))
      else if r = 36 then d.flag F.BELL_PPS_CTL_in_en && rise != d.flag F.BELL_PPS_CTL_in_pol
      else true
    if 36 < r ∨ !active then d else (d.capture r (d.filterEdges r) rise (d.registerSlot r)).1

/-! ### Cameras (R165, R168, R170, R175, R526) -/

/-- Write the words of an open frame that are complete (R526). -/
def Dev.csiFlush (d : Dev) : Nat → CsiFrame → Dev × CsiFrame
  | 0, f => (d, f)
  | fuel + 1, f =>
    if !f.started then
      if f.buf.length < 32 then (d, f)
      else
        let (q, d) := d.takeSeq f.slot
        let h := { f.hdr with seq := q }
        let d := (d.noteStamp f.slot h.stamp).portStart f.slot h.stamp (mkWord (h.encode ++ f.buf.take 32) true false false)
        Dev.csiFlush d fuel { f with hdr := h, started := true, buf := f.buf.drop 32 }
    else if f.buf.length < 64 then (d, f)
    else
      let d := d.portNext f.slot f.hdr.stamp (mkWord (f.buf.take 64) false false false)
      Dev.csiFlush d fuel { f with buf := f.buf.drop 64 }

/-- The end word of R192. -/
def endWord (bytes src flags : Nat) : TWord :=
  mkWord (leBytes 4 bytes ++ leBytes 4 src ++ leBytes 2 flags) false true false

/-- A frame ends (R526): what is left of its payload, then the end word with the final values. -/
def Dev.csiFinish (d : Dev) (f : CsiFrame) : Dev :=
  let src := f.vc + f.dt * 4 + (f.lines % 65536) * 256
  let flags := f.hdr.flags + 8 * b2n f.partialF
  let (d, f) :=
    if f.started then
      (if f.buf.isEmpty then d else d.portNext f.slot f.hdr.stamp (mkWord f.buf false false false), f)
    else
      let (q, d) := d.takeSeq f.slot
      let h := { f.hdr with seq := q }
      ((d.noteStamp f.slot h.stamp).portStart f.slot h.stamp (mkWord (h.encode ++ f.buf) true false false), { f with hdr := h })
  d.portNext f.slot f.hdr.stamp (endWord f.total src flags)

/-- A slot is in the middle of a sample (R179): an open camera frame, a running IMU transfer, an injected sample partly passed. -/
def Dev.slotBusy (d : Dev) (n : Nat) : Bool :=
  (d.gate.csi.any fun f => f.slot == n) || (d.gate.imu.any fun e => e.2.any fun x => x.slot == some n)
    || (match SMap.get (fun _ => none) d.host.inj (n + 4) with
      | some x => x.taken && !x.words.isEmpty
      | none => false)

/-- The mapping that waits for a slot is stored. -/
def Dev.storePendMap (d : Dev) (n : Nat) : Dev :=
  match SMap.get (fun _ => none) d.gate.pendMap n with
  | some v =>
    (d.updGate fun g => { g with pendMap := SMap.set (fun _ => none) g.pendMap n none }).setReg (R.GATE_SLOT_MAP n) (v.setWidth 64)
  | none => d

/-- Apply a mapping that waited for the sample boundary of a slot (R179). -/
def Dev.applyPendMap (d : Dev) (n : Nat) : Dev := if d.slotBusy n then d else d.storePendMap n

/-- Close the open frames that satisfy `p`, with partial set when `cut` (R170). -/
def Dev.csiClose (d : Dev) (p : CsiFrame → Bool) (cut : Bool) : Dev :=
  let fs := d.gate.csi.filter p
  let d := d.updGate fun g => { g with csi := g.csi.filter fun f => !p f }
  fs.foldl (fun d f => (if f.drop then d else d.csiFinish { f with partialF := f.partialF || cut }).applyPendMap f.slot) d

/-- The strobe pulse that a frame matches (R175): the latest one not yet served to the port with its fall in [c − window, c). -/
def Dev.matchPulse (d : Dev) (port input c : Nat) : Option Pulse :=
  let window := max 1 (d.getF (F.GATE_CSI_CTL_window port)) * 256000
  let l := (SMap.get (fun _ => {}) d.gate.strobes input).pulses.filter fun x =>
    decide (c ≤ x.fall + window) && decide (x.fall < c) && !x.served.contains port
  l.foldl (fun acc x => match acc with
    | some y => if y.fall < x.fall then some x else some y
    | none => some x) none

/-- The data types that a camera port supports (R169), by their MIPI CSI-2 codes (log 58). -/
def csiTypes : List Nat := [0x12, 0x1E, 0x24, 0x2A, 0x2B, 0x2C, 0x2D, 0x2E] ++ (List.range 8).map (· + 0x30)

/-- The strobe of a frame start captured at `c` on a port (R175): its pulse, which the port has then served, and whether it has none although its mode
asks for one. -/
def Dev.csiStrobe (d : Dev) (p c : Nat) : Dev × Option Pulse × Bool :=
  let input := d.getF (F.GATE_CSI_CTL_strobe_input p)
  let mode := d.getF (F.GATE_CSI_CTL_strobe_mode p)
  if mode ≠ 1 ∧ mode ≠ 2 then (d, none, false)
  else
    let d := d.convertUntil input 75
    match d.matchPulse p input c with
    | none => (d, none, true)
    | some q =>
      (d.updGate fun g => { g with strobes := SMap.modify (fun _ => {}) g.strobes input fun st =>
          { st with pulses := st.pulses.map fun y => if y = q then { y with served := p :: y.served } else y } }, some q, false)

/-- The corrected stamp of a frame start and the width of its strobe (R165, R168). -/
def Dev.csiBase (d : Dev) (p c : Nat) (pulse : Option Pulse) : Nat × Nat :=
  match pulse with
  | some q =>
    (if d.getF (F.GATE_CSI_CTL_strobe_mode p) = 1 then (q.rise + q.fall) / 2 else q.rise, min ((q.fall - q.rise) / 256) 0xFFFFFFFF)
  | none => (addStamp c (-(d.getF (F.GATE_CSI_FS_OFFSET_offset p) * 256 : Nat)), 0)

/-- The slot that a source concerns (R181): the one that takes it, else the one that its discard is counted in. -/
def Dev.slotConcerned (d : Dev) (x : Source) : Option Nat :=
  match d.takingSlot x with
  | some n => some n
  | none =>
    let l := (List.range 16).filter fun n => d.slotMaps n x
    match l.find? fun n => d.slotOn n && d.slotInj n with
    | some n => some n
    | none => l.find? fun n => !d.slotOn n

/-- A frame of one source opens with the base stamp of its FS (R166, R175, R181); one that is discarded stays known for its errors (R527). -/
def Dev.csiOpen (d : Dev) (x : Source) (base width frame hold : Nat) (fallback : Bool) : Dev :=
  match d.slotConcerned x with
  | none => d
  | some k =>
    let d := if fallback then d.gateEvent 0x0107 k (addStamp base (d.slotOffset k)) 0 else d
    let (d, taken) := d.takeIn x base
    let h : Hdr := { slot := k, kind := 1, stamp := addStamp base (d.slotOffset k), flags := hold + 2 * b2n fallback + 128, seq := 0, bytes := 0,
                     src := x.key % 256, aux := frame + width * 65536 }
    d.updGate fun g => { g with csi := g.csi ++ [{ port := x.port, vc := x.key % 4, dt := x.key / 4, slot := k, hdr := h, buf := [], total := 0,
                                                    lines := 0, partialF := false, started := false, drop := taken.isNone }] }

/-- The sources of a virtual channel that slots map, of supported data types, in the order of the data type (R169; log 59). -/
def Dev.csiSources (d : Dev) (p vc : Nat) : List Source :=
  (csiTypes.map fun dt => ({ kind := 1, port := p, key := vc + dt * 4 } : Source)).filter fun x => (List.range 16).any fun n => d.slotMaps n x

/-- An FS or FE ends the frames of its virtual channel; each one that an FS cuts is an error of its source (R170, R527). -/
def Dev.csiCut (d : Dev) (p vc : Nat) : Dev :=
  let on := fun (f : CsiFrame) => f.port == p && f.vc == vc
  let d := (d.gate.csi.filter on).foldl (fun (d : Dev) f => d.rxError 0x0102 { kind := 1, port := p, key := f.vc + f.dt * 4 } d.dev256) d
  d.csiClose on true

/-- CSI_FRAME_START (R165, R170, R175): the frame of a virtual channel is stamped, by its strobe pulse where one matches, and opened for each slot
that takes a data type of the channel. A packet whose header ECC is uncorrectable (`good` false) is left out and starts no frame (log 59). -/
def execCsiFrameStart (port : BitVec 3) (vc : BitVec 2) (good : Bool) (frame : BitVec 16) (s : State) : Host.Outcome State Fault Refusal :=
  s.withDev fun d =>
    if !good then d else
    let p := port.toNat
    let d := d.csiCut p vc.toNat
    let (d, cap) := d.takeStamp (8 + p) 0 true
    let (d, pulse, fallback) := d.csiStrobe p cap.time
    let (base, width) := d.csiBase p cap.time pulse
    (d.csiSources p vc.toNat).foldl (fun (d : Dev) x => d.csiOpen x base width frame.toNat cap.hold fallback) d

/-- CSI_LONG_PACKET (R169, R170, R526): a packet of a data type that is not supported is ignored; a good packet's payload joins the open frame and complete words are written; a bad one is left
out and the frame is partial. -/
def execCsiLongPacket (port : BitVec 3) (vc : BitVec 2) (dt : BitVec 6) (good : Bool) (payload : List Byte) (s : State) :
    Host.Outcome State Fault Refusal :=
  s.withDev fun d =>
    let same := fun (f : CsiFrame) => f.port == port.toNat && f.vc == vc.toNat && f.dt == dt.toNat
    let put := fun (d : Dev) (f : CsiFrame) => d.updGate fun g => { g with csi := g.csi.map fun y => if same y then f else y }
    if !csiTypes.contains dt.toNat then d else match d.gate.csi.find? same with
    | none =>
      if good then d else d.rxError 0x0102 { kind := 1, port := port.toNat, key := vc.toNat + dt.toNat * 4 } d.dev256
    | some f =>
      if good && f.drop then d
      else if good then
        let (d, f) := d.csiFlush (payload.length / 64 + 2)
          { f with buf := f.buf ++ payload, total := f.total + payload.length, lines := f.lines + 1 }
        put d f
      else
        put (d.rxError 0x0102 { kind := 1, port := port.toNat, key := vc.toNat + dt.toNat * 4 } d.dev256) { f with partialF := true }

/-- CSI_FRAME_END (R526): the open frames of the virtual channel end. -/
def execCsiFrameEnd (port : BitVec 3) (vc : BitVec 2) (s : State) : Host.Outcome State Fault Refusal :=
  s.withDev fun d => d.csiClose (fun f => f.port == port.toNat && f.vc == vc.toNat) false

/-! ### Ethernet (R171, R176) -/

/-- What the classifier finds in a frame (R171): PTP, a UDP datagram with ports and payload, or neither. -/
inductive EthClass where
  | ptp
  | udp (sport dport : Nat) (payload : List Byte)
  | other
deriving DecidableEq, Repr

/-- Skip 802.1Q tags: the EtherType and what follows it. -/
def skipTags : Nat → List Byte → Nat × List Byte
  | 0, bs => (beAt bs 0 2, bs.drop 2)
  | fuel + 1, bs => if beAt bs 0 2 = 0x8100 then skipTags fuel (bs.drop 4) else (beAt bs 0 2, bs.drop 2)

/-- A UDP datagram. -/
def udpOf (bs : List Byte) : EthClass :=
  if bs.length < 8 then .other
  else
    let dport := beAt bs 2 2
    if dport = 319 ∨ dport = 320 then .ptp
    else .udp (beAt bs 0 2) dport ((bs.drop 8).take (beAt bs 4 2 - 8))

/-- Skip IPv6 extension headers that carry no fragment. -/
def skipV6 : Nat → Nat → List Byte → EthClass
  | 0, _, _ => .other
  | fuel + 1, next, bs =>
    if next = 17 then udpOf bs
    else if next = 0 ∨ next = 43 ∨ next = 60 then skipV6 fuel (leAt bs 0 1) (bs.drop (8 * (leAt bs 1 1 + 1)))
    else .other

/-- Classify a frame without its FCS (R171): fragments are `other`. -/
def ethClass (frame : List Byte) : EthClass :=
  let (ty, bs) := skipTags 4 (frame.drop 12)
  if ty = 0x88F7 then .ptp
  else if ty = 0x0800 then
    let ihl := leAt bs 0 1 % 16 * 4
    let frag := beAt bs 6 2 % 0x4000
    if leAt bs 0 1 / 16 ≠ 4 ∨ ihl < 20 ∨ leAt bs 9 1 ≠ 17 ∨ frag ≠ 0 then .other
    else udpOf ((bs.take (beAt bs 2 2)).drop ihl)
  else if ty = 0x86DD then
    if leAt bs 0 1 / 16 ≠ 6 then .other else skipV6 8 (leAt bs 6 1) ((bs.drop 40).take (beAt bs 4 2))
  else .other

/-- The point stamps of a payload (R176, R210): SYNCED points are rebuilt as u64 against the MAC stamp, and the header takes the first point's stamp
plus the slot offset; of RELATIVE points the first has the MAC stamp plus the slot offset, which is the header's too (log 66); the answer is the
stamp with the offset, flags, aux, payload and the first stamp more than 1 ms after the MAC stamp. -/
def pointStamps (mode first stride count scale mac : Nat) (off : Int) (payload : List Byte) :
    Nat × Nat × Nat × List Byte × Option Int :=
  let pos := ((List.range count).map fun i => first + i * stride).filter fun o => decide (o + 4 ≤ payload.length)
  if (mode ≠ 1 ∧ mode ≠ 2) ∨ pos.isEmpty then (addStamp mac off, 0, 0, payload, none)
  else
    let raw := pos.map fun o => leAt payload o 4
    let r := mac / scale
    let p0 := raw.headD 0
    let full : List Int := raw.map fun (p : Nat) =>
      if mode = 1 then (ofSigned 64 ((r : Int) + toSigned 32 (ofSigned 32 ((p : Int) - r))) : Int) * scale
      else (mac : Int) + off + toSigned 32 (ofSigned 32 ((p : Int) - p0)) * scale
    let hdr := if mode = 1 then full.headD 0 + off else (mac : Int) + off
    let offs := full.map fun f => rneShift (f - hdr) 8
    let sat := offs.any fun o => satSigned 32 o != o
    let out := (pos.zip offs).foldl (fun bs x =>
      bs.take x.1 ++ leBytes 4 (ofSigned 32 (satSigned 32 x.2)) ++ bs.drop (x.1 + 4)) payload
    let late := if mode = 1 then full.find? fun f => decide ((mac : Int) + 256000000 < f) else none
    (ofSigned 72 hdr, 32 + 64 * b2n sat + 4 * b2n late.isSome, p0 + pos.length * 2 ^ 32, out, late)

/-- ETH_FRAME_RECEIVE (R171, R176): `frame` runs from the destination address to the last byte of the FCS. -/
def execEthFrameReceive (port : BitVec 2) (fcsOk : Bool) (frame : List Byte) (s : State) : Host.Outcome State Fault Refusal :=
  s.withDev fun d =>
    let p := port.toNat
    let mode := d.getF (F.GATE_ETH_CTL_mode p)
    let mx := d.getF (F.GATE_ETH_CTL_max_frame p)
    let limit := if 1518 ≤ mx ∧ mx ≤ 9216 then mx else 1518
    if mode = 0 ∨ 4 < mode then d
    else
      let (d, cap) := d.takeStamp (28 + p) 0 true
      let mac := addStamp cap.time (-(d.getF (F.GATE_ETH_INGRESS_CORR_corr p) : Int))
      let bad := !fcsOk || decide (limit < frame.length)
      match ethClass (frame.take (frame.length - 4)) with
      | .ptp => if bad then d.bump R.GATE_ETH_UNMATCHED else d
      | .other => d.bump R.GATE_ETH_UNMATCHED
      | .udp sport dport payload =>
        let x : Source := { kind := 2, port := p, key := dport }
        if !((List.range 16).any fun n => d.slotMaps n x) then d.bump R.GATE_ETH_UNMATCHED
        else if bad then
          match d.takingSlot x with
          | some _ => d.rxError 0x0102 x mac
          | none => d.bump R.GATE_ETH_UNMATCHED
        else match d.takeIn x mac with
          | (d, none) => d
          | (d, some n) =>
            let stride := max 4 (d.getF (F.GATE_SLOT_PARSE_stride n))
            let count := max 1 (d.getF (F.GATE_SLOT_PARSE_count n))
            let scale := if d.getF (F.GATE_SLOT_PARSE_unit n) = 1 then 256000 else 256
            let r := pointStamps (d.getF (F.GATE_SLOT_PARSE_mode n)) (d.getF (F.GATE_SLOT_PARSE_first n)) stride count scale mac
              (d.slotOffset n) payload
            let d := match r.2.2.2.2 with
              | some f => d.gateEvent 0x0106 n (ofSigned 72 f) 0
              | none => d
            d.emitSample n r.1 (r.2.1 + cap.hold) sport r.2.2.1 r.2.2.2.1

/-! ### IMU and CAN (R172, R173) -/

/-- The transfer that an IMU port sends (R172): its SPI mode, the divider of its clock (0 acts as 1), the bits, the command byte if there is one. -/
def Dev.imuSends (d : Dev) (p : Nat) : Output :=
  let div := d.getF (F.GATE_IMU_CTL_div p)
  let en := d.flag (F.GATE_IMU_CTL_cmd_en p)
  .spi p (d.getF (F.GATE_IMU_CTL_spi_mode p)) (max 1 div) (8 * (b2n en + d.getF (F.GATE_IMU_CTL_burst p)))
    (if en then some (d.getF (F.GATE_IMU_CTL_cmd p)) else none)

/-- IMU_DRDY_EDGE (R172): an accepted DRDY edge starts a transfer; one during a transfer is counted as an error. -/
def execImuDrdyEdge (port : BitVec 1) (s : State) : Host.Outcome State Fault Refusal :=
  s.withDev fun d =>
    let p := port.toNat
    let (d, c) := d.takeStamp (16 + p) (d.filterEdges (16 + p)) (!d.flag (F.GATE_IMU_CTL_drdy_pol p))
    if d.getF (F.GATE_IMU_CTL_burst p) = 0 then d
    else match SMap.get (fun _ => none) d.gate.imu p with
      | some _ => d.rxError 0x0102 { kind := 3, port := p } (c.time - 256)
      | none =>
        let x : ImuXfer := { stamp := c.time - 256, hold := c.hold, slot := d.takingSlot { kind := 3, port := p } }
        ((d.updGate fun g => { g with imu := SMap.set (fun _ => none) g.imu p (some x) }).emit (.pin "IMU_CS_N" p false)).emit (d.imuSends p)

/-- IMU_TRANSFER_END (R172): CS_N rises; the burst bytes, without those clocked in under the command byte, become a sample, under the mapping that
stood at the start (R179). -/
def execImuTransferEnd (port : BitVec 1) (miso : List Byte) (s : State) : Host.Outcome State Fault Refusal :=
  s.withDev fun d =>
    let p := port.toNat
    match SMap.get (fun _ => none) d.gate.imu p with
    | none => d
    | some x =>
      let burst := d.getF (F.GATE_IMU_CTL_burst p)
      let payload := ((if d.flag (F.GATE_IMU_CTL_cmd_en p) then miso.drop 1 else miso).take burst)
      let d := (d.updGate fun g => { g with imu := SMap.set (fun _ => none) g.imu p none }).emit (.pin "IMU_CS_N" p true)
      let src : Source := { kind := 3, port := p }
      let d := if x.slot.isNone ∧ (d.takingSlot src).isSome then d else d.portArrival src x.stamp x.hold burst 0 payload
      match x.slot with
      | some n => d.applyPendMap n
      | none => d

/-- The error state of a CAN controller from its counters (R189; the counting itself is ISO 11898-1's, log 61). -/
def canState (tec rec : Nat) : Nat := if 255 < tec then 2 else if 127 < tec ∨ 127 < rec then 1 else 0

/-- Set the counters and state of a CAN controller. -/
def Dev.setCan (d : Dev) (k tec rec : Nat) : Dev :=
  let st := canState tec rec
  ((d.setF (F.GATE_CAN_CTL_tec k) (min tec 255)).setF (F.GATE_CAN_CTL_rec k) (min rec 255)).setF (F.GATE_CAN_CTL_state k) st

/-- GATE_STATUS as it reads (R189): can_on is 1 for an enabled controller that is not bus-off. -/
def Dev.gateStatus (d : Dev) : Nat :=
  let on := fun k => d.flag (F.GATE_CAN_CTL_enable k) && d.getF (F.GATE_CAN_CTL_state k) != 2
  putField (d.reg R.GATE_STATUS).toNat 12 2 (b2n (on 0) + 2 * b2n (on 1))

/-- An attempt of CAN_SEND, the command that the Steward runs now, ends in an error frame: it is signalled unless listen_only is 1 (R173), and the
controller may go bus-off by it (log 61). -/
def Dev.canFailed (d : Dev) (k : Nat) : Dev :=
  match d.runs 0x70 with
  | some c =>
    if leAt c 8 1 ≠ k ∨ d.flag (F.GATE_CAN_CTL_listen_only k) then d
    else (d.setCan k (d.getF (F.GATE_CAN_CTL_tec k) + 8) (d.getF (F.GATE_CAN_CTL_rec k))).emit (.canFlag k true)
  | none => d

/-- CAN_FRAME_RECEIVE (R165, R173): the stamp is the start of frame less 150 ns. A good frame is acknowledged, an error signalled, unless listen_only
is 1. A frame that ends in an error frame is counted against its slot; remote frames are ignored. A controller receives no frame of its own. -/
def execCanFrameReceive (ctl : BitVec 1) (f : CanFrame) (s : State) : Host.Outcome State Fault Refusal :=
  s.withDev fun d =>
    let k := ctl.toNat
    if !d.flag (F.GATE_CAN_CTL_enable k) ∨ d.getF (F.GATE_CAN_CTL_state k) = 2 then d
    else if f.own then (if f.ok then d else d.canFailed k)
    else
      let (d, cap) := d.takeStamp (18 + k) 0 false
      let stamp := addStamp cap.time (-(150 * 256))
      let tec := d.getF (F.GATE_CAN_CTL_tec k)
      let rec' := d.getF (F.GATE_CAN_CTL_rec k)
      let silent := d.flag (F.GATE_CAN_CTL_listen_only k)
      let x : Source := { kind := 4, port := k, key := f.id.toNat, ext := f.ext }
      let bad := !f.ok || (f.fd && !d.flag (F.GATE_CAN_CTL_fd k))
      if bad then
        let d := if silent then d else (d.setCan k tec (min 255 (rec' + 1))).emit (.canFlag k true)
        d.rxError 0x0102 x stamp
      else
        let d := if silent then d else (d.setCan k tec (if 127 < rec' then 127 else rec' - 1)).emit (.canFlag k false)
        if f.rtr then d
        else
          let src := f.id.toNat + b2n f.ext * 2 ^ 29 + b2n f.fd * 2 ^ 30 + b2n f.brs * 2 ^ 31
          d.portArrival x stamp cap.hold src f.dlc.toNat f.data

/-- CAN_BUS_OFF_RECOVERY (R173): after the recovery sequence of ISO 11898-1 a controller in bus-off is error active again. -/
def execCanBusOffRecovery (ctl : BitVec 1) (s : State) : Host.Outcome State Fault Refusal :=
  s.withDev fun d => if d.getF (F.GATE_CAN_CTL_state ctl.toNat) = 2 then d.setCan ctl.toNat 0 0 else d

/-! ### Encoders (R177, R178) -/

/-- An encoder channel. -/
def Dev.enc (d : Dev) (ch : Nat) : Enc := SMap.get (fun _ => {}) d.gate.enc ch
/-- Change an encoder channel. -/
def Dev.updEnc (d : Dev) (ch : Nat) (f : Enc → Enc) : Dev :=
  d.updGate fun g => { g with enc := SMap.modify (fun _ => {}) g.enc ch f }

/-- The count step of an edge of A or B (R177): up when A leads B. -/
def quadUp (isA rise other : Bool) : Bool := if isA then rise != other else rise == other

/-- The sample of a channel's latest edge (R168, R178). -/
def Dev.encSample (d : Dev) (ch flags : Nat) : Dev :=
  let e := d.enc ch
  let aux := e.count % 2 ^ 32 + e.interval * 2 ^ 32
  let x : Source := { kind := 5, port := ch }
  if e.any then d.portArrival x e.stamp (flags + e.hold) e.edge aux []
  else match d.takeIn x 0 with
    | (d, some n) => d.emitSample n 0 flags 7 (0xFFFFFFFF * 2 ^ 32) []
    | (d, none) => d

/-- The encoder inputs that an edge is on: A 0, B 1, Z 2. -/
def encInputs : EncEdge → List Nat
  | .a _ => [0]
  | .b _ => [1]
  | .z _ => [2]
  | .both => [0, 1]

/-- Whether an edge at `t` comes too soon after the last one accepted on one of its inputs: an input accepts one edge in 200 ns (R177, R515). -/
def Enc.tooSoon (e : Enc) (edge : EncEdge) (t : Nat) : Bool :=
  (encInputs edge).any fun i => (e.seen.getD i none).any fun s => decide (s ≤ t) && decide (t < s + 200 * 256)

/-- The edge's inputs have accepted it at `t`. -/
def Enc.accepts (e : Enc) (edge : EncEdge) (t : Nat) : Enc :=
  { e with seen := (encInputs edge).foldl (fun l i => l.set i (some t)) e.seen }

/-- ENCODER_EDGE (R177, R178, R515): the count follows the edge, and in mode EDGE the edge is a sample. An edge that its input does not accept is
ignored. -/
def execEncoderEdge (ch : BitVec 3) (edge : EncEdge) (s : State) : Host.Outcome State Fault Refusal :=
  s.withDev fun d =>
    let c := ch.toNat
    let (d, cap) := d.takeStamp (20 + c) (d.filterEdges (20 + c)) true
    let stamp := addStamp cap.time (-(39 * 256))
    let late := (d.enc c).tooSoon edge stamp
    let d := if late then d else d.updEnc c fun e => e.accepts edge stamp
    let e := d.enc c
    let inv := d.flag (F.GATE_ENC_CTL_invert c)
    let step := fun (up : Bool) => if up != inv then (e.count + 1) % 2 ^ 32 else (e.count + (2 ^ 32 - 1)) % 2 ^ 32
    let ival := if e.any then min ((stamp - e.stamp) / 256) 0xFFFFFFFF else 0xFFFFFFFF
    let accept := fun (code count : Nat) (a b : Bool) (d : Dev) =>
      let d := d.updEnc c fun e => { e with aLevel := a, bLevel := b, stamp := stamp, count := count, interval := ival, edge := code,
                                            fresh := true, any := true, hold := cap.hold }
      let d := d.setF (F.GATE_ENC_COUNT_count c) count
      if d.flag (F.GATE_ENC_CTL_latch c) then d else d.encSample c 0
    if late then d else match edge with
    | .a rise => accept (if rise then 0 else 1) (step (quadUp true rise e.bLevel)) rise e.bLevel d
    | .b rise => accept (if rise then 2 else 3) (step (quadUp false rise e.aLevel)) e.aLevel rise d
    | .z rise => if rise then accept 4 (if d.flag (F.GATE_ENC_CTL_z_reset c) then 0 else e.count) e.aLevel e.bLevel d else d
    | .both =>
      let d := d.updEnc c fun e => { e with aLevel := !e.aLevel, bLevel := !e.bLevel }
      d.rxError 0x0108 { kind := 5, port := c } stamp

/-- ENCODER_LATCH (R178): in mode LATCH, once every latch period from the plan's first boundary on. -/
def execEncoderLatch (ch : BitVec 3) (s : State) : Host.Outcome State Fault Refusal :=
  s.withDev fun d =>
    let c := ch.toNat
    let due := (d.enc c).nextLatch.getD (d.plan.t0.getD 0 * 256)
    if !d.flag (F.GATE_ENC_CTL_latch c) ∨ !d.locked ∨ d.dev256 < due then d
    else
      let period := max 1 (d.getF (F.GATE_ENC_CTL_period c)) * 256000
      let stale := !(d.enc c).fresh
      let d := d.updEnc c fun e => { e with nextLatch := some (due + period), fresh := false }
      d.encSample c (16 * b2n stale)

/-! ### Triggers (R174) -/

/-- A trigger. -/
def Dev.trig (d : Dev) (t : Nat) : Trig := SMap.get (fun _ => {}) d.gate.trig t
/-- Change a trigger. -/
def Dev.updTrig (d : Dev) (t : Nat) (f : Trig → Trig) : Dev :=
  d.updGate fun g => { g with trig := SMap.modify (fun _ => {}) g.trig t f }

/-- The first pulse instant (ns) of a trigger strictly after `now` (1/256 ns), none for a past single pulse. -/
def trigNext (start period now : Nat) : Option Nat :=
  if now < start * 256 then some start
  else if period = 0 then none
  else some (start + ((now - start * 256) / (period * 256) + 1) * period)

/-- A register of a trigger has been written (R174): while it is enabled, pulses come at the start, or at the first instant in the future, with
TRIG_LATE where the write enables it late. -/
def Dev.trigWritten (d : Dev) (t : Nat) (was : Bool) : Dev :=
  if d.flag (F.GATE_TRIG_WIDTH_enable t) then
    let start := d.getF (F.GATE_TRIG_START_start t)
    let nx := if start * 256 = d.dev256 then some start else trigNext start (d.getF (F.GATE_TRIG_PERIOD_period t)) d.dev256
    let d := d.updTrig t fun x => { x with armed := true, next := nx }
    if !was && decide (start * 256 < d.dev256) then d.raise 0x0109 t 0 0 (dAt 16 8 start + dAt 25 1 t) else d
  else if was then d.updTrig t fun x => { x with armed := false, next := none }
  else d

/-- A forward move of device time skips pulse instants (R207). -/
def Dev.trigSkip (d : Dev) : Dev :=
  iter 8 d fun t d =>
    match (d.trig t).next with
    | some n =>
      if n * 256 < d.dev256 then
        d.updTrig t fun x => { x with next := trigNext (d.getF (F.GATE_TRIG_START_start t)) (d.getF (F.GATE_TRIG_PERIOD_period t)) d.dev256 }
      else d
    | none => d

/-- The pulse width in ns, clamped (R174). -/
def Dev.trigWidth (d : Dev) (t : Nat) : Nat :=
  let w := max 2 (d.getF (F.GATE_TRIG_WIDTH_width t))
  let p := d.getF (F.GATE_TRIG_PERIOD_period t)
  if p = 0 then w else max 2 (min w (p - 2))

/-- TRIGGER_PULSE (R174): the output changes state at the first T edge at or after the requested instant. -/
def execTriggerPulse (t : BitVec 3) (s : State) : Host.Outcome State Fault Refusal :=
  s.withDev fun d =>
    let i := t.toNat
    let x := d.trig i
    let inv := d.flag (F.GATE_TRIG_WIDTH_invert i)
    if x.level then
      if d.dev256 < x.fallAt then d
      else (d.updTrig i fun x => { x with level := false }).emit (.pin "TRIG" i inv)
    else match x.next with
      | none => d
      | some n =>
        if !x.armed ∨ d.dev256 < n * 256 then d
        else
          let p := d.getF (F.GATE_TRIG_PERIOD_period i)
          let nx := if p = 0 then none else some (n + p)
          (d.updTrig i fun x => { x with level := true, fallAt := (n + d.trigWidth i) * 256, next := nx }).emit (.pin "TRIG" i (!inv))

/-! ### Links, mappings, discovery's start (R179, R180, R185, R188) -/

/-- PORT_LINK (R188, R189). -/
def execPortLink (kind : PortKind) (port : BitVec 3) (up : Bool) (s : State) : Host.Outcome State Fault Refusal :=
  s.withDev fun d =>
    let (f, k) := match kind with
      | .csi => (F.GATE_STATUS_csi_up, 1)
      | .eth => (F.GATE_STATUS_eth_up, 2)
    let p := if k = 1 then port.toNat else port.toNat % 4
    if (d.getF f).testBit p = up then d
    else (d.setF f (putBit (d.getF f) p up)).raise 0x0101 p 0 0 (dAt 24 1 k + dAt 25 1 (b2n up))

/-- A write of GATE_SLOT_MAP (R179, R180): enable is forced off on a conflict; a slot in the middle of a sample takes the mapping
at its boundary. -/
def Dev.writeSlotMap (d : Dev) (n v : Nat) : Dev :=
  if d.locked then d
  else
    let d1 := d.storeReg (R.GATE_SLOT_MAP n) v
    let on := d1.slotOn n && d1.slotKind n != 0 && !d1.slotInj n
    let clash := on && (List.range 16).any fun j =>
      j != n && d1.slotOn j && d1.slotKind j != 0 && !d1.slotInj j && d1.slotKind j == d1.slotKind n
        && d1.getF (F.GATE_SLOT_MAP_port j) == d1.getF (F.GATE_SLOT_MAP_port n)
        && d1.getF (F.GATE_SLOT_MAP_sel j) == d1.getF (F.GATE_SLOT_MAP_sel n)
    let d2 := if clash then d1.setF (F.GATE_SLOT_MAP_enable n) 0 else d1
    let val := (d2.reg (R.GATE_SLOT_MAP n)).setWidth 32
    let d3 := if d.slotBusy n then
        d.updGate fun g => { g with pendMap := SMap.set (fun _ => none) g.pendMap n (some val) }
      else d2
    if clash then d3.gateEvent 0x0104 n 0 0 else d3

/-- A write of GATE_DISCOVER (R185, R189): with go it starts discovery on the buses, discarded while one runs. -/
def Dev.writeDiscover (d : Dev) (v : Nat) : Dev :=
  let go := v.testBit 31
  if go && d.flag F.GATE_STATUS_discovery_busy then d
  else
    let d := d.storeReg R.GATE_DISCOVER v
    if go then (d.setF F.GATE_STATUS_discovery_busy 1).updGate fun g => { g with discovering := d.getF F.GATE_DISCOVER_buses } else d

end Sys2Proof.Machine
end

