-- ==== Sys2Proof/Machine/Yoke.lean ====
section
/-! DEFINITION. The Yoke's intake, histories and fusion windows (R234–R237, R250–R258). -/

namespace Sys2Proof.Machine

/-- Change the Yoke. -/
def Dev.updYoke (d : Dev) (f : YokeState → YokeState) : Dev := { d with yoke := f d.yoke }
/-- Change a schedule's progress. -/
def Dev.updSched (d : Dev) (s : Nat) (f : Sched → Sched) : Dev :=
  d.updYoke fun y => { y with scheds := SMap.modify (fun _ => {}) y.scheds s f }
/-- The history of a stream. -/
def Dev.history (d : Dev) (i : Nat) : List Hist := SMap.get (fun _ => []) d.yoke.hist i
/-- Change the history of a stream. -/
def Dev.setHistory (d : Dev) (i : Nat) (h : List Hist) : Dev :=
  d.updYoke fun y => { y with hist := SMap.set (fun _ => []) y.hist i h }

/-- The Yoke as requester: Hedge requester 16 (R159), stack requester 0x50 (R388). -/
def Dev.yokeWho (d : Dev) (ctx : Nat) : Who := ⟨16, 0x50, ctx, (d.ctxOf ctx).gen⟩

/-- A record of the Yoke (R260). -/
def Dev.yokeEvent (d : Dev) (code inst ctx t b24 b25 mark : Nat) : Dev :=
  d.raise code inst ctx (d.ctxOf ctx).gen (dAt 16 8 t + dAt 24 1 b24 + dAt 25 1 b25 + dAt 28 4 mark)

/-! ### Intake -/

/-- The trough that the intake pointer chooses (R234): the first at or after it with a word at its head, not held back for
the host (R196). No trough during a Yoke recovery (R258), nor a second word in one F clock. -/
def Dev.intakePick (d : Dev) : Option (Nat × TWord) :=
  if d.flag F.YOKE_STATUS_recovering || d.yoke.lastTake == some d.fclk then none
  else
    match rotPick 16 (d.getF F.YOKE_STATUS_intake_ptr) fun n => (d.trough n).headWord.isSome && !d.flag (F.TROUGH_CTL_consumer_hold n) with
    | none => none
    | some n => (d.trough n).headWord.map fun w => (n, w)

/-- Take the chosen word: it leaves the trough and joins the sample's words, and the pointer advances past the winner. -/
def Dev.intakeTake (d : Dev) (n : Nat) (w : TWord) : Dev :=
  let d := (d.troughTake n).setF F.YOKE_STATUS_intake_ptr ((n + 1) % 16)
  d.updYoke fun y =>
    let part := SMap.get (fun _ => []) y.part n
    let part := if w.sop then [w] else if part.isEmpty then [] else part ++ [w]
    { y with part := SMap.set (fun _ => []) y.part n part, lastTake := some d.fclk }

/-- HEAD_WORD_TAKE (R196, R234): the intake takes a word that does not end its sample. -/
def execHeadWordTake (s : State) : Host.Outcome State Fault Refusal :=
  s.withDev fun d =>
    match d.intakePick with
    | some (n, w) => if w.eop then d else d.intakeTake n w
    | none => d

/-- Insert into a history (R236): by stamp, later arrivals of one stamp after; a full history loses its oldest entry or drops
the new one. The second component says whether the sample was dropped. -/
def insertHist (depth : Nat) (h : List Hist) (x : Hist) : List Hist × Bool :=
  let full := decide (depth ≤ h.length)
  if full && h.all fun y => decide (x.stamp < y.stamp) then (h, true)
  else
    let h := if full then h.drop 1 else h
    (h.takeWhile (fun y => decide (y.stamp ≤ x.stamp)) ++ x :: h.dropWhile (fun y => decide (y.stamp ≤ x.stamp)), false)

/-- Put a sample into a stream's history, counting a drop (R236). -/
def Dev.noteSample (d : Dev) (i slot : Nat) (x : Hist) : Dev :=
  let (h, dropped) := insertHist (d.streamRec i).depth (d.history i) x
  if dropped then
    (d.bump (R.YOKE_SLOT_HIST_DROP slot)).yokeEvent 0x0405 slot (d.slotOwner slot) (x.stamp / 256) 0xFF i 0
  else d.setHistory i h

/-- Copy a sample of an IMAGE or SWEEP stream to its payload ring (R237); the address, or none for a copy longer than the ring. -/
def Dev.ringCopy (d : Dev) (i slot : Nat) (bytes : List Byte) : Dev × Option Nat :=
  let r := d.streamRec i
  if r.ringBytes < bytes.length then (d, none)
  else
    let pos := SMap.get (fun _ => 0) d.yoke.ringPos i
    let pos := if r.ringBytes < pos + bytes.length then 0 else pos
    let who := d.yokeWho (d.slotOwner slot)
    let (d, res) := d.ctxWrite who none (r.ringBase + pos) bytes
    let d := match res with
      | .error e => d.reportAcc who none true e
      | .ok _ => d
    (d.updYoke fun y => { y with ringPos := SMap.set (fun _ => 0) y.ringPos i ((pos + bytes.length + 63) / 64 * 64) }, some (r.ringBase + pos))

/-- One stream takes a sample of header and payload (R235–R237). -/
def Dev.streamTake (d : Dev) (slot : Nat) (sample : List Byte) (x : Hist) (i : Nat) : Dev :=
  let r := d.streamRec i
  let decodeEv := fun (d : Dev) => d.yokeEvent 0x0409 i (d.slotOwner slot) (x.stamp / 256) 0xFF i 0
  if r.kind = 5 ∨ r.kind = 6 then
    match d.ringCopy i slot sample with
    | (d, some a) => d.noteSample i slot { x with ring := a }
    | (d, none) => decodeEv (d.bump R.YOKE_DECODE_SHORT)
  else
    let chs := (List.range r.nch).map fun c => decodeChan (schedRec d.schedSec 2 16 (r.firstCh + c)) sample
    if chs.any (·.isNone) then d.bump R.YOKE_DECODE_SHORT
    else
      let vals := chs.filterMap id
      let fixed := (vals.filter (·.2)).length
      let d := if fixed = 0 then d else decodeEv (d.bump R.YOKE_DECODE_FIX fixed)
      d.noteSample i slot { x with ch := vals.map (·.1) }

/-- Whether a sample of these streams is LATE (R254): some mark of a schedule that reads one of them lies above the stamp and
has its commit deadline at or before the arrival. -/
def Dev.lateFor (d : Dev) (streams : List Nat) (stamp arrival : Nat) : Bool :=
  (List.range 8).any fun s =>
    d.schedOn s && (streams.any fun i => (d.schedStreams s).contains i) &&
      match d.newestMark s (d.commitLag s) (arrival / 256) with
      | some m => decide (stamp < d.markTime s m * 256)
      | none => false

/-- The bytes of a whole sample with the values of its end word (R234, R192): header and payload. -/
def sampleBytes (ws : List TWord) : List Byte :=
  let all := ws.flatMap (·.bytes)
  let flags := leAt all 10 2
  if flags.testBit 7 then
    let body := ws.dropLast.flatMap (·.bytes)
    let e := ((ws.getLast?.map (·.bytes)).getD [])
    let n := leAt e 0 4
    body.take 10 ++ leBytes 2 (leAt e 8 2 - (leAt e 8 2 &&& 128)) ++ (body.drop 12).take 4 ++ e.take 4 ++ (e.drop 4).take 4
      ++ (body.drop 24).take 8 ++ (body.drop 32).take n
  else all.take (32 + leAt all 16 4)

/-- SAMPLE_INTAKE (R234–R237, R254): the word that ends a sample is taken; an aborted sample leaves no trace. -/
def execSampleIntake (s : State) : Host.Outcome State Fault Refusal :=
  s.withDev fun d =>
    match d.intakePick with
    | none => d
    | some (n, w) =>
      if !w.eop then d
      else
        let d := d.intakeTake n w
        let ws := SMap.get (fun _ => []) d.yoke.part n
        let d := d.updYoke fun y => { y with part := SMap.set (fun _ => []) y.part n [] }
        if w.abort || ws.isEmpty then d
        else
          let b := sampleBytes ws
          let stamp := leAt b 0 8 * 256 + leAt b 8 1
          let arrival := d.slotNow n
          let x : Hist := { stamp := stamp, arrival := arrival, seq := leAt b 12 4, flags := leAt b 10 2, bytes := leAt b 16 4,
                            aux := leAt b 24 8, ch := [], ring := 0 }
          let src := leAt b 20 4
          let streams := (List.range d.streamCount).filter fun i =>
            let r := d.streamRec i
            decide (r.slot = n) && decide (src &&& r.srcMask = r.srcVal)
          let d := streams.foldl (fun d i => d.streamTake n b x i) d
          if d.lateFor streams stamp arrival then
            (d.bump (R.YOKE_SLOT_LATE n)).yokeEvent 0x0404 n (d.slotOwner n) (stamp / 256) 0xFF 0 0
          else d

/-! ### Fusion windows (R528, R250–R257) -/

/-! The Yoke reads a schedule's histories when a fusion window works (R236, R378, R380, R381). -/

/-- The place of a history word: R397 names none for a memory that no address reaches, so that it is free (log 6). -/
def Dev.histPlace (d : Dev) : EccAt × Dev :=
  let (v, d) := d.fresh
  (⟨v % 256, v / 256 % 256, v / 65536, 16⟩, d)

/-- Read one entry of a stream's history: a correction and a detection are counted and reported; an entry with an uncorrectable error is removed
and counted like one that is dropped; beyond the code's detection anything may come (R378). -/
def Dev.histEntry (d : Dev) (i : Nat) (x : Hist) : Dev × Option Hist :=
  let slot := (d.streamRec i).slot
  let o := d.slotOwner slot
  let gen := (d.ctxOf o).gen
  let clean := { x with err := {} }
  let gone := fun (d : Dev) =>
    let (p, d) := d.histPlace
    (((d.uncorrAt p o gen 0).bump (R.YOKE_SLOT_HIST_DROP slot)).yokeEvent 0x0405 slot o (x.stamp / 256) 0xFF i 0, (none : Option Hist))
  let fixed := fun (d : Dev) (y : Hist) =>
    let (p, d) := d.histPlace
    (d.corrAt p o gen 0, some y)
  match x.err.find false with
  | .clean => (d, some x)
  | .corr => fixed d clean
  | .uncorr => gone d
  | .beyond =>
    let (how, d) := d.fresh
    let (v, d) := d.fresh
    let wrong := { clean with ch := (List.range x.ch.length).map fun c => v / 2 ^ (32 * c) % 2 ^ 32 }
    if how % 3 = 0 then gone d else if how % 3 = 1 then fixed d wrong else (d, some wrong)

/-- Read the history of a stream. -/
def Dev.histRead (d : Dev) (i : Nat) : Dev :=
  if (d.history i).all fun x => x.err.find false == .clean then d
  else
    let r := (d.history i).foldl (fun (acc : Dev × List Hist) x =>
      match acc.1.histEntry i x with
      | (d, some y) => (d, acc.2 ++ [y])
      | (d, none) => (d, acc.2)) (d, [])
    r.1.setHistory i r.2

/-- Read the histories that a schedule's evaluation uses: those of its streams and of their poses (R242). -/
def Dev.histReads (d : Dev) (s : Nat) : Dev :=
  let poses := (d.schedStreams s).flatMap fun i =>
    let r := d.streamRec i
    if r.kind = 5 then [r.poseQ, r.poseP].filter (· != 0xFF) else []
  ((d.schedStreams s ++ poses).eraseDups).foldl (fun d i => d.histRead i) d

/-- A kind of fusion window (R233). -/
def fuseKind (k : Nat) : Bool := decide (0x10 ≤ k) && decide (k ≤ 0x1F)

/-- The fusion window that an overrun has made late (R257): the next one after the window that ran last, begun while that fusion still worked
and ended before it was done. -/
def Dev.lateFuse (d : Dev) : Option CalEntry :=
  match d.yoke.runWin with
  | none => none
  | some (_, b, st) =>
    (((d.calendar 0).find? fun e => fuseKind e.kind && (b != d.plan.nextBoundary || decide (st < e.start))).filter fun e =>
      decide (d.plan.cBase + e.start < d.yoke.busyUntil) && decide (d.plan.cBase + e.start + e.len ≤ d.cclk))

/-- PLAN_STOP ends fusion with the last FUSE_COMMIT window of the final major period (R258). -/
def Dev.fuseStopped (d : Dev) (w : CalEntry) : Bool :=
  d.plan.stopping && !(d.calendar 0).any fun e => decide (0x18 ≤ e.kind) && fuseKind e.kind && decide (w.start ≤ e.start)

/-- The fusion window of a kind that is open, or late, and has not run (R233), while the Yoke is free (R257) and not under recovery
(R258): its entry and the time base's instant at its start. -/
def Dev.fuseWindow (d : Dev) (kind s : Nat) : Option (CalEntry × Nat) :=
  let fits := fun (w : CalEntry) => w.kind == kind && !d.fuseStopped w && !(d.yoke.runWin == some (kind, d.plan.nextBoundary, w.start))
  if !d.locked || !d.schedOn s || d.flag F.YOKE_STATUS_recovering || decide (d.cclk < d.yoke.busyUntil) then none
  else
    match ((d.window 0).filter fits).orElse fun _ => d.lateFuse.filter fits with
    | none => none
    | some w =>
      let startClk := (d.plan.cBase + w.start) * 20
      let start := if d.schedVirtual s then d.schedNow s else d.edgeTime ((d.clk - startClk) / 48) / 256
      some (w, start)

/-- The mark a window serves: newest for device time (R528), oldest not served for virtual time (R255). -/
def Dev.fuseMark (d : Dev) (s lag start : Nat) (served : Option Nat) : Option Nat :=
  if d.schedVirtual s then
    let m := match served with
      | some k => k + 1
      | none => 0
    if d.markTime s m + lag ≤ start then some m else none
  else
    match d.newestMark s lag start, served with
    | some m, some k => if k < m then some m else none
    | r, none => r
    | none, _ => none

/-- The fusion takes a time within its bound (R256; log 63); the next window waits for its end (R257). The second component is
the device time of the complete copy. -/
def Dev.fuseSpan (d : Dev) (s : Nat) (w : CalEntry) (committed : Bool) (mark : Nat) : Dev × Nat :=
  let (r, d) := d.fresh
  let ns := r % (d.fuseBound s committed + 1)
  let y := { d.yoke with busyUntil := d.cclk + (6 * ns + 4) / 5, runWin := some (w.kind, d.plan.nextBoundary, w.start),
                         running := some (s, mark, d.plan.cBase + w.start + w.len) }
  ({ d with yoke := y }, d.devNs + ns)

/-- The end of a fusion window (R257): a fusion that has not completed is counted and reported. -/
def Dev.fuseWindowEnd (d : Dev) : Dev :=
  match d.yoke.running with
  | none => d
  | some (s, m, e) =>
    if d.cclk < e then d
    else
      let late := decide (e < d.yoke.busyUntil)
      let d := d.updYoke fun y => { y with running := none }
      if late then (d.bump R.YOKE_OVERRUN).yokeEvent 0x0407 s (d.schedOwner s) (d.markTime s m) s 0 m else d

/-- Write a copy of a frame: slot m mod nbuf of a ring (R246), as the owner context. -/
def Dev.writeFrame (d : Dev) (s m : Nat) (committed : Bool) (bs : List Byte) : Dev :=
  let b := d.schedBytes s
  let base := leAt b (if committed then 32 else 40) 8
  let who := d.yokeWho (d.schedOwner s)
  let tag := if committed then none else some ⟨s, m⟩
  let (d, res) := d.ctxWrite who tag (base + m % d.nbuf s * leAt b 48 4) bs
  match res with
  | .error e => d.reportAcc who none true e
  | .ok _ => d

/-- A provisional issue that does not happen (R250, R251). -/
def Dev.provSkip (d : Dev) (s m : Nat) : Dev :=
  (d.bump (R.YOKE_MARK_SKIPPED s)).yokeEvent 0x0406 s (d.schedOwner s) (d.markTime s m) s 0 m

/-- FUSE_PROV (R250, R528, R255). -/
def execFuseProv (sch : BitVec 3) (st : State) : Host.Outcome State Fault Refusal :=
  st.withDev fun d =>
    let s := sch.toNat
    match d.fuseWindow (0x10 + s) s with
    | none => d
    | some (w, start) =>
      if d.noProv s then d
      else match d.fuseMark s (d.provLag s) start (d.sched s).provDone with
        | none => d
        | some m =>
          let (d, written) := (d.histReads s).fuseSpan s w false m
          let r := d.region (d.getF (F.YOKE_MARK_CFG_region_base s) + m % d.nbuf s)
          if r.state = 1 ∧ r.mark ≠ m then
            (d.updSched s fun x => { x with provDone := some m, provs := (m, none) :: x.provs }).provSkip s m
          else
            let e := d.evaluate s m ((d.markTime s m + d.provLag s) * 256)
            let d := d.updSched s fun x => { x with provDone := some m, provs := (m, some e) :: x.provs }
            d.writeFrame s m false (d.frame s e false 0 0 0 written false)

/-- Samples of a schedule's streams that arrived in [d_p, d_c) (R247), each once. -/
def Dev.windowArrivals (d : Dev) (s m : Nat) : Nat :=
  let lo := (d.markTime s m + d.provLag s) * 256
  let hi := (d.markTime s m + d.commitLag s) * 256
  (((d.schedStreams s).flatMap fun i => ((d.history i).filter fun h => decide (lo ≤ h.arrival) && decide (h.arrival < hi)).map
    fun h => ((d.streamRec i).slot, h.arrival, h.stamp, h.seq)).eraseDups).length

/-- The counters, events and registers that a committed copy moves (R245, R251, R260, R261). -/
def Dev.noteCommitted (d : Dev) (s : Nat) (e : Eval) (verdict arrivals : Nat) : Dev :=
  let t := d.markTime s e.mark
  let o := d.schedOwner s
  let d := d.updSched s fun x => { x with commitDone := some e.mark, provs := x.provs.filter (decide <| e.mark < ·.1), verdicts := (e.mark, verdict) :: x.verdicts }
  let d := (d.setF (F.YOKE_MARK_INDEX_mark s) e.mark).setF (F.YOKE_MARK_VERDICT_verdict s) verdict
  let d := (d.bump (if verdict = 1 then R.YOKE_MARK_KEPT s else R.YOKE_MARK_REFUSED s)).bump (R.YOKE_MARK_ARRIVALS s) arrivals
  let d := d.updYoke fun y => { y with lastState := e.streams.foldl (fun l x => SMap.set (fun _ => (0, 0)) l x.stream (x.flags, x.age)) y.lastState }
  let d := if verdict = 2 then d.yokeEvent 0x0403 s o t s 0 e.mark else d
  let d := e.streams.foldl (fun d x => if x.flags % 2 = 1 then d.yokeEvent 0x0401 x.stream o t s x.stream e.mark else d) d
  (List.range 32).foldl (fun d p =>
    if e.conflict.testBit p then (d.bump (R.YOKE_PAIR_CONFLICT p)).yokeEvent 0x0402 p o t s p e.mark else d) d

/-- FUSE_COMMIT (R251, R252, R232, R528, R255). -/
def execFuseCommit (sch : BitVec 3) (st : State) : Host.Outcome State Fault Refusal :=
  st.withDev fun d =>
    let s := sch.toNat
    match d.fuseWindow (0x18 + s) s with
    | none => d
    | some (w, start) =>
      match d.fuseMark s (d.commitLag s) start (d.sched s).commitDone with
      | none => d
      | some m =>
        let (d, written) := (d.histReads s).fuseSpan s w true m
        let c := d.evaluate s m ((d.markTime s m + d.commitLag s) * 256)
        let arr := d.windowArrivals s m
        if d.noProv s then
          (d.writeFrame s m true (d.frame s c true 1 arr 0 written false)).noteCommitted s c 1 arr
        else match (d.sched s).provs.find? fun x => x.1 == m with
          | some (_, some p) =>
              let ch := (p.streams.zip c.streams).filter (fun x => d.streamChanged x.1 x.2) |>.map (·.2.stream)
              if ch.isEmpty then (d.writeFrame s m true (d.frame s p true 1 arr 0 written false)).noteCommitted s p 1 arr
              else
                let mark := fun (x : StreamVal) => if ch.contains x.stream then { x with flags := x.flags + sfChanged } else x
                let c := { c with streams := c.streams.map mark }
                let mask := ch.foldl (fun n i => n + 2 ^ i) 0
                (d.writeFrame s m true (d.frame s c true 2 arr mask written false)).noteCommitted s c 2 arr
          | some (_, none) => (d.writeFrame s m true (d.frame s c true 2 arr 0 written true)).noteCommitted s c 2 arr
          | none =>
            let d := d.provSkip s m
            (d.writeFrame s m true (d.frame s c true 2 arr 0 written true)).noteCommitted s c 2 arr

/-- BAD_COMMIT at a COMMIT of mark `m` in a context (R253). -/
def Dev.badCommit (d : Dev) (s m ctx gen : Nat) : Dev :=
  let bad := match (d.sched s).verdicts.find? fun v => v.1 == m with
    | none => 1
    | some v => if v.2 = 2 then 2 else 0
  if bad = 0 then d
  else d.raise 0x0408 s ctx gen (dAt 16 8 (d.markTime s m) + dAt 24 1 s + dAt 26 1 bad + dAt 28 4 m)

/-- YOKE_STREAM_STATE, YOKE_STREAM_AGE and YOKE_STREAM_LAST for the selected stream (R261). -/
def Dev.streamView (d : Dev) : Nat × Nat × Nat :=
  let i := d.getF F.YOKE_STREAM_SEL_stream
  let (fl, age) := SMap.get (fun _ => (0, 0)) d.yoke.lastState i
  let h := d.history i
  (fl + h.length * 65536, age, (h.getLast?.map (fun x => x.stamp / 256)).getD 0)

end Sys2Proof.Machine
end

