-- ==== Sys2Proof/Machine/Engine.lean ====
section
/-! DEFINITION. What the engines share: queues of jobs, reads and writes of job memory, completion and EWAIT (R87–R89, R156). -/

namespace Sys2Proof.Machine

/-- The jobs of an engine, oldest first. -/
def Dev.engJobs (d : Dev) (e : Nat) : List Job := d.jobs.filter fun j => j.engine == e
/-- The accepted jobs of a lane of an engine. -/
def Dev.laneJobs (d : Dev) (e lane : Nat) : List Job := d.jobs.filter fun j => j.engine == e && j.lane == lane && j.accepted
/-- Change a job. -/
def Dev.updJob (d : Dev) (id : Nat) (f : Job → Job) : Dev := { d with jobs := d.jobs.map fun j => if j.id = id then f j else j }
/-- Remove a job. -/
def Dev.dropJob (d : Dev) (id : Nat) : Dev := { d with jobs := d.jobs.filter fun j => j.id != id }

/-- The engine of a job as requester: Hedge requesters 16 to 19 (R159), stack requesters 0x50 to 0x53 (R388). -/
def Job.who (j : Job) : Who := ⟨16 + j.engine, 0x50 + j.engine, j.ctx, j.gen⟩

/-- A job's read, reported when it fails (R156). -/
def Dev.jobRead (d : Dev) (j : Job) (va n : Nat) : Dev × Option (List Byte) :=
  match d.ctxRead j.who j.tag va n with
  | (d, .ok b) => (d, some b)
  | (d, .error e) => (d.reportAcc j.who j.tag false e, none)

/-- A job's write, reported when it fails (R156); false when it failed. -/
def Dev.jobWrite (d : Dev) (j : Job) (va : Nat) (b : List Byte) : Dev × Bool :=
  match d.ctxWrite j.who j.tag va b with
  | (d, .ok _) => (d, true)
  | (d, .error e) => (d.reportAcc j.who j.tag true e, false)

/-- The EWAITs of a plough that `done` names end: pd is written in this clock as a result of the waiting bundle (R66, R89). -/
def Plough.ewaitEnd (pl : Plough) (now : Nat) (b : Bool) (done : Wait → Bool) : Plough :=
  { pl with
    waits := pl.waits.filter fun x => !done x
    pend := pl.pend ++ (pl.waits.filter done).filterMap fun x => match x with
      | .engine _ pd _ _ => some ⟨now, pl.pcAt, slotX, .pred pd b⟩
      | _ => none }

/-- A wait for a job. -/
def Wait.isJob (id : Nat) : Wait → Bool
  | .engine j _ _ _ => j == id
  | _ => false

/-- The lanes of an engine that a job of a queue works on: a batch of the Mill works on all (R300). -/
def jobLanes (e lane : Nat) : List Nat := if e = 2 ∧ lane = 4 then [0, 1, 2, 3, 4] else [lane]

/-- The lanes of a job are free from this C clock on: the engine watchdog counts the next job's work from there (R467). -/
def Dev.lanesFree (d : Dev) (j : Job) : Dev :=
  { d with reeve := { d.reeve with laneEnd := (jobLanes j.engine j.lane).foldl (fun m l => SMap.set (fun _ => 0) m (8 * j.engine + l) d.cclk)
                                     d.reeve.laneEnd } }

/-- Completion of a job: it leaves its queue and a plough that waits for it goes on with pd = 1 (R89). -/
def Dev.endJob (d : Dev) (j : Job) : Dev :=
  iter 16 ((d.lanesFree j).dropJob j.id) fun p d => d.updPlough p fun pl => pl.ewaitEnd d.cclk true (Wait.isJob j.id)

/-- The first job of a lane, if the engine has not run it yet and is not under recovery. -/
def Dev.headToRun (d : Dev) (e lane : Nat) : Option Job :=
  match d.laneJobs e lane with
  | j :: _ => if j.ran || d.unitBusy (16 + e) then none else some j
  | [] => none

/-- The first job of a lane, when the engine, which is not under recovery, has run it and its stack requests are served (R45). -/
def Dev.headRan (d : Dev) (e lane : Nat) : Option Job :=
  match d.laneJobs e lane with
  | j :: _ =>
    if j.ran && !d.unitBusy (16 + e) && !d.stackBusy (0x50 + e) j.ctx && !(e == 3 && d.stackBusy (0x54 + lane) j.ctx) then some j else none
  | [] => none

/-- The engine has done a job's work, with an end code. -/
def Dev.jobRan (d : Dev) (j : Job) (result : Nat) (notes : List Nat := []) : Dev :=
  d.updJob j.id fun x => { x with ran := true, result := result, notes := notes }

/-- Whether every byte of a list is zero. -/
def allZero (bs : List Byte) : Bool := bs.all (· == 0)

/-- Whether a page of a range is mapped elsewhere than in the Barn, whatever its permissions. -/
def Dev.outsideBarn (d : Dev) (j : Job) (va n : Nat) : Bool :=
  (List.range (pagesOf n)).any fun k =>
    let a := if k = 0 then va else (va / 4096 + k) * 4096
    decide (a < va + n) && (match d.pteOf j.ctx a with
      | some p => pteTarget p != 0x10
      | none => false)

/-- A loop over `0 … n - 1` that stops at the first failure. -/
def tryFor {σ : Type} (n : Nat) (s : σ) (f : Nat → σ → σ × Bool) : σ × Bool :=
  (List.range n).foldl (fun acc i => if acc.2 then f i acc.1 else acc) (s, true)

/-- A loop over a list that stops at the first failure. -/
def tryEach {σ α : Type} (l : List α) (s : σ) (f : α → σ → σ × Bool) : σ × Bool :=
  l.foldl (fun acc x => if acc.2 then f x acc.1 else acc) (s, true)

end Sys2Proof.Machine
end

