-- ==== Sys2Proof/Machine/Granary.lean ====
section
/-! DEFINITION. The Granary (R322–R357): pools and sequences in the management address space, appending, sharing, attention,
merging, expansion and backward recomputation. -/

namespace Sys2Proof.Machine
open Sys2Proof.Machine.Fp

/-- Work of the Granary: it changes the device and ends with a value or with a status code of R332. -/
abbrev GM := ExceptT Nat (StateM Dev)

/-! ### Status codes (R332) -/

/-- BAD_BLOCK. -/
def gBadBlock : Nat := 0x01
/-- FAULT. -/
def gFault : Nat := 0x02
/-- NOT_OWNER. -/
def gNotOwner : Nat := 0x03
/-- OVER_QUOTA. -/
def gOverQuota : Nat := 0x04
/-- POOL_EMPTY. -/
def gPoolEmpty : Nat := 0x05
/-- NO_STAGE. -/
def gNoStage : Nat := 0x06
/-- LENGTH. -/
def gLength : Nat := 0x07
/-- STAGE_FULL. -/
def gStageFull : Nat := 0x08
/-- REFCOUNT. -/
def gRefcount : Nat := 0x09
/-- PROV_STATE. -/
def gProvState : Nat := 0x0A
/-- ECC. -/
def gEcc : Nat := 0x0B
/-- SQUASHED. -/
def gSquashed : Nat := 0x0C
/-- POS_MISMATCH. -/
def gPosMismatch : Nat := 0x0D

/-- A code that ends a job REFUSED. -/
def gRefused (c : Nat) : Bool := decide (0x04 ≤ c) && decide (c ≤ 0x09)

/-- The mark that a record of a job names (R356): that of its provisional mode, else it is free (log 46). -/
def Dev.granMark (d : Dev) (j : Job) : Nat × Dev :=
  match j.tag with
  | some t => (t.mark, d)
  | none => d.fresh

/-- The sequence that a job names: bytes 2 and 3 of its block (R331), which are zero where none is named. -/
def Job.granSeq (j : Job) : Nat := j.notes.getD 1 0 % 65536

/-- A record of the Granary (R356). -/
def Dev.granEvent (d : Dev) (tag : Option PTag) (code lane ctx gen addr kind st seq low : Nat) : Dev :=
  d.raiseFor tag code lane ctx gen (dAt 16 8 addr + dAt 24 1 kind + dAt 25 1 st + dAt 26 2 seq + dAt 28 4 low)

/-! ### Memory -/

/-- A record of a job that names its mark. -/
def Dev.granNote (d : Dev) (j : Job) (code st : Nat) : Dev :=
  let (m, d) := d.granMark j
  d.granEvent j.tag code j.lane j.ctx j.gen j.addr j.kind st j.granSeq m

/-- A page table, descriptor, refcount or free stack that cannot be corrected, or a table error, sets table_bad and raises TABLE_ECC (R326, R354). -/
def Dev.granTableBad (d : Dev) (j : Job) : Dev := (d.setB F.GRAN_STATUS_table_bad true).granNote j 0x0705 gEcc

/-- Read the management space as requester 19, with the stack requests of a unit of the Granary. -/
def gReadAs (sreq : Nat) (j : Job) (table : Bool) (a n : Nat) : GM (List Byte) := do
  let d ← get
  match d.mgmtRead 19 sreq false a n j.ctx j.gen with
  | (d, .ok b) => set d; pure b
  | (d, .error r) =>
    if r = 0x10 then
      set (if table then d.granTableBad j else d)
      throw gEcc
    else
      set d
      throw gFault

/-- Read the management space for a job. -/
def gRead (j : Job) (table : Bool) (a n : Nat) : GM (List Byte) := gReadAs 0x53 j table a n

/-- Write the management space as requester 19. -/
def gWrite (j : Job) (a : Nat) (b : List Byte) : GM Unit := do
  let d ← get
  match d.mgmtWrite 19 0x53 false a b false j.ctx j.gen with
  | (d, none) => set d
  | (d, some r) =>
    set d
    throw (if r = 0x10 then gEcc else gFault)

/-- How a job ends whose access of its context's memory fails: ECC for an uncorrectable error (R383), else FAULT (R332). -/
def gAccCode : AccErr → Nat
  | .ecc _ => gEcc
  | _ => gFault

/-- Read job memory in the issuing context; a failure is reported (R156). -/
def gJobRead (j : Job) (a n : Nat) : GM (List Byte) := do
  let d ← get
  match d.ctxRead j.who j.tag a n with
  | (d, .ok b) => set d; pure b
  | (d, .error e) => set (d.reportAcc j.who j.tag false e); throw (gAccCode e)

/-- Write job memory in the issuing context; a failure is reported (R156). -/
def gJobWrite (j : Job) (a : Nat) (b : List Byte) : GM Unit := do
  let d ← get
  match d.ctxWrite j.who j.tag a b with
  | (d, .ok _) => set d
  | (d, .error e) => set (d.reportAcc j.who j.tag true e); throw (gAccCode e)

/-- End with a code when a condition holds. -/
def gCheck (bad : Bool) (code : Nat) : GM Unit := if bad then throw code else pure ()

/-! ### Pools (R323, R324) -/

/-- One part of a slice: where its data and scales begin, and the elements of a token's row. -/
structure GPart where
  data : Nat
  scale : Nat
  w : Nat
deriving DecidableEq, Repr

/-- A pool's configuration. -/
structure GPool where
  num : Nat
  compat : Bool
  fmt : Nat
  mx : Bool
  stores : Nat
  heads : Nat
  hd : Nat
  parts : List GPart
  slice : Nat
  base : Nat
  rc : Nat
  stack : Nat
  bias : Option Nat
  ok : Bool
deriving DecidableEq, Repr

/-- A multiple of 64 at or above. -/
def al64 (n : Nat) : Nat := (n + 63) / 64 * 64

/-- Pool `p` as its registers give it. -/
def Dev.gPool (d : Dev) (p : Nat) : GPool :=
  let compat := d.flag (F.GRAN_POOL_CFG_form p)
  let el := d.getF (F.GRAN_POOL_CFG_elem p)
  let fmt := if compat then (if el = 0 then 10 else 7) else if el = 0 then 2 else if el = 1 then 1 else 3
  let mx := compat || el == 2
  let g := if compat then d.getF (F.GRAN_POOL_CFG_g_m1 p) + 1 else 1
  let hd := if compat then 32 * 2 ^ d.getF (F.GRAN_POOL_CFG_d p) else 32 * (d.getF (F.GRAN_POOL_CFG_r_m1 p) + 1)
  let w := g * hd
  let data := al64 (16 * w * fmtBits fmt / 8)
  let scales := if mx then al64 (16 * w / 32) else 0
  let parts : List GPart := if compat then [⟨0, data, w⟩, ⟨data + scales, 2 * data + scales, w⟩] else [⟨0, data, w⟩]
  let slice := (data + scales) * parts.length
  let s := d.getF (F.GRAN_POOL_CFG_stores_m1 p) + 1
  { num := p, compat := compat, fmt := fmt, mx := mx, stores := s, heads := g, hd := hd, parts := parts, slice := slice,
    base := d.getF (F.GRAN_POOL_BASE_base p) * 64, rc := d.getF (F.GRAN_POOL_RC_base p) * 64,
    stack := d.getF (F.GRAN_POOL_STACK_base p) * 64,
    bias := if d.flag (F.GRAN_POOL_CFG_bias_en p) then some (d.getF (F.GRAN_POOL_BIAS_base p) * 256) else none,
    ok := d.flag (F.GRAN_POOL_CFG_enable p) && decide (slice ≤ 65536)
      && decide (s * slice ≤ d.getF F.GRAN_STAGE_CFG_stride * 1024) && (if compat then decide (el < 2) else decide (el < 3)) && decide (s ≤ 128) }

/-- The staging buffer of a sequence. -/
def Dev.gStage (d : Dev) (i : Nat) : Nat := d.getF F.GRAN_STAGE_BASE_base * 65536 + i * (d.getF F.GRAN_STAGE_CFG_stride * 1024)

/-- A slice of a frame (R324). -/
def GPool.frameSlice (p : GPool) (f s : Nat) : Nat := p.base + (f * p.stores + s) * p.slice

/-- Read the row of token `j` of a part of a slice as exact values. -/
def gRow (jb : Job) (p : GPool) (slice : Nat) (part : GPart) (j : Nat) : GM (List FVal) := do
  let bits := fmtBits p.fmt
  let raw ← gRead jb false (slice + part.data + j * part.w * bits / 8) (part.w * bits / 8)
  let sc ← if p.mx then gRead jb false (slice + part.scale + j * part.w / 32) (part.w / 32) else pure []
  let n := leNat raw
  pure ((List.range part.w).map fun c =>
    let e := field n (c * bits) bits
    if p.mx then mxValue p.fmt (leAt sc (c / 32) 1) e else decodeElem p.fmt e)

/-- Pack elements of `w` bits into bytes. -/
def packElems (w : Nat) (l : List Nat) : List Byte :=
  leBytes (l.length * w / 8) ((l.zip (List.range l.length)).foldl (fun n x => n + x.1 * 2 ^ (w * x.2)) 0)

/-- Write the row of token `j` of a part from exact values, converted RNE with saturation (R335, R105). -/
def gPutRow (jb : Job) (p : GPool) (slice : Nat) (part : GPart) (j : Nat) (vs : List FVal) : GM Unit := do
  let bits := fmtBits p.fmt
  let a := slice + part.data + j * part.w * bits / 8
  if p.mx then
    let blocks := (List.range (part.w / 32)).map fun b => mxBlock p.fmt (fun _ => .rne) ((vs.drop (32 * b)).take 32)
    gWrite jb a (packElems bits (blocks.flatMap fun b => b.2.1))
    gWrite jb (slice + part.scale + j * part.w / 32) (blocks.flatMap fun b => leBytes 1 b.1)
  else gWrite jb a (packElems bits (vs.map fun v => (encodeElem p.fmt .rne true v).1))

/-! ### Sequence descriptors (R327) -/

/-- A sequence. -/
structure GSeq where
  lenC : Nat := 0
  lenP : Nat := 0
  owner : Nat := 0
  pool : Nat := 0
  valid : Bool := false
  ways : Nat := 1
  index : Nat := 0
  gen : Nat := 0
  pages : Nat := 0
  rowsC : Nat := 0
  rowsP : Nat := 0
  sched : Nat := 0
  mark : Nat := 0
deriving DecidableEq, Repr

/-- Read a descriptor's bytes. -/
def seqOf (b : List Byte) : GSeq :=
  let w := leAt b 8 4
  { lenC := leAt b 0 4, lenP := leAt b 4 4, owner := w % 4096, pool := field w 12 2, valid := w.testBit 14, ways := field w 15 3 + 1,
    index := field w 18 3, gen := leAt b 12 4 % 2 ^ 20, pages := leAt b 16 4, rowsC := leAt b 20 1, rowsP := leAt b 21 1,
    sched := leAt b 22 1 % 8, mark := leAt b 24 4 }

/-- A descriptor's bytes. -/
def GSeq.bytes (s : GSeq) : List Byte :=
  leBytes 4 s.lenC ++ leBytes 4 s.lenP
    ++ leBytes 4 (s.owner % 4096 + s.pool % 4 * 4096 + b2n s.valid * 2 ^ 14 + (s.ways - 1) % 8 * 2 ^ 15 + s.index % 8 * 2 ^ 18)
    ++ leBytes 4 s.gen ++ leBytes 4 s.pages ++ leBytes 1 s.rowsC ++ leBytes 1 s.rowsP ++ leBytes 1 s.sched ++ [0] ++ leBytes 4 s.mark
    ++ leBytes 36 0

/-- Where a descriptor lies. -/
def Dev.gSeqAddr (d : Dev) (i : Nat) : Nat := d.getF F.GRAN_SEQ_BASE_base * 65536 + i * 64

/-- Read a sequence. -/
def gSeq (j : Job) (i : Nat) : GM GSeq := do
  let b ← gRead j true ((← get).gSeqAddr i) 64
  pure (seqOf b)

/-- Write a sequence. -/
def gPutSeq (j : Job) (i : Nat) (s : GSeq) : GM Unit := do gWrite j ((← get).gSeqAddr i) s.bytes

/-- Whether provisional rows stand. -/
def GSeq.hasProv (s : GSeq) : Bool := s.rowsP != 0 || s.lenP != s.lenC

/-- The sequence of a job, checked for its owner (R332 NOT_OWNER). -/
def gOwned (j : Job) (i : Nat) : GM GSeq := do
  let d ← get
  gCheck (decide (d.getF F.GRAN_STAGE_CFG_count ≤ i)) gNotOwner
  let s ← gSeq j i
  gCheck (!s.valid || s.owner != j.ctx || s.gen != j.gen) gNotOwner
  pure s

/-! ### Page tables, walk caches, refcounts and free frames (R326, R328, R329) -/

/-- Where a page table entry lies. -/
def Dev.gPteAddr (d : Dev) (i k : Nat) : Nat := d.getF F.GRAN_PT_BASE_base * 65536 + i * 32768 + 4 * k

/-- A line of 16 page table entries as the walk caches name it. -/
def granLine (i k : Nat) : Nat := i * 1024 + k / 16 + 1

/-- Whether a lane's walk cache holds the line of an entry. -/
def Dev.gHolds (d : Dev) (lane i k : Nat) : Bool := (SMap.get (fun _ => []) d.gran.cache lane).any fun e => e.2 == granLine i k

/-- A walker misses a line: the miss is counted, fills the entry at the rotating pointer and moves both pointers (R329). -/
def Dev.gWalk (d : Dev) (tag : Option PTag) (lane i k : Nat) : Dev :=
  let c := SMap.get (fun _ => []) d.gran.cache lane
  let p := SMap.get (fun _ => 0) d.gran.ptrs lane
  let g := { d.gran with cache := SMap.set (fun _ => []) d.gran.cache lane (SMap.set (fun _ => 0) c p (granLine i k)),
                         ptrs := SMap.set (fun _ => 0) d.gran.ptrs lane ((p + 1) % 256) }
  ({ d with gran := g }.setF F.GRAN_STATUS_walk_ptr ((lane + 1) % 4)).bumpFor tag R.GRAN_WALK_MISS

/-- The line of a page table entry as a lane's walk cache holds it: the entries as they were written, since a write updates the caches (R329). -/
def Dev.gCached (d : Dev) (a : Nat) : List Byte :=
  match d.xlate { req := 19, va := a, mgmt := true } with
  | .ok key _ _ => d.peek key 4
  | .fail _ => []

/-- The frame of local page `k`; an invalid entry is a table error (R326). A line that the lane's cache does not hold is read from memory by the
lane's walker (R329). -/
def gFrame (j : Job) (i k : Nat) : GM Nat := do
  let a := (← get).gPteAddr i k
  let b ← if (← get).gHolds j.lane i k then pure ((← get).gCached a) else do
    modify fun d => d.gWalk j.tag j.lane i k
    let l ← gReadAs (0x54 + j.lane) j true (a / 64 * 64) 64
    pure ((l.drop (a % 64)).take 4)
  let e := leNat b
  if !e.testBit 22 || e / 2 ^ 23 != 0 then
    modify fun d => d.granTableBad j
    throw gEcc
  else pure (e % 2 ^ 22)

/-- Frames charged to a context (R340). -/
def Dev.gUsage (d : Dev) (ctx : Nat) : Nat := (d.gran.charged.filter fun e => e.2 == ctx + 1).length

/-- Charge or release a frame. -/
def Dev.gCharge (d : Dev) (pool frame v : Nat) : Dev :=
  { d with gran := { d.gran with charged := SMap.set (fun _ => 0) d.gran.charged (pool * 4194304 + frame) v } }

/-- Take the frame on top of a pool's free stack for a context (R328, R340). -/
def gAlloc (j : Job) (p : GPool) (ctx : Nat) : GM Nat := do
  let d ← get
  gCheck (decide (d.quotaNow ctx 3 < d.gUsage ctx + 1)) gOverQuota
  let n := d.getF (F.GRAN_POOL_FREE_free p.num)
  gCheck (n == 0) gPoolEmpty
  let b ← gRead j true (p.stack + 4 * (n - 1)) 4
  let f := leNat b
  modify fun d => (d.setF (F.GRAN_POOL_FREE_free p.num) (n - 1)).gCharge p.num f (ctx + 1)
  gWrite j (p.rc + 2 * f) (leBytes 2 1)
  pure f

/-- One reference to a frame ends; at zero it goes to the free stack (R328). -/
def gRelease (j : Job) (p : GPool) (f : Nat) : GM Unit := do
  let b ← gRead j true (p.rc + 2 * f) 2
  let n := leNat b
  gWrite j (p.rc + 2 * f) (leBytes 2 (n - 1))
  if n ≤ 1 then
    let top := (← get).getF (F.GRAN_POOL_FREE_free p.num)
    gWrite j (p.stack + 4 * top) (leBytes 4 f)
    modify fun d => (d.setF (F.GRAN_POOL_FREE_free p.num) (top + 1)).gCharge p.num f 0

/-- Flush a full staging buffer into a new frame (R336). -/
def gFlush (j : Job) (p : GPool) (i : Nat) (s : GSeq) : GM GSeq := do
  let f ← gAlloc j p s.owner
  let stage := (← get).gStage i
  let b ← gRead j false stage (p.stores * p.slice)
  gWrite j (p.frameSlice f 0) b
  gWrite j ((← get).gPteAddr i s.pages) (leBytes 4 (f + 2 ^ 22))
  modify fun d => d.bumpFor j.tag R.GRAN_FLUSHES
  let s := { s with pages := s.pages + 1, rowsC := 0 }
  gPutSeq j i s
  pure s

/-- The lowest free sequence index (R334); none is NO_STAGE. -/
def gFreeIndex (j : Job) : GM Nat := do
  let n := (← get).getF F.GRAN_STAGE_CFG_count
  let r ← (List.range n).foldlM (fun (acc : Option Nat) i => do
    match acc with
    | some x => pure (some x)
    | none =>
      let s ← gSeq j i
      pure (if s.valid then none else some i)) none
  match r with
  | some i => pure i
  | none => throw gNoStage

/-! ### The job block (R331) -/

/-- The bytes that a kind uses beside kind and status, as (offset, count). -/
def gUses (kind : Nat) : List (Nat × Nat) :=
  match kind with
  | 1 => [(8, 4)]
  | 2 => [(2, 2)]
  | 3 => [(2, 2), (8, 4)]
  | 4 => [(2, 2), (8, 4)]
  | 5 => [(1, 3), (8, 10), (20, 4), (32, 16)]
  | 6 => [(2, 2)]
  | 8 => [(1, 3), (8, 20), (32, 12), (48, 20), (72, 8)]
  | 9 => [(1, 1), (18, 6), (32, 12), (56, 12), (72, 8)]
  | 0xA => [(1, 3), (8, 12), (32, 12), (56, 12), (92, 4)]
  | 0xB => [(1, 3), (8, 20), (32, 12), (48, 20), (72, 20), (96, 20)]
  | _ => []

/-- The flag bits that a kind uses. -/
def gFlagMask (kind : Nat) : Nat :=
  match kind with
  | 5 => 0x10 | 8 => 0x1F | 9 => 0x0C | 0xA => 0x28 | 0xB => 0x1B | _ => 0

/-- A kind of R330. -/
def gKnown (kind : Nat) : Bool := [1, 2, 3, 4, 5, 6, 8, 9, 0xA, 0xB].contains kind

/-- Unknown kind, non-zero reserved or unused bytes, a WINDOW field without the WINDOW mask (R331). -/
def gBlockBad (kind addr : Nat) (b : List Byte) : Bool :=
  !gKnown kind || leAt b 0 1 != kind || addr % 64 != 0
    || ((List.range 128).any fun o => leAt b o 1 != 0 && o != 0 && !(decide (4 ≤ o) && decide (o < 8))
          && !(gUses kind).any fun u => decide (u.1 ≤ o) && decide (o < u.1 + u.2))
    || leAt b 1 1 != (leAt b 1 1 &&& gFlagMask kind) || leAt b 1 1 % 4 == 3
    || ((kind == 8 || kind == 0xB) && leAt b 1 1 % 4 != 2 && leAt b 24 4 != 0)

/-- Check a tile's pitch (R331). -/
def gPitch (b : List Byte) (off row : Nat) : GM Unit :=
  let p := leAt b off 4
  gCheck (p % 64 != 0 || decide (p < row)) gBadBlock

/-! ### Managing sequences (R334–R339) -/

/-- OPEN (R334). -/
def gOpen (j : Job) (b : List Byte) : GM Nat := do
  let w := leAt b 8 4
  let p := (← get).gPool (w % 4)
  gCheck (decide (256 ≤ w) || !p.ok || decide (field w 2 3 < field w 5 3)) gBadBlock
  gCheck j.tag.isSome gProvState
  let i ← gFreeIndex j
  gPutSeq j i { owner := j.ctx, gen := j.gen, pool := w % 4, valid := true, ways := field w 2 3 + 1, index := field w 5 3 }
  pure i

/-- Close a sequence: its local pages are released in descending order and the descriptor is cleared (R334). -/
def gCloseSeq (j : Job) (i : Nat) (s : GSeq) : GM Unit := do
  let p := (← get).gPool s.pool
  for k in (List.range s.pages).reverse do
    let f ← gFrame j i k
    gRelease j p f
  gPutSeq j i {}

/-- CLOSE (R334). -/
def gClose (j : Job) (b : List Byte) : GM Nat := do
  let i := leAt b 2 2
  let s ← gOwned j i
  gCheck j.tag.isSome gProvState
  gCloseSeq j i s
  pure 0

/-- FLUSH (R336). -/
def gFlushJob (j : Job) (b : List Byte) : GM Nat := do
  let i := leAt b 2 2
  let s ← gOwned j i
  gCheck j.tag.isSome gProvState
  if s.rowsC = 16 ∧ s.rowsP = 0 then
    let _ ← gFlush j ((← get).gPool s.pool) i s
  pure 0

/-- Copy the first `n` rows of a page from slices at `src` to a staging buffer, store by store. -/
def gCopyRows (j : Job) (p : GPool) (src dst n : Nat) : GM Unit := do
  for s in List.range p.stores do
    for part in p.parts do
      for r in List.range n do
        let row ← gRead j false (src + s * p.slice + part.data + r * part.w * fmtBits p.fmt / 8) (part.w * fmtBits p.fmt / 8)
        gWrite j (dst + s * p.slice + part.data + r * part.w * fmtBits p.fmt / 8) row
        if p.mx then
          let sc ← gRead j false (src + s * p.slice + part.scale + r * part.w / 32) (part.w / 32)
          gWrite j (dst + s * p.slice + part.scale + r * part.w / 32) sc

/-- Global page of local page `k` (R327). -/
def GSeq.global (s : GSeq) (k : Nat) : Nat := k * s.ways + s.index

/-- FORK (R338). -/
def gFork (j : Job) (b : List Byte) : GM Nat := do
  let i := leAt b 2 2
  let l := leAt b 8 4
  let s ← gOwned j i
  gCheck (decide (s.lenC < l)) gBadBlock
  gCheck j.tag.isSome gProvState
  let p := (← get).gPool s.pool
  let c ← gFreeIndex j
  let shared := (List.range s.pages).filter fun k => decide (16 * (s.global k + 1) ≤ l)
  let mut frames : List Nat := []
  for k in shared do
    let f ← gFrame j i k
    let rc ← gRead j true (p.rc + 2 * f) 2
    gCheck (leNat rc == 65535) gRefcount
    frames := frames ++ [f]
  for x in frames.zip (List.range frames.length) do
    let rc ← gRead j true (p.rc + 2 * x.1) 2
    gWrite j (p.rc + 2 * x.1) (leBytes 2 (leNat rc + 1))
    gWrite j ((← get).gPteAddr c x.2) (leBytes 4 (x.1 + 2 ^ 22))
  -- the next local page, from its frame or from staging
  let k := frames.length
  let first := 16 * s.global k
  let rows := min 16 (l - first)
  if rows ≠ 0 then
    let d ← get
    if k < s.pages then
      let f ← gFrame j i k
      gCopyRows j p (p.frameSlice f 0) (d.gStage c) rows
    else gCopyRows j p (d.gStage i) (d.gStage c) rows
    modify fun d => d.bumpFor j.tag R.GRAN_COW
  gPutSeq j c { lenC := l, lenP := l, owner := s.owner, gen := s.gen, pool := s.pool, valid := true, ways := s.ways, index := s.index,
                pages := k, rowsC := rows }
  pure c

/-- TRIM (R339). -/
def gTrim (j : Job) (b : List Byte) : GM Nat := do
  let i := leAt b 2 2
  let l := leAt b 8 4
  let s ← gOwned j i
  gCheck (decide (s.lenC < l)) gBadBlock
  gCheck j.tag.isSome gProvState
  let p := (← get).gPool s.pool
  let kept := (List.range s.pages).filter fun k => decide (16 * s.global k < l)
  for k in ((List.range s.pages).drop kept.length).reverse do
    let f ← gFrame j i k
    gRelease j p f
  let last := kept.length - 1
  let cut := kept.length != 0 && decide (l < 16 * (s.global last + 1))
  if cut then
    let f ← gFrame j i last
    let rows := l - 16 * s.global last
    gCopyRows j p (p.frameSlice f 0) ((← get).gStage i) rows
    gRelease j p f
    modify fun d => d.bumpFor j.tag R.GRAN_COW
    gPutSeq j i { s with lenC := l, lenP := l, pages := last, rowsC := rows, rowsP := 0, sched := 0, mark := 0 }
  else
    let rows := if kept.length < s.pages then 0 else min s.rowsC (l - 16 * s.global s.pages)
    gPutSeq j i { s with lenC := l, lenP := l, pages := kept.length, rowsC := rows, rowsP := 0, sched := 0, mark := 0 }
  pure 0

/-- A row of BF16 or FP32 values. -/
def floatRow (fp32In : Bool) (n : Nat) (b : List Byte) : List FVal :=
  (List.range n).map fun c => if fp32In then Fp.val (leAt b (4 * c) 4) else decode bf16 (leAt b (2 * c) 2)

/-- APPEND (R335–R337). -/
def gAppend (j : Job) (b : List Byte) : GM Nat := do
  let i := leAt b 2 2
  let pos := leAt b 8 4
  let t := leAt b 12 4
  let s ← gOwned j i
  let p := (← get).gPool s.pool
  let f32 := (leAt b 1 1).testBit 4
  let width := p.hd * p.heads * p.parts.length
  let s0 := leAt b 16 2
  let cnt := if leAt b 20 4 = 0 then p.stores - s0 else leAt b 20 4
  gCheck (t == 0 || decide (16 < t) || decide (16 < pos % 16 + t) || decide (p.stores < s0 + cnt) || cnt == 0) gBadBlock
  gPitch b 40 (width * if f32 then 4 else 2)
  gCheck (match j.tag with
    | some g => s.hasProv && (s.sched != g.sched || s.mark != g.mark)
    | none => s.hasProv) gProvState
  gCheck (pos != s.lenP) gPosMismatch
  gCheck (decide (131072 < pos + t)) gLength
  let g := pos / 16
  let isLocal := g % s.ways == s.index
  let adv := fun (s : GSeq) (rows : Nat) => match j.tag with
    | some x => { s with lenP := s.lenP + t, rowsP := s.rowsP + rows, sched := x.sched, mark := x.mark }
    | none => { s with lenP := s.lenP + t, lenC := s.lenC + t, rowsC := s.rowsC + rows }
  if !isLocal then gPutSeq j i (adv s 0)
  else
    let s ← if s.rowsC = 16 ∧ s.pages = g / s.ways - 1 ∧ g / s.ways ≠ 0 then
        (do
          gCheck (j.tag.isSome || s.rowsP != 0) gStageFull
          gFlush j p i s)
      else pure s
    gCheck (decide (16 < s.rowsC + s.rowsP + t)) gStageFull
    let stage := (← get).gStage i
    for st in (List.range cnt).map (· + s0) do
      for k in List.range t do
        let raw ← gJobRead j (leAt b 32 8 + st * leAt b 44 4 + k * leAt b 40 4) (width * if f32 then 4 else 2)
        let vs := floatRow f32 width raw
        for part in p.parts.zip (List.range p.parts.length) do
          gPutRow j p (stage + st * p.slice) part.1 (pos % 16 + k) ((vs.drop (part.2 * part.1.w)).take part.1.w)
    gPutSeq j i (adv s t)
  pure 0

/-! ### Attention (R341–R346) -/

/-- e^x rounded once (R344). -/
def expF (a : Nat) : Nat :=
  match Fp.val a with
  | .nan => 0x7FC00000
  | .inf neg => if neg then 0 else 0x7F800000
  | .fin x =>
    if x.man = 0 then 0x3F800000
    else if (lg x.man : Int) + x.exp > 12 then (if x.neg then 0 else 0x7F800000)
    else
      let v := toFx x
      let n := v / ln2Fx
      rnd (.fin { ofFx (expFx (v - n * ln2Fx)) with exp := -(P : Int) - 1 + n })

/-- Round an exact score, beyond the range to the largest finite (R342). -/
def rndSat (v : FVal) : Nat :=
  match v with
  | .fin _ =>
    let r := rnd v
    if isInf r then r - 1 else r
  | _ => rnd v

/-- NEG_EMPTY (R345). -/
def negEmpty : Nat := 0xFF7FFFFF

/-- The bias bucket of a signed distance (R343). -/
def biasBucket (x : Int) : Nat :=
  let a := x.natAbs
  let b0 := if a < 16 then a else 12 + lg a
  if 0 ≤ x then b0 else 32 + b0

/-- Exact sum of products of values. -/
def dotV (a b : List FVal) : FVal := (a.zip b).foldl (fun s x => addV s (mulV x.1 x.2)) (.fin ⟨false, 0, 0⟩)

/-- What ATTEND and BWD share: the range, the mask, and the tiles. -/
structure AttJob where
  seq : Nat
  s : GSeq
  p : GPool
  lo : Nat
  hi : Nat
  store : Nat
  nq : Nat
  mask : Nat
  window : Nat
  scale : Nat
  f32In : Bool
  ob : Nat
  info : Nat
  bias : Option (List Byte)
deriving DecidableEq, Repr

/-- The visible length of a sequence for a job (R341). -/
def GSeq.visible (s : GSeq) (j : Job) : Nat :=
  match j.tag with
  | some t => if s.hasProv && s.sched == t.sched then s.lenP else s.lenC
  | none => s.lenC

/-- The checks of ATTEND, BWD and EXPAND on their range and store (R331, R341). -/
def gRange (j : Job) (b : List Byte) : GM (Nat × GSeq × GPool × Nat × Nat × Nat) := do
  let i := leAt b 2 2
  let s ← gOwned j i
  let p := (← get).gPool s.pool
  gCheck (match j.tag with
    | some t => s.hasProv && s.sched == t.sched && s.mark != t.mark
    | none => false) gProvState
  let vis := s.visible j
  let hi := if leAt b 12 4 = 0 then vis else leAt b 12 4
  let lo := leAt b 8 4
  gCheck (decide (vis < hi) || decide (hi < lo) || decide (p.stores ≤ leAt b 16 2)) gBadBlock
  pure (i, s, p, lo, hi, leAt b 16 2)

/-- The shared part of ATTEND and BWD. -/
def gAtt (j : Job) (b : List Byte) : GM AttJob := do
  let (i, s, p, lo, hi, st) ← gRange j b
  let nq := leAt b 18 2
  let fl := leAt b 1 1
  let f32 := fl.testBit 4
  gCheck (nq == 0 || decide (256 < nq)) gBadBlock
  gCheck (fl % 4 == 2 && (leAt b 24 4 == 0 || decide (131072 < leAt b 24 4))) gBadBlock
  gCheck (leAt b 48 8 == 0 && (p.bias.isSome || p.compat || fl % 4 != 0)) gBadBlock
  gPitch b 40 (p.hd * if f32 then 4 else 2)
  let bias ← match p.bias with
    | some a => do
      let t ← gRead j false (a + 256 * st) 256
      pure (some t)
    | none => pure none
  pure { seq := i, s := s, p := p, lo := lo, hi := hi, store := st, nq := nq, mask := fl % 4, window := leAt b 24 4, scale := leAt b 20 4,
         f32In := f32, ob := if fl.testBit 3 then 4 else 2, info := leAt b 48 8, bias := bias }

/-- The local pages of a sequence that meet the range, with the slice that serves them (R344). -/
def gBlocks (j : Job) (a : AttJob) : GM (List (Nat × Nat)) := do
  let n := a.s.pages + (if a.s.rowsC + a.s.rowsP = 0 then 0 else 1)
  let ks := (List.range n).filter fun k => decide (a.lo < 16 * (a.s.global k + 1)) && decide (16 * a.s.global k < a.hi)
  ks.mapM fun k => do
    if k < a.s.pages then
      let f ← gFrame j a.seq k
      pure (a.s.global k, a.p.frameSlice f a.store)
    else pure (a.s.global k, (← get).gStage a.seq + a.store * a.p.slice)

/-- A query row's position and key-value head (R331). -/
def gInfo (j : Job) (a : AttJob) (r : Nat) : GM (Nat × Nat) := do
  if a.info = 0 then pure (0, 0)
  else
    let b ← gJobRead j (a.info + 4 * r) 4
    let w := leNat b
    gCheck (decide (2 ^ 22 ≤ w) || (a.p.compat && decide (a.p.heads ≤ field w 17 5))) gBadBlock
    pure (w % 2 ^ 17, field w 17 5)

/-- Whether a key is masked for a row (R341). -/
def AttJob.masked (a : AttJob) (pos key : Nat) : Bool :=
  match a.mask with
  | 1 => decide (pos < key)
  | 2 => decide (pos < key) || decide (key + a.window ≤ pos)
  | _ => false

/-- Whether every value is finite. -/
def finV (l : List FVal) : Bool := l.all fun v => match v with
  | .fin _ => true
  | _ => false

/-- The score of a key for a row (R342, R343); none when it takes an infinite or NaN element
(log 39). -/
def AttJob.score (a : AttJob) (q k : List FVal) (pos key : Nat) : Option Nat :=
  let bias := a.bias.map fun t => leAt t (4 * biasBucket ((pos : Int) - key)) 4
  if !finV q || !finV k || !isFinite a.scale || !(bias.map isFinite).getD true then none
  else
    let s := rndSat (dotV q k)
    let s := rndSat (mulV (Fp.val s) (Fp.val a.scale))
    match bias with
    | some v => some (rndSat (addV (Fp.val s) (Fp.val v)))
    | none => some s

/-- Key and value of token `t` of a slice for a key-value head (R341). -/
def gKeyValue (j : Job) (a : AttJob) (slice t kh : Nat) : GM (List FVal × List FVal) := do
  match a.p.parts with
  | [lat] =>
    let r ← gRow j a.p slice lat t
    pure (r, r)
  | k :: v :: _ =>
    let kr ← gRow j a.p slice k t
    let vr ← gRow j a.p slice v t
    pure ((kr.drop (kh * a.p.hd)).take a.p.hd, (vr.drop (kh * a.p.hd)).take a.p.hd)
  | [] => pure ([], [])

/-- A running row of attention (R344). -/
structure AttRow where
  m : Nat := negEmpty
  l : Nat := 0
  o : List Nat
  keys : Nat := 0
  nan : Bool := false
deriving DecidableEq, Repr

/-- One key block folded into a row: the unmasked scores with their values (R344). -/
def AttRow.block (r : AttRow) (xs : List (Nat × List FVal)) : AttRow :=
  match xs with
  | [] => r
  | x :: rest =>
    let b := rest.foldl (fun m y => if Fp.lt m y.1 then y.1 else m) x.1
    let up := Fp.lt r.m b
    let a := expF (Fp.sub r.m b)
    let m := if up then b else r.m
    let o := if up then r.o.map fun v => Fp.mul a v else r.o
    let l := if up then Fp.mul a r.l else r.l
    let ps := xs.map fun y => (expF (Fp.sub y.1 m), y.2)
    let sum := fun (l : List FVal) => l.foldl addV (.fin ⟨false, 0, 0⟩)
    let l := rnd (addV (Fp.val l) (sum (ps.map fun y => Fp.val y.1)))
    let o := (o.zip (List.range o.length)).map fun c =>
      rnd (addV (Fp.val c.1) (sum (ps.map fun y => mulV (Fp.val y.1) (y.2.getD c.2 .nan))))
    { r with m := m, l := l, o := o, keys := r.keys + xs.length }

/-- Count and report a key left out (R342). -/
def gNanKey (j : Job) (seq row : Nat) : GM Unit :=
  modify fun d => (d.bumpFor j.tag R.GRAN_NAN_KEYS).granEvent j.tag 0x0703 j.lane j.ctx j.gen j.addr j.kind 0 seq row

/-- A row of FP32 results as BF16 or FP32 bytes. -/
def outRow (ob : Nat) (l : List Nat) : List Byte :=
  l.flatMap fun v => if ob = 4 then leBytes 4 v else leBytes 2 (encode bf16 .rne false (Fp.val v)).1

/-- No attention result is a NaN: where the arithmetic of R344 or R347 gives one, the result is a free value that is none
(log 29). -/
def gNoNan (v : Nat) : GM Nat := do
  if isNan v then
    let (n, d) := (← get).fresh
    set d
    let w := n % 2 ^ 32
    pure (if isNan w then w / 2 ^ 23 * 2 ^ 23 else w)
  else pure v

/-- Write a finished row and its stats (R344–R346); an empty row is counted. -/
def gPutOut (j : Job) (b : List Byte) (isPartial : Bool) (ob row m l keys nanF : Nat) (o : List Nat) : GM Unit := do
  let empty := l % 0x80000000 == 0
  let vals ← (if empty then o.map fun _ => 0 else if isPartial then o else o.map fun v => Fp.div v l).mapM gNoNan
  gJobWrite j (leAt b 56 8 + row * leAt b 64 4) (outRow (if isPartial then 4 else ob) vals)
  gJobWrite j (leAt b 72 8 + 16 * row)
    (if empty then leBytes 4 negEmpty ++ leBytes 4 0 ++ leBytes 4 0 ++ leBytes 4 (1 + 2 * nanF)
     else leBytes 4 m ++ leBytes 4 l ++ leBytes 4 keys ++ leBytes 4 (2 * nanF))
  if empty then modify fun d => d.bumpFor j.tag R.GRAN_EMPTY_ROWS

/-- ATTEND (R341–R346). -/
def gAttend (j : Job) (b : List Byte) : GM Nat := do
  let a ← gAtt j b
  let isPartial := (leAt b 1 1).testBit 2
  gPitch b 64 (a.p.hd * if isPartial then 4 else a.ob)
  let blocks ← gBlocks j a
  for r in List.range a.nq do
    let (pos, kh) ← gInfo j a r
    let qb ← gJobRead j (leAt b 32 8 + r * leAt b 40 4) (a.p.hd * if a.f32In then 4 else 2)
    let q := floatRow a.f32In a.p.hd qb
    let mut row : AttRow := { o := List.replicate a.p.hd 0 }
    for bl in blocks do
      let mut xs : List (Nat × List FVal) := []
      for t in List.range 16 do
        let key := 16 * bl.1 + t
        if a.lo ≤ key ∧ key < a.hi ∧ !a.masked pos key then
          let (k, v) ← gKeyValue j a bl.2 t kh
          match a.score q k pos key with
          | some s => xs := xs ++ [(s, v)]
          | none =>
            row := { row with nan := true }
            gNanKey j a.seq r
      row := row.block xs
    gPutOut j b isPartial a.ob r row.m row.l row.keys (b2n row.nan) row.o
  pure 0

/-- BWD (R350). A score that it leaves out counts like one of ATTEND (R342, log 104). -/
def gBwd (j : Job) (b : List Byte) : GM Nat := do
  let a ← gAtt j b
  let cols := a.hi - a.lo
  let inB := if a.f32In then 4 else 2
  gCheck (decide (4096 < cols)) gBadBlock
  gPitch b 64 (cols * a.ob)
  gPitch b 112 (cols * a.ob)
  gPitch b 88 (a.p.hd * inB)
  let blocks ← gBlocks j a
  for r in List.range a.nq do
    let (pos, kh) ← gInfo j a r
    let qb ← gJobRead j (leAt b 32 8 + r * leAt b 40 4) (a.p.hd * inB)
    let eb ← gJobRead j (leAt b 80 8 + r * leAt b 88 4) (a.p.hd * inB)
    let st ← gJobRead j (leAt b 72 8 + 16 * r) 16
    let dv ← gJobRead j (leAt b 96 8 + 4 * r) 4
    let q := floatRow a.f32In a.p.hd qb
    let dO := floatRow a.f32In a.p.hd eb
    let m := leAt st 0 4
    let l := leAt st 4 4
    let mut ps : List (Nat × Nat) := []
    for c in List.range cols do
      let key := a.lo + c
      match blocks.find? fun x => x.1 == key / 16 with
      | none => ps := ps ++ [(0, 0)]
      | some bl =>
        if a.masked pos key || l % 0x80000000 == 0 then ps := ps ++ [(0, 0)]
        else
          let (k, v) ← gKeyValue j a bl.2 (key % 16) kh
          match a.score q k pos key with
          | none =>
            gNanKey j a.seq r
            ps := ps ++ [(0, 0)]
          | some s =>
            let p := Fp.div (expF (Fp.sub s m)) l
            let dp := rnd (dotV dO v)
            ps := ps ++ [(p, Fp.mul p (Fp.sub dp (leNat dv)))]
    gJobWrite j (leAt b 56 8 + r * leAt b 64 4) (outRow a.ob (ps.map (·.1)))
    gJobWrite j (leAt b 104 8 + r * leAt b 112 4) (outRow a.ob (ps.map (·.2)))
  pure 0

/-- MERGE (R347); the row width is the pitch of the records (log 65). -/
def gMerge (j : Job) (b : List Byte) : GM Nat := do
  let n := leAt b 20 4
  let nq := leAt b 18 2
  let fl := leAt b 1 1
  let isPartial := fl.testBit 2
  let ob := if fl.testBit 3 then 4 else 2
  let pitch := leAt b 40 4
  gCheck (decide (n < 2) || decide (16 < n) || nq == 0 || decide (256 < nq) || pitch % 64 != 0 || pitch == 0) gBadBlock
  let w := pitch / 4
  gPitch b 64 (w * if isPartial then 4 else ob)
  let mut recs : List (Nat × Nat) := []
  for i in List.range n do
    let e ← gJobRead j (leAt b 32 8 + 16 * i) 16
    recs := recs ++ [(leAt e 0 8, leAt e 8 8)]
  for r in List.range nq do
    let mut acc : Option AttRow := none
    for x in recs do
      let ob' ← gJobRead j (x.1 + r * pitch) (4 * w)
      let st ← gJobRead j (x.2 + 16 * r) 16
      let o := (List.range w).map fun c => leAt ob' (4 * c) 4
      let cur : AttRow := { m := leAt st 0 4, l := leAt st 4 4, o := o, keys := leAt st 8 4, nan := (leAt st 12 4).testBit 1 }
      acc := some (match acc with
        | none => cur
        | some y =>
          let mm := rnd (maxV (Fp.val y.m) (Fp.val cur.m))
          let a := expF (Fp.sub y.m mm)
          let c := expF (Fp.sub cur.m mm)
          { m := mm, l := Fp.add (Fp.mul a y.l) (Fp.mul c cur.l),
            o := (y.o.zip cur.o).map fun z => Fp.add (Fp.mul a z.1) (Fp.mul c z.2), keys := y.keys + cur.keys, nan := y.nan || cur.nan })
    match acc with
    | none => pure ()
    | some y => gPutOut j b isPartial ob r y.m y.l y.keys (b2n y.nan) y.o
  pure 0

/-- EXPAND (R349); the head of a COMPAT pool is a free value, since the block names none (log 65). -/
def gExpand (j : Job) (b : List Byte) : GM Nat := do
  let (i, s, p, lo, hi, st) ← gRange j b
  gCheck j.tag.isSome gProvState
  let fl := leAt b 1 1
  let ob := if fl.testBit 3 then 4 else 2
  let up := !p.compat && leAt b 32 8 != 0
  let dOut := leAt b 92 4
  gCheck (decide (4096 < hi - lo)) gBadBlock
  gCheck (if up then decide (dOut < 32) || decide (256 < dOut) || dOut % 32 != 0 else dOut != 0 || leAt b 32 8 != 0 && !p.compat) gBadBlock
  gPitch b 64 ((if up then dOut else p.hd) * ob)
  if up then gPitch b 40 (dOut * 2)
  let (kh, d) := (← get).fresh
  let head := if p.compat then kh % p.heads else 0
  if p.compat then set d
  let a : AttJob := { seq := i, s := s, p := p, lo := lo, hi := hi, store := st, nq := 0, mask := 0, window := 0, scale := 0, f32In := false,
                      ob := ob, info := 0, bias := none }
  let mat ← if up then (List.range p.hd).mapM fun c => do
      let m ← gJobRead j (leAt b 32 8 + c * leAt b 40 4) (2 * dOut)
      pure (floatRow false dOut m)
    else pure []
  let blocks ← gBlocks j a
  let mut row := 0
  for bl in blocks do
    for t in List.range 16 do
      let key := 16 * bl.1 + t
      if lo ≤ key ∧ key < hi then
        let (k, v) ← gKeyValue j a bl.2 t head
        let src := if fl.testBit 5 then v else k
        let vals := if up then (List.range dOut).map fun c => dotV src (mat.map fun m => m.getD c .nan) else src
        let bytes := vals.flatMap fun x => if ob = 4 then leBytes 4 (rnd x) else leBytes 2 (encode bf16 .rne false x).1
        gJobWrite j (leAt b 56 8 + row * leAt b 64 4) bytes
        row := row + 1
  pure 0

/-! ### Running and ending jobs (R330–R333, R353, R354) -/

/-- Acceptance by the Granary (R332): the status word is zeroed; the sequence that the block names is noted for R333. -/
def Dev.granAccept (d : Dev) (j : Job) : Dev :=
  let prog : GM (List Byte) := do
    gJobWrite j (j.addr + 4) (leBytes 4 0)
    gJobRead j j.addr 4
  match prog.run.run d with
  | (.error c, d) => d.jobRan j c [0, 0x10000]
  | (.ok b, d) =>
    let seq := if leAt b 0 1 = 1 ∨ leAt b 0 1 = 9 then 0x10000 else leAt b 2 2
    let d := d.updJob j.id fun x => { x with notes := [0, seq] }
    if !gKnown j.kind then d.jobRan j gBadBlock [0, 0x10000] else d

/-- The sequences that a job names (R333): that of its block, and the child of a FORK, which is the one that it has opened, or the lowest free one
before it runs. -/
def Dev.granNames (d : Dev) (j : Job) : List Nat :=
  let seq := j.notes.getD 1 0x10000
  let child := if j.kind ≠ 3 then [] else if j.ran then (if j.result = 0 then [j.notes.getD 0 0] else []) else
    match ((gFreeIndex j).run.run d).1 with
    | .ok i => [i]
    | .error _ => []
  (if seq = 0x10000 then [] else [seq]) ++ child

/-- Whether an earlier-accepted job that names the same sequence has not ended (R333). -/
def Dev.granWaits (d : Dev) (j : Job) : Bool :=
  let mine := d.granNames j
  ((d.engJobs 3).takeWhile fun x => x.id != j.id).any fun x => x.accepted && (d.granNames x).any mine.contains

/-- The kinds that allocate or release frames or change refcounts. -/
def gFrameKind (kind : Nat) : Bool := decide (2 ≤ kind) && decide (kind ≤ 6)

/-- A higher lane has changed frames in this F clock: changes of one clock are applied in ascending lane order (R333), so that this lane's wait. -/
def Dev.granLate (d : Dev) (lane kind : Nat) : Bool :=
  gFrameKind kind && (match d.gran.lastFrames with
    | some (c, l) => c == d.fclk && decide (lane < l)
    | none => false)

/-- Run the job at the head of a lane, when it is of this kind. A refused job changes nothing (R332). -/
def Dev.granRun (d : Dev) (lane kind : Nat) (work : Job → List Byte → GM Nat) : Dev :=
  match d.headToRun 3 lane with
  | none => d
  | some j =>
    if j.kind ≠ kind || d.flag F.GRAN_STATUS_recovering || d.granWaits j || d.granLate lane kind then d
    else
      let seq := j.notes.getD 1 0
      if d.flag F.GRAN_STATUS_table_bad && kind != 8 && kind != 0xA && kind != 0xB then d.jobRan j gEcc [0, seq]
      else
        let prog : GM Nat := do
          let b ← gJobRead j j.addr 128
          gCheck (gBlockBad kind j.addr b) gBadBlock
          work j b
        let d := if gFrameKind kind then { d with gran := { d.gran with lastFrames := some (d.fclk, lane) } } else d
        let (r, d') := prog.run.run d
        match r with
        | .ok i => d'.jobRan j 0 [i, seq]
        | .error c => if gRefused c then d.jobRan j c [0, seq] else d'.jobRan j c [0, seq]

/-- OPEN (R334). -/
def execGranOpen (lane : BitVec 2) (s : State) : Host.Outcome State Fault Refusal := s.withDev fun d => d.granRun lane.toNat 1 gOpen
/-- CLOSE (R334). -/
def execGranClose (lane : BitVec 2) (s : State) : Host.Outcome State Fault Refusal := s.withDev fun d => d.granRun lane.toNat 2 gClose
/-- FORK (R338). -/
def execGranFork (lane : BitVec 2) (s : State) : Host.Outcome State Fault Refusal := s.withDev fun d => d.granRun lane.toNat 3 gFork
/-- TRIM (R339). -/
def execGranTrim (lane : BitVec 2) (s : State) : Host.Outcome State Fault Refusal := s.withDev fun d => d.granRun lane.toNat 4 gTrim
/-- APPEND (R335–R337). -/
def execGranAppend (lane : BitVec 2) (s : State) : Host.Outcome State Fault Refusal := s.withDev fun d => d.granRun lane.toNat 5 gAppend
/-- FLUSH (R336). -/
def execGranFlush (lane : BitVec 2) (s : State) : Host.Outcome State Fault Refusal := s.withDev fun d => d.granRun lane.toNat 6 gFlushJob
/-- ATTEND (R341–R346). -/
def execAttend (lane : BitVec 2) (s : State) : Host.Outcome State Fault Refusal := s.withDev fun d => d.granRun lane.toNat 8 gAttend
/-- MERGE (R347). -/
def execMerge (lane : BitVec 2) (s : State) : Host.Outcome State Fault Refusal := s.withDev fun d => d.granRun lane.toNat 9 gMerge
/-- EXPAND (R349). -/
def execExpand (lane : BitVec 2) (s : State) : Host.Outcome State Fault Refusal := s.withDev fun d => d.granRun lane.toNat 0xA gExpand
/-- BWD (R350). -/
def execBwd (lane : BitVec 2) (s : State) : Host.Outcome State Fault Refusal := s.withDev fun d => d.granRun lane.toNat 0xB gBwd

/-- GRAN_JOB_END (R332): the status word is written and the job leaves its lane. -/
def execGranJobEnd (lane : BitVec 2) (s : State) : Host.Outcome State Fault Refusal :=
  s.withDev fun d =>
    match d.headRan 3 lane.toNat with
    | none => d
    | some j =>
      let c := j.result
      let bits := if c = 0 then 0x100 else if c = gSquashed then 0x800 else if gRefused c then 0x200 else 0x400
      let (d, _) := d.jobWrite j (j.addr + 4) (leBytes 4 (c + bits + j.notes.getD 0 0 % 4096 * 65536))
      let d := d.bumpFor j.tag R.GRAN_JOBS
      let d := if c = 0 ∨ c = gSquashed then d
        else if gRefused c then (d.bumpFor j.tag R.GRAN_REFUSED).granNote j 0x0702 c
        else (d.bumpFor j.tag R.GRAN_ERRORS).granNote j 0x0701 c
      let d := (d.setF F.GRAN_LAST_JOB_address j.addr).setReg R.GRAN_LAST_END (BitVec.ofNat 64 (j.kind % 256 + c * 256))
      d.endJob j

/-- A Granary job that is still held when its window ends (R352). -/
def Dev.granOverrun (d : Dev) (j : Job) : Dev :=
  (d.bumpFor j.tag R.GRAN_OVERRUN).granNote j 0x0704 0

/-! ### Commit, squash, fences, recovery, initialisation (R328, R337, R353, R355) -/

/-- A job of the Granary's own. -/
def granSelf (ctx gen : Nat) : Job :=
  { id := 0, engine := 3, lane := 0, kind := 0, plough := 0, ctx := ctx, gen := gen, addr := 0, dd := 0, dd2 := 0, tag := none, issue := 0,
    winEnd := 0, accepted := true, acceptAt := 0, ran := false, result := 0, hold := 0, overrun := false, notes := [] }

/-- Run the Granary's own work, leaving out what it answers. -/
def Dev.granDo (d : Dev) (g : GM Unit) : Dev := (g.run.run d).2

/-- Run the Granary's own work on every sequence in ascending index; one that fails leaves the others. -/
def Dev.granEach (d : Dev) (f : Nat → GM Unit) : Dev := iter (d.getF F.GRAN_STAGE_CFG_count) d fun i d => d.granDo (f i)

/-- SQUASH of the provisional rows of a sequence (R337). -/
def GSeq.squash (s : GSeq) : GSeq := { s with lenP := s.lenC, rowsP := 0, sched := 0, mark := 0 }

/-- The accepted provisional jobs that a test names end SQUASHED (R337). -/
def Dev.granSquashJobs (d : Dev) (p : PTag → Bool) : Dev :=
  ((d.engJobs 3).filter fun j => j.accepted && (j.tag.map p).getD false).foldl (fun d j =>
    (d.bump R.GRAN_SQUASHED).updJob j.id fun x => { x with ran := true, result := gSquashed }) d

/-- COMMIT or SQUASH of a mark on every staging buffer tagged with it; its provisional jobs end SQUASHED (R337). -/
def Dev.granResolve (d : Dev) (t : PTag) (commit : Bool) : Dev :=
  let d := d.granEach fun i => do
    let s ← gSeq (granSelf 0 0) i
    if s.valid && s.hasProv && s.sched == t.sched && s.mark == t.mark then
      gPutSeq (granSelf 0 0) i (if commit then { s with rowsC := s.rowsC + s.rowsP, lenC := s.lenP, rowsP := 0, sched := 0, mark := 0 } else s.squash)
  d.granSquashJobs (· == t)

/-- Close every sequence that a context owns, in ascending index (R353). -/
def Dev.granCloseAll (d : Dev) (ctx gen : Nat) : Dev :=
  d.granEach fun i => do
    let s ← gSeq (granSelf ctx gen) i
    if s.valid && s.owner == ctx && s.gen == gen then gCloseSeq (granSelf ctx gen) i s

/-- The Granary's running jobs (R333, R357): the head of each lane, once it no longer waits for another. -/
def Dev.granRunning (d : Dev) (lane : Nat) : Option Job := (d.laneJobs 3 lane).head?.filter fun j => j.ran || !d.granWaits j

/-- A recovery closes the sequences that the running jobs named, and raises SEQ_LOST for each with its owner (R355, R356). -/
def Dev.granLose (d : Dev) (lost : List (Nat × Job)) : Dev :=
  lost.foldl (fun d x => d.granDo (do
    let s ← gSeq (granSelf 0 0) x.1
    if s.valid then
      gPutSeq (granSelf 0 0) x.1 {}
      modify fun d =>
        let (m, d) := d.granMark x.2
        d.granEvent none 0x0706 x.2.lane s.owner s.gen x.2.addr x.2.kind 0 x.1 m)) d

/-- The rebuild of a Granary recovery (R355): lost sequences are closed, provisional rows discarded, refcounts, free stacks and
charges recomputed from the page tables. -/
def Dev.granRebuild (d : Dev) (lost : List (Nat × Job)) : Dev :=
  let d := d.setB F.GRAN_STATUS_table_bad false
  let d := ({ d with gran := {} } : Dev).granLose lost
  let d := d.granEach fun i => do
    let s ← gSeq (granSelf 0 0) i
    if s.valid then gPutSeq (granSelf 0 0) i s.squash
  d.granDo (do
    let n := (← get).getF F.GRAN_STAGE_CFG_count
    let j := granSelf 0 0
    for p in List.range 4 do
      let pool := (← get).gPool p
      let frames := (← get).getF (F.GRAN_POOL_FRAMES_frames p)
      if pool.ok then
        gWrite j pool.rc (List.replicate (2 * frames) 0)
        for i in List.range n do
          let s ← gSeq j i
          if s.valid && s.pool == p then
            for k in List.range s.pages do
              let b ← gRead j true ((← get).gPteAddr i k) 4
              let f := leNat b % 2 ^ 22
              let rc ← gRead j true (pool.rc + 2 * f) 2
              gWrite j (pool.rc + 2 * f) (leBytes 2 (leNat rc + 1))
              modify fun d => d.gCharge p f (s.owner + 1)
        let mut top := 0
        for f in (List.range frames).reverse do
          let rc ← gRead j true (pool.rc + 2 * f) 2
          if leNat rc = 0 then
            gWrite j (pool.stack + 4 * top) (leBytes 4 f)
            top := top + 1
        modify fun d => d.setF (F.GRAN_POOL_FREE_free p) top)

/-- GRAN_INIT (R328): a write of GRAN_CTL.init = 1 clears the descriptors and refcounts and fills the free stacks; it is
discarded while the plan is locked or an initialisation runs (R357). -/
def Dev.granInitStart (d : Dev) : Dev :=
  if d.locked || d.flag F.GRAN_STATUS_init_busy then d
  else
    let d := (d.setB F.GRAN_STATUS_init_busy true).setB F.GRAN_STATUS_ready false
    let d := { d with gran := {} }
    d.granDo (do
      let d ← get
      let j := granSelf 0 0
      gWrite j (d.gSeqAddr 0) (List.replicate (64 * d.getF F.GRAN_STAGE_CFG_count) 0)
      for p in List.range 4 do
        let pool := d.gPool p
        let frames := d.getF (F.GRAN_POOL_FRAMES_frames p)
        modify fun d => d.setF (F.GRAN_POOL_SLICE_bytes p) pool.slice
        if pool.ok then
          gWrite j pool.rc (List.replicate (2 * frames) 0)
          gWrite j pool.stack ((List.range frames).reverse.flatMap (leBytes 4))
          modify fun d => d.setF (F.GRAN_POOL_FREE_free p) frames)

/-- GRAN_INIT_DONE (R328). -/
def execGranInitDone (s : State) : Host.Outcome State Fault Refusal :=
  s.withDev fun d =>
    if d.flag F.GRAN_STATUS_init_busy then (d.setB F.GRAN_STATUS_init_busy false).setB F.GRAN_STATUS_ready true else d

/-- The fields of GRAN_STATUS (R357). -/
def Dev.granStatus (d : Dev) : Nat :=
  (d.reg R.GRAN_STATUS).toNat / 16 * 16 + (List.range 4).foldl (fun n l => n + b2n (d.granRunning l).isSome * 2 ^ l) 0

end Sys2Proof.Machine
end

