-- ==== Sys2Proof/Machine/Link.lean ====
section
/-! DEFINITION. The Poleino links (spec/17_poleino_links.md R399–R416): flits, ports and training, sends and receives, the
messages that arrive, and the X slot opcodes XSEND, XRECV and XWAIT (R87). -/

namespace Sys2Proof.Machine

/-! ### Port state -/

/-- A port. -/
def Dev.lport (d : Dev) (p : Nat) : LinkPort := SMap.get (fun _ => {}) d.links.ports p
/-- Change a port. -/
def Dev.updLport (d : Dev) (p : Nat) (f : LinkPort → LinkPort) : Dev :=
  { d with links := { d.links with ports := SMap.modify (fun _ => {}) d.links.ports p f } }
/-- The state field of a port: 0 down, 1 training, 2 up, 3 held (R416). -/
def Dev.lstate (d : Dev) (p : Nat) : Nat := d.getF (F.LINK_PORT_STATE_state p)

/-- Set a port's state in LINK_PORT_STATE and LINK_STATUS. -/
def Dev.setLstate (d : Dev) (p st : Nat) : Dev :=
  let d := d.setF (F.LINK_PORT_STATE_state p) st
  let d := d.setF ⟨R.LINK_STATUS, p, 1⟩ (b2n (st == 2))
  let d := d.setF ⟨R.LINK_STATUS, 4 + p, 1⟩ (b2n (st == 1))
  d.setF ⟨R.LINK_STATUS, 8 + p, 1⟩ (b2n (st == 3))

/-- A LINK record (R415): reason in byte 24, lane, peer or state in byte 25, mark in bytes 28 to 31. -/
def Dev.linkEvent (d : Dev) (code p ctx gen b24 b25 mark : Nat) : Dev :=
  d.raise code p ctx gen (dAt 24 1 b24 + dAt 25 1 b25 + dAt 28 4 mark)

/-! ### Flits (R400) -/

/-- One step of the IEEE 802.3 CRC-32 over a bit, reflected. -/
def crcStep (c : Nat) : Nat := if c % 2 = 1 then (c / 2) ^^^ 0xEDB88320 else c / 2

/-- The IEEE 802.3 CRC-32 of bytes. -/
def crc32 (bs : List Byte) : Nat :=
  (bs.foldl (fun c b => iter 8 (c ^^^ b.toNat) fun _ c => crcStep c) 0xFFFFFFFF) ^^^ 0xFFFFFFFF

/-- A data flit of 256 bytes: header, payload, and the payload's unused end, which R400 leaves open (log 70). -/
def flitBytes (kind : Nat) (first last : Bool) (tag : Option PTag) (seq ctx gen mark : Nat) (payload : List Byte) (pad : Nat) : List Byte :=
  let sched := match tag with
    | some t => t.sched % 8
    | none => 0
  let head := leBytes 1 (kind % 8 + 8 * b2n first + 16 * b2n last + 32 * b2n tag.isSome) ++ leBytes 1 (payload.length - 1)
    ++ leBytes 2 (seq % 4096 + 4096 * sched) ++ leBytes 4 (ctx % 4096 + (gen % 2 ^ 20) * 4096) ++ leBytes 4 mark
  let body := payload ++ leBytes (240 - payload.length) pad
  head ++ leBytes 4 (crc32 (head ++ body)) ++ body

/-- Whether a received flit may be used (R401): its CRC holds and its kind is not reserved. -/
def flitUsable (bs : List Byte) : Bool :=
  bs.length == 256 && decide (field (leAt bs 0 1) 0 3 ≤ 4) && leAt bs 12 4 == crc32 (bs.take 12 ++ bs.drop 16)

/-- Send one flit: it takes the next sequence number and a place in the replay buffer of 64 blocks, 2 flits each (R400, R401). -/
def Dev.sendFlit (d : Dev) (p kind : Nat) (first last : Bool) (tag : Option PTag) (ctx gen mark : Nat) (payload : List Byte) : Dev :=
  let seq := (d.lport p).txSeq
  let (pad, d) := d.fresh
  let fl := flitBytes kind first last tag seq ctx gen mark payload pad
  let d := d.updLport p fun l =>
    { l with txSeq := (seq + 1) % 4096, buf := (l.buf ++ [(seq, fl)]).drop (l.buf.length + 1 - 128) }
  d.emit (.link p kind fl)

/-- Payload pieces of 240 bytes; an empty message still has one flit. -/
def flitPieces : Nat → List Byte → List (List Byte)
  | 0, _ => []
  | fuel + 1, bs => if bs.length ≤ 240 then [bs] else bs.take 240 :: flitPieces fuel (bs.drop 240)

/-- Flits of a message of `n` bytes. -/
def flitCount (n : Nat) : Nat := max 1 (ceilDiv n 240)

/-- Blocks of a message of `n` bytes on the wire (R412). -/
def wireBlocks (n : Nat) : Nat :=
  let groups := (n + 479) / 480
  groups + (groups + 62) / 63

/-- The wire time of a message in ns (R412). -/
def wireNs (n : Nat) : Nat := (wireBlocks n * 544 + 55) / 56

/-- NACK_MSG for a message of a context: the reason in the payload's first byte and the sequence number of the message's first
flit in the next two (the layout within the payload is the model's, log 70). -/
def Dev.sendNack (d : Dev) (p ctx gen seq reason : Nat) : Dev :=
  d.sendFlit p 2 true true none ctx gen 0 (leBytes 1 reason ++ leBytes 2 seq)

/-! ### Ends of transfers (R409) -/

/-- Outstanding sends and receives of a plough on a port. -/
def Dev.linkOutstanding (d : Dev) (n p : Nat) : List LinkXfer := d.links.xfers.filter fun x => x.plough == n && x.port == p

/-- Ploughs whose XWAIT is satisfied go on (R87). -/
def Dev.releaseXwait (d : Dev) : Dev :=
  (List.range 16).foldl (fun d n =>
    let done := fun (x : Wait) => match x with
      | .link p lim => decide ((d.linkOutstanding n p).length ≤ lim)
      | _ => false
    if (d.plough n).waits.any done then d.updPlough n fun pl => { pl with waits := pl.waits.filter fun x => !done x } else d) d

/-- The halt on a context's entries on a port of a plough. -/
def Dev.linkHalt (d : Dev) (n p ctx gen : Nat) : Option LinkHalt :=
  d.links.halts.find? fun h => h.plough == n && h.port == p && h.ctx == ctx && h.gen == gen

/-- An entry is halted. -/
def Dev.xferHalted (d : Dev) (x : LinkXfer) : Bool := (d.linkHalt x.plough x.port x.ctx x.gen).isSome

/-- Take a transfer away. -/
def Dev.dropXfer (d : Dev) (id : Nat) : Dev :=
  ({ d with links := { d.links with xfers := d.links.xfers.filter fun x => x.id != id } } : Dev).releaseXwait

/-- A transfer ends with an error: it is counted and halts the context's entries on that port on that plough (R409). -/
def Dev.xferError (d : Dev) (x : LinkXfer) (reason : Nat) : Dev :=
  let d := d.bump (R.LINK_PORT_XFER_ERR x.port)
  let d := if d.xferHalted x then d
    else { d with links := { d.links with halts := d.links.halts ++ [⟨x.plough, x.port, x.ctx, x.gen, reason⟩] } }
  d.dropXfer x.id

/-- The context's next slice on the plough empties its halted entries (R409). -/
def Dev.linkSlice (d : Dev) (n ctx gen : Nat) : Dev :=
  let hs := d.links.halts.filter fun h => h.plough == n && h.ctx == ctx && h.gen == gen
  let dead := fun (x : LinkXfer) => hs.any fun h => h.plough == x.plough && h.port == x.port && h.ctx == x.ctx && h.gen == x.gen
  { d with links := { d.links with
    xfers := d.links.xfers.filter fun x => !dead x
    halts := d.links.halts.filter fun h => !(h.plough == n && h.ctx == ctx && h.gen == gen) } }

/-! ### Ports up and down (R402–R404) -/

/-- An up port goes down: PORT_STATE, every outstanding transfer on it ends with reason 9 (R409), its link state is lost. -/
def Dev.portDown (d : Dev) (p st : Nat) : Dev :=
  let wasUp := d.lstate p == 2
  let d := (d.setLstate p st).updLport p fun l => { want := l.want, carried := l.carried }
  if wasUp then
    let d := d.linkEvent 0x0A01 p 0 0 0 0 0
    let xs := d.links.xfers.filter fun x => x.port == p && x.accepted
    xs.foldl (fun d x => d.xferError x 9) d
  else d

/-- A lane fault, or a replay threshold broken (R401, R402): the port is held down until it is retrained. -/
def Dev.laneFault (d : Dev) (p lane lanesOk : Nat) : Dev :=
  let d := d.linkEvent 0x0A02 p 0 0 0 lane 0
  let d := (d.portDown p 3).setF (F.LINK_PORT_STATE_lane_ok p) lanesOk
  d.updLport p fun l => { l with want := d.flag (F.LINK_PORT_CTL_auto_retrain p) }

/-- A write of LINK_PORT_CTL has been stored (R403, R416): enabling or retrain makes training due, disabling takes the port
down. A retrain write is discarded while the port trains. -/
def Dev.linkCtlWritten (d : Dev) (p : Nat) (oldEnable retrain : Bool) : Dev :=
  let en := d.flag (F.LINK_PORT_CTL_enable p)
  if !en then (d.portDown p 0).updLport p fun l => { l with want := false }
  else if !oldEnable || (retrain && d.lstate p != 1) then d.updLport p fun l => { l with want := true }
  else d

/-- PORT_TRAINING (R403): the training that is due starts; the port's own link state is reset and the attempt is counted. -/
def execPortTraining (port : BitVec 2) (s : State) : Host.Outcome State Fault Refusal :=
  s.withDev fun d =>
    let p := port.toNat
    if (d.lport p).want && d.flag (F.LINK_PORT_CTL_enable p) then
      let d := (d.portDown p 1).setF (F.LINK_PORT_STATE_lane_ok p) 0
      let d := d.bump (R.LINK_PORT_RETRAIN p)
      d.updLport p fun l => { l with want := false }
    else d

/-- The wiring table (R404): the peer device and port of a port. -/
def wiring (topology size dev p : Nat) : Option (Nat × Nat) :=
  if topology = 1 then
    if size < 2 then none
    else match p with
      | 0 => some ((dev + 1) % size, 1)
      | 1 => some ((dev + size - 1) % size, 0)
      | 2 => some ((dev + 1) % size, 3)
      | _ => some ((dev + size - 1) % size, 2)
  else if topology = 2 then
    let r := dev / 4
    let c := dev % 4
    match p with
    | 0 => some (4 * r + (c + 1) % 4, 1)
    | 1 => some (4 * r + (c + 3) % 4, 0)
    | 2 => some (4 * (1 - r) + c, 3)
    | _ => some (4 * (1 - r) + c, 2)
  else none

/-- Whether the peer found is the one that the wiring table names (R403 step 3, R404). -/
def Dev.peerRight (d : Dev) (p : Nat) (x : LinkPeer) : Bool :=
  let size := d.getF F.TOP_DEVICE_NUM_board_size
  let topo := d.getF F.TOP_DEVICE_NUM_topology
  x.board == d.reg R.LINK_BOARD_ID && x.size.toNat == size && x.topology.toNat == topo
    && wiring topo size (d.getF F.TOP_DEVICE_NUM_device_num) p == some (x.device.toNat, x.port.toNat)

/-- TRAINING_DONE (R403): lanes that did not lock are tried again; a wrong peer holds the port down; otherwise the port comes
up with sequence numbers reset and the plan IDs exchanged. -/
def execTrainingDone (port : BitVec 2) (peer : LinkPeer) (s : State) : Host.Outcome State Fault Refusal :=
  s.withDev fun d =>
    let p := port.toNat
    if d.lstate p ≠ 1 then d
    else if !peer.locked then d.bump (R.LINK_PORT_RETRAIN p)
    else
      let d := d.setF (F.LINK_PORT_STATE_lane_ok p) 0xFF
      let d := d.setF (F.LINK_PORT_STATE_peer_device p) peer.device.toNat
      let d := d.setF (F.LINK_PORT_STATE_peer_port p) peer.port.toNat
      if !d.peerRight p peer then (d.setLstate p 3).linkEvent 0x0A03 p 0 0 0 peer.device.toNat 0
      else
        let d := d.setReg (R.LINK_PORT_PEER_PLAN p) peer.plan
        let d := (d.setLstate p 2).updLport p fun l => { want := l.want, carried := l.carried }
        d.linkEvent 0x0A01 p 0 0 0 1 0

/-- LANE_FAULT (R402): lanes lose lock; a port that is up goes down and is held. -/
def execLaneFault (port : BitVec 2) (lanes : BitVec 8) (s : State) : Host.Outcome State Fault Refusal :=
  s.withDev fun d =>
    let p := port.toNat
    if d.lstate p = 2 ∧ lanes ≠ 0 then
      d.laneFault p (((List.range 8).find? fun i => lanes.getLsbD i).getD 0) (255 - lanes.toNat)
    else d

/-- FLIT_ERROR (R401): corrected bytes are counted; a flit that cannot be used is asked for again and the replay is counted and
reported, and more replays in 1 ms than the threshold are a lane fault. -/
def execFlitError (port : BitVec 2) (err : FlitErr) (s : State) : Host.Outcome State Fault Refusal :=
  s.withDev fun d =>
    let p := port.toNat
    if d.lstate p ≠ 2 then d
    else match err with
      | .fecCorrected => d.bump (R.LINK_PORT_FEC_CORR p)
      | .fec | .crc | .kind =>
        let d := d.emit (.link p 0 (leBytes 2 (d.lport p).rxSeq))
        let d := (d.bump (R.LINK_PORT_REPLAY p)).linkEvent 0x0A04 p 0 0 0 0 0
        let now := d.clk
        let rs := now :: (d.lport p).replays.filter fun t => decide (now < t + 24000000)
        let d := d.updLport p fun l => { l with replays := rs }
        if max 1 (d.getF (F.LINK_PORT_CTL_fault_thr p)) < rs.length then
          let (lane, d) := d.fresh
          d.laneFault p lane 0xFF
        else d

/-- REPLAY (R401): the flits held from the sequence number asked for onward leave again, in order. -/
def execReplay (port : BitVec 2) (seq : BitVec 16) (s : State) : Host.Outcome State Fault Refusal :=
  s.withDev fun d =>
    let p := port.toNat
    if d.lstate p ≠ 2 then d
    else
      let again := (d.lport p).buf.dropWhile fun f => f.1 != seq.toNat % 4096
      again.foldl (fun d f => d.emit (.link p (field (leAt f.2 0 1) 0 3) f.2)) d

/-! ### The elements of a piece (R405) -/

/-- The element index vectors of a tensor in source order. -/
def pieceElems (t : TDesc) : List (List Nat) := (List.range t.count).map fun l => TDesc.indices ((List.range t.nd).map t.e) l

/-- The index vector of scale byte `l` in scale-array order, as the first element of its block (R144). -/
def pieceScales (t : TDesc) : List (List Nat) :=
  if t.mx then
    (List.range t.scaleCount).map fun l =>
      let idx := TDesc.indices ((List.range t.nd).map t.scaleExt) l
      idx.set t.blockDim (32 * idx.getD t.blockDim 0)
  else []

/-- Bytes of the elements of a piece. -/
def elemBytes (t : TDesc) : Nat := ceilDiv (t.count * t.width) 8

/-- Bytes of a message of a piece: elements, then scale bytes (R405). -/
def linkBytes (t : TDesc) : Nat := elemBytes t + (pieceScales t).length

/-- How reading a piece ends. -/
inductive PieceEnd where
  | ok
  | bad (reason : Nat)
deriving DecidableEq, Repr

/-- The reason of a failed access of a transfer: 10 for an uncorrectable error, 8 for a refusal (R408, R409). -/
def accReason : AccErr → Nat
  | .ecc _ => 10
  | _ => 8

/-- Whether a byte lies in an OPEN region of the context's tables. -/
def Dev.vaOpen (d : Dev) (ctx va : Nat) : Bool := ((d.pteOf ctx va).map d.pteOpen).getD false

/-- Read the elements, then the scale bytes, of a piece; committed work reads no OPEN region, since a provisional value leaves
only under its tag (R19). -/
def Dev.readPiece (d : Dev) (who : Who) (tag : Option PTag) (t : TDesc) : Dev × List Byte × PieceEnd :=
  let (d, vs, e) := (pieceElems t).foldl (fun (acc : Dev × List Nat × PieceEnd) idx =>
    match acc with
    | (d, vs, .bad r) => (d, vs, .bad r)
    | (d, vs, .ok) =>
      let bit := t.bitAddr idx
      if tag.isNone && d.vaOpen who.ctx (bit.toNat / 8) then (d, vs, .bad 8)
      else match d.elemRead who tag bit t.width with
        | (d, .ok v) => (d, v :: vs, .ok)
        | (d, .error x) => (d, vs, .bad (accReason x))) (d, [], .ok)
  let body := leBytes (elemBytes t) (Fp.pack t.width vs.reverse)
  (pieceScales t).foldl (fun (acc : Dev × List Byte × PieceEnd) idx =>
    match acc with
    | (d, bs, .bad r) => (d, bs, .bad r)
    | (d, bs, .ok) =>
      match d.ctxRead who tag (t.scaleAddr idx).toNat 1 with
      | (d, .ok b) => (d, bs ++ b, .ok)
      | (d, .error x) => (d, bs, .bad (accReason x))) (d, body, e)

/-- Write as much of a piece as the bytes hold: whole elements in source order, then scale bytes (R405, R408). -/
def Dev.writePiece (d : Dev) (who : Who) (tag : Option PTag) (t : TDesc) (bs : List Byte) : Dev × PieceEnd :=
  let n := leNat (bs.take (elemBytes t))
  let (d, _, e) := (pieceElems t).foldl (fun (acc : Dev × Nat × PieceEnd) idx =>
    match acc with
    | (d, i, .bad r) => (d, i, .bad r)
    | (d, i, .ok) =>
      if 8 * bs.length < (i + 1) * t.width then (d, i + 1, .ok)
      else match d.elemWrite who tag (t.bitAddr idx) t.width (field n (i * t.width) t.width) with
        | (d, .ok _) => (d, i + 1, .ok)
        | (d, .error x) => (d, i, .bad (accReason x))) (d, 0, PieceEnd.ok)
  let (d, _, e) := (pieceScales t).foldl (fun (acc : Dev × Nat × PieceEnd) idx =>
    match acc with
    | (d, i, .bad r) => (d, i, .bad r)
    | (d, i, .ok) =>
      if bs.length ≤ i then (d, i + 1, .ok)
      else match d.ctxWrite who tag (t.scaleAddr idx).toNat ((bs.drop i).take 1) with
        | (d, .ok _) => (d, i + 1, .ok)
        | (d, .error x) => (d, i, .bad (accReason x))) (d, elemBytes t, e)
  (d, e)

/-! ### Sends (R406, R410, R412) -/

/-- The wire part of a send begins: its piece is read through the Hedge and its flits leave; a failed read ends it. -/
def Dev.startSend (d : Dev) (x : LinkXfer) : Dev :=
  if !d.genOk x.ctx x.gen then (d.dropXfer x.id).bump R.HEDGE_GEN_DISCARD
  else
    let t := tdesc x.desc
    let who : Who := { hreq := x.plough, sreq := 4 * x.plough + 3, ctx := x.ctx, gen := x.gen }
    match d.readPiece who x.tag t with
    | (d, _, .bad r) => d.xferError x r
    | (d, bs, .ok) =>
      let seq := (d.lport x.port).txSeq
      let mark := match x.tag with
        | some g => g.mark
        | none => 0
      let fs := flitPieces (flitCount bs.length) bs
      let d := (List.range fs.length).foldl (fun d i =>
        d.sendFlit x.port 1 (i == 0) (i + 1 == fs.length) x.tag x.ctx x.gen mark (fs.getD i [])) d
      let d := d.updLport x.port fun l => { l with
        txEnd := max l.txEnd (20 * x.issue) + 24 * wireNs bs.length
        carried := match x.tag with
          | some g => if l.carried.contains g then l.carried else l.carried ++ [g]
          | none => l.carried }
      { d with links := { d.links with xfers := d.links.xfers.map fun y => if y.id = x.id then { y with sent := some seq } else y } }

/-- The stack words of a piece. -/
def Dev.pieceStack (d : Dev) (who : Who) (write : Bool) (t : TDesc) : List (Nat × Bool) :=
  let ws := (pieceElems t).flatMap (fun idx => d.accWords who write (t.bitAddr idx) t.width)
    ++ (pieceScales t).flatMap fun idx => d.accWords who write (8 * t.scaleAddr idx) 8
  ws.eraseDups

/-- A send's stack requests (R45, R405), in the windows of its plough's DMA queue 3; with none waiting its wire part begins. -/
def Dev.askSend (d : Dev) (x : LinkXfer) : Dev :=
  let who : Who := { hreq := x.plough, sreq := 4 * x.plough + 3, ctx := x.ctx, gen := x.gen }
  if x.asked then
    if d.stackBusy who.sreq x.ctx then d
    else
      let d := d.startSend x
      { d with memc := { d.memc with served := d.memc.served.filter fun y => y.1 != who.sreq } }
  else match d.pieceStack who false (tdesc x.desc) with
    | [] => d.startSend x
    | ws => ({ d with links := { d.links with
        xfers := d.links.xfers.map fun (y : LinkXfer) => if y.id = x.id then { y with asked := true } else y } } : Dev).stackRequest who ws

/-- A port whose wire is free begins its oldest send, in the order of issue, once its bundle has retired (R406): called when a send is accepted and at
each C clock. -/
def Dev.linkPump (d : Dev) (p : Nat) : Dev :=
  if d.clk < (d.lport p).txEnd then d
  else match d.links.xfers.find? fun x => x.port == p && x.send && x.sent.isNone && !d.xferHalted x with
    | some x =>
      if !x.accepted then d
      else if d.lstate p == 2 then d.askSend x else d.xferError x 9
    | none => d

/-- A transfer in its place by issue clock, then plough (R406). -/
def insertXfer (x : LinkXfer) : List LinkXfer → List LinkXfer
  | [] => [x]
  | y :: ys =>
    if y.issue < x.issue ∨ (y.issue = x.issue ∧ y.plough ≤ x.plough) then y :: insertXfer x ys else x :: y :: ys

/-! ### The X slot (R87, R405, R406) -/

/-- XFER_FAULT (R409, R415). -/
def fXfer : Nat := 0x0A30

/-- Reserved bits of XSEND and XRECV. -/
def xferOk (w : BitVec 64) : Bool := zeros w [(41, 8), (0, 36)]

/-- What XSEND and XRECV share: the halted entries' fault, the descriptor's checks, the limit of 16, the place taken. -/
def Dev.xferIssue (d : Dev) (n : Nat) (v : Plough) (w : BitVec 64) (send : Bool) : Dev :=
  let p := wf' w 49 2
  let dd := wf' w 36 5
  let pl := d.plough n
  let t := tdesc (v.rdD dd)
  if (d.linkHalt n p pl.ctx pl.gen).isSome then d.plFault n slotX { code := fXfer }
  else if t.mode ≠ 0 ∨ t.formatBad ∨ (!send ∧ !t.writable) then d.plFault n slotX { code := fDescFormat, b27 := dd }
  else if send ∧ pl.pmode.isSome ∧ d.otherPlan p then
    d.plFault n slotX { code := fProvWrite }
  else if 16 ≤ ((d.linkOutstanding n p).filter fun x => x.send == send).length then
    d.plFault n slotX { code := fResource, b25 := 4, b27 := p + 16 * b2n (!send) }
  else
    let id := d.nextId
    let x : LinkXfer := { id := id, port := p, plough := n, send := send, ctx := pl.ctx, gen := pl.gen, desc := v.rdD dd,
                          tag := if send then pl.pmode else none, issue := d.cclk, accepted := false, sent := none, msg := none,
                          asked := false }
    let d := { d with nextId := id + 1, links := { d.links with xfers := insertXfer x d.links.xfers } }
    d.holdEff n slotX (if send then .send p id else .recv p id)

/-- XSEND (R87, R405, R406, R410): a send takes its place and is held until its bundle retires. -/
def execXsend (p : Runner) (w : BitVec 64) (s : State) : Host.Outcome State Fault Refusal :=
  s.withDev fun d => d.ploughRun p slotX w (xferOk w) fun v d => d.xferIssue p.toNat v w true

/-- XRECV (R87, R405, R406): a receive takes its place and is posted when its bundle retires. -/
def execXrecv (p : Runner) (w : BitVec 64) (s : State) : Host.Outcome State Fault Refusal :=
  s.withDev fun d => d.ploughRun p slotX w (xferOk w) fun v d => d.xferIssue p.toNat v w false

/-- XWAIT (R87, R409): hold the plough until at most limit sends and receives are outstanding on the port. -/
def execXwait (p : Runner) (w : BitVec 64) (s : State) : Host.Outcome State Fault Refusal :=
  s.withDev fun d => d.ploughRun p slotX w (zeros w [(8, 41)]) fun _ d =>
    let n := p.toNat
    let port := wf' w 49 2
    let pl := d.plough n
    if (d.linkHalt n port pl.ctx pl.gen).isSome then d.plFault n slotX { code := fXfer }
    else if (d.linkOutstanding n port).length ≤ wf' w 0 8 then d
    else d.updPlough n fun pl => pl.hold (.link port (wf' w 0 8))

/-! ### Receives (R407, R408) -/

/-- The tag of a message. -/
def msgTag (m : DataMsg) : Option PTag := m.tag.map fun t => ⟨t.1.toNat, t.2.toNat⟩

/-- A message that fails a check is discarded, reported and refused to the sender (R407). -/
def Dev.msgDiscard (d : Dev) (p : Nat) (m : DataMsg) (reason : Nat) : Dev :=
  let d := d.bump (R.LINK_PORT_DISCARD p)
  let c := d.ctxOf m.ctx.toNat
  let mark := match msgTag m with
    | some t => t.mark
    | none => 0
  let d := d.linkEvent 0x0A05 p m.ctx.toNat (if c.gen = m.gen.toNat then c.gen else 0) reason 0 mark
  d.sendNack p m.ctx.toNat m.gen.toNat m.seq.toNat reason

/-- The oldest posted receive of a context on a port with no message yet (R408). -/
def Dev.postedRecv (d : Dev) (p ctx gen : Nat) : Option LinkXfer :=
  d.links.xfers.find? fun x =>
    x.port == p && !x.send && x.accepted && x.msg.isNone && x.ctx == ctx && x.gen == gen && !d.xferHalted x

/-- Who the inbound half of LINK is for a receive (R405). -/
def LinkXfer.inbound (x : LinkXfer) : Who := { hreq := 20, sreq := 0x5C, ctx := x.ctx, gen := x.gen }

/-- A receive takes a message, and the stack words it will write become requests (R45). -/
def Dev.takeMsg (d : Dev) (x : LinkXfer) (m : DataMsg) : Dev :=
  let d : Dev := { d with links := { d.links with
    xfers := d.links.xfers.map fun (y : LinkXfer) => if y.id = x.id then { y with msg := some m } else y } }
  match d.pieceStack x.inbound true (tdesc x.desc) with
  | [] => d
  | ws => d.stackRequest x.inbound ws

/-- The links' part of a bundle's retirement (R91, R408): a send waits for the wire; a posted receive takes the oldest waiting
message of its context. -/
def Dev.linkAccept (d : Dev) (id : Nat) : Dev :=
  let d : Dev := { d with links := { d.links with
    xfers := d.links.xfers.map fun (y : LinkXfer) => if y.id = id then { y with accepted := true } else y } }
  match d.links.xfers.find? fun x => x.id == id with
  | none => d
  | some x =>
    if x.send then d.linkPump x.port
    else if d.lstate x.port ≠ 2 then d.xferError x 9
    else match (d.lport x.port).waiting.find? fun m => m.ctx.toNat == x.ctx && m.gen.toNat == x.gen with
      | some m => (d.updLport x.port fun l => { l with waiting := l.waiting.erase m }).takeMsg x m
      | none => d

/-- DATA_MESSAGE (R407, R408): the first flit's checks in order; then the message goes to the oldest posted receive of its
context, or waits in the unexpected buffer of 128 blocks. -/
def execDataMessage (port : BitVec 2) (msg : DataMsg) (s : State) : Host.Outcome State Fault Refusal :=
  s.withDev fun d =>
    let p := port.toNat
    if d.lstate p ≠ 2 then d
    else
      let d := d.setReg (R.LINK_PORT_PEER_PLAN p) msg.plan
      let d := d.updLport p fun l => { l with
        rxSeq := (msg.seq.toNat + flitCount msg.bytes.length) % 4096
        carried := match msgTag msg with
          | some g => if l.carried.contains g then l.carried else l.carried ++ [g]
          | none => l.carried }
      let ctx := msg.ctx.toNat
      if !d.genOk ctx msg.gen.toNat then d.msgDiscard p msg 1
      else if d.fenced ctx then d.msgDiscard p msg 2
      else if !d.locked ∨ msg.plan.toNat ≠ d.header 0x18 8 then d.msgDiscard p msg 4
      else match d.postedRecv p ctx msg.gen.toNat with
        | some x => d.takeMsg x msg
        | none =>
          let used := (d.lport p).waiting.foldl (fun n m => n + wireBlocks m.bytes.length) 0
          if used + wireBlocks msg.bytes.length ≤ 128 then d.updLport p fun l => { l with waiting := l.waiting ++ [msg] }
          else d.msgDiscard p msg 5

/-- A provisional message needs provisional storage of its own schedule in every page it writes (R410). -/
def Dev.provTargetOk (d : Dev) (ctx : Nat) (g : PTag) (t : TDesc) : Bool :=
  let ok := fun (va : Nat) => match d.pteOf ctx va with
    | some e => (match pteProv e with
      | some (_, s) => s == g.sched
      | none => false)
    | none => true
  (pieceElems t).all (fun idx => ok ((t.bitAddr idx).toNat / 8)) && (pieceScales t).all fun idx => ok (t.scaleAddr idx).toNat

/-- How a receive ends: 0 without error, or its reason (R408–R410). The writes that landed stay. -/
def Dev.landMsg (d : Dev) (x : LinkXfer) (m : DataMsg) : Dev × Nat :=
  let t := tdesc x.desc
  let who := x.inbound
  let late := match msgTag m with
    | some g => (d.markSealed g).isSome
    | none => false
  let target := match msgTag m with
    | some g => d.provTargetOk x.ctx g t
    | none => true
  if late = true then (d, 7)
  else if target = false then (d, 3)
  else match d.writePiece who (msgTag m) t m.bytes with
    | (d, .bad _) => (d, 8)
    | (d, .ok) => if m.bytes.length = linkBytes t then (d, 0) else (d, 6)

/-- A provisional receive has completed in this F clock: a squash of its mark in the same clock counts as first (R410). -/
def Dev.noteLanded (d : Dev) (x : LinkXfer) (m : DataMsg) : Dev :=
  match m.tag with
  | none => d
  | some _ => { d with links := { d.links with landed := (d.fclk, x, m) :: d.links.landed.filter fun y => y.1 == d.fclk } }

/-- RECEIVE_LANDED (R408, R410, R412): once its stack requests are served (R45), the message's bytes are in memory and the receive completes, or it ends with an error,
which the sender learns from a NACK_MSG (R409). -/
def execReceiveLanded (port : BitVec 2) (xfer : Nat) (s : State) : Host.Outcome State Fault Refusal :=
  s.withDev fun d =>
    match d.links.xfers.find? fun x => x.id == xfer && x.port == port.toNat && !x.send with
    | none => d
    | some x =>
      match x.msg with
      | none => d
      | some m =>
        if d.xferHalted x then d
        else if !d.genOk x.ctx x.gen then (d.dropXfer x.id).bump R.HEDGE_GEN_DISCARD
        else if d.stackBusy 0x5C x.ctx then d
        else
          let (d, r) := d.landMsg x m
          if r = 0 then ((d.dropXfer x.id).noteLanded x m).emit (.link x.port 0 (leBytes 2 m.seq.toNat))
          else (d.msgDiscard x.port m r).xferError x r

/-- SEND_DONE (R412): the acknowledgement has returned and the send completes. -/
def execSendDone (port : BitVec 2) (xfer : Nat) (s : State) : Host.Outcome State Fault Refusal :=
  s.withDev fun d =>
    match d.links.xfers.find? fun x => x.id == xfer && x.port == port.toNat && x.send && x.sent.isSome with
    | none => d
    | some x =>
      if d.xferHalted x then d
      else if !d.genOk x.ctx x.gen then (d.dropXfer x.id).bump R.HEDGE_GEN_DISCARD
      else d.dropXfer x.id

/-- NACK_MSG (R409): the refused send ends with an error and halts its context's entries on the port. -/
def execNackMsg (port : BitVec 2) (msg : NackMsg) (s : State) : Host.Outcome State Fault Refusal :=
  s.withDev fun d =>
    let p := port.toNat
    if d.lstate p ≠ 2 then d
    else
      let d := d.updLport p fun l => { l with rxSeq := (l.rxSeq + 1) % 4096 }
      match d.links.xfers.find? fun x => x.port == p && x.send && x.ctx == msg.ctx.toNat && x.sent == some msg.seq.toNat with
      | some x => if d.genOk x.ctx x.gen then d.xferError x msg.reason.toNat else (d.dropXfer x.id).bump R.HEDGE_GEN_DISCARD
      | none => d

/-! ### Squash notes (R411) -/

/-- PEER_SQUASH. -/
def Dev.peerSquash (d : Dev) (p : Nat) (t : PTag) : Dev := d.linkEvent 0x0A06 p 0 0 0 0 t.mark

/-- NOTE (R411): the note is held; a device that has committed the mark reports it. -/
def execNoteMsg (port : BitVec 2) (msg : NoteMsg) (s : State) : Host.Outcome State Fault Refusal :=
  s.withDev fun d =>
    let p := port.toNat
    if d.lstate p ≠ 2 then d
    else
      let t : PTag := ⟨msg.sched.toNat, msg.mark.toNat⟩
      let d := d.updLport p fun l => { l with rxSeq := (l.rxSeq + 1) % 4096 }
      let d := { d with links := { d.links with notes := d.links.notes ++ [(p, t)] } }
      if d.markSealed t = some true then d.peerSquash p t else d

/-- The links' part of COMMIT (R411): a note already held for the mark is reported. -/
def Dev.linkCommit (d : Dev) (t : PTag) : Dev :=
  (d.links.notes.filter fun n => n.2 == t).foldl (fun d n => d.peerSquash n.1 t) d

/-- A receive of the mark whose last flit came in the F clock of its SQUASH ends with PROV_LATE, and its acknowledgement does not leave (R410). -/
def Dev.squashLanded (d : Dev) (t : PTag) : Dev :=
  let late := d.links.landed.filter fun y => y.1 == d.fclk && msgTag y.2.2 == some t
  late.foldl (fun d y =>
    let (x, m) := y.2
    let d := { d with
      out := d.out.erase (.link x.port 0 (leBytes 2 m.seq.toNat))
      links := { d.links with landed := d.links.landed.filter fun z => z.2.1.id != x.id } }
    (d.msgDiscard x.port m 7).xferError x 7) d

/-- The links' part of SQUASH (R411): a note leaves on every port that carried provisional DATA of the mark in this major period. -/
def Dev.linkSquash (d : Dev) (t : PTag) : Dev :=
  let d := d.squashLanded t
  (List.range 4).foldl (fun d p =>
    if (d.lport p).carried.contains t ∧ d.lstate p = 2 then d.sendFlit p 4 true true (some t) 0 0 t.mark [] else d) d

/-- The links' part of the major period boundary. -/
def Dev.linkBoundary (d : Dev) : Dev := (List.range 4).foldl (fun d p => d.updLport p fun l => { l with carried := [] }) d

/-- Step 3 of a fence (R161): remote transfers of the context receive a NACK, and its entries end. -/
def Dev.linkFence (d : Dev) (ctx : Nat) : Dev :=
  let xs := d.links.xfers.filter fun x => x.ctx == ctx
  let d := xs.foldl (fun d x =>
    let d := match x.msg with
      | some m => d.sendNack x.port ctx x.gen m.seq.toNat 2
      | none => d
    d.dropXfer x.id) d
  (List.range 4).foldl (fun d p =>
    let ms := (d.lport p).waiting.filter fun m => m.ctx.toNat == ctx
    let d := ms.foldl (fun d m => d.sendNack p ctx m.gen.toNat m.seq.toNat 2) d
    d.updLport p fun l => { l with waiting := l.waiting.filter fun m => m.ctx.toNat != ctx }) d

end Sys2Proof.Machine
end

