-- ==== Sys2Proof/Machine/LoadStore.lean ====
section
/-! DEFINITION. The memory slots L0 and L1: scalar, vector and descriptor loads and stores, DMA (R79–R86, R148–R151). -/

namespace Sys2Proof.Machine

/-- Clocks a landing takes: local store or Barn (R80). -/
def latOf (barn : Bool) (ls br : Nat) : Nat := if barn then br else ls

/-- Take the Barn port for `n` clocks from now (R83); the port being held is RESOURCE_COLLISION, cause 1. -/
def Dev.takeBarn (d : Dev) (p slot : Nat) (barn : Bool) (n : Nat) (k : Dev → Dev) : Dev :=
  if !barn then k d
  else
    let now := d.cclk
    if (d.plough p).busy 0 0 now (now + n) then d.plFault p slot { code := fResource, b25 := 1 }
    else k (d.occupy p 0 0 now (now + n))

/-- An L-slot address: ra + imm32 (R80). -/
def lAddr (v : Plough) (w : BitVec 64) : Nat := (v.rdS (fRa w) + fImm w).toNat

/-- Translate an L-slot access or fault with ACCESS (R79, R81). DESIGN CHOICE (log 97): ALIGN is tested before ACCESS. -/
def Dev.lAccess (d : Dev) (p slot va n al : Nat) (write : Bool) (k : Pieces → Dev → Dev) : Dev :=
  if va % al ≠ 0 then d.plFault p slot (faultAt fAlign 0 va)
  else match d.lxlate p (d.plough p) va n write with
    | .error r => d.plFault p slot (faultAt fAccess r va)
    | .ok ps => k ps d

/-! ### The Steward's loads and stores (R94, R443) -/

/-- A range lies in the Steward's RAM. -/
def inStewRam (va n : Nat) : Bool := decide (Config.stewRam ≤ va) && decide (va + n ≤ Config.stewRam + 0x800000)

/-- A load by the Steward's code: from its RAM, or from the management space as requester 23. -/
def Dev.stewLoad (d : Dev) (slot va n al : Nat) (k : Bool → List Byte → Dev → Dev) : Dev :=
  if va % al ≠ 0 then d.plFault stewCore slot (faultAt fAlign 0 va)
  else if inStewRam va n then k false ((List.range n).map fun i => SMap.get (fun _ => 0) d.stew.ram (va - Config.stewRam + i)) d
  else match d.mgmtRead 23 0x5F false va n with
    | (d, .ok bs) => k false bs d
    | (d, .error r) => d.plFault stewCore slot (faultAt (if r = 0x10 then fEcc else fAccess) r va)

/-- A store by the Steward's code waits for the end of its bundle (R82). -/
def Dev.stewStore (d : Dev) (slot va n al : Nat) (bs : List Byte) : Dev :=
  let q : XReq := { req := 23, va := va, mgmt := true, write := true }
  let keep := fun (d : Dev) => d.updStew fun x => { x with stores := x.stores ++ [(slot, va, bs)] }
  if va % al ≠ 0 then d.plFault stewCore slot (faultAt fAlign 0 va)
  else if inStewRam va n then keep d
  else match d.xlateRange q (pagesOf n) n with
    | .error e => (d.xlateFault q e.1 e.2).plFault stewCore slot (faultAt fAccess e.2 va)
    | .ok _ => keep d

/-! ### Loads and stores of a core -/

/-- Load `n` bytes for a slot and go on with them, told whether any lie in the Barn (R79–R83, R86, R90). DESIGN CHOICE (log 97): a
RESOURCE_COLLISION at the Barn port is found before a provisional fault, and that before an uncorrectable error. -/
def Dev.loadFor (d : Dev) (p slot va n al port : Nat) (k : Bool → List Byte → Dev → Dev) : Dev :=
  if p = stewCore then d.stewLoad slot va n al k
  else d.lAccess p slot va n al false fun ps d =>
    d.takeBarn p slot ps.barn port fun d =>
      d.withProvLoads p slot (fun d =>
        match d.readRange p va ps with
        | (d, _, some _) => d.plFault p slot (faultAt fEcc 1 va)
        | (d, bs, none) => k ps.barn bs d) (ps.map fun x => x.2.2)

/-- A scalar load. -/
def loadOp (p : Runner) (l1 : Bool) (w : BitVec 64) (n : Nat) (conv : Nat → Nat) (d : Dev) : Dev :=
  d.slotRun p (slotL l1) w (riOk w) fun v d =>
    d.loadFor p.toNat (slotL l1) (lAddr v w) n n 1 fun barn bs d =>
      d.result p.toNat (slotL l1) (latOf barn 4 40) (.scalar (fRd w) (BitVec.ofNat 64 (conv (leNat bs))))

/-- Sign extension of a w-bit value to 64 bits. -/
def sext64 (w n : Nat) : Nat := ofSigned 64 (toSigned w n)

/-- Whether a store to pieces would be stopped by an uncorrectable word (R86) or by memory that is off (R485). -/
def Dev.piecesStop (d : Dev) (fresh : Nat → Bool) (who : Who) : Pieces → Dev × Bool
  | [] => (d, false)
  | x :: xs =>
    match d.partialStop x.1 x.2.1 fresh who with
    | (d, true) => (d, true)
    | (d, false) => Dev.piecesStop d fresh who xs

/-- Hold a store until its bundle retires (R59, R82, R86, R91). -/
def Dev.storeFor (d : Dev) (p slot va n al port : Nat) (bs : List Byte) : Dev :=
  if p = stewCore then d.stewStore slot va n al bs
  else d.lAccess p slot va n al true fun ps d =>
    d.takeBarn p slot ps.barn port fun d =>
      if ps.any fun x => !d.provStoreOk (d.plough p) x.2.2 then d.plFault p slot { code := fProvWrite }
      else
        let pl := d.plough p
        let fresh := fun w => (pl.ownWrites d.cclk).any fun x => coversWord x.1 x.2.length w
        match d.piecesStop fresh ⟨p, 0, pl.ctx, pl.gen⟩ ps with
        | (d, true) => d.plFault p slot (faultAt fEcc 2 va)
        | (d, false) =>
          (cutPieces ps bs).foldl (fun d x => d.holdEff p slot (.store x.1 x.2.1 x.2.2)) (ps.foldl (fun d x => d.ploughOpen p x.2.2) d)

/-- A scalar store: rd names the source (R80). -/
def storeOp (p : Runner) (l1 : Bool) (w : BitVec 64) (n : Nat) (d : Dev) : Dev :=
  d.slotRun p (slotL l1) w (riOk w) fun v d =>
    d.storeFor p.toNat (slotL l1) (lAddr v w) n n 1 (leBytes n (v.rdS (fRd w)).toNat)

/-- A v or d register number below 32, in layout RI. DESIGN CHOICE (log 97): rd has 6 bits and R80 names 32 registers of each kind; a number
above 31 is ILLEGAL. -/
def riVecOk (w : BitVec 64) : Bool := riOk w && decide (fRd w < 32)

/-- LD8U (R80). -/
def execLd8u (p : Runner) (l1 : Bool) (w : BitVec 64) (s : State) : Host.Outcome State Fault Refusal :=
  s.withDev (loadOp p l1 w 1 id)
/-- LD16U (R80). -/
def execLd16u (p : Runner) (l1 : Bool) (w : BitVec 64) (s : State) : Host.Outcome State Fault Refusal :=
  s.withDev (loadOp p l1 w 2 id)
/-- LD32U (R80). -/
def execLd32u (p : Runner) (l1 : Bool) (w : BitVec 64) (s : State) : Host.Outcome State Fault Refusal :=
  s.withDev (loadOp p l1 w 4 id)
/-- LD64 (R80). -/
def execLd64 (p : Runner) (l1 : Bool) (w : BitVec 64) (s : State) : Host.Outcome State Fault Refusal :=
  s.withDev (loadOp p l1 w 8 id)
/-- LD8S (R80). -/
def execLd8s (p : Runner) (l1 : Bool) (w : BitVec 64) (s : State) : Host.Outcome State Fault Refusal :=
  s.withDev (loadOp p l1 w 1 (sext64 8))
/-- LD16S (R80). -/
def execLd16s (p : Runner) (l1 : Bool) (w : BitVec 64) (s : State) : Host.Outcome State Fault Refusal :=
  s.withDev (loadOp p l1 w 2 (sext64 16))
/-- LD32S (R80). -/
def execLd32s (p : Runner) (l1 : Bool) (w : BitVec 64) (s : State) : Host.Outcome State Fault Refusal :=
  s.withDev (loadOp p l1 w 4 (sext64 32))
/-- ST8 (R80). -/
def execSt8 (p : Runner) (l1 : Bool) (w : BitVec 64) (s : State) : Host.Outcome State Fault Refusal :=
  s.withDev (storeOp p l1 w 1)
/-- ST16 (R80). -/
def execSt16 (p : Runner) (l1 : Bool) (w : BitVec 64) (s : State) : Host.Outcome State Fault Refusal :=
  s.withDev (storeOp p l1 w 2)
/-- ST32 (R80). -/
def execSt32 (p : Runner) (l1 : Bool) (w : BitVec 64) (s : State) : Host.Outcome State Fault Refusal :=
  s.withDev (storeOp p l1 w 4)
/-- ST64 (R80). -/
def execSt64 (p : Runner) (l1 : Bool) (w : BitVec 64) (s : State) : Host.Outcome State Fault Refusal :=
  s.withDev (storeOp p l1 w 8)

/-- VLD (R80, R83): 1,024 bytes into vd, two clocks of the Barn port. -/
def execVld (p : Runner) (l1 : Bool) (w : BitVec 64) (s : State) : Host.Outcome State Fault Refusal :=
  s.withDev fun d => d.ploughRun p (slotL l1) w (riVecOk w) fun v d =>
    d.loadFor p.toNat (slotL l1) (lAddr v w) 1024 64 2 fun barn bs d =>
      d.result p.toNat (slotL l1) (latOf barn 6 44) (.vec (fRd w) (BitVec.ofNat 8192 (leNat bs)))

/-- VST (R80). -/
def execVst (p : Runner) (l1 : Bool) (w : BitVec 64) (s : State) : Host.Outcome State Fault Refusal :=
  s.withDev fun d => d.ploughRun p (slotL l1) w (riVecOk w) fun v d =>
    d.storeFor p.toNat (slotL l1) (lAddr v w) 1024 64 2 (leBytes 1024 (v.rdV (fRd w)).toNat)

/-- DLD (R84, R145, R146): 64 bytes into dd, checked by the Hedge; DESC_PROV in provisional mode (R59). -/
def execDld (p : Runner) (l1 : Bool) (w : BitVec 64) (s : State) : Host.Outcome State Fault Refusal :=
  s.withDev fun d => d.ploughRun p (slotL l1) w (riVecOk w) fun v d =>
    d.loadFor p.toNat (slotL l1) (lAddr v w) 64 64 1 fun barn bs d =>
      let t := tdesc (descOfBytes bs)
      if (d.plough p.toNat).pmode.isSome then d.plFault p.toNat (slotL l1) { code := fDescProv }
      else if t.formatBad then d.plFault p.toNat (slotL l1) { code := fDescFormat, b27 := fRd w }
      else if t.aliasReason != 0 then d.plFault p.toNat (slotL l1) { code := fDescAlias, b25 := t.aliasReason, b27 := fRd w }
      else d.result p.toNat (slotL l1) (latOf barn 8 48) (.desc (fRd w) (descOfBytes bs))

/-- DST (R80). -/
def execDst (p : Runner) (l1 : Bool) (w : BitVec 64) (s : State) : Host.Outcome State Fault Refusal :=
  s.withDev fun d => d.ploughRun p (slotL l1) w (riVecOk w) fun v d =>
    d.storeFor p.toNat (slotL l1) (lAddr v w) 64 64 1 (leBytes 64 (v.rdD (fRd w)).toNat)

/-! ### DMA (R85, R148–R151) -/

/-- A DMA queue of a plough. -/
def Plough.queue (pl : Plough) (q : Nat) : DmaQueue :=
  match q with
  | 0 => pl.q0
  | 1 => pl.q1
  | 2 => pl.q2
  | _ => pl.q3

/-- Replace a DMA queue. -/
def Plough.setQueue (pl : Plough) (q : Nat) (x : DmaQueue) : Plough :=
  match q with
  | 0 => { pl with q0 := x }
  | 1 => { pl with q1 := x }
  | 2 => { pl with q2 := x }
  | _ => { pl with q3 := x }

/-- The halt of a queue as a bundle of a context meets it: only the context whose transfer failed takes the fault (R156). -/
def DmaQueue.haltOf (q : DmaQueue) (ctx : Nat) : Option (Nat × Nat × Nat) :=
  q.halt.filter fun _ => (q.xfers.head?.map (·.ctx)) == some ctx

/-- The fault that a halted queue gives to the next bundle that names it (R156, R383). -/
def haltFault (q : Nat) (h : Nat × Nat × Nat) : PFault :=
  if h.1 = fEcc then { code := fEcc, b25 := h.2.1, low := h.2.2, info := h.2.2 }
  else { code := h.1, b25 := h.2.1 % 256, b26 := h.2.1 / 256, b27 := q, info := h.2.2 }

/-- The checks of a DMA's two descriptors (R148). -/
def dmaDescOk (s t six tix : TDesc) : Bool :=
  t.writable && s.fmt == t.fmt && s.mx == t.mx && (!s.mx || s.blockDim == t.blockDim) && s.iterCount six == t.iterCount tix
    && !s.formatBad && !t.formatBad
    && (!s.mx || ((s.iterExt six).getD s.blockDim 1 % 32 == 0 && (t.iterExt tix).getD t.blockDim 1 % 32 == 0))

/-- Read the indices of an index tensor as signed integers, from bytes of the plough's own local store (R149, R150); a key
per index. -/
def idxBit (ix : TDesc) (i : Nat) : Int := ix.bitAddr (TDesc.indices ((List.range ix.nd).map ix.e) i)

/-- STRICT (R150): every index read at issue from the plough's own local store. The answer is the list of indices, or the
fault: DESC_INDEX when the tensor lies elsewhere or is larger than 1,024 indices, INDEX_STRICT at the first index out of
range. -/
def Dev.strictIndices (d : Dev) (p reg : Nat) (t ix : TDesc) : Dev × Except PFault (List Int) :=
  if 1024 < ix.count then (d, .error { code := fDescIndex, b27 := reg })
  else
    (List.range ix.count).foldl (fun (acc : Dev × Except PFault (List Int)) i =>
      match acc with
      | (d, .error e) => (d, .error e)
      | (d, .ok vs) =>
        let a := (idxBit ix i).toNat / 8
        match d.lxlate p (d.plough p) a (ix.width / 8) false with
        | .error _ => (d, .error { code := fDescIndex, b27 := reg })
        | .ok ps =>
          if ps.barn then (d, .error { code := fDescIndex, b27 := reg })
          else if ps.any fun x => !d.readProvOk (d.plough p).ctx (d.plough p).pmode x.2.2 then (d, .error { code := fProvRead })
          else match d.readRange p a ps with
            | (d, _, some _) => (d, .error (faultAt fEcc 1 a))
            | (d, bs, none) =>
              let v := toSigned ix.width (leNat bs)
              match t.useIndex v with
              | .strict => (d, .error { code := fIndexStrict, b27 := reg, low := ofSigned 32 v })
              | _ => (d, .ok (vs ++ [v]))) (d, .ok [])

/-- Check the index descriptor of one side of a use (R147, R150) and read its indices when STRICT. -/
def Dev.indexSide (d : Dev) (p reg : Nat) (t ix : TDesc) : Dev × Except PFault (Option (List Int)) :=
  if !t.indexed then (d, .ok none)
  else if !idxDescOk t ix then (d, .error { code := fDescIndex, b27 := reg })
  else if t.idxMode = 0 then
    match d.strictIndices p reg t ix with
    | (d, .ok vs) => (d, .ok (some vs))
    | (d, .error e) => (d, .error e)
  else (d, .ok none)

/-- DMA (R85, R148): the descriptor pair and its index descriptors are copied at issue; the transfer takes a queue place. -/
def execDma (p : Runner) (l1 : Bool) (w : BitVec 64) (s : State) : Host.Outcome State Fault Refusal :=
  s.withDev fun d => d.ploughRun p (slotL l1) w (zeros w [(0, 44)] && wf' w 44 5 % 2 == 0) fun v d =>
    let n := p.toNat
    let slot := slotL l1
    let q := wf' w 49 2
    let dd := wf' w 44 5
    let qu := (d.plough n).queue q
    match qu.haltOf v.ctx with
    | some h => d.plFault n slot (haltFault q h)
    | none =>
      let sv := v.rdD dd
      let tv := v.rdD (dd + 1)
      let sx := tdesc sv
      let tx := tdesc tv
      let siv := v.rdD sx.idxReg
      let tiv := v.rdD tx.idxReg
      if !dmaDescOk sx tx (tdesc siv) (tdesc tiv) then d.plFault n slot { code := fDescFormat, b27 := dd }
      else match d.indexSide n dd sx (tdesc siv) with
        | (d, .error f) => d.plFault n slot f
        | (d, .ok svals) =>
          match d.indexSide n (dd + 1) tx (tdesc tiv) with
          | (d, .error f) => d.plFault n slot f
          | (d, .ok tvals) =>
            if 16 ≤ qu.xfers.length then d.plFault n slot { code := fResource, b25 := 2, b27 := q }
            else
              let pl := d.plough n
              let x : Dma := { src := sv, dst := tv, srcIdx := siv, dstIdx := tiv, srcVals := svals, dstVals := tvals,
                               ctx := pl.ctx, gen := pl.gen, tag := pl.pmode, issue := d.cclk, held := true }
              (d.updPlough n fun pl => pl.setQueue q { pl.queue q with xfers := (pl.queue q).xfers ++ [x] }).holdEff n slot (.dma q)

/-- DMAWAIT (R85): hold the plough until queue q has at most limit transfers outstanding. -/
def execDmawait (p : Runner) (l1 : Bool) (w : BitVec 64) (s : State) : Host.Outcome State Fault Refusal :=
  s.withDev fun d => d.ploughRun p (slotL l1) w (zeros w [(8, 41)]) fun v d =>
    let n := p.toNat
    let q := wf' w 49 2
    match ((d.plough n).queue q).haltOf v.ctx with
    | some h => d.plFault n (slotL l1) (haltFault q h)
    | none =>
      if ((d.plough n).queue q).xfers.length ≤ wf' w 0 8 then d
      else d.updPlough n fun pl => pl.hold (.dma q (wf' w 0 8))

/-- How a DMA transfer stops. -/
inductive DmaStop where
  | acc (write : Bool) (e : AccErr)
deriving DecidableEq, Repr

/-- The index a transfer uses at position `i` of its index tensor: the STRICT values read at issue, else read now (R150). -/
def Dev.idxAt (d : Dev) (who : Who) (tag : Option PTag) (ix : TDesc) (vals : Option (List Int)) (i : Nat) : Dev × Except AccErr Int :=
  match vals with
  | some vs => (d, .ok (vs.getD i 0))
  | none =>
    match d.elemRead who tag (idxBit ix i) ix.width with
    | (d, .ok v) => (d, .ok (toSigned ix.width v))
    | (d, .error e) => (d, .error e)

/-- The element indices of iteration position `l` of one side, through its index tensor; `none` for an element of mode ZERO out
of range. -/
def Dev.sideIndices (d : Dev) (who : Who) (tag : Option PTag) (t ix : TDesc) (vals : Option (List Int)) (l : Nat) :
    Dev × Except AccErr (Option (List Nat)) :=
  let idx := TDesc.indices (t.iterExt ix) l
  if !t.indexed then (d, .ok (some idx))
  else match d.idxAt who tag ix vals (idx.getD t.gatherDim 0) with
    | (d, .error e) => (d, .error e)
    | (d, .ok v) =>
      match t.useIndex v with
      | .at j => (d, .ok (some (idx.set t.gatherDim j)))
      | _ => (d, .ok none)

/-- Whether iteration position `l` is the first element that its index selects: an index of mode ZERO out of range counts once,
however many elements lie under it (R149, log 25). -/
def TDesc.firstUnder (t ix : TDesc) (l : Nat) : Bool := ((TDesc.indices (t.iterExt ix) l).set t.gatherDim 0).all (· == 0)

/-- Move one element (R148–R151). -/
def Dev.dmaElem (d : Dev) (who : Who) (x : Dma) (l : Nat) : Dev × Option DmaStop :=
  let s := tdesc x.src
  let t := tdesc x.dst
  match d.sideIndices who x.tag s (tdesc x.srcIdx) x.srcVals l with
  | (d, .error e) => (d, some (.acc false e))
  | (d, .ok si) =>
    match d.sideIndices who x.tag t (tdesc x.dstIdx) x.dstVals l with
    | (d, .error e) => (d, some (.acc false e))
    | (d, .ok ti) =>
      let d := if si.isNone && s.firstUnder (tdesc x.srcIdx) l then d.bumpFor x.tag R.HEDGE_IDX_ZERO else d
      let d := if ti.isNone && t.firstUnder (tdesc x.dstIdx) l then d.bumpFor x.tag R.HEDGE_IDX_ZERO else d
      let (d, rv) := match si with
        | none => (d, Except.ok 0)
        | some idx => d.elemRead who x.tag (s.bitAddr idx) s.width
      match rv with
      | .error e => (d, some (.acc false e))
      | .ok v =>
        match ti with
        | none => (d, none)
        | some tdx =>
          let addr := t.bitAddr tdx
          let (d, old) := if t.mode = 3 ∨ t.mode = 4 then d.elemRead who x.tag addr t.width else (d, Except.ok 0)
          match old with
          | .error e => (d, some (.acc false e))
          | .ok o =>
            let nv := if t.mode = 3 ∨ t.mode = 4 then elemAdd t.fmt o v else v
            match d.elemWrite who x.tag addr t.width nv with
            | (d, .error e) => (d, some (.acc true e))
            | (d, .ok _) =>
              -- the scale byte moves with the first element of its block
              match s.mx, si with
              | true, some sdx =>
                if sdx.getD s.blockDim 0 % 32 = 0 then
                  match d.ctxRead who x.tag (s.scaleAddr sdx).toNat 1 with
                  | (d, .error e) => (d, some (.acc false e))
                  | (d, .ok b) =>
                    match d.ctxWrite who x.tag (t.scaleAddr tdx).toNat b with
                    | (d, .error e) => (d, some (.acc true e))
                    | (d, .ok _) => (d, none)
                else (d, none)
              | _, _ => (d, none)

/-- The fault that a stopped transfer leaves for the next use of its queue (R156, R162, R383): code, byte 25 with byte 26 above
it, address. -/
def dmaHalt : DmaStop → Nat × Nat × Nat
  | .acc wr (.xlate va r) => (fXlate, r + 256 * b2n wr, va)
  | .acc wr (.prov va) => (fDmaProv, 256 * b2n wr, va)
  | .acc wr (.ecc key) => (fEcc, if wr then 2 else 1, key)

/-- The stack words that one side of a transfer touches, in order. -/
def Dev.sideWords (d : Dev) (who : Who) (tag : Option PTag) (write : Bool) (t ix : TDesc) (vals : Option (List Int)) : List (Nat × Bool) :=
  ((List.range (t.iterCount ix)).foldl (fun acc l =>
    match (d.sideIndices who tag t ix vals l).2 with
    | .ok (some idx) => (d.accWords who write (t.bitAddr idx) t.width).foldl (fun acc x => if acc.head? = some x then acc else x :: acc) acc
    | _ => acc) []).reverse

/-- The transfer at the front of a queue issues its stack requests (R45, R388); those of a transfer gone before are dropped, unless a
send shares the queue's windows (R405). -/
def Dev.dmaStart (d : Dev) (n q : Nat) : Dev :=
  let sreq := 4 * n + q
  let memc := d.memc
  let sends := q == 3 && d.links.xfers.any fun x => x.plough == n && x.send && x.asked && x.sent.isNone
  let d := if sends then d else { d with memc := { memc with
    reqs := memc.reqs.filter (fun y => y.req != sreq)
    served := memc.served.filter (fun y => y.1 != sreq) } }
  match ((d.plough n).queue q).xfers with
  | [] => d
  | x :: _ =>
    if x.held then d
    else
      let who : Who := { hreq := n, sreq := sreq, ctx := x.ctx, gen := x.gen }
      d.stackRequest who (d.sideWords who x.tag false (tdesc x.src) (tdesc x.srcIdx) x.srcVals
        ++ d.sideWords who x.tag true (tdesc x.dst) (tdesc x.dstIdx) x.dstVals)

/-- The elements of a transfer move in source order, up to the first that fails. -/
def Dev.dmaMove (d : Dev) (who : Who) (x : Dma) : Dev × Option DmaStop :=
  (List.range ((tdesc x.src).iterCount (tdesc x.srcIdx))).foldl (fun (acc : Dev × Option DmaStop) l =>
    match acc with
    | (d, some e) => (d, some e)
    | (d, none) => d.dmaElem who x l) (d, none)

/-- The transfer at the front of a queue leaves it, and the next starts. -/
def Dev.dmaPop (d : Dev) (n q : Nat) (rest : List Dma) : Dev :=
  (d.updPlough n fun pl => pl.setQueue q { pl.queue q with xfers := rest }).dmaStart n q

/-- Who a transfer of a queue is to the Hedge and to the stack. -/
def Dma.who (x : Dma) (n q : Nat) : Who := { hreq := n, sreq := 4 * n + q, ctx := x.ctx, gen := x.gen }

/-- DMA_TRANSFER_DONE (R85, R156): once its stack requests are served, the oldest transfer of the queue moves its elements in source
order and leaves the queue, or stops at a failing element and halts the queue. A transfer of a stale generation is discarded (R37, R155). -/
def execDmaTransferDone (p : BitVec 4) (q : BitVec 2) (s : State) : Host.Outcome State Fault Refusal :=
  s.withDev fun d =>
    let n := p.toNat
    let qu := (d.plough n).queue q.toNat
    match qu.halt, qu.xfers with
    | none, x :: rest =>
      let who := x.who n q.toNat
      if x.held || d.memc.reqs.any (fun y => y.req == who.sreq) then d
      else if !d.genOk x.ctx x.gen then (d.dmaPop n q.toNat rest).bump R.HEDGE_GEN_DISCARD
      else
        let r := d.dmaMove who x
        match r.2 with
        | none => r.1.dmaPop n q.toNat rest
        | some e => r.1.updPlough n fun pl => pl.setQueue q.toNat { pl.queue q.toNat with halt := some (dmaHalt e) }
    | _, _ => d

/-- Whether a result is an accumulate step. -/
def Dest.isStep : Dest → Bool
  | .accStep .. => true
  | _ => false

/-- The results of a plough whose clock has come by C clock `t` land, later bundles and later slots last (R65, R66); drained rows enter memory,
conversions and landed accumulate steps are counted (R115, R127, R140). -/
def Dev.landUpTo (d : Dev) (n t : Nat) : Dev :=
  let pl := d.plough n
  let due := pl.due t
  if due.isEmpty then d
  else
    let steps := (due.filter fun x => x.dst.isStep).length
    let d := d.updPlough n fun pl => { pl.view t with pend := pl.pend.filter fun x => decide (t < x.land) }
    let d := due.foldl (fun d x => match x.dst with
      | .memRow k bs _ _ => (d.writeKey k bs ⟨n, 0, pl.ctx, pl.gen⟩).1
      | .counts sat nan tag => (d.bumpFor tag (R.PLOUGH_CVT_SAT n) sat).bumpFor tag (R.PLOUGH_CVT_NAN n) nan
      | _ => d) d
    d.setReg (R.PLOUGH_MAT_ROWS n) (d.reg (R.PLOUGH_MAT_ROWS n) + BitVec.ofNat 64 steps)

/-- RESULT_LAND (R65, R66): the results whose clock has come land. -/
def execResultLand (p : BitVec 4) (s : State) : Host.Outcome State Fault Refusal :=
  s.withDev fun d => d.landUpTo p.toNat d.cclk

end Sys2Proof.Machine
end

