-- ==== Sys2Proof/Machine/Fixed.lean ====
section
/-! DEFINITION. The Mill's arithmetic in FX32 words (R113, R114, R304, R305, R311) and its kinematics and dynamics (R306, R308). -/

namespace Sys2Proof.Machine
open Sys2Proof.Machine.Fp

/-! ### Words (R113, R114) -/

/-- An exact value k / 2^f inside the Mill. -/
structure Fx where
  k : Int
  f : Nat
deriving DecidableEq, Repr

/-- Zero. -/
def Fx.zero : Fx := ⟨0, 0⟩
/-- Exact sum. -/
def Fx.add (a b : Fx) : Fx := ⟨a.k * 2 ^ (max a.f b.f - a.f) + b.k * 2 ^ (max a.f b.f - b.f), max a.f b.f⟩
/-- Change of sign. -/
def Fx.neg (a : Fx) : Fx := ⟨-a.k, a.f⟩
/-- Exact difference. -/
def Fx.sub (a b : Fx) : Fx := a.add b.neg
/-- Exact product. -/
def Fx.mul (a b : Fx) : Fx := ⟨a.k * b.k, a.f + b.f⟩

/-- Saturate a rounded result to 32 bits; the second component counts a saturation (R114). -/
def sat32 (v : Int) : Int × Nat := (satSigned 32 v, if satSigned 32 v = v then 0 else 1)

/-- Round once to a fraction count and saturate (R114). -/
def Fx.to (x : Fx) (fd : Nat) : Int × Nat :=
  if x.f ≤ fd then sat32 (x.k * 2 ^ (fd - x.f)) else sat32 (rneShift x.k (x.f - fd))

/-- Work that counts the results it saturates (R305). -/
abbrev FxM := StateM Nat

/-- A result kept as a word of the class with `fd` fraction bits (R114, R304). -/
def Fx.keep (fd : Nat) (x : Fx) : FxM Fx := fun n => (⟨(x.to fd).1, fd⟩, n + (x.to fd).2)

/-- Words with their saturations. -/
abbrev Words := List Int × Nat

/-- Append words. -/
def Words.app (a b : Words) : Words := (a.1 ++ b.1, a.2 + b.2)

/-- Round each of a list of exact values to its fraction count. -/
def roundAll (xs : List (Fx × Nat)) : Words :=
  let rs := xs.map fun x => x.1.to x.2
  (rs.map (·.1), rs.foldl (fun n r => n + r.2) 0)

/-- Exact sum of products. -/
def fxDot (a b : List Fx) : Fx := (a.zip b).foldl (fun s x => s.add (x.1.mul x.2)) Fx.zero

/-- Cut a list into pieces of 64, at most `fuel`. -/
def pieces64 {α : Type} : Nat → List α → List (List α)
  | 0, l => [l]
  | fuel + 1, l => if l.length ≤ 64 then [l] else l.take 64 :: pieces64 fuel (l.drop 64)

/-- A dot product of words rounded to `fd`: above 64 terms in chunks, each rounded, added in order with saturation (R305). -/
def longDot (a : List Int) (fa : Nat) (b : List Int) (fb fd : Nat) : Int × Nat :=
  let ps := a.zip b
  let chunk := fun (l : List (Int × Int)) => (⟨l.foldl (fun s x => s + x.1 * x.2) 0, fa + fb⟩ : Fx).to fd
  match (pieces64 ps.length ps).map chunk with
  | [] => (0, 0)
  | c :: cs => cs.foldl (fun acc x =>
      let r := sat32 (acc.1 + x.1)
      (r.1, acc.2 + x.2 + r.2)) c

/-- An input word: FX32 as it stands, or FP32 converted (R114, R305). -/
def fxInput (fp : Bool) (f w : Nat) : Int × Nat :=
  if fp then
    let r := Fp.encodeInt 32 .rne (scale2 (f : Int) (Fp.val w))
    (toSigned 32 r.1, if r.2 = .none then 0 else 1)
  else (toSigned 32 w, 0)

/-- An output word: FX32, or FP32 rounded RNE (R114, R315). -/
def fxOutput (fp : Bool) (f : Nat) (k : Int) : Nat := if fp then rnd (scale2 (-(f : Int)) (ofInt k)) else ofSigned 32 k

/-- Clamp a word to bounds; the flag says that it moved. -/
def fxClamp (lo hi x : Int) : Int × Bool :=
  let y := if x < lo then lo else if hi < x then hi else x
  (y, y != x)

/-- Quotient rounded to nearest, ties to even; the divisor is not zero. -/
def rneQuot (n d : Int) : Int :=
  let q := n.natAbs / d.natAbs
  let r := n.natAbs % d.natAbs
  let m := if 2 * r > d.natAbs ∨ (2 * r = d.natAbs ∧ q % 2 = 1) then q + 1 else q
  if decide (n < 0) != decide (d < 0) then -(m : Int) else m

/-- sin of a word's value, rounded once to class 15. -/
def fxSin (x : Fx) : Fx := ⟨rneShift (sinFx (x.k * 2 ^ (P - x.f))) (P - 30), 30⟩
/-- cos of a word's value, rounded once to class 15. -/
def fxCos (x : Fx) : Fx := ⟨rneShift (cosFx (x.k * 2 ^ (P - x.f))) (P - 30), 30⟩

/-! ### Factor and solve (R311) -/

/-- What a factorisation leaves: rows of L below the diagonal, pivots, saturations, first small row, small pivots. -/
structure Ldl where
  l : List (List Int) := []
  piv : List Int := []
  sat : Nat := 0
  first : Option Nat := none
  small : Nat := 0
deriving DecidableEq, Repr

/-- The pivot rule (R311): the pivot used, and whether it was small. -/
def pivotRule (eps lambda d : Int) : (Int × Nat) × Bool :=
  if d.natAbs < eps.natAbs then
    let r := sat32 (d + lambda)
    (if r.1.natAbs < eps.natAbs then (eps, r.2) else r, true)
  else ((d, 0), false)

/-- Add row `j` of a symmetric matrix to a factorisation: the entries of L left of the diagonal, then the pivot, an exact sum
rounded once to class 11 (R311). `row` is the row up to the diagonal. -/
def Ldl.row (t : Ldl) (f11 : Nat) (eps lambda : Int) (row : List Int) : Ldl :=
  let j := t.piv.length
  let fL := Config.millLFrac
  let (ls, sat) := (List.range j).foldl (fun (acc : List Int × Nat) c =>
    let s := (List.range c).foldl (fun (s : Int) k =>
      s + acc.1.getD k 0 * (t.l.getD c []).getD k 0 * t.piv.getD k 1) 0
    let num := row.getD c 0 * 2 ^ (2 * fL) - s
    let r := sat32 (rneQuot num (t.piv.getD c 1 * 2 ^ fL))
    (acc.1 ++ [r.1], acc.2 + r.2)) ([], 0)
  let s := (List.range j).foldl (fun (s : Int) k => s + ls.getD k 0 * ls.getD k 0 * t.piv.getD k 1) 0
  let d := (⟨row.getD j 0 * 2 ^ (2 * fL) - s, f11 + 2 * fL⟩ : Fx).to f11
  let (p, isSmall) := pivotRule eps lambda d.1
  { l := t.l ++ [ls], piv := t.piv ++ [p.1], sat := t.sat + sat + d.2 + p.2,
    first := if isSmall && t.first.isNone then some j else t.first, small := t.small + b2n isSmall }

/-- Factor a symmetric matrix given by rows. -/
def ldlFactor (f11 : Nat) (eps lambda : Int) (h : List (List Int)) : Ldl := h.foldl (fun t r => t.row f11 eps lambda r) {}

/-- Solve with a factorisation: the right-hand side has fraction `fg`; unknown `i` is rounded to `fx i`. -/
def Ldl.solve (t : Ldl) (f11 fg : Nat) (g : List Int) (fx : Nat → Nat) : Words :=
  let n := t.piv.length
  let fL := Config.millLFrac
  let fz := Config.millSolveFrac
  let (z, s1) := (List.range n).foldl (fun (acc : List Int × Nat) i =>
    let s := (List.range i).foldl (fun (s : Int) k => s + (t.l.getD i []).getD k 0 * acc.1.getD k 0) 0
    let r := ((⟨g.getD i 0, fg⟩ : Fx).sub ⟨s, fL + fz⟩).to fz
    (acc.1 ++ [r.1], acc.2 + r.2)) ([], 0)
  let ys := (List.range n).map fun i => sat32 (rneQuot (z.getD i 0 * 2 ^ f11) (t.piv.getD i 1))
  let (x, s2) := (List.range n).reverse.foldl (fun (acc : List (Int × Nat) × Nat) i =>
    let s := (List.range (n - 1 - i)).foldl (fun (s : Fx) k =>
      let c := i + 1 + k
      let v := acc.1.getD k (0, 0)
      s.add ⟨(t.l.getD c []).getD i 0 * v.1, fL + v.2⟩) Fx.zero
    let r := ((⟨(ys.getD i (0, 0)).1, fz⟩ : Fx).sub s).to (fx i)
    ((r.1, fx i) :: acc.1, acc.2 + r.2)) ([], 0)
  (x.map (·.1), s1 + s2 + ys.foldl (fun n r => n + r.2) 0)

/-! ### The model (R306) -/

/-- A body of a model, its parameters as words of the model's classes. -/
structure Body where
  parent : Nat
  joint : Nat
  dof : Nat
  axis : List Fx
  origin : List Fx
  rot : List Fx
  mass : Fx
  com : List Fx
  inertia : List Fx
  qMin : Fx
  qMax : Fx
  qdMax : Fx
  tauMax : Fx
  qddMax : Fx
deriving DecidableEq, Repr

/-- A task frame. -/
structure TaskFrame where
  body : Nat
  mask : Nat
  offset : List Fx
deriving DecidableEq, Repr

/-- Words at an offset with a fraction count. -/
def fxAt (b : List Byte) (o n f : Nat) : List Fx := (List.range n).map fun i => ⟨toSigned 32 (leAt b (o + 4 * i) 4), f⟩

/-- One word. -/
def fx1 (b : List Byte) (o f : Nat) : Fx := ⟨toSigned 32 (leAt b o 4), f⟩

/-- Body `i` of a MILL_MODEL section. -/
def modelBody (sec : List Byte) (i : Nat) : Body :=
  let b := (sec.drop (64 + 128 * i)).take 128
  let fr := fun c => leAt sec (12 + c) 1
  let pris := leAt b 1 1 == 2
  let pick := fun a c => if pris then fr c else fr a
  { parent := leAt b 0 1, joint := leAt b 1 1, dof := leAt b 2 1, axis := fxAt b 4 3 (fr 15), origin := fxAt b 16 3 (fr 1),
    rot := fxAt b 28 9 (fr 15), mass := fx1 b 64 (fr 8), com := fxAt b 68 3 (fr 1), inertia := fxAt b 80 6 (fr 9),
    qMin := fx1 b 104 (pick 0 1), qMax := fx1 b 108 (pick 0 1), qdMax := fx1 b 112 (pick 2 3), tauMax := fx1 b 116 (pick 7 6),
    qddMax := fx1 b 120 (pick 4 5) }

/-- The bodies. -/
def modelBodies (sec : List Byte) : List Body := (List.range (leAt sec 8 1)).map (modelBody sec)

/-- The task frames. -/
def modelFrames (sec : List Byte) : List TaskFrame :=
  (List.range (leAt sec 10 1)).map fun i =>
    let b := (sec.drop (64 + 128 * leAt sec 8 1 + 32 * i)).take 32
    { body := leAt b 0 1, mask := leAt b 1 1 % 64, offset := fxAt b 4 3 (leAt sec 13 1) }

/-- The moving body of each degree of freedom, in order. -/
def dofBody (bs : List Body) (n : Nat) : List Body :=
  (List.range n).map fun k =>
    match bs.find? fun b => b.joint != 0 && b.dof == k with
    | some b => b
    | none => ⟨0xFF, 0, 0xFF, [], [], [], .zero, [], [], .zero, .zero, .zero, .zero, .zero⟩

/-! ### Vectors

Each product (of a matrix and a vector or a matrix, of a number and a vector, of two vectors) is formed exactly and rounded once to the class
of the quantity, and so is each sum of words (R114, R304; log 64). -/

/-- Exact sum of vectors. -/
def v3Add (a b : List Fx) : List Fx := (a.zip b).map fun x => x.1.add x.2
/-- Exact difference of vectors. -/
def v3Sub (a b : List Fx) : List Fx := (a.zip b).map fun x => x.1.sub x.2
/-- An exact number times a vector. -/
def v3Scale (s : Fx) (a : List Fx) : List Fx := a.map fun x => s.mul x
/-- Exact cross product. -/
def v3Cross (a b : List Fx) : List Fx :=
  let g := fun (l : List Fx) i => l.getD i .zero
  let m := fun i j => ((g a i).mul (g b j)).sub ((g a j).mul (g b i))
  [m 1 2, m 2 0, m 0 1]
/-- Every entry kept in a class. -/
def keepAll (fd : Nat) (v : List Fx) : FxM (List Fx) := v.mapM (Fx.keep fd)
/-- Rows of a 3 × 3 matrix in row order. -/
def m3Rows (m : List Fx) : List (List Fx) := [m.take 3, (m.drop 3).take 3, m.drop 6]
/-- Transpose of a 3 × 3 matrix in row order. -/
def m3T (m : List Fx) : List Fx := (List.range 9).map fun i => m.getD (3 * (i % 3) + i / 3) .zero
/-- Exact matrix times vector. -/
def m3Vec (m v : List Fx) : List Fx := (m3Rows m).map fun r => fxDot r v
/-- Exact matrix product. -/
def m3Mul (a b : List Fx) : List Fx := (m3Rows a).flatMap fun r => (m3Rows (m3T b)).map fun c => fxDot r c
/-- The unit matrix. -/
def m3One : List Fx := (List.range 9).map fun i => if i % 4 = 0 then ⟨1, 0⟩ else .zero

/-- Exact entries of the rotation by an angle about an axis, from its rounded sine and cosine. -/
def m3Axis (a : List Fx) (q : Fx) : List Fx :=
  let s := fxSin q
  let c := fxCos q
  let g := fun i => a.getD i .zero
  let vc := (⟨1, 0⟩ : Fx).sub c
  let e := fun i j (k : Fx) => (((g i).mul (g j)).mul vc).add (s.mul k)
  let z := Fx.zero
  [(e 0 0 z).add c, e 0 1 (g 2).neg, e 0 2 (g 1), e 1 0 (g 2), (e 1 1 z).add c, e 1 2 (g 0).neg, e 2 0 (g 1).neg, e 2 1 (g 0),
    (e 2 2 z).add c]

/-- Exact quotient rounded once to a fraction count, ties to even (R305); the divisor is not zero. -/
def Fx.quot (a b : Fx) (fd : Nat) : FxM Fx := fun n =>
  let r := sat32 (rneQuot (a.k * 2 ^ (b.f + fd)) (b.k * 2 ^ a.f))
  (⟨r.1, fd⟩, n + r.2)

/-! ### Kinematics and dynamics (R301, R306, R308) -/

/-- Where a body stands: rotation, position, joint axis in the root frame. -/
structure Pose where
  r : List Fx
  p : List Fx
  z : List Fx
deriving DecidableEq, Repr

/-- No displacement. -/
def zero3 : List Fx := [Fx.zero, Fx.zero, Fx.zero]

/-- The root frame. -/
def rootPose : Pose := ⟨m3One, zero3, zero3⟩

/-- The poses of the bodies at q, parents first (R306: origin translation, origin rotation, motion); `fr` gives the classes' fraction counts. -/
def forwardPoses (fr : Nat → Nat) (bs : List Body) (q : List Fx) : FxM (List Pose) :=
  bs.foldlM (fun ps b => do
    let par := ps.getD b.parent rootPose
    let r0 ← keepAll (fr 15) (m3Mul par.r b.rot)
    let o ← keepAll (fr 1) (m3Vec par.r b.origin)
    let p0 ← keepAll (fr 1) (v3Add par.p o)
    let z ← keepAll (fr 15) (m3Vec r0 b.axis)
    let x := q.getD b.dof .zero
    if b.joint = 1 then do
      let m ← keepAll (fr 15) (m3Axis b.axis x)
      let r ← keepAll (fr 15) (m3Mul r0 m)
      pure (ps ++ [⟨r, p0, z⟩])
    else if b.joint = 2 then do
      let t ← keepAll (fr 1) (v3Scale x z)
      let p ← keepAll (fr 1) (v3Add p0 t)
      pure (ps ++ [⟨r0, p, z⟩])
    else pure (ps ++ [⟨r0, p0, z⟩])) []

/-- Whether body `a` is `b` or above it, going up at most `fuel` joints. -/
def isAbove (bs : List Body) (a : Nat) : Nat → Nat → Bool
  | 0, _ => false
  | fuel + 1, b => if a = b then true else match bs[b]? with
    | some x => isAbove bs a fuel x.parent
    | none => false

/-- Position of a frame. -/
def framePos (fr : Nat → Nat) (ps : List Pose) (f : TaskFrame) : FxM (List Fx) :=
  match ps[f.body]? with
  | some b => do
    let o ← keepAll (fr 1) (m3Vec b.r f.offset)
    keepAll (fr 1) (v3Add b.p o)
  | none => pure []

/-- The Jacobian of a frame at `pf`: six rows of `n` columns in class 10, linear rows first (R308). -/
def frameJac (fr : Nat → Nat) (bs : List Body) (ps : List Pose) (n : Nat) (f : TaskFrame) (pf : List Fx) : FxM (List (List Fx)) := do
  let cols ← (List.range n).mapM fun k =>
    match (bs.zip (List.range bs.length)).find? fun b => b.1.joint != 0 && b.1.dof == k with
    | none => pure (List.replicate 6 (⟨0, fr 10⟩ : Fx))
    | some (b, i) =>
      if !isAbove bs i bs.length f.body then pure (List.replicate 6 (⟨0, fr 10⟩ : Fx))
      else do
        let o := ps.getD i rootPose
        if b.joint = 2 then keepAll (fr 10) (o.z ++ zero3)
        else do
          let r ← keepAll (fr 1) (v3Sub pf o.p)
          keepAll (fr 10) (v3Cross o.z r ++ o.z)
  pure ((List.range 6).map fun r => cols.map fun c => c.getD r .zero)

/-- The inertia matrix of a body in the root frame. -/
def worldInertia (fr : Nat → Nat) (b : Body) (r : List Fx) : FxM (List Fx) := do
  let i := fun k => b.inertia.getD k .zero
  let x ← keepAll (fr 9) (m3Mul r [i 0, i 3, i 4, i 3, i 1, i 5, i 4, i 5, i 2])
  keepAll (fr 9) (m3Mul x (m3T r))

/-- The motion of a body. -/
structure Motion where
  w : List Fx
  al : List Fx
  a : List Fx
deriving DecidableEq, Repr

/-- The linear acceleration of a point at `r` from one that accelerates by `a`, on a body of motion `w`, `al`. -/
def pointAcc (fr : Nat → Nat) (a w al r : List Fx) : FxM (List Fx) := do
  let t ← keepAll (fr 5) (v3Cross al r)
  let v ← keepAll (fr 3) (v3Cross w r)
  let c ← keepAll (fr 5) (v3Cross w v)
  let s ← keepAll (fr 5) (v3Add t c)
  keepAll (fr 5) (v3Add a s)

/-- The motions of the bodies, parents first; the base accelerates by `-g`. -/
def motions (fr : Nat → Nat) (bs : List Body) (ps : List Pose) (grav qd qdd : List Fx) : FxM (List Motion) :=
  (bs.zip ps).foldlM (fun (acc : List Motion) bp => do
    let (b, po) := bp
    let par := acc.getD b.parent ⟨zero3, zero3, grav.map Fx.neg⟩
    let pp := ps.getD b.parent rootPose
    let v := qd.getD b.dof .zero
    let u := qdd.getD b.dof .zero
    let r ← keepAll (fr 1) (v3Sub po.p pp.p)
    let a ← pointAcc fr par.a par.w par.al r
    if b.joint = 1 then do
      let zv ← keepAll (fr 2) (v3Scale v po.z)
      let zu ← keepAll (fr 4) (v3Scale u po.z)
      let c ← keepAll (fr 4) (v3Cross par.w zv)
      let s ← keepAll (fr 4) (v3Add zu c)
      let w ← keepAll (fr 2) (v3Add par.w zv)
      let al ← keepAll (fr 4) (v3Add par.al s)
      pure (acc ++ [⟨w, al, a⟩])
    else if b.joint = 2 then do
      let zv ← keepAll (fr 3) (v3Scale v po.z)
      let zu ← keepAll (fr 5) (v3Scale u po.z)
      let c ← keepAll (fr 5) (v3Scale ⟨2, 0⟩ (v3Cross par.w zv))
      let s ← keepAll (fr 5) (v3Add zu c)
      let a ← keepAll (fr 5) (v3Add a s)
      pure (acc ++ [⟨par.w, par.al, a⟩])
    else pure (acc ++ [⟨par.w, par.al, a⟩])) []

/-- The force at and the torque about a body's origin that its own motion needs. The angular momentum inside, for which R304 has no class, is
kept exact (log 64). -/
def bodyWrench (fr : Nat → Nat) (b : Body) (po : Pose) (m : Motion) : FxM (List Fx × List Fx) := do
  let c ← keepAll (fr 1) (m3Vec po.r b.com)
  let ac ← pointAcc fr m.a m.w m.al c
  let f ← keepAll (fr 6) (v3Scale b.mass ac)
  let i ← worldInertia fr b po.r
  let t ← keepAll (fr 7) (m3Vec i m.al)
  let g ← keepAll (fr 7) (v3Cross m.w (m3Vec i m.w))
  let nn ← keepAll (fr 7) (v3Add t g)
  let cf ← keepAll (fr 7) (v3Cross c f)
  let s ← keepAll (fr 7) (v3Add nn cf)
  pure (f, s)

/-- A torque carried over to a point that lies `r` before it: the torque plus r × f. -/
def carryTorque (fr : Nat → Nat) (r f nn : List Fx) : FxM (List Fx) := do
  let rf ← keepAll (fr 7) (v3Cross r f)
  keepAll (fr 7) (v3Add nn rf)

/-- The forces of recursive Newton-Euler (R301, R308): the force along or torque about each joint, by degree of freedom. -/
def newtonEuler (fr : Nat → Nat) (bs : List Body) (grav q qd qdd : List Fx) (n : Nat) : FxM (List Fx) := do
  let ps ← forwardPoses fr bs q
  let ms ← motions fr bs ps grav qd qdd
  let wrench ← (bs.zip (ps.zip ms)).mapM fun x => bodyWrench fr x.1 x.2.1 x.2.2
  let total ← (List.range bs.length).reverse.foldlM (fun (acc : List (List Fx × List Fx)) i =>
    match bs[i]?, acc[i]? with
    | some b, some (f, nn) =>
      match acc[b.parent]? with
      | some (pf, pn) => do
        let r ← keepAll (fr 1) (v3Sub (ps.getD i rootPose).p (ps.getD b.parent rootPose).p)
        let t ← carryTorque fr r f nn
        let f' ← keepAll (fr 6) (v3Add pf f)
        let n' ← keepAll (fr 7) (v3Add pn t)
        pure (acc.set b.parent (f', n'))
      | none => pure acc
    | _, _ => pure acc) wrench
  (List.range n).mapM fun k =>
    match (bs.zip (List.range bs.length)).find? fun b => b.1.joint != 0 && b.1.dof == k with
    | none => pure .zero
    | some (b, i) =>
      let (f, nn) := total.getD i (zero3, zero3)
      let z := (ps.getD i rootPose).z
      if b.joint = 2 then Fx.keep (fr 6) (fxDot z f) else Fx.keep (fr 7) (fxDot z nn)

/-! ### The composite-rigid-body mass matrix (R301) -/

/-- A rigid body made of a body and those below it: mass, centre of mass, inertia about it, in the root frame. -/
structure Composite where
  m : Fx
  c : List Fx
  i : List Fx
deriving DecidableEq, Repr

/-- Join a composite to that of its parent: by the mean of the centres and the parallel-axis terms of both about it. -/
def Composite.join (fr : Nat → Nat) (p x : Composite) : FxM Composite := do
  let m ← Fx.keep (fr 8) (p.m.add x.m)
  let i ← keepAll (fr 9) (v3Add p.i x.i)
  if m.k = 0 then pure { p with m := m, i := i }
  else do
    let c ← ((p.c.zip x.c).mapM fun y => Fx.quot ((p.m.mul y.1).add (x.m.mul y.2)) m (fr 1))
    let d ← keepAll (fr 1) (v3Sub x.c p.c)
    let mu ← Fx.quot (p.m.mul x.m) m (fr 8)
    let g := fun k => d.getD k .zero
    let dd := fxDot d d
    let e := fun (k : Nat) => if k / 3 = k % 3 then dd.sub ((g (k / 3)).mul (g (k % 3))) else ((g (k / 3)).mul (g (k % 3))).neg
    let par ← keepAll (fr 9) ((List.range 9).map fun k => mu.mul (e k))
    let i ← keepAll (fr 9) (v3Add i par)
    pure ⟨m, c, i⟩

/-- The composites of the bodies, from the last body to the root. -/
def composites (fr : Nat → Nat) (bs : List Body) (ps : List Pose) : FxM (List Composite) := do
  let own ← (bs.zip ps).mapM fun x => do
    let o ← keepAll (fr 1) (m3Vec x.2.r x.1.com)
    let c ← keepAll (fr 1) (v3Add x.2.p o)
    let i ← worldInertia fr x.1 x.2.r
    pure (⟨x.1.mass, c, i⟩ : Composite)
  (List.range bs.length).reverse.foldlM (fun (acc : List Composite) i =>
    match bs[i]?, acc[i]? with
    | some b, some x =>
      match acc[b.parent]? with
      | some p => do
        let y ← p.join fr x
        pure (acc.set b.parent y)
      | none => pure acc
    | _, _ => pure acc) own

/-- Carry the force and torque of a unit acceleration from body `i` up to the root, at most `fuel` joints; what each joint above feels is an
entry of the column, in class 11. -/
def massClimb (fr : Nat → Nat) (bs : List Body) (ps : List Pose) (f : List Fx) : Nat → Nat → List Fx → List (Nat × Int) → FxM (List (Nat × Int))
  | 0, _, _, acc => pure acc
  | fuel + 1, i, nn, acc =>
    match bs[i]? with
    | none => pure acc
    | some b => do
      let z := (ps.getD i rootPose).z
      let h ← if b.joint = 0 then pure Fx.zero else Fx.keep (fr 11) (fxDot z (if b.joint = 2 then f else nn))
      let acc := if b.joint = 0 then acc else (b.dof, h.k) :: acc
      if bs.length ≤ b.parent then pure acc
      else do
        let r ← keepAll (fr 1) (v3Sub (ps.getD i rootPose).p (ps.getD b.parent rootPose).p)
        let nn ← carryTorque fr r f nn
        massClimb fr bs ps f fuel b.parent nn acc

/-- The mass matrix by rows, in class 11 (R301): column j is what a unit acceleration of dof j asks of the composite below it. -/
def massMatrix (fr : Nat → Nat) (bs : List Body) (q : List Fx) (n : Nat) : FxM (List (List Int)) := do
  let ps ← forwardPoses fr bs q
  let cs ← composites fr bs ps
  let cols ← (List.range n).mapM fun j =>
    match (bs.zip (List.range bs.length)).find? fun b => b.1.joint != 0 && b.1.dof == j with
    | none => pure []
    | some (b, i) =>
      match cs[i]?, ps[i]? with
      | some x, some po => do
        let r ← keepAll (fr 1) (v3Sub x.c po.p)
        let a ← if b.joint = 2 then pure po.z else keepAll (fr 5) (v3Cross po.z r)
        let f ← keepAll (fr 6) (v3Scale x.m a)
        let t ← if b.joint = 2 then pure zero3 else keepAll (fr 7) (m3Vec x.i po.z)
        let nn ← carryTorque fr r f t
        massClimb fr bs ps f bs.length i nn []
      | _, _ => pure []
  let at' := fun (i j : Nat) => ((cols.getD j []).find? fun e => e.1 == i).map (·.2)
  pure ((List.range n).map fun i => (List.range n).map fun j => ((at' i j).orElse fun _ => at' j i).getD 0)

end Sys2Proof.Machine
end

