-- ==== Sys2Proof/Machine/Mill.lean ====
section
/-! DEFINITION. The Mill (R299–R321): problem blocks, lanes and batches, direct and iterative kinds, deadline return. -/

namespace Sys2Proof.Machine
open Sys2Proof.Machine.Fp

/-- A record of the Mill (R320). -/
def Dev.millEvent (d : Dev) (j : Job) (code reason row idx : Nat) : Dev :=
  d.raiseFor j.tag code j.lane j.ctx j.gen
    (dAt 16 8 j.addr + dAt 24 1 j.kind + dAt 25 1 reason + dAt 26 1 row + dAt 28 4 idx)

/-- A record of the Mill about a job and no instance: the instance index is free (log 48). -/
def Dev.millNote (d : Dev) (j : Job) (code reason : Nat) : Dev :=
  let (i, d) := d.fresh
  d.millEvent j code reason 0xFF i

/-- Change the Mill. -/
def Dev.updMill (d : Dev) (f : MillState → MillState) : Dev := { d with mill := f d.mill }
/-- A resident slot. -/
def Dev.resSlot (d : Dev) (i : Nat) : ResSlot := SMap.get (fun _ => {}) d.mill.res i
/-- Set a resident slot. -/
def Dev.setRes (d : Dev) (i : Nat) (r : ResSlot) : Dev := d.updMill fun m => { m with res := SMap.set (fun _ => {}) m.res i r }
/-- The model of a slot: its MILL_MODEL section, empty for a slot without one (R307). -/
def Dev.millModel (d : Dev) (i : Nat) : List Byte := if d.plan.phase == .empty then [] else d.section 0x0B i
/-- Batch slots that a context holds (R316). -/
def Dev.millHeld (d : Dev) (ctx : Nat) : Nat := (d.engJobs 2).foldl (fun n j => if j.ctx = ctx then n + j.hold else n) 0

/-! ### The problem block (R302) -/

/-- The fraction count of a class. -/
def pbFrac (b : List Byte) (c : Nat) : Nat := leAt b (80 + c) 1
/-- warm. -/
def pbWarm (b : List Byte) : Bool := (leAt b 1 1).testBit 0
/-- FP32 inputs. -/
def pbFpIn (b : List Byte) : Bool := (leAt b 1 1).testBit 1
/-- FP32 outputs. -/
def pbFpOut (b : List Byte) : Bool := (leAt b 1 1).testBit 2
/-- reset. -/
def pbReset (b : List Byte) : Bool := (leAt b 1 1).testBit 3
/-- count. -/
def pbCount (b : List Byte) : Nat := leAt b 4 2
/-- A signed word of the block. -/
def pbWord (b : List Byte) (o : Nat) : Int := toSigned 32 (leAt b o 4)

/-- Sizes of a problem: bodies, unknowns, frames, rows. -/
structure MillSize where
  bodies : Nat
  n : Nat
  frames : Nat
  m : Nat
deriving DecidableEq, Repr

/-- The sizes that a job works with: the model's, or the resident slot's (after a reset). -/
def Dev.millSize (d : Dev) (kind : Nat) (b : List Byte) : MillSize :=
  if kind = 5 then
    let r := d.resSlot (leAt b 2 1)
    if pbReset b then ⟨0, leAt b 7 1, 0, leAt b 6 1⟩ else ⟨0, r.n, 0, r.m⟩
  else
    let s := d.millModel (leAt b 2 1)
    ⟨leAt s 8 1, leAt s 9 1, leAt s 10 1, leAt s 11 1⟩

/-- Words of an input record (R308). -/
def inWords (kind : Nat) (z : MillSize) : Nat :=
  match kind with
  | 1 => z.n
  | 2 => 3 * z.n
  | 3 => 3 * z.n
  | 4 => z.n + 8 * z.frames
  | _ => 0

/-- Words of an output payload (R308). -/
def payWords (kind : Nat) (z : MillSize) : Nat := if kind = 1 then z.frames * (12 + 6 * z.n) else z.n

/-- The reason for which a job ends before it reads an input record (R303); 0 for none. -/
def Dev.millReason (d : Dev) (j : Job) (b : List Byte) : Nat :=
  let k := j.kind
  let z := d.millSize k b
  let iter := k == 4 || k == 5
  let count := pbCount b
  let lsq := k == 5
  let reset := lsq && pbReset b
  let slot := leAt b 2 1
  let res := d.resSlot slot
  let range := j.addr % 128 != 0 || decide (15 < slot) || (iter && leAt b 3 1 == 0) || (!iter && leAt b 3 1 != 0)
    || decide (count = 0 ∨ 1024 < count) || (decide (1 < count) && j.lane != 4)
    || (reset && decide (leAt b 6 1 = 0 ∨ 128 < leAt b 6 1 ∨ leAt b 7 1 = 0 ∨ 64 < leAt b 7 1))
    || (!reset && (leAt b 6 1 != 0 || leAt b 7 1 != 0))
    || leAt b 8 8 % 4 != 0 || leAt b 16 4 % 4 != 0 || leAt b 20 4 % 32 != 0 || leAt b 24 8 % 32 != 0
    || (pbWarm b && leAt b 32 8 % 8 != 0) || leAt b 40 4 % 8 != 0 || leAt b 48 8 % 8 != 0 || decide (16384 < leAt b 56 4)
    || decide (pbWord b 60 < 1) || decide (pbWord b 64 < 0) || decide (pbWord b 68 < 0) || decide (pbWord b 72 < 0)
    || decide (leAt b 16 4 < 4 * inWords k z) || decide (leAt b 20 4 < 32 + 4 * payWords k z)
    || (pbWarm b && decide (1 < count) && decide (leAt b 40 4 < 8 + 4 * z.n))
  if k = 0 ∨ 5 < k ∨ leAt b 0 1 ≠ k ∨ 16 ≤ leAt b 1 1 ∨ (pbReset b ∧ !lsq) ∨ !allZero ((b.drop 112).take 8) then 1
  else if !lsq && (d.millModel slot).isEmpty then 2
  else if range then 4
  else if (List.range 16).any (fun c => decide (31 < pbFrac b c)) || pbFrac b 15 != 30 then 5
  else if lsq && ((!reset && !res.valid) || (res.valid && res.owner != j.ctx) || (decide (j.lane < 4) && slot / 4 != j.lane)
      || (j.lane == 4 && (slot / 4 != 0 || decide (1 < count)))) then 6
  else 0

/-! ### Costs (R317) -/

/-- The parts of an instance's cost in C clocks. -/
structure MillCost where
  pre : Nat
  res0 : Nat
  step : Nat
  whole : Nat
  wr : Nat
deriving DecidableEq, Repr

/-- Costs of an instance: `res0` the first residual, `step` each further one, `whole` all of it, `wr` the writing. -/
def millCost (kind nIter : Nat) (b : List Byte) (z : MillSize) : MillCost :=
  let warm := if pbWarm b then z.n + 2 else 0
  let rhs := if kind = 5 ∧ leAt b 104 8 ≠ 0 then z.m else 0
  let rd := 60 + (inWords kind z + warm + rhs + 15) / 16
  let wr := 60 + (8 + payWords kind z + warm + rhs + 15) / 16
  let fk := 20 + 40 * z.bodies + 4 * z.n * z.frames
  let rows := 8 + z.m
  let form := (z.m * z.n * (z.n + 1) + 31) / 32
  let fact := (z.n * z.n * z.n + 95) / 96 + 12 * z.n
  let solve := (z.n * z.n + 15) / 16 + 5 * z.n + 8
  let ax := (z.m * z.n + 15) / 16
  match kind with
  | 1 => ⟨rd, 0, 0, rd + fk + wr, wr⟩
  | 2 => ⟨rd, 0, 0, rd + 20 + 90 * z.bodies + wr, wr⟩
  | 3 => ⟨rd, 0, 0, rd + 20 + 90 * z.bodies + (6 * z.n * z.n + 15) / 16 + fact + solve + wr, wr⟩
  | 4 =>
    let r0 := rd + fk + rows
    let st := fk + rows + form + fact + solve
    ⟨rd, r0, st, r0 + nIter * st + wr, wr⟩
  | _ =>
    let r0 := rd + 20 + leAt b 56 4 + form + fact + ax + rows
    let st := ax + rows + ax + solve
    ⟨rd, r0, st, r0 + nIter * st + wr, wr⟩

/-- How far an iterative instance that starts at `start` gets by the cut-off: the last residual evaluated, none when not even
the first fits (R313). -/
def lastResidual (c : MillCost) (nIter start cut : Nat) : Option Nat :=
  if cut < start + c.res0 then none
  else some (min nIter (if c.step = 0 then nIter else (cut - start - c.res0) / c.step))

/-! ### Instances -/

/-- What an instance writes: residual, steps, index of the iterate, pivots, saturations, flags of R315, payload words with their
fraction counts, the best iterate for the warm record. -/
structure MillOut where
  resid : Int := 0
  iters : Nat := 0
  best : Nat := 0
  first : Option Nat := none
  small : Nat := 0
  sat : Nat := 0
  flags : Nat := 0
  pay : List (Int × Nat) := []
  warm : Option (List Int) := none
deriving DecidableEq, Repr

/-- What an iteration keeps. -/
structure IterAcc where
  x : List Int
  best : Int × Nat × List Int
  sat : Nat
  first : Option Nat
  small : Nat
deriving DecidableEq, Repr

/-- Evaluate residuals 0 to `last`, with a step between each two; the smallest residual wins, on a tie the lower (R312). -/
def iterate (last : Nat) (x0 : List Int) (eval : List Int → Int × Nat) (step : List Int → List Int × Nat × Option Nat × Nat) : IterAcc :=
  let e0 := eval x0
  (List.range last).foldl (fun a k =>
    let (x, s, f, m) := step a.x
    let e := eval x
    { x := x, best := if e.1 < a.best.1 then (e.1, k + 1, x) else a.best, sat := a.sat + s + e.2,
      first := a.first.orElse fun _ => f, small := a.small + m }) { x := x0, best := (e0.1, 0, x0), sat := e0.2, first := none, small := 0 }

/-- The largest magnitude among words, saturated (R310). -/
def maxAbs (l : List Int) : Int := l.foldl (fun m x => max m (min (x.natAbs : Int) 0x7FFFFFFF)) 0

/-- H = Jᵀ(W J) + mu I by rows up to the diagonal (R310), from rows of J or A and weights. -/
def normalEqs (b : List Byte) (rows : List (List Int)) (w : List Int) (n : Nat) : List (List Int) × Nat :=
  let f := pbFrac b
  let wj := (rows.zip w).map fun x => x.1.map fun v => (⟨v * x.2, f 10 + f 13⟩ : Fx).to (f 10)
  let s0 := wj.foldl (fun s r => r.foldl (fun s x => s + x.2) s) 0
  let col := fun c => rows.map fun r => r.getD c 0
  let wcol := fun c => wj.map fun r => (r.getD c (0, 0)).1
  let h := (List.range n).map fun i => (List.range (i + 1)).map fun c =>
    let v := longDot (col i) (f 10) (wcol c) (f 10) (f 11)
    if c = i then
      let r := sat32 (v.1 + pbWord b 68)
      (r.1, v.2 + r.2)
    else v
  (h.map fun r => r.map (·.1), s0 + h.foldl (fun s r => r.foldl (fun s x => s + x.2) s) 0)

/-- The weighted errors (class 14). -/
def weighted (b : List Byte) (w e : List Int) : Words :=
  let rs := (w.zip e).map fun x => (⟨x.1 * x.2, pbFrac b 13 + pbFrac b 14⟩ : Fx).to (pbFrac b 14)
  (rs.map (·.1), rs.foldl (fun n r => n + r.2) 0)

/-- g = Jᵀ(W e) in class 12. -/
def gradient (b : List Byte) (rows : List (List Int)) (we : List Int) (n : Nat) : Words :=
  let rs := (List.range n).map fun c => longDot (rows.map fun r => r.getD c 0) (pbFrac b 10) we (pbFrac b 14) (pbFrac b 12)
  (rs.map (·.1), rs.foldl (fun n r => n + r.2) 0)

/-- x + d clamped, each unknown in its own class. -/
def addClamp (fd : Nat) (fx : Nat → Nat) (lo hi x dx : List Int) : Words :=
  let rs := (List.range x.length).map fun i =>
    let r := ((⟨x.getD i 0, fx i⟩ : Fx).add ⟨dx.getD i 0, fd⟩).to (fx i)
    ((fxClamp (lo.getD i 0) (hi.getD i 0) r.1).1, r.2)
  (rs.map (·.1), rs.foldl (fun n r => n + r.2) 0)

/-! ### Whole-body inverse kinematics (R310) -/

/-- The fraction count of each degree of freedom for a revolute class `a` and a prismatic class `p`. -/
def dofFrac (b : List Byte) (ds : List Body) (a p : Nat) (k : Nat) : Nat :=
  match ds[k]? with
  | some x => if x.joint = 2 then pbFrac b p else pbFrac b a
  | none => pbFrac b a

/-- The rotation matrix of a target quaternion, its entries in class 15. -/
def quatMat (q : List Fx) : FxM (List Fx) :=
  let g := fun i => q.getD i Fx.zero
  let p := fun i j => (g i).mul (g j)
  let two : Fx := ⟨2, 0⟩
  let one : Fx := ⟨1, 0⟩
  let dg := fun i j => one.sub (two.mul ((p i i).add (p j j)))
  let ad := fun i j k l => two.mul ((p i j).add (p k l))
  let sb := fun i j k l => two.mul ((p i j).sub (p k l))
  keepAll 30 [dg 2 3, sb 1 2 0 3, ad 1 3 0 2, ad 1 2 0 3, dg 1 3, sb 2 3 0 1, sb 1 3 0 2, ad 2 3 0 1, dg 1 2]

/-- A task of WBIK: frame, target position, target rotation, weight word. -/
abbrev Task := TaskFrame × List Fx × List Fx × Int

/-- The rows of one task: Jacobian row (class 10), weight, error (class 14): the position row of p_t − p, or the rotation row of vee(R_t Rᵀ). -/
def taskRow (b : List Byte) (bs : List Body) (n : Nat) (ps : List Pose) (t : Task) : FxM (List (List Int × Int × Int)) := do
  let (f, pt, rt, w) := t
  let fr := pbFrac b
  let pf ← framePos fr ps f
  let jac ← frameJac fr bs ps n f pf
  let r := (ps.getD f.body rootPose).r
  let mm ← keepAll (fr 15) (m3Mul rt (m3T r))
  let g := fun i => mm.getD i Fx.zero
  let half : Fx := ⟨1, 1⟩
  let es := v3Sub pt pf ++ [half.mul ((g 7).sub (g 5)), half.mul ((g 2).sub (g 6)), half.mul ((g 3).sub (g 1))]
  ((List.range 6).filter fun i => f.mask.testBit i).mapM fun i => do
    let e ← Fx.keep (fr 14) (es.getD i .zero)
    pure ((jac.getD i []).map (·.k), w, e.k)

/-- The task rows at q: Jacobian rows (class 10), weights, errors (class 14), saturations. -/
def taskRows (b : List Byte) (bs : List Body) (n : Nat) (tasks : List Task) (q : List Fx) : List (List Int) × List Int × List Int × Nat :=
  let r := (do
    let ps ← forwardPoses (pbFrac b) bs q
    let rows ← tasks.mapM (taskRow b bs n ps)
    pure rows.flatten : FxM (List (List Int × Int × Int))) 0
  (r.1.map (·.1), r.1.map (·.2.1), r.1.map (·.2.2), r.2)

/-! ### One instance -/

/-- Read and convert `n` input words with their fraction counts. -/
def inputWords (b : List Byte) (raw : List Byte) (fs : List Nat) : Words :=
  let rs := (fs.zip (List.range fs.length)).map fun x => fxInput (pbFpIn b) x.1 (leAt raw (4 * x.2) 4)
  (rs.map (·.1), rs.foldl (fun n r => n + r.2) 0)

/-- Clamp inputs to the model's limits, converted to the problem's classes (R305). -/
def clampInputs (lim : List (Fx × Fx × Nat)) (xs : List Int) : Words :=
  let rs := (xs.zip lim).map fun x => fxClamp (x.2.1.to x.2.2.2).1 (x.2.2.1.to x.2.2.2).1 x.1
  (rs.map (·.1), (rs.filter (·.2)).length)

/-- A direct kind's payload (R301, R308): words with fraction counts, saturations, INPUT_CLAMP, pivots. -/
def directOut (kind : Nat) (b sec raw : List Byte) : MillOut :=
  let bs := modelBodies sec
  let n := leAt sec 9 1
  let ds := dofBody bs n
  let f := pbFrac b
  let fq := dofFrac b ds 0 1
  let fv := dofFrac b ds 2 3
  let fa := dofFrac b ds 4 5
  let ft := dofFrac b ds 7 6
  let idx := List.range n
  let fs := idx.map fq ++ (if kind = 1 then [] else idx.map fv ++ if kind = 2 then idx.map fa else idx.map ft)
  let ins := inputWords b raw fs
  let sym := fun (x : Fx) (f : Nat) => (x.neg, x, f)
  let lims := (ds.zip idx).map (fun x => (x.1.qMin, x.1.qMax, fq x.2))
    ++ (ds.zip idx).map (fun x => sym x.1.qdMax (fv x.2))
    ++ (if kind = 2 then (ds.zip idx).map (fun x => sym x.1.qddMax (fa x.2)) else (ds.zip idx).map (fun x => sym x.1.tauMax (ft x.2)))
  let cl := clampInputs lims ins.1
  let fx := (cl.1.zip fs).map fun x => (⟨x.1, x.2⟩ : Fx)
  let q := fx.take n
  let sat0 := ins.2 + cl.2
  let grav := (List.range 3).map fun i => fx1 sec (28 + 4 * i) (leAt sec 17 1)
  let done := fun (w : Words) (fr : List Nat) (o : MillOut) =>
    { o with sat := o.sat + sat0 + w.2, pay := w.1.zip fr, flags := if cl.2 = 0 then 0 else 32 : MillOut }
  match kind with
  | 1 =>
    let kin := (do
      let ps ← forwardPoses f bs q
      let xs ← (modelFrames sec).mapM fun t => do
        let p ← framePos f ps t
        let j ← frameJac f bs ps n t p
        pure (p.map (fun x => (x, f 1)) ++ ((ps.getD t.body rootPose).r).map (fun x => (x, f 15)) ++ j.flatMap fun r => r.map fun x => (x, f 10))
      pure xs.flatten : FxM (List (Fx × Nat))) 0
    done (Words.app (roundAll kin.1) ([], kin.2)) (kin.1.map (·.2)) {}
  | 2 =>
    let tau := newtonEuler f bs grav q ((fx.drop n).take n) (fx.drop (2 * n)) n 0
    done (Words.app (roundAll ((tau.1.zip idx).map fun x => (x.1, ft x.2))) ([], tau.2)) (idx.map ft) {}
  | _ =>
    let h := massMatrix f bs q n 0
    let bias := newtonEuler f bs grav q ((fx.drop n).take n) (List.replicate n .zero) n 0
    let fz := Config.millSolveFrac
    let rhs := roundAll ((fx.drop (2 * n)).zip bias.1 |>.map fun x => (x.1.sub x.2, fz))
    let t := ldlFactor (f 11) (pbWord b 60) (pbWord b 64) ((h.1.zip idx).map fun r => r.1.take (r.2 + 1))
    let x := t.solve (f 11) fz rhs.1 fa
    done x (idx.map fa) { sat := t.sat + rhs.2 + h.2 + bias.2, first := t.first, small := t.small }

/-- The starting point with a warm record (R314): the iterate, the flags WARM_REJECT or WARM_USED, the words that saturated on the way to
their class. -/
def warmStart (b warmRec : List Byte) (sig n : Nat) (fx : Nat → Nat) (lo hi cold : List Int) : List Int × Nat × Nat :=
  if !pbWarm b then (cold, 0, 0)
  else if leAt warmRec 0 8 ≠ sig then (cold, 4, 0)
  else
    let ws := (List.range n).map fun i => (⟨toSigned 32 (leAt warmRec (8 + 4 * i) 4), pbFrac b 12⟩ : Fx).to (fx i)
    (((ws.map (·.1)).zip (List.range n)).map fun x => (fxClamp (lo.getD x.2 0) (hi.getD x.2 0) x.1).1, 64, ws.foldl (fun s w => s + w.2) 0)

/-- The output of an iteration that got to residual `last` (none: not even the first), of `nIter` (R312, R313). -/
def iterOut (b : List Byte) (nIter : Nat) (last : Option Nat) (x0 : List Int) (fx : Nat → Nat)
    (eval : List Int → Int × Nat) (step : List Int → List Int × Nat × Option Nat × Nat) : MillOut :=
  let words := fun (x : List Int) => (x.zip (List.range x.length)).map fun y => (y.1, fx y.2)
  let warm := fun (x : List Int) => roundAll ((words x).map fun y => ((⟨y.1, y.2⟩ : Fx), pbFrac b 12))
  let keep := fun (x : List Int) (o : MillOut) =>
    if pbWarm b then { o with warm := some (warm x).1, sat := o.sat + (warm x).2 : MillOut } else o
  match last with
  | none => keep x0 { resid := 0x7FFFFFFF, flags := 8, pay := words x0 }
  | some k =>
    let a := iterate k x0 eval step
    let (r, i, x) := a.best
    keep x { resid := r, iters := k, best := i, first := a.first, small := a.small, sat := a.sat, pay := words x,
             flags := (if k < nIter then 8 else 0) + (if r ≤ pbWord b 72 then 16 else 0) }

/-- WBIK on one instance (R310). -/
def wbikOut (b sec raw warmRec : List Byte) (last : Option Nat) : MillOut :=
  let bs := modelBodies sec
  let n := leAt sec 9 1
  let ds := dofBody bs n
  let f := pbFrac b
  let fq := dofFrac b ds 0 1
  let frames := modelFrames sec
  let fs := (List.range n).map fq ++ frames.flatMap fun _ => [f 1, f 1, f 1, f 15, f 15, f 15, f 15, f 13]
  let ins := inputWords b raw fs
  let lo := (ds.zip (List.range n)).map fun x => (x.1.qMin.to (fq x.2)).1
  let hi := (ds.zip (List.range n)).map fun x => (x.1.qMax.to (fq x.2)).1
  let cl := clampInputs ((ds.zip (List.range n)).map fun x => (x.1.qMin, x.1.qMax, fq x.2)) (ins.1.take n)
  let (tasks, qs) := ((frames.zip (List.range frames.length)).mapM fun x => do
    let o := n + 8 * x.2
    let w := fun i fr => (⟨ins.1.getD (o + i) 0, fr⟩ : Fx)
    let m ← quatMat [w 3 (f 15), w 4 (f 15), w 5 (f 15), w 6 (f 15)]
    pure (x.1, [w 0 (f 1), w 1 (f 1), w 2 (f 1)], m, ins.1.getD (o + 7) 0) : FxM (List Task)) 0
  let toFx := fun (x : List Int) => (x.zip (List.range n)).map fun y => (⟨y.1, fq y.2⟩ : Fx)
  let (x0, wf, ws) := warmStart b warmRec (leAt sec 0 8) n fq lo hi cl.1
  let eval := fun (x : List Int) =>
    let (_, w, e, s) := taskRows b bs n tasks (toFx x)
    let we := weighted b w e
    (maxAbs we.1, s + we.2)
  let step := fun (x : List Int) =>
    let (rows, w, e, _) := taskRows b bs n tasks (toFx x)
    let (h, s1) := normalEqs b rows w n
    let g := gradient b rows (weighted b w e).1 n
    let t := ldlFactor (f 11) (pbWord b 60) (pbWord b 64) h
    let dx := t.solve (f 11) (f 12) g.1 (fun _ => f 12)
    let r := addClamp (f 12) fq lo hi x dx.1
    (r.1, s1 + g.2 + t.sat + dx.2 + r.2, t.first, t.small)
  let o := iterOut b (leAt b 3 1) last x0 fq eval step
  { o with sat := o.sat + ins.2 + cl.2 + qs + ws,
           flags := o.flags + wf + if cl.2 = 0 then 0 else 32 }

/-- LSQ on a resident slot (R310); `rhs` stands for its b, `sat0` counts the saturations of its inputs. -/
def lsqOut (b : List Byte) (r : ResSlot) (sat0 : Nat) (rhs : List Int) (warmRec : List Byte) (last : Option Nat) : MillOut :=
  let f := pbFrac b
  let fx := fun (_ : Nat) => f 12
  let rows := (List.range r.m).map fun i => (r.a.drop (i * r.n)).take r.n
  let cold := (List.range r.n).map fun i => (fxClamp (r.lo.getD i 0) (r.hi.getD i 0) 0).1
  let (x0, wf, ws) := warmStart b warmRec r.sig r.n fx r.lo r.hi cold
  let errs := fun (x : List Int) =>
    let es := (rows.zip rhs).map fun y =>
      ((⟨y.2, f 14⟩ : Fx).sub ⟨(y.1.zip x).foldl (fun s z => s + z.1 * z.2) 0, f 10 + f 12⟩).to (f 14)
    ((es.map (·.1), es.foldl (fun n e => n + e.2) 0) : Words)
  let (h, s1) := normalEqs b rows r.w r.n
  let t := ldlFactor (f 11) (pbWord b 60) (pbWord b 64) h
  let eval := fun (x : List Int) =>
    let e := errs x
    let we := weighted b r.w e.1
    (maxAbs we.1, e.2 + we.2)
  let step := fun (x : List Int) =>
    let g := gradient b rows (weighted b r.w (errs x).1).1 r.n
    let dx := t.solve (f 11) (f 12) g.1 fx
    let y := addClamp (f 12) fx r.lo r.hi x dx.1
    (y.1, g.2 + dx.2 + y.2, none, 0)
  let o := iterOut b (leAt b 3 1) last x0 fx eval step
  { o with sat := o.sat + sat0 + ws + s1 + t.sat, flags := o.flags + wf, first := t.first, small := t.small }

/-- The 32-byte header of an output record (R315). -/
def millHeader (b : List Byte) (sig : Nat) (o : MillOut) : List Byte :=
  let fl := o.flags + b2n (o.sat != 0) + 2 * b2n (o.small != 0)
  leBytes 4 (ofSigned 32 o.resid) ++ leBytes 1 o.iters ++ leBytes 1 o.best ++ leBytes 1 (o.first.getD 0xFF) ++ leBytes 1 (min o.small 255)
    ++ leBytes 2 fl ++ leBytes 1 (min o.sat 255) ++ [0] ++ leBytes 4 (leAt b 76 4) ++ leBytes 8 sig ++ leBytes 8 0

/-- Write an instance's records and count it (R315, R314, R321). -/
def Dev.writeInstance (d : Dev) (j : Job) (b : List Byte) (sig i : Nat) (o : MillOut) : Dev × Bool :=
  let pay := o.pay.flatMap fun x => leBytes 4 (fxOutput (pbFpOut b) x.2 x.1)
  let (d, ok) := d.jobWrite j (leAt b 24 8 + i * leAt b 20 4) (millHeader b sig o ++ pay)
  let (d, ok) := match ok, o.warm with
    | true, some x =>
      if pbWarm b then d.jobWrite j (leAt b 32 8 + i * leAt b 40 4) (leBytes 8 sig ++ x.flatMap fun v => leBytes 4 (ofSigned 32 v)) else (d, true)
    | ok, _ => (d, ok)
  if !ok then (d, false)
  else
    let row := o.first.getD 0xFF
    let d := (d.bumpFor j.tag R.MILL_INSTANCES).bumpFor j.tag R.MILL_ITERATIONS o.iters
    let note := fun (d : Dev) (on : Bool) (r code : Nat) => if on then (d.bumpFor j.tag r).millEvent j code 0 row i else d
    let d := note d (o.sat != 0) R.MILL_SAT 0x0602
    let d := note d (o.small != 0) R.MILL_PIVOT_SMALL 0x0603
    let d := note d (o.flags.testBit 2) R.MILL_WARM_REJECT 0x0604
    (note d (o.flags.testBit 3) R.MILL_DEADLINE 0x0605, true)

/-- The absolute C clock of the cut-off's base D (R313): the deadline in the period of acceptance, or the window end. -/
def millDeadline (j : Job) (b : List Byte) : Nat :=
  let dl := j.notes.getD 1 0 + leAt b 44 4
  if leAt b 44 4 = 0 ∨ j.winEnd < dl then j.winEnd else dl

/-- Run instance `i` from clock `start`, `sat0` values of whose delta list saturated: the clock at which its lane is free, whether it stopped for the deadline, success. -/
def Dev.millInstance (d : Dev) (j : Job) (b : List Byte) (z : MillSize) (sat0 i start : Nat) : Dev × Nat × Bool × Bool :=
  let nIter := leAt b 3 1
  let c := millCost j.kind nIter b z
  let dl := millDeadline j b
  let sec := d.millModel (leAt b 2 1)
  let (d, raw) := d.jobRead j (leAt b 8 8 + i * leAt b 16 4) (4 * inWords j.kind z)
  let (d, wr) := if pbWarm b && decide (4 ≤ j.kind) then d.jobRead j (leAt b 32 8 + i * leAt b 40 4) (8 + 4 * z.n) else (d, some [])
  match raw, wr with
  | some raw, some wr =>
    if j.kind ≤ 3 then
      if dl < start + c.whole then
        let o : MillOut := { flags := 8, pay := List.replicate (payWords j.kind z) (0, 0) }
        let (d, ok) := d.writeInstance j b (leAt sec 0 8) i o
        (d, max start dl, true, ok)
      else
        let (d, ok) := d.writeInstance j b (leAt sec 0 8) i (directOut j.kind b sec raw)
        (d, start + c.whole, false, ok)
    else
      let last := lastResidual c nIter start (dl - c.wr)
      let fin := match last with
        | some k => start + c.res0 + k * c.step + c.wr
        | none => max start dl
      if j.kind = 4 then
        let (d, ok) := d.writeInstance j b (leAt sec 0 8) i (wbikOut b sec raw wr last)
        (d, fin, last != some nIter, ok)
      else
        let r := d.resSlot (leAt b 2 1)
        let (d, rhs) := if leAt b 104 8 = 0 then (d, some (r.b, 0))
          else match d.jobRead j (leAt b 104 8) (4 * r.m) with
            | (d, none) => (d, none)
            | (d, some x) => (d, some (inputWords b x (List.replicate r.m (pbFrac b 14))))
        match rhs with
        | none => (d, fin, false, false)
        | some rhs =>
          let (d, ok) := d.writeInstance j b r.sig i (lsqOut b r (sat0 + rhs.2) rhs.1 wr last)
          (d, fin, last != some nIter, ok)
  | _, _ => (d, start, false, false)

/-- The value of an entry of a delta list in the class of its array, and whether it saturated (R305, R309). -/
def deltaValue (b e : List Byte) : Int × Nat :=
  let arr := leAt e 0 1
  fxInput (pbFpIn b) (pbFrac b (if arr = 0 then 10 else if arr = 1 then 14 else if arr = 2 then 13 else 12)) (leAt e 4 4)

/-- One entry of a delta list applied to a resident slot; none for a bad entry (R309). -/
def ResSlot.delta (r : ResSlot) (b e : List Byte) : Option ResSlot :=
  let col := leAt e 1 1
  let row := leAt e 2 2
  let v := (deltaValue b e).1
  match leAt e 0 1 with
  | 0 => if row < r.m ∧ col < r.n then some { r with a := r.a.set (row * r.n + col) v } else none
  | 1 => if row < r.m ∧ col = 0 then some { r with b := r.b.set row v } else none
  | 2 => if row < r.m ∧ col = 0 then some { r with w := r.w.set row v } else none
  | 3 => if row < r.n ∧ col = 0 then some { r with lo := r.lo.set row v } else none
  | 4 => if row < r.n ∧ col = 0 then some { r with hi := r.hi.set row v } else none
  | _ => none

/-- Reset and delta feed of an LSQ job (R309): the code 3 or 4 on failure, and the values that saturated. -/
def Dev.lsqFeed (d : Dev) (j : Job) (b : List Byte) : Dev × Nat × Nat :=
  let slot := leAt b 2 1
  let d := if pbReset b then
      let m := leAt b 6 1
      let n := leAt b 7 1
      d.setRes slot { valid := true, m := m, n := n, sig := leAt b 96 8, owner := j.ctx, a := List.replicate (m * n) 0,
                      b := List.replicate m 0, w := List.replicate m 0, lo := List.replicate n (-0x80000000), hi := List.replicate n 0x7FFFFFFF }
    else d
  (List.range (leAt b 56 4)).foldl (fun (acc : Dev × Nat × Nat) i =>
    if acc.2.1 ≠ 0 then acc
    else match acc.1.jobRead j (leAt b 48 8 + 8 * i) 8 with
      | (d, none) => (d, 3, acc.2.2)
      | (d, some e) =>
        match (d.resSlot slot).delta b e with
        | some r => (d.setRes slot r, 0, acc.2.2 + (deltaValue b e).2)
        | none => (d.setRes slot { d.resSlot slot with valid := false }, 4, acc.2.2)) (d, 0, 0)

/-- The lanes that a queue's jobs run on: its own, or all four for the batch queue (R299). -/
def queueLanes (q : Nat) : List Nat := if q = 4 then [0, 1, 2, 3] else [q]

/-- The instances of a job are worked, each lane one after the other (R300, R303); `free` is the clock at which its lanes are free. -/
def Dev.millWork (d : Dev) (j : Job) (b : List Byte) (q kind sat0 free : Nat) : Dev :=
  let z := d.millSize kind b
  let start := if q = 4 then free + 40 else free
  -- per lane: its clock, whether it stopped
  let lanes : SMap (Nat × Bool) := []
  let def' := fun (_ : Nat) => (start, false)
  let (res, ok) := tryFor (pbCount b) (d, lanes, 0) fun i (st : Dev × SMap (Nat × Bool) × Nat) =>
    let lane := if q = 4 then i % 4 else q
    let (clk, stopped) := SMap.get def' st.2.1 lane
    if stopped then (st, true)
    else
      let (d, clk, stop, ok) := st.1.millInstance j b z sat0 i clk
      ((d, SMap.insert st.2.1 lane (clk, stop), if ok then st.2.2 + 1 else st.2.2), ok)
  let fin := res.2.1.foldl (fun m l => max m l.2.1) start
  let d := res.1.updMill fun m => { m with laneFree := (queueLanes q).foldl (fun l x => SMap.set (fun _ => 0) l x fin) m.laneFree }
  d.jobRan j (if ok then 0 else 3) [res.2.2, fin]

/-- The C clock at which the first batch job could start: when it is accepted and the work known so far on the lanes is done. -/
def Dev.batchFrom (d : Dev) (j : Job) : Nat :=
  (queueLanes 4).foldl (fun m l => max m (SMap.get (fun _ => 0) d.mill.laneFree l)) j.acceptAt

/-- Whether the first job of a queue has its turn (R300). A batch job waits until no lane job runs or was accepted before it could start; a lane
job waits for a batch job that runs, or that could start before the lane job was accepted. -/
def Dev.millTurn (d : Dev) (q : Nat) (j : Job) : Bool :=
  if q = 4 then
    (List.range 4).all fun l => (d.laneJobs 2 l).all fun x => !x.ran && decide (d.batchFrom j < x.acceptAt)
  else match d.laneJobs 2 4 with
    | b :: _ => !b.ran && decide (j.acceptAt ≤ d.batchFrom b)
    | [] => true

/-- Start the job at the head of a queue, when it is of this kind and its lanes are free (R300), and run its instances. The
notes keep what R303 reports: instances written, and the C clock of the end. -/
def Dev.millRun (d : Dev) (q kind : Nat) : Dev :=
  match d.headToRun 2 q with
  | none => d
  | some j =>
    if j.kind ≠ kind || d.flag F.MILL_STATUS_recovering || !d.millTurn q j then d
    else match d.jobRead j j.addr 128 with
      | (d, none) => d.jobRan j 3 [0, d.cclk]
      | (d, some b) =>
        let r := d.millReason j b
        let free := (queueLanes q).foldl (fun m l => max m (SMap.get (fun _ => 0) d.mill.laneFree l)) j.acceptAt
        if r ≠ 0 then d.jobRan j r [0, free]
        else if kind = 5 ∧ j.tag.isSome ∧ (pbReset b ∨ leAt b 56 4 ≠ 0) then d.jobRan j 3 [0, free]
        else
          let (d, fr, sat0) := if kind = 5 then d.lsqFeed j b else (d, 0, 0)
          if fr ≠ 0 then d.jobRan j fr [0, free] else d.millWork j b q kind sat0 free

/-- KIN (R301, R308). -/
def execKin (q : BitVec 3) (s : State) : Host.Outcome State Fault Refusal := s.withDev fun d => d.millRun q.toNat 1
/-- INVDYN (R301, R308). -/
def execInvdyn (q : BitVec 3) (s : State) : Host.Outcome State Fault Refusal := s.withDev fun d => d.millRun q.toNat 2
/-- FWDDYN (R301, R308, R311). -/
def execFwddyn (q : BitVec 3) (s : State) : Host.Outcome State Fault Refusal := s.withDev fun d => d.millRun q.toNat 3
/-- WBIK (R310–R314). -/
def execWbik (q : BitVec 3) (s : State) : Host.Outcome State Fault Refusal := s.withDev fun d => d.millRun q.toNat 4
/-- LSQ (R309–R314). -/
def execLsq (q : BitVec 3) (s : State) : Host.Outcome State Fault Refusal := s.withDev fun d => d.millRun q.toNat 5

/-- The status words of a problem block (R302). -/
def millStatusWords (written status : Nat) : List Byte := leBytes 4 written ++ leBytes 4 status

/-- A job ends (R303, R316): the status words are written and the job leaves; the third note says that it was over its quota. -/
def Dev.millEnd (d : Dev) (j : Job) : Dev :=
  let st := if j.notes.getD 2 0 = 1 then 2 else if j.result = 0 then 1 else 4 + 256 * j.result
  let (d, ok) := d.jobWrite j (j.addr + 120) (millStatusWords (j.notes.getD 0 0) st)
  let r := if ok then j.result else 3
  let d := d.bumpFor j.tag R.MILL_JOBS
  let d := if r ≠ 0 ∧ d.genOk j.ctx j.gen then d.millNote j 0x0601 r else d
  let d := (d.setF F.MILL_LAST_JOB_address j.addr).setReg R.MILL_LAST_END (BitVec.ofNat 64 (j.kind % 256 + r * 256))
  d.endJob j

/-- Acceptance by the Mill (R303, R316): the status words are zeroed and the count is held; a job over its quota ends at once. -/
def Dev.millAccept (d : Dev) (j : Job) : Dev :=
  let d := d.updJob j.id fun x => { x with notes := [0, d.plan.cBase] }
  let (d, ok) := d.jobWrite j (j.addr + 120) (millStatusWords 0 0)
  if !ok then d.jobRan j 3 [0, d.cclk]
  else match d.jobRead j j.addr 128 with
    | (d, none) => d.jobRan j 3 [0, d.cclk]
    | (d, some b) =>
      if d.quotaNow j.ctx 4 < pbCount b + d.millHeld j.ctx then
        ((d.bumpFor j.tag R.MILL_OVER_QUOTA).millNote j 0x0606 0).millEnd { j with ran := true, result := 0, notes := [0, d.cclk, 1] }
      else
        let d := d.updJob j.id fun x => { x with hold := pbCount b }
        if j.kind = 0 ∨ 5 < j.kind then d.jobRan j 1 [0, d.cclk] else d

/-- MILL_JOB_END (R300, R303, R313): when the clock of its end has come, the job that a queue has run ends. -/
def execMillJobEnd (q : BitVec 3) (s : State) : Host.Outcome State Fault Refusal :=
  s.withDev fun d =>
    match d.headRan 2 q.toNat with
    | none => d
    | some j => if d.cclk < j.notes.getD 1 0 then d else d.millEnd j

/-- The fields of MILL_STATUS, MILL_MODEL_INFO, MILL_MODEL_SIG, MILL_RES_INFO, MILL_RES_SIG (R321). -/
def Dev.millStatus (d : Dev) : Nat :=
  let runs := fun (q : Nat) => match d.laneJobs 2 q with
    | j :: _ => j.ran || d.millTurn q j
    | [] => false
  let busy := (List.range 5).foldl (fun n q => n + b2n (runs q) * 2 ^ q) 0
  let held := (List.range 5).foldl (fun n q => n + (d.laneJobs 2 q).length % 8 * 2 ^ (8 + 3 * q)) 0
  busy + held + 32 * d.getF F.MILL_STATUS_recovering

/-- MILL_MODEL_INFO. -/
def Dev.millModelInfo (d : Dev) : Nat :=
  let s := d.millModel (d.getF F.MILL_MODEL_SEL_slot)
  if s.isEmpty then 0 else 1 + leAt s 8 1 * 2 + leAt s 9 1 * 256 + leAt s 10 1 * 2 ^ 15 + leAt s 11 1 * 2 ^ 21

/-- MILL_RES_INFO. -/
def Dev.millResInfo (d : Dev) : Nat :=
  let r := d.resSlot (d.getF F.MILL_RES_SEL_slot)
  if r.valid then 1 + r.m * 2 + r.n * 512 + r.owner * 65536 else 0

end Sys2Proof.Machine
end

