-- ==== Sys2Proof/Machine/Projection.lean ====
section
/-! DEFINITION. The projection unit (R262–R274). -/

namespace Sys2Proof.Machine
open Sys2Proof.Machine.Fp

/-- The rotation matrix of a normalised quaternion, rows in order (R265). -/
def rotMat (q : List Nat) : List (List Nat) :=
  let w := q.getD 0 0
  let x := q.getD 1 0
  let y := q.getD 2 0
  let z := q.getD 3 0
  let one := 0x3F800000
  let dbl := Fp.mul 0x40000000
  let a := fun p r s t => Fp.add (Fp.mul p r) (Fp.mul s t)
  let b := fun p r s t => Fp.sub (Fp.mul p r) (Fp.mul s t)
  [[Fp.sub one (dbl (a y y z z)), dbl (b x y w z), dbl (a x z w y)],
    [dbl (a x y w z), Fp.sub one (dbl (a x x z z)), dbl (b y z w x)],
    [dbl (b x z w y), dbl (a y z w x), Fp.sub one (dbl (a x x y y))]]

/-- A matrix times a vector, each row in order. -/
def matVec (m : List (List Nat)) (v : List Nat) : List Nat := m.map fun r => dotF r v

/-- The transpose of a 3 × 3 matrix. -/
def transpose3 (m : List (List Nat)) : List (List Nat) := (List.range 3).map fun c => m.map fun r => r.getD c 0

/-- What a job block says of one camera (R266). -/
structure CamJob where
  cam : Nat
  depth : Nat
  index : Nat
  map : Nat
  pitch : Nat
  corrQ : List Nat
  corrT : List Nat
deriving DecidableEq, Repr

/-- The camera entry of a job block. -/
def camEntry (b : List Byte) (c : Nat) : CamJob :=
  let e := (b.drop (64 + 64 * c)).take 64
  { cam := c, depth := leAt e 0 8, index := leAt e 8 8, map := leAt e 16 8, pitch := leAt e 24 4,
    corrQ := (List.range 4).map fun i => leAt e (32 + 4 * i) 4, corrT := (List.range 3).map fun i => leAt e (48 + 4 * i) 4 }

/-- Width of a camera. -/
def Dev.camW (d : Dev) (c : Nat) : Nat := d.getF (F.YOKE_PROJ_CAM_SIZE_width c)
/-- Height of a camera. -/
def Dev.camH (d : Dev) (c : Nat) : Nat := d.getF (F.YOKE_PROJ_CAM_SIZE_height c)
/-- An intrinsic of a camera: fx, fy, cx, cy, k1 … k4, p1, p2, r2_max. -/
def Dev.camI (d : Dev) (c i : Nat) : Nat := (d.reg (R.YOKE_PROJ_CAM_INTR c i)).toNat
/-- The normalised orientation of a camera. -/
def Dev.camQ (d : Dev) (c : Nat) : List Nat := (normQ ((List.range 4).map fun i => (d.reg (R.YOKE_PROJ_CAM_ORIENT c i)).toNat)).1
/-- The position of a camera. -/
def Dev.camP (d : Dev) (c : Nat) : List Nat := (List.range 3).map fun i => (d.reg (R.YOKE_PROJ_CAM_POS c i)).toNat
/-- near. -/
def Dev.camNear (d : Dev) (c : Nat) : Nat := (d.reg (R.YOKE_PROJ_CAM_NEAR c)).toNat
/-- far. -/
def Dev.camFar (d : Dev) (c : Nat) : Nat := (d.reg (R.YOKE_PROJ_CAM_FAR c)).toNat

/-- Whether an enabled camera passes R264. -/
def Dev.camOk (d : Dev) (c : Nat) : Bool :=
  let w := d.camW c
  let h := d.camH c
  let i := d.camI c
  let fish := d.flag (F.YOKE_PROJ_CAM_MODEL_model c)
  let isZero := fun x => x % 0x80000000 == 0
  let fin := Fp.isFinite
  let q := (List.range 4).map fun k => (d.reg (R.YOKE_PROJ_CAM_ORIENT c k)).toNat
  let near := d.camNear c
  let far := d.camFar c
  decide (1 ≤ w ∧ w ≤ 8192 ∧ 1 ≤ h ∧ h ≤ 8192) && fin (i 0) && Fp.lt 0 (i 0) && fin (i 1) && Fp.lt 0 (i 1)
    && ((List.range 8).all fun k => fin (i (2 + k))) && (if fish then isZero (i 8) && isZero (i 9) else isZero (i 7))
    && !Fp.isNan (i 10) && Fp.le 0 (i 10) && fin near && Fp.le 0x35800000 near && Fp.lt near far && (d.camP c).all fin
    && !(Fp.lt (dotF q q) tiny) && !Fp.isNan (dotF q q) && !d.yoke.camBad.testBit c

/-- A record of the projection unit (R273). -/
def Dev.projEvent (d : Dev) (tag : Option PTag) (code cam ctx gen addr reason idx : Nat) : Dev :=
  d.raiseFor tag code cam ctx gen (dAt 16 8 addr + dAt 25 1 reason + dAt 28 4 idx)

/-- At the lock every enabled camera is validated (R264). -/
def Dev.camValidate (d : Dev) : Dev :=
  (List.range 8).foldl (fun d c =>
    if !d.flag (F.YOKE_PROJ_CAM_CTL_enable c) then d.setB (F.YOKE_PROJ_CAM_CTL_valid c) false
    else if d.camOk c then d.setB (F.YOKE_PROJ_CAM_CTL_valid c) true
    else (d.setB (F.YOKE_PROJ_CAM_CTL_valid c) false).projEvent none 0x0440 c 0 0 0 0 0) d

/-- What became of a point (R267, R268). -/
inductive PointFate where
  | visible (iu iv z : Nat)
  | hidden (reason : Nat)
deriving DecidableEq, Repr

/-- floor of an FP32 value as a pixel coordinate below `n`. -/
def pixel (v n : Nat) : Option Nat :=
  match Fp.val v with
  | .fin x =>
    let i := roundInt .rdn x
    if 0 ≤ i ∧ i < n then some i.toNat else none
  | _ => none

/-- Distortion to the plane coordinates (R267); the arc tangent of +∞ is π/2. -/
def Dev.distort (d : Dev) (c x y r2 : Nat) : Nat × Nat :=
  let i := d.camI c
  let one := 0x3F800000
  let two := 0x40000000
  if d.flag (F.YOKE_PROJ_CAM_MODEL_model c) then
    let r := Fp.sqrt r2
    let th := if r = 0x7F800000 then 0x3FC90FDB else Fp.atan2 r one
    let t2 := Fp.mul th th
    let poly := Fp.add (i 4) (Fp.mul t2 (Fp.add (i 5) (Fp.mul t2 (Fp.add (i 6) (Fp.mul t2 (i 7))))))
    let thd := Fp.mul th (Fp.add one (Fp.mul t2 poly))
    let s := if r % 0x80000000 = 0 then one else Fp.div thd r
    (Fp.mul x s, Fp.mul y s)
  else
    let rad := Fp.add one (Fp.mul r2 (Fp.add (i 4) (Fp.mul r2 (Fp.add (i 5) (Fp.mul r2 (i 6))))))
    let p1 := i 8
    let p2 := i 9
    let tri := fun p => Fp.mul (Fp.mul (Fp.mul two p) x) y
    let sq := fun v => Fp.add r2 (Fp.mul (Fp.mul two v) v)
    (Fp.add (Fp.mul x rad) (Fp.add (tri p1) (Fp.mul p2 (sq x))), Fp.add (Fp.mul y rad) (Fp.add (Fp.mul p1 (sq y)) (tri p2)))

/-- Project a finite point into a camera (R267). -/
def Dev.projectPoint (d : Dev) (corr : Bool) (e : CamJob) (p : List Nat) : PointFate :=
  let c := e.cam
  let addV3 := fun (a b : List Nat) => (a.zip b).map fun x => Fp.add x.1 x.2
  let p := if corr then addV3 (matVec (rotMat (normQ e.corrQ).1) p) e.corrT else p
  let pc := matVec (transpose3 (rotMat (d.camQ c))) ((p.zip (d.camP c)).map fun x => Fp.sub x.1 x.2)
  let z := pc.getD 2 0
  if Fp.lt z (d.camNear c) then .hidden 1
  else if Fp.le (d.camFar c) z then .hidden 2
  else
    let x := Fp.div (pc.getD 0 0) z
    let y := Fp.div (pc.getD 1 0) z
    let r2 := Fp.add (Fp.mul x x) (Fp.mul y y)
    let lim := if d.camI c 10 % 0x80000000 = 0 then 0x7F800000 else d.camI c 10
    if Fp.lt lim r2 then .hidden 3
    else
      let (xd, yd) := d.distort c x y r2
      let u := Fp.add (Fp.mul (d.camI c 0) xd) (d.camI c 2)
      let v := Fp.add (Fp.mul (d.camI c 1) yd) (d.camI c 3)
      match pixel u (d.camW c), pixel v (d.camH c) with
      | some iu, some iv => .visible iu iv z
      | _, _ => .hidden 3

/-- Write a visible point to the images (R269). -/
def Dev.drawPoint (d : Dev) (j : Job) (e : CamJob) (indexVal iu iv z : Nat) : Dev × Bool :=
  let off := iv * e.pitch + 4 * iu
  let putIndex := fun (d : Dev) => if e.index = 0 then (d, true) else d.jobWrite j (e.index + off) (leBytes 4 indexVal)
  if e.depth = 0 then putIndex d
  else match d.jobRead j (e.depth + off) 4 with
    | (d, none) => (d, false)
    | (d, some b) =>
      if Fp.lt z (leNat b) then
        match d.jobWrite j (e.depth + off) (leBytes 4 z) with
        | (d, false) => (d, false)
        | (d, true) => putIndex d
      else (d, true)

/-- One point in one camera: map entry, images, counters (R267–R269). -/
def Dev.pointCam (d : Dev) (j : Job) (fl idx base : Nat) (p : Option (List Nat)) (e : CamJob) : Dev × Bool :=
  let c := e.cam
  let fate := match p with
    | none => PointFate.hidden 4
    | some p => d.projectPoint (fl.testBit 1) e p
  let entry := match fate with
    | .visible iu iv z => leBytes 2 iu ++ leBytes 2 iv ++ leBytes 4 z
    | .hidden r => leBytes 4 0xFFFFFFFF ++ leBytes 4 r
  let (d, ok) := if fl.testBit 0 && e.map != 0 then d.jobWrite j (e.map + 8 * idx) entry else (d, true)
  if !ok then (d, false)
  else match fate with
    | .visible iu iv z => (d.bumpFor j.tag (R.YOKE_PROJ_CAM_HIT c)).drawPoint j e ((base + idx) % 2 ^ 32) iu iv z
    | .hidden 3 => (d.bumpFor j.tag (R.YOKE_PROJ_CAM_OUTSIDE c), true)
    | .hidden 4 => (d, true)
    | .hidden _ => (d.bumpFor j.tag (R.YOKE_PROJ_CAM_CULL c), true)

/-- The first selected camera that a test names. -/
def firstCam (b : List Byte) (p : Nat → Bool) : Option Nat := ((List.range 8).filter fun c => (leAt b 0 1).testBit c).find? p

/-- The reason for which a job ends before it touches an output (R266), with its camera where one is concerned; none for no reason. `b` is
the job block. -/
def Dev.projReason (d : Dev) (j : Job) (b : List Byte) : Option (Nat × Option Nat) :=
  let reserved := decide (4 ≤ leAt b 1 1) || leAt b 2 2 != 0 || !allZero ((b.drop 8).take 56)
  let resCam := (List.range 8).find? fun c => leAt b (64 + 64 * c + 28) 4 != 0 || leAt b (64 + 64 * c + 60) 4 != 0
  let outside := firstCam b fun c =>
    let e := camEntry b c
    let len := e.pitch * (d.camH c - 1) + 4 * d.camW c
    [e.depth, e.index].any fun a => a != 0 && d.outsideBarn j a len
  let pitchBad := firstCam b fun c =>
    let e := camEntry b c
    e.pitch % 64 != 0 || decide (e.pitch < 4 * d.camW c)
  let t := tdesc j.dd
  let tensorBad := t.formatBad || t.mode != 0 || t.fmt != 0 || t.nd != 2 || t.st 0 != 1 || !(t.e 0 == 3 || t.e 0 == 4)
    || decide (2097152 < t.e 1)
  let corrBad := if (leAt b 1 1).testBit 1 then firstCam b fun c => Fp.lt (dotF (camEntry b c).corrQ (camEntry b c).corrQ) tiny else none
  if reserved || j.addr % 64 != 0 then some (1, none)
  else if resCam.isSome then some (1, resCam)
  else if outside.isSome then some (2, outside)
  else if pitchBad.isSome then some (4, pitchBad)
  else if j.kind == 0x40 && tensorBad then some (4, none)
  else if corrBad.isSome then some (4, corrBad)
  else none

/-- The selected cameras that take part; a disabled or invalid one is reported with reason 5 (R266). -/
def Dev.projCams (d : Dev) (j : Job) (b : List Byte) : Dev × List CamJob :=
  let cams := (List.range 8).filter fun c => (leAt b 0 1).testBit c
  let good := fun c => d.flag (F.YOKE_PROJ_CAM_CTL_enable c) && d.flag (F.YOKE_PROJ_CAM_CTL_valid c)
  let d' := (cams.filter fun c => !good c).foldl (fun d c => d.projEvent j.tag 0x0442 c j.ctx j.gen j.addr 5 0) d
  (d', (cams.filter good).map (camEntry b))

/-- The unit has done a job's work, or stopped on a camera. -/
def Dev.projRan (d : Dev) (j : Job) (result : Nat) (cam : Option Nat) : Dev := d.jobRan j result (cam.map fun c => [c]).toList.flatten

/-- A loop over the cameras that stops at the first failure and says on which. -/
def tryCams (cams : List CamJob) (d : Dev) (f : CamJob → Dev → Dev × Bool) : Dev × Option (Option Nat) :=
  let r := tryEach cams (d, 0) fun e (s : Dev × Nat) =>
    let (d, ok) := f e s.1
    ((d, e.cam), ok)
  (r.1.1, if r.2 then none else some (some r.1.2))

/-- Start the job at the head of the projection queue, when it is of this kind (R265, R272), and run it. `work` answers where it failed: none
for nowhere, else the camera if one is concerned. -/
def Dev.projRun (d : Dev) (kind : Nat) (work : Dev → Job → List Byte → List CamJob → Dev × Option (Option Nat)) : Dev :=
  match d.headToRun 0 0 with
  | none => d
  | some j =>
    if j.kind ≠ kind || d.flag F.YOKE_STATUS_recovering then d
    else match d.jobRead j j.addr 576 with
      | (d, none) => d.projRan j 3 none
      | (d, some b) =>
        match d.projReason j b with
        | some r => d.projRan j r.1 r.2
        | none =>
          let (d, cams) := d.projCams j b
          match work d j b cams with
          | (d, none) => d.projRan j 0 none
          | (d, some c) => d.projRan j 3 c

/-- PROJECT (R267–R269); the camera byte of BAD_POINT, which concerns them all, is free (log 6). -/
def Dev.projectWork (d : Dev) (j : Job) (b : List Byte) (cams : List CamJob) : Dev × Option (Option Nat) :=
  let t := tdesc j.dd
  let fl := leAt b 1 1
  (List.range (t.e 1)).foldl (fun (acc : Dev × Option (Option Nat)) (i : Nat) =>
    match acc with
    | (d, some c) => (d, some c)
    | (d, none) =>
      match d.jobRead j ((t.base : Int) + 4 * (i : Int) * t.st 1).toNat 12 with
      | (d, none) => (d, some none)
      | (d, some pb) =>
        let p := (List.range 3).map fun k => leAt pb (4 * k) 4
        let ok := p.all Fp.isFinite
        let d := if ok then d
          else
            let (c, d) := d.fresh
            (d.bumpFor j.tag R.YOKE_PROJ_BAD).projEvent j.tag 0x0443 (c % 256) j.ctx j.gen j.addr 0 i
        tryCams cams d fun e d => d.pointCam j fl i (leAt b 4 4) (if ok then some p else none) e) (d, none)

/-- PROJECT: a run of the job at the head of the queue. -/
def execProject (s : State) : Host.Outcome State Fault Refusal := s.withDev fun d => d.projRun 0x40 Dev.projectWork

/-- CLEAR (R270). -/
def Dev.projClearWork (d : Dev) (j : Job) (_ : List Byte) (cams : List CamJob) : Dev × Option (Option Nat) :=
  tryCams cams d fun e d =>
    let row := fun (v : Nat) => (List.replicate (d.camW e.cam) (leBytes 4 v)).flatten
    let img := fun (d : Dev) (base v : Nat) =>
      if base = 0 then (d, true) else tryFor (d.camH e.cam) d fun y d => d.jobWrite j (base + y * e.pitch) (row v)
    match img d e.depth 0x7F800000 with
    | (d, false) => (d, false)
    | (d, true) => img d e.index 0xFFFFFFFF

/-- PROJ_CLEAR: a run of the job at the head of the queue. -/
def execProjClear (s : State) : Host.Outcome State Fault Refusal := s.withDev fun d => d.projRun 0x41 Dev.projClearWork

/-- A job ends: counted, or a failed one of a live generation reported with its camera; the camera byte of a failure that concerns none is free
(log 6). -/
def Dev.projEnd (d : Dev) (j : Job) : Dev :=
  let d := if j.result = 0 then d.bumpFor j.tag R.YOKE_PROJ_JOBS
    else if d.genOk j.ctx j.gen then
      match j.notes with
      | c :: _ => d.projEvent j.tag 0x0442 c j.ctx j.gen j.addr j.result 0
      | [] =>
        let (c, d) := d.fresh
        d.projEvent j.tag 0x0442 (c % 256) j.ctx j.gen j.addr j.result 0
    else d
  d.endJob j

/-- PROJ_JOB_END (R266, R271): the job that the unit has run leaves the queue; a failed one raises JOB_ERROR. -/
def execProjJobEnd (s : State) : Host.Outcome State Fault Refusal :=
  s.withDev fun d =>
    match d.headRan 0 0 with
    | none => d
    | some j => d.projEnd j

/-- A projection job that is still held when its window ends (R272); its camera byte is free (log 6). -/
def Dev.projOverrun (d : Dev) (j : Job) : Dev :=
  let (c, d) := d.fresh
  (d.bumpFor j.tag R.YOKE_PROJ_OVERRUN).projEvent j.tag 0x0444 (c % 256) j.ctx j.gen j.addr 0 0

/-- Acceptance by the projection unit (R265): any kind but PROJECT and CLEAR ends at once with reason 1. -/
def Dev.projAccept (d : Dev) (j : Job) : Dev :=
  if j.kind = 0x40 ∨ j.kind = 0x41 then d
  else d.projEnd { j with ran := true, result := 1, notes := [] }

/-- The fields of YOKE_PROJ_STATUS (R274). -/
def Dev.projStatus (d : Dev) : Nat :=
  let held := ((d.engJobs 0).filter (·.accepted)).length
  b2n ((d.engJobs 0).any fun j => j.accepted) + 2 * (held % 16)
    + 256 * (List.range 8).foldl (fun n c => n + d.getF (F.YOKE_PROJ_CAM_CTL_valid c) * 2 ^ c) 0

end Sys2Proof.Machine
end

