-- ==== Sys2Proof/Machine/Sieve.lean ====
section
/-! DEFINITION. The Sieve (R275–R298): sweeps, voxel sampling, rule books, gather and scatter-add. -/

namespace Sys2Proof.Machine
open Sys2Proof.Machine.Fp

/-! ### Jobs (R275–R277, R283, R297) -/

/-- A record of the Sieve (R297). -/
def Dev.sieveEvent (d : Dev) (j : Job) (code inst b25 low : Nat) : Dev :=
  d.raiseFor j.tag code inst j.ctx j.gen (dAt 16 8 j.addr + dAt 24 1 j.kind + dAt 25 1 b25 + dAt 28 4 low)

/-- The mark of a SWEEP job's frame (R247, R288), when its block and the frame's header can be read; the look has no effect. -/
def Dev.sweepMark (d : Dev) (j : Job) : Option Nat :=
  match (d.jobRead j j.addr 8).2 with
  | none => none
  | some b => ((d.jobRead j (leNat b + 8) 4).2).map leNat

/-- The mark that a record of a job names (R297): that of a SWEEP's frame, else that of its provisional mode, else it is free (log 46). -/
def Dev.sieveMark (d : Dev) (j : Job) : Nat × Dev :=
  match if j.kind = 1 then d.sweepMark j else none with
  | some m => (m, d)
  | none =>
    match j.tag with
    | some t => (t.mark, d)
    | none => d.fresh

/-- A record of a job that names its mark. -/
def Dev.sieveNote (d : Dev) (j : Job) (code b25 : Nat) : Dev :=
  let (m, d) := d.sieveMark j
  d.sieveEvent j code 0 b25 m

/-- Bytes of a job block, with its alignment (R275); RULES is sized by its K. -/
def sieveBlockSize (kind : Nat) : Nat := if kind = 1 then 896 else if kind = 2 then 64 else 32

/-- The address of a SWEEP or RULES result block. -/
def sieveResultAddr (kind : Nat) (b : List Byte) : Nat := if kind = 1 then leAt b 40 8 else leAt b 60 4

/-- Points that a context holds (R283, R369). -/
def Dev.sievePoints (d : Dev) (ctx : Nat) : Nat :=
  (d.engJobs 1).foldl (fun n j => if j.ctx = ctx then n + j.hold else n) 0

/-- A result block of `n` bytes with flags alone (R277, R283). -/
def sieveFlagBlock (fl : Nat) : List Byte := leBytes 8 0 ++ leBytes 4 fl ++ leBytes 52 0

/-- A run of the job at the Sieve's head, when it is of this kind (R276). `work` answers the end code and the result words. -/
def Dev.sieveRun (d : Dev) (kind : Nat) (work : Dev → Job → Dev × Nat × List Nat) : Dev :=
  match d.headToRun 1 0 with
  | none => d
  | some j =>
    if j.kind ≠ kind || d.flag F.SIEVE_STATUS_recovering then d
    else
      let (d, r, words) := work d j
      d.jobRan j r words

/-! ### SWEEP (R278–R288) -/

/-- A sweep entry of the job block. -/
structure SweepEntry where
  entry : Nat
  coord : Nat
  hasInt : Bool
  int16 : Bool
  stride : Nat
  first : Nat
  coordOff : Nat
  intOff : Nat
  stampOff : Nat
  scale : Nat
  intScale : Nat
  share : Nat
  orient : List Nat
  pos : List Nat
  rMin : Nat
  rMax : Nat
  ringBytes : Nat
  ringBase : Nat
deriving DecidableEq, Repr

/-- `n` FP32 values from offset `o`. -/
def fpsAt (b : List Byte) (o n : Nat) : List Nat := (List.range n).map fun i => leAt b (o + 4 * i) 4

/-- Sweep entry `k` of a block. -/
def sweepEntry (b : List Byte) (k : Nat) : SweepEntry :=
  let e := (b.drop (128 + 96 * k)).take 96
  let lay := leAt e 1 1
  { entry := leAt e 0 1, coord := lay % 4, hasInt := lay.testBit 2, int16 := lay.testBit 3, stride := leAt e 2 2, first := leAt e 4 2,
    coordOff := leAt e 6 2, intOff := leAt e 8 2, stampOff := leAt e 10 2, scale := leAt e 12 4, intScale := leAt e 16 4,
    share := leAt e 20 4, orient := fpsAt e 24 4, pos := fpsAt e 40 3, rMin := leAt e 52 4, rMax := leAt e 56 4,
    ringBytes := leAt e 60 4, ringBase := leAt e 64 8 }

/-- What a SWEEP job works with. -/
structure SweepEnv where
  tm : Nat
  mark : Nat
  omega : List Nat
  vel : List Nat
  points : Nat
  table : Nat
  voxels : Nat
  cells : Nat
  origin : List Nat
  size : List Nat
deriving DecidableEq, Repr

/-- The counts of a SWEEP job. `entries` lists first index, written, dropped and packets of the entries done, latest first. -/
structure SweepAcc where
  points : Nat := 0
  voxels : Nat := 0
  flags : Nat := 0
  noCell : Nat := 0
  superseded : Nat := 0
  sampled : Nat := 0
  outGrid : Nat := 0
  skipped : Nat := 0
  pool : Nat := 0
  left : Nat := 0
  packets : Nat := 0
  dropped : Nat := 0
  entries : List (Nat × Nat × Nat × Nat) := []
deriving DecidableEq, Repr

/-- Set flag bits in a result. -/
def SweepAcc.set (a : SweepAcc) (m : Nat) : SweepAcc := { a with flags := a.flags ||| m }

/-- The hash cell of a voxel key (R284). -/
def voxelCell (log2 : Nat) (i : List Int) : Nat :=
  let u := fun k => (ofSigned 32 (i.getD k 0))
  let h := (u 0 * 0x9E3779B1 % 2 ^ 32) ^^^ (u 1 * 0x85EBCA77 % 2 ^ 32) ^^^ (u 2 * 0xC2B2AE3D % 2 ^ 32)
  (h ^^^ (h >>> 15)) % 2 ^ log2

/-- The address of probe `j` of a cell (R284). -/
def probeAddr (table cell j : Nat) : Nat := table + 16 * (cell - cell % 8 + (cell + j) % 8)

/-- A key as six bytes (R285). -/
def keyBytes (i : List Int) : List Byte := (List.range 3).flatMap fun k => leBytes 2 (ofSigned 16 (i.getD k 0))

/-- Whether a key lies in s16. -/
def keyOkS16 (i : List Int) : Bool := i.all fun x => decide (-32768 ≤ x ∧ x ≤ 32767)

/-- What the probes of a key find (R286): an empty cell, the cell of the key with its bytes, or no place; none when a read
fails. -/
inductive Probe where
  | empty (a : Nat)
  | hit (a : Nat) (cell : List Byte)
  | full
deriving DecidableEq, Repr

/-- Probe the table for a key (R284, R286). -/
def Dev.probe (d : Dev) (j : Job) (table log2 : Nat) (key : List Int) : Dev × Option Probe :=
  let cell := voxelCell log2 key
  (List.range 8).foldl (fun (acc : Dev × Option Probe) k =>
    match acc with
    | (d, some .full) =>
      let a := probeAddr table cell k
      match d.jobRead j a 16 with
      | (d, none) => (d, none)
      | (d, some b) =>
        if !(leAt b 6 4).testBit 31 then (d, some (.empty a))
        else if b.take 6 = keyBytes key then (d, some (.hit a b))
        else (d, some .full)
    | r => r) (d, some .full)

/-- The bytes of an occupied cell (R285). -/
def cellBytes (key : List Int) (vidx slot : Nat) (dstamp : Int) : List Byte :=
  keyBytes key ++ leBytes 4 (vidx % 2 ^ 20 + slot * 2 ^ 20 + 2 ^ 31) ++ leBytes 6 (ofSigned 48 (satSigned 48 dstamp))

/-- A voxel list entry (R287). -/
def listEntry (idx : Nat) (key : List Int) (slot dt : Nat) : List Byte :=
  leBytes 4 idx ++ keyBytes key ++ leBytes 1 slot ++ [0] ++ leBytes 4 dt

/-- Sample a written point into the voxel table (R284–R287). -/
def Dev.voxelPoint (d : Dev) (j : Job) (v : SweepEnv) (a : SweepAcc) (p : List Nat) (idx slot : Nat) (ts : Int) (dt : Nat) : Dev × SweepAcc × Bool :=
  let key := ((p.zip (v.origin.zip v.size)).map fun x => match Fp.val (Fp.div (Fp.sub x.1 x.2.1) x.2.2) with
    | .fin y => roundInt .rdn y
    | _ => 2 ^ 40)
  if !keyOkS16 key then (d.bumpFor j.tag R.SIEVE_OUT_OF_GRID, { a with outGrid := a.outGrid + 1 }, true)
  else
    let ds : Int := satSigned 48 (ts - v.tm)
    match d.probe j v.table v.cells key with
    | (d, none) => (d, a, false)
    | (d, some .full) => (d.bumpFor j.tag R.SIEVE_CELL_DROP, ({ a with noCell := a.noCell + 1 }).set 5, true)
    | (d, some (.empty at')) =>
      let (d, ok1) := d.jobWrite j at' (cellBytes key a.voxels slot ds)
      let (d, ok2) := d.jobWrite j (v.voxels + 16 * a.voxels) (listEntry idx key slot dt)
      if ok1 && ok2 then (d.bumpFor j.tag R.SIEVE_VOXELS, { a with voxels := a.voxels + 1 }, true) else (d, a, false)
    | (d, some (.hit at' b)) =>
      let w := leAt b 6 4
      let kSlot := field w 20 4
      let kDs := toSigned 48 (leAt b 10 6)
      let win := decide (kDs < ds) || (kDs == ds && decide (slot < kSlot))
      let d := d.bumpFor j.tag (if kSlot = slot then R.SIEVE_SAMPLED else R.SIEVE_SUPERSEDED)
      let a := if kSlot = slot then { a with sampled := a.sampled + 1 } else { a with superseded := a.superseded + 1 }
      if win then
        let vidx := w % 2 ^ 20
        let (d, ok1) := d.jobWrite j at' (cellBytes key vidx slot ds)
        let (d, ok2) := d.jobWrite j (v.voxels + 16 * vidx) (listEntry idx key slot dt)
        (d, a, ok1 && ok2)
      else (d, a, true)

/-- The bytes of one coordinate. -/
def coordSize (c : Nat) : Nat := if c = 2 then 2 else 4

/-- A raw coordinate as FP32 (R280). -/
def coordRaw (c n : Nat) : Nat := if c = 0 then n else ofZ (toSigned (8 * coordSize c) n)

/-- Deskew a point to the mark (R281): dt and the point. -/
def deskew (v : SweepEnv) (e : SweepEntry) (ps : List Nat) (ts : Int) : Nat × List Nat :=
  let dt := Fp.mul (ofZ (toSigned 64 (ofSigned 64 (ts - v.tm)))) (ofRat 1 256000000000)
  let addV3 := fun (a b : List Nat) => (a.zip b).map fun x => Fp.add x.1 x.2
  let pm := addV3 (matVec (rotMat (normQ e.orient).1) ps) e.pos
  let half := fun w => Fp.mul (Fp.mul w dt) 0x3F000000
  let qd := (normQ (0x3F800000 :: v.omega.map half)).1
  (dt, addV3 (matVec (rotMat qd) pm) (v.vel.map fun x => Fp.mul x dt))

/-- One record of a packet (R280–R287). `base` is the address of the record, `hdr` the sample header. -/
def Dev.sweepRecord (d : Dev) (j : Job) (v : SweepEnv) (e : SweepEntry) (hdr : List Byte) (base slot : Nat) (a : SweepAcc) :
    Dev × SweepAcc × Bool :=
  let cs := coordSize e.coord
  match d.jobRead j (base + e.coordOff) (3 * cs) with
  | (d, none) => (d, a, false)
  | (d, some cb) =>
    let ps := (List.range 3).map fun k => Fp.mul (coordRaw e.coord (leAt cb (cs * k) cs)) e.scale
    if ps.any fun x => !Fp.isFinite x then
      ((d.bumpFor j.tag R.SIEVE_BAD).sieveEvent j 0x0505 slot 0 (leAt hdr 12 4), { a with skipped := a.skipped + 1 }, true)
    else
      let r2 := dotF ps ps
      if ps.all (fun x => x % 0x80000000 == 0) || Fp.lt r2 (Fp.mul e.rMin e.rMin) || !Fp.lt r2 (Fp.mul e.rMax e.rMax) then
        (d.bumpFor j.tag R.SIEVE_SKIPPED, { a with skipped := a.skipped + 1 }, true)
      else if a.left = 0 ∧ a.pool = 0 then
        (d.bumpFor j.tag (R.SIEVE_SLOT_DROP slot), ({ a with dropped := a.dropped + 1 }).set 3, true)
      else
        let (d, sOff) := if (leAt hdr 10 2).testBit 5 then d.jobRead j (base + e.stampOff) 4 else (d, some [])
        let (d, ib) := if e.hasInt then d.jobRead j (base + e.intOff) (if e.int16 then 2 else 1) else (d, some [])
        match sOff, ib with
        | some sb, some ib =>
          let ts := (leAt hdr 0 8 * 256 + leAt hdr 8 1 : Nat)
          let ts := (ts : Int) + 256 * toSigned 32 (leNat sb)
          let inten := if e.hasInt then Fp.mul (ofZ (leNat ib : Nat)) e.intScale else 0
          let (dt, p) := deskew v e ps ts
          let idx := a.points
          let (d, ok) := d.jobWrite j (v.points + 16 * idx) (p.flatMap (leBytes 4) ++ leBytes 4 inten)
          let a := { a with points := idx + 1, left := a.left - 1, pool := if a.left = 0 then a.pool - 1 else a.pool }
          if ok then ((d.bumpFor j.tag R.SIEVE_POINTS).bumpFor j.tag (R.SIEVE_SLOT_POINTS slot)).voxelPoint j v a p idx slot ts dt
          else (d, a, false)
        | _, _ => (d, a, false)

/-- Whether a header belongs to the sweep (R279). -/
def sweepHdrOk (hdr : List Byte) (prev last : Nat) : Bool :=
  let s := leAt hdr 12 4
  decide (0 < toSigned 32 (ofSigned 32 ((s : Int) - prev))) && decide (0 ≤ toSigned 32 (ofSigned 32 ((last : Int) - s)))

/-- Read the packets of a sweep (R279), at most `fuel`. -/
def Dev.sweepPackets (j : Job) (v : SweepEnv) (e : SweepEntry) (slot last : Nat) :
    Nat → Dev → Nat → Nat → SweepAcc → Dev × SweepAcc × Bool
  | 0, d, _, _, acc => (d, acc, true)
  | fuel + 1, d, a, prev, acc =>
    match d.jobRead j a 32 with
    | (d, none) => (d, acc, false)
    | (d, some h0) =>
      let (d, a, hdr?) := if sweepHdrOk h0 prev last then (d, a, some h0)
        else match d.jobRead j e.ringBase 32 with
          | (d, r) => (d, e.ringBase, r)
      match hdr? with
      | none => (d, acc, false)
      | some hdr =>
        if !sweepHdrOk hdr prev last then
          ((d.bumpFor j.tag (R.SIEVE_SLOT_RING_LOST slot)).sieveEvent j 0x0503 slot 0 prev, acc.set 9, true)
        else
          let bytes := leAt hdr 16 4
          let n := if e.stride = 0 then 0 else (bytes - e.first) / e.stride
          let (r, ok) := tryFor n (d, acc) fun i (s : Dev × SweepAcc) =>
            let (d, acc, ok) := s.1.sweepRecord j v e hdr (a + 32 + e.first + i * e.stride) slot s.2
            ((d, acc), ok)
          let acc := { r.2 with packets := r.2.packets + 1 }
          if !ok then (r.1, acc, false)
          else if leAt hdr 12 4 = last then (r.1, acc, true)
          else
            let a' := (a + 32 + bytes + 63) / 64 * 64
            let a' := if e.ringBase + e.ringBytes ≤ a' then e.ringBase else a'
            Dev.sweepPackets j v e slot last fuel r.1 a' (leAt hdr 12 4) acc

/-- The reason that ends a SWEEP job before it reads a packet (R276, R278); `fr` is the frame, `tw` the twist. -/
def Dev.sweepReason (d : Dev) (j : Job) (b fr tw : List Byte) : Nat :=
  let n := leAt b 52 1
  let log2 := leAt b 53 1
  let es := (List.range (min n 8)).map (sweepEntry b)
  let reserved := leAt b 54 2 != 0 || !allZero ((b.drop 80).take 48) || !allZero (b.drop (128 + 96 * min n 8))
    || (List.range (min n 8)).any fun k =>
      let e := (b.drop (128 + 96 * k)).take 96
      decide (16 ≤ leAt e 1 1) || !allZero (e.drop 72)
  let table := leAt b 24 8
  let tableBad := table % 128 != 0 || d.outsideBarn j table (16 * 2 ^ min log2 20)
  let size := fpsAt b 68 3
  let cap := leAt b 48 4
  let limits := j.addr % 64 != 0 || leAt b 16 8 % 64 != 0 || leAt b 32 8 % 64 != 0 || leAt b 40 8 % 64 != 0
    || decide (cap = 0 ∨ 2097152 < cap ∨ n = 0 ∨ 8 < n ∨ log2 < 10 ∨ 20 < log2) || decide (cap < es.foldl (fun s e => s + e.share) 0)
    || !(fpsAt b 56 3).all Fp.isFinite || !size.all (fun x => Fp.isFinite x && Fp.lt 0 x) || !(fpsAt tw 0 6).all Fp.isFinite
    || es.any fun e => e.coord == 3 || decide (e.stride < 6 ∨ 256 < e.stride) || leAt fr (64 + 96 * e.entry + 10) 1 != 6
        || decide (leAt fr 16 1 ≤ e.entry) || Fp.lt (dotF e.orient e.orient) tiny || !e.pos.all Fp.isFinite
        || !Fp.isFinite e.rMin || !(Fp.isFinite e.rMax || e.rMax == 0x7F800000)
  if reserved then 1 else if tableBad then 2 else if limits then 4 else 0

/-- The words of a SWEEP result (R288). -/
def sweepWords (a : SweepAcc) (mark : Nat) : List Nat :=
  [a.points, a.voxels, a.flags, a.noCell, a.superseded, a.sampled, a.outGrid, a.skipped, mark] ++ List.replicate 7 0
    ++ a.entries.reverse.flatMap fun e => [e.1, e.2.1, e.2.2.1, e.2.2.2]

/-- SWEEP (R278–R288). -/
def Dev.sweepJob (d : Dev) (j : Job) : Dev × Nat × List Nat :=
  match d.jobRead j j.addr 896 with
  | (d, none) => (d, 3, [])
  | (d, some b) =>
    let (d, fr) := d.jobRead j (leAt b 0 8) 64
    let streams := (fr.map fun f => leAt f 16 1).getD 0
    let (d, fr) := match fr with
      | none => (d, none)
      | some _ => d.jobRead j (leAt b 0 8) (64 + 96 * streams)
    let (d, tw) := if leAt b 8 8 = 0 then (d, some (List.replicate 24 0)) else d.jobRead j (leAt b 8 8) 24
    match fr, tw with
    | some fr, some tw =>
      let r := d.sweepReason j b fr tw
      if r ≠ 0 then (d, r, [])
      else
        let v : SweepEnv := { tm := leAt fr 0 8 * 256, mark := leAt fr 8 4, omega := fpsAt tw 0 3, vel := fpsAt tw 12 3,
                              points := leAt b 16 8, table := leAt b 24 8, voxels := leAt b 32 8, cells := leAt b 53 1,
                              origin := fpsAt b 56 3, size := fpsAt b 68 3 }
        let es := (List.range (leAt b 52 1)).map (sweepEntry b)
        let pool := leAt b 48 4 - es.foldl (fun s e => s + e.share) 0
        let (d, ok) := d.jobWrite j v.table (List.replicate (16 * 2 ^ v.cells) 0)
        if !ok then (d, 3, [])
        else
          let (res, ok) := tryEach es (d, { pool := pool : SweepAcc }) fun e (st : Dev × SweepAcc) =>
            let se := (fr.drop (64 + 96 * e.entry)).take 96
            let slot := (d.streamRec (leAt se 9 1)).slot
            let a0 := { st.2 with left := e.share, packets := 0, dropped := 0 }
            let none' := (leAt se 12 2).testBit 2 || leAt se 40 4 == 0
            let first := leAt se 32 4
            let last := leAt se 36 4
            let (d, a, ok) := if none' then (st.1, a0, true)
              else Dev.sweepPackets j v e slot last ((last + 2 ^ 32 - first) % 2 ^ 32 + 1) st.1 (leAt se 48 8)
                ((first + 2 ^ 32 - 1) % 2 ^ 32) a0
            ((d, { a with entries := (st.2.points, a.points - st.2.points, a.dropped, a.packets) :: a.entries }), ok)
          if ok then (res.1, 0, sweepWords res.2 v.mark) else (res.1, 3, [])
    | _, _ => (d, 3, [])

/-- SWEEP: a run of the job at the head. -/
def execSweep (s : State) : Host.Outcome State Fault Refusal := s.withDev fun d => d.sieveRun 1 Dev.sweepJob

/-! ### RULES (R289–R291) -/

/-- The reason that ends a RULES job before it writes (R276, R289). -/
def Dev.rulesReason (d : Dev) (j : Job) (b inRes : List Byte) : Nat :=
  let mode := leAt b 25 1
  let k := leAt b 26 1
  let strided := mode == 1
  let reserved := leAt b 29 3 != 0 || (List.range k).any fun i => leAt b (64 + 4 * i + 3) 1 != 0
  let bad := fun (t log2 : Nat) => t % 128 != 0 || d.outsideBarn j t (16 * 2 ^ min log2 20)
  let nIn := leAt inRes 4 4
  let size := 64 + (4 * k + 63) / 64 * 64 + k * ((8 * nIn + 63) / 64 * 64)
  if reserved then 1
  else if bad (leAt b 0 8) (leAt b 24 1) || (strided && bad (leAt b 32 8) (leAt b 28 1)) then 2
  else if j.addr % 64 != 0 || decide (1 < mode) || decide (k = 0 ∨ 125 < k) || decide (leAt b 24 1 < 10 ∨ 20 < leAt b 24 1)
      || (strided && decide (leAt b 27 1 < 2 ∨ 8 < leAt b 27 1 ∨ leAt b 28 1 < 10 ∨ 20 < leAt b 28 1)) || leAt b 48 8 % 64 != 0
      || leAt b 60 4 % 64 != 0 || (leAt inRes 8 4).testBit 7 || decide (leAt b 56 4 < size) then 4
  else 0

/-- The key of list entry `i`. -/
def Dev.listKey (d : Dev) (j : Job) (list i : Nat) : Dev × Option (List Int) :=
  match d.jobRead j (list + 16 * i + 4) 6 with
  | (d, some b) => (d, some ((List.range 3).map fun k => toSigned 16 (leAt b (2 * k) 2)))
  | (d, none) => (d, none)

/-- Build the output table of a STRIDED job (R290): the count of output voxels and of inputs without a place. The slot and the stamp in an output
cell, which have no kept point, are free (log 47). -/
def Dev.stridedOut (d : Dev) (j : Job) (b : List Byte) (nIn : Nat) : (Dev × Nat × Nat) × Bool :=
  let table := leAt b 32 8
  let log2 := leAt b 28 1
  let (d, ok) := d.jobWrite j table (List.replicate (16 * 2 ^ log2) 0)
  if !ok then ((d, 0, 0), false)
  else tryFor nIn (d, 0, 0) fun i (st : Dev × Nat × Nat) =>
    match st.1.listKey j (leAt b 8 8) i with
    | (d, none) => ((d, st.2), false)
    | (d, some key) =>
      let okey := key.map fun x => x / (leAt b 27 1 : Int)
      match d.probe j table log2 okey with
      | (d, none) => ((d, st.2), false)
      | (d, some .full) => ((d.bumpFor j.tag R.SIEVE_CELL_DROP, st.2.1, st.2.2 + 1), true)
      | (d, some (.hit _ _)) => ((d, st.2), true)
      | (d, some (.empty a)) =>
        let (f, d) := d.fresh
        let (d, ok1) := d.jobWrite j a (cellBytes okey st.2.1 (f % 16) (toSigned 48 (f / 16 % 2 ^ 48)))
        let (d, ok2) := d.jobWrite j (leAt b 40 8 + 16 * st.2.1) (leBytes 4 i ++ keyBytes okey ++ leBytes 6 0)
        ((d, st.2.1 + 1, st.2.2), ok1 && ok2)

/-- RULES (R289–R291). -/
def Dev.rulesJob (d : Dev) (j : Job) : Dev × Nat × List Nat :=
  match d.jobRead j j.addr 64 with
  | (d, none) => (d, 3, [])
  | (d, some b0) =>
    let k := leAt b0 26 1
    let (d, offs) := d.jobRead j (j.addr + 64) (4 * k)
    let (d, inRes) := d.jobRead j (leAt b0 16 8) 12
    match offs, inRes with
    | some offs, some inRes =>
      let b := b0 ++ offs
      let r := d.rulesReason j b inRes
      if r ≠ 0 then (d, r, [])
      else
        let nIn := leAt inRes 4 4
        let strided := leAt b 25 1 == 1
        let step : Int := if strided then leAt b 27 1 else 1
        let ((d, nOutS, noPlace), ok) := if strided then d.stridedOut j b nIn else ((d, nIn, 0), true)
        let nOut := nOutS
        let outList := if strided then leAt b 40 8 else leAt b 8 8
        let book := leAt b 48 8
        let seg := (8 * nIn + 63) / 64 * 64
        let head := (4 * k + 63) / 64 * 64
        let offK := fun i => (List.range 3).map fun c => toSigned 8 (leAt b (64 + 4 * i + c) 1)
        let (res, ok) := if !ok then ((d, ([] : List Nat)), false)
          else tryFor nOut (d, List.replicate k 0) fun o (st : Dev × List Nat) =>
            match st.1.listKey j outList o with
            | (d, none) => ((d, st.2), false)
            | (d, some key) =>
              tryFor k (d, st.2) fun i (st : Dev × List Nat) =>
                let want := (key.zip (offK i)).map fun x => x.1 * step + x.2
                if !keyOkS16 want then (st, true)
                else match st.1.probe j (leAt b 0 8) (leAt b 24 1) want with
                  | (d, none) => ((d, st.2), false)
                  | (d, some (.hit _ cell)) =>
                    let n := st.2.getD i 0
                    let (d, ok) := d.jobWrite j (book + 64 + head + i * seg + 8 * n) (leBytes 4 (leAt cell 6 4 % 2 ^ 20) ++ leBytes 4 o)
                    ((d, st.2.set i (n + 1)), ok)
                  | (d, some _) => ((d, st.2), true)
        if !ok then (res.1, 3, [])
        else
          let total := res.2.foldl (· + ·) 0
          let d := res.1.bumpFor j.tag R.SIEVE_PAIRS total
          let hdr := leBytes 4 nOut ++ leBytes 4 seg ++ leBytes 2 k ++ leBytes 1 (leAt b 25 1) ++ leBytes 1 (leAt b 27 1) ++ leBytes 4 total
            ++ leBytes 48 0
          let (d, ok) := d.jobWrite j book (hdr ++ res.2.flatMap (leBytes 4) ++ List.replicate (head - 4 * k) 0)
          if ok then (d, 0, [nOut, total, b2n (noPlace != 0), noPlace] ++ List.replicate 12 0) else (d, 3, [])
    | _, _ => (d, 3, [])

/-- RULES: a run of the job at the head. -/
def execRules (s : State) : Host.Outcome State Fault Refusal := s.withDev fun d => d.sieveRun 2 Dev.rulesJob

/-! ### GATHER and SCATTER_ADD (R292, R293) -/

/-- The format rule of R292. -/
def sieveFmtOk (scatter : Bool) (src dst : TDesc) : Bool :=
  !src.mx && !dst.mx &&
    (if scatter then [0, 1, 2, 8].contains src.fmt && (dst.fmt == src.fmt || (dst.fmt == 0 && (src.fmt == 1 || src.fmt == 2)))
     else [0, 1, 2, 3, 4, 10, 8].contains src.fmt && dst.fmt == src.fmt)

/-- The shape rule of R292; `rows` is R. -/
def sieveShapeOk (src dst tile : TDesc) (rows : Nat) : Bool :=
  let one := fun (t : TDesc) => !t.formatBad && t.mode == 0 && t.nd == 2 && t.st 0 == 1
  one src && one dst && src.e 0 == dst.e 0 && dst.writable && dst.base % 32 == 0 && (dst.st 1 * dst.width) % 256 == 0
    && (dst.e 0 * dst.width) % 256 == 0 && decide (rows ≤ tile.e 1)

/-- The byte address of row `i` of a 2-dimensional tensor with whole bytes. -/
def TDesc.rowAddr (t : TDesc) (i : Nat) : Nat := (t.bitAddr [0, i] / 8).toNat

/-- Bytes of a row. -/
def TDesc.rowBytes (t : TDesc) : Nat := t.e 0 * t.width / 8

/-- The common part of GATHER and SCATTER_ADD: the block, its checks, and `row d src dst r use` for each row, where `use` is the
sparse index or none for a row without a pair. -/
def Dev.rowJob (d : Dev) (j : Job) (scatter : Bool) (row : Dev → TDesc → TDesc → Nat → Option IdxUse → Dev × Bool) :
    Dev × Nat × List Nat :=
  match d.jobRead j j.addr 32 with
  | (d, none) => (d, 3, [])
  | (d, some b) =>
    let src := tdesc j.dd
    let dst := tdesc j.dd2
    let sparse := if scatter then dst else src
    let tile := if scatter then src else dst
    let rows := leAt b 16 4
    let k := leAt b 8 2
    if leAt b 11 1 != 0 || !allZero (b.drop 20) || decide (1 < leAt b 10 1) then (d, 1, [])
    else if j.addr % 32 != 0 || decide (rows = 0 ∨ 65536 < rows) || j.notes.head? != some 0 || !sieveShapeOk src dst tile rows then (d, 4, [])
    else if !sieveFmtOk scatter src dst then (d, 5, [])
    else match d.jobRead j (leAt b 0 8) 16 with
      | (d, none) => (d, 3, [])
      | (d, some h) =>
        if leAt h 8 2 ≤ k then (d, 4, [])
        else match d.jobRead j (leAt b 0 8 + 64 + 4 * k) 4 with
          | (d, none) => (d, 3, [])
          | (d, some cb) =>
            let c := min rows (leNat cb - leAt b 12 4)
            let seg := leAt b 0 8 + 64 + (4 * leAt h 8 2 + 63) / 64 * 64 + k * leAt h 4 4
            let (d, ok) := tryFor rows d fun r d =>
              if c ≤ r then row d src dst r none
              else match d.jobRead j (seg + 8 * (leAt b 12 4 + r) + 4 * leAt b 10 1) 4 with
                | (d, none) => (d, false)
                | (d, some ib) =>
                  match ({ sparse with gatherDim := 1 }).useIndex (leNat ib : Nat) with
                  | .strict =>
                    (d.raiseFor j.tag fIndexStrict 17 j.ctx j.gen (hedgeDetail j.addr 17 0 0 0 (leNat ib)), false)
                  | .zero => row (d.bumpFor j.tag R.HEDGE_IDX_ZERO) src dst r (some .zero)
                  | u => row d src dst r (some u)
            (d, if ok then 0 else 3, [])

/-- GATHER (R292, R293). -/
def Dev.gatherJob (d : Dev) (j : Job) : Dev × Nat × List Nat :=
  d.rowJob j false fun d src dst r u =>
    match u with
    | some (.at i) =>
      match d.jobRead j (src.rowAddr i) src.rowBytes with
      | (d, none) => (d, false)
      | (d, some bs) => d.jobWrite j (dst.rowAddr r) bs
    | _ => d.jobWrite j (dst.rowAddr r) (List.replicate dst.rowBytes 0)

/-- GATHER: a run of the job at the head. -/
def execGather (s : State) : Host.Outcome State Fault Refusal := s.withDev fun d => d.sieveRun 3 Dev.gatherJob

/-- An element widened exactly from one format to another (R293). -/
def widen (src dst v : Nat) : Nat := if src = dst then v else (Fp.encodeElem dst .rne false (Fp.decodeElem src v)).1

/-- SCATTER_ADD (R292, R293). -/
def Dev.scatterJob (d : Dev) (j : Job) : Dev × Nat × List Nat :=
  d.rowJob j true fun d src dst r u =>
    match u with
    | some (.at i) =>
      match d.jobRead j (src.rowAddr r) src.rowBytes with
      | (d, none) => (d, false)
      | (d, some add) =>
        match d.jobRead j (dst.rowAddr i) dst.rowBytes with
        | (d, none) => (d, false)
        | (d, some old) =>
          let sb := src.width / 8
          let db := dst.width / 8
          let new := (List.range (src.e 0)).flatMap fun c =>
            leBytes db (elemAdd dst.fmt (leAt old (db * c) db) (widen src.fmt dst.fmt (leAt add (sb * c) sb)))
          d.jobWrite j (dst.rowAddr i) new
    | _ => (d, true)

/-- SCATTER_ADD: a run of the job at the head. -/
def execScatterAdd (s : State) : Host.Outcome State Fault Refusal := s.withDev fun d => d.sieveRun 4 Dev.scatterJob

/-! ### The end of a job (R276, R277, R288) -/

/-- A job ends: the result block of one that has completed is written, and the job releases its points. -/
def Dev.sieveEnd (d : Dev) (j : Job) : Dev :=
  let (d, r) : Dev × Nat :=
    if j.result = 0 ∧ j.kind ≤ 2 ∧ 1 < j.notes.length then
      match d.jobRead j j.addr 64 with
      | (d, none) => (d, 3)
      | (d, some b) =>
        let (d, ok) := d.jobWrite j (sieveResultAddr j.kind b) (j.notes.flatMap (leBytes 4))
        let fl := j.notes.getD 2 0
        if ok && fl.testBit 0 then
          let d := d.bumpFor j.tag R.SIEVE_TRUNCATED
          (if j.kind = 1 then d.sieveEvent j 0x0502 0 (fl % 16) (j.notes.getD 8 0) else d.sieveNote j 0x0502 (fl % 16), 0)
        else (d, if ok then 0 else 3)
    else (d, j.result)
  let d := if r = 0 then d.bumpFor j.tag R.SIEVE_JOBS
    else if d.genOk j.ctx j.gen then d.sieveNote j 0x0501 r else d
  let d := (d.setF F.SIEVE_LAST_JOB_address j.addr).setReg R.SIEVE_LAST_END (BitVec.ofNat 64 (j.kind % 256 + r * 256))
  d.endJob j

/-- SIEVE_JOB_END: the job that the Sieve has run leaves its queue. -/
def execSieveJobEnd (s : State) : Host.Outcome State Fault Refusal :=
  s.withDev fun d =>
    match d.headRan 1 0 with
    | none => d
    | some j => d.sieveEnd j

/-- Acceptance by the Sieve (R275, R277, R283): an unknown kind, a block or a result that cannot be reached and a SWEEP over its quota end the job
at once. -/
def Dev.sieveAccept (d : Dev) (j : Job) : Dev :=
  let stop := fun (d : Dev) (r : Nat) (ws : List Nat) => d.sieveEnd { j with ran := true, result := r, notes := ws }
  if j.kind = 0 ∨ 4 < j.kind then stop d 1 []
  else if 2 < j.kind then d
  else match d.jobRead j j.addr 64 with
    | (d, none) => stop d 3 []
    | (d, some b) =>
      let cap := leAt b 48 4
      let ovr := j.kind == 1 && decide (d.quotaNow j.ctx 2 < cap + d.sievePoints j.ctx)
      let (d, ok) := d.jobWrite j (sieveResultAddr j.kind b) (sieveFlagBlock (if ovr then 16 else 128))
      if !ok then stop d 3 []
      else if ovr then stop (d.sieveNote j 0x0504 0) 0 []
      else if j.kind = 1 then d.updJob j.id fun x => { x with hold := cap }
      else d

/-- A Sieve job that is still held when its window ends (R294). -/
def Dev.sieveOverrun (d : Dev) (j : Job) : Dev := (d.bumpFor j.tag R.SIEVE_OVERRUN).sieveNote j 0x0506 0

/-- The fields of SIEVE_STATUS (R298). -/
def Dev.sieveStatus (d : Dev) : Nat :=
  b2n ((d.engJobs 1).any (·.accepted)) + 2 * (((d.engJobs 1).filter (·.accepted)).length % 16) + 32 * d.getF F.SIEVE_STATUS_recovering

end Sys2Proof.Machine
end

