-- ==== Sys2Proof/Machine/Fence.lean ====
section
/-! DEFINITION. Walks and the translation cache (R158–R160) and fences of a context ID (R161). -/

namespace Sys2Proof.Machine

/-- Change the Hedge. -/
def Dev.updHedge (d : Dev) (f : HedgeState → HedgeState) : Dev := { d with hedge := f d.hedge }

/-! ### Walks (R158, R159) -/

/-- Fill the translation cache with a leaf: the set's rotating pointer names the way and advances (R158). -/
def Dev.tlbFill (d : Dev) (ctx gen va : Nat) (l : Leaf) : Dev :=
  let set := Config.tlbSet ctx gen (va / 0x1000) % 512
  let way := SMap.get (fun _ => 0) d.hedge.ways set
  d.updHedge fun h => { h with
    tlb := ⟨set, way, ctx, gen, l⟩ :: h.tlb.filter (fun t => !(t.set == set && t.way == way))
    ways := SMap.set (fun _ => 0) h.ways set ((way + 1) % 8) }

/-- Keep the table entries of levels 0 to 2 that a walk has read, 256 at most, the oldest leaving first (R158; log 30). -/
def Dev.nodeFill (d : Dev) (ctx gen va : Nat) : Dev :=
  let who := ctx * 2 ^ 20 + gen
  let read := (List.range 3).filter fun k => (List.range (k + 1)).all fun i => d.tableEntry ctx i va == .table
  d.updHedge fun h =>
    let new := (read.map fun k => (who, k, va / 2 ^ levelShift k)).filter fun x => !h.nodes.contains x
    { h with nodes := (h.nodes ++ new).drop (h.nodes.length + new.length - 256) }

/-- Whether an invalidation reaches a cached entry. -/
def Inval.hits (i : Inval) (ctx va size : Nat) : Bool :=
  match i.scope with
  | 0 => ctx == i.ctx
  | 1 => ctx == i.ctx && decide (va < i.va + i.pages * 0x1000) && decide (i.va < va + size)
  | 2 => ctx == mgmtSpace
  | _ => true

/-- The end of a walk: a valid leaf is cached and serves every request that waits for its page; a fill that an invalidation, begun after
the walk, reaches in the same F clock is discarded, and the request walks again (R158, R160). -/
def Dev.walkEnd (d : Dev) (w : Walk) : Dev :=
  let d := d.updHedge fun h => { h with walks := h.walks.filter fun x => x.walker != w.walker }
  match d.walk w.ctx w.gen w.va with
  | .error _ => d.nodeFill w.ctx w.gen w.va
  | .ok l =>
    let killed := match d.hedge.lastInval with
      | some (i, f) => f == d.fclk && decide (w.start < i.start) && i.hits w.ctx l.va l.size
      | none => false
    if killed then d.updHedge fun h => { h with waiting := h.waiting ++ [⟨w.req, w.ctx, w.gen, w.va⟩] }
    else
      let d := d.nodeFill w.ctx w.gen w.va
      let d := if (d.tlbHit w.ctx w.gen w.va).isSome then d else d.tlbFill w.ctx w.gen w.va l
      d.updHedge fun h => { h with waiting := h.waiting.filter fun x => !(x.ctx == w.ctx && x.gen == w.gen && l.covers x.va) }

/-- The lowest walker that is free. -/
def Dev.freeWalker (d : Dev) : Option Nat := (List.range 4).find? fun k => !(d.hedge.walks.any fun w => w.walker == k)

/-- TRANSLATION_WALK (R159): a free walker takes the request of the requester that the arbiter's rotating pointer picks, and the pointer advances
past it; the walk is counted, and its table reads become stack requests of the walker (R45), whose service ends it. A request of a
stale generation is discarded (R37), one of a fenced ID is refused. -/
def execTranslationWalk (s : State) : Host.Outcome State Fault Refusal :=
  s.withDev fun d =>
    match d.freeWalker, rotPick 24 (d.getF F.HEDGE_STATUS_arb_ptr) fun r => d.hedge.waiting.any fun w => w.req == r with
    | some k, some r =>
      (match d.hedge.waiting.find? fun w => w.req == r with
      | none => d
      | some w =>
        let d := d.setF F.HEDGE_STATUS_arb_ptr ((r + 1) % 24)
        let d := d.updHedge fun h => { h with waiting := h.waiting.erase w }
        if w.ctx != mgmtSpace && d.fenced w.ctx then d
        else if w.ctx != mgmtSpace && !d.genOk w.ctx w.gen then d.bump R.HEDGE_GEN_DISCARD
        else
          let d := d.bump R.HEDGE_WALKS
          let d := d.updHedge fun h => { h with walks := h.walks ++ [⟨k, w.req, w.ctx, w.gen, w.va, d.fclk⟩] }
          d.stackRequest ⟨w.req, 0x58 + k, w.ctx, w.gen⟩ ((d.walkWords w.ctx w.gen w.va).map fun x => (x, false)))
    | _, _ => d

/-- A walker whose last table read has been served ends its walk. -/
def Dev.walkServed (d : Dev) (sreq : Nat) : Dev :=
  if d.memc.reqs.any fun x => x.req == sreq then d
  else match d.hedge.walks.find? fun w => 0x58 + w.walker == sreq with
    | some w => d.walkEnd w
    | none => d

/-! ### Invalidation (R160, R163) -/

/-- A write of HEDGE_INVAL with go has been stored: the invalidation starts, unless one is running. -/
def Dev.invalStart (d : Dev) : Dev :=
  if d.flag F.HEDGE_STATUS_inval_busy then d
  else
    let i : Inval := { scope := d.getF F.HEDGE_INVAL_scope, ctx := d.getF F.HEDGE_INVAL_ctx_id,
                       va := d.getF F.HEDGE_INVAL_VA_start * 0x1000, pages := max 1 (d.getF F.HEDGE_INVAL_PAGES_pages), start := d.fclk }
    (d.updHedge fun h => { h with inval := some i }).setB F.HEDGE_STATUS_inval_busy true

/-- Drop what an invalidation reaches from both caches. -/
def Dev.invalApply (d : Dev) (i : Inval) : Dev :=
  d.updHedge fun h => { h with
    tlb := h.tlb.filter (fun t => !i.hits t.ctx t.leaf.va t.leaf.size)
    nodes := h.nodes.filter fun n => !i.hits (n.1 / 2 ^ 20) (n.2.2 * 2 ^ (39 - 9 * n.2.1)) (2 ^ (39 - 9 * n.2.1)) }

/-- INVAL_COMPLETE (R160): the running invalidation takes effect. -/
def execInvalComplete (s : State) : Host.Outcome State Fault Refusal :=
  s.withDev fun d =>
    match d.hedge.inval with
    | none => d
    | some i => ((d.invalApply i).updHedge fun h => { h with inval := none, lastInval := some (i, d.fclk) }).setB F.HEDGE_STATUS_inval_busy false

/-! ### Fences (R161) -/

/-- Requests of an ID that are still outstanding: DMA transfers, engine jobs, Poleino transfers, walks. -/
def Dev.fenceOutstanding (d : Dev) (ctx : Nat) : Nat :=
  let dma := (List.range 16).foldl (fun n p =>
    (List.range 4).foldl (fun n q =>
      let qu := (d.plough p).queue q
      if qu.halt.isSome then n else n + (qu.xfers.filter fun x => x.ctx == ctx && !x.held).length) n) 0
  dma + (d.jobs.filter fun j => j.ctx == ctx && j.accepted).length + (d.links.xfers.filter fun x => x.ctx == ctx && x.accepted).length
    + (d.hedge.waiting.filter fun w => w.ctx == ctx).length + (d.hedge.walks.filter fun w => w.ctx == ctx).length

/-- A fence runs: steps 1 to 4. -/
def Dev.fenceRuns (d : Dev) : Bool := d.hedge.fences.any fun f => decide (1 ≤ f.step) && decide (f.step < 4)

/-- The first fence that waits starts, when none runs (R161 step 1): HEDGE_FENCE names its ID, and HEDGE_FENCE_STATUS shows it. -/
def Dev.fenceNext (d : Dev) : Dev :=
  if d.fenceRuns then d
  else match d.hedge.fences.find? fun f => f.step == 0 with
    | none => d
    | some f =>
      let d := d.updHedge fun h => { h with
        shown := f.ctx
        fences := h.fences.map fun x => if x.ctx = f.ctx then { x with step := 1, start := d.fclk, gen := (d.ctxOf f.ctx).gen } else x }
      let d := (d.setF F.HEDGE_FENCE_ctx_id f.ctx).setB F.HEDGE_FENCE_STATUS_busy true
      (d.setB F.HEDGE_FENCE_STATUS_active true).setB F.HEDGE_FENCE_STATUS_forced false

/-- Start a fence of an ID, or let it wait for the one that runs (R161). -/
def Dev.fenceStart (d : Dev) (ctx : Nat) : Dev :=
  (d.updHedge fun h => { h with fences := h.fences.filter (fun f => f.ctx != ctx) ++ [⟨ctx, (d.ctxOf ctx).gen, 0, d.fclk, 0⟩] }).fenceNext

/-- A write of HEDGE_FENCE (R161): with go it starts a fence; it is discarded whole while one is busy. -/
def Dev.fenceWrite (d : Dev) (a v : Nat) : Dev :=
  if !v.testBit 31 then d.storeReg a v
  else if d.flag F.HEDGE_FENCE_STATUS_busy then d
  else
    let d := d.storeReg a v
    d.fenceStart (d.getF F.HEDGE_FENCE_ctx_id)

/-- The end code of an engine's running job under a fence (R271, R296, R319, R353). -/
def fenceCode (engine : Nat) : Nat := if engine = 3 then gFault else 3

/-- The jobs of an ID on an engine under a fence: the running one of each lane, its work done or not, ends with an error; the held ones go. -/
def Dev.fenceJobs (d : Dev) (ctx : Nat) : Dev :=
  d.jobs.foldl (fun d j =>
    if j.ctx = ctx ∧ j.accepted then
      if ((d.laneJobs j.engine j.lane).head?.map (·.id)) = some j.id then
        let d := if j.engine = 2 then
            { d with mill := { d.mill with laneFree := (queueLanes j.lane).foldl (fun l x => SMap.set (fun _ => 0) l x d.cclk) d.mill.laneFree } }
          else d
        d.jobRan j (fenceCode j.engine) (if j.engine = 2 then [j.notes.getD 0 0, d.cclk] else if j.engine ≤ 1 then [] else j.notes)
      else d.dropJob j.id
    else d) d

/-- DMA queues with transfers of an ID halt with FENCED (R156, R161). -/
def Dev.fenceDma (d : Dev) (ctx : Nat) : Dev :=
  iter 16 d fun p d => iter 4 d fun q d =>
    let qu := (d.plough p).queue q
    match qu.halt, qu.xfers.find? fun x => x.ctx == ctx && !x.held with
    | none, some x =>
      let memc := d.memc
      let d := { d with memc := { memc with reqs := memc.reqs.filter fun y => y.req != 4 * p + q } }
      d.updPlough p fun pl => pl.setQueue q { pl.queue q with halt := some (fXlate, 0x08, (tdesc x.src).base) }
    | _, _ => d

/-- What a fence takes from a context beside its requests: its Granary sequences (R353) and its Mill resident slots (R319). -/
def Dev.fenceTakes (d : Dev) (ctx gen : Nat) : Dev :=
  let d := d.granCloseAll ctx gen
  d.mill.res.foldl (fun d e => if e.2.valid ∧ e.2.owner = ctx then d.setRes e.1 { e.2 with valid := false } else d) d

/-- Step 3 of a fence: what is still outstanding is answered with errors. The answer counts the requests. -/
def Dev.fenceForce (d : Dev) (ctx gen : Nat) : Dev × Nat :=
  let n := d.fenceOutstanding ctx
  let d := ((d.fenceDma ctx).fenceJobs ctx).linkFence ctx
  let gone := d.hedge.walks.filter fun w => w.ctx == ctx
  let memc := d.memc
  let d := { d with memc := { memc with reqs := memc.reqs.filter fun x =>
    !(gone.any fun w => 0x58 + w.walker == x.req) && !(x.ctx == ctx && decide (0x50 ≤ x.req) && decide (x.req < 0x54)) } }
  let d := d.updHedge fun h => { h with waiting := h.waiting.filter (fun w => w.ctx != ctx), walks := h.walks.filter fun w => w.ctx != ctx }
  (d.fenceTakes ctx gen, n)

/-- FENCE_DRAIN_END (R161 steps 2 and 3): the first fence whose requests have all completed, or whose 100 µs have passed. -/
def execFenceDrainEnd (s : State) : Host.Outcome State Fault Refusal :=
  s.withDev fun d =>
    match d.hedge.fences.find? fun f => f.step == 1 && (d.fenceOutstanding f.ctx == 0 || decide (f.start + 100016 ≤ d.fclk)) with
    | none => d
    | some f =>
      let (d, n) := d.fenceForce f.ctx f.gen
      let d := d.updHedge fun h => { h with fences := h.fences.map fun x => if x.ctx = f.ctx then { x with step := 3, forced := n } else x }
      if n != 0 then d.setB F.HEDGE_FENCE_STATUS_forced true else d

/-- FENCE_DONE (R161 step 4): the ID's cache entries are invalidated and the completion is reported with the requests that step 3
answered (R162). The requester byte, which no request names, is free (log 6). -/
def execFenceDone (s : State) : Host.Outcome State Fault Refusal :=
  s.withDev fun d =>
    match d.hedge.fences.find? fun f => f.step == 3 with
    | none => d
    | some f =>
      let d := d.invalApply { scope := 0, ctx := f.ctx, va := 0, pages := 1, start := 0 }
      let d := d.updHedge fun h => { h with fences := h.fences.map fun x => if x.ctx = f.ctx then { x with step := 4 } else x }
      let d := d.setB F.HEDGE_FENCE_STATUS_busy false
      let (req, d) := d.fresh
      (d.raise 0x0827 req f.ctx f.gen (hedgeDetail 0 req 0 0 0 f.forced)).fenceNext

/-- The Steward has written the ID's context table entry with a new generation: the fence ends (R161). HEDGE_FENCE_STATUS changes only
for the fence that it shows. -/
def Dev.unfence (d : Dev) (ctx : Nat) : Dev :=
  let ran := d.hedge.fences.any fun f => f.ctx == ctx && decide (1 ≤ f.step) && decide (f.step < 4)
  let d := d.updHedge fun h => { h with fences := h.fences.filter fun f => f.ctx != ctx }
  let d := if d.hedge.shown = ctx then d.setB F.HEDGE_FENCE_STATUS_active false else d
  if ran then (d.setB F.HEDGE_FENCE_STATUS_busy false).fenceNext else d

/-- HEDGE_FENCE_STATUS.outstanding: requests of the ID of the running fence still outstanding (R163). -/
def Dev.fenceStatus (d : Dev) : Nat :=
  (d.reg R.HEDGE_FENCE_STATUS).toNat % 65536
    + (d.hedge.fences.find? fun f => decide (1 ≤ f.step) && decide (f.step < 4)).elim 0 (fun f => d.fenceOutstanding f.ctx % 65536) * 65536

end Sys2Proof.Machine
end

