-- ==== Sys2Proof/Machine/Hitch.lean ====
section
/-! DEFINITION. The Hitch port (R430–R440): bus cycles in groups, publication and bank swap, the age, inbound captures. The K edges
of the model are the commands HITCH_READ_CYCLE, HITCH_WRITE_CYCLE (CS_N low) and BANK_SWAP (CS_N high) (log 80). -/

namespace Sys2Proof.Machine

/-- Change the Hitch port. -/
def Dev.updHitch (d : Dev) (f : HitchState → HitchState) : Dev := { d with hitch := f d.hitch }

/-- A Hitch record (R439): the area address and the mark. -/
def Dev.hitchEvent (d : Dev) (code area mark : Nat) : Dev := d.raise code 0 0 0 (dAt 16 8 area + dAt 28 4 mark)

/-- The publish area. -/
def Dev.pubArea (d : Dev) : Nat := d.getF F.HITCH_PUB_ADDR_address * 64
/-- The inbound area. -/
def Dev.inArea (d : Dev) : Nat := d.getF F.HITCH_IN_ADDR_address * 64

/-! ### K edges -/

/-- A K edge is seen (R434, R440). -/
def Dev.kEdge (d : Dev) : Dev :=
  (d.updHitch fun h => { h with kSeen := d.clk, ageEdges := min 4 (h.ageEdges + 1),
                                post := h.post.map (· + 1), inPost := h.inPost.map fun x => (x.1 + 1, x.2) }).setB F.HITCH_STATUS_k_active true

/-- The age as domain K sees it: it lags by at most 4 K clocks (R434), so within 4 edges of a change either value (log 6). -/
def Dev.ageInK (d : Dev) : Nat × Dev :=
  if 4 ≤ d.hitch.ageEdges then (d.getF F.HITCH_AGE_value, d)
  else
    let (c, d) := d.fresh
    (if c % 2 = 0 then d.hitch.agePrev else d.getF F.HITCH_AGE_value, d)

/-- Set the age. -/
def Dev.setAge (d : Dev) (v : Nat) : Dev :=
  let old := d.getF F.HITCH_AGE_value
  if old = v then d else (d.updHitch fun h => { h with agePrev := old, ageEdges := 0 }).setF F.HITCH_AGE_value v

/-- The flags of word 0x0002 (R430). -/
def Dev.hitchFlags (d : Dev) : Nat :=
  b2n (d.flag F.HITCH_STATUS_valid) + 2 * b2n (d.flag F.TOP_STATUS_plan_locked) + 4 * b2n (d.flag F.TOP_STATUS_recovery_active)
    + 8 * b2n (d.flag F.TOP_STATUS_holdover)

/-- A K edge with CS_N low: the first of a group captures the words 0x0001 and 0x0002 (R432). -/
def Dev.groupEdge (d : Dev) : Dev :=
  let d := d.kEdge
  match d.hitch.group with
  | some _ => d
  | none =>
    let (age, d) := d.ageInK
    d.updHitch fun h => { h with group := some (age, d.hitchFlags) }

/-- The active outbound bank. -/
def Dev.activeBank (d : Dev) : SMap Nat := if d.flag F.HITCH_STATUS_bank then d.hitch.bank1 else d.hitch.bank0

/-- The word that a read returns (R430, R438). -/
def Dev.hitchWord (d : Dev) (a : Nat) : Nat :=
  if !d.flag F.TOP_STATUS_steward_ready then 0
  else if a = 0x8000 then 0x481600B1
  else if a = 1 then (d.hitch.group.map (·.1)).getD 0
  else if a = 2 then (d.hitch.group.map (·.2)).getD 0
  else if a = 0 ∨ a = 3 ∨ (4 ≤ a ∧ a < d.getF F.HITCH_CFG_out_words) then SMap.get (fun _ => 0) d.activeBank a
  else 0

/-- HITCH_READ_CYCLE (R430–R432): the master reads a word of the active bank in the cycle that asks for it. -/
def execHitchReadCycle (addr : BitVec 16) (s : State) : Host.Outcome State Fault Refusal :=
  s.withDev fun d =>
    let d := d.groupEdge.bump R.HITCH_READS
    d.emit (.word (BitVec.ofNat 32 (d.hitchWord addr.toNat)))

/-- HITCH_WRITE_CYCLE (R430, R431): a word enters the inbound write bank; other addresses discard it. -/
def execHitchWriteCycle (addr : BitVec 16) (word : BitVec 32) (s : State) : Host.Outcome State Fault Refusal :=
  s.withDev fun d =>
    let d := d.groupEdge
    let d := d.updHitch fun h => { h with inWrites := h.inWrites + 1 }
    let i := addr.toNat - 0x4000
    if 0x4000 ≤ addr.toNat ∧ i < d.getF F.HITCH_CFG_in_words then
      d.updHitch fun h =>
        if h.inBank then { h with in1 := SMap.set (fun _ => 0) h.in1 i word.toNat }
        else { h with in0 := SMap.set (fun _ => 0) h.in0 i word.toNat }
    else d

/-! ### Publication (R433) -/

/-- A plough's store has retired: a store to word 0 of the publish area is a publication. One made while a swap is pending or a copy
runs is dropped. -/
def Dev.hitchStore (d : Dev) (key : Nat) (bytes : List Byte) : Dev :=
  let a := d.pubArea
  if d.flag F.HITCH_CFG_out_en && d.locked && decide (key ≤ a) && decide (a < key + bytes.length) then
    let mark := leAt bytes (a - key) 4
    let d := d.updHitch fun h => { h with pubs := h.pubs ++ [d.dev256] }
    if d.flag F.HITCH_STATUS_swap_pending || d.hitch.copy.isSome then (d.bump R.HITCH_PUB_DROP).hitchEvent 0x0B01 a mark
    else d.updHitch fun h => { h with copy := some ⟨d.clk, d.devNs, mark⟩ }
  else d

/-- PUBLISH_COPY (R433): 80 ns after the publication the area is read as Hedge requester 21, the words enter the shadow bank with the
device time, and the swap is posted; a refused or uncorrectable copy swaps nothing. -/
def execPublishCopy (s : State) : Host.Outcome State Fault Refusal :=
  s.withDev fun d =>
    match d.hitch.copy with
    | none => d
    | some p =>
      if d.clk < p.at' + 1920 then d
      else
        let d := d.updHitch fun h => { h with copy := none }
        let n := d.getF F.HITCH_CFG_out_words
        match d.mgmtRead 21 0x5D false d.pubArea (4 * n) with
        | (d, .error _) => d.hitchEvent 0x0B03 d.pubArea p.mark
        | (d, .ok bs) =>
          let bank := (List.range n).foldl (fun m i =>
            let v := if i = 3 then p.ns / 1000 % 2 ^ 32 else if i = 1 ∨ i = 2 then 0 else leAt bs (4 * i) 4
            SMap.set (fun _ => 0) m i v) ([] : SMap Nat)
          let d := d.updHitch fun h =>
            let h := { h with post := some 0, postMark := leAt bs 0 4 }
            if d.flag F.HITCH_STATUS_bank then { h with bank0 := bank } else { h with bank1 := bank }
          d.setB F.HITCH_STATUS_swap_pending true

/-- The posted swap applies (R433, R434, R438). -/
def Dev.applySwap (d : Dev) : Dev :=
  match d.hitch.post with
  | some e =>
    if e < 3 then d
    else
      let d := d.setB F.HITCH_STATUS_bank (!d.flag F.HITCH_STATUS_bank)
      let d := (d.setB F.HITCH_STATUS_valid true).setF F.HITCH_MARK_value d.hitch.postMark
      ((d.bump R.HITCH_PUBLISHED).setAge 0).updHitch fun h => { h with post := none, ack := true }
  | none => d

/-- The posted capture swaps the inbound banks (R435). -/
def Dev.applyCapture (d : Dev) : Dev :=
  match d.hitch.inPost with
  | some (e, m) =>
    if e < 3 then d
    else d.updHitch fun h => { h with inPost := none, inBank := !h.inBank, inAck := some (m, h.inWrites), inWrites := 0 }
  | none => d

/-- BANK_SWAP (R432): a K edge at which CS_N is high ends the group; a swap or capture posted at least three K edges ago applies. -/
def execBankSwap (s : State) : Host.Outcome State Fault Refusal :=
  s.withDev fun d => ((d.kEdge.updHitch fun h => { h with group := none }).applySwap).applyCapture

/-- SWAP_ACKNOWLEDGE (R433): the acknowledgement reaches domain F. -/
def execSwapAcknowledge (s : State) : Host.Outcome State Fault Refusal :=
  s.withDev fun d =>
    if d.hitch.ack then (d.updHitch fun h => { h with ack := false }).setB F.HITCH_STATUS_swap_pending false else d

/-! ### Age (R434) -/

/-- AGE_INCREMENT (R434): at t_m + deadline the age increments when no publication has retired since the deadline before. -/
def execAgeIncrement (s : State) : Host.Outcome State Fault Refusal :=
  s.withDev fun d =>
    let sc := d.getF F.HITCH_CFG_schedule
    let m := d.hitch.ageMark
    let due := (d.markTime sc m + d.getF F.HITCH_DEADLINE_ns) * 256
    if !d.locked || !d.flag F.HITCH_CFG_out_en || decide (d.dev256 < due) then d
    else
      let from' := due - d.schedPeriod sc * 256
      let hit := d.hitch.pubs.any fun t => decide (from' ≤ t) && decide (t < due)
      let d := d.updHitch fun h => { h with ageMark := m + 1, pubs := h.pubs.filter fun t => decide (due ≤ t) }
      if hit then d else (d.setAge (min 0xFFFFFFFF (d.getF F.HITCH_AGE_value + 1))).hitchEvent 0x0B02 d.pubArea m

/-! ### Inbound (R435) -/

/-- INBOUND_CAPTURE (R435): at t_m + capture the capture is posted, or skipped while the one before is still running. -/
def execInboundCapture (s : State) : Host.Outcome State Fault Refusal :=
  s.withDev fun d =>
    let sc := d.getF F.HITCH_CFG_schedule
    let m := d.hitch.capMark
    let due := (d.markTime sc m + d.getF F.HITCH_CAPTURE_ns) * 256
    if !d.locked || !d.flag F.HITCH_CFG_in_en || decide (d.dev256 < due) then d
    else
      let d := d.updHitch fun h => { h with capMark := m + 1 }
      if d.hitch.inPost.isSome || d.hitch.inAck.isSome then d.bump R.HITCH_IN_DROP
      else d.updHitch fun h => { h with inPost := some (0, m) }

/-- CAPTURE_ACKNOWLEDGE (R435): the captured bank is copied to the inbound area and cleared. The reserved bytes 16 to 63 are written
as zero (R14). -/
def execCaptureAcknowledge (s : State) : Host.Outcome State Fault Refusal :=
  s.withDev fun d =>
    match d.hitch.inAck with
    | none => d
    | some (m, writes) =>
      let bank := if d.hitch.inBank then d.hitch.in0 else d.hitch.in1
      let words := (List.range (d.getF F.HITCH_CFG_in_words)).flatMap fun i => leBytes 4 (SMap.get (fun _ => 0) bank i)
      let body := leBytes 8 d.devNs ++ leBytes 4 m ++ leBytes 4 writes ++ List.replicate 48 0 ++ words
      let (d, bad) := d.mgmtWrite 21 0x5D false d.inArea body
      let d := if bad.isSome then d.hitchEvent 0x0B03 d.inArea m else d
      d.updHitch fun h => if h.inBank then { h with in0 := [], inAck := none } else { h with in1 := [], inAck := none }

/-! ### The life of the port (R438, R440) -/

/-- The lock of a plan clears both banks, the mark word, the age and valid (R438); a group that runs holds its words 1 and 2 (R432). -/
def Dev.hitchLock (d : Dev) : Dev :=
  let h := d.hitch
  let d := { d with hitch := { kSeen := h.kSeen, group := h.group, agePrev := h.agePrev, ageEdges := h.ageEdges } }
  let d := (d.setF F.HITCH_MARK_value 0).setAge 0
  (d.setB F.HITCH_STATUS_valid false).setB F.HITCH_STATUS_swap_pending false

/-- HITCH_CLOCK_STOPPED (R440): no K edge has been seen for 1 µs. -/
def execHitchClockStopped (s : State) : Host.Outcome State Fault Refusal :=
  s.withDev fun d => if d.hitch.kSeen + 24000 ≤ d.clk then d.setB F.HITCH_STATUS_k_active false else d

end Sys2Proof.Machine
end

