-- ==== Sys2Proof/Machine/Retire.lean ====
section
/-! DEFINITION. Engine issues and waits (R87–R89), the retirement of bundles (R91), the ends of COMMIT and SQUASH (R60, R77) and of engine
windows (R89). -/

namespace Sys2Proof.Machine

/-! ### COMMIT_DONE and SQUASH_DONE -/

/-- A mark has been resolved: kept for the links' checks of later data (R410). -/
def Dev.noteResolved (d : Dev) (t : PTag) (commit : Bool) : Dev :=
  d.updSched t.sched fun x => { x with sealedMarks := (t.mark, commit) :: x.sealedMarks.filter fun y => y.1 != t.mark }

/-- COMMIT(s, m) takes effect (R60): regions become SEALED, held events and counts are delivered, staging rows are kept, the
work that carries the tag goes on as committed work, and BAD_COMMIT reports a mark that the Yoke has not kept (R253). -/
def Dev.commitMark (d : Dev) (t : PTag) (ctx gen : Nat) : Dev :=
  let d := d.badCommit t.sched t.mark ctx gen
  let d := d.moveRegions (fun r => r.sched == t.sched && r.mark == t.mark) 2
  let d := ((d.releaseHeld t).granResolve t true).linkCommit t
  let d : Dev := { d with jobs := d.jobs.map fun (j : Job) => if j.tag = some t then { j with tag := none } else j }
  (d.resolveDma t true).noteResolved t true

/-- SQUASH(s, m) takes effect (R60): regions become EMPTY, held events and counts are dropped, staging rows are undone. -/
def Dev.squashMark (d : Dev) (t : PTag) : Dev :=
  let d := d.moveRegions (fun r => r.sched == t.sched && r.mark == t.mark) 0
  let d := ((d.dropHeld t).granResolve t false).linkSquash t
  let d := (d.resolveDma t false).noteResolved t false
  iter 16 d fun n d => iter 4 d fun q d => d.dmaStart n q

/-- The oldest COMMIT or SQUASH of a plough whose time has come ends: provisional mode of its schedule ends on the plough, and the mark is
resolved, unless it was before (R77); of two ploughs that resolve one mark together the first to end moves its regions. -/
def Dev.markEnd (d : Dev) (n : Nat) (squash : Bool) : Dev :=
  let pl := d.plough n
  match pl.markOps.find? fun o => o.squash == squash && decide (o.due ≤ d.cclk) with
  | none => d
  | some o =>
    let d := d.updPlough n fun pl => { pl with markOps := pl.markOps.erase o }
    if o.known then d
    else
      let d := d.updPlough n fun pl => { pl with pmode := pl.pmode.filter fun t => t.sched != o.tag.sched }
      if (d.markSealed o.tag).isSome then d
      else if squash then d.squashMark o.tag else d.commitMark o.tag pl.ctx pl.gen

/-- COMMIT_DONE (R60, R77): sixteen clocks after COMMIT. -/
def execCommitDone (p : BitVec 4) (s : State) : Host.Outcome State Fault Refusal := s.withDev fun d => d.markEnd p.toNat false

/-- SQUASH_DONE (R60, R77): sixty-four clocks after SQUASH. -/
def execSquashDone (p : BitVec 4) (s : State) : Host.Outcome State Fault Refusal := s.withDev fun d => d.markEnd p.toNat true

/-! ### EISSUE and EWAIT -/

/-- Calendar kinds that admit an EISSUE: Yoke 0x40 (R265), Sieve 0x01 (R275), Mill 0x01 to 0x05 (R299), Granary 0x01 to 0x04 (R330). -/
def issueKind (engine kind : Nat) : Bool :=
  match engine with
  | 0 => kind == 0x40
  | 1 => kind == 1
  | 2 => decide (1 ≤ kind) && decide (kind ≤ 5)
  | _ => decide (1 ≤ kind) && decide (kind ≤ 4)

/-- The queue of an engine that a window's kind names. -/
def issueLane (engine kind : Nat) : Nat := if engine ≤ 1 then 0 else kind - 1

/-- Places of a queue: 8 for projection and the Sieve (R265, R276), 4 for each queue of the Mill and the Granary (R299, R330). -/
def issuePlaces (engine : Nat) : Nat := if engine ≤ 1 then 8 else 4

/-- RESOURCE_COLLISION at an engine queue (R93). -/
def queueFault (engine lane : Nat) : PFault :=
  { code := fResource, b25 := 3, b27 := engine + 16 * (if engine = 2 ∧ lane = 4 then 0xF else lane) }

/-- An engine parked by the Reeve refuses every issue (R469). -/
def Dev.engineParked (d : Dev) (e : Nat) : Bool := (d.getF F.REEVE_UNIT_PARKED_engine).testBit e

/-- EISSUE (R44, R88): inside a window of the issuing context the issue goes to the engine's queue, where it takes a place in the clock after. -/
def execEissue (p : Runner) (w : BitVec 64) (s : State) : Host.Outcome State Fault Refusal :=
  s.withDev fun d => d.ploughRun p slotX w (zeros w [(0, 30)]) fun v d =>
    let n := p.toNat
    let e := wf' w 49 2
    let dd := wf' w 36 5
    match d.windowFor e v.ctx fun x => issueKind e x.kind with
    | none => d.plFault n slotX { code := fEngineWindow }
    | some win =>
      if d.engineParked e then d.plFault n slotX { code := fEngineWindow }
      else
        let j : Job :=
          { id := d.nextId, engine := e, lane := issueLane e win.kind, kind := wf' w 41 8, plough := n, ctx := v.ctx, gen := v.gen,
            addr := (v.rdS (wf' w 30 6)).toNat, dd := v.rdD dd, dd2 := v.rdD ((dd + 1) % 32), tag := (d.plough n).pmode, issue := d.cclk,
            winEnd := d.plan.cBase + win.start + win.len, accepted := false, acceptAt := 0, ran := false, result := 0, hold := 0,
            overrun := false, notes := [dd % 2] }
        ({ d with nextId := d.nextId + 1, jobs := d.jobs ++ [j] } : Dev).holdEff n slotX (.issue j.id)

/-- An issue of the clock before takes its place (R88): it finds the places taken before it, those of the same clock by lower-numbered
ploughs among them; a queue that is full, or in the Mill and the Granary one to which a lower-numbered plough issued in the same clock,
is a RESOURCE_COLLISION of the issuing bundle (R265, R276, R299, R330; the order at the Yoke and the Sieve is log 97). -/
def Dev.placeIssue (d : Dev) (j : Job) : Dev :=
  let before := d.jobs.filter fun k => k.engine == j.engine && k.lane == j.lane
    && (decide (k.issue < j.issue) || (k.issue == j.issue && decide (k.plough < j.plough)))
  let rival := decide (2 ≤ j.engine) && before.any fun k => k.issue == j.issue
  if rival || decide (issuePlaces j.engine ≤ before.length) then d.plFaultAt j.plough slotX j.issue (queueFault j.engine j.lane) else d

/-- The issues of the clock before this one take their places (R88), by ascending plough. -/
def Dev.placeIssues (d : Dev) : Dev :=
  iter 16 d fun n d =>
    match d.jobs.find? fun j => j.plough == n && !j.accepted && j.issue + 1 == d.cclk with
    | some j => d.placeIssue j
    | none => d

/-- EWAIT (R89): with no outstanding issue of the context to the engine pd takes 1; else the plough waits for the oldest one, until the
window of that issue ends, or that of a later window of the context which is open now. -/
def execEwait (p : Runner) (w : BitVec 64) (s : State) : Host.Outcome State Fault Refusal :=
  s.withDev fun d => d.ploughRun p slotX w (zeros w [(0, 45)]) fun v d =>
    let n := p.toNat
    let e := wf' w 49 2
    let pd := wf' w 45 4
    match d.jobs.find? fun j => j.engine == e && j.ctx == v.ctx && j.gen == v.gen with
    | none => d.result n slotX 1 (.pred pd true)
    | some j =>
      let winEnd := match d.windowFor e v.ctx fun x => issueKind e x.kind with
        | some x => max j.winEnd (d.plan.cBase + x.start + x.len)
        | none => j.winEnd
      if winEnd ≤ d.cclk then d.result n slotX 1 (.pred pd false)
      else d.updPlough n fun pl => pl.hold (.engine j.id pd e winEnd)

/-! ### BUNDLE_RETIRE (R91) -/

/-- A job still held when its window has ended is counted and reported, once (R272, R294, R352); the Mill has no such count. -/
def Dev.overrunAt (d : Dev) (j : Job) : Dev :=
  let d := d.updJob j.id fun x => { x with overrun := true }
  match j.engine with
  | 0 => d.projOverrun j
  | 1 => d.sieveOverrun j
  | 3 => d.granOverrun j
  | _ => d

/-- An engine accepts an issue (R88): the work that its chapter places at acceptance is done; an engine under recovery accepts
nothing; a job accepted after its window's end was incomplete then (R272, R294, R352). -/
def Dev.engineAccept (d : Dev) (id : Nat) : Dev :=
  match d.jobs.find? fun j => j.id == id with
  | none => d
  | some j0 =>
    if d.unitBusy (16 + j0.engine) then d.dropJob id
    else
      let j : Job := { j0 with accepted := true, acceptAt := d.cclk }
      let d := d.updJob id fun _ => j
      let d := if j.winEnd ≤ d.cclk ∧ j.overrun = false then d.overrunAt j else d
      match j.engine with
      | 0 => d.projAccept j
      | 1 => d.sieveAccept j
      | 2 => d.millAccept j
      | _ => d.granAccept j

/-- A held transfer of a DMA queue starts. -/
def Dev.dmaRetire (d : Dev) (n q issue : Nat) : Dev :=
  let d := d.updPlough n fun pl =>
    let x := pl.queue q
    pl.setQueue q { x with xfers := x.xfers.map fun (y : Dma) => if y.issue = issue then { y with held := false } else y }
  match ((d.plough n).queue q).xfers with
  | x :: _ => if x.issue = issue then d.dmaStart n q else d
  | [] => d

/-- Order of held effects: by bundle, then by slot. -/
def insertHeld (x : HeldEff) : List HeldEff → List HeldEff
  | [] => [x]
  | y :: ys => if y.issue < x.issue ∨ (y.issue = x.issue ∧ y.slot ≤ x.slot) then y :: insertHeld x ys else x :: y :: ys

/-- One held effect takes effect. -/
def Dev.retireEff (d : Dev) (n : Nat) (h : HeldEff) : Dev :=
  match h.eff with
  | .store key bs _ =>
    let pl := d.plough n
    (d.writeKey key bs ⟨n, 0, pl.ctx, pl.gen⟩).1.hitchStore key bs
  | .dma q => d.dmaRetire n q h.issue
  | .issue id => d.engineAccept id
  | .send _ x => d.linkAccept x
  | .recv _ x => d.linkAccept x

/-- BUNDLE_RETIRE (R91): the bundles issued 48 clocks ago or earlier retire, and what they hold takes effect in order. -/
def execBundleRetire (p : BitVec 4) (s : State) : Host.Outcome State Fault Refusal :=
  s.withDev fun d =>
    let n := p.toNat
    let now := d.cclk
    let due := ((d.plough n).held.filter fun h => decide (h.issue + 48 ≤ now)).foldl (fun acc x => insertHeld x acc) []
    let d := d.updPlough n fun pl => { pl with held := pl.held.filter fun h => decide (now < h.issue + 48) }
    due.foldl (fun d h => d.retireEff n h) d

/-! ### ENGINE_WINDOW_END (R89) -/

/-- A wait for an engine whose window has ended by C clock `now`. -/
def Wait.windowPast (e now : Nat) : Wait → Bool
  | .engine _ _ eng winEnd => eng == e && decide (winEnd ≤ now)
  | _ => false

/-- Ploughs that wait for an engine past the end of the window go on with pd = 0 (R89). -/
def Dev.ewaitRelease (d : Dev) (e : Nat) : Dev :=
  iter 16 d fun n d => d.updPlough n fun pl => pl.ewaitEnd d.cclk false (Wait.windowPast e d.cclk)

/-- ENGINE_WINDOW_END (R89, R257): what the end of an engine's window does. -/
def execEngineWindowEnd (engine : BitVec 2) (s : State) : Host.Outcome State Fault Refusal :=
  s.withDev fun d =>
    let e := engine.toNat
    let d := if e = 0 then d.fuseWindowEnd else d
    let d := d.ewaitRelease e
    (d.jobs.filter fun j => j.engine == e && j.accepted && !j.overrun && decide (j.winEnd ≤ d.cclk)).foldl (fun d j => d.overrunAt j) d

end Sys2Proof.Machine
end

