-- ==== Sys2Proof/Machine/StackWin.lean ====
section
/-! DEFINITION. The stack controllers (R377, R387–R391) and the maintenance of every bank (R384, R392–R395). -/

namespace Sys2Proof.Machine

/-! ### Service (R387, R391) -/

/-- STACK_WINDOW_MISS (R45, R391, R397). -/
def Dev.windowMiss (d : Dev) (ch : Nat) (r : StackReq) : Dev :=
  (d.bump R.MEM_WINDOW_MISS).raise 0x0901 ch r.ctx r.gen (dAt 24 1 r.req + dAt 25 1 (ch / 16) + dAt 28 4 r.mclk)

/-- Whether a refresh runs on a channel. -/
def Dev.refreshing (d : Dev) (ch : Nat) : Bool := decide (d.mclk < SMap.get (fun _ => 0) d.memc.refreshing ch)

/-- A bank or channel has moved its word of this clock (R376, R391). -/
def Dev.movedNow (d : Dev) (bank clk : Nat) : Bool := SMap.get (fun _ => 0) d.memc.moved bank == clk + 1

/-- A bank or channel moves its word of this clock. -/
def Dev.moveWord (d : Dev) (bank clk : Nat) : Dev :=
  { d with memc := { d.memc with moved := SMap.set (fun _ => 0) d.memc.moved bank (clk + 1) } }

/-- The requester that a channel serves now (R387, R391): the owner of its window, or the rotating pointer's choice. -/
def Dev.chanRequester (d : Dev) (ch : Nat) : Option Nat :=
  let waits := fun (r : Nat) => d.memc.reqs.any fun x => chanOf x.word == ch && x.req == r
  if d.refreshing ch || d.movedNow ch d.mclk then none
  else if d.openMode then rotPick 0x60 (SMap.get (fun _ => 0) d.memc.arb ch) waits
  else match d.chanWindow ch with
    | some w => if w.req ≠ 0xFF ∧ waits w.req then some w.req else none
    | none => none

/-- STACK_REQUEST_SERVE (R387, R391): one word in an M clock, the oldest request of the requester served on the channel reads its word under the code (the words of an
access that its command has made were read then); a walker's last one ends its walk; in
open mode the pointer advances past the winner; a request issued outside its requester's windows is reported (R45). -/
def execStackRequestServe (ch : BitVec 5) (s : State) : Host.Outcome State Fault Refusal :=
  s.withDev fun d =>
    let c := ch.toNat
    match d.chanRequester c with
    | none => d
    | some r =>
      match d.memc.reqs.find? fun x => chanOf x.word == c && x.req == r with
      | none => d
      | some x =>
        let d := ({ d with memc := { d.memc with reqs := d.memc.reqs.erase x } } : Dev).moveWord c d.mclk
        let d := if d.openMode then
            { d with memc := { d.memc with arb := SMap.set (fun _ => 0) d.memc.arb c ((r + 1) % 0x60) } }
          else d
        let d := if x.missed then d.windowMiss c x else d
        if touches r || x.write || (d.badWords (32 * x.word) 32).isEmpty then d.walkServed r
        else
          let (d, _, _) := d.scanRead [x.word] ⟨r, r, x.ctx, x.gen⟩ 0 true
          if r < 0x40 || r == 0x5C then { d with memc := { d.memc with served := d.memc.served ++ [(r, x.word)] } } else d.walkServed r

/-- STACK_WINDOW_END (R391): the window of the channel that has ended last leaves its requester's unserved requests waiting, and
each is reported. -/
def execStackWindowEnd (ch : BitVec 5) (s : State) : Host.Outcome State Fault Refusal :=
  s.withDev fun d =>
    let c := ch.toNat
    if d.openMode then d
    else
      let ended := (d.chanWindows c).filter fun w => decide (w.start + w.len ≤ d.mcount)
      match ended.getLast? with
      | none => d
      | some w =>
        let e := d.plan.mBase + w.start + w.len
        if e ≤ SMap.get (fun _ => 0) d.memc.winEnds c then d
        else
          let left := d.memc.reqs.filter fun x => chanOf x.word == c && x.req == w.req && decide (x.mclk < e)
          let d := left.foldl (fun d x => d.windowMiss c x) d
          { d with memc := { d.memc with
              winEnds := SMap.set (fun _ => 0) d.memc.winEnds c e
              reqs := d.memc.reqs.map fun x => if left.contains x then { x with missed := false } else x } }

/-! ### Refresh (R387, R390) -/

/-- A refresh starts on a channel and runs until an M clock. -/
def Dev.startRefresh (d : Dev) (ch start stop : Nat) : Dev :=
  { d with memc := { d.memc with
      refreshAt := SMap.set (fun _ => 0) d.memc.refreshAt ch start
      refreshing := SMap.set (fun _ => 0) d.memc.refreshing ch stop } }

/-- REFRESH_WINDOW (R390): the planned refresh of the window that is open; a timer refresh running at the boundary counts as the
one at M clock 0. -/
def execRefreshWindow (ch : BitVec 5) (s : State) : Host.Outcome State Fault Refusal :=
  s.withDev fun d =>
    let c := ch.toNat
    if d.openMode then d
    else match d.chanWindow c with
      | some w =>
        let st := d.plan.mBase + w.start
        if w.req ≠ 0xFF ∨ (w.start = 0 ∧ d.refreshing c) ∨ SMap.get (fun _ => 0) d.memc.refreshAt c = st + 1 then d
        else d.startRefresh c (st + 1) (st + w.len)
      | none => d

/-- TIMER_REFRESH (R387, R390): in open mode, and after the last planned refresh of a period, a refresh of 560 M clocks starts
3,120 M clocks after the one before. `refreshAt` holds the start plus 1. -/
def execTimerRefresh (ch : BitVec 5) (s : State) : Host.Outcome State Fault Refusal :=
  s.withDev fun d =>
    let c := ch.toNat
    let planned := !d.openMode && (d.chanWindows c).any fun w => w.req == 0xFF && decide (d.mcount < w.start + 1)
    if !planned ∧ SMap.get (fun _ => 0) d.memc.refreshAt c + 3120 ≤ d.mclk + 1 then d.startRefresh c (d.mclk + 1) (d.mclk + 560) else d

/-! ### Maintenance (R380, R384, R392–R395) -/

/-- The number of a bank as `bankOf` numbers it. -/
def bankNum : MaintBank → Nat
  | .ls n b => 1000 + n.toNat * 32 + b.toNat
  | .barn b => 2000 + b.toNat
  | .stack c => c.toNat

/-- Words of a bank (R376). -/
def bankWords : MaintBank → Nat
  | .ls _ _ => 6144
  | .barn _ => 24576
  | .stack _ => 50331648

/-- Word `k` of a bank in ascending address order (R376, R377). -/
def bankWord : MaintBank → Nat → Nat
  | .ls n b, k => lsKey n.toNat / 32 + k * 32 + b.toNat
  | .barn b, k => barnKey / 32 + (k / 8 * 64 + b.toNat) * 8 + k % 8
  | .stack c, k => (k / 64 * 32 + c.toNat) * 64 + k % 64

/-- Write a queued word back (R380): corrected data with fresh check bits, or the poison pattern (R381). -/
def Dev.writeBack (d : Dev) (x : WriteBack) : Dev :=
  let d := d.wordWritten x.word
  if x.poison then
    { d.noteWrote (32 * x.word) 32 with ecc := SMap.set eccNone d.ecc x.word { poison := true }, mem := Memory.write d.mem (32 * x.word) (List.replicate 32 0) }
  else d.noteWrote (32 * x.word) 32

/-- The first word at or after `w` that lies in a bank and below `stop`. -/
def nextInBank (bank w stop : Nat) : Option Nat :=
  ((List.range 2049).map (w + ·)).find? fun x => bankOf x == bank && decide (x < stop)

/-- One fill write of the bank: the first part with a word of the bank still to fill (R394). -/
def fillStep (bank : Nat) : List FillJob → Option (Nat × List FillJob)
  | [] => none
  | j :: js =>
    let rec go : List Fill → Option (Nat × List Fill)
      | [] => none
      | f :: fs =>
        let from' := max (f.lo / 32) (SMap.get (fun _ => 0) f.next bank)
        match nextInBank bank from' ((f.lo + f.len) / 32) with
        | some w => some (w, { f with next := SMap.set (fun _ => 0) f.next bank (w + 1) } :: fs)
        | none => match go fs with
          | some (w, fs) => some (w, f :: fs)
          | none => none
    match go j.parts with
    | some (w, ps) => some (w, { j with parts := ps } :: js)
    | none => match fillStep bank js with
      | some (w, js) => some (w, j :: js)
      | none => none

/-- The scrubber reads a word (R392, R393): an error is corrected or poisoned through the write-back path; no requester. -/
def Dev.scrubWord (d : Dev) (w : Nat) : Dev :=
  if (d.badWords (32 * w) 32).isEmpty then d
  else
    let (r, d) := d.fresh
    (d.scanRead [w] ⟨r % 256, 0x60, 0, 0⟩ 2 true).1

/-- The stack scrubber of a channel goes on to its next word; the end of its lap is recorded and reported (R392). -/
def Dev.scrubStack (d : Dev) (ch : Nat) (b : MaintBank) : Dev :=
  let k := SMap.get (fun _ => 0) d.memc.scrub ch
  let d := d.scrubWord (bankWord b k)
  if k + 1 < bankWords b then { d with memc := { d.memc with scrub := SMap.set (fun _ => 0) d.memc.scrub ch (k + 1) } }
  else
    let t0 := SMap.get (fun _ => 0) d.memc.lapStart ch
    let d := { d with memc := { d.memc with
      scrub := SMap.set (fun _ => 0) d.memc.scrub ch 0
      lapStart := SMap.set (fun _ => 0) d.memc.lapStart ch d.clk } }
    (d.setF F.MEM_SCRUB_LAP_ms (min 0xFFFFFFFF ((d.clk - t0) / 24000000))).raise 0x0905 ch 0 0 0

/-- The scrubber of an on-chip bank goes on; MEM_SRAM_LAPS counts its laps (R393). -/
def Dev.scrubSram (d : Dev) (b : MaintBank) : Dev :=
  let k := SMap.get (fun _ => 0) d.memc.sramScrub (bankNum b)
  let d := d.scrubWord (bankWord b k)
  let d := { d with memc := { d.memc with sramScrub := SMap.set (fun _ => 0) d.memc.sramScrub (bankNum b) ((k + 1) % bankWords b) } }
  if k + 1 < bankWords b then d else d.bump R.MEM_SRAM_LAPS

/-- The clock of a bank (R376). -/
def Dev.bankClk (d : Dev) : MaintBank → Nat
  | .ls _ _ => d.cclk
  | .barn _ => d.fclk
  | .stack _ => d.mclk

/-- Whether a bank may use this clock for maintenance: it has moved no word in it; a channel only in a maintenance window, or in open mode in a
clock with no request and no refresh (R387, R392). -/
def Dev.maintOk (d : Dev) (b : MaintBank) : Bool :=
  !d.movedNow (bankNum b) (d.bankClk b) && match b with
  | .stack c =>
    if d.openMode then (d.chanRequester c.toNat).isNone && !d.refreshing c.toNat
    else (match d.chanWindow c.toNat with
      | some w => w.req == 0x60
      | none => false)
  | _ => true

/-- Whether this clock may be a maintenance cycle: every maintenance clock of a channel, one in 16 of an on-chip bank (R384; log 105). -/
def Dev.maintCycle (d : Dev) (b : MaintBank) : Bool :=
  match b with
  | .stack _ => true
  | _ => SMap.get (fun _ => 0) d.memc.reserved (bankNum b) == 0 || decide (SMap.get (fun _ => 0) d.memc.reserved (bankNum b) + 16 ≤ d.bankClk b + 1)

/-- The bank uses this clock, as its maintenance cycle or not. -/
def Dev.useBank (d : Dev) (b : MaintBank) (cycle : Bool) : Dev :=
  let d := d.moveWord (bankNum b) (d.bankClk b)
  if cycle then { d with memc := { d.memc with reserved := SMap.set (fun _ => 0) d.memc.reserved (bankNum b) (d.bankClk b + 1) } } else d

/-- MAINTENANCE_CYCLE (R384, R392–R394): write-backs first, then fill, then the scrubber, which also takes an on-chip bank's other clocks (R393);
in open mode so does fill (R394). -/
def execMaintenanceCycle (bank : MaintBank) (s : State) : Host.Outcome State Fault Refusal :=
  s.withDev fun d =>
    if !d.maintOk bank then d
    else
      let cycle := d.maintCycle bank
      match if cycle then d.memc.wb.find? fun x => bankOf x.word == (bankNum bank) else none with
      | some x => (d.useBank bank true).writeBack x
      | none =>
        match if cycle || d.openMode then fillStep (bankNum bank) d.memc.fills else none with
        | some (w, js) =>
          let d := d.useBank bank cycle
          ({ d with memc := { d.memc with fills := js } } : Dev).fillKey (32 * w) 32
        | none =>
          let d := d.useBank bank false
          match bank with
          | .stack c => d.scrubStack c.toNat bank
          | _ => d.scrubSram bank

/-! ### Fills and stack state (R394, R395, R397) -/

/-- Start a fill of ranges (R394). -/
def Dev.startFill (d : Dev) (parts : List (Nat × Nat)) (ctx : Option Nat) (plan boot : Bool) : Dev :=
  let j : FillJob := { parts := parts.map fun p => { lo := p.1, len := p.2 }, ctx := ctx, plan := plan, boot := boot }
  ({ d with memc := { d.memc with fills := d.memc.fills ++ [j] } } : Dev).setB F.MEM_STATUS_fill_busy true

/-- The oldest fill completes (R394, R395): its words read zero with fresh check bits, and FILL_DONE is raised. R397 gives no
instance for a fill of several memories, so that byte is free (log 6). -/
def Dev.finishFill (d : Dev) : Dev × Option FillJob :=
  match d.memc.fills with
  | [] => (d, none)
  | j :: js =>
    let d := j.parts.foldl (fun d f => d.fillKey f.lo f.len) d
    let d := ({ d with memc := { d.memc with fills := js } } : Dev).setB F.MEM_STATUS_fill_busy !js.isEmpty
    let (inst, d) := d.fresh
    (d.raise 0x0906 inst 0 0 0, some j)

/-- STACK_TEMP_READ (R397, R504): the temperatures are shown, and a stack that has reached 95 °C is reported. -/
def execStackTempRead (t0 t1 : BitVec 8) (s : State) : Host.Outcome State Fault Refusal :=
  s.withDev fun d =>
    let d := (d.setF F.MEM_STACK_TEMP_stack0 t0.toNat).setF F.MEM_STACK_TEMP_stack1 t1.toNat
    let step := fun (i t : Nat) (d : Dev) =>
      let was := d.memc.hot.testBit i
      let d := { d with memc := { d.memc with hot := putBit d.memc.hot i (decide (95 ≤ t)) } }
      if decide (95 ≤ t) && !was then
        let (inst, d) := d.fresh
        d.raise 0x0907 inst 0 0 (dAt 25 1 i)
      else d
    step 1 t1.toNat (step 0 t0.toNat d)

end Sys2Proof.Machine
end

