-- ==== Sys2Proof/Machine/Crypto.lean ====
section
/-! DEFINITION. The cryptography of the boot and of the plan check (R47, R448, R456, R457): SHA-384, HMAC, HKDF, P-384 signatures.
The algorithms and their constants are the published standards that the spec names (log 34). -/

namespace Sys2Proof.Machine.Crypto

/-! ### SHA-384 (FIPS 180-4) -/

/-- The round constants of SHA-512. -/
def roundK : List Nat :=
  [0x428A2F98D728AE22, 0x7137449123EF65CD, 0xB5C0FBCFEC4D3B2F, 0xE9B5DBA58189DBBC,
    0x3956C25BF348B538, 0x59F111F1B605D019, 0x923F82A4AF194F9B, 0xAB1C5ED5DA6D8118,
    0xD807AA98A3030242, 0x12835B0145706FBE, 0x243185BE4EE4B28C, 0x550C7DC3D5FFB4E2,
    0x72BE5D74F27B896F, 0x80DEB1FE3B1696B1, 0x9BDC06A725C71235, 0xC19BF174CF692694,
    0xE49B69C19EF14AD2, 0xEFBE4786384F25E3, 0x0FC19DC68B8CD5B5, 0x240CA1CC77AC9C65]
  ++ [0x2DE92C6F592B0275, 0x4A7484AA6EA6E483, 0x5CB0A9DCBD41FBD4, 0x76F988DA831153B5,
    0x983E5152EE66DFAB, 0xA831C66D2DB43210, 0xB00327C898FB213F, 0xBF597FC7BEEF0EE4,
    0xC6E00BF33DA88FC2, 0xD5A79147930AA725, 0x06CA6351E003826F, 0x142929670A0E6E70,
    0x27B70A8546D22FFC, 0x2E1B21385C26C926, 0x4D2C6DFC5AC42AED, 0x53380D139D95B3DF,
    0x650A73548BAF63DE, 0x766A0ABB3C77B2A8, 0x81C2C92E47EDAEE6, 0x92722C851482353B]
  ++ [0xA2BFE8A14CF10364, 0xA81A664BBC423001, 0xC24B8B70D0F89791, 0xC76C51A30654BE30,
    0xD192E819D6EF5218, 0xD69906245565A910, 0xF40E35855771202A, 0x106AA07032BBD1B8,
    0x19A4C116B8D2D0C8, 0x1E376C085141AB53, 0x2748774CDF8EEB99, 0x34B0BCB5E19B48A8,
    0x391C0CB3C5C95A63, 0x4ED8AA4AE3418ACB, 0x5B9CCA4F7763E373, 0x682E6FF3D6B2B8A3,
    0x748F82EE5DEFB2FC, 0x78A5636F43172F60, 0x84C87814A1F0AB72, 0x8CC702081A6439EC]
  ++ [0x90BEFFFA23631E28, 0xA4506CEBDE82BDE9, 0xBEF9A3F7B2C67915, 0xC67178F2E372532B,
    0xCA273ECEEA26619C, 0xD186B8C721C0C207, 0xEADA7DD6CDE0EB1E, 0xF57D4F7FEE6ED178,
    0x06F067AA72176FBA, 0x0A637DC5A2C898A6, 0x113F9804BEF90DAE, 0x1B710B35131C471B,
    0x28DB77F523047D84, 0x32CAAB7B40C72493, 0x3C9EBE0A15C9BEBC, 0x431D67C49C100D4C,
    0x4CC5D4BECB3E42B6, 0x597F299CFC657E2A, 0x5FCB6FAB3AD6FAEC, 0x6C44198C4A475817]

/-- The initial hash value of SHA-384. -/
def hashIV : List Nat :=
  [0xCBBB9D5DC1059ED8, 0x629A292A367CD507, 0x9159015A3070DD17, 0x152FECD8F70E5939,
    0x67332667FFC00B31, 0x8EB44A8768581511, 0xDB0C2E0D64F98FA7, 0x47B5481DBEFA4FA4]

/-- A word of 64 bits. -/
def w64 (n : Nat) : Nat := n % 2 ^ 64

/-- Rotate a 64-bit word right. -/
def rotr (n k : Nat) : Nat := (n >>> k) ||| w64 (n <<< (64 - k))

/-- The message schedule: 80 words from the 16 of a block; the list holds the words so far, newest first. -/
def schedule : Nat → List Nat → List Nat
  | 0, w => w.reverse
  | k + 1, w =>
    let a := w.getD 1 0
    let b := w.getD 14 0
    let s1 := rotr a 19 ^^^ rotr a 61 ^^^ (a >>> 6)
    let s0 := rotr b 1 ^^^ rotr b 8 ^^^ (b >>> 7)
    schedule k (w64 (s1 + w.getD 6 0 + s0 + w.getD 15 0) :: w)

/-- The eight working variables. -/
structure Work where
  a : Nat
  b : Nat
  c : Nat
  d : Nat
  e : Nat
  f : Nat
  g : Nat
  h : Nat

/-- One round with its constant and schedule word. -/
def round (x : Work) (kw : Nat × Nat) : Work :=
  let s1 := rotr x.e 14 ^^^ rotr x.e 18 ^^^ rotr x.e 41
  let ch := (x.e &&& x.f) ^^^ ((2 ^ 64 - 1 - x.e) &&& x.g)
  let t1 := x.h + s1 + ch + kw.1 + kw.2
  let s0 := rotr x.a 28 ^^^ rotr x.a 34 ^^^ rotr x.a 39
  let maj := (x.a &&& x.b) ^^^ (x.a &&& x.c) ^^^ (x.b &&& x.c)
  ⟨w64 (t1 + s0 + maj), x.a, x.b, x.c, w64 (x.d + t1), x.e, x.f, x.g⟩

/-- The compression of one block of 128 bytes. -/
def compress (h : List Nat) (block : List Byte) : List Nat :=
  let w := schedule 64 ((List.range 16).map fun i => beNat ((block.drop (8 * i)).take 8)).reverse
  let g := fun i => h.getD i 0
  let x := (roundK.zip w).foldl round ⟨g 0, g 1, g 2, g 3, g 4, g 5, g 6, g 7⟩
  [w64 (g 0 + x.a), w64 (g 1 + x.b), w64 (g 2 + x.c), w64 (g 3 + x.d), w64 (g 4 + x.e), w64 (g 5 + x.f), w64 (g 6 + x.g), w64 (g 7 + x.h)]

/-- The hash of `n` blocks. -/
def hashBlocks : Nat → List Nat → List Byte → List Nat
  | 0, h, _ => h
  | n + 1, h, bs => hashBlocks n (compress h (bs.take 128)) (bs.drop 128)

/-- SHA-384: 48 bytes. -/
def sha384 (bs : List Byte) : List Byte :=
  let zeros := (239 - bs.length % 128) % 128
  let m := bs ++ [0x80#8] ++ List.replicate zeros 0 ++ beBytes 16 (8 * bs.length)
  ((hashBlocks (m.length / 128) hashIV m).flatMap fun x => beBytes 8 x).take 48

/-! ### HMAC-SHA-384 (RFC 2104) and HKDF (RFC 5869) -/

/-- HMAC-SHA-384. -/
def hmac (key msg : List Byte) : List Byte :=
  let k0 := if 128 < key.length then sha384 key else key
  let k := k0 ++ List.replicate (128 - k0.length) 0
  sha384 (k.map (· ^^^ 0x5C#8) ++ sha384 (k.map (· ^^^ 0x36#8) ++ msg))

/-- HKDF-SHA-384 without salt: 48 bytes for a label. -/
def hkdf (seed label : List Byte) : List Byte := hmac (hmac (List.replicate 48 0) seed) (label ++ [1#8])

/-! ### P-384 (FIPS 186) -/

/-- The field prime. -/
def pMod : Nat := 2 ^ 384 - 2 ^ 128 - 2 ^ 96 + 2 ^ 32 - 1
/-- The order of the base point. -/
def nMod : Nat := 0xffffffffffffffffffffffffffffffffffffffffffffffffc7634d81f4372ddf581a0db248b0a77aecec196accc52973
/-- The curve's coefficient b; a is −3. -/
def curveB : Nat := 0xb3312fa7e23ee7e4988e056be3f82d19181d9c6efe8141120314088f5013875ac656398d8a2ed19d2a85c8edd3ec2aef
/-- The base point. -/
def baseG : Nat × Nat :=
  (0xaa87ca22be8b05378eb1c71ef320ad746e1d3b628ba79b9859f741e082542a385502f25dbf55296c3a545e3872760ab7,
   0x3617de4a96262c6f5d9e98bf9292dc29f8f41dbd289a147ce9da3113b5f0b8c00a60b1ce1d7e819d7a431d7c90ea0e5f)

/-- `x ^ e mod m`, over the low `k` bits of `e`. -/
def powMod (m : Nat) : Nat → Nat → Nat → Nat
  | 0, _, _ => 1
  | k + 1, x, e =>
    let r := powMod m k (x * x % m) (e / 2)
    if e % 2 = 1 then r * x % m else r

/-- The inverse modulo a prime. -/
def invMod (m x : Nat) : Nat := powMod m 384 (x % m) (m - 2)

/-- A point of the curve; none is the point at infinity. -/
abbrev Pt := Option (Nat × Nat)

/-- Addition of points. -/
def addPt : Pt → Pt → Pt
  | none, q => q
  | p, none => p
  | some (x1, y1), some (x2, y2) =>
    if x1 = x2 ∧ (y1 + y2) % pMod = 0 then none
    else
      let l := if x1 = x2 then (3 * x1 * x1 + (pMod - 3)) % pMod * invMod pMod (2 * y1) % pMod
        else (y2 + pMod - y1) % pMod * invMod pMod (x2 + pMod - x1) % pMod
      let x3 := (l * l + 2 * pMod - x1 - x2) % pMod
      some (x3, (l * (x1 + pMod - x3) + pMod - y1) % pMod)

/-- Multiplication of a point by the low `k` bits of a number. -/
def mulPt : Nat → Nat → Pt → Pt
  | 0, _, _ => none
  | k + 1, n, p =>
    let r := mulPt k (n / 2) (addPt p p)
    if n % 2 = 1 then addPt p r else r

/-- A point lies on the curve. -/
def onCurve (q : Nat × Nat) : Bool :=
  decide (q.1 < pMod) && decide (q.2 < pMod) && q.2 * q.2 % pMod == (q.1 * q.1 % pMod * q.1 + (pMod - 3) * q.1 + curveB) % pMod

/-- ECDSA verification over a digest. -/
def verify (q : Nat × Nat) (digest : List Byte) (r s : Nat) : Bool :=
  if r = 0 ∨ nMod ≤ r ∨ s = 0 ∨ nMod ≤ s ∨ onCurve q = false then false
  else
    let w := invMod nMod s
    match addPt (mulPt 384 (beNat digest * w % nMod) (some baseG)) (mulPt 384 (r * w % nMod) (some q)) with
    | some (x, _) => x % nMod == r
    | none => false

/-- The candidates for k of RFC 6979, section 3.2, steps b to h. -/
def rfc6979 (fuel : Nat) (k v : List Byte) : Nat :=
  match fuel with
  | 0 => 1
  | fuel + 1 =>
    let v := hmac k v
    let c := beNat v
    if c ≠ 0 ∧ c < nMod then c
    else
      let k := hmac k (v ++ [0#8])
      rfc6979 fuel k (hmac k v)

/-- k for a private key and a digest (RFC 6979). -/
def nonceFor (d : Nat) (digest : List Byte) : Nat :=
  let x := beBytes 48 d ++ beBytes 48 (beNat digest % nMod)
  let v := List.replicate 48 1#8
  let k := hmac (List.replicate 48 0#8) (v ++ [0#8] ++ x)
  let v := hmac k v
  let k := hmac k (v ++ [1#8] ++ x)
  rfc6979 8 k (hmac k v)

/-- ECDSA signature over a digest with the k of RFC 6979. -/
def sign (d : Nat) (digest : List Byte) : Nat × Nat :=
  let k := nonceFor d digest
  match mulPt 384 k (some baseG) with
  | none => (0, 0)
  | some (x, _) =>
    let r := x % nMod
    (r, invMod nMod k * (beNat digest % nMod + r * d) % nMod)

/-- The public key of a private key. -/
def publicKey (d : Nat) : Nat × Nat := (mulPt 384 d (some baseG)).getD (0, 0)

end Sys2Proof.Machine.Crypto
end

