-- ==== Sys2Proof/Machine/Steward.lean ====
section
/-! DEFINITION. The Steward's own services: the mailbox (R444, R445), traps (R443), frames (R442), telemetry (R458, R459), the flash and
the log (R449, R460), the context table (R152). -/

namespace Sys2Proof.Machine

/-! ### The log queue (R460) -/

/-- An entry enters the queue of 256, or is dropped and counted. -/
def Dev.stewLog (d : Dev) (kind : Nat) (rec : List Byte) : Dev :=
  if d.stew.logQ.length < 256 then d.updStew fun x => { x with logQ := x.logQ ++ [(kind, rec)] }
  else ((d.updStew fun x => { x with logLost := x.logLost + 1 }).bump R.STEW_LOG_DROP).stewEvent 0x0C05 0 0

/-- Exactly `n` bytes of a list, zeros after its end. -/
def fitBytes (n : Nat) (bs : List Byte) : List Byte := (bs ++ List.replicate (n - bs.length) 0).take n

/-- A Steward entry: its record is a function of what it reports whose layout the spec does not give (log 35). -/
def Dev.stewNote (d : Dev) (kind : Nat) (facts : List Nat) : Dev := d.stewLog kind (fitBytes 32 (Config.stewRecord kind facts))

/-- A delivered record of a block whose mask bit is set enters the log (R460). -/
def Dev.logEvent (d : Dev) (e : Event) : Dev :=
  if (d.getF F.STEW_LOG_MASK_mask).testBit (e.code / 256) then d.stewLog 0 e.bytes else d

/-! ### The mailbox (R444, R445) -/

/-- Pending commands: waiting, running, and those whose PCIe response has not been popped. -/
def Dev.mboxPending (d : Dev) : Nat := d.stew.queue.length + b2n d.stew.running.isSome + d.stew.rsps.length

/-- 0 for PCIe, 1 for USB. -/
def pathCode : Path → Nat
  | .usb => 1
  | _ => 0

/-- A response of 32 bytes. -/
def response (c : MboxCmd) (result : Nat) (data : List Byte) : List Byte :=
  c.bytes.take 2 ++ leBytes 1 result ++ leBytes 1 (pathCode c.path) ++ (c.bytes.drop 4).take 4 ++ fitBytes 24 data

/-- Give a response: a USB response leaves on endpoint 1; a PCIe response enters the FIFO, with the vector when it was empty. -/
def Dev.giveResponse (d : Dev) (path : Path) (r : List Byte) : Dev :=
  match path with
  | .usb => d.emit (.usb 0 r)
  | _ =>
    let first := d.stew.rsps.isEmpty
    let d := d.updStew fun x => { x with rsps := x.rsps ++ [r] }
    if first then d.sendMsix (d.getF F.STEW_MBOX_CTL_vector) else d

/-- The running command ends with a result and data; command and result are logged. -/
def Dev.respond (d : Dev) (result : Nat) (data : List Byte := []) : Dev :=
  match d.stew.running with
  | none => d
  | some c =>
    let d := d.updStew fun x => { x with running := none }
    (d.giveResponse c.path (response c result data)).stewNote 2 [leNat c.bytes, result]

/-- A submission is answered BUSY (R444). -/
def Dev.mboxBusy (d : Dev) (c : MboxCmd) : Dev :=
  let d := (d.bump R.STEW_MBOX_BUSY).stewEvent 0x0C03 (leAt c.bytes 0 1) 0xF0
  if c.path = .usb then d.emit (.usb 0 (response c 0xF0 [])) else d.setB F.STEW_MBOX_CTL_last_busy true

/-- The USB command that has been accepted in this F clock: a PCIe submission of the same clock comes before it (R444). -/
def Dev.usbJust (d : Dev) : Option MboxCmd :=
  if d.stew.usbAt = some d.fclk then d.stew.queue.getLast?.bind fun c => if c.path = .usb then some c else none else none

/-- A submission (R444): it enters the queue, or with 64 commands pending is answered BUSY; where a PCIe command finds the last place taken by a
USB command of the same F clock, the USB command is. -/
def Dev.mboxSubmit (d : Dev) (path : Path) (cmd : List Byte) : Dev :=
  let c : MboxCmd := ⟨path, fitBytes 64 cmd, d.devNs⟩
  if path = .usb then
    if d.mboxPending < 64 then d.updStew fun x => { x with queue := x.queue ++ [c], usbAt := some d.fclk } else d.mboxBusy c
  else match d.usbJust with
    | none =>
      if d.mboxPending < 64 then (d.setB F.STEW_MBOX_CTL_last_busy false).updStew fun x => { x with queue := x.queue ++ [c] } else d.mboxBusy c
    | some u =>
      let e := (d.setB F.STEW_MBOX_CTL_last_busy false).updStew fun x => { x with queue := x.queue.dropLast ++ [c] }
      if d.mboxPending < 64 then e.updStew fun x => { x with queue := x.queue ++ [u] } else e.mboxBusy u

/-- The oldest response is taken. -/
def Dev.mboxPop (d : Dev) : Dev := d.updStew fun x => { x with rsps := x.rsps.drop 1 }

/-- STEW_MBOX_CTL with its counts (R463). -/
def Dev.mboxCtl (d : Dev) : Nat :=
  putField (putField (d.reg R.STEW_MBOX_CTL).toNat 8 7 d.stew.rsps.length) 16 7 d.mboxPending

/-! ### Accesses, traps, frames -/

/-- The Steward as requester (R445). -/
def stewWho : Who := ⟨23, 0x5F, 0, 0⟩

/-- The trap entry has run: it writes done (log 36). -/
def Dev.trapEntryDone (d : Dev) : Dev :=
  if d.stew.inTrap then (d.setB F.STEW_TRAP_done true).updStew fun x => { x with inTrap := false } else d

/-- The slices of a frame (R442). -/
inductive Slice where
  | telemetry | log | mailbox | housekeeping
deriving DecidableEq, Repr

/-- A slice's number and its bounds in the frame, in ns. -/
def Slice.bounds : Slice → Nat × Nat × Nat
  | .telemetry => (0, 0, 100000)
  | .log => (1, 100000, 200000)
  | .mailbox => (2, 200000, 950000)
  | .housekeeping => (3, 950000, 1000000)

/-- The frame of device time. -/
def Dev.frameNo (d : Dev) : Nat := d.devNs / 1000000

/-- Whether a slice of the present frame is open. -/
def Dev.sliceOpen (d : Dev) (s : Slice) : Bool :=
  let b := s.bounds
  let o := d.devNs % 1000000
  d.firmware && decide (b.2.1 ≤ o) && decide (o < b.2.2)

/-- Whether a slice is open and its work of this frame is not done. -/
def Dev.sliceDue (d : Dev) (s : Slice) : Bool :=
  d.sliceOpen s && SMap.get (fun _ => 0) d.stew.frames s.bounds.1 != d.frameNo + 1

/-- The Steward works on a command: in the mailbox slice (R442), or at any time in mode ROM, which has no frames. -/
def Dev.mailboxTime (d : Dev) : Bool :=
  (d.stew.booted && d.getF F.STEW_STATUS_mode == 0 && !d.stew.halted) || d.sliceOpen .mailbox

/-- The command of the running mailbox command whose opcode is `op`, while the Steward works on it. -/
def Dev.serves (d : Dev) (op : Nat) : Option (List Byte) := if d.mailboxTime then d.runs op else none

/-- The work of a slice is done in frame `n`. -/
def Dev.sliceDone (d : Dev) (s : Slice) (n : Nat) : Dev :=
  d.trapEntryDone.updStew fun x => { x with frames := SMap.set (fun _ => 0) x.frames s.bounds.1 (n + 1) }

/-! ### Telemetry (R458, R459) -/

/-- The sensors and how many frames lie between their samples. -/
def sensors : List (Nat × Nat) :=
  (List.range 8).map (fun i => (i, 1)) ++ [(8, 10), (9, 10), (0xA, 100), (0x10, 1), (0x11, 1), (0x12, 1), (0x13, 10), (0x14, 10),
    (0x15, 10), (0x16, 10), (0x17, 10), (0x18, 1000), (0x19, 1000)]

/-- Records of the telemetry ring. -/
def Dev.telSize (d : Dev) : Nat :=
  let l := d.getF F.STEW_TEL_CTL_log2_records
  2 ^ (if 8 ≤ l ∧ l ≤ 20 then l else 8)

/-- STEW_TEL_RD advances by 1 in this S clock. -/
def Dev.telAdvanced (d : Dev) : Dev :=
  let now := d.regClk R.STEW_TEL_RD
  d.updStew fun x => { x with telAdv := (now, if x.telAdv.1 = now then x.telAdv.2 + 1 else 1) }

/-- A write of STEW_TEL_RD has been stored: the advances of the same S clock apply to the value written (R459). -/
def Dev.telRdWritten (d : Dev) : Dev :=
  if d.stew.telAdv.1 = d.regClk R.STEW_TEL_RD then d.setF F.STEW_TEL_RD_count (d.getF F.STEW_TEL_RD_count + d.stew.telAdv.2) else d

/-- One sample enters the ring; a full ring loses its oldest record. -/
def Dev.telSample (d : Dev) (sensor : Nat) (v : Nat) : Dev :=
  let wr := d.getF F.STEW_TEL_WR_count
  let rd := d.getF F.STEW_TEL_RD_count
  let d := if (wr + 2 ^ 32 - rd) % 2 ^ 32 = d.telSize then
      (((d.setF F.STEW_TEL_RD_count (rd + 1)).telAdvanced).bump R.STEW_TEL_DROP).stewEvent 0x0C04 0 0
    else d
  let rec' := leBytes 8 d.devNs ++ leBytes 1 sensor ++ leBytes 3 0 ++ leBytes 4 v
  match d.mgmtWrite 23 0x5F false (d.getF F.STEW_TEL_BASE_base * 64 + 16 * (wr % d.telSize)) rec' with
  | (d, none) => d.setF F.STEW_TEL_WR_count (wr + 1)
  | (d, some r) => d.stewTrap (if r = 0x10 then 4 else 3)

/-- The value of a sample: the stack temperatures from MEM_STACK_TEMP, the others as the sensor gives them. -/
def Dev.sampleValue (d : Dev) (sensor : Nat) (v : BitVec 32) : Nat :=
  if sensor = 8 then d.getF F.MEM_STACK_TEMP_stack0 * 1000
  else if sensor = 9 then d.getF F.MEM_STACK_TEMP_stack1 * 1000
  else v.toNat

/-- TELEMETRY_SLICE (R442, R458): the enabled sensors whose turn has come are sampled; one without a reading in the slice is skipped. -/
def execTelemetrySlice (readings : List (Nat × BitVec 32)) (s : State) : Host.Outcome State Fault Refusal :=
  s.withDev fun d =>
    if !d.sliceDue .telemetry then d
    else
      let f := d.frameNo
      let d := d.sliceDone .telemetry f
      if !d.flag F.STEW_TEL_CTL_enable then d
      else
        let mask := d.getF F.STEW_TEL_MASK_mask
        let due := sensors.filter fun x => mask.testBit x.1 && f % x.2 == 0
        due.foldl (fun d x =>
          match readings.find? fun r => r.1 == x.1 with
          | some r => d.telSample x.1 (d.sampleValue x.1 r.2)
          | none => d.bump R.STEW_TEL_SKIP) d

/-- A write of STEW_TEL_CTL (R463): log2_records keeps its value while enable is 1; setting enable clears WR and RD. -/
def Dev.telCtlWritten (d : Dev) (v : Nat) : Dev :=
  let was := d.flag F.STEW_TEL_CTL_enable
  let d := if was then d else d.setF F.STEW_TEL_CTL_log2_records (field v 1 5)
  let d := d.setF F.STEW_TEL_CTL_enable (v % 2)
  if !was && v % 2 = 1 then (d.setF F.STEW_TEL_WR_count 0).setF F.STEW_TEL_RD_count 0 else d

/-! ### The flash (R449) and the log in it (R460) -/

/-- What an erased or unwritten byte of the flash reads as (log 8). -/
def flashDefault (_ : Nat) : Byte := 0xFF

/-- Bytes of the flash. -/
def Kept.flashRead (k : Kept) (off n : Nat) : List Byte := (List.range n).map fun i => SMap.get flashDefault k.flash (off + i)

/-- Write bytes of the flash. -/
def Kept.flashWrite (k : Kept) (off : Nat) (bs : List Byte) : Kept :=
  { k with flash := (k.flash.filter fun c => decide (c.1 < off))
      ++ ((List.range bs.length).zip bs).filterMap (fun x => if x.2 = 0xFF then none else some (off + x.1, x.2))
      ++ k.flash.filter fun c => decide (off + bs.length ≤ c.1) }

/-- Erase bytes of the flash. -/
def Kept.flashErase (k : Kept) (off n : Nat) : Kept := { k with flash := k.flash.filter fun c => !(decide (off ≤ c.1) && decide (c.1 < off + n)) }

/-- The log area. -/
def logBase : Nat := 0x3D00000
/-- Entries of the log area. -/
def logPlaces : Nat := 0x300000 / 64

/-- The 64 bytes of a log entry. -/
def logEntry (kind : Nat) (rec : List Byte) (seq boots : Nat) : List Byte :=
  let body := fitBytes 32 rec ++ leBytes 8 seq ++ leBytes 4 boots ++ leBytes 1 kind ++ List.replicate 15 0
  body ++ leBytes 4 (crc32 body)

/-- The sequence of a log entry whose CRC is correct. -/
def logSeqOf (e : List Byte) : Option Nat := if leAt e 60 4 = crc32 (e.take 60) then some (leAt e 32 8) else none

/-- Write one entry at the place of its sequence; before the entry that fills a sector the next sector is erased. -/
def State.logWrite (s : State) (kind : Nat) (rec : List Byte) : State :=
  let seq := (s.dev.reg R.STEW_LOG_SEQ).toNat
  let place := seq % logPlaces
  let k := if place % 64 = 63 then s.kept.flashErase (logBase + ((place + 1) % logPlaces) * 64) 4096 else s.kept
  { s with kept := k.flashWrite (logBase + place * 64) (logEntry kind rec seq s.dev.stew.bootCount),
           dev := s.dev.setReg R.STEW_LOG_SEQ (BitVec.ofNat 64 (seq + 1)) }

/-- Write the oldest queued entry, after the loss entry if entries were dropped (R460). -/
def State.logOne (s : State) : State :=
  match s.dev.stew.logQ with
  | [] => s
  | (kind, rec) :: rest =>
    let lost := s.dev.stew.logLost
    let s := { s with dev := s.dev.updStew fun x => { x with logQ := rest, logLost := 0 } }
    let s := if lost = 0 then s else s.logWrite 5 (List.replicate 16 0 ++ leBytes 4 lost ++ List.replicate 12 0)
    s.logWrite kind rec

/-- LOG_SLICE (R442, R460): at most 16 queued entries are written. -/
def execLogSlice (s : State) : Host.Outcome State Fault Refusal :=
  if s.dev.sliceDue .log then
    let s := { s with dev := s.dev.sliceDone .log s.dev.frameNo }
    .next (iter 16 s fun _ s => s.logOne)
  else .next s

/-- The first place after the highest sequence of the log (R460): the newest sector by its first entry, then the highest entry in it. -/
def Kept.logResume (k : Kept) : Nat × Nat :=
  let at' := fun (p : Nat) => k.flashRead (logBase + p * 64) 64
  let best := fun (acc : Option (Nat × Nat)) (p : Nat) =>
    match logSeqOf (at' p), acc with
    | some q, some b => if b.1 < q then some (q, p) else some b
    | some q, none => some (q, p)
    | none, b => b
  match (List.range (logPlaces / 64)).foldl (fun acc i => best acc (i * 64)) none with
  | none => (0, 0)
  | some (_, p) =>
    match (List.range 64).foldl (fun acc i => best acc (p / 64 * 64 + i)) none with
    | none => (0, 0)
    | some (q, p) => (q + 1, leAt (at' p) 40 4)

/-! ### The context table (R152) -/

/-- The Steward writes the entry of a context ID: root, generation, valid. -/
def Dev.writeCtxEntry (d : Dev) (id : Nat) (valid : Bool) : Dev :=
  let gen := (d.ctxOf id).gen
  let root := if valid then Config.tableRoot id gen / 4096 % 2 ^ 36 * 4096 else 0
  (d.writeKey (d.ctxTableKey id) (leBytes 8 root ++ leBytes 4 (gen % 2 ^ 20 + 2 ^ 20 * b2n valid) ++ leBytes 4 0) stewWho).1

/-! ### Rows of the mailbox and the telemetry ring -/

/-- STEW_TRAP (R443): a trap of the Steward's own code, with its cause. -/
def execStewTrap (cause : BitVec 4) (s : State) : Host.Outcome State Fault Refusal :=
  s.withDev fun d => if d.firmware then d.stewTrap cause.toNat else d

end Sys2Proof.Machine
end

