-- ==== Sys2Proof/Machine/Contexts.lean ====
section
/-! DEFINITION. Contexts (R358–R375): their tables and quotas, the context commands, the slice table, residency exchanges, retirement. -/

namespace Sys2Proof.Machine

/-! ### MAPPING sections (R358) -/

/-- A region record of a MAPPING section. -/
structure MapRegion where
  va : Nat
  bytes : Nat
  phys : Nat
  attrs : Nat
  size : Nat
  load : Bool
deriving DecidableEq, Repr

/-- The region record at an offset of a MAPPING section. -/
def mapRegionAt (m : List Byte) (o : Nat) : MapRegion :=
  { va := leAt m o 8, bytes := leAt m (o + 8) 8, phys := leAt m (o + 16) 8, attrs := leAt m (o + 24) 4, size := leAt m (o + 28) 1,
    load := leAt m (o + 29) 1 % 2 == 1 }

/-- The region records of a MAPPING section. -/
def mapRegions (m : List Byte) : List MapRegion := (List.range (leAt m 10 2)).map fun i => mapRegionAt m (64 + 32 * i)

/-- The page table entry of the region's first page. -/
def MapRegion.pte (r : MapRegion) : BitVec 64 := mkPte r.attrs (r.size % 4) r.phys

/-- The management key of the region's first byte. -/
def MapRegion.key (r : MapRegion) : Nat := keyOf (pteTarget r.pte) r.phys

/-- The leaves that map a region: pages of one size, contiguous frames. -/
def MapRegion.leaves (r : MapRegion) : List Leaf :=
  let pg := pageBytes r.size
  if pg = 0 then []
  else (List.range (r.bytes / pg)).map fun i => { va := r.va + i * pg, size := pg, pte := mkPte r.attrs (r.size % 4) (r.phys + i * pg) }

/-- Bytes of one plough state in a save area (R358). -/
def stateBytes : Nat := 297600

/-- plough_mask of a context. -/
def Dev.ploughMask (d : Dev) (id : Nat) : Nat := leAt (d.mapping id) 8 2

/-- The plough states in the save area of a context (R358): their address and their bytes. -/
def Dev.saveArea (d : Dev) (id : Nat) : Nat × Nat :=
  (leAt (d.mapping id) 16 8, stateBytes * maskBelow (d.ploughMask id) 16)

/-- A context is swappable (flags[2]). -/
def Dev.swappable (d : Dev) (id : Nat) : Bool := d.mapFlag id 2

/-! ### The SLICE section (R364, R365) -/

/-- The SLICE section. -/
def Dev.sliceSec (d : Dev) : List Byte := d.section 4 0

/-- Resident slots used. -/
def Dev.slotCount (d : Dev) : Nat := leAt d.sliceSec 4 1

/-- A resident-slot record: Barn partition base, its bytes, stack-window M clocks. -/
def Dev.slotRec (d : Dev) (rs : Nat) : Nat × Nat × Nat :=
  let o := 64 + 16 * rs
  (leAt d.sliceSec o 8, leAt d.sliceSec (o + 8) 4, leAt d.sliceSec (o + 12) 4)

/-- A slice table entry; `swap` for kind SWAP. -/
structure SliceEntry where
  start : Nat
  len : Nat
  plough : Nat
  swap : Bool
  rslot : Nat
deriving DecidableEq, Repr

/-- The entries of a SLICE section. -/
def sliceEntries (bs : List Byte) : List SliceEntry :=
  (List.range (leAt bs 0 4)).map fun i =>
    let o := 1088 + 16 * i
    { start := leAt bs o 4, len := leAt bs (o + 4) 4, plough := leAt bs (o + 8) 1, swap := leAt bs (o + 9) 1 == 1, rslot := leAt bs (o + 10) 1 }

/-- The entries of a plough, in order. -/
def Dev.ploughSlices (d : Dev) (n : Nat) : List SliceEntry := (sliceEntries d.sliceSec).filter fun e => e.plough == n

/-- The ploughs on which a resident slot has a RUN entry, as a mask (R365). -/
def Dev.slotPloughs (d : Dev) (rs : Nat) : Nat :=
  (sliceEntries d.sliceSec).foldl (fun m e => if e.swap ∨ e.rslot ≠ rs then m else putBit m e.plough true) 0

/-- The Barn bytes of a slot's partition beyond its save area: their address and their number. -/
def Dev.partRest (d : Dev) (rs : Nat) : Nat × Nat :=
  let r := d.slotRec rs
  let sv := stateBytes * maskBelow (d.slotPloughs rs) 16
  (r.1 + sv, r.2.1 - sv)

/-- A context that is not swappable holds the slot from the start (R358). -/
def Dev.slotFixed (d : Dev) (rs : Nat) : Bool :=
  (List.range d.ctxCount).any fun id => d.mapFlag id 1 && leAt (d.mapping id) 4 1 == rs && !d.swappable id

/-- The whole save area of a context: that of a swappable one is followed by space for the partition of any slot that it can hold (R358; log 37). -/
def Dev.saveSpace (d : Dev) (id : Nat) : Nat × Nat :=
  let sv := d.saveArea id
  let slots := (List.range d.slotCount).filter fun rs => !d.slotFixed rs
  (sv.1, sv.2 + if d.swappable id then slots.foldl (fun n rs => max n (d.partRest rs).2) 0 else 0)

/-- Where a plough's state lies in the Barn save area of a slot (R365). -/
def Dev.barnSave (d : Dev) (rs n : Nat) : Nat := (d.slotRec rs).1 + stateBytes * maskBelow (d.slotPloughs rs) n

/-- Where a plough's state lies in the save area of a context (R358). -/
def Dev.ctxSave (d : Dev) (id n : Nat) : Nat := (d.saveArea id).1 + stateBytes * maskBelow (d.ploughMask id) n

/-! ### The management space's attributes (R524) -/

/-- The ranges with ext = 0: page tables, the context table, the Granary's areas (R325), the save areas of R358 and R365. -/
def Dev.noExtRanges (d : Dev) : List (Nat × Nat) :=
  let pools := (List.range 4).flatMap fun p =>
    let g := d.gPool p
    let frames := d.getF (F.GRAN_POOL_FRAMES_frames p)
    [(g.base, frames * g.stores * g.slice), (g.rc, 2 * frames), (g.stack, 4 * frames), (d.getF (F.GRAN_POOL_BIAS_base p) * 256, 256 * g.stores)]
  let n := d.getF F.GRAN_STAGE_CFG_count
  [(0xBFF000000, 0x1000000), (d.ctxTableKey 0, 0x10000)]
    ++ [(d.gSeqAddr 0, 64 * n), (d.getF F.GRAN_PT_BASE_base * 0x10000, 32768 * n),
        (d.getF F.GRAN_STAGE_BASE_base * 0x10000, 1024 * d.getF F.GRAN_STAGE_CFG_stride * n)] ++ pools
    ++ (List.range d.ctxCount).map d.saveSpace
    ++ (List.range d.slotCount).map fun rs => ((d.slotRec rs).1, stateBytes * maskBelow (d.slotPloughs rs) 16)

/-- The provisional ranges of the live contexts. -/
def Dev.provRanges (d : Dev) : List (Nat × Nat × Nat × Nat) :=
  ((List.range d.ctxCount).filter fun id => (d.ctxOf id).live).flatMap fun id =>
    (mapRegions (d.mapping id)).filterMap fun r =>
      (pteProv r.pte).map fun p => (r.key, r.bytes, p.2, p.1)

/-- Set the attributes of the management space (R524); the Steward's invalidation of its cached pages is part of the change (R160; log 30). -/
def Dev.mgmtAttrs (d : Dev) : Dev :=
  (d.updHedge fun h => { h with noExt := d.noExtRanges.filter (fun r => r.2 != 0), prov := d.provRanges }).invalApply
    { scope := 2, ctx := 0, va := 0, pages := 1, start := 0 }

/-- The attributes while no plan has started: only the page tables are kept from external accesses. -/
def Dev.mgmtDefault (d : Dev) : Dev :=
  (d.updHedge fun h => { h with noExt := [(0xBFF000000, 0x1000000)], prov := [] }).invalApply { scope := 2, ctx := 0, va := 0, pages := 1, start := 0 }

/-! ### Bringing a context to life (R361, R362) -/

/-- The six quotas of a MAPPING section (R358). -/
def mapQuotas (m : List Byte) : List Nat := (List.range 6).map fun i => leAt m (32 + 4 * i) 4

/-- The ID becomes live with its current generation: tables, quotas, event queue, virtual times; it starts at its mark entry on every
plough (log 32). -/
def Dev.bringUp (d : Dev) (id : Nat) (life : CtxLife) (rslot : Nat) : Dev :=
  let m := d.mapping id
  let d := d.updHedge fun h => { h with tables := SMap.set (fun _ => []) h.tables id ((mapRegions m).flatMap MapRegion.leaves) }
  d.updCtx id fun c =>
    { life := life, rslot := rslot, gen := c.gen, quota := mapQuotas m, entryOn := List.range 16, evOn := leAt m 5 1 != 0,
      sliceCut := c.sliceCut }

/-- The Barn partition of a resident context is counted as its usage; likewise its slot's stack windows (R369). -/
def Dev.usageOf (d : Dev) (id i : Nat) : Nat :=
  let c := d.ctxOf id
  let r := if c.life = .resident then (d.slotRec c.rslot).2 else (0, 0)
  match i with
  | 0 => c.usage.getD 0 0
  | 1 => r.1
  | 2 => d.sievePoints id
  | 3 => (d.gran.charged.filter fun e => e.2 == id + 1).length
  | 4 => d.millHeld id
  | 5 => r.2
  | _ => 0

/-! ### Context commands (R362, R363) -/

/-- A command is accepted: busy sets. -/
def Dev.ctxCmdStart (d : Dev) (cmd id rslot : Nat) (src : CmdFrom) : Dev :=
  ({ d with ctxCmd := some { cmd := cmd, id := id, rslot := rslot, src := src } } : Dev).setB F.TOP_CTX_CMD_STATUS_busy true

/-- A write of TOP_CTX_CMD has been stored: with go it issues the command, or is discarded while one runs (R362). An undefined command
ends at once with a result that the spec does not give (log 6). -/
def Dev.ctxCmdGo (d : Dev) : Dev :=
  if d.ctxCmd.isSome then d.hwSet F.TOP_CTX_CMD_STATUS_rejected
  else
    let cmd := d.getF F.TOP_CTX_CMD_cmd
    if 1 ≤ cmd ∧ cmd ≤ 5 then d.ctxCmdStart cmd (d.getF F.TOP_CTX_CMD_ctx_id) (d.getF F.TOP_CTX_CMD_rslot) .reg
    else
      let (r, d) := d.fresh
      d.setF F.TOP_CTX_CMD_STATUS_result r

/-- CTX_CMD (R374). -/
def Dev.ctxCmdEvent (d : Dev) (cmd id result : Nat) : Dev :=
  d.raise 0x0010 0 id (d.ctxOf id).gen (dAt 24 1 cmd + dAt 25 1 result + dAt 28 4 d.plan.period)

/-- The running context command ends with a result (R363). -/
def Dev.ctxEnd (d : Dev) (result : Nat) : Dev :=
  match d.ctxCmd with
  | none => d
  | some c =>
    let d := (({ d with ctxCmd := none } : Dev).setB F.TOP_CTX_CMD_STATUS_busy false).setF F.TOP_CTX_CMD_STATUS_result result
    let d := if c.src = .mbox then d.respond result else d
    d.ctxCmdEvent c.cmd c.id result

/-- Run a step of the running context command, when it is `cmd`: the checks that every command shares come first. -/
def Dev.ctxRun (d : Dev) (cmd : Nat) (body : CtxCmd → Ctx → Dev → Dev) : Dev :=
  match d.ctxCmd with
  | none => d
  | some c =>
    if c.cmd ≠ cmd then d
    else if !d.locked then d.ctxEnd 0x08
    else if d.ctxCount ≤ c.id then d.ctxEnd 0x02
    else body c (d.ctxOf c.id) d

/-- Some plough runs a slice of the context now. -/
def Dev.ctxRunning (d : Dev) (id : Nat) : Bool :=
  (List.range 16).any fun n => (d.plough n).sliceIdx.isSome && (d.plough n).gen != 0 && (d.plough n).ctx == id

/-- CREATE (R362). -/
def execCreate (s : State) : Host.Outcome State Fault Refusal :=
  s.withDev fun d => d.ctxRun 1 fun c x d =>
    if x.life ≠ .retired then d.ctxEnd 0x01
    else if 0xFFFFF ≤ x.gen then d.ctxEnd 0x03
    else ((((d.bringUp c.id .swapped 0).writeCtxEntry c.id true).mgmtAttrs).ctxEnd 0)

/-- SUSPEND (R362): a running slice completes first. -/
def execSuspend (s : State) : Host.Outcome State Fault Refusal :=
  s.withDev fun d => d.ctxRun 2 fun c x d =>
    if !x.active then d.ctxEnd 0x01
    else if d.ctxRunning c.id then d
    else (d.updCtx c.id fun x => { x with suspended := true }).ctxEnd 0

/-- RESUME (R363): a context resumed from halted continues at its next mark entry point. A fault of the same F clock is applied after it (R372). -/
def execResume (s : State) : Host.Outcome State Fault Refusal :=
  s.withDev fun d => d.ctxRun 3 fun c x d =>
    if !x.active then d.ctxEnd 0x01
    else if x.halted && x.haltAt == some d.fclk then (d.updCtx c.id fun x => { x with suspended := false }).ctxEnd 0
    else (d.updCtx c.id fun x =>
      { x with suspended := false, halted := false, entryOn := if x.halted then List.range 16 else x.entryOn }).ctxEnd 0

/-! ### Retirement (R372) -/

/-- The context owns an enabled schedule or an enabled stream slot (R362). -/
def Dev.owns (d : Dev) (id : Nat) : Bool :=
  (List.range 8).any (fun s => d.schedOn s && d.schedOwner s == id)
    || (List.range 16).any fun k => d.flag (F.GATE_SLOT_MAP_enable k) && d.getF (F.GATE_SLOT_OWNER_ctx_id k) == id

/-- Pending exchanges that name a context are refused (R372 step 1). -/
def Dev.refuseExchange (d : Dev) (id : Nat) : Dev :=
  match d.exch with
  | some e => if e.id = id ∨ e.out = some id then ({ d with exch := none } : Dev).ctxEnd 0x01 else d
  | none => d

/-- Step 1: the context is RETIRING. -/
def Dev.retireStart (d : Dev) (id : Nat) : Dev :=
  (d.refuseExchange id).updCtx id fun c => { c with life := .retiring, retStep := 1 }

/-- The context held a resident slot when it began to retire. -/
def Dev.hadSlot (d : Dev) (id : Nat) : Bool := (d.ctxOf id).usage.getD 1 0 != 0

/-- What step 4 fills: the regions, the save area, the Barn partition of a resident context. -/
def Dev.retireFill (d : Dev) (id : Nat) : List (Nat × Nat) :=
  let sv := d.saveSpace id
  let part := if d.hadSlot id then [((d.slotRec (d.ctxOf id).rslot).1, (d.slotRec (d.ctxOf id).rslot).2.1)] else []
  ((mapRegions (d.mapping id)).map fun r => (r.key, r.bytes)) ++ [(sv.1, sv.2)] ++ part

/-- Step 5 (R372; for a suspect whose generations are spent, R471): the table entry takes the next generation with valid = 0, the fence ends, the ID is RETIRED. -/
def Dev.retireDone (d : Dev) (id : Nat) : Dev :=
  let spent := (d.ctxOf id).outcast
  let d := d.updCtx id fun c => { gen := c.gen + 1, sliceCut := c.sliceCut }
  let d := d.updHedge fun h => { h with tables := SMap.set (fun _ => []) h.tables id [] }
  let d := ((d.writeCtxEntry id false).unfence id).mgmtAttrs
  let d := if spent then d.ctxCmdEvent 4 id 3 else d
  match d.ctxCmd with
  | some c => if c.cmd = 4 ∧ c.id = id then d.ctxEnd 0 else d
  | none => d

/-- A retirement goes on as far as it can: running slices, then the fence, then the fill, which FILL_DONE ends. -/
def Dev.retireGo (d : Dev) (id : Nat) : Dev :=
  match (d.ctxOf id).retStep with
  | 1 =>
    if d.ctxRunning id then d
    else (d.fenceStart id).updCtx id fun c => { c with retStep := 2 }
  | 2 =>
    if d.hedge.fences.any fun f => f.ctx == id && f.step == 4 then
      (d.startFill (d.retireFill id) (some id) false false).updCtx id fun c => { c with retStep := 3 }
    else d
  | _ => d

/-- Every retirement that is under way goes on. -/
def Dev.retireAll (d : Dev) : Dev := (d.ctxs.filter fun e => e.2.life == .retiring).foldl (fun d e => d.retireGo e.1) d

/-- RETIRE (R362, R372): the owner of an enabled schedule or slot is refused; the steps follow one another as they can. Of a context that
retires already, only the RETIRE under which it does goes on. -/
def execRetire (s : State) : Host.Outcome State Fault Refusal :=
  s.withDev fun d => d.ctxRun 4 fun c x d =>
    if x.life = .retiring ∧ c.begun = true then d.retireGo c.id
    else if !x.active then d.ctxEnd 0x01
    else if d.owns c.id then d.ctxEnd 0x04
    else
      let part := b2n (x.life == .resident)
      let d := { d with ctxCmd := some { c with begun := true } }
      (((d.updCtx c.id fun x => { x with usage := x.usage.set 1 part }).retireStart c.id).retireGo c.id)

/-! ### Residency exchange (R368) -/

/-- EXCHANGE (R362, R368): accepted for the next major period. -/
def execExchange (s : State) : Host.Outcome State Fault Refusal :=
  s.withDev fun d =>
    if d.exch.isSome then d
    else d.ctxRun 5 fun c x d =>
      let out := d.slotHolder c.rslot
      let rec' := d.slotRec c.rslot
      if x.life ≠ .swapped ∨ d.slotCount ≤ c.rslot then d.ctxEnd 0x01
      else if !d.swappable c.id then d.ctxEnd 0x07
      else if out.any fun o => !d.swappable o then d.ctxEnd 0x01
      else if d.quotaNow c.id 1 < rec'.2.1 ∨ d.quotaNow c.id 5 < rec'.2.2 then d.ctxEnd 0x05
      else { d with exch := some ⟨c.id, c.rslot, out, d.plan.period + 1, [], false⟩ }

/-- The first SWAP slice of a plough in the period (R368). -/
def Dev.swapEntry (d : Dev) (n : Nat) : Option SliceEntry := (d.ploughSlices n).find? (·.swap)

/-- Who the swap engine of a plough is to the Hedge (R159) and to the stack (R388). -/
def Dev.swapWho (d : Dev) (p ctx : Nat) : Who := { hreq := p, sreq := 0x40 + p, ctx := ctx, gen := (d.ctxOf ctx).gen }

/-- Read for the swap engine (R383): words that cannot be read are restored as zero, and the context's halted bit sets. -/
def Dev.swapRead (d : Dev) (p ctx key n : Nat) : Dev × List Byte :=
  let ws := d.badWords key n
  let who := d.swapWho p ctx
  let (d, bs, bad) := (d.stackTouch who false [(key, n, 0)]).readKey key n who
  match bad with
  | none => (d, bs)
  | some _ =>
    let zero := fun (i : Nat) => ws.any fun w => (key + i) / 32 == w && (d.wordErr w).find (wordOnStack w) == .uncorr
    (d.updCtx ctx fun c => { c with halted := true, haltAt := some d.fclk }, (List.range n).map fun i => if zero i then 0 else bs.getD i 0)

/-- Copy `n` bytes between two keys for the swap engine of a plough; the stack words it touches are requests (R45). -/
def Dev.swapCopy (d : Dev) (p ctx src dst n : Nat) : Dev :=
  let (d, bs) := d.swapRead p ctx src n
  ((d.stackTouch (d.swapWho p ctx) true [(dst, n, 0)]).writeKey dst bs (d.swapWho p ctx)).1

/-- Where a context's save area keeps the rest of its slot's partition: after its plough states. -/
def Dev.partSave (d : Dev) (id : Nat) : Nat := (d.saveArea id).1 + (d.saveArea id).2

/-- Move the plough state of a context between the slot's Barn save area and the context's save area, and on the slot's lowest plough the
partition with it; `toCtx` writes it out, else it comes in. -/
def Dev.swapMove (d : Dev) (e : Exchange) (id n : Nat) (toCtx : Bool) : Dev :=
  let one := fun (a b len : Nat) (d : Dev) => if toCtx then d.swapCopy n id a b len else d.swapCopy n id b a len
  let d := one (d.barnSave e.rslot n) (d.ctxSave id n) stateBytes d
  if maskBelow (d.slotPloughs e.rslot) n = 0 then one (d.partRest e.rslot).1 (d.partSave id) (d.partRest e.rslot).2 d else d

/-- An exchange that cannot be done is undone on the ploughs already swapped and ends with a result (R368). -/
def Dev.exchangeUndo (d : Dev) (e : Exchange) (result : Nat) : Dev :=
  let d := match e.out with
    | some o => e.swapped.foldl (fun (d : Dev) n => d.swapMove e o n false) d
    | none => d
  ({ d with exch := none } : Dev).ctxEnd result

end Sys2Proof.Machine
end

