-- ==== Sys2Proof/Machine/PlanImage.lean ====
section
/-! DEFINITION. The checks of a plan image at PLAN_LOAD (R46–R50 and the rules of the sections). Every check is a Boolean that is true when
the image passes. Where the rules state a field's range or keep a byte reserved without naming the result of its breach, the answer
is BAD_SECTION (log 44). -/

namespace Sys2Proof.Machine

/-- `n` bytes from an offset are zero. -/
def zeroAt (bs : List Byte) (o n : Nat) : Bool := ((bs.drop o).take n).all (· == 0)

/-- A value lies in a closed range. -/
def within (lo v hi : Nat) : Bool := decide (lo ≤ v) && decide (v ≤ hi)

/-- Two ranges of (start, length) do not meet; an empty one meets nothing. -/
def apart (a b : Nat × Nat) : Bool := a.2 == 0 || b.2 == 0 || decide (a.1 + a.2 ≤ b.1) || decide (b.1 + b.2 ≤ a.1)

/-- No two ranges of a list meet. -/
def allApart : List (Nat × Nat) → Bool
  | [] => true
  | r :: rs => rs.all (apart r) && allApart rs

/-- The ranges follow one another in order, none before the end of the one before. -/
def inOrder : Nat → List (Nat × Nat) → Bool
  | _, [] => true
  | e, r :: rs => decide (e ≤ r.1) && inOrder (r.1 + r.2) rs

/-! ### The image (R46, R48, R49) -/

/-- An entry of the section table. -/
structure SecEnt where
  stype : Nat
  inst : Nat
  flags : Nat
  off : Nat
  size : Nat
  load : Nat
deriving DecidableEq, Repr

/-- The section table of an image. -/
def secTable (img : List Byte) : List SecEnt :=
  let o := leAt img 0x28 8
  (List.range (leAt img 0x24 2)).map fun i =>
    let b := (img.drop (o + 32 * i)).take 32
    ⟨leAt b 0 2, leAt b 2 2, leAt b 4 4, leAt b 8 8, leAt b 16 8, leAt b 24 8⟩

/-- The bytes of a section. -/
def SecEnt.bytes (e : SecEnt) (img : List Byte) : List Byte := (img.drop e.off).take e.size

/-- A section of a type that R49 names, with its bytes. -/
def sectionsOf (img : List Byte) : List PlanSection :=
  ((secTable img).filter fun e => within 1 e.stype 0xB).map fun e => ⟨e.stype, e.inst, e.flags, e.load, e.bytes img⟩

/-- The parsed image that the checks read: header and sections. -/
structure PlanImg where
  header : List Byte
  secs : List PlanSection
deriving DecidableEq, Repr

/-- A header field. -/
def PlanImg.hd (p : PlanImg) (o n : Nat) : Nat := leAt p.header o n

/-- The sections of a type. -/
def PlanImg.all (p : PlanImg) (t : Nat) : List PlanSection := p.secs.filter fun x => x.stype == t

/-- The bytes of a section, empty without one. -/
def PlanImg.sec (p : PlanImg) (t i : Nat) : List Byte := ((p.secs.find? fun x => x.stype == t && x.inst == i).map (·.bytes)).getD []

/-- context_count. -/
def PlanImg.ctxs (p : PlanImg) : Nat := p.hd 0x44 2

/-- major_period_ns. -/
def PlanImg.period (p : PlanImg) : Nat := p.hd 0x30 4

/-- period_ns, provisional_lag_ns and commit_lag_ns of a schedule (R46). -/
def PlanImg.schedHd (p : PlanImg) (s : Nat) : Nat × Nat × Nat := (p.hd (0x80 + 16 * s) 4, p.hd (0x84 + 16 * s) 4, p.hd (0x88 + 16 * s) 4)

/-! ### Geometry and counts (R48–R50) -/

/-- Header fields in their ranges and reserved header bits zero (R46; log 44). -/
def headerOk (h : List Byte) : Bool :=
  decide (leAt h 0xB 1 < 4) && zeroAt h 0xF 1 && zeroAt h 0x26 2 && zeroAt h 0x60 32 && decide (leAt h 0x42 1 < 16)
    && within 1000 (leAt h 0x38 4) 1000000 && within 60000 (leAt h 0x3C 4) 220000 && decide (1 ≤ leAt h 0x44 2) && decide (1 ≤ leAt h 0x46 1)
    && decide (1 ≤ leAt h 0x47 1)

/-- The section table lies in the image, and so does every section, at a multiple of 64 and apart from the others (R48, R50). -/
def geometryOk (img : List Byte) : Bool :=
  let n := leAt img 0x24 2
  let o := leAt img 0x28 8
  let size := leAt img 0x10 8
  let t := secTable img
  within 1 n 1024 && o % 64 == 0 && decide (o + 32 * n ≤ size)
    && (t.all fun e => e.off % 64 == 0 && decide (e.off + e.size ≤ size) && decide (e.flags < 4) && (e.flags.testBit 1 || e.load == 0)
      && (within 1 e.stype 0xB || !e.flags.testBit 0))
    && allApart ((0, 0x200) :: (o, 32 * n) :: t.map fun e => (e.off, e.size))

/-- The sections of a type have exactly these instances, once each. -/
def PlanImg.exactly (p : PlanImg) (t : Nat) (is : List Nat) : Bool :=
  let have' := (p.all t).map (·.inst)
  have'.length == is.length && is.all have'.contains

/-- The required counts of R49. -/
def PlanImg.countsOk (p : PlanImg) : Bool :=
  let ploughs := (List.range 16).filter fun n => (p.hd 0x40 2).testBit n
  p.exactly 1 ploughs && p.exactly 2 ((List.range 4).filter fun e => (p.hd 0x42 1).testBit e) && p.exactly 3 [0, 1] && p.exactly 4 [0]
    && p.exactly 5 (List.range p.ctxs) && p.exactly 6 [0] && p.exactly 7 ploughs
    && (p.exactly 9 [] || p.exactly 9 [0]) && ((p.all 0xA).map (·.inst)).eraseDups.length == (p.all 0xA).length

/-! ### MAPPING (R154, R157, R358, R359, R365, R524) -/

/-- One region record. -/
def regionOk (m : List Byte) (i : Nat) : Bool :=
  let o := 64 + 32 * i
  let r := mapRegionAt m o
  let pg := pageBytes r.size
  pg != 0 && r.bytes != 0 && r.va % pg == 0 && r.bytes % pg == 0 && r.phys % pg == 0 && decide (r.va + r.bytes ≤ 2 ^ 48)
    && r.attrs % 16 == 0 && decide (r.attrs < 2 ^ 26) && decide (leAt m (o + 29) 1 < 2) && zeroAt m (o + 30) 2
    && (pteTarget r.pte != 0x11 || decide (r.phys + r.bytes ≤ 0xBFF000000))

/-- Section of a context alone: fields, reserved bytes, regions apart in virtual space, at most 16 for the region registers. -/
def mappingOk (id : Nat) (m : List Byte) : Bool :=
  let n := leAt m 10 2
  let evq := leAt m 5 1
  decide (64 + 32 * n ≤ m.length) && leAt m 0 2 == id && decide (leAt m 2 1 < 32) && decide (leAt m 4 1 < 64) && (evq == 0 || within 7 evq 20)
    && zeroAt m 7 1 && zeroAt m 12 4 && zeroAt m 56 8 && within 1 n 1024 && leAt m 16 8 % 64 == 0 && leAt m 24 8 % 64 == 0
    && ((List.range n).all fun i => regionOk m i) && allApart ((mapRegions m).map fun r => (r.va, r.bytes))
    && decide (((mapRegions m).filter (·.load)).length ≤ 16)

/-- The mapping of a context in the image. -/
def PlanImg.mapping (p : PlanImg) (id : Nat) : List Byte := p.sec 5 id

/-- Bit `i` of the flags of a context. -/
def PlanImg.ctxFlag (p : PlanImg) (id i : Nat) : Bool := (leAt (p.mapping id) 2 1).testBit i

/-- Resident at start. -/
def PlanImg.residentAtStart (p : PlanImg) (id : Nat) : Bool := p.ctxFlag id 0 && p.ctxFlag id 1

/-- Every region of every context. -/
def PlanImg.regions (p : PlanImg) : List MapRegion := (List.range p.ctxs).flatMap fun id => mapRegions (p.mapping id)

/-- R154 of two mappings: one region, and one page, carry one schedule; a page that names a region has no mapping without one. -/
def provAgree (r x : MapRegion) : Bool :=
  match pteProv r.pte, pteProv x.pte with
  | none, none => true
  | some (g, s), some (g', s') => s == s' || (g != g' && apart (r.key, r.bytes) (x.key, x.bytes))
  | _, _ => apart (r.key, r.bytes) (x.key, x.bytes)

/-- R154 of every two mappings. -/
def provOk : List MapRegion → Bool
  | [] => true
  | r :: rs => rs.all (provAgree r) && provOk rs

/-! ### SCHEDULES (R231, R259) -/

/-- The SCHEDULES section. -/
def PlanImg.sch (p : PlanImg) : List Byte := p.sec 6 0

/-- A record of its tables. -/
def PlanImg.schRec (p : PlanImg) (t size i : Nat) : List Byte := schedRec p.sch t size i

/-- A schedule is enabled. -/
def PlanImg.schedOn (p : PlanImg) (s : Nat) : Bool := (leAt (p.schRec 0 64 s) 4 1).testBit 0

/-- The channel counts that a stream kind allows (R238); IMAGE and SWEEP decode none. -/
def kindChannels (kind n : Nat) : Bool :=
  match kind with
  | 3 => n == 4
  | 4 => n == 6
  | 5 => n == 0
  | 6 => n == 0
  | k => decide (k < 3) && within 1 n 16

/-- A stream record; `streams` and `chans` count the tables. -/
def PlanImg.streamOk (p : PlanImg) (streams chans i : Nat) : Bool :=
  let b := p.schRec 1 48 i
  let kind := leAt b 0 1 / 16
  let pose := fun (x k n : Nat) => x == 0xFF || (decide (x < streams) && leAt (p.schRec 1 48 x) 0 1 / 16 == k && leAt (p.schRec 1 48 x) 1 1 == n)
  kindChannels kind (leAt b 1 1) && zeroAt b 3 1 && zeroAt b 22 2 && zeroAt b 36 12 && within 2 (leAt b 2 1) 64 && within 1 (leAt b 4 2) 50000
    && decide (leAt b 6 2 + leAt b 1 1 ≤ chans) && leAt b 32 4 % 64 == 0
    && (if kind = 5 then pose (leAt b 20 1) 3 4 && pose (leAt b 21 1) 2 3
      else [20, 21].all fun o => leAt b o 1 == 0xFF || decide (leAt b o 1 < streams))

/-- An output record. -/
def PlanImg.outputOk (p : PlanImg) (streams i : Nat) : Bool :=
  let b := p.schRec 3 80 i
  let n := leAt b 1 1
  decide (leAt b 0 1 ≤ 2) && (if leAt b 0 1 = 2 then n == 4 else within 1 n 16) && within 1 (leAt b 2 1) 8 && decide (leAt b 3 1 < 2) && zeroAt b 4 12
    && ((List.range 8).all fun t => zeroAt b (18 + 8 * t) 2) && ((List.range (leAt b 2 1)).all fun t =>
      let o := 16 + 8 * t
      decide (leAt b o 1 < streams) && decide (leAt b (o + 1) 1 + n ≤ 16))

/-- A gate record. -/
def PlanImg.gateOk (p : PlanImg) (streams i : Nat) : Bool :=
  let b := p.schRec 4 16 i
  decide (leAt b 0 1 < streams) && decide (leAt b 1 1 < streams) && decide (1 ≤ leAt b 3 1) && decide (leAt b 2 1 + leAt b 3 1 ≤ 16) && zeroAt b 12 4

/-- The number of bits of a mask. -/
def ones (w m : Nat) : Nat := ((List.range w).filter fun i => m.testBit i).length

/-- A schedule record: what is reserved, and when it is enabled the limits of R231. -/
def PlanImg.schedOk (p : PlanImg) (s : Nat) : Bool :=
  let b := p.schRec 0 64 s
  let (period, prov, commit) := p.schedHd s
  let sm := leAt b 16 8
  let om := leAt b 24 4
  let gm := leAt b 28 4
  decide (leAt b 4 1 < 4) && zeroAt b 7 1 && zeroAt b 10 6 && zeroAt b 52 12
    && decide (sm < 2 ^ leAt p.sch 0 2) && decide (om < 2 ^ leAt p.sch 4 1) && decide (gm < 2 ^ leAt p.sch 5 1)
    && (!p.schedOn s || (decide (500000 ≤ period) && p.period % period == 0 && decide (leAt b 0 4 < period) && decide (prov ≤ commit)
      && decide (commit < period) && within 2 (leAt b 5 1) 8 && decide (leAt b 6 1 + leAt b 5 1 ≤ 256) && decide (leAt b 8 2 < p.ctxs)
      && leAt b 48 4 % 64 == 0
      && decide (64 + 96 * ones 64 sm + 80 * ones 32 om ≤ leAt b 48 4)))

/-- The SCHEDULES section. -/
def PlanImg.schedulesOk (p : PlanImg) : Bool :=
  let m := p.sch
  let ns := leAt m 0 2
  let nc := leAt m 2 2
  let no := leAt m 4 1
  let ng := leAt m 5 1
  let fits := fun (x : Nat × Nat) => leAt m (8 + 4 * x.1) 4 % 16 == 0 && decide (leAt m (8 + 4 * x.1) 4 + x.2 ≤ m.length)
  decide (64 ≤ m.length) && zeroAt m 6 2 && zeroAt m 28 36 && decide (ns ≤ 64) && decide (nc ≤ 1024) && decide (no ≤ 32) && decide (ng ≤ 32)
    && [(0, 512), (1, 48 * ns), (2, 16 * nc), (3, 80 * no), (4, 16 * ng)].all fits
    && ((List.range nc).all fun i => leAt (p.schRec 2 16 i) 2 1 / 8 % 16 == 0 && zeroAt (p.schRec 2 16 i) 3 1 && zeroAt (p.schRec 2 16 i) 12 4)
    && ((List.range ns).all fun i => p.streamOk ns nc i) && ((List.range no).all fun i => p.outputOk ns i)
    && ((List.range ng).all fun i => p.gateOk ns i) && (List.range 8).all p.schedOk

/-! ### REG_PRELOAD (R523) -/

/-- An entry of a REG_PRELOAD section: BAR0 address, width, value. -/
def preloads (block : Nat) (bs : List Byte) : List (Nat × Nat × Nat) :=
  (List.range (leAt bs 0 4)).map fun i =>
    (block * 0x100000 + leAt bs (64 + 16 * i) 4, leAt bs (64 + 16 * i + 4) 1, leAt bs (64 + 16 * i + 8) 8)

/-- The register at an address holds an RWL field and has this width. -/
def rwlReg (a width : Nat) : Bool :=
  match regRowAt a with
  | some r => hasRwl r && width == if r.wide then 8 else 4
  | none => false

/-- A REG_PRELOAD section. -/
def preloadOk (x : PlanSection) : Bool :=
  let n := leAt x.bytes 0 4
  (within 0 x.inst 0xE || x.inst == 0x10) && within 1 n 65536 && zeroAt x.bytes 4 60 && decide (64 + 16 * n ≤ x.bytes.length)
    && (List.range n).all fun i =>
      let o := 64 + 16 * i
      let w := leAt x.bytes (o + 4) 1
      let off := leAt x.bytes o 4
      decide (off < if x.inst = 0x10 then 0x1000000 else 0x100000) && rwlReg (x.inst * 0x100000 + off) w && zeroAt x.bytes (o + 5) 3
        && (w == 8 || zeroAt x.bytes (o + 12) 4)

/-- Every preload of the image, section by section. -/
def PlanImg.preloads (p : PlanImg) : List (Nat × Nat × Nat) := (p.all 0xA).flatMap fun x => Machine.preloads x.inst x.bytes

/-- What a register will hold after the preloads, given what it holds now. -/
def PlanImg.preloaded (p : PlanImg) (now a : Nat) : Nat := (p.preloads.filter fun x => x.1 == a).foldl (fun _ x => x.2.2) now

/-! ### Contexts against schedules and slots (R359) -/

/-- The context owns an enabled schedule, or by the preloads an enabled stream slot; `now` is the present register file. -/
def PlanImg.ownerOf (p : PlanImg) (now : Nat → Nat) (id : Nat) : Bool :=
  ((List.range 8).any fun s => p.schedOn s && leAt (p.schRec 0 64 s) 8 2 == id)
    || (List.range 16).any fun k =>
      field (p.preloaded (now (R.GATE_SLOT_MAP k)) (R.GATE_SLOT_MAP k)) (F.GATE_SLOT_MAP_enable k).lsb 1 == 1
        && field (p.preloaded (now (R.GATE_SLOT_OWNER k)) (R.GATE_SLOT_OWNER k)) (F.GATE_SLOT_OWNER_ctx_id k).lsb 12 == id

/-- The rules of R359 over the contexts together. -/
def PlanImg.contextsOk (p : PlanImg) (now : Nat → Nat) : Bool :=
  let ids := List.range p.ctxs
  let res := ids.filter p.residentAtStart
  let slots := res.map fun id => leAt (p.mapping id) 4 1
  (ids.all fun id => mappingOk id (p.mapping id)) && provOk p.regions
    && (ids.all fun id => (List.range 8).all fun s => !(leAt (p.mapping id) 3 1).testBit s || p.schedOn s)
    && (ids.all fun id => !p.ctxFlag id 2 || (leAt (p.mapping id) 3 1 == 0 && !p.ctxFlag id 0 && !p.ownerOf now id))
    && decide (res.length ≤ p.hd 0x46 1) && slots.eraseDups.length == slots.length

/-! ### SLICE (R364, R365, R385) -/

/-- The contexts that can occupy a slot: the one resident there at start, else every swappable one (log 44). -/
def PlanImg.occupants (p : PlanImg) (slot : Nat) : List Nat :=
  let held := (List.range p.ctxs).filter fun id => p.residentAtStart id && leAt (p.mapping id) 4 1 == slot
  if held.isEmpty then (List.range p.ctxs).filter fun id => p.ctxFlag id 2 else held

/-- The SLICE section. -/
def PlanImg.sl (p : PlanImg) : List Byte := p.sec 4 0

/-- A resident-slot record: base, bytes, and the bytes of its save area. -/
def PlanImg.slot (p : PlanImg) (i : Nat) : Nat × Nat × Nat :=
  let runs := ((sliceEntries p.sl).filter fun e => !e.swap && e.rslot == i).map (·.plough)
  (leAt p.sl (64 + 16 * i) 8, leAt p.sl (72 + 16 * i) 4, stateBytes * runs.eraseDups.length)

/-- The entries sorted by plough, then by start, apart on each plough. -/
def slicesSorted : List SliceEntry → Bool
  | e :: f :: es => (decide (e.plough < f.plough) || (e.plough == f.plough && decide (e.start + e.len ≤ f.start))) && slicesSorted (f :: es)
  | _ => true

/-- The SLICE section. -/
def PlanImg.sliceOk (p : PlanImg) : Bool :=
  let m := p.sl
  let n := leAt m 0 4
  let used := leAt m 4 1
  let es := sliceEntries m
  let parts := (List.range used).map p.slot
  within 1 n 65536 && within 1 used (p.hd 0x46 1) && zeroAt m 5 59 && decide (1088 + 16 * n ≤ m.length) && slicesSorted es
    && ((List.range n).all fun i => decide (leAt m (1088 + 16 * i + 8) 1 < 16) && decide (leAt m (1088 + 16 * i + 9) 1 < 2) && zeroAt m (1088 + 16 * i + 11) 5)
    && (es.all fun e => e.swap || (decide (3533 ≤ e.len) && decide (e.rslot < used)
      && (p.occupants e.rslot).all fun id => (leAt (p.mapping id) 8 2).testBit e.plough))
    && (parts.all fun x => decide (barnKey ≤ x.1) && x.1 % 0x10000 == 0 && x.2.1 % 0x10000 == 0 && within 0x10000 x.2.1 0x3000000
      && decide (x.1 + x.2.1 ≤ barnKey + 0x3000000) && decide (x.2.2 ≤ x.2.1))
    && allApart (parts.map fun x => (x.1, x.2.1)) && decide ((parts.map (·.2.1)).sum ≤ p.hd 0x48 4)
    && p.regions.all fun r => parts.all fun x => apart (r.key, r.bytes) (x.1, x.2.2)

/-! ### ENGINE_CAL (R43, R233, R265, R275, R299, R330, R367) -/

/-- The kinds that an engine's calendar may hold. -/
def calKindOk (engine kind flags : Nat) : Bool :=
  match engine with
  | 0 => within 0x10 kind 0x1F || (within 0x20 kind 0x27 && flags / 2 % 4 != 0) || kind == 0x40
  | 1 => kind == 1
  | 2 => within 1 kind 5
  | _ => within 1 kind 4

/-- A fusion window names the owner of its schedule (R233). -/
def PlanImg.calOwnerOk (p : PlanImg) (engine : Nat) (e : CalEntry) : Bool :=
  engine != 0 || !within 0x10 e.kind 0x1F || !p.schedOn (e.kind % 8) || leAt (p.schRec 0 64 (e.kind % 8)) 8 2 == e.slot

/-- A calendar. -/
def PlanImg.calOk (p : PlanImg) (engine : Nat) (bs : List Byte) : Bool :=
  let es := calEntries bs
  bs.length % 16 == 0 && inOrder 0 (es.map fun e => (e.start, e.len))
    && ((List.range es.length).all fun i => zeroAt bs (16 * i + 12) 4)
    && es.all fun e => decide (e.flags < 8) && calKindOk engine e.kind e.flags && (within 0x1000 e.slot 0x103F || decide (e.slot < p.ctxs))
      && p.calOwnerOk engine e

/-! ### STACK_WIN (R388–R390) -/

/-- One channel's refresh windows by start: at 0, at most 3,120 apart, the last at or after P − 3,120; `mp` is major_period_ns. -/
def refreshOk (mp : Nat) : Option Nat → List Nat → Bool
  | some r, [] => decide (8 * mp ≤ 5 * r + 15600)
  | none, [] => false
  | none, s :: ss => s == 0 && refreshOk mp (some s) ss
  | some r, s :: ss => decide (s ≤ r + 3120) && refreshOk mp (some s) ss

/-- The windows of one channel. -/
def channelOk (mp : Nat) (ws : List StackWindow) : Bool :=
  inOrder 0 (ws.map fun w => (w.start, w.len)) && refreshOk mp none ((ws.filter fun w => w.req == 0xFF).map (·.start))
    && decide (8 * mp ≤ 320 * ((ws.filter fun w => w.req == 0x60).map (·.len)).sum)

/-- A STACK_WIN section. -/
def stackWinOk (mp : Nat) (bs : List Byte) : Bool :=
  let n := leAt bs 0 4
  let ws := stackWindows bs
  within 1 n 0x100000 && zeroAt bs 4 60 && decide (64 + 16 * n ≤ bs.length)
    && ((List.range n).all fun i =>
      let o := 64 + 16 * i
      let req := leAt bs (o + 10) 1
      zeroAt bs (o + 11) 1 && (decide (req ≤ 0x60) || req == 0xFF)
        && if req = 0xFF then decide (560 ≤ leAt bs (o + 4) 4) else decide (leAt bs (o + 4) 4 + 128 ≤ leAt bs (o + 12) 4))
    && ((List.range (n - 1)).all fun i => decide (leAt bs (64 + 16 * i) 4 ≤ leAt bs (80 + 16 * i) 4))
    && (List.range 16).all fun c => channelOk mp (ws.filter fun w => w.channels.testBit c)

/-! ### CHECKPOINTS (R464) -/

/-- A CHECKPOINTS section. -/
def PlanImg.checkpointsOk (p : PlanImg) (plough : Nat) (bs : List Byte) : Bool :=
  let n := leAt bs 0 4
  let k := leAt bs 4 2
  let base := 64 + 16 * k
  let runs := (sliceEntries p.sl).filter fun e => e.plough == plough && !e.swap
  let ids := (List.range k).map fun i => leAt bs (64 + 16 * i) 2
  let planned := (List.range n).map fun i => (leAt bs (base + 16 * i + 4) 4, 0)
  within 1 n 65536 && within 1 k 4096 && zeroAt bs 6 58 && decide (base + 16 * n ≤ bs.length)
    && ((List.range k).all fun i => zeroAt bs (64 + 16 * i + 2) 6 && leAt bs (64 + 16 * i + 8) 8 % 64 == 0)
    && ((List.range n).all fun i =>
      let o := base + 16 * i
      let t := leAt bs (o + 4) 4
      zeroAt bs (o + 3) 1 && zeroAt bs (o + 8) 8
        && (runs.any fun e => e.rslot == leAt bs (o + 2) 1 && decide (e.start ≤ t) && decide (t < e.start + e.len))
        && decide (t + p.hd 0x38 4 * 6 / 5 + 1 < p.period * 6 / 5))
    && inOrder 0 planned && runs.all fun e => (p.occupants e.rslot).all ids.contains

/-! ### HITCH_MAP (R437) and MILL_MODEL (R306, R307) -/

/-- A HITCH_MAP section. -/
def PlanImg.hitchOk (p : PlanImg) (m : List Byte) : Bool :=
  let s := leAt m 0 1
  let out := leAt m 2 2
  let inw := leAt m 4 2
  let pub := (leAt m 8 8, 4 * out)
  let inb := (leAt m 16 8, 64 + 4 * inw)
  let barn := fun (a : Nat × Nat) => a.1 % 64 == 0 && decide (barnKey ≤ a.1) && decide (a.1 + a.2 ≤ barnKey + 0x3000000)
    && p.regions.all fun r => (pteProv r.pte).isNone || apart (r.key, r.bytes) a
  let o := (leAt m 1 1).testBit 0
  let i := (leAt m 1 1).testBit 1
  m.length == 64 && decide (s < 8) && p.schedOn s && !(leAt (p.schRec 0 64 s) 4 1).testBit 1 && decide (leAt m 1 1 < 4) && within 4 out 1024
    && decide (inw ≤ 1024) && zeroAt m 6 2 && zeroAt m 32 32 && decide (leAt m 24 4 < (p.schedHd s).1) && decide (leAt m 28 4 < (p.schedHd s).1)
    && (!o || barn pub) && (!i || barn inb) && (!(o && i) || apart pub inb)

/-- A MILL_MODEL section. -/
def millModelOk (x : PlanSection) : Bool :=
  let m := x.bytes
  let nb := leAt m 8 1
  let nd := leAt m 9 1
  let nf := leAt m 10 1
  let body := fun (i : Nat) => (m.drop (64 + 128 * i)).take 128
  let frame := fun (i : Nat) => (m.drop (64 + 128 * nb + 32 * i)).take 32
  let dofs := ((List.range nb).filter fun i => leAt (body i) 1 1 != 0).map fun i => leAt (body i) 2 1
  let word := fun (b : List Byte) (o : Nat) => toSigned 32 (leAt b o 4)
  decide (x.inst < 16) && within 1 nb 64 && within 1 nd 64 && decide (nf ≤ 32) && decide (leAt m 11 1 ≤ 128)
    && decide (64 + 128 * nb + 32 * nf ≤ m.length) && leAt m 27 1 == 30 && zeroAt m 40 24
    && ((List.range nb).all fun i =>
      let b := body i
      (if i = 0 then leAt b 0 1 == 0xFF else decide (leAt b 0 1 < i)) && decide (leAt b 1 1 ≤ 2) && zeroAt b 3 1 && zeroAt b 124 4
        && (leAt b 1 1 != 0 || leAt b 2 1 == 0xFF) && decide (word b 104 ≤ word b 108))
    && dofs.length == nd && ((List.range nd).all dofs.contains)
    && leAt m 11 1 == ((List.range nf).map fun i => ones 6 (leAt (frame i) 1 1)).sum
    && (List.range nf).all fun i => decide (leAt (frame i) 1 1 < 64) && zeroAt (frame i) 2 2 && zeroAt (frame i) 16 16

/-! ### The order of R50 -/

/-- BAD_SECTION of R50: the image, its counts, and every section. -/
def sectionsOk (img : List Byte) (now : Nat → Nat) : Bool :=
  let p : PlanImg := ⟨img.take 512, sectionsOf img⟩
  headerOk img && geometryOk img && p.countsOk && p.schedulesOk && ((p.all 0xA).all preloadOk) && p.contextsOk now && p.sliceOk
    && ((p.all 2).all fun x => p.calOk x.inst x.bytes) && ((p.all 3).all fun x => stackWinOk p.period x.bytes)
    && ((p.all 7).all fun x => p.checkpointsOk x.inst x.bytes) && ((p.all 9).all fun x => p.hitchOk x.bytes) && (p.all 0xB).all millModelOk

/-- slack_min_ns (R41). -/
def slackMin (period : Nat) : Nat := (period * 150 + 999999) / 1000000 + 100

/-- R42 and the slack of R41. DEDUCED (log 44): a schedule_count of 0 is a header field outside its range, BAD_SECTION of headerOk, and not
SLACK_SHORT. -/
def slackOk (h : List Byte) : Bool :=
  let mp := leAt h 0x30 4
  within 500000 mp 2000000000 && decide (leAt h 0x47 1 ≤ 8) && decide (slackMin mp ≤ leAt h 0x34 4)

/-- The amounts within the device's limits (R46, R50, R524). -/
def amountsOk (h : List Byte) : Bool :=
  decide (leAt h 0x48 4 ≤ 0x3000000) && decide (leAt h 0x4C 4 ≤ 2097152) && decide (leAt h 0x50 8 ≤ 0xBFF000000) && decide (leAt h 0x58 4 ≤ 4194304)
    && decide (leAt h 0x44 2 ≤ 4096) && decide (leAt h 0x46 1 ≤ 64)

/-- BAD_MAGIC. -/
def magicOk (h : List Byte) : Bool := leAt h 0 4 == 0x4E414C50 && leAt h 4 2 == 1 && leAt h 6 2 == 0x200

/-- The signature of R47 by the key of a slot, given as x then y in 96 bytes; an all-zero key is an empty slot (R454). -/
def planSigned (keys h : List Byte) : Bool :=
  let slot := leAt h 0x190 1
  let k := (keys.drop (96 * slot)).take 96
  decide (slot < 4) && !(k.all (· == 0)) && zeroAt h 0x191 111
    && Crypto.verify (leAt k 0 48, leAt k 48 48) (Crypto.sha384 (h.take 0x130)) (leAt h 0x130 48) (leAt h 0x160 48)

/-- payload_hash over the bytes from 0x200 to image_size, as a stored integer (R46, R448); an image_size beyond the bytes given cannot match. -/
def hashOk (h payload : List Byte) : Bool :=
  decide (0x200 ≤ leAt h 0x10 8) && payload.length == leAt h 0x10 8 - 0x200 && leAt h 0x100 48 == beNat (Crypto.sha384 payload)

end Sys2Proof.Machine
end

