-- ==== Sys2Proof/Machine/Host.lean ====
section
/-! DEFINITION. The host attachment (R417–R429, R441): link and resets, DMA queues, injection (R183, R195, R425), doorbells, MSI-X,
BAR2 and BAR4 accesses. -/

namespace Sys2Proof.Machine

/-- Change the host attachment. -/
def Dev.updHost (d : Dev) (f : HostState → HostState) : Dev := { d with host := f d.host }

/-- A HOST record (R439). -/
def Dev.hostEvent (d : Dev) (code inst area b25 : Nat) : Dev := d.raise code inst 0 0 (dAt 16 8 area + dAt 25 1 b25)

/-! ### Queues (R422) -/

/-- The control register of queue `q`: 0 to 3 copy, 4 to 19 injection. -/
def qCtl (q : Nat) : Nat := if q < 4 then R.HOST_Q_CTL q else R.HOST_INJ_CTL (q - 4)
/-- The head field of a queue. -/
def qHeadF (q : Nat) : FieldRef := if q < 4 then F.HOST_Q_HEAD_index q else F.HOST_INJ_HEAD_index (q - 4)
/-- The head of a queue. -/
def Dev.qHead (d : Dev) (q : Nat) : Nat := d.getF (qHeadF q)
/-- Enabled. -/
def Dev.qOn (d : Dev) (q : Nat) : Bool := d.flag ⟨qCtl q, 0, 1⟩
/-- Halted. -/
def Dev.qHalted (d : Dev) (q : Nat) : Bool := d.flag ⟨qCtl q, 1, 1⟩
/-- Ring entries: log2_entries from 4 to 16, other values act as 4 (R441). -/
def Dev.qSize (d : Dev) (q : Nat) : Nat :=
  let l := d.getF ⟨qCtl q, 2, 5⟩
  2 ^ (if 4 ≤ l ∧ l ≤ 16 then l else 4)
/-- The tail of a queue. -/
def Dev.qTail (d : Dev) (q : Nat) : Nat := if q < 4 then d.getF (F.HOST_Q_TAIL_index q) else SMap.get (fun _ => 0) d.host.tails q
/-- The address of the descriptor at the head. -/
def Dev.qDescAddr (d : Dev) (q : Nat) : Nat :=
  64 * (if q < 4 then d.getF (F.HOST_Q_BASE_address q) else d.getF (F.HOST_INJ_BASE_address (q - 4))) + 32 * d.qHead q

/-- The sample in flight of a queue. -/
def Dev.injOf (d : Dev) (q : Nat) : Option Inject := SMap.get (fun _ => none) d.host.inj q
/-- Set the sample in flight of a queue. -/
def Dev.setInj (d : Dev) (q : Nat) (x : Option Inject) : Dev := d.updHost fun h => { h with inj := SMap.set (fun _ => none) h.inj q x }

/-- The head advances past the descriptor (R422). -/
def Dev.qNext (d : Dev) (q : Nat) : Dev :=
  let d := d.setF (qHeadF q) ((d.qHead q + 1) % d.qSize q)
  d.updHost fun h => { h with moved := SMap.set (fun _ => 0) h.moved q 0, desc := SMap.set (fun _ => none) h.desc q none }

/-- A descriptor completes: the head advances, then its interrupt is sent (R423, R427). -/
def Dev.qDone (d : Dev) (q : Nat) (irq : Bool) : Dev :=
  let d := d.qNext q
  if irq then d.sendMsix (d.getF ⟨qCtl q, 8, 8⟩) else d

/-- A descriptor fails (R424): the queue halts with the reason. -/
def Dev.qFail (d : Dev) (q reason : Nat) : Dev :=
  let a := d.qDescAddr q
  let d := d.setF ⟨qCtl q, 1, 1⟩ 1
  let d := if q < 4 then d.setF (F.HOST_Q_ERR_reason q) reason else d
  let d := d.updHost fun h => { h with failed := if h.failed.contains q then h.failed else h.failed ++ [q] }
  d.hostEvent 0x0B80 q a reason

/-- A write of HOST_Q_CTL or HOST_INJ_CTL has been stored: a 1 to enable while halted restarts the queue after the failed
descriptor (R424). -/
def Dev.qCtlWritten (d : Dev) (q : Nat) : Dev :=
  if d.qOn q && d.qHalted q then
    let d := d.setF ⟨qCtl q, 1, 1⟩ 0
    if d.host.failed.contains q then (d.updHost fun h => { h with failed := h.failed.filter (· != q) }).qNext q else d
  else d

/-- Whether an access of the management space may be issued now: a stack access only inside windows of requester 0x5D while a plan
is locked (R420). -/
def Dev.barMayIssue (d : Dev) (va len : Nat) : Bool :=
  d.openMode || decide (0xC00000000 ≤ va) || (List.range ((va + len - 1) / 2048 - va / 2048 + 1)).all fun i =>
    match d.chanWindow ((va / 2048 + i) % 32) with
    | some w => w.req == 0x5D
    | none => false

/-- A copy descriptor that breaks R423. -/
def copyDescBad (b : List Byte) : Bool :=
  leAt b 0 8 % 4 != 0 || leAt b 8 8 % 4 != 0 || leAt b 16 4 % 4 != 0 || leAt b 16 4 == 0 || decide (3 < leAt b 20 1) || leAt b 21 11 != 0

/-- The next piece of a copy, up to 512 bytes: the bytes moved before it, its length (R422, R423). -/
def Dev.copyPiece (d : Dev) (q : Nat) (b : List Byte) : Nat × Nat :=
  let done := SMap.get (fun _ => 0) d.host.moved q
  (done, min 512 (leAt b 16 4 - done))

/-- The next piece of a copy waits for a window of requester 0x5D (R420, R423). -/
def Dev.copyWaits (d : Dev) (q : Nat) (b : List Byte) : Bool :=
  !copyDescBad b && !d.barMayIssue (leAt b 8 8 + (d.copyPiece q b).1) (d.copyPiece q b).2

/-- Whether the arbiter may choose a queue (R422, R425). -/
def Dev.qReady (d : Dev) (q : Nat) : Bool :=
  d.qOn q && !d.qHalted q && d.qHead q != d.qTail q
    && ((decide (q < 4) && !(match SMap.get (fun _ => none) d.host.desc q with
      | some b => d.copyWaits q b
      | none => false)) || (decide (4 ≤ q) && d.slotInj (q - 4) && (match d.injOf q with
      | none => true
      | some x => !x.taken && !x.cut && decide (x.buf.length < leAt x.desc 8 4))))

/-! ### Transfers (R422–R425) -/

/-- One transfer of a copy queue: up to 512 bytes through the management space as an external access, inside a window of requester 0x5D where
they lie in the stack (R420, R423). -/
def Dev.copyTransfer (d : Dev) (q : Nat) (b : List Byte) (data : List Byte) (ok : Bool) : Dev :=
  if copyDescBad b then d.qFail q 0x12
  else if d.copyWaits q b then d
  else
    let total := leAt b 16 4
    let (done, n) := d.copyPiece q b
    let va := leAt b 8 8 + done
    let host := leAt b 0 8 + done
    let step := fun (d : Dev) =>
      if done + n = total then d.qDone q ((leAt b 20 1).testBit 1)
      else d.updHost fun h => { h with moved := SMap.set (fun _ => 0) h.moved q (done + n) }
    if leAt b 20 1 % 2 = 0 then
      if !ok then d.qFail q 0x13
      else
        let bytes := (data ++ List.replicate n 0).take n
        match d.mgmtWrite 21 0x5D true va bytes with
        | (d, some r) => d.qFail q r
        | (d, none) => step d
    else match d.mgmtRead 21 0x5D true va n with
      | (d, .error r) => d.qFail q r
      | (d, .ok bs) => if ok then step (d.emit (.hostWrite host bs)) else d.qFail q 0x13

/-- Whether a sample's header carries end_word (R168). -/
def hasEndWord (bs : List Byte) : Bool := (leAt bs 10 2).testBit 7

/-- One transfer of an injection queue: up to 512 bytes of the sample; a bad total is skipped and reported (R425). -/
def Dev.injTransfer (d : Dev) (q : Nat) (b : List Byte) (data : List Byte) (ok : Bool) : Dev :=
  let x := (d.injOf q).getD { desc := b }
  let total := leAt b 8 4
  let n := min 512 (total - x.buf.length)
  let buf := x.buf ++ (data ++ List.replicate n 0).take n
  let limit := if hasEndWord buf then 67108992 else 67108896
  if decide (total < 32) || decide (limit < total) then
    let a := d.qDescAddr q
    ((d.setInj q none).hostEvent 0x0B81 q a 0).qNext q
  else if leAt b 0 8 % 4 ≠ 0 ∨ 1 < leAt b 12 1 ∨ leAt b 13 19 ≠ 0 then (d.setInj q none).qFail q 0x12
  else if !ok then (d.setInj q none).qFail q 0x13
  else d.setInj q (some { x with buf := buf })

/-- HOST_DMA_TRANSFER (R422): the rotating pointer chooses a queue and advances past it; the transfer moves up to 512 bytes of its
descriptor, which the engine has read from the ring with the first one. -/
def execHostDmaTransfer (desc data : List Byte) (ok : Bool) (s : State) : Host.Outcome State Fault Refusal :=
  s.withDev fun d =>
    if !d.flag F.HOST_STATUS_link_up then d
    else match rotPick 20 d.host.arb d.qReady with
      | none => d
      | some q =>
        let b := ((SMap.get (fun _ => none) d.host.desc q).getD ((desc ++ List.replicate 32 0).take 32))
        let d := d.updHost fun h => { h with arb := (q + 1) % 20, desc := SMap.set (fun _ => none) h.desc q (some b) }
        if q < 4 then d.copyTransfer q b data ok else d.injTransfer q b data ok

/-! ### Injected samples (R183, R195, R425) -/

/-- Whether a complete sample breaks the format of R183: reserved flag bits, or a payload_bytes that does not match. -/
def injBad (bs : List Byte) : Bool :=
  let total := bs.length
  decide (255 < leAt bs 10 2)
    || (if hasEndWord bs then
        let pb := leAt bs (total - 64) 4
        leAt bs 16 4 != 0 || total % 64 != 0 || decide (total < 128) || total != 64 * ceilDiv (32 + pb) 64 + 64
      else leAt bs 16 4 + 32 != total)

/-- The stamp of a header, in 1/256 ns (R168). -/
def headerStamp (bs : List Byte) : Nat := leAt bs 0 8 * 256 + leAt bs 8 1

/-- INJECTED_SAMPLE (R181, R183): a sample read whole reaches the Gatehouse. A slot that is not enabled discards it; a stamp below
the slot's last, or a bad header, drops it; in both cases its descriptor completes. Otherwise its words wait for the trough. -/
def execInjectedSample (n : BitVec 4) (s : State) : Host.Outcome State Fault Refusal :=
  s.withDev fun d =>
    let i := n.toNat
    let q := i + 4
    match d.injOf q with
    | none => d
    | some x =>
      let total := leAt x.desc 8 4
      if x.taken || x.cut || decide (x.buf.length < total) || !d.slotInj i then d
      else
        let irq := (leAt x.desc 12 1).testBit 0
        let st := headerStamp x.buf
        if !d.slotOn i then ((d.setInj q none).slotDiscard i st 3).qDone q irq
        else if injBad x.buf || decide (st + 1 < SMap.get (fun _ => 0) d.gate.lastStamp i) then
          (((d.setInj q none).bump (R.GATE_SLOT_ERR i)).gateEvent 0x0105 i st 0).qDone q irq
        else
          let head := x.buf.take 9 ++ leBytes 1 (i + 16 * d.slotKind i) ++ (x.buf.drop 10)
          let ws := chunk64 (head.length / 64 + 1) head
          let ws := ws.filter fun w => !w.isEmpty
          let words := (ws.zip (List.range ws.length)).map fun w => mkWord w.1 (w.2 == 0) (w.2 + 1 == ws.length) false
          d.setInj q (some { x with taken := true, words := words, stamp := st })

/-- The first word of an injected sample with its number, which it takes when it is written (R529). -/
def numberWord (w : TWord) (seq : Nat) : TWord := { w with bytes := w.bytes.take 12 ++ leBytes 4 seq ++ w.bytes.drop 16 }

/-- A queue passes a word in this F clock. -/
def Dev.injMark (d : Dev) (q : Nat) : Dev := d.updHost fun h => { h with injAt := SMap.set (fun _ => 0) h.injAt q (d.fclk + 1) }

/-- INJECTION_WORD (R195, R425): at most once in an F clock, the next waiting word passes when the trough has a free word; with the eop word the sample is
complete and the head advances. The abort word of a cut sample passes in the same way (R418). -/
def execInjectionWord (n : BitVec 4) (s : State) : Host.Outcome State Fault Refusal :=
  s.withDev fun d =>
    let i := n.toNat
    let q := i + 4
    match d.injOf q with
    | none => d
    | some x =>
      match x.words with
      | [] => d
      | w :: ws =>
        if d.troughFree i = 0 || SMap.get (fun _ => 0) d.host.injAt q == d.fclk + 1 || (!x.cut && (!d.slotInj i || !d.qOn q || d.qHalted q)) then d
        else if x.cut then (((d.injMark q).troughPut i w).setInj q none).applyPendMap i
        else
          let d := d.injMark q
          let (w, d) : TWord × Dev := if x.passed = 0 then
              let (k, d) := d.takeSeq i
              (numberWord w k, d.noteStamp i x.stamp)
            else (w, d)
          let d := d.troughPut i w
          if ws.isEmpty then ((d.setInj q none).applyPendMap i).qDone q ((leAt x.desc 12 1).testBit 0)
          else d.setInj q (some { x with words := ws, passed := x.passed + 1 })

/-- HOST_INJ_STALL counts each ns that a queue waits on a full trough (R425): the effect of one F clock. -/
def Dev.injStall (d : Dev) : Dev :=
  (List.range 16).foldl (fun d i =>
    match d.injOf (i + 4) with
    | some x =>
      if !x.words.isEmpty && !x.cut && d.troughFree i == 0 && d.qOn (i + 4) && !d.qHalted (i + 4) then d.bump (R.HOST_INJ_STALL i) else d
    | none => d) d

/-! ### Link, resets (R418, R441) -/

/-- Every queue halts (R418): a descriptor in progress fails with link down; a sample partly passed is ended with an abort word. -/
def Dev.haltQueues (d : Dev) : Dev :=
  (List.range 20).foldl (fun d q =>
    let busy := if q < 4 then (SMap.get (fun _ => none) d.host.desc q).isSome
      else (match d.injOf q with
        | some x => !x.cut
        | none => false)
    let d := if !d.qOn q then d else if busy then d.qFail q 0x11 else d.setF ⟨qCtl q, 1, 1⟩ 1
    match d.injOf q with
    | some x =>
      if x.cut then d
      else if x.passed = 0 then d.setInj q none
      else d.setInj q (some { x with words := [terminator], cut := true, buf := [] })
    | none => d) d

/-- The host link goes down (R418): queues halt, waiting BAR accesses are dropped, LINK_STATE when it was up. -/
def Dev.hostDown (d : Dev) : Dev :=
  let was := d.flag F.HOST_STATUS_link_up
  let d := d.haltQueues
  let d := d.updHost fun h => { h with bars := [] }
  let d := (d.setF F.HOST_STATUS_link_up 0).setF F.TOP_STATUS_host_link_up 0
  let d := (d.setF F.HOST_STATUS_speed 0).setF F.HOST_STATUS_width 0
  if was then d.hostEvent 0x0B83 0 0 0 else d

/-- PERST_N and hot reset clear what PCIe resets: the configuration space and the MSI-X table (R418; log 40). -/
def Dev.hostReset (d : Dev) : Dev := d.hostDown.updHost fun h => { h with cfg := [], msix := [], pba := 0 }

/-- PCIE_LINK_UP (R417, R497): the link finishes training. -/
def execPcieLinkUp (speed : BitVec 3) (width : BitVec 5) (s : State) : Host.Outcome State Fault Refusal :=
  s.withDev fun d =>
    if d.host.perst || d.flag F.HOST_STATUS_link_up || !d.flag ⟨R.PWR_DOMAIN_ON, 35, 1⟩ then d
    else
      let d := (d.setF F.HOST_STATUS_link_up 1).setF F.TOP_STATUS_host_link_up 1
      let d := (d.setF F.HOST_STATUS_speed speed.toNat).setF F.HOST_STATUS_width width.toNat
      d.hostEvent 0x0B83 0 0 1

/-- PCIE_LINK_DOWN (R418). -/
def execPcieLinkDown (s : State) : Host.Outcome State Fault Refusal :=
  s.withDev fun d => if d.flag F.HOST_STATUS_link_up then d.hostDown else d

/-- HOT_RESET (R418). -/
def execHotReset (s : State) : Host.Outcome State Fault Refusal := s.withDev fun d => d.hostReset

/-- The registers of the HOST part of block 0x0B. -/
def isHostReg (a : Nat) : Bool := decide (0xB80000 ≤ a) && decide (a < 0xC00000)

/-- FLR (R418, R441): the queues halt, the HOST registers return to their reset values, and the reset is reported. -/
def execFlr (s : State) : Host.Outcome State Fault Refusal :=
  s.withDev fun d =>
    let d := d.hostReset
    let usb := d.getF F.HOST_STATUS_usb_up
    let spd := d.getF F.HOST_STATUS_usb_speed
    let d := { d with regs := SMap.dropIf (fun a _ => isHostReg a) d.regs }
    let d := d.updHost fun h => { h with failed := [], tails := [], moved := [], desc := [] }
    let d := (d.setF F.HOST_STATUS_usb_up usb).setF F.HOST_STATUS_usb_speed spd
    d.hostEvent 0x0B84 0 0 0

/-- USB_DETACH (R428). -/
def execUsbDetach (s : State) : Host.Outcome State Fault Refusal := s.withDev fun d => d.setF F.HOST_STATUS_usb_up 0

/-! ### Doorbells (R426) -/

/-- A doorbell write that is discarded. -/
def Dev.dbDiscard (d : Dev) (ctx : Nat) : Dev :=
  (d.bump R.HOST_DB_DISCARD).raise 0x0B82 0 ctx (d.ctxOf ctx).gen 0

/-- A time word is written to a doorbell: a virtual time advance, unless the context is not live or runs on device time. -/
def Dev.doorbellTime (d : Dev) (k v : Nat) : Dev :=
  if !(d.ctxOf k).active || !d.virtualCtx k then d.dbDiscard k else d.vtAdvanceBell k v

/-- A tail word is written to a doorbell: the tail of an injection queue of a slot that the context owns. -/
def Dev.doorbellTail (d : Dev) (k v : Nat) : Dev :=
  let slot := field v 16 4
  if field v 20 12 ≠ 0 || !(d.ctxOf k).active || d.slotOwner slot != k || !d.slotInj slot || decide (d.qSize (slot + 4) ≤ field v 0 16) then
    d.dbDiscard k
  else d.updHost fun h => { h with tails := SMap.set (fun _ => 0) h.tails (slot + 4) (field v 0 16) }

/-- DOORBELL_TIME (R426). -/
def execDoorbellTime (ctx : BitVec 12) (value : BitVec 64) (s : State) : Host.Outcome State Fault Refusal :=
  s.withDev fun d => d.doorbellTime ctx.toNat value.toNat

/-- DOORBELL_TAIL (R426). -/
def execDoorbellTail (ctx : BitVec 12) (value : BitVec 32) (s : State) : Host.Outcome State Fault Refusal :=
  s.withDev fun d => d.doorbellTail ctx.toNat value.toNat

/-! ### MSI-X (R427) -/

/-- A word of the MSI-X table is written: a vector unmasked with its pending bit set is sent. -/
def Dev.msixWrite (d : Dev) (i v : Nat) : Dev :=
  let d := d.updHost fun h => { h with msix := SMap.set msixDefault h.msix (i % 1024) (v % 2 ^ 32) }
  let vec := i % 1024 / 4
  if i % 4 = 3 && !v.testBit 0 && d.host.pba.testBit vec then
    (d.updHost fun h => { h with pba := putBit h.pba vec false }).sendMsix vec
  else d

/-- MSIX_UNMASK (R427): the vector's mask bit is cleared and its pending message is sent. -/
def execMsixUnmask (v : BitVec 8) (s : State) : Host.Outcome State Fault Refusal :=
  s.withDev fun d => d.msixWrite (4 * v.toNat + 3) (putBit (SMap.get msixDefault d.host.msix (4 * v.toNat + 3)) 0 false)

/-! ### BAR2 and BAR4 (R420, R421) -/

/-- A read answered with Completer Abort, which AER logs (R421; log 42). -/
def Dev.barAbort (d : Dev) : Dev :=
  (d.updHost fun h => { h with cfg := SMap.set (fun _ => 0) h.cfg 0x41 (putBit (SMap.get (fun _ => 0) h.cfg 0x41) 15 true) }).emit .barAbort

/-- Perform a BAR2 or BAR4 access (R420, R421): a refused read is aborted, a refused write discarded. -/
def Dev.barDo (d : Dev) (va len : Nat) : Option (List Byte) → Dev
  | none =>
    match d.mgmtRead 21 0x5D true va len with
    | (d, .ok bs) => d.emit (.barData bs)
    | (d, .error _) => d.barAbort
  | some bs => (d.mgmtWrite 21 0x5D true va bs).1

/-- A BAR2 or BAR4 access arrives: performed, or held for a window in order of arrival. -/
def Dev.barAccess (d : Dev) (va len : Nat) (data : Option (List Byte)) : Dev :=
  if d.host.bars.isEmpty && d.barMayIssue va len then d.barDo va len data
  else d.updHost fun h => { h with bars := h.bars ++ [⟨h.nextTag, va, len, data, d.clk⟩], nextTag := h.nextTag + 1 }

/-- The oldest waiting BAR accesses whose window is open are issued (at each M clock). -/
def Dev.barPump (d : Dev) : Dev :=
  match d.host.bars with
  | b :: bs => if d.barMayIssue b.va b.len then (d.updHost fun h => { h with bars := bs }).barDo b.va b.len b.data else d
  | [] => d

/-- The window base and size of BAR2 or BAR4 (R419, R420). -/
def Dev.barWindow (d : Dev) (bar : Nat) : Nat × Nat :=
  if bar = 2 then (d.getF F.HOST_BAR2_VA_base * 2 ^ 26, 2 ^ 26) else (d.getF F.HOST_BAR4_VA_base * 2 ^ 36, 2 ^ 36)

/-- BAR_TIMEOUT (R421): a BAR read that has waited 10 ms completes with Completer Abort. -/
def execBarTimeout (tag : Nat) (s : State) : Host.Outcome State Fault Refusal :=
  s.withDev fun d =>
    match d.host.bars.find? fun b => b.tag == tag && b.data.isNone && decide (b.at' + 240000000 ≤ d.clk) with
    | none => d
    | some b =>
      let d := d.updHost fun h => { h with bars := h.bars.filter fun x => x.tag != tag }
      (d.barAbort.bump R.HOST_BAR_TIMEOUT).hostEvent 0x0B85 0 b.va 0

end Sys2Proof.Machine
end

