-- ==== Sys2Proof/Machine/Slices.lean ====
section
/-! DEFINITION. Slices (R365, R366, R370): the saved form of a plough's state (R35), RUN slices, their saves, the SWAP slices of an exchange
(R368). -/

namespace Sys2Proof.Machine

/-! ### A plough's state as bytes (R35, R358) -/

/-- The values of keys `k` to `k + n - 1` of a sparse map over zero, in order. -/
def denseFrom : Nat → Nat → SMap Nat → List Nat
  | _, 0, _ => []
  | k, n + 1, [] => 0 :: denseFrom (k + 1) n []
  | k, n + 1, (j, v) :: m => if k < j then 0 :: denseFrom (k + 1) n ((j, v) :: m) else v :: denseFrom (k + 1) n m

/-- The values of a sparse map of words. -/
def natVals {w : Nat} (m : SMap (BitVec w)) : SMap Nat := m.map fun e => (e.1, e.2.toNat)

/-- `n` little-endian words of `size` bytes from a list. -/
def wordsFrom (size : Nat) : Nat → List Byte → List Nat
  | 0, _ => []
  | n + 1, bs => leNat (bs.take size) :: wordsFrom size n (bs.drop size)

/-- The sparse map of the words that are not zero. -/
def sparseOf (w : Nat) (l : List Nat) : SMap (BitVec w) :=
  ((List.range l.length).zip l).filterMap fun x => if x.2 = 0 then none else some (x.1, BitVec.ofNat w x.2)

/-- A loop level in 20 bytes. -/
def loopBytes (l : Option LoopLvl) : List Byte :=
  match l with
  | some l => leBytes 8 l.first ++ leBytes 8 l.last ++ leBytes 4 l.left
  | none => List.replicate 20 0

/-- The control part in 64 bytes: the program counter, provisional mode, the trap state, the loops, a branch on its way (the places of
these in the part are the model's own, log 37). -/
def Plough.controlBytes (pl : Plough) : List Byte :=
  leBytes 8 pl.pc
    ++ leBytes 1 (b2n pl.pmode.isSome + 2 * b2n (pl.status == .faulted) + 4 * pl.loops.length + 16 * (pl.pmode.elim 0 (·.sched % 8)))
    ++ leBytes 1 (pl.branch.elim 0 fun b => b.2 + 1) ++ leBytes 2 0 ++ leBytes 4 (pl.pmode.elim 0 (·.mark))
    ++ loopBytes pl.loops[0]? ++ loopBytes pl.loops[1]? ++ leBytes 8 (pl.branch.elim 0 (·.1))

/-- A plough's state as its save area holds it, padded to 64 bytes (R35, R358). -/
def Plough.stateSaved (pl : Plough) : List Byte :=
  (denseFrom 0 64 (natVals pl.s)).flatMap (leBytes 8) ++ leBytes 2 pl.p.toNat
    ++ (denseFrom 0 32 (natVals pl.v)).flatMap (leBytes 1024)
    ++ (denseFrom 0 65536 (natVals pl.a)).flatMap (leBytes 4)
    ++ (denseFrom 0 32 (natVals pl.d)).flatMap (leBytes 64)
    ++ fitBytes 64 pl.controlBytes ++ List.replicate 62 0

/-- Where the control part lies in a saved state. -/
def controlAt : Nat := 297474

/-- A saved control part holds provisional mode. -/
def savedProv (c : List Byte) : Bool := (leAt c 8 1).testBit 0

/-- A loop level from its 20 bytes. -/
def loopOf (c : List Byte) (o : Nat) : LoopLvl := ⟨leAt c o 8, leAt c (o + 8) 8, leAt c (o + 16) 4⟩

/-- A plough with the state that saved bytes hold. -/
def Plough.restoreFrom (pl : Plough) (bs : List Byte) : Plough :=
  let c := (bs.drop controlAt).take 64
  let flags := leAt c 8 1
  { pl with
    s := sparseOf 64 (wordsFrom 8 64 bs), p := BitVec.ofNat 16 (leAt bs 512 2),
    v := sparseOf 8192 (wordsFrom 1024 32 (bs.drop 514)), a := sparseOf 32 (wordsFrom 4 65536 (bs.drop 33282)),
    d := sparseOf 512 (wordsFrom 64 32 (bs.drop 295426)),
    pc := leAt c 0 8, pmode := if savedProv c then some ⟨field flags 4 3, leAt c 12 4⟩ else none,
    loops := [loopOf c 16, loopOf c 36].take (field flags 2 2),
    branch := if leAt c 9 1 = 0 then none else some (leAt c 56 8, leAt c 9 1 - 1) }

/-! ### RUN slices (R366) -/

/-- The RUN entry of a plough that is open now and has not begun, with its index. -/
def Dev.openSlice (d : Dev) (n : Nat) : Option (Nat × SliceEntry) :=
  let l := d.ploughSlices n
  let c := d.ccount
  ((List.range l.length).zip l).find? fun x =>
    decide ((d.plough n).nextEntry ≤ x.1) && !x.2.swap && decide (x.2.start ≤ c) && decide (c < x.2.start + x.2.len)

/-- A unit that the Reeve holds: recovering or parked. -/
def Dev.ploughHeld (d : Dev) (n : Nat) : Bool := d.unitBusy n || (d.getF F.REEVE_UNIT_PARKED_plough).testBit n

/-- The context whose slice runs in an entry; none for an empty, suspended, halted or parked slot, and after the plan's last period. -/
def Dev.sliceCtx (d : Dev) (n : Nat) (e : SliceEntry) : Option Nat :=
  if d.plan.ended || d.ploughHeld n then none
  else match d.slotHolder e.rslot with
    | some id =>
      let c := d.ctxOf id
      if c.suspended || c.halted || c.outcast then none else some id
    | none => none

/-- The slice quota cuts the entry (R370). -/
def Dev.sliceOver (d : Dev) (id : Nat) (e : SliceEntry) : Bool :=
  decide ((d.ctxOf id).quota.getD 0 0 < (d.ctxOf id).usage.getD 0 0 + e.len)

/-- The recovery entry of a context on a plough (R464). -/
def Dev.recoveryEntry (d : Dev) (n id : Nat) : Nat :=
  let cp := d.section 7 n
  match (List.range (leAt cp 4 2)).find? fun i => leAt cp (64 + 16 * i) 2 == id with
  | some i => leAt cp (64 + 16 * i + 8) 8
  | none => 0

/-- The region registers of a context: the marked regions of its MAPPING section in the Barn or a local store (R79). The walk's failures
are the regions' own (R157). -/
def Dev.loadRegions (d : Dev) (id : Nat) : List Region :=
  let bad := if d.ctxTableBad id then some 0x07 else none
  (((mapRegions (d.mapping id)).filter fun r => r.load && pteTarget r.pte != 0x11).take 16).map fun r =>
    ⟨r.va, r.bytes, r.key, r.pte, if bad.isSome then bad else if pteBad r.pte then some 0x07 else none⟩

/-- Where the slice begins: at the recovery entry (R471), at the mark entry (R56, R363), or where the context stopped. -/
def Dev.sliceEntryPc (d : Dev) (n id : Nat) (pl : Plough) : Plough :=
  let c := d.ctxOf id
  let clear := fun (pl : Plough) => { pl with loops := [], branch := none, pmode := none }
  if c.recoverOn.contains n then { (clear (pl.squashZero d.cclk)) with pc := d.recoveryEntry n id, pend := [] }
  else if c.entryOn.contains n then { (clear pl) with pc := Config.markEntry id n }
  else pl

/-- A DMA queue halted by a transfer of the context is emptied (R156, R383). -/
def freeHalted (id : Nat) (q : DmaQueue) : DmaQueue :=
  match q.halt, q.xfers with
  | some _, x :: _ => if x.ctx = id then {} else q
  | _, _ => q

/-- Run a slice: restore, load the regions, leave the halted link entries and queues, issue bundles until the drain. -/
def Dev.sliceRun (d : Dev) (n i : Nat) (e : SliceEntry) (id : Nat) : Dev :=
  let (d, bs) := d.swapRead n id (d.barnSave e.rslot n) stateBytes
  let gen := (d.ctxOf id).gen
  let regs := d.loadRegions id
  let from' := max (d.plan.cBase + e.start + 2630) d.cclk
  let till := d.plan.cBase + e.start + e.len - 902
  let d := d.linkSlice n id gen
  let pl := d.sliceEntryPc n id ((d.plough n).restoreFrom bs)
  let pl := { pl with
    status := .running, ctx := id, gen := gen, regions := regs, sliceIdx := some i, pcAt := from', issueTo := till, stopped := false,
    ended := false, waits := [], faultAt := none, loopEnter := none, w0 := {}, w1 := {}, occ := [], reports := [], markOps := [], opens := [],
    q0 := freeHalted id pl.q0, q1 := freeHalted id pl.q1, q2 := freeHalted id pl.q2, q3 := freeHalted id pl.q3,
    ran := if pl.ran.contains id then pl.ran else id :: pl.ran }
  let d := d.updPlough n fun _ => pl
  d.updCtx id fun c => { c with
    usage := c.usage.set 0 (c.usage.getD 0 0 + e.len)
    entryOn := c.entryOn.filter (· != n)
    recoverOn := c.recoverOn.filter (· != n) }

/-- Save a running slice: results in flight land, bundles retire, waits are given up, and the state goes to the slot's Barn save area. The
plough idles. -/
def Dev.sliceSave (d : Dev) (n : Nat) : Dev :=
  let pl := d.plough n
  match pl.sliceIdx with
  | none => d
  | some i =>
    let rs := (d.ctxOf pl.ctx).rslot
    let due := pl.held.foldl (fun acc x => insertHeld x acc) []
    let d := d.updPlough n fun pl =>
      let pl := { pl with held := [] }
      if pl.status = .running ∧ pl.pcAt < pl.issueTo ∧ pl.pcAt ≤ d.cclk then { pl with waits := [] }.advance pl.pcAt else pl
    let d := due.foldl (fun (d : Dev) h => d.retireEff n h) d
    let d := d.landUpTo n (d.cclk + 1000000)
    let held := (d.ctxOf pl.ctx).life == .retired || d.ploughHeld n
    let d := if held then d else (d.writeKey (d.barnSave rs n) (d.plough n).stateSaved ⟨n, 0, pl.ctx, pl.gen⟩).1
    d.updPlough n fun x => { x with
      status := if x.status = .recovering then .recovering else .idle
      ctx := 0, gen := 0, sliceIdx := none, waits := [], pmode := none, regions := [], occ := [], s := [], p := 0, v := [], a := [], d := [],
      loops := [], branch := none, loopEnter := none, ended := false, w0 := {}, w1 := {}
      waived := if x.stopped then i :: x.waived else x.waived
      stopped := false }

/-- Begin an entry of the plough's slice table (R366, R370): idle, cut, or run. -/
def Dev.sliceStart (d : Dev) (n : Nat) : Dev :=
  match d.openSlice n with
  | none => d
  | some (i, e) =>
    if !d.locked then d
    else
      let d := (d.sliceSave n).updPlough n fun pl => { pl with nextEntry := i + 1 }
      let idle := fun (d : Dev) => d.updPlough n fun pl => { pl with waived := i :: pl.waived }
      match d.sliceCtx n e with
      | none => idle d
      | some id =>
        if d.sliceOver id e then
          let d := (d.noteCount (sliceCutKey id) (d.ctxOf id).sliceCut 1).updCtx id fun c => { c with sliceCut := satAdd32 c.sliceCut 1 }
          (idle d).raise 0x0011 0 id (d.ctxOf id).gen (dAt 28 4 d.plan.period)
        else d.sliceRun n i e id

/-- RUN_SLICE_START (R366). -/
def execRunSliceStart (p : BitVec 4) (s : State) : Host.Outcome State Fault Refusal := s.withDev fun d => d.sliceStart p.toNat

/-- The entry that a plough runs. -/
def Dev.runningSlice (d : Dev) (n : Nat) : Option SliceEntry :=
  (d.plough n).sliceIdx.bind fun i => (d.ploughSlices n)[i]?

/-- SLICE_SAVE (R366): the save at its planned clock, 582 clocks before the end of the slice. -/
def execSliceSave (p : BitVec 4) (s : State) : Host.Outcome State Fault Refusal :=
  s.withDev fun d =>
    match d.runningSlice p.toNat with
    | some e => if e.start + e.len ≤ d.ccount + 582 then d.sliceSave p.toNat else d
    | none => d

/-! ### SWAP slices (R368) -/

/-- SWAP_SLICE (R368): in the first SWAP slice of the exchange's period on a plough of the slot, the outgoing state is checked for
provisional mode and written out, and the incoming state read back. -/
def execSwapSlice (p : BitVec 4) (s : State) : Host.Outcome State Fault Refusal :=
  s.withDev fun d =>
    let n := p.toNat
    match d.exch, d.swapEntry n with
    | some e, some sl =>
      if e.period ≠ d.plan.period ∨ d.ccount < sl.start ∨ e.swapped.contains n ∨ !(d.slotPloughs e.rslot).testBit n then d
      else
        let prov := match e.out with
          | some _ => savedProv (d.peek (d.barnSave e.rslot n + controlAt) 64)
          | none => false
        if prov then d.exchangeUndo e 0x06
        else
          let d := match e.out with
            | some o => d.swapMove e o n true
            | none => d
          let d := d.swapMove e e.id n false
          { d with exch := some { e with swapped := n :: e.swapped } }
    | _, _ => d

/-- The swap engines of an exchange still have stack requests waiting. -/
def Dev.swapBusy (d : Dev) (e : Exchange) : Bool :=
  (List.range 16).any fun n => d.stackBusy (0x40 + n) e.id || (match e.out with
    | some o => d.stackBusy (0x40 + n) o
    | none => false)

/-- EXCHANGE_COMPLETE (R368): every plough of the slot has been swapped and their stack requests are served (R45); the exchange takes effect at
the next boundary. -/
def execExchangeComplete (s : State) : Host.Outcome State Fault Refusal :=
  s.withDev fun d =>
    match d.exch with
    | some e =>
      if e.period = d.plan.period ∧ (List.range 16).all (fun n => !(d.slotPloughs e.rslot).testBit n || e.swapped.contains n) = true ∧ d.swapBusy e = false then
        { d with exch := some { e with done := true } }
      else d
    | none => d

/-- At a boundary, before the period counts on: an exchange of the period that ends takes effect, or is refused when a plough of the slot
had no SWAP slice (R368). -/
def Dev.exchangeBoundary (d : Dev) : Dev :=
  match d.exch with
  | none => d
  | some e =>
    if e.period ≠ d.plan.period then d
    else if !e.done then d.exchangeUndo e 0x01
    else
      let d := match e.out with
        | some o => d.updCtx o fun c => { c with life := .swapped, rslot := 0 }
        | none => d
      let d := d.updCtx e.id fun c => { c with life := .resident, rslot := e.rslot }
      ({ d with exch := none } : Dev).ctxEnd 0

/-- The slices of a period that ends are closed, and the ploughs' counts start again (R366, R370). -/
def Dev.sliceBoundary (d : Dev) : Dev :=
  let d := iter 16 d fun n d => d.sliceSave n
  let d := iter 16 d fun n d => d.updPlough n fun pl => { pl with nextEntry := 0, ran := [], waived := [] }
  (d.ctxs.map (·.1)).foldl (fun (d : Dev) id => d.updCtx id fun c => { c with
    usage := c.usage.set 0 0
    quota := match c.newSliceQuota with
      | some q => c.quota.set 0 q
      | none => c.quota
    newSliceQuota := none }) d

end Sys2Proof.Machine
end

