-- ==== Sys2Proof/Machine/RegView.lean ====
section
/-! DEFINITION. What a register shows, without the side effects of a read (R10, R474): the stored value, or the present value of what
the register reports. -/

namespace Sys2Proof.Machine

/-- A range of blocks of 1 MiB that a power domain holds (R484); the blocks of the always-on domain have none. The registers that serve
the Gatehouse as a whole are taken to be the fabric's (log 53). -/
def regDomain (a : Nat) : Option Nat :=
  let o := a % 0x100000
  match a / 0x100000 with
  | 0 => some 34
  | 1 =>
    if 0x400 ≤ o ∧ o < 0x500 then some 27
    else if 0x500 ≤ o ∧ o < 0x600 then some 28
    else if (0x600 ≤ o ∧ o < 0x640) ∨ 0x700 ≤ o then some 29
    else if 0x640 ≤ o ∧ o < 0x700 then some 30
    else some 34
  | 2 => some 26
  | 3 => none
  | 4 => some 16
  | 5 => some 17
  | 6 => some 18
  | 7 => some 19
  | 8 => some 34
  | 9 => some 34
  | 0xA => some 31
  | 0xB => some 34
  | 0xC => none
  | 0xD => none
  | 0xE => none
  | b => if 0x10 ≤ b ∧ b < 0x20 then some (b - 0x10) else none

/-- A domain of R484 is on. -/
def Dev.domainOn (d : Dev) (n : Nat) : Bool := d.flag ⟨R.PWR_DOMAIN_ON, n, 1⟩

/-- The register at an address has its domain on, and its block has left reset (R485, R495, R496). -/
def Dev.regOn (d : Dev) (a : Nat) : Bool :=
  d.pwr.good && (match regDomain a with
    | some n => d.domainOn n
    | none => true)

/-- The code of a plough's state in PLOUGH_STATUS. -/
def PlStatus.code : PlStatus → Nat
  | .idle => 0
  | .running => 1
  | .faulted => 2
  | .recovering => 3

/-- The code of a context's state in TOP_CTX_STATE. -/
def CtxLife.code : CtxLife → Nat
  | .retired => 0
  | .swapped => 1
  | .resident => 2
  | .retiring => 3

/-- TOP_CTX_STATE of the selected ID. -/
def Dev.ctxStateReg (d : Dev) : Nat :=
  let c := d.ctxOf (d.getF F.TOP_CTX_SEL_ctx_id)
  c.life.code + 4 * b2n c.suspended + 8 * b2n c.halted + 16 * (if c.life = .resident then c.rslot % 64 else 0) + 4096 * (c.gen % 2 ^ 20)

/-- PLOUGH_STATUS (R96). After SLICE_END the plough idles (R78). -/
def Plough.statusReg (pl : Plough) : Nat :=
  (if pl.ended && pl.status == .running then 0 else pl.status.code) + 4 * b2n pl.pmode.isSome + 8 * (pl.pmode.elim 0 (·.sched % 8)) + 64 * (pl.loops.length % 4)

/-- PLOUGH_MAT_STATUS (R140). -/
def Plough.matStatusReg (pl : Plough) (now : Nat) : Nat :=
  let held := fun (r : Nat) => pl.occ.any fun o => o.res == r && decide (o.lo ≤ now) && decide (now < o.hi)
  let xbuf := (pl.occ.filter fun o => o.res == 6 && decide (o.lo ≤ now) && decide (now < o.hi)).length
  b2n (held 1) + 2 * b2n (held 4) + 4 * b2n (pl.occ.any fun o => o.res == 5 && decide (now < o.hi)) + 8 * b2n pl.w0.loaded
    + 16 * b2n pl.w1.loaded + 32 * b2n pl.w0.poison.isSome + 64 * b2n pl.w1.poison.isSome + 128 * min xbuf 2

/-- A register of a plough's block. -/
def Dev.ploughReg (d : Dev) (n o : Nat) (stored : Nat) : Nat :=
  let pl := d.plough n
  if o = 0 then pl.statusReg
  else if o = 4 then if pl.status = .recovering then 0 else pl.ctx + 4096 * pl.gen
  else if o = 0x30 then d.ccount % 2 ^ 32
  else if o = 0x50 then pl.matStatusReg d.cclk
  else stored

/-- The identity memory that GATE_ID_SEL shows (R185, R189). -/
def Dev.idShown (d : Dev) : IdRec :=
  SMap.get (fun _ => {}) d.gate.ids (d.getF F.GATE_ID_SEL_bus * 8 + d.getF F.GATE_ID_SEL_addr)

/-- GATE_ID_INFO. -/
def IdRec.info (r : IdRec) : Nat :=
  if r.state = 0 then 0
  else r.state + 4 * (leAt r.bytes 8 1 % 16) + 64 * (leAt r.bytes 9 1 % 16) + 1024 * (leAt r.bytes 10 1 % 16) + 65536 * leAt r.bytes 12 2

/-- A word of the page that REEVE_DUMP_PAGE selects (R480). -/
def State.dumpWord (s : State) (i : Nat) : Nat :=
  let p := s.dev.getF F.REEVE_DUMP_PAGE_page
  if p < 8 then leAt s.kept.dump (p * 0x40000 + 4 * i) 4
  else if p = 8 ∧ i < 0x4000 then leAt (SMap.get (fun _ => []) s.kept.summaries (i / 1024)) (4 * (i % 1024)) 4
  else 0

/-- A word of the identity public key: x, then y (R463). -/
def Dev.idKeyWord (d : Dev) : Nat :=
  let i := d.getF F.STEW_IDKEY_SEL_index
  match d.stew.idKey with
  | some (_, x, y) => if i < 12 then field x (32 * i) 32 else if i < 24 then field y (32 * (i - 12)) 32 else 0
  | none => 0

/-- The Almanac's status (R229). -/
def Almanac.status (a : Almanac) : Nat := b2n a.valid + 2 * (a.supply % 4) + 8 * b2n a.lost + 16 * b2n a.capLow

/-- A register of the blocks TOP and BELL whose value is not stored. -/
def State.topBellReg (s : State) (a stored : Nat) : Nat :=
  let d := s.dev
  let sel := d.getF F.TOP_CTX_SEL_ctx_id
  let vt := d.ctxOf (d.getF F.BELL_VT_SEL_ctx_id)
  if a = R.TOP_STATUS then putField stored 8 4 ((d.reg R.LINK_STATUS).toNat % 16)
  else if a = R.TOP_IRQ_SUMMARY then d.irqSummary
  else if a = R.TOP_CTX_STATE then d.ctxStateReg
  else if R.TOP_CTX_QUOTA 0 ≤ a ∧ a < R.TOP_CTX_QUOTA 6 then
    let i := (a - R.TOP_CTX_QUOTA 0) / 4
    let q := (d.ctxOf sel).quota.getD i 0
    if !(d.ctxOf sel).live then 0 else if i = 0 then (d.ctxOf sel).newSliceQuota.getD q else q
  else if R.TOP_CTX_USAGE 0 ≤ a ∧ a < R.TOP_CTX_USAGE 6 then
    if (d.ctxOf sel).live then d.usageOf sel ((a - R.TOP_CTX_USAGE 0) / 4) % 2 ^ 32 else 0
  else if a = R.TOP_CTX_SLICE_CUT then if (d.ctxOf sel).live then (d.ctxOf sel).sliceCut else 0
  else if a = R.BELL_TIME then d.devNs % 2 ^ 64
  else if a = R.BELL_TIME_FRAC then d.dev256 % 256
  else if a = R.BELL_PERIOD_BASE then if d.locked then stored else 0
  else if a = R.BELL_VT_CUR then vt.vtCur
  else if a = R.BELL_VT_PENDING then vt.vtPend
  else if a = R.BELL_ALM_SEC then s.kept.alm.sec % 2 ^ 48
  else if a = R.BELL_ALM_SUB then s.kept.alm.ticks % 2 ^ 15
  else if a = R.BELL_ALM_STATUS then s.kept.alm.status
  else stored

/-- A register of the sensor side and the engines whose value is not stored. -/
def Dev.engineReg (d : Dev) (a stored : Nat) : Nat :=
  if a = R.GATE_STATUS then d.gateStatus
  else if a = R.GATE_ID_INFO then d.idShown.info
  else if a = R.GATE_ID_MODEL then leAt d.idShown.bytes 16 4
  else if a = R.GATE_ID_SERIAL then leAt d.idShown.bytes 24 8
  else if a = R.TROUGH_STATUS then d.troughStatus
  else if R.TROUGH_PTR 0 ≤ a ∧ a < R.TROUGH_PTR 16 ∧ (a - R.TROUGH_PTR 0) % 0x20 = 0 then d.troughPtr ((a - R.TROUGH_PTR 0) / 0x20)
  else if a = R.YOKE_STATUS then stored / 2 * 2 + b2n (decide (d.cclk < d.yoke.busyUntil))
  else if a = R.YOKE_STREAM_STATE then d.streamView.1
  else if a = R.YOKE_STREAM_AGE then d.streamView.2.1
  else if a = R.YOKE_STREAM_LAST then d.streamView.2.2
  else if a = R.YOKE_PROJ_STATUS then d.projStatus
  else if a = R.SIEVE_STATUS then d.sieveStatus
  else if a = R.MILL_STATUS then d.millStatus
  else if a = R.MILL_MODEL_INFO then d.millModelInfo
  else if a = R.MILL_MODEL_SIG then leAt (d.millModel (d.getF F.MILL_MODEL_SEL_slot)) 0 8
  else if a = R.MILL_RES_INFO then d.millResInfo
  else if a = R.MILL_RES_SIG then
    if (d.resSlot (d.getF F.MILL_RES_SEL_slot)).valid then (d.resSlot (d.getF F.MILL_RES_SEL_slot)).sig else 0
  else if a = R.GRAN_STATUS then d.granStatus
  else if a = R.HEDGE_STATUS then stored / 8 * 8 + d.hedge.walks.length % 8
  else if a = R.HEDGE_FENCE_STATUS then d.fenceStatus
  else if a = R.HEDGE_REGION_STATE then
    (d.region (d.getF F.HEDGE_REGION_SEL_region)).state + 4 * ((d.region (d.getF F.HEDGE_REGION_SEL_region)).sched % 8)
  else if a = R.HEDGE_REGION_MARK then (d.region (d.getF F.HEDGE_REGION_SEL_region)).mark % 2 ^ 32
  else stored

/-- A register of the Steward, the Reeve and PWR whose value is not stored. -/
def State.manageReg (s : State) (a stored : Nat) : Nat :=
  let d := s.dev
  if a = R.STEW_MBOX_CTL then d.mboxCtl
  else if R.STEW_MBOX_RSP 0 ≤ a ∧ a < R.STEW_MBOX_RSP 8 then leAt (d.stew.rsps.headD []) (a - R.STEW_MBOX_RSP 0) 4
  else if a = R.STEW_IDKEY_DATA then d.idKeyWord
  else if R.REEVE_DUMP_WIN 0 ≤ a ∧ a < R.REEVE_DUMP_WIN 65536 then s.dumpWord ((a - R.REEVE_DUMP_WIN 0) / 4)
  else if a = R.PWR_RESET_CAUSE then s.kept.cause
  else stored

/-- The present value of the register at an address. -/
def State.regView (s : State) (a : Nat) : Nat :=
  let d := s.dev
  let stored := (d.reg a).toNat
  match a / 0x100000 with
  | 0 => s.topBellReg a stored
  | 3 => s.topBellReg a stored
  | 0xC => s.manageReg a stored
  | 0xD => s.manageReg a stored
  | 0xE => s.manageReg a stored
  | b => if 0x10 ≤ b ∧ b < 0x20 then d.ploughReg (b - 0x10) (a % 0x100000) stored else d.engineReg a stored

/-- 32 bits of the register image at an address: of a wide register the half that lies there (R474, R475). -/
def State.regWord (s : State) (a : Nat) : Nat :=
  if !s.dev.regOn a then 0
  else match regRowAt a with
    | some _ => s.regView a % 2 ^ 32
    | none =>
      match regRowAt (a - 4) with
      | some r => if r.wide && 4 ≤ a then s.regView (a - 4) / 2 ^ 32 else 0
      | none => 0

end Sys2Proof.Machine
end

