-- ==== Sys2Proof/Machine/Reeve.lean ====
section
/-! DEFINITION. The Reeve (R464–R480): checkpoints, detectors, partition recoveries, dumps, device recovery. -/

namespace Sys2Proof.Machine

/-- Change the Reeve. -/
def Dev.updReeve (d : Dev) (f : ReeveState → ReeveState) : Dev := { d with reeve := f d.reeve }

/-- Change the device. -/
def State.upd (s : State) (f : Dev → Dev) : State := { s with dev := f s.dev }

/-! ### Units (R32, R467, R480) -/

/-- The bits of REEVE_UNIT_BUSY that a unit covers, by its code in REEVE_CMD; none for a code without a unit. -/
def unitMask (u : Nat) : Option Nat :=
  if u < 16 then some (1 <<< u)
  else if u < 20 then some (0xF <<< (4 * (u - 16)))
  else if u < 24 then some (1 <<< (u - 4))
  else if u = 31 then some 0xFFFFF
  else none

/-- The mask of a unit, empty for none. -/
def unitBits (u : Nat) : Nat := (unitMask u).getD 0

/-- The ploughs of a unit. -/
def unitPloughs (u : Nat) : List Nat := (List.range 16).filter fun n => (unitBits u).testBit n

/-- The engines of a unit. -/
def unitEngines (u : Nat) : List Nat := (List.range 4).filter fun e => (unitBits u).testBit (16 + e)

/-- A record of the Reeve (R479). -/
def Dev.reeveEvent (d : Dev) (code inst ctx gen ns cause b25 num seq : Nat) : Dev :=
  d.raise code inst ctx gen (dAt 16 8 ns + dAt 24 1 cause + dAt 25 1 b25 + dAt 26 2 num + dAt 28 4 seq)

/-- A record about a recovery. -/
def Dev.recEvent (d : Dev) (code : Nat) (r : Recovery) (b25 : Nat) (ctx gen : Nat := 0) : Dev :=
  d.reeveEvent code r.unit ctx gen r.ns r.cause b25 (if r.cause = 1 then r.detail % 65536 else 0) r.seq

/-- REEVE_UNIT_BUSY, REEVE_STATUS and TOP_STATUS.recovery_active as the recoveries that run make them. -/
def Dev.reeveShow (d : Dev) : Dev :=
  let dev := d.reeve.deviceRuns
  let busy := if dev then 0xFFFFF else d.reeve.recs.foldl (fun m r => m ||| unitBits r.unit) 0
  let all := (if dev then d.reeve.device.toList else []) ++ d.reeve.recs
  let dump := all.any fun r => !r.dumped
  let d := d.setReg R.REEVE_UNIT_BUSY (BitVec.ofNat 64 busy)
  let d := (d.setB F.REEVE_STATUS_active !all.isEmpty).setB F.REEVE_STATUS_dump_busy dump
  (d.setB F.TOP_STATUS_recovery_active !all.isEmpty).setB F.REEVE_DUMP_STATUS_busy (all.any fun r => !r.dumped && !r.summary)

/-! ### Suspects (R470, R471) -/

/-- The provisional mode of a context on a plough: of its running slice, or of the state its slot has saved there. -/
def Dev.provModeOf (d : Dev) (id n : Nat) : Option PTag :=
  let pl := d.plough n
  if pl.sliceIdx.isSome && pl.ctx == id then pl.pmode
  else
    let c := d.ctxOf id
    if c.life = .resident ∧ (d.slotPloughs c.rslot).testBit n = true then
      let b := d.peek (d.barnSave c.rslot n + controlAt) 64
      if savedProv b then some ⟨field (leAt b 8 1) 4 3, leAt b 12 4⟩ else none
    else none

/-- The provisional modes of a context. -/
def Dev.provModes (d : Dev) (id : Nat) : List PTag := (List.range 16).filterMap fun n => d.provModeOf id n

/-- The first group of suspects: who ran on the ploughs in this period, or holds a RUN slice there that is not finished. -/
def Dev.suspects1 (d : Dev) (ps : List Nat) : List Nat :=
  let ran := ps.flatMap fun n => (d.plough n).ran
  let next := ps.flatMap fun n => (d.ploughSlices n).filterMap fun e =>
    if e.swap ∨ e.start + e.len ≤ d.ccount then none else d.slotHolder e.rslot
  ((ran ++ next).eraseDups).filter fun id => (d.ctxOf id).active

/-- Start of a suspect's treatment: its slices outside the unit stop, later ones stay idle, it is fenced, reported, and given to the
Steward for a new generation, or for retirement when none is left. -/
def Dev.suspect (d : Dev) (r : Recovery) (id : Nat) : Dev :=
  let gen := (d.ctxOf id).gen
  let d := iter 16 d fun n d =>
    if (d.plough n).sliceIdx.isSome && (d.plough n).ctx == id then
      d.updPlough n fun pl => { pl with ended := true, stopped := true, waits := [] }
    else d
  let d := (d.updCtx id fun c => { c with outcast := true }).fenceStart id
  let last := decide (0xFFFFE ≤ gen)
  let d := d.updStew fun x => { x with renew := x.renew.filter (fun e => e.1 != id) ++ [(id, last)] }
  d.recEvent 0x0D05 r (b2n last) id gen

/-- The marks of schedules that anything provisional carries. -/
def Dev.provMarks (d : Dev) (scheds : List Nat) : List PTag :=
  let regs := d.hedge.regions.filterMap fun e => if e.2.state = 1 then some ⟨e.2.sched, e.2.mark⟩ else none
  let dma := (List.range 16).flatMap fun n => (List.range 4).flatMap fun q => ((d.plough n).queue q).xfers.filterMap (·.tag)
  let all := regs ++ d.evt.held.map (·.1) ++ d.evt.counts.map (·.tag) ++ d.jobs.filterMap (·.tag) ++ d.links.xfers.filterMap (·.tag) ++ dma
    ++ (List.range 16).filterMap fun n => (d.plough n).pmode
  (all.filter fun t => scheds.contains t.sched).eraseDups

/-! ### Isolation (R472 step 1) -/

/-- A plough stops issuing and its state freezes with the results that have landed; what its bundles have not finished is lost. -/
def Dev.isolatePlough (d : Dev) (n : Nat) : Dev :=
  let now := d.cclk
  let d := { d with
    jobs := d.jobs.filter fun j => !(j.plough == n && !j.accepted)
    links := { d.links with xfers := d.links.xfers.filter fun x => !(x.plough == n && !x.accepted) } }
  (d.landUpTo n now).updPlough n fun pl =>
    { pl with status := .recovering, pend := [], held := [], reports := [], markOps := [], waits := [], sliceIdx := none, stopped := false
              waived := pl.sliceIdx.toList ++ pl.waived }

/-- The status bit of an engine under recovery. -/
def engRecovering (e : Nat) : FieldRef :=
  match e with
  | 0 => F.YOKE_STATUS_recovering
  | 1 => F.SIEVE_STATUS_recovering
  | 2 => F.MILL_STATUS_recovering
  | _ => F.GRAN_STATUS_recovering

/-- The full dump overwrites the buffer from its start: what it held is no longer complete. -/
def State.dumpBegins (s : State) (summary : Bool) : State :=
  if summary then s
  else { s with kept := { s.kept with dumpValid := false }, dev := s.dev.setB F.REEVE_DUMP_STATUS_valid false }

/-- A recovery record of now. -/
def Dev.newRecovery (d : Dev) (u cause detail : Nat) : Recovery :=
  { unit := u, cause := cause, seq := (d.reeve.seq + 1) % 2 ^ 24, ns := d.devNs, fclk := d.fclk, ccount := d.ccount % 2 ^ 32,
    period := d.plan.period, detail := detail, dumpFrom := d.fclk }

/-- A partition recovery starts (R472 step 1, with the start of steps 2 and 3). -/
def State.recoveryStart (s : State) (u cause detail : Nat) : State :=
  let d := s.dev
  let r := d.newRecovery u cause detail
  let r := { r with summary := d.reeve.recs.any fun x => !x.dumped }
  let ps := unitPloughs u
  let g1 := if ps.isEmpty then [] else d.suspects1 ps
  let scheds := (List.range 8).filter fun k => g1.any fun id => d.tolerates id k
  let live := (List.range d.ctxCount).filter fun id => (d.ctxOf id).active
  let g2 := if ps.isEmpty then [] else live.filter fun id => !g1.contains id && (d.provModes id).any fun t => scheds.contains t.sched
  let sus := g1 ++ g2
  let r := { r with suspects := sus.map (fun id => (id, (d.ctxOf id).gen)), scheds := scheds,
                    marks := (d.provMarks scheds ++ (sus.flatMap d.provModes).filter fun t => scheds.contains t.sched).eraseDups }
  let d := ps.foldl (fun (d : Dev) n => d.isolatePlough n) d
  let d := (unitEngines u).foldl (fun (d : Dev) e => d.setB (engRecovering e) true) d
  let d := d.updReeve fun x => { x with recs := x.recs ++ [r], seq := r.seq }
  let d := d.reeveShow.recEvent 0x0D03 r 0
  let d := sus.foldl (fun (d : Dev) id => d.suspect r id) d
  ({ s with dev := d } : State).dumpBegins r.summary

/-! ### Requests (R469) -/

/-- The units parked. -/
def Dev.parkedBits (d : Dev) : Nat := (d.reg R.REEVE_UNIT_PARKED).toNat % 2 ^ 20

/-- A request for the recovery of a unit: a device recovery supersedes all others; a request for what recovers or is parked is discarded;
one for more than recovers waits (a parked unit counts as one in reset, log 54). -/
def State.reeveRequest (s : State) (u cause detail : Nat) : State :=
  let d := s.dev
  match unitMask u with
  | none => s
  | some m =>
    let taken := d.reeve.recs.any fun r => unitBits r.unit &&& m = m
    if d.reeve.device.isSome ∨ (u ≠ 31 ∧ (taken = true ∨ d.parkedBits &&& m = m)) then s.upd fun d => d.bump R.REEVE_DISCARDED
    else if u = 31 then s.upd fun d => d.updReeve fun x => { x with device := some (d.newRecovery 31 cause detail), waiting := [] }
    else if d.parkedBits &&& m ≠ 0 ∨ d.reeve.recs.any (fun r => unitBits r.unit &&& m != 0) = true then
      s.upd fun d => d.updReeve fun x => { x with waiting := x.waiting ++ [(u, cause, detail)] }
    else s.recoveryStart u cause detail

/-- Whether a request would start a recovery at once. -/
def Dev.wouldStart (d : Dev) (u : Nat) : Bool :=
  d.reeve.device.isNone && (d.parkedBits &&& unitBits u == 0) && !d.reeve.recs.any fun r => unitBits r.unit &&& unitBits u != 0

/-- The requests that waited are made again. -/
def State.reeveRetry (s : State) : State :=
  let w := s.dev.reeve.waiting
  w.foldl (fun (s : State) x => s.reeveRequest x.1 x.2.1 x.2.2) (s.upd fun d => d.updReeve fun x => { x with waiting := [] })

/-- Parked units of a mask are released (R469, R480): their completions no longer count, and their ploughs leave reset. -/
def Dev.unpark (d : Dev) (m : Nat) : Dev :=
  let was := d.parkedBits &&& m
  let d := d.setReg R.REEVE_UNIT_PARKED (BitVec.ofNat 64 (d.parkedBits &&& (0xFFFFF - m)))
  let d := d.updReeve fun x => { x with done := x.done.filter fun c => unitBits c.1 &&& m == 0 }
  iter 16 d fun n d => if was.testBit n && !d.unitBusy n then d.updPlough n fun pl => { pl with status := .idle } else d

/-- A write of REEVE_CMD with go: a request, or the release of parked units (R469, R480). -/
def State.reeveCmd (s : State) (v : Nat) : State :=
  let u := v % 32
  match unitMask u with
  | none => s
  | some m =>
    if v.testBit 8 then (s.upd fun d => d.unpark m).reeveRetry
    else s.reeveRequest u 6 0

/-! ### Checkpoints (R464–R466) -/

/-- margin_c (R464). -/
def Dev.marginC (d : Dev) : Nat := d.header 0x38 4 * 6 / 5

/-- A checkpoint: number, resident slot, planned CCOUNT. -/
structure Checkpoint where
  num : Nat
  rslot : Nat
  planned : Nat
deriving DecidableEq, Repr

/-- The checkpoints of a CHECKPOINTS section. -/
def checkpoints (cp : List Byte) : List Checkpoint :=
  let base := 64 + 16 * leAt cp 4 2
  (List.range (leAt cp 0 4)).map fun i => ⟨leAt cp (base + 16 * i) 2, leAt cp (base + 16 * i + 2) 1, leAt cp (base + 16 * i + 4) 4⟩

/-- The next checkpoint's index. -/
def Dev.cpNext (d : Dev) (n : Nat) : Nat := SMap.get (fun _ => 0) d.reeve.next n

/-- The checkpoints of a plough still to come. -/
def Dev.cpLeft (d : Dev) (n : Nat) : List Checkpoint := (checkpoints (d.section 7 n)).drop (d.cpNext n)

/-- Advance the index of a plough. -/
def Dev.cpAdvance (d : Dev) (n k : Nat) : Dev := d.updReeve fun x => { x with next := SMap.set (fun _ => 0) x.next n (d.cpNext n + k) }

/-- A checkpoint whose slice is idle, or whose bundle stream has stopped in it (R466). -/
def Dev.cpWaived (d : Dev) (n : Nat) (c : Checkpoint) : Bool :=
  let pl := d.plough n
  let l := d.ploughSlices n
  match ((List.range l.length).zip l).find? fun x => !x.2.swap && decide (x.2.start ≤ c.planned) && decide (c.planned < x.2.start + x.2.len) with
  | some x => pl.waived.contains x.1 || (pl.sliceIdx == some x.1 && pl.stopped)
  | none => false

/-- The index passes the expected checkpoints that are waived. -/
def Dev.cpSettle (d : Dev) (n : Nat) : Dev :=
  let k := ((d.cpLeft n).takeWhile fun c => d.cpWaived n c).length
  if k = 0 then d else (d.cpAdvance n k).bump R.REEVE_WAIVED k

/-- CHECKPOINT_MISS (R465, R467): recorded, reported, and with auto the plough or its field is recovered. After a miss the index advances past the
checkpoint that was expected (log 55). A report when none is expected names no number: it is free (log 6). -/
def State.cpMiss (s : State) (n kind : Nat) : State :=
  let d := s.dev
  let (f, d) := d.fresh
  let num := match (d.cpLeft n).head? with
    | some c => c.num
    | none => f % 65536
  let u := if d.getF F.REEVE_CTL_field_scope / 2 ^ (n / 4) % 2 = 1 then 16 + n / 4 else n
  let d := d.cpAdvance n 1
  let d := d.bump R.REEVE_MISS_COUNT
  let d := d.setReg R.REEVE_LAST_MISS (BitVec.ofNat 64 (num + n * 2 ^ 16 + kind * 2 ^ 20 + d.ccount % 2 ^ 32 * 2 ^ 32))
  let d := d.hwSetBits R.REEVE_HUNG (unitBits u)
  let auto := d.flag F.REEVE_CTL_auto
  let (q, d) := d.fresh
  let seq := if auto && d.wouldStart u then (d.reeve.seq + 1) % 2 ^ 24 else q
  let d := d.reeveEvent 0x0D01 n 0 0 d.devNs 1 kind num seq
  let s := { s with dev := d }
  if auto then s.reeveRequest u 1 (num + n * 2 ^ 16 + kind * 2 ^ 20) else s

/-- A CHKPT report reaches the Reeve (R465). -/
def State.cpReport (s : State) (n num c : Nat) : State :=
  let s := s.upd fun d => d.cpSettle n
  match (s.dev.cpLeft n).head? with
  | none => s.cpMiss n 2
  | some x =>
    if num ≠ x.num then s.cpMiss n 2
    else if c + s.dev.marginC < x.planned then s.cpMiss n 1
    else if c ≤ x.planned + s.dev.marginC then s.upd fun d => (d.cpAdvance n 1).cpSettle n
    else s.cpMiss n 0

/-- CHECKPOINT_MISS (R465): the LATE detection, one clock after the margin of the expected checkpoint. -/
def execCheckpointMiss (p : BitVec 4) (s : State) : Host.Outcome State Fault Refusal :=
  let n := p.toNat
  let s := s.upd fun d => d.cpSettle n
  match (s.dev.cpLeft n).head? with
  | none => .next s
  | some x =>
    if s.dev.locked && !s.dev.ploughHeld n && decide (x.planned + s.dev.marginC < s.dev.ccount) then .next (s.cpMiss n 0) else .next s

/-! ### The other detectors (R467, R468) -/

/-- Whether a job runs: it is the first of its lane and, in the Mill, has its turn (R300). -/
def Dev.jobRuns (d : Dev) (j : Job) : Bool :=
  j.accepted && ((d.laneJobs j.engine j.lane).head?.map (·.id)) == some j.id && (j.engine != 2 || j.ran || d.millTurn j.lane j)

/-- The start of the longest running work of an engine, in C clocks: a job starts when it is accepted and its lanes are free. -/
def Dev.engineSince (d : Dev) (e : Nat) : Option Nat :=
  let since := fun (j : Job) => (jobLanes e j.lane).foldl (fun m l => max m (SMap.get (fun _ => 0) d.reeve.laneEnd (8 * e + l))) j.acceptAt
  let ts := (d.jobs.filter fun j => j.engine == e && d.jobRuns j).map since
  let fuse := if e = 0 then (d.yoke.runWin.filter fun _ => decide (d.cclk < d.yoke.busyUntil)).toList.map (·.2.2) else []
  (ts ++ fuse).foldl (fun m t => some (m.elim t (min t))) none

/-- ENGINE_HANG (R467): a job or fusion has run for longer than the engine's limit. -/
def execEngineHang (engine : BitVec 2) (s : State) : Host.Outcome State Fault Refusal :=
  let e := engine.toNat
  let d := s.dev
  let lim := max 1 (d.getF (F.REEVE_ENG_LIMIT_us e)) * 1200
  match d.engineSince e with
  | none => .next s
  | some t =>
    if d.cclk ≤ t + lim ∨ d.unitBusy (16 + e) = true then .next s
    else
      let u := 20 + e
      let auto := d.flag F.REEVE_CTL_auto
      let was := (d.reg R.REEVE_HUNG).toNat.testBit (16 + e)
      if !auto && was then .next s
      else
        let d := d.hwSetBits R.REEVE_HUNG (unitBits u)
        let (q, d) := d.fresh
        let d := d.reeveEvent 0x0D02 u 0 0 d.devNs 2 0 0 (if auto && d.wouldStart u then (d.reeve.seq + 1) % 2 ^ 24 else q)
        let s := { s with dev := d }
        .next (if auto then s.reeveRequest u 2 0 else s)

/-- HEARTBEAT_TIMEOUT (R467): a device-level block has stopped; always a device recovery. -/
def execHeartbeatTimeout (block : BitVec 4) (s : State) : Host.Outcome State Fault Refusal :=
  if s.dev.pwr.good && [1, 2, 3, 8, 9, 0xA, 0xB, 0xE].contains block.toNat then .next (s.reeveRequest 31 3 0) else .next s

/-- The limit of the Steward watchdog (R468) in units of the model's clock. -/
def Dev.watchdogLimit (d : Dev) : Nat := if d.reeve.ready then 120000000 else 24000000000

/-- STEWARD_WATCHDOG_EXPIRY (R468). -/
def execStewardWatchdogExpiry (s : State) : Host.Outcome State Fault Refusal :=
  if s.dev.pwr.good && decide (s.dev.reeve.kick + s.dev.watchdogLimit ≤ s.dev.clk) then .next (s.reeveRequest 31 4 0) else .next s

/-- STACK_PHY (R386, R467): the fault of a stack is reported and the device recovers. -/
def execStackPhy (stack : BitVec 1) (s : State) : Host.Outcome State Fault Refusal :=
  if !s.dev.domainOn (24 + stack.toNat) then .next s
  else
    let (inst, d) := s.dev.fresh
    .next (({ s with dev := d.raise 0x0908 inst 0 0 (dAt 25 1 stack.toNat) } : State).reeveRequest 31 5 0)

/-! ### Dumps (R474–R476) -/

/-- A section of a dump. -/
structure DumpSec where
  kind : Nat
  member : Nat
  withheld : Bool
  data : List Byte
deriving DecidableEq, Repr

/-- A register image. -/
def State.regImage (s : State) (base n : Nat) : List Byte := (List.range (n / 4)).flatMap fun i => leBytes 4 (s.regWord (base + 4 * i))

/-- The job of an engine as its JOBS section holds it; that of provisional work reads zero. -/
def Dev.jobImage (d : Dev) (j : Job) : List Byte :=
  if j.tag.isSome then List.replicate 64 0
  else
    let runs := ((d.laneJobs j.engine j.lane).head?.map (·.id)) == some j.id
    fitBytes 64 (Config.dumpJob [j.addr, j.kind, j.lane, j.ctx + 4096 * j.gen, b2n runs])

/-- The member of a plough: REGS, and in a full dump STATE. -/
def State.ploughMember (s : State) (n : Nat) (summary : Bool) : List DumpSec :=
  let pl := s.dev.plough n
  let prov := pl.pmode.isSome
  let zero := fun (pl : Plough) => { pl with s := [], p := 0, v := [], a := [], d := [] }
  let st := if summary then [] else [⟨2, n, prov, (if prov then zero pl else pl).stateSaved⟩]
  ⟨1, n, false, s.regImage (0x1000000 + n * 0x100000) 0x100⟩ :: st

/-- The member of an engine: REGS, and in a full dump JOBS. -/
def State.engineMember (s : State) (e : Nat) (summary : Bool) : List DumpSec :=
  let js := s.dev.engJobs e
  let jobs := if summary then [] else [⟨3, 4 + e, js.any fun j => j.tag.isSome, js.flatMap s.dev.jobImage⟩]
  ⟨1, 4 + e, false, s.regImage ((4 + e) * 0x100000) 0x1000⟩ :: jobs

/-- The members of a dump, in order. -/
def State.dumpMembers (s : State) (r : Recovery) : List (List DumpSec) :=
  if r.unit = 31 then
    (List.range 15).map (fun b => [⟨1, b, false, s.regImage (b * 0x100000) 0x1000⟩])
      ++ (List.range 16).map fun n => s.ploughMember n true
  else (unitPloughs r.unit).map (fun n => s.ploughMember n r.summary) ++ (unitEngines r.unit).map fun e => s.engineMember e r.summary

/-- The words of 8 bytes that each member of a dump is read in. -/
def Dev.memberWords (d : Dev) (r : Recovery) : List Nat :=
  if r.unit = 31 then List.replicate 15 512 ++ List.replicate 16 32
  else (unitPloughs r.unit).map (fun _ => if r.summary then 32 else 37232)
    ++ (unitEngines r.unit).map fun e => if r.summary then 512 else 512 + 8 * (d.engJobs e).length

/-- The word of a member from which on it is abandoned: after 4 timeouts in a row, or 16 (R474). `run` and `cnt` count so far. -/
def abandonFrom (lo : Nat) : List Nat → Nat → Nat → Option Nat
  | [], _, _ => none
  | t :: ts, last, k =>
    let run := if last / 2 ^ 32 = t then last % 2 ^ 32 + 1 else 1
    if 4 ≤ run ∨ 16 ≤ k + 1 then some (t + 1 - lo) else abandonFrom lo ts ((t + 1) * 2 ^ 32 + run) (k + 1)

/-- By member: its first word, its words, and where it is abandoned. -/
def dumpPlan : Nat → List Nat → List Nat → List (Nat × Nat × Option Nat)
  | _, [], _ => []
  | lo, w :: ws, ts => (lo, w, abandonFrom lo (ts.filter fun t => decide (lo ≤ t) && decide (t < lo + w)) 0 0) :: dumpPlan (lo + w) ws ts

/-- The words that are read: all but those after a member is abandoned. -/
def dumpReads (pl : List (Nat × Nat × Option Nat)) : Nat := pl.foldl (fun n m => n + m.2.2.getD m.2.1) 0

/-- The dump that is being written: the first recovery's that is not done. -/
def Dev.dumping (d : Dev) : Option Recovery :=
  ((if d.reeve.deviceRuns then d.reeve.device.toList else []) ++ d.reeve.recs).find? fun r => !r.dumped

/-- Change a recovery. -/
def Dev.updRec (d : Dev) (r : Recovery) : Dev :=
  d.updReeve fun x =>
    if r.unit = 31 then { x with device := some r } else { x with recs := x.recs.map fun y => if y.unit = r.unit then r else y }

/-- The `k`-th word that is read, over the members. -/
def readWord : List (Nat × Nat × Option Nat) → Nat → Option Nat
  | [], _ => none
  | m :: ms, k => if k < m.2.2.getD m.2.1 then some (m.1 + k) else readWord ms (k - m.2.2.getD m.2.1)

/-- DUMP_READ_TIMEOUT (R474): the read that is running has had no answer for 10 µs; a read that is answered takes one F clock, one that is not
takes 10,000. -/
def execDumpReadTimeout (s : State) : Host.Outcome State Fault Refusal :=
  s.withDev fun d =>
    match d.dumping with
    | none => d
    | some r =>
      let k := r.timeouts.length
      let reads := d.fclk - r.dumpFrom + k - 10000 * (k + 1)
      if d.fclk < r.dumpFrom + 10000 * (k + 1) then d
      else match readWord (dumpPlan 0 (d.memberWords r) r.timeouts) reads with
        | none => d
        | some w =>
          if r.timeouts.contains w then d
          else (d.updRec { r with timeouts := r.timeouts ++ [w] }).bump R.REEVE_DUMP_TIMEOUTS

/-- The pattern of a word that could not be read. -/
def dumpPattern : List Byte := leBytes 4 0xBADF1E1D ++ leBytes 4 0xBADF1E1D

/-- The sections of a member as bytes; `w` is the member's next word. -/
def secBytes (m : Nat × Nat × Option Nat) (ts : List Nat) : Nat → List DumpSec → List Byte
  | _, [] => []
  | w, x :: xs =>
    let n := ceilDiv x.data.length 8
    let cut := m.1 + m.2.2.getD m.2.1
    let data := ((List.range n).flatMap fun i =>
      if ts.contains (w + i) ∨ cut ≤ w + i then dumpPattern else fitBytes 8 ((x.data.drop (8 * i)).take 8)).take x.data.length
    let outs := (ts.filter fun t => decide (w ≤ t) && decide (t < w + n)).length
    let head := leBytes 1 x.kind ++ leBytes 1 x.member ++ leBytes 1 (b2n x.withheld + 2 * b2n m.2.2.isSome) ++ leBytes 1 0
      ++ leBytes 4 x.data.length ++ leBytes 4 outs ++ List.replicate 20 0
    head ++ fitBytes (32 * ceilDiv x.data.length 32) data ++ secBytes m ts (w + n) xs

/-- A suspect as a dump lists it. -/
def suspectWord (x : Nat × Nat) : List Byte := leBytes 4 (x.1 + 4096 * x.2)

/-- The bytes of a dump (R475). -/
def State.dumpBytes (s : State) (r : Recovery) : List Byte :=
  let ms := s.dumpMembers r
  let plan := dumpPlan 0 (s.dev.memberWords r) r.timeouts
  let sus := if 54 < r.suspects.length then
      [secBytes (0, 0, none) [] 0 [⟨4, 0xFF, false, r.suspects.flatMap suspectWord⟩]] else []
  let secs := sus ++ ((List.range ms.length).zip ms).map fun x =>
    let p := plan.getD x.1 (0, 0, none)
    secBytes p r.timeouts p.1 x.2
  let count := (ms.map List.length).sum + sus.length
  let head := leBytes 4 0x504D5544 ++ leBytes 2 1 ++ leBytes 1 r.cause ++ leBytes 1 r.unit ++ leBytes 4 r.seq ++ leBytes 4 count
    ++ leBytes 8 r.ns ++ leBytes 4 r.ccount ++ leBytes 4 r.period ++ leBytes 4 r.detail ++ leBytes 4 r.suspects.length
    ++ fitBytes 216 ((r.suspects.take 54).flatMap suspectWord)
  head ++ secs.flatten

/-- DUMP_DONE (R474–R476): the dump that runs is complete, in the buffer or as a summary in the next of the 16 summary records. -/
def execDumpDone (s : State) : Host.Outcome State Fault Refusal :=
  match s.dev.dumping with
  | none => .next s
  | some r =>
    let need := dumpReads (dumpPlan 0 (s.dev.memberWords r) r.timeouts) + 9999 * r.timeouts.length
    if s.dev.fclk < r.dumpFrom + need then .next s
    else
      let bs := s.dumpBytes r
      let d := (s.dev.updRec { r with dumped := true }).reeveShow
      if r.summary then
        let i := d.reeve.sumNext
        let d := d.updReeve fun x => { x with sumNext := (i + 1) % 16 }
        .next { s with kept := { s.kept with summaries := SMap.set (fun _ => []) s.kept.summaries i (fitBytes 4096 bs) },
                       dev := d.recEvent 0x0D06 r 1 }
      else
        let d := (d.setB F.REEVE_DUMP_STATUS_valid true).setF F.REEVE_DUMP_STATUS_seq r.seq
        .next { s with kept := { s.kept with dump := bs ++ s.kept.dump.drop bs.length, dumpValid := true, dumpSeq := r.seq },
                       dev := d.recEvent 0x0D06 r 0 }

/-! ### The end of a partition recovery (R472, R473) -/

/-- Clear the registers of a range of addresses; RWL fields keep their values where `keep`. -/
def Dev.clearRegs (d : Dev) (lo hi : Nat) (keep : Bool) : Dev :=
  let inR := fun (a : Nat) => decide (lo ≤ a) && decide (a < hi)
  let locked := (d.regs.filter fun e => inR e.1 && keep && (match regRowAt e.1 with
    | some r => hasRwl r
    | none => false)).map fun e => e.1
  let old := d
  let d := { d with regs := SMap.dropIf (fun a _ => inR a) d.regs }
  locked.foldl (fun (d : Dev) a =>
    match regRowAt a with
    | some r => d.setReg a (BitVec.ofNat 64 (r.fields.foldl (fun v f =>
        if f.acc = .rwl then putField v f.lsb f.width (field (old.reg a).toNat f.lsb f.width) else v) (d.reg a).toNat))
    | none => d) d

/-- A plough's reset (R472 step 4, R473, R96, R115): its state and registers are cleared but for PLOUGH_SR_SEED, its queues are empty, its local
store is filled. The slices it has begun in the period stay begun. -/
def Dev.resetPlough (d : Dev) (n : Nat) : Dev :=
  let base := 0x1000000 + n * 0x100000
  let d := d.clearRegs base (base + 0x100000) true
  let memc := d.memc
  let d := { d with memc := { memc with
    reqs := memc.reqs.filter (fun y => y.req / 4 != n)
    served := memc.served.filter (fun y => y.1 / 4 != n) } }
  let d := d.updPlough n fun pl => { nextEntry := pl.nextEntry, ran := pl.ran, waived := pl.waived }
  d.fillKey (lsKey n) 0x600000

/-- The sequences that the Granary's running jobs named, each with the job (R355). -/
def Dev.granLost (d : Dev) : List (Nat × Job) :=
  (List.range 4).flatMap fun l => match d.granRunning l with
    | some j => (d.granNames j).map fun i => (i, j)
    | none => []

/-- Drop the stack requests of an engine, and of the Granary's walkers. -/
def Dev.dropEngineReqs (d : Dev) (e : Nat) : Dev :=
  let memc := d.memc
  { d with memc := { memc with reqs := memc.reqs.filter fun x => x.req != 0x50 + e && !(e == 3 && x.req / 4 == 0x15) } }

/-- An engine's reset: its held jobs are discarded, its registers cleared, and what its chapter adds (R258, R271, R296, R319, R355). -/
def Dev.resetEngine (d : Dev) (e : Nat) : Dev :=
  let lost := d.granLost
  let d := ({ d with jobs := d.jobs.filter fun j => j.engine != e } : Dev).dropEngineReqs e
  let d := d.clearRegs ((4 + e) * 0x100000) ((5 + e) * 0x100000) (e == 0 || e == 3)
  match e with
  | 0 => { d with yoke := { d.yoke with part := [], hist := [], ringPos := [], busyUntil := 0, running := none, lastState := [] } }
  | 1 => d
  | 2 => { d with mill := {} }
  | _ => d.granRebuild lost

/-- Granary staging of a schedule, as SQUASH leaves it (R471). -/
def Dev.granSquashSched (d : Dev) (k : Nat) : Dev :=
  let d := d.granEach fun i => do
    let v ← gSeq (granSelf 0 0) i
    if v.valid && v.hasProv && v.sched == k then gPutSeq (granSelf 0 0) i v.squash
  d.granSquashJobs (·.sched == k)

/-- The squash step of a recovery (R60, R471): regions of the schedules become EMPTY, staging rows go, what the marks hold is dropped, and a later
COMMIT or SQUASH of them changes nothing. -/
def Dev.recoverySquash (d : Dev) (r : Recovery) : Dev :=
  let ms := (r.marks ++ d.provMarks r.scheds).eraseDups
  let d := ms.foldl (fun (d : Dev) t => d.squashMark t) d
  let d := d.moveRegions (fun g => r.scheds.contains g.sched) 0
  r.scheds.foldl (fun (d : Dev) k => d.granSquashSched k) d

/-- The fences of a recovery's suspects are complete. -/
def Dev.recFenced (d : Dev) (r : Recovery) : Bool :=
  r.suspects.all fun x => !(d.hedge.fences.any fun f => f.ctx == x.1 && f.gen == x.2 && decide (f.step < 4))

/-- A unit has completed a recovery: the fourth within 10 s parks it (R469). -/
def Dev.notePark (d : Dev) (r : Recovery) : Dev :=
  let recent := (d.reeve.done.filter fun x => decide (d.clk < x.2 + 240000000000)) ++ [(r.unit, d.clk)]
  let d := d.updReeve fun x => { x with done := recent }
  if 4 ≤ (recent.filter fun x => x.1 == r.unit).length then
    let d := d.setReg R.REEVE_UNIT_PARKED (BitVec.ofNat 64 (d.parkedBits ||| unitBits r.unit))
    let d := (unitPloughs r.unit).foldl (fun (d : Dev) n => d.updPlough n fun pl => { pl with status := .recovering }) d
    d.recEvent 0x0D07 r 0
  else d

/-- RECOVERY_DONE (R472, R473): the fences and the dump are complete; the unit is reset, the schedules are squashed, the unit rejoins. -/
def execRecoveryDone (unit : BitVec 5) (s : State) : Host.Outcome State Fault Refusal :=
  let d := s.dev
  match d.reeve.recs.find? fun r => r.unit == unit.toNat with
  | none => .next s
  | some r =>
    if !r.dumped || !d.recFenced r then .next s
    else
      let d := (unitPloughs r.unit).foldl (fun (d : Dev) n => d.resetPlough n) d
      let d := (unitEngines r.unit).foldl (fun (d : Dev) e => d.resetEngine e) d
      let d := d.recoverySquash r
      let d := (d.updReeve fun x => { x with recs := x.recs.filter fun y => y.unit != r.unit }).reeveShow
      let d := ((d.bump R.REEVE_RECOVERIES).recEvent 0x0D04 r 0).notePark r
      .next ({ s with dev := d } : State).reeveRetry

/-- A step of a recovery has exceeded its bound (R472), in F clocks from detection: the fence, the dump, or the whole within 3 ms (R32). -/
def Dev.recLate (d : Dev) (r : Recovery) : Bool :=
  let t := d.fclk - r.fclk
  let dump := if r.unit < 16 then 201000 else if r.unit < 20 then 801000 else 201000
  (!r.dumped && decide (dump < t)) || (!d.recFenced r && decide (103512 < t)) || decide (3000000 < t)

/-- RECOVERY_ESCALATION (R472): a device recovery with cause ESCALATED. -/
def execRecoveryEscalation (unit : BitVec 5) (s : State) : Host.Outcome State Fault Refusal :=
  match s.dev.reeve.recs.find? fun r => r.unit == unit.toNat with
  | none => .next s
  | some r => if s.dev.recLate r then .next (s.reeveRequest 31 7 r.detail) else .next s

/-! ### Device recovery (R477) -/

/-- DEVICE_RECOVERY (R477 steps 1 and 2): every unit is isolated, and the device dump begins; partition recoveries are superseded (R469). -/
def execDeviceRecovery (s : State) : Host.Outcome State Fault Refusal :=
  match s.dev.reeve.device with
  | none => .next s
  | some r0 =>
    if s.dev.reeve.deviceRuns then .next s
    else
      let d := s.dev
      let r := { r0 with dumpFrom := d.fclk, seq := (d.reeve.seq + 1) % 2 ^ 24 }
      let d := iter 16 d fun n d => d.isolatePlough n
      let d := iter 4 d fun e d => d.setB (engRecovering e) true
      let d := d.updReeve fun x => { x with recs := [], waiting := [], device := some r, deviceRuns := true, seq := r.seq }
      .next (({ s with dev := d.reeveShow.recEvent 0x0D03 r 0 } : State).dumpBegins false)

end Sys2Proof.Machine
end

