-- ==== Sys2Proof/Machine/Power.lean ====
section
/-! DEFINITION. Power (R481–R497, R500, R510): the input, the domains, the cap, temperatures, standby, device reset. -/

namespace Sys2Proof.Machine

/-- Change the power unit. -/
def Dev.updPwr (d : Dev) (f : PwrState → PwrState) : Dev := { d with pwr := f d.pwr }

/-- 1 µs, 1 ms in units of the model's clock. -/
def usClk : Nat := 24000
/-- See `usClk`. -/
def msClk : Nat := 24000000

/-- The codes of PWR_STATUS.state. -/
def pwrStandby : Nat := 1
/-- See `pwrStandby`. -/
def pwrStarting : Nat := 2
/-- See `pwrStandby`. -/
def pwrActive : Nat := 3

/-- In standby. -/
def Dev.inStandby (d : Dev) : Bool := d.getF F.PWR_STATUS_state == pwrStandby

/-! ### Domains (R484–R487, R495) -/

/-- The domains that are to be on: none in standby, else those requested less the unused ones of a running plan. -/
def Dev.domainWant (d : Dev) (n : Nat) : Bool :=
  !d.inStandby && (d.reg R.PWR_DOMAIN_REQ).toNat.testBit n && !d.pwr.restore.testBit n

/-- The order of changes: CLK, FABRIC and PCIE first, then ascending; descending into standby. -/
def Dev.domainOrder (d : Dev) : List Nat :=
  if d.inStandby then (List.range 36).reverse else [33, 34, 35] ++ List.range 33

/-- The next domain to change. -/
def Dev.domainNext (d : Dev) : Option Nat := d.domainOrder.find? fun n => d.domainOn n != d.domainWant n

/-- PWR_STATUS.changing, and STARTING becomes ACTIVE when start-up step 3 completes (R501). -/
def Dev.domainShow (d : Dev) : Dev :=
  let rest := d.domainNext.isSome
  let d := d.setB F.PWR_STATUS_changing rest
  if !rest && d.getF F.PWR_STATUS_state == pwrStarting then
    (d.setF F.PWR_STATUS_state pwrActive).updPwr fun p => { p with started := true }
  else d

/-- Drop the bytes and the errors of the memory words that meet a condition on target and physical address. -/
def Dev.dropMem (d : Dev) (p : Nat → Nat → Bool) : Dev :=
  let gone := fun (k : Nat) => p (targetOf k) (physOf k)
  let memc := d.memc
  { d with
    mem := d.mem.filter fun c => !gone c.1
    ecc := d.ecc.filter fun e => !gone (32 * e.1)
    memc := { memc with wb := memc.wb.filter fun x => !gone (32 * x.word) } }

/-- The registers of a block, or of a part of it, return to their reset values. -/
def Dev.dropRegs (d : Dev) (p : Nat → Bool) : Dev :=
  { d with
    regs := SMap.dropIf (fun a _ => p a) d.regs
    lowHeld := d.lowHeld.filter fun e => !p e.2.1
    highCap := d.highCap.filter fun e => !p e.2.1 }

/-- What the switch-off of an engine's domain loses beside its registers. -/
def Dev.engineOff (d : Dev) (e : Nat) : Dev :=
  let d := { d with jobs := d.jobs.filter fun j => j.engine != e }
  match e with
  | 0 => { d with yoke := {} }
  | 2 => { d with mill := {} }
  | 3 => { d with gran := {} }
  | _ => d

/-- The rest of the fabric's domain: the Hedge, the collector, contexts and the plan, the Hitch port. -/
def Dev.fabricOff (d : Dev) : Dev := { d with hedge := {}, evt := {}, ctxs := [], ctxCmd := none, exch := none, plan := {}, hitch := {} }

/-- A domain that is off holds no state (R485). -/
def Dev.domainLost (d : Dev) (n : Nat) : Dev :=
  let d := d.dropRegs fun a => regDomain a == some n
  if n < 16 then (d.updPlough n fun _ => {}).dropMem fun t _ => t == n
  else if n < 20 then d.engineOff (n - 16)
  else if n < 24 then d.dropMem fun t a => t == 0x10 && a / 256 % 64 / 16 == n - 20
  else if n < 26 then
    let d := (d.dropMem fun t a => t == 0x11 && a / 2048 % 32 / 16 == n - 24).setB F.TOP_STATUS_stack_ready false
    (d.setF ⟨R.MEM_STATUS, n - 24, 1⟩ 0).updPwr fun p => { p with trained := false }
  else match n with
    | 26 => { d with troughs := [] }
    | 27 => { d with gate := { d.gate with csi := [] } }
    | 29 => { d with gate := { d.gate with strobes := [], imu := [], trig := [], ids := [], serials := [] } }
    | 30 => { d with gate := { d.gate with enc := [], canLast := [] } }
    | 31 => { d with links := {} }
    | 32 => d.setF F.HOST_STATUS_usb_up 0
    | 34 => d.fabricOff
    | 35 => d.hostReset
    | _ => d

/-- Switch a domain (R485): on, it starts at its reset values with its memory filled. -/
def Dev.domainSwitch (d : Dev) (n : Nat) (on : Bool) : Dev := (d.domainLost n).setB ⟨R.PWR_DOMAIN_ON, n, 1⟩ on

/-- DOMAIN_SWITCH (R486): the next domain, 20 µs after the one before. -/
def execDomainSwitch (s : State) : Host.Outcome State Fault Refusal :=
  s.withDev fun d =>
    if !d.pwr.good || decide (d.clk < d.pwr.lastSwitch + 20 * usClk) then d
    else match d.domainNext with
      | none => d
      | some n => ((d.domainSwitch n (d.domainWant n)).updPwr fun p => { p with lastSwitch := d.clk }).domainShow

/-- A write of PWR_DOMAIN_REQ, discarded while a plan is locked (R486). -/
def Dev.domainReq (d : Dev) (v : Nat) : Dev :=
  if !d.pwr.good || d.locked then d else (d.storeReg R.PWR_DOMAIN_REQ v).domainShow

/-- Detail of a PWR record (R500). -/
def pwrDetail (v b24 b25 : Nat) : Nat := dAt 16 4 v + dAt 24 1 b24 + dAt 25 1 b25

/-- DOMAIN_FAULT (R487, R492): reported, and the device recovers. -/
def execDomainFault (n : BitVec 6) (s : State) : Host.Outcome State Fault Refusal :=
  if !s.dev.pwr.good || decide (36 ≤ n.toNat) then .next s
  else
    let s := s.upd fun d => (d.hwSet ⟨R.PWR_DOMAIN_FAULT, n.toNat, 1⟩).raise 0x0E05 0 0 0 (pwrDetail 0 n.toNat 0)
    .next (s.reeveRequest 31 6 0)

/-! ### Power and temperature (R482, R488–R490) -/

/-- The mean of the newest samples of a window of `n`: over those received while there are fewer (log 43). -/
def meanOf (n : Nat) (l : List Nat) : Nat := (l.take n).sum / max 1 (l.take n).length

/-- The cap is crossed, or the average has fallen below it by 2,000 mW (R489). -/
def Dev.capCheck (d : Dev) (avg10 : Nat) : Dev :=
  let cap := d.getF F.PWR_CAP_mw
  if !d.flag F.TOP_STATUS_power_capped && decide (cap < avg10) then
    let d := (d.setB F.TOP_STATUS_power_capped true).setB F.PWR_STATUS_capped true
    (d.bump R.PWR_OVER_COUNT).raise 0x0E01 0 0 0 (pwrDetail avg10 0 1)
  else if d.flag F.TOP_STATUS_power_capped && decide (avg10 + 2000 < cap) then
    ((d.setB F.TOP_STATUS_power_capped false).setB F.PWR_STATUS_capped false).raise 0x0E01 0 0 0 (pwrDetail avg10 0 0)
  else d

/-- POWER_SAMPLE (R482, R489): voltage and current are shown, and the averages, the peak and what they lead to follow. -/
def execPowerSample (mv ma : BitVec 32) (s : State) : Host.Outcome State Fault Refusal :=
  s.withDev fun d =>
    if !d.pwr.good then d
    else
      let l := (mv.toNat * ma.toNat / 1000 :: d.pwr.samples).take 1000
      let a1 := meanOf 100 l
      let a10 := meanOf 1000 l
      let d := (d.setF F.PWR_INPUT_V_value mv.toNat).setF F.PWR_INPUT_I_value ma.toNat
      let d := (d.setF F.PWR_INPUT_P_value a1).setF F.PWR_AVG10_value a10
      let d := d.raisePeak R.PWR_PEAK a1
      let d := d.updPwr fun p => { p with
        samples := l
        overSince := if a1 ≤ 240000 then none else some (p.overSince.getD d.clk) }
      let ok := decide (36000 ≤ mv.toNat) && decide (mv.toNat ≤ 60000)
      let d := d.setB F.PWR_STATUS_input_ok ok
      let d := if ok then d else d.raise 0x0E04 0 0 0 (pwrDetail mv.toNat 0 0)
      let d := d.capCheck a10
      if d.flag F.TOP_STATUS_power_capped && d.flag F.PWR_CTL_over_action && d.locked then
        { d with plan := { d.plan with stopping := true } }
      else d

/-- OVER_LIMIT (R489): the 1 ms average has stayed above 240 W for 10 ms. -/
def execOverLimit (s : State) : Host.Outcome State Fault Refusal :=
  match s.dev.pwr.overSince with
  | none => .next s
  | some t =>
    if s.dev.clk < t + 10 * msClk then .next s
    else
      let s := s.upd fun d =>
        let d := d.updPwr fun p => { p with overSince := some d.clk }
        d.raise 0x0E02 0 0 0 (pwrDetail (d.getF F.PWR_AVG10_value) 0 0)
      .next (s.reeveRequest 31 6 0)

/-- The warning threshold in °C (R501). -/
def Dev.thermWarn (d : Dev) : Nat :=
  let w := d.getF F.PWR_THERM_warn
  if 60 ≤ w ∧ w ≤ 109 then w else 100

/-- One site's temperature in °C. -/
def Dev.thermSite (d : Dev) (site : Nat) (t : Int) : Dev :=
  let since := fun (c : Bool) (old : Option Nat) => if c then some (old.getD d.clk) else none
  let d := d.updPwr fun p => { p with
    temps := SMap.set (fun _ => 0) p.temps site t
    hotSince := SMap.set (fun _ => none) p.hotSince site (since (decide (110 < t)) (SMap.get (fun _ => none) p.hotSince site))
    coolSince := SMap.set (fun _ => none) p.coolSince site (since (decide (t < 90)) (SMap.get (fun _ => none) p.coolSince site)) }
  if (d.thermWarn : Int) < t then d.raise 0x0E03 0 0 0 (pwrDetail (ofSigned 32 (t * 1000)) site 0) else d

/-- THERMAL_SAMPLE (R490): the eight die sites, in °C as 8-bit two's complement. -/
def execThermalSample (temps : List (Nat × BitVec 8)) (s : State) : Host.Outcome State Fault Refusal :=
  s.withDev fun d =>
    if !d.pwr.good then d
    else
      let d := temps.foldl (fun (d : Dev) x => if x.1 < 8 then d.thermSite x.1 x.2.toInt else d) d
      d.setB F.PWR_STATUS_thermal_warn ((List.range 8).any fun i => decide ((d.thermWarn : Int) < SMap.get (fun _ => 0) d.pwr.temps i))

/-- THERMAL_TRIP (R490): every switched domain is off at once, PWR is in standby, the cause is latched and the Steward logs the trip (the
kind of the entry is not given: free, log 6). -/
def execThermalTrip (site : Nat) (s : State) : Host.Outcome State Fault Refusal :=
  match SMap.get (fun _ => none) s.dev.pwr.hotSince site with
  | none => .next s
  | some t =>
    if s.dev.clk < t + msClk ∨ s.dev.pwr.tripped = true then .next s
    else
      let d := s.dev.hostDown.setF F.PWR_STATUS_state pwrStandby
      let d := (List.range 36).foldl (fun (d : Dev) n => d.domainSwitch n false) d
      let d := (d.updPwr fun p => { p with tripped := true, lastSwitch := d.clk }).domainShow
      let (k, d) := d.fresh
      .next { s with kept := { s.kept with cause := 2 }, dev := d.stewNote (k % 256) [2, site] }

/-! ### Standby (R491) -/

/-- PWR_CTL.standby: accepted in plan state EMPTY. -/
def Dev.standbyEnter (d : Dev) : Dev :=
  if !d.pwr.good || d.plan.phase != .empty || d.inStandby then d
  else (d.hostDown.setF F.PWR_STATUS_state pwrStandby).domainShow

/-- Every site has been below 90 °C for 1 s (R490). -/
def Dev.cooled (d : Dev) : Bool :=
  (List.range 8).all fun i => match SMap.get (fun _ => none) d.pwr.coolSince i with
    | some t => decide (t + 1000 * msClk ≤ d.clk)
    | none => false

/-- An event that ends standby (R490, R491): after a trip only the host's release counts, once the sites have cooled. Leaving on its own, the
device asserts WAKE_N. -/
def Dev.standbyLeave (d : Dev) (own host : Bool) : Dev :=
  if !d.inStandby || d.pwr.reset.isSome || (d.pwr.tripped && (!host || !d.cooled)) then d
  else
    let d := d.updPwr fun p => { p with reset := some (if p.tripped then .thermalRelease else .standbyExit own) }
    if own then (d.updPwr fun p => { p with wakeN := some d.clk }).emit (.pin "WAKE_N" 0 false) else d

/-- WAKE_N is released. -/
def Dev.wakeRelease (d : Dev) : Dev :=
  if d.pwr.wakeN.isSome then (d.updPwr fun p => { p with wakeN := none }).emit (.pin "WAKE_N" 0 true) else d

/-- WAKE_ALARM (R491): the Almanac reaches PWR_WAKE. -/
def execWakeAlarm (s : State) : Host.Outcome State Fault Refusal :=
  s.withDev fun d =>
    let w := d.getF F.PWR_WAKE_sec
    if w ≠ 0 ∧ w ≤ s.kept.alm.sec then d.standbyLeave true false else d

/-- WAKE_N_TIMEOUT (R491): 100 ms after the device left standby on its own. -/
def execWakeNTimeout (s : State) : Host.Outcome State Fault Refusal :=
  s.withDev fun d =>
    match d.pwr.wakeN with
    | some t => if t + 100 * msClk ≤ d.clk then d.wakeRelease else d
    | none => d

/-- ALERT_N is low (R510). -/
def Dev.alertLow (d : Dev) : Bool := d.pendingIrq R.PWR_IRQ_STATUS R.PWR_IRQ_MASK

/-- SMBUS_READ_WORD (R510); the word is given out, or none where the command is not acknowledged. A temperature before any sample is free
(log 6). -/
def execSmbusReadWord (cmd : BitVec 8) (s : State) : Host.Outcome State Fault Refusal :=
  let d := s.dev
  let give := fun (d : Dev) (v : Nat) => d.emit (.smbus (some (v % 65536)))
  s.withDev fun _ =>
    if !d.pwr.good then d.emit (.smbus none)
    else match cmd.toNat with
      | 0 => give d (d.reg R.PWR_STATUS).toNat
      | 1 => give d (if d.inStandby then 0 else s.regView R.TOP_STATUS)
      | 2 => give d (d.getF F.PWR_INPUT_V_value / 10)
      | 3 => give d (d.getF F.PWR_INPUT_P_value / 100)
      | 4 =>
        match d.pwr.coolSince, d.pwr.temps with
        | [], [] =>
          let (v, d) := d.fresh
          give d v
        | _, _ => give d (ofSigned 16 (10 * (List.range 8).foldl (fun (m : Int) i => max m (SMap.get (fun _ => 0) d.pwr.temps i)) (-128)))
      | 5 => give d s.kept.cause
      | _ => d.emit (.smbus none)

/-! ### Stack training (R497 steps 4 and 5) -/

/-- STACK_PHY_TRAINED (R497): both stacks are trained, and the start-up fill begins (R394): over the stacks and, at the start-up itself, every local
store and the Barn. Only the stacks are filled when they were switched on again. -/
def execStackPhyTrained (s : State) : Host.Outcome State Fault Refusal :=
  s.withDev fun d =>
    if !d.pwr.started || d.pwr.trained || !d.domainOn 24 || !d.domainOn 25 then d
    else
      let rest := if !d.pwr.filled then (barnKey, 0x3000000) :: (List.range 16).map fun n => (lsKey n, 0x600000) else []
      (d.updPwr fun p => { p with trained := true, filled := true }).startFill ((0, 0xC00000000) :: rest) none false true

/-! ### Power-up, device reset (R482, R483, R494–R496) -/

/-- A device whose power stage is on or off, and nothing else: the clock, the outputs and the free counter go on, CCOUNT starts from 0 (R96), a
value on its way to the Almanac stays (R229). -/
def Dev.blank (d : Dev) (on : Bool) : Dev :=
  { clk := d.clk, out := d.out, free := d.free, host := { perst := d.host.perst }, pwr := { on := on },
    plan := { cBase := d.cclk, mBase := d.mclk }, bell := { almHeld := d.bell.almHeld } }

/-- INPUT_START (R482, R494): the power stage starts, which is a power-up: everything is cleared but the Almanac. -/
def execInputStart (s : State) : Host.Outcome State Fault Refusal :=
  if s.dev.pwr.on then .next s
  else .next { s with
    kept := { s.kept with alm := { s.kept.alm with supply := 0, stopped := false }, dump := [], dumpValid := false, dumpSeq := 0, summaries := [] }
    dev := s.dev.blank true }

/-- The logic rails are removed with a cause; the Almanac moves to its backup supply (R225, R483, R519). -/
def State.railsOff (s : State) (cause : Nat) : State :=
  { s with
    kept := { s.kept with cause := cause, alm := { s.kept.alm with supply := if s.kept.alm.capLow then 2 else 1 } }
    dev := s.dev.blank false }

/-- INPUT_STOP (R483). -/
def execInputStop (s : State) : Host.Outcome State Fault Refusal := if s.dev.pwr.on then .next (s.railsOff 1) else .next s

/-- PRIMARY_SIDE_FAULT (R501). -/
def execPrimarySideFault (s : State) : Host.Outcome State Fault Refusal := if s.dev.pwr.on then .next (s.railsOff 5) else .next s

/-- The always-on domain leaves reset: the times that start here (R468, R486). -/
def Dev.released (d : Dev) : Dev :=
  let plan := d.plan
  let d : Dev := { d with plan := { plan with cBase := d.cclk, mBase := d.mclk } }
  ((d.updPwr fun p => { p with on := true, good := true, lastSwitch := d.clk }).updReeve fun x => { x with kick := d.clk }).domainShow

/-- POWER_GOOD (R496). -/
def execPowerGood (s : State) : Host.Outcome State Fault Refusal :=
  s.withDev fun d => if d.pwr.on && !d.pwr.good then d.released else d

/-- The cause of the device reset that is due (R477, R491), if one is: the code that the latch takes. -/
def Dev.resetDue (d : Dev) : Option (Option Nat) :=
  match d.pwr.reset with
  | some (.standbyExit _) => some (some 4)
  | some .thermalRelease => some none
  | none =>
    match d.reeve.device with
    | some r => if d.reeve.deviceRuns && r.dumped then some (some 3) else none
    | none => none

/-- DEVICE_RESET (R477 step 3, R491, R494, R480): every block and memory is cleared; the Almanac, the dump buffer, the summary records and
the cause latch stay, as do the Reeve's sequence numbers; REEVE_DUMP_STATUS is reloaded, and the start-up follows. -/
def execDeviceReset (s : State) : Host.Outcome State Fault Refusal :=
  match s.dev.resetDue with
  | none => .next s
  | some cause =>
    let d := s.dev
    let d' := ((d.blank true).updReeve fun x => { x with seq := d.reeve.seq, sumNext := d.reeve.sumNext }).released
    let d' := d'.updPwr fun p => { p with wakeN := d.pwr.wakeN }
    let d' := (d'.setB F.REEVE_DUMP_STATUS_valid s.kept.dumpValid).setF F.REEVE_DUMP_STATUS_seq s.kept.dumpSeq
    .next { s with kept := { s.kept with cause := cause.getD s.kept.cause }, dev := d' }

end Sys2Proof.Machine
end

