-- ==== Sys2Proof/Machine/Collector.lean ====
section
/-! DEFINITION. The event collector (R25–R30, R373, R460): intake, the device ring, the context queues. -/

namespace Sys2Proof.Machine

/-- Change the collector. -/
def Dev.updEvt (d : Dev) (f : EvtState → EvtState) : Dev := { d with evt := f d.evt }

/-- A record is lost (R28). -/
def Dev.evtLost (d : Dev) (e : Event) : Dev :=
  (d.bump R.TOP_EVT_LOST).updEvt fun x => { x with
    lossCount := satAdd32 x.lossCount 1
    firstLost := if x.lossCount = 0 then e.stamp else x.firstLost }

/-! ### Intake (R25, R26) -/

/-- Whether a record goes before another of the same F clock: by block, then instance. -/
def evtBefore (a b : Event) : Bool :=
  decide (a.code / 256 < b.code / 256) || (a.code / 256 == b.code / 256 && decide (a.inst < b.inst))

/-- Insert a record behind all that it does not precede. -/
def insertEvt (e : Event) : List Event → List Event
  | [] => [e]
  | x :: xs => if evtBefore e x then e :: x :: xs else x :: insertEvt e xs

/-- The records that the collector holds at most. -/
def collectorPlaces : Nat := 512

/-- The record's context carries another generation now: the collector discards the record (R37). -/
def Dev.staleEvt (d : Dev) (e : Event) : Bool := e.gen != 0 && (d.ctxOf e.ctx).gen != e.gen

/-- The collector takes one record, or loses it (R25). -/
def Dev.takeEvt (d : Dev) (e : Event) : Dev :=
  if d.staleEvt e then d
  else if d.evt.fifo.length < collectorPlaces then d.updEvt fun x => { x with fifo := x.fifo ++ [e] } else d.evtLost e

/-- COLLECTOR_INTAKE (R25, R26): the records of the earliest F clock, once that clock is over, are taken in order while there is room; the
rest are lost. -/
def execCollectorIntake (s : State) : Host.Outcome State Fault Refusal :=
  s.withDev fun d =>
    if !d.domainOn 34 then d.updEvt fun x => { x with arriving := [] }
    else match d.evt.arriving with
      | [] => d
      | a :: as =>
        let first := as.foldl (fun n e => min n e.arrive) a.arrive
        if d.fclk ≤ first then d
        else
          let group := (d.evt.arriving.filter fun e => e.arrive == first).foldl (fun acc e => insertEvt e acc) []
          let d := d.updEvt fun x => { x with arriving := x.arriving.filter fun e => e.arrive != first }
          group.foldl (fun (d : Dev) e => d.takeEvt e) d

/-! ### The ring (R28, R30) -/

/-- Records of the device ring: 2^7 to 2^23, other values act as 7 (R33). -/
def Dev.ringRecords (d : Dev) : Nat :=
  let l := d.getF F.TOP_EVT_RING_SIZE_log2_records
  2 ^ (if 7 ≤ l ∧ l ≤ 23 then l else 7)

/-- Unread records of the ring (R28). -/
def Dev.ringUsed (d : Dev) : Nat := (d.getF F.TOP_EVT_RING_WR_count + 2 ^ 32 - d.getF F.TOP_EVT_RING_RD_count) % 2 ^ 32

/-- One record goes to the ring, or not: the ring is off or full, or its write is refused. The vector follows when armed (R30). Contents that a
wrong RD has made undefined (R29) are free (log 6). -/
def Dev.ringPut (d : Dev) (bs : List Byte) : Dev × Bool :=
  let wr := d.getF F.TOP_EVT_RING_WR_count
  let n := d.ringRecords
  if !d.flag F.TOP_EVT_CTL_enable || d.ringUsed == n then (d, false)
  else
    let (v, d') := d.fresh
    let (d, bs) := if d.evt.ringUndefined then (d', leBytes 32 v) else (d, bs)
    match d.mgmtWrite 23 0x5F false (d.getF F.TOP_EVT_RING_BASE_base * 4096 + 32 * (wr % n)) bs true with
    | (d, some _) => (d, false)
    | (d, none) =>
      let d := d.setF F.TOP_EVT_RING_WR_count (wr + 1)
      if d.flag F.TOP_EVT_CTL_armed then ((d.hwClear F.TOP_EVT_CTL_armed).sendMsix (d.getF F.TOP_EVT_CTL_vector), true)
      else (d.updEvt fun x => { x with silent := some d.fclk }, true)

/-- A loss record of TOP (R28): the count and the stamp of the first record lost. -/
def Dev.lossRecord (d : Dev) (code ctx gen count first : Nat) : List Byte :=
  (d.mkEvent code 0 ctx gen (dAt 16 4 count + dAt 24 8 first)).bytes

/-- A record goes to the ring, after EVT_RING_LOST when records have been lost. -/
def Dev.ringWrite (d : Dev) (bs : List Byte) : Dev × Bool :=
  if d.evt.lossCount = 0 then d.ringPut bs
  else match d.ringPut (d.lossRecord 0x0001 0 0 d.evt.lossCount d.evt.firstLost) with
    | (d, true) => (d.updEvt fun x => { x with lossCount := 0, firstLost := 0 }).ringPut bs
    | (d, false) => (d, false)

/-! ### Context queues (R373) -/

/-- A record belongs in its context's queue: the ID is live with the record's generation and has a queue. -/
def Dev.hasQueue (d : Dev) (e : Event) : Bool :=
  let c := d.ctxOf e.ctx
  e.gen != 0 && c.live && c.gen == e.gen && c.evOn

/-- Records of a context's queue, and its address. -/
def Dev.queueOf (d : Dev) (id : Nat) : Nat × Nat := (2 ^ leAt (d.mapping id) 5 1, leAt (d.mapping id) 24 8)

/-- The device's copies show a full queue. -/
def Dev.queueFull (d : Dev) (id : Nat) : Bool :=
  let c := d.ctxOf id
  (c.evWr + 2 ^ 32 - c.evRd) % 2 ^ 32 == (d.queueOf id).1

/-- A full queue's rd is read again. -/
def Dev.queueReread (d : Dev) (id : Nat) : Dev :=
  if !d.queueFull id then d
  else match d.mgmtRead 23 0x5F false ((d.queueOf id).2 + 4) 4 with
    | (d, .ok bs) => d.updCtx id fun c => { c with evRd := leNat bs }
    | (d, .error _) => d

/-- A record is lost to a context queue. -/
def Dev.queueLost (d : Dev) (e : Event) : Dev :=
  d.updCtx e.ctx fun c => { c with evLost := satAdd32 c.evLost 1, evFirstLost := if c.evLost = 0 then e.stamp else c.evFirstLost }

/-- Before a record enters a queue that has lost records, EVT_QUEUE_LOST goes to the ring. -/
def Dev.queueLossNote (d : Dev) (id : Nat) : Dev :=
  let c := d.ctxOf id
  if c.evLost = 0 then d
  else match d.ringWrite (d.lossRecord 0x0002 id c.gen c.evLost c.evFirstLost) with
    | (d, true) => d.updCtx id fun c => { c with evLost := 0, evFirstLost := 0 }
    | (d, false) => d

/-- A record enters its context's queue: the record, then wr; the vector when the queue was empty. -/
def Dev.queuePut (d : Dev) (e : Event) : Dev :=
  let id := e.ctx
  let (n, base) := d.queueOf id
  let c := d.ctxOf id
  match d.mgmtWrite 23 0x5F false (base + 64 + 32 * (c.evWr % n)) e.bytes true with
  | (d, some _) => d.queueLost e
  | (d, none) =>
    match d.mgmtWrite 23 0x5F false base (leBytes 4 ((c.evWr + 1) % 2 ^ 32)) true with
    | (d, some _) => d.queueLost e
    | (d, none) =>
      let d := d.updCtx id fun c => { c with evWr := (c.evWr + 1) % 2 ^ 32 }
      if c.evWr = c.evRd then d.sendMsix (leAt (d.mapping id) 6 1) else d

/-- A record that the collector has taken out goes to the ring or is lost, to its context's queue, and to the log (R28, R373, R460). -/
def Dev.putRecord (d : Dev) (e : Event) : Dev :=
  let d := d.logEvent e
  let inQ := d.hasQueue e
  let d := if inQ then d.queueReread e.ctx else d
  let room := inQ && !d.queueFull e.ctx
  let d := if room then d.queueLossNote e.ctx else d
  let d := match d.ringWrite e.bytes with
    | (d, true) => d
    | (d, false) => d.evtLost e
  let d := if room then d.queuePut e else if inQ then d.queueLost e else d
  d.summaryCheck

/-- The places that writing a record may take: its own, and one for each loss record before it (R28). -/
def Dev.placesFor (d : Dev) (e : Event) : Nat :=
  1 + b2n (d.evt.lossCount != 0) + b2n (d.hasQueue e && (d.ctxOf e.ctx).evLost != 0)

/-- The ring is on and has too little room for a record. -/
def Dev.ringShort (d : Dev) (e : Event) : Bool :=
  d.flag F.TOP_EVT_CTL_enable && decide (d.ringRecords < d.ringUsed + d.placesFor e)

/-- COLLECTOR_WRITE (R25, R28–R30): the oldest record is written, at most one in an F clock. One that finds the ring without room waits
for a write of TOP_EVT_RING_RD until the clock is over (R29). -/
def execCollectorWrite (s : State) : Host.Outcome State Fault Refusal :=
  s.withDev fun d =>
    match d.evt.fifo with
    | [] => d
    | e :: rest =>
      if d.evt.waiting.isSome ∨ d.evt.lastWrite = some d.fclk then d
      else
        let d := d.updEvt fun x => { x with fifo := rest, lastWrite := some d.fclk }
        if d.ringShort e then d.updEvt fun x => { x with waiting := some e } else d.putRecord e

/-- The record that waits for room is written, once a write of TOP_EVT_RING_RD has made some (R29). -/
def Dev.collectorRoom (d : Dev) : Dev :=
  match d.evt.waiting with
  | some e => if d.ringShort e then d else (d.updEvt fun x => { x with waiting := none }).putRecord e
  | none => d

/-- The F clock of a record that waits for room is over (R29): it finds the ring as it is. -/
def Dev.collectorEdge (d : Dev) : Dev :=
  match d.evt.waiting with
  | some e => (d.updEvt fun x => { x with waiting := none }).putRecord e
  | none => d

end Sys2Proof.Machine
end

