-- ==== Sys2Proof/Machine/RegAccess.lean ====
section
/-! DEFINITION. Accesses to registers by software (R9–R14): what a write does beyond storing, what a read changes, the halves of 64-bit
registers, and the rows that are one such access. -/

namespace Sys2Proof.Machine

/-! ### Where an access lands (R13) -/

/-- The part of a register that an access covers. -/
inductive RegPart where
  | whole | low | high
deriving DecidableEq, Repr

/-- The part of a 64-bit place at `base` that an access of `size` bytes at `a` covers. -/
def widePart (base a size : Nat) : Option RegPart :=
  if a = base ∧ size = 8 then some .whole
  else if a = base ∧ size = 4 then some .low
  else if a = base + 4 ∧ size = 4 then some .high
  else none

/-- The register that an access reaches, and its part of it; none for another width, alignment or place. -/
def regPart (a size : Nat) : Option (Nat × RegPart) :=
  match regRowAt a with
  | some r => if r.wide then (widePart a a size).map fun p => (a, p) else if size = 4 then some (a, .whole) else none
  | none =>
    if a < 4 then none
    else match regRowAt (a - 4) with
      | some r => if r.wide then (widePart (a - 4) a size).map fun p => (a - 4, p) else none
      | none => none

/-- A doorbell of R426: the context and the offset in it. -/
def doorbellAt (a : Nat) : Option (Nat × Nat) :=
  if 0xBC0000 ≤ a ∧ a < 0xC00000 then some ((a - 0xBC0000) / 64, (a - 0xBC0000) % 64) else none

/-- A word of the MSI-X table (R427). -/
def msixWordAt (a : Nat) : Option Nat := if 0xB90000 ≤ a ∧ a < 0xB91000 ∧ a % 4 = 0 then some ((a - 0xB90000) / 4) else none

/-- A word of the Pending Bit Array (R427). -/
def pbaWordAt (a : Nat) : Option Nat := if 0xB91000 ≤ a ∧ a < 0xB91020 ∧ a % 4 = 0 then some ((a - 0xB91000) / 4) else none

/-- In mode ROM or RECOVERY the PCIe function answers only STEW, TOP and REEVE (R498). -/
def Dev.pathOn (d : Dev) (path : Path) (a : Nat) : Bool :=
  path != .pcie || d.getF F.STEW_STATUS_mode == 2 || [0, 0xC, 0xD].contains (a / 0x100000)

/-- An access to a block whose domain is off, or that the path does not reach, is answered as an empty place (R14, R485). -/
def Dev.accessOn (d : Dev) (path : Path) (a : Nat) : Bool := d.regOn a && d.pathOn path a

/-! ### Held halves (R13) -/

/-- What a path holds of a register. -/
def heldAt (l : List (Path × Nat × Nat)) (path : Path) (a : Nat) : Option Nat := (l.find? fun e => e.1 == path && e.2.1 == a).map (·.2.2)

/-- Drop what a path holds of a register. -/
def heldDrop (l : List (Path × Nat × Nat)) (path : Path) (a : Nat) : List (Path × Nat × Nat) := l.filter fun e => !(e.1 == path && e.2.1 == a)

/-- Hold a value. -/
def heldPut (l : List (Path × Nat × Nat)) (path : Path) (a v : Nat) : List (Path × Nat × Nat) := (path, a, v) :: heldDrop l path a

/-- The value that a write of a part makes, or none when the low half is only held; `low` is the low half that the register holds. -/
def Dev.joinHalves (d : Dev) (path : Path) (a : Nat) (part : RegPart) (v low : Nat) : Dev × Option Nat :=
  match part with
  | .whole => (d, some (v % 2 ^ 64))
  | .low => ({ d with lowHeld := heldPut d.lowHeld path a (v % 2 ^ 32) }, none)
  | .high =>
    let l := (heldAt d.lowHeld path a).getD low
    ({ d with lowHeld := heldDrop d.lowHeld path a }, some (l + v % 2 ^ 32 * 2 ^ 32))

/-! ### Writes with an action -/

/-- TOP_EVT_CTL (R30, R33): a re-arm in the F clock in which a record has been written without the vector sends it; a change of enable from 0
to 1 clears both counters. -/
def Dev.evtCtlWritten (d : Dev) (v : Nat) : Dev :=
  let was := d.flag F.TOP_EVT_CTL_enable
  let d := d.storeReg R.TOP_EVT_CTL v
  let d := if v.testBit 1 ∧ d.evt.silent = some d.fclk then
      ({ d with evt := { d.evt with silent := none } } : Dev).sendMsix (d.getF F.TOP_EVT_CTL_vector)
    else d
  if !was && d.flag F.TOP_EVT_CTL_enable then
    let d := (d.setF F.TOP_EVT_RING_WR_count 0).setF F.TOP_EVT_RING_RD_count 0
    { d with evt := { d.evt with ringUndefined := false } }
  else d

/-- The contents of the ring become undefined: free bytes (R29; log 6). -/
def Dev.ringFree (d : Dev) : Dev :=
  let (v, d) := d.fresh
  let d := (d.mgmtWrite 23 0x5F false (d.getF F.TOP_EVT_RING_BASE_base * 4096) (leBytes (32 * d.ringRecords) v) true).1
  { d with evt := { d.evt with ringUndefined := true } }

/-- TOP_EVT_RING_RD (R29): a value outside the range from RD to WR leaves the ring contents undefined until the ring is enabled again. -/
def Dev.evtRdWritten (d : Dev) (v : Nat) : Dev :=
  let rd := d.getF F.TOP_EVT_RING_RD_count
  let wr := d.getF F.TOP_EVT_RING_WR_count
  let ok := decide ((v + 2 ^ 32 - rd) % 2 ^ 32 ≤ (wr + 2 ^ 32 - rd) % 2 ^ 32)
  let d := d.setF F.TOP_EVT_RING_RD_count v
  (if ok || !d.flag F.TOP_EVT_CTL_enable then d else d.ringFree).collectorRoom

/-- TOP_CTX_QUOTA (R370): only of a SWAPPED or RESIDENT ID; the slice quota changes at the next boundary, and the others
after this F clock. -/
def Dev.quotaWritten (d : Dev) (i v : Nat) : Dev :=
  let id := d.getF F.TOP_CTX_SEL_ctx_id
  if !(d.ctxOf id).active || decide (6 ≤ i) then d
  else if i = 0 then d.updCtx id fun c => { c with newSliceQuota := some v }
  else d.updCtx id fun c => { c with
    quota := c.quota.set i v
    quotaOld := match c.quotaOld with
      | some (f, q) => if f = d.fclk then some (f, q) else some (d.fclk, c.quota)
      | none => some (d.fclk, c.quota) }

/-- Writes in block TOP. -/
def Dev.topWrite (d : Dev) (a v : Nat) : Dev :=
  if a = R.TOP_EVT_RING_BASE ∨ a = R.TOP_EVT_RING_SIZE then if d.flag F.TOP_EVT_CTL_enable then d else d.storeReg a v
  else if a = R.TOP_EVT_CTL then d.evtCtlWritten v
  else if a = R.TOP_EVT_RING_RD then d.evtRdWritten v
  else if a = R.TOP_CTX_CMD then
    let d := d.storeReg a v
    if v.testBit 31 then d.ctxCmdGo else d
  else if R.TOP_CTX_QUOTA 0 ≤ a ∧ a < R.TOP_CTX_QUOTA 6 then d.quotaWritten ((a - R.TOP_CTX_QUOTA 0) / 4) v
  else d.storeReg a v

/-- Writes in block GATE (R174, R180, R185). -/
def Dev.gateWrite (d : Dev) (a v : Nat) : Dev :=
  match (List.range 16).find? fun n => a == R.GATE_SLOT_MAP n with
  | some n => d.writeSlotMap n v
  | none =>
    match (List.range 8).find? fun t => a == R.GATE_TRIG_START t || a == R.GATE_TRIG_PERIOD t || a == R.GATE_TRIG_WIDTH t with
    | some t => (d.storeReg a v).trigWritten t (d.flag (F.GATE_TRIG_WIDTH_enable t))
    | none => if a = R.GATE_DISCOVER then d.writeDiscover v else d.storeReg a v

/-- A write of TROUGH_CMD (R197): its two actions, a flush first, only while consumer_hold is 1. -/
def Dev.troughCmd (d : Dev) (i v : Nat) : Dev :=
  if !d.flag (F.TROUGH_CTL_consumer_hold i) then d
  else
    let d := if v.testBit 1 then d.updTrough i Trough.flush else d
    if v.testBit 0 then d.updTrough i (fun t => t.drop d.clk) else d

/-- Writes in block TROUGH. -/
def Dev.troughWrite (d : Dev) (a v : Nat) : Dev :=
  match (List.range 16).find? fun i => a == R.TROUGH_CMD i with
  | some i => d.troughCmd i v
  | none => d.storeReg a v

/-- Writes in block BELL (R207, R211, R223, R227). -/
def Dev.bellWrite (d : Dev) (a v : Nat) : Dev :=
  if a = R.BELL_SET then d.bellSet v
  else if a = R.BELL_CTL then d.bellCtl v
  else if a = R.BELL_RATE_MANUAL then (d.storeReg a v).rateManualWritten
  else if a = R.BELL_VT_PENDING then d.vtAdvanceReg (d.getF F.BELL_VT_SEL_ctx_id) v
  else if a = R.BELL_ALM_SET then d.almSet v
  else d.storeReg a v

/-- A write of MEM_FLIP_CTL (R396): a new arm applies to a write of the same clock too, and clears with the write that it applies to; of one that
was armed already R11 keeps the bit. -/
def Dev.flipCtlWritten (d : Dev) (v : Nat) : Dev :=
  let was := d.flag F.MEM_FLIP_CTL_arm
  let d := d.storeReg R.MEM_FLIP_CTL v
  if was then d else (d.note { d.touchOf R.MEM_FLIP_CTL 0 with wrote := 0 }).flipArmed

/-- Writes in the blocks HEDGE and MEM (R160, R161, R396). -/
def Dev.hedgeMemWrite (d : Dev) (a v : Nat) : Dev :=
  if a = R.HEDGE_INVAL then
    let d := d.storeReg a v
    if v.testBit 31 then d.invalStart else d
  else if a = R.HEDGE_FENCE then d.fenceWrite a v
  else if a = R.MEM_FLIP_ADDR ∨ a = R.MEM_FLIP_DATA ∨ a = R.MEM_FLIP_CHECK then if d.locked then d else d.storeReg a v
  else if a = R.MEM_FLIP_CTL then if d.locked then d else d.flipCtlWritten v
  else d.storeReg a v

/-- Writes in block LINK (R403). -/
def Dev.linkWrite (d : Dev) (a v : Nat) : Dev :=
  match (List.range 4).find? fun p => a == R.LINK_PORT_CTL p with
  | some p => (d.storeReg a v).linkCtlWritten p (d.flag (F.LINK_PORT_CTL_enable p)) (v.testBit 2)
  | none => d.storeReg a v

/-- Writes in block HITCH and HOST (R424). -/
def Dev.hostWrite (d : Dev) (a v : Nat) : Dev :=
  let d := d.storeReg a v
  match (List.range 20).find? fun q => a == qCtl q with
  | some q => d.qCtlWritten q
  | none => d

/-- Writes in block STEW (R444, R463). -/
def Dev.stewWrite (d : Dev) (path : Path) (a v : Nat) : Dev :=
  if a = R.STEW_MBOX_SUBMIT then
    if v.testBit 0 then d.mboxSubmit (if path = .usb then .pcie else path) ((List.range 16).flatMap fun i => leBytes 4 (d.reg (R.STEW_MBOX_CMD i)).toNat)
    else d
  else if a = R.STEW_MBOX_POP then d.mboxPop
  else if a = R.STEW_TEL_BASE then if d.flag F.STEW_TEL_CTL_enable then d else d.storeReg a v
  else if a = R.STEW_TEL_CTL then d.telCtlWritten v
  else if a = R.STEW_TEL_RD then (d.storeReg a v).telRdWritten
  else d.storeReg a v

/-- Writes in block PWR (R486, R491). -/
def Dev.pwrWrite (d : Dev) (a v : Nat) : Dev :=
  if a = R.PWR_DOMAIN_REQ then d.domainReq v
  else if a = R.PWR_CTL then
    let d := d.storeReg a v
    if v.testBit 2 then d.standbyEnter else d
  else d.storeReg a v

/-- A write of a whole register that takes effect in the device. -/
def Dev.regWrite (d : Dev) (path : Path) (a v : Nat) : Dev :=
  match a / 0x100000 with
  | 0 => d.topWrite a v
  | 1 => d.gateWrite a v
  | 2 => d.troughWrite a v
  | 3 => d.bellWrite a v
  | 7 =>
    let d := d.storeReg a v
    if a = R.GRAN_CTL ∧ v.testBit 0 = true then d.granInitStart else d
  | 8 => d.hedgeMemWrite a v
  | 9 => d.hedgeMemWrite a v
  | 0xA => d.linkWrite a v
  | 0xB => d.hostWrite a v
  | 0xC => d.stewWrite path a v
  | 0xE => d.pwrWrite a v
  | _ => d.storeReg a v

/-- A register is written over USB in this F clock. -/
def Dev.noteUsb (d : Dev) (a : Nat) : Dev :=
  d.updHost fun h => { h with usbWrote := (d.fclk, a) :: h.usbWrote.filter fun x => x.1 == d.fclk }

/-- A PCIe write has been given after a USB write of the same F clock: it counts as the first, so the USB value stands (R429). -/
def Dev.usbStands (d : Dev) (a old : Nat) : Dev :=
  match regRowAt a with
  | none => d
  | some r =>
    d.setReg a (BitVec.ofNat 64 (r.fields.foldl (fun n f =>
      if f.acc = .rw ∨ f.acc = .rwl then putField n f.lsb f.width (field old f.lsb f.width) else n) (d.reg a).toNat))

/-- What follows a write on its path (R429). -/
def Dev.afterWrite (d : Dev) (path : Path) (a old : Nat) : Dev :=
  match path with
  | .usb => d.noteUsb a
  | .pcie => if d.host.usbWrote.contains (d.fclk, a) then d.usbStands a old else d
  | .steward => d

/-- A write of a whole register: those that reach beyond the device are the Almanac's lost bit and the Reeve's command. After it the summary
vector is sent if a bit has risen (R33). -/
def State.regWrite (s : State) (path : Path) (a v : Nat) : State :=
  let old := (s.dev.reg a).toNat
  let s :=
    if a = R.BELL_ALM_STATUS then
      if v.testBit 3 then { s with kept := { s.kept with alm := { s.kept.alm with lost := false } } } else s
    else if a = R.REEVE_CMD then
      let s := s.upd fun d => d.storeReg a v
      if v.testBit 31 then s.reeveCmd v else s
    else s.upd fun d => d.regWrite path a v
  s.upd fun d => (d.afterWrite path a old).summaryCheck

/-! ### Accesses -/

/-- A doorbell is written: its time word whole or in halves, its tail word (R13, R426). -/
def Dev.doorbellWrite (d : Dev) (path : Path) (k o size v : Nat) : Dev :=
  if o = 8 then if size = 4 then d.doorbellTail k (v % 2 ^ 32) else d
  else match widePart 0 o size with
    | none => d
    | some part =>
      match d.joinHalves path (0xBC0000 + 64 * k) part v 0 with
      | (d, some x) => d.doorbellTime k x
      | (d, none) => d

/-- A software write of `size` bytes at a BAR0 address (R10–R14). That the MSI-X table and the Pending Bit Array, to which R427 gives no access
width, answer 4-byte accesses and 8-byte ones at even words is the model's choice (DESIGN CHOICE, log 100). -/
def State.busWrite (s : State) (path : Path) (a size v : Nat) : State :=
  if !s.dev.accessOn path a then s
  else match doorbellAt a with
    | some (k, o) => s.upd fun d => (d.doorbellWrite path k o size v).summaryCheck
    | none =>
      match msixWordAt a with
      | some i =>
        s.upd fun d =>
          if size = 4 then d.msixWrite i (v % 2 ^ 32)
          else if size = 8 ∧ i % 2 = 0 then (d.msixWrite i (v % 2 ^ 32)).msixWrite (i + 1) (v / 2 ^ 32 % 2 ^ 32)
          else d
      | none =>
        match regPart a size with
        | none => s
        | some (r, part) =>
          match regRowAt r with
          | some row =>
            if !row.wide then s.regWrite path r (v % 2 ^ 32)
            else match s.dev.joinHalves path r part v (s.regView r % 2 ^ 32) with
              | (d, some x) => ({ s with dev := d } : State).regWrite path r x
              | (d, none) => { s with dev := d }
          | none => s

/-- A read of an RC register (R10, R11): the value from before this clock, and the register left at what this clock has counted; none of another
register. TROUGH_PEAK restarts at the current fill (R203). -/
def State.readClears (s : State) (a : Nat) : Option (State × Nat) :=
  if a = R.PWR_RESET_CAUSE then
    let (v, g, d) := s.dev.takeCount a s.kept.cause
    some ({ s with kept := { s.kept with cause := g }, dev := d }, v)
  else if a = R.TOP_CTX_SLICE_CUT then
    let id := s.dev.getF F.TOP_CTX_SEL_ctx_id
    if !(s.dev.ctxOf id).live then some (s, 0) else
    let (v, g, d) := s.dev.takeCount (sliceCutKey id) (s.dev.ctxOf id).sliceCut
    some ({ s with dev := d.updCtx id fun c => { c with sliceCut := g } }, v)
  else match regRowAt a with
    | none => none
    | some r =>
      if !r.fields.any fun f => f.acc == .rc then none
      else
        let (v, g, d) := s.dev.takeCount a (s.dev.reg a).toNat
        let g := match (List.range 16).find? fun i => a == R.TROUGH_PEAK i with
          | some i => max g (d.trough i).fill
          | none => g
        some ({ s with dev := d.setReg a (BitVec.ofNat 64 g) }, v)

/-- A read of a whole register: the value and what it clears. -/
def State.readWhole (s : State) (path : Path) (a : Nat) : State × Nat :=
  if a = R.BELL_TIME_FRAC then
    let f := (heldAt s.dev.highCap path a).getD (s.regView a)
    (s.upd fun d => { d with highCap := heldDrop d.highCap path a }, f)
  else (s.readClears a).getD (s, s.regView a)

/-- A software read of `size` bytes at a BAR0 address (R10–R14): zero where no register answers. -/
def State.busRead (s : State) (path : Path) (a size : Nat) : State × Nat :=
  if !s.dev.accessOn path a then (s, 0)
  else match msixWordAt a, pbaWordAt a with
    | some i, _ =>
      let w := fun (i : Nat) => SMap.get msixDefault s.dev.host.msix i
      (s, if size = 4 then w i else if size = 8 ∧ i % 2 = 0 then w i + w (i + 1) * 2 ^ 32 else 0)
    | none, some i => (s, if size = 4 then field s.dev.host.pba (32 * i) 32 else if size = 8 ∧ i % 2 = 0 then field s.dev.host.pba (32 * i) 64 else 0)
    | none, none =>
      match regPart a size with
      | none => (s, 0)
      | some (r, .whole) => s.readWhole path r
      | some (r, .low) =>
        let v := s.regView r
        let frac := s.regView R.BELL_TIME_FRAC
        let s := s.upd fun d => { d with highCap := heldPut d.highCap path r (v / 2 ^ 32) }
        (if r = R.BELL_TIME then s.upd fun d => { d with highCap := heldPut d.highCap path R.BELL_TIME_FRAC frac } else s, v % 2 ^ 32)
      | some (r, .high) =>
        let v := (heldAt s.dev.highCap path r).getD (s.regView r / 2 ^ 32)
        (s.upd fun d => { d with highCap := heldDrop d.highCap path r }, v)

/-- A read whose value is given out on its path. -/
def State.readOut (s : State) (path : Path) (a size : Nat) : State :=
  let r := s.busRead path a size
  r.1.upd fun d => (d.emit (.value path (BitVec.ofNat 64 r.2))).summaryCheck

/-! ### The rows of plain accesses -/

/-- REGISTER_WRITE (R10–R14). -/
def execRegisterWrite (path : Path) (addr size : Nat) (value : BitVec 64) (s : State) : Host.Outcome State Fault Refusal :=
  .next (s.busWrite path addr size value.toNat)

/-- REGISTER_READ_CLEAR (R10, R11): a read with what it clears. -/
def execRegisterReadClear (path : Path) (addr size : Nat) (s : State) : Host.Outcome State Fault Refusal := .next (s.readOut path addr size)

/-- LOW_HALF_WRITE (R13). -/
def execLowHalfWrite (path : Path) (addr : Nat) (value : BitVec 32) (s : State) : Host.Outcome State Fault Refusal :=
  .next (s.busWrite path addr 4 value.toNat)

/-- LOW_HALF_READ (R13, R206). -/
def execLowHalfRead (path : Path) (addr : Nat) (s : State) : Host.Outcome State Fault Refusal := .next (s.readOut path addr 4)

/-! ### The rows of one register each -/

/-- TOP_EVT_CTL (R33). -/
def execTopEvtCtl (path : Path) (value : BitVec 32) (s : State) : Host.Outcome State Fault Refusal :=
  .next (s.busWrite path R.TOP_EVT_CTL 4 value.toNat)

/-- TOP_EVT_RING_RD (R29). -/
def execTopEvtRingRd (path : Path) (value : BitVec 32) (s : State) : Host.Outcome State Fault Refusal :=
  .next (s.busWrite path R.TOP_EVT_RING_RD 4 value.toNat)

/-- TOP_CTX_QUOTA (R370). -/
def execTopCtxQuota (path : Path) (i : BitVec 3) (value : BitVec 32) (s : State) : Host.Outcome State Fault Refusal :=
  .next (if i.toNat < 6 then s.busWrite path (R.TOP_CTX_QUOTA i.toNat) 4 value.toNat else s)

/-- HEDGE_INVAL (R160). -/
def execHedgeInval (path : Path) (value : BitVec 32) (s : State) : Host.Outcome State Fault Refusal :=
  .next (s.busWrite path R.HEDGE_INVAL 4 value.toNat)

/-- HEDGE_FENCE (R161). -/
def execHedgeFence (path : Path) (value : BitVec 32) (s : State) : Host.Outcome State Fault Refusal :=
  .next (s.busWrite path R.HEDGE_FENCE 4 value.toNat)

/-- HOST_Q_TAIL (R422). -/
def execHostQTail (path : Path) (q : BitVec 2) (value : BitVec 32) (s : State) : Host.Outcome State Fault Refusal :=
  .next (s.busWrite path (R.HOST_Q_TAIL q.toNat) 4 value.toNat)

/-- HOST_Q_CTL (R424). -/
def execHostQCtl (path : Path) (q : BitVec 2) (value : BitVec 32) (s : State) : Host.Outcome State Fault Refusal :=
  .next (s.busWrite path (R.HOST_Q_CTL q.toNat) 4 value.toNat)

/-- GATE_SLOT_MAP (R179, R180). -/
def execGateSlotMap (path : Path) (n : BitVec 4) (value : BitVec 32) (s : State) : Host.Outcome State Fault Refusal :=
  .next (s.busWrite path (R.GATE_SLOT_MAP n.toNat) 4 value.toNat)

/-- GATE_DISCOVER (R185). -/
def execGateDiscover (path : Path) (value : BitVec 32) (s : State) : Host.Outcome State Fault Refusal :=
  .next (s.busWrite path R.GATE_DISCOVER 4 value.toNat)

/-- GRAN_INIT (R328, R357): a write of GRAN_CTL. -/
def execGranInit (path : Path) (value : BitVec 32) (s : State) : Host.Outcome State Fault Refusal :=
  .next (s.busWrite path R.GRAN_CTL 4 value.toNat)

/-- BELL_SET (R207). -/
def execBellSet (path : Path) (value : BitVec 64) (s : State) : Host.Outcome State Fault Refusal :=
  .next (s.busWrite path R.BELL_SET 8 value.toNat)

/-- BELL_CTL (R211). -/
def execBellCtl (path : Path) (value : BitVec 32) (s : State) : Host.Outcome State Fault Refusal :=
  .next (s.busWrite path R.BELL_CTL 4 value.toNat)

/-- VT_ADVANCE (R223): BELL_VT_PENDING for the context in BELL_VT_SEL. -/
def execVtAdvance (path : Path) (value : BitVec 64) (s : State) : Host.Outcome State Fault Refusal :=
  .next (s.busWrite path R.BELL_VT_PENDING 8 value.toNat)

/-- BELL_ALM_SET (R227). -/
def execBellAlmSet (path : Path) (value : BitVec 64) (s : State) : Host.Outcome State Fault Refusal :=
  .next (s.busWrite path R.BELL_ALM_SET 8 value.toNat)

/-- PWR_DOMAIN_REQ (R486). -/
def execPwrDomainReq (path : Path) (value : BitVec 64) (s : State) : Host.Outcome State Fault Refusal :=
  .next (s.busWrite path R.PWR_DOMAIN_REQ 8 value.toNat)

/-- STANDBY (R491): a write of PWR_CTL with standby, whose other fields keep their values. -/
def execStandby (path : Path) (s : State) : Host.Outcome State Fault Refusal :=
  .next (s.busWrite path R.PWR_CTL 4 (putBit (s.dev.reg R.PWR_CTL).toNat 2 true))

/-- RECOVERY_REQUEST (R469, R480): a write of REEVE_CMD without unpark. -/
def execRecoveryRequest (path : Path) (value : BitVec 32) (s : State) : Host.Outcome State Fault Refusal :=
  .next (s.busWrite path R.REEVE_CMD 4 (putBit value.toNat 8 false))

/-- UNPARK (R469, R480): a write of REEVE_CMD with unpark. -/
def execUnpark (path : Path) (value : BitVec 32) (s : State) : Host.Outcome State Fault Refusal :=
  .next (s.busWrite path R.REEVE_CMD 4 (putBit value.toNat 8 true))

/-- STEW_MBOX_POP (R444, R463): any write. -/
def execStewMboxPop (path : Path) (s : State) : Host.Outcome State Fault Refusal := .next (s.busWrite path R.STEW_MBOX_POP 4 0)

/-- STEW_TEL_CTL (R463). -/
def execStewTelCtl (path : Path) (value : BitVec 32) (s : State) : Host.Outcome State Fault Refusal :=
  .next (s.busWrite path R.STEW_TEL_CTL 4 value.toNat)

/-- STEW_TEL_RD (R459): the host's count of consumed records. -/
def execStewTelRd (path : Path) (value : BitVec 32) (s : State) : Host.Outcome State Fault Refusal :=
  .next (s.busWrite path R.STEW_TEL_RD 4 value.toNat)

/-- MBOX_SUBMIT (R444, R428): over USB a command on endpoint 1; else writes of STEW_MBOX_CMD, where the command is given, and of STEW_MBOX_SUBMIT. -/
def execMboxSubmit (path : Path) (cmd : List Byte) (s : State) : Host.Outcome State Fault Refusal :=
  if path = .usb then
    .next (if s.dev.pwr.good && s.dev.flag F.HOST_STATUS_usb_up then s.upd fun d => d.mboxSubmit .usb cmd else s)
  else
    let s := if cmd.isEmpty then s else iter 16 s fun i s => s.busWrite path (R.STEW_MBOX_CMD i) 4 (leAt (fitBytes 64 cmd) (4 * i) 4)
    .next (s.busWrite path R.STEW_MBOX_SUBMIT 4 1)

/-! ### The USB register requests (R428, R429) -/

/-- A USB request reaches the device. -/
def Dev.usbOn (d : Dev) : Bool := d.pwr.good && d.domainOn 32 && d.flag F.HOST_STATUS_usb_up

/-- REG_READ (R429): 4 or 8 bytes, else BAD_REQUEST. -/
def execRegRead (addr size : Nat) (s : State) : Host.Outcome State Fault Refusal :=
  if !s.dev.usbOn then .next s
  else if size = 4 ∨ size = 8 then
    let r := s.busRead .usb addr size
    .next (r.1.upd fun d => (d.emit (.usb 0 (leBytes size r.2))).summaryCheck)
  else .next (s.upd fun d => d.emit (.usb 2 []))

/-- REG_WRITE (R429). -/
def execRegWrite (addr size : Nat) (value : BitVec 64) (s : State) : Host.Outcome State Fault Refusal :=
  if !s.dev.usbOn then .next s
  else if size = 4 ∨ size = 8 then .next ((s.busWrite .usb addr size value.toNat).upd fun d => d.emit (.usb 0 []))
  else .next (s.upd fun d => d.emit (.usb 2 []))

/-- A USB memory request's length (R429): 4 bytes to 1 MiB, a multiple of 4. -/
def usbLenOk (n : Nat) : Bool := decide (4 ≤ n) && decide (n ≤ 0x100000) && n % 4 == 0

/-- MEM_READ (R429): an external read of the management space by requester 22. -/
def execMemRead (addr len : Nat) (s : State) : Host.Outcome State Fault Refusal :=
  s.withDev fun d =>
    if !d.usbOn then d
    else if !usbLenOk len then d.emit (.usb 2 [])
    else match d.mgmtRead 22 0x5E true addr len with
      | (d, .ok bs) => d.emit (.usb 0 bs)
      | (d, .error _) => d.emit (.usb 1 [])

/-- MEM_WRITE (R429). -/
def execMemWrite (addr : Nat) (bytes : List Byte) (s : State) : Host.Outcome State Fault Refusal :=
  s.withDev fun d =>
    if !d.usbOn then d
    else if !usbLenOk bytes.length then d.emit (.usb 2 [])
    else match d.mgmtWrite 22 0x5E true addr bytes with
      | (d, none) => d.emit (.usb 0 [])
      | (d, some _) => d.emit (.usb 1 [])

end Sys2Proof.Machine
end

