-- ==== Sys2Proof/Machine/Plan.lean ====
section
/-! DEFINITION. The life of a plan (R46–R53, R222): load, start, lock, major periods, stop, unload, store; and the ends of fills. -/

namespace Sys2Proof.Machine

/-! ### Reading an image (R46, R446) -/

/-- The plan store of the flash: its offset and its bytes (R449). -/
def planStore : Nat := 0xD00000
/-- See `planStore`. -/
def planStoreBytes : Nat := 0x3000000

/-- Bytes of an image at an offset: from memory, or from the flash plan store when its address is 0. -/
def State.imageRead (s : State) (addr off n : Nat) : State × Except Nat (List Byte) :=
  if addr = 0 then (s, .ok (s.kept.flashRead (planStore + off) n))
  else match s.dev.mgmtRead 23 0x5F false (addr + off) n with
    | (d, r) => ({ s with dev := d }, r)

/-! ### The checks that need the device (R50) -/

/-- The part, stepping and board that the image is for. -/
def Dev.partOk (d : Dev) (h : List Byte) : Bool := leAt h 8 2 == d.getF F.TOP_ID_part && leAt h 0xA 1 == d.getF F.TOP_ID_stepping

/-- See `partOk`. -/
def Dev.boardOk (d : Dev) (h : List Byte) : Bool :=
  leAt h 0xC 1 == d.getF F.TOP_DEVICE_NUM_board_size && leAt h 0xD 1 == d.getF F.TOP_DEVICE_NUM_topology
    && leAt h 0xE 1 == d.getF F.TOP_DEVICE_NUM_device_num

/-- Checks 1 to 4: the header alone. -/
def Dev.headerRefusal (d : Dev) (h : List Byte) : Option Nat :=
  if !magicOk h then some 1
  else if !d.partOk h then some 2
  else if !d.boardOk h then some 3
  else if !planSigned ((d.stew.record.drop 0x80).take 384) h then some 4
  else none

/-- The registers as the preloads of an image will leave them. -/
def Dev.afterPreloads (d : Dev) (p : PlanImg) : Dev := p.preloads.foldl (fun d x => d.storeReg x.1 x.2.2) d

/-- The Granary's pools after the preloads (R322, R324): none enabled that is invalid, at most 4,096 staging buffers, frames within the
header's pages. -/
def Dev.poolsOk (d : Dev) (p : PlanImg) : Bool :=
  let d := d.afterPreloads p
  let on := (List.range 4).filter fun q => d.flag (F.GRAN_POOL_CFG_enable q)
  let frames := (on.map fun q => d.getF (F.GRAN_POOL_FRAMES_frames q)).sum
  (on.all fun q => (d.gPool q).ok) && decide (d.getF F.GRAN_STAGE_CFG_count ≤ 4096) && decide (frames ≤ 4194304) && decide (frames ≤ p.hd 0x58 4)

/-- A claimed unit is there: its domain on, not recovering and not parked (R50, R469, R485). -/
def Dev.unitThere (d : Dev) (u : Nat) : Bool := d.domainOn u && !d.unitBusy u && !d.parkedBits.testBit u

/-- NO_RESOURCE: claimed ploughs, engines, links and amounts. -/
def Dev.resourcesOk (d : Dev) (p : PlanImg) : Bool :=
  let link := fun (l : Nat) => (wiring (d.getF F.TOP_DEVICE_NUM_topology) (d.getF F.TOP_DEVICE_NUM_board_size)
    (d.getF F.TOP_DEVICE_NUM_device_num) l).isSome && d.domainOn 31
  ((List.range 16).all fun n => !(p.hd 0x40 2).testBit n || d.unitThere n) && ((List.range 4).all fun e => !(p.hd 0x42 1).testBit e || d.unitThere (16 + e))
    && ((List.range 8).all fun l => !(p.hd 0x43 1).testBit l || (decide (l < 4) && link l))
    && (p.hd 0x48 4 == 0 || [20, 21, 22, 23].all d.domainOn) && amountsOk p.header && d.poolsOk p

/-- Checks 5 to 0xB, of the whole image. -/
def Dev.imageRefusal (d : Dev) (h payload : List Byte) : Option Nat :=
  let img := h ++ payload
  let p : PlanImg := ⟨h, sectionsOf img⟩
  if !hashOk h payload then some 5
  else if leAt h 0x20 4 < leAt d.stew.record 0x34 4 then some 6
  else if !sectionsOk img (fun a => (d.reg a).toNat) then some 7
  else if !slackOk h then some 8
  else if !d.resourcesOk p then some 9
  else if d.getF F.PWR_CAP_mw < p.hd 0x3C 4 then some 0xA
  else if d.plan.phase ≠ .empty then some 0xB
  else none

/-- Copy the sections with flags[1] to their load addresses, up to the first that cannot be written. -/
def Dev.copySections (d : Dev) (secs : List PlanSection) : Dev × Bool :=
  (secs.filter fun x => x.flags.testBit 1 && !x.bytes.isEmpty).foldl (fun (acc : Dev × Bool) x =>
    if !acc.2 then acc
    else match acc.1.mgmtWriteEach 23 0x5F false x.load x.bytes with
      | (d, none) => (d, true)
      | (d, some _) => (d, false)) (d, true)

/-- The image passes: its sections are copied, and the plan is LOADED. -/
def Dev.planAccept (d : Dev) (addr : Nat) (h payload : List Byte) : Dev :=
  let secs := sectionsOf (h ++ payload)
  match d.copySections secs with
  | (d, false) => d.respond 7
  | (d, true) =>
    let plan : PlanState := { phase := .loaded, base := addr, fromFlash := addr == 0, header := h, sections := secs }
    (({ d with plan := plan } : Dev).setB F.TOP_STATUS_plan_loaded true).respond 0

/-- PLAN_LOAD (R50, R446, R499): waits for the stacks and discovery, then checks in order and copies. A failed access of the plan
loader ends it with BAD_SECTION (R156). -/
def execPlanLoad (s : State) : Host.Outcome State Fault Refusal :=
  match s.dev.serves 1 with
  | none => .next s
  | some c =>
    let addr := leAt c 8 8
    let size := leAt c 16 8
    if size < 0x200 ∨ (if addr = 0 then planStoreBytes else 0xA00000000) < size then .next (s.upd fun d => d.respond 0xF2)
    else if !(s.dev.flag F.TOP_STATUS_stack_ready && s.dev.flag F.GATE_STATUS_discovery_done) then .next s
    else match s.imageRead addr 0 512 with
      | (s, .error _) => .next (s.upd fun d => d.respond 7)
      | (s, .ok h) =>
        match s.dev.headerRefusal h with
        | some r => .next (s.upd fun d => d.respond r)
        | none =>
          if leAt h 0x10 8 < 0x200 ∨ size < leAt h 0x10 8 then .next (s.upd fun d => d.respond 5)
          else match s.imageRead addr 0x200 (leAt h 0x10 8 - 0x200) with
            | (s, .error _) => .next (s.upd fun d => d.respond 7)
            | (s, .ok payload) =>
              match s.dev.imageRefusal h payload with
              | some r => .next (s.upd fun d => d.respond r)
              | none => .next (s.upd fun d => d.planAccept addr h payload)

/-! ### PLAN_START (R51) -/

/-- The schedule registers, from the header and the schedule records (R259). -/
def Dev.startSchedules (d : Dev) : Dev :=
  iter 8 d fun s d =>
    let b := schedRec d.schedSec 0 64 s
    let d := (d.setF (F.YOKE_MARK_PERIOD_ns s) (d.header (0x80 + 16 * s) 4)).setF (F.YOKE_MARK_PHASE_ns s) (leAt b 0 4)
    let d := (d.setF (F.YOKE_MARK_CTL_prov_lag s) (d.header (0x84 + 16 * s) 4)).setF (F.YOKE_MARK_CTL_commit_lag s) (d.header (0x88 + 16 * s) 4)
    let d := (d.setF (F.YOKE_MARK_CFG_enable s) (leAt b 4 1 % 2)).setF (F.YOKE_MARK_CFG_virtual s) (leAt b 4 1 / 2 % 2)
    let d := (d.setF (F.YOKE_MARK_CFG_nbuf_m1 s) (leAt b 5 1 - 1)).setF (F.YOKE_MARK_CFG_region_base s) (leAt b 6 1)
    d.setF (F.YOKE_MARK_CFG_owner s) (leAt b 8 2)

/-- The HITCH registers, from the HITCH_MAP section; without one both directions stay disabled (R437). -/
def Dev.startHitch (d : Dev) : Dev :=
  let m := d.section 9 0
  if m.isEmpty then (d.setB F.HITCH_CFG_out_en false).setB F.HITCH_CFG_in_en false
  else
    let d := (d.setF F.HITCH_CFG_schedule (leAt m 0 1)).setF F.HITCH_CFG_out_en (leAt m 1 1 % 2)
    let d := (d.setF F.HITCH_CFG_in_en (leAt m 1 1 / 2 % 2)).setF F.HITCH_CFG_out_words (leAt m 2 2)
    let d := (d.setF F.HITCH_CFG_in_words (leAt m 4 2)).setF F.HITCH_PUB_ADDR_address (leAt m 8 8 / 64)
    let d := (d.setF F.HITCH_IN_ADDR_address (leAt m 16 8 / 64)).setF F.HITCH_DEADLINE_ns (leAt m 24 4)
    d.setF F.HITCH_CAPTURE_ns (leAt m 28 4)

/-- The identity record of an attachment that R186 and R263 use: VERIFIED or UNSIGNED, on the lowest bus, then at the lowest address. -/
def Dev.idRecord (d : Dev) (p : List Byte → Bool) : Option (List Byte) :=
  (d.gate.ids.find? fun e => (e.2.state == 1 || e.2.state == 2) && p e.2.bytes).map fun e => e.2.bytes

/-- Stamp offsets from identity records (R186). -/
def Dev.startOffsets (d : Dev) : Dev :=
  iter 16 d fun n d =>
    if d.flag (F.GATE_SLOT_MAP_enable n) && d.flag (F.GATE_SLOT_MAP_wsir_offset n) then
      match d.idRecord fun b => leAt b 9 1 == d.getF (F.GATE_SLOT_MAP_kind n) && leAt b 0xA 1 == d.getF (F.GATE_SLOT_MAP_port n)
          && leAt b 0xE 2 == d.getF (F.GATE_SLOT_MAP_sel n) with
      | some b => d.setF (F.GATE_SLOT_OFFSET_offset n) (leAt b 0x28 4)
      | none => d
    else d

/-- The value of the first entry of a type in an entry area (R184). -/
def tlvFind (type : Nat) : Nat → List Byte → Option (List Byte)
  | 0, _ => none
  | fuel + 1, bs =>
    if bs.length < 4 then none
    else
      let n := leAt bs 2 2
      if leAt bs 0 2 = type ∧ 4 + n ≤ bs.length then some ((bs.drop 4).take n) else tlvFind type fuel (bs.drop (4 + (n + 3) / 4 * 4))

/-- The CAMERA_MODEL value of a record (R184, R262). -/
def cameraModel (rec : List Byte) : Option (List Byte) :=
  let area := (rec.drop (leAt rec 0x48 2)).take (leAt rec 0x4A 2)
  (tlvFind 1 512 area).filter fun v => v.length == 64

/-- The intrinsics of a camera from a CAMERA_MODEL value (R262); a model byte above 1 is kept as what makes the camera invalid (R264). -/
def Dev.camIntr (d : Dev) (c : Nat) (v : List Byte) : Dev :=
  let d := (d.setF (F.YOKE_PROJ_CAM_SIZE_width c) (leAt v 0 2)).setF (F.YOKE_PROJ_CAM_SIZE_height c) (leAt v 2 2)
  let d := d.setF (F.YOKE_PROJ_CAM_MODEL_model c) (leAt v 4 1)
  let d := { d with yoke := { d.yoke with camBad := putBit d.yoke.camBad c (decide (1 < leAt v 4 1)) } }
  iter 11 d fun i d => d.setF (F.YOKE_PROJ_CAM_INTR_value c i) (leAt v (8 + 4 * i) 4)

/-- The position and orientation of a camera from a record. -/
def Dev.camExtr (d : Dev) (c : Nat) (b : List Byte) : Dev :=
  let d := iter 3 d fun i d => d.setF (F.YOKE_PROJ_CAM_POS_value c i) (leAt b (0x2C + 4 * i) 4)
  iter 4 d fun i d => d.setF (F.YOKE_PROJ_CAM_ORIENT_value c i) (leAt b (0x38 + 4 * i) 4)

/-- Camera parameters from identity records (R263): without a record, or without the entry that intr_src needs, the preloaded values stay. -/
def Dev.startCameras (d : Dev) : Dev :=
  iter 8 { d with yoke := { d.yoke with camBad := 0 } } fun c d =>
    let intr := d.flag (F.YOKE_PROJ_CAM_CTL_intr_src c)
    let extr := d.flag (F.YOKE_PROJ_CAM_CTL_extr_src c)
    if !intr && !extr then d
    else
      let none' := d.projEvent none 0x0441 c 0 0 0 0 0
      match d.idRecord fun b => leAt b 9 1 == 1 && leAt b 0xA 1 == d.getF (F.YOKE_PROJ_CAM_CTL_port c) with
      | none => none'
      | some b =>
        match intr, cameraModel b with
        | true, none => none'
        | i, v =>
          let d := if i then d.camIntr c (v.getD []) else d
          if extr then d.camExtr c b else d

/-- Contexts that are live at start, but for an ID whose generations are spent (R38), and the whole context table (R152, R361). -/
def Dev.startContexts (d : Dev) : Dev :=
  let ids := (List.range d.ctxCount).filter fun id => d.mapFlag id 0 && decide ((d.ctxOf id).gen < 0xFFFFF)
  let d := ids.foldl (fun (d : Dev) id =>
    if d.mapFlag id 1 then d.bringUp id .resident (leAt (d.mapping id) 4 1) else d.bringUp id .swapped 0) d
  let entry := fun (id : Nat) =>
    let c := d.ctxOf id
    let root := if c.live then Config.tableRoot id c.gen / 4096 % 2 ^ 36 * 4096 else 0
    leBytes 8 root ++ leBytes 4 (c.gen % 2 ^ 20 + 2 ^ 20 * b2n c.live) ++ leBytes 4 0
  ((d.writeKey (d.ctxTableKey 0) ((List.range 4096).flatMap entry) stewWho).1).mgmtAttrs

/-- The domains that PWR switches off for a plan with PWR_CTL.gate_unused (R487). -/
def Dev.unusedDomains (d : Dev) : Nat :=
  if d.flag F.PWR_CTL_gate_unused then
    (0xFFFF - d.header 0x40 2) + 2 ^ 16 * (0xF - d.header 0x42 1 % 16) + 2 ^ 31 * b2n (d.header 0x43 1 == 0)
  else 0

/-- PLAN_START's preparation before T0: preloads in entry order (R523), the registers of schedules and the Hitch port, the Granary's
initialisation (R325, R328), what identity records give, contexts, unused domains. -/
def State.planPrepare (s : State) (t0 : Nat) : State :=
  let p : PlanImg := ⟨s.dev.plan.header, s.dev.plan.sections⟩
  let s := p.preloads.foldl (fun (s : State) x => s.busWrite .steward x.1 x.2.1 x.2.2) s
  s.upd fun d =>
    let d := d.startSchedules.startHitch.granInitStart
    let d := d.startOffsets.startCameras.startContexts
    let d := (d.updPwr fun p => { p with restore := d.unusedDomains }).domainShow
    { d with plan := { d.plan with t0 := some t0, preloaded := true } }

/-- PLAN_START (R51, R446). -/
def execPlanStart (s : State) : Host.Outcome State Fault Refusal :=
  match s.dev.serves 2 with
  | none => .next s
  | some c =>
    let t0 := leAt c 8 8
    let rx := s.dev.stew.running.elim 0 (·.rx)
    if s.dev.plan.phase ≠ .loaded ∨ s.dev.plan.t0.isSome = true then .next (s.upd fun d => d.respond 0x0B)
    else if t0 < rx + 1000000 then .next (s.upd fun d => d.respond 0x0C)
    else .next ((s.planPrepare t0).upd fun d => d.respond 0)

/-! ### The lock and the major periods (R51, R222) -/

/-- The instant of boundary `k`. -/
def Dev.boundaryNs (d : Dev) (k : Nat) : Nat := d.plan.t0.getD 0 + k * d.header 0x30 4

/-- The Belltower's part of a boundary: the instant is recorded (R222) and the virtual times are copied (R224). -/
def Dev.periodSignal (d : Dev) (k : Nat) : Dev := (d.setF F.BELL_PERIOD_BASE_ns (d.boundaryNs k)).vtBoundary

/-- A new major period begins (R40, R222, R224): the counters restart after the Belltower's signal. -/
def Dev.periodBegins (d : Dev) (k : Nat) : Dev :=
  let plan := d.plan
  let d : Dev := { d with plan := { plan with period := k, nextBoundary := k + 1, cBase := d.cclk, mBase := d.mclk } }
  let d := (d.periodSignal k).linkBoundary
  d.updReeve fun x => { x with next := [] }

/-- The ploughs' records of a plan's run are cleared. -/
def Dev.ploughsFresh (d : Dev) : Dev :=
  iter 16 d fun n d => d.updPlough n fun pl => { pl with nextEntry := 0, ran := [], waived := [] }

/-- PLAN_LOCK (R51): at T0 the fields lock, after the slot mappings that still waited have been stored (R12, R179), enabled slots' troughs are flushed (R201), cameras are validated (R264), the Hitch banks clear
(R438), provisional regions start empty (R58), channels change to planned service (R387), and the first period begins. -/
def Dev.planLock (d : Dev) : Dev :=
  let plan := d.plan
  let d : Dev := { d with plan := { plan with phase := .locked, ended := false, stopping := false, lockedAt := d.clk } }
  let d := (d.setB F.TOP_STATUS_plan_locked true).setB F.MEM_STATUS_open_mode false
  let d := iter 16 d fun n d => d.storePendMap n
  let d := iter 16 d fun n d => if d.flag (F.GATE_SLOT_MAP_enable n) then d.updTrough n Trough.flush else d
  let d := iter 8 d fun c d => { d with gate := { d.gate with enc := SMap.modify (fun _ => {}) d.gate.enc c fun e => { e with nextLatch := none } } }
  let d := d.camValidate.hitchLock
  let d : Dev := { d with yoke := {}, hedge := { d.hedge with regions := [] }, evt := { d.evt with held := [], counts := [] } }
  d.ploughsFresh.periodBegins 0

/-- PLAN_LOCK: due at T0, once nothing of an earlier plan is being filled. -/
def execPlanLock (s : State) : Host.Outcome State Fault Refusal :=
  s.withDev fun d =>
    match d.plan.t0 with
    | some t => if d.plan.phase = .loaded ∧ t ≤ d.devNs ∧ (d.memc.fills.any (·.plan)) = false then d.planLock else d
    | none => d

/-- MAJOR_PERIOD_BOUNDARY (R40, R222, R224, R366, R368, R465): the period that ends is closed; after the last one of a plan that stops, the
channels return to open mode (R52, R387). -/
def Dev.boundary (d : Dev) : Dev :=
  let d := d.sliceBoundary.exchangeBoundary
  if d.plan.stopping then
    let plan := d.plan
    (({ d with plan := { plan with ended := true } } : Dev).periodSignal plan.nextBoundary).setB F.MEM_STATUS_open_mode true
  else d.periodBegins d.plan.nextBoundary

/-- MAJOR_PERIOD_BOUNDARY: due when device time has reached the instant of the next boundary. -/
def execMajorPeriodBoundary (s : State) : Host.Outcome State Fault Refusal :=
  s.withDev fun d => if d.locked && !d.plan.ended && decide (d.boundaryNs d.plan.nextBoundary ≤ d.devNs) then d.boundary else d

/-! ### PLAN_STOP (R52) -/

/-- PLAN_STOP (R52, R446): accepted while LOCKED; the response is sent at the end of the stop. -/
def execPlanStop (s : State) : Host.Outcome State Fault Refusal :=
  s.withDev fun d =>
    if (d.serves 3).isNone then d
    else if !d.locked then d.respond 0x0B
    else
      let plan := d.plan
      { d with plan := { plan with stopping := true } }

/-- The plan has stopped: fields unlock, parked units are released (R469), the plan is LOADED again. -/
def Dev.planStopped (d : Dev) : Dev :=
  let plan := d.plan
  let left : PlanState :=
    { phase := .loaded, base := plan.base, fromFlash := plan.fromFlash, header := plan.header, sections := plan.sections,
      cBase := plan.cBase, mBase := plan.mBase }
  let d : Dev := { d with plan := left }
  let d := ((d.setB F.TOP_STATUS_plan_locked false).ploughsFresh).unpark 0xFFFFF
  if (d.runs 3).isSome then d.respond 0 else d

/-- The stop after the last period goes on: every live context is retired in ascending order (R372), then the unused domains come back (R487),
then the plan has stopped. -/
def Dev.planStopGo (d : Dev) : Dev :=
  match d.ctxs.find? fun e => e.2.live with
  | some (id, c) =>
    if c.life = .retiring then d.retireGo id
    else
      let part := b2n (c.life == .resident)
      (((d.updCtx id fun x => { x with usage := x.usage.set 1 part }).retireStart id).retireGo id)
  | none =>
    if d.pwr.restore ≠ 0 then (d.updPwr fun p => { p with restore := 0 }).domainShow
    else if d.domainNext.isSome then d
    else d.planStopped

/-- PLAN_STOP_END (R52). -/
def execPlanStopEnd (s : State) : Host.Outcome State Fault Refusal := s.withDev fun d => if d.locked && d.plan.ended then d.planStopGo else d

/-! ### PLAN_UNLOAD, PLAN_STORE, and the ends of fills -/

/-- The memory that a loaded plan held (R52, R394): its image, what its sections were copied to, the regions and save areas of its
contexts, its partitions. -/
def Dev.planMemory (d : Dev) : List (Nat × Nat) :=
  let img := if d.plan.fromFlash then [] else [(d.plan.base, d.header 0x10 8)]
  let loads := (d.plan.sections.filter fun x => x.flags.testBit 1).map fun x => (x.load, x.bytes.length)
  let ids := List.range d.ctxCount
  let parts := (List.range d.slotCount).map fun i => ((d.slotRec i).1, (d.slotRec i).2.1)
  (img ++ loads ++ (ids.flatMap fun id => (mapRegions (d.mapping id)).map fun r => (r.key, r.bytes)) ++ ids.map d.saveSpace ++ parts).filter fun r => r.2 != 0

/-- PLAN_UNLOAD (R52, R446): its memory is filled; the response comes when the fill is done. -/
def execPlanUnload (s : State) : Host.Outcome State Fault Refusal :=
  s.withDev fun d =>
    if (d.serves 4).isNone then d
    else if d.plan.phase ≠ .loaded then d.respond 0x0B
    else if d.memc.fills.any (·.plan) then d
    else
      let plan := d.plan
      ({ d with plan := { plan with t0 := none } } : Dev).startFill d.planMemory none true false

/-- PLAN_STORE (R446): the image goes to the flash plan store. -/
def execPlanStore (s : State) : Host.Outcome State Fault Refusal :=
  match s.dev.serves 5 with
  | none => .next s
  | some c =>
    let n := leAt c 16 8
    if planStoreBytes < n then .next (s.upd fun d => d.respond 0xF2)
    else if s.dev.plan.phase ≠ .empty ∧ s.dev.plan.fromFlash = true then .next (s.upd fun d => d.respond 0x0B)
    else match s.dev.mgmtRead 23 0x5F false (leAt c 8 8) n with
      | (d, .error _) => .next { s with dev := d.respond 0xF4 }
      | (d, .ok bs) => .next { s with kept := (s.kept.flashErase planStore (ceilDiv n 4096 * 4096)).flashWrite planStore bs, dev := d.respond 0 }

/-- The plan's memory is filled: the plan is EMPTY, the management space has its default attributes (R52, R524). -/
def Dev.planUnloaded (d : Dev) : Dev :=
  let d := (({ d with plan := {} } : Dev).setB F.TOP_STATUS_plan_loaded false).mgmtDefault
  if (d.runs 4).isSome then d.respond 0 else d

/-- The start-up's fill is done (R394, R497): the stacks are ready. -/
def Dev.bootFilled (d : Dev) : Dev :=
  if d.domainOn 24 && d.domainOn 25 && d.pwr.trained then
    ((d.setB F.MEM_STATUS_stack0_ready true).setB F.MEM_STATUS_stack1_ready true).setB F.TOP_STATUS_stack_ready true
  else d

/-- What waits for a fill goes on. -/
def Dev.fillEnds (d : Dev) (j : FillJob) : Dev :=
  match j.ctx with
  | some id => d.retireDone id
  | none => if j.plan then d.planUnloaded else if j.boot then d.bootFilled else d

/-- FILL_DONE (R394, R395): the oldest fill completes; a retirement, an unload or the start-up goes on. -/
def execFillDone (s : State) : Host.Outcome State Fault Refusal :=
  s.withDev fun d => match d.finishFill with
    | (d, some j) => d.fillEnds j
    | (d, none) => d

end Sys2Proof.Machine
end

