-- ==== Sys2Proof/Machine/StewCmd.lean ====
section
/-! DEFINITION. The Steward's mailbox commands beside those of plans (R444–R447, R452, R455, R457), boot control blocks and images (R449,
R450), the configuration record's checks (R454, R455), and the mailbox slice (R442). -/

namespace Sys2Proof.Machine

/-! ### Boot control blocks (R449) -/

/-- A boot control block. -/
structure Bcb where
  seq : Nat := 0
  active : Nat := 0
  trial : Nat := 0xFF
  left : Nat := 0
  fwFloor : Nat := 0
  cfgFloor : Nat := 0
deriving DecidableEq, Repr

/-- The offset of a copy. -/
def bcbAt (copy : Nat) : Nat := 0x20000 + copy * 0x1000

/-- The block in 112 bytes, or none when its magic or HMAC is wrong; without a boot key no block is valid (R456). -/
def bcbOf (key bs : List Byte) : Option Bcb :=
  if !key.isEmpty && leAt bs 0 4 == 0x544F4F42 && leAt bs 64 48 == beNat (Crypto.hmac key (bs.take 64)) then
    some ⟨leAt bs 4 4, leAt bs 8 1, leAt bs 9 1, leAt bs 10 1, leAt bs 12 4, leAt bs 16 4⟩
  else none

/-- The bytes of a block, padded to its 4 KiB. -/
def Bcb.bytes (b : Bcb) (key : List Byte) : List Byte :=
  let head := fitBytes 64 (leBytes 4 0x544F4F42 ++ leBytes 4 b.seq ++ leBytes 1 b.active ++ leBytes 1 b.trial ++ leBytes 1 b.left ++ leBytes 1 0
    ++ leBytes 4 b.fwFloor ++ leBytes 4 b.cfgFloor)
  fitBytes 4096 (head ++ leBytes 48 (beNat (Crypto.hmac key head)))

/-- The valid block with the higher sequence, and its copy. -/
def Kept.bcb (k : Kept) (key : List Byte) : Option (Nat × Bcb) :=
  match bcbOf key (k.flashRead (bcbAt 0) 112), bcbOf key (k.flashRead (bcbAt 1) 112) with
  | some a, some b => some (if a.seq < b.seq then (1, b) else (0, a))
  | some a, none => some (0, a)
  | none, some b => some (1, b)
  | none, none => none

/-- Write a block to the other copy with the next sequence number. -/
def Kept.putBcb (k : Kept) (key : List Byte) (b : Bcb) : Kept :=
  let (copy, seq) := match k.bcb key with
    | some (c, old) => (1 - c, old.seq + 1)
    | none => (0, 1)
  (k.flashErase (bcbAt copy) 4096).flashWrite (bcbAt copy) ({ b with seq := seq }.bytes key)

/-! ### Firmware images (R450) -/

/-- The offset of a firmware slot, and its bytes. -/
def slotAt (slot : Nat) : Nat := 0x100000 + slot * 0x600000
/-- See `slotAt`. -/
def slotBytes : Nat := 0x600000

/-- A signature of a digest by the root key, at two offsets (R448). -/
def rootSigned (bs : List Byte) (r s : Nat) (upTo : Nat) : Bool :=
  Crypto.verify Config.rootKey (Crypto.sha384 (bs.take upTo)) (leAt bs r 48) (leAt bs s 48)

/-- The result of checking an image: BAD_IMAGE for its header or hash, BAD_SIGNATURE, ROLLBACK, or OK. -/
def imageResult (img : List Byte) (floor : Nat) : Nat :=
  let n := leAt img 0xC 4
  let head := leAt img 0 4 == 0x57465453 && leAt img 4 2 == 1 && leAt img 0x18 2 == 0x4816 && leAt img 0x1A 1 == 0xB1 && within 0x100 n slotBytes
    && decide (n ≤ img.length) && zeroAt img 6 2 && zeroAt img 0x1B 37 && zeroAt img 0xD0 48
  if !head then 1
  else if !rootSigned img 0x70 0xA0 0x70 then 2
  else if leAt img 0x40 48 ≠ beNat (Crypto.sha384 ((img.take n).drop 0x100)) then 1
  else if leAt img 8 4 < floor then 3
  else 0

/-- The floor of an image's version: that of the block and that of the record in force. -/
def fwFloorOf (b : Bcb) (record : List Byte) : Nat := max b.fwFloor (leAt record 0x30 4)

/-! ### Configuration records (R454, R455) -/

/-- Bytes of a record. -/
def recordBytes : Nat := 0x560

/-- What a record's check finds: OK, BAD_IMAGE for its form, BAD_SIGNATURE, ROLLBACK, BINDING. `id` is the digest of the identity public key. -/
def recordResult (r : List Byte) (floor : Nat) (id : Option Nat) : Nat :=
  let form := leAt r 0 4 == 0x52474643 && leAt r 4 2 == 1 && leAt r 6 2 == 0x560 && decide (leAt r 0xC 1 < 8) && decide (leAt r 0xD 1 < 3)
    && within 1 (leAt r 0xE 1) 8 && decide (leAt r 0xF 1 < 16) && within 60000 (leAt r 0x2C 4) 220000 && decide (leAt r 0x38 4 < 2)
    && zeroAt r 0x3C 4 && zeroAt r 0x70 16 && decide (recordBytes ≤ r.length)
  let binding := leAt r 0x40 48
  if !form then 1
  else if !rootSigned r 0x500 0x530 0x500 then 2
  else if leAt r 8 4 < floor then 3
  else if binding ≠ 0 ∧ id ≠ some binding then 7
  else 0

/-- The digest of the identity public key, x then y (R454, R457). -/
def Dev.identityDigest (d : Dev) : Option Nat := d.stew.idKey.map fun k => beNat (Crypto.sha384 (leBytes 48 k.2.1 ++ leBytes 48 k.2.2))

/-- A copy of the record in the flash. -/
def Kept.recordCopy (k : Kept) (copy : Nat) : List Byte := k.flashRead (copy * 0x10000) recordBytes

/-! ### Opcodes (R446, R447) -/

/-- By opcode: the argument bytes that a command has, as (first, count); none for an opcode that does not exist. -/
def opArgs (op : Nat) : Option (List (Nat × Nat)) :=
  match op with
  | 0x01 => some [(8, 16)]
  | 0x02 => some [(8, 8)]
  | 0x03 => some []
  | 0x04 => some []
  | 0x05 => some [(8, 16)]
  | 0x10 => some [(8, 4)]
  | 0x20 => some [(8, 4)]
  | 0x30 => some [(8, 20)]
  | 0x40 => some [(8, 12)]
  | 0x41 => some []
  | 0x42 => some []
  | 0x50 => some [(8, 8)]
  | 0x60 => some [(8, 40)]
  | 0x70 => some [(8, 3), (12, 12)]
  | 0x71 => some [(8, 1), (12, 12)]
  | 0x80 => some []
  | _ => none

/-- The opcodes that a mode serves. -/
def modeServes (mode op : Nat) : Bool :=
  [0x40, 0x41, 0x60, 0x80].contains op || (mode == 1 && [0x50, 0x30, 0x42].contains op) || mode == 2

/-- A reserved byte of a command is not zero. -/
def reservedSet (c : List Byte) (args : List (Nat × Nat)) : Bool :=
  let used := fun (i : Nat) => decide (i < 2) || within 4 i 7 || args.any fun a => decide (a.1 ≤ i) && decide (i < a.1 + a.2)
  (List.range 64).any fun i => !used i && c.getD i 0 != 0

/-- A CTX command's arguments: 12-bit ID, a command of R362, a slot below 64. -/
def ctxArgsOk (c : List Byte) : Bool := decide (leAt c 8 2 < 4096) && within 1 (leAt c 10 1) 5 && decide (leAt c 11 1 < 64)

/-- Take the oldest command: it is refused at once, or it runs; a CTX command waits for a context command that runs (R362). -/
def Dev.mailboxTake (d : Dev) : Dev :=
  match d.stew.running, d.stew.queue with
  | none, c :: rest =>
    let op := leAt c.bytes 0 2
    let ctx := op == 0x10 && d.getF F.STEW_STATUS_mode == 2
    if ctx && d.ctxCmd.isSome then d
    else
      let d := d.updStew fun x => { x with queue := rest, running := some c }
      match opArgs op with
      | none => d.respond 0xF1
      | some args =>
        if !modeServes (d.getF F.STEW_STATUS_mode) op then d.respond 0xF3
        else if reservedSet c.bytes args then d.respond 0xF2
        else if op ≠ 0x10 then d
        else if ctxArgsOk c.bytes then d.ctxCmdStart (leAt c.bytes 10 1) (leAt c.bytes 8 2) (leAt c.bytes 11 1) .mbox
        else d.respond 0xF2
  | _, _ => d

/-- MAILBOX_SLICE (R442, R444–R447): in its slice, or at any time in mode ROM, the Steward takes the next command. -/
def execMailboxSlice (s : State) : Host.Outcome State Fault Refusal :=
  s.withDev fun d =>
    if d.mailboxTime then d.trapEntryDone.mailboxTake else d

/-! ### Commands -/

/-- POWER_CAP (R53, R446, R488). -/
def execPowerCap (s : State) : Host.Outcome State Fault Refusal :=
  s.withDev fun d =>
    match d.serves 0x20 with
    | none => d
    | some c =>
      let mw := leAt c 8 4
      if !within 60000 mw 220000 then d.respond 0xF2
      else if d.locked && decide (mw < d.header 0x3C 4) then d.respond 0x0A
      else (d.setF F.PWR_CAP_mw mw).respond 0

/-- The entries of the log from a sequence on, below `next`, at most `n`, as (sequence, bytes). -/
def Kept.logFrom (k : Kept) (first next n : Nat) : List (Nat × List Byte) :=
  let lo := max first (next - logPlaces)
  (((List.range (next - lo)).map fun i =>
    let q := lo + i
    (q, k.flashRead (logBase + q % logPlaces * 64) 64)).filter fun x => logSeqOf x.2 == some x.1).take n

/-- LOG_READ (R446): the count and the next sequence are answered. -/
def execLogRead (s : State) : Host.Outcome State Fault Refusal :=
  s.withDev fun d =>
    match d.serves 0x30 with
    | none => d
    | some c =>
      let first := leAt c 16 8
      let es := s.kept.logFrom first (d.reg R.STEW_LOG_SEQ).toNat (leAt c 24 4)
      let next := match es.getLast? with
        | some e => e.1 + 1
        | none => first
      let bs := es.flatMap (·.2)
      match d.mgmtWriteEach 23 0x5F false (leAt c 8 8) bs with
      | (d, none) => d.respond 0 (leBytes 4 es.length ++ leBytes 4 0 ++ leBytes 8 next)
      | (d, some _) => d.respond 0xF4

/-- An update's record and log entry (R460, R462). -/
def Dev.updateNote (d : Dev) (op reason : Nat) : Dev := (d.stewEvent 0x0C06 op reason).stewNote 3 [op, reason]

/-- The boot control block in force; before a first one has been written, one with slot A active (log 56). -/
def State.bcbNow (s : State) : Bcb := (s.kept.bcb s.dev.stew.bootKey).elim {} (·.2)

/-- UPDATE_STAGE (R450, R452): the image goes to the slot that is neither active nor trial and is read back. While a trial is set both slots
are taken, and the answer, which the spec does not give, is free (log 6). -/
def execUpdateStage (s : State) : Host.Outcome State Fault Refusal :=
  match s.dev.serves 0x40 with
  | none => .next s
  | some c =>
    let n := leAt c 16 4
    let b := s.bcbNow
    if slotBytes < n then .next (s.upd fun d => d.respond 0xF2)
    else match s.dev.mgmtRead 23 0x5F false (leAt c 8 8) n with
      | (d, .error _) => .next { s with dev := d.respond 0xF4 }
      | (d, .ok img) =>
        let floor := fwFloorOf b d.stew.record
        let r := imageResult img floor
        if r ≠ 0 then .next { s with dev := d.respond r }
        else if b.trial ≠ 0xFF then
          let (v, d) := d.fresh
          .next { s with dev := d.respond (v % 256) }
        else
          let at' := slotAt (1 - b.active)
          let k := (s.kept.flashErase at' slotBytes).flashWrite at' (img.take (leAt img 0xC 4))
          let ok := imageResult (k.flashRead at' (leAt img 0xC 4)) floor == 0
          let d := d.updStew fun x => { x with staged := ok }
          .next { s with kept := k, dev := if ok then (d.updateNote 0x40 1).respond 0 else d.respond 4 }

/-- UPDATE_ACTIVATE (R452): the staged slot gets three trial boots. Without a boot key no block can be written. -/
def execUpdateActivate (s : State) : Host.Outcome State Fault Refusal :=
  match s.dev.serves 0x41 with
  | none => .next s
  | some _ =>
    let b := s.bcbNow
    if !s.dev.stew.staged || b.trial != 0xFF then .next (s.upd fun d => d.respond 5)
    else if s.dev.stew.bootKey.isEmpty then .next (s.upd fun d => d.respond 4)
    else
      let k := s.kept.putBcb s.dev.stew.bootKey { b with trial := 1 - b.active, left := 3 }
      let d := s.dev.updStew fun x => { x with staged := false }
      .next { s with kept := k, dev := (d.updateNote 0x41 2).respond 0 }

/-- UPDATE_CONFIRM (R452): the running trial slot becomes active, and the floor rises to its version. -/
def execUpdateConfirm (s : State) : Host.Outcome State Fault Refusal :=
  match s.dev.serves 0x42 with
  | none => .next s
  | some _ =>
    let b := s.bcbNow
    if !s.dev.flag F.STEW_STATUS_trial then .next (s.upd fun d => d.respond 6)
    else
      let v := leAt s.dev.stew.fwHeader 8 4
      let k := s.kept.putBcb s.dev.stew.bootKey { b with active := s.dev.getF F.STEW_STATUS_slot, trial := 0xFF, left := 0, fwFloor := max b.fwFloor v }
      .next { s with kept := k, dev := ((s.dev.setB F.STEW_STATUS_trial false).updateNote 0x42 3).respond 0 }

/-- CONFIG_WRITE (R455): the record is checked, must be newer than the one in force, and goes to the other copy. -/
def execConfigWrite (s : State) : Host.Outcome State Fault Refusal :=
  match s.dev.serves 0x50 with
  | none => .next s
  | some c =>
    match s.dev.mgmtRead 23 0x5F false (leAt c 8 8) recordBytes with
    | (d, .error _) => .next { s with dev := d.respond 0xF4 }
    | (d, .ok r) =>
      let res := recordResult r s.bcbNow.cfgFloor d.identityDigest
      let old := !d.stew.record.isEmpty && decide (leAt r 8 4 ≤ leAt d.stew.record 8 4)
      if res = 1 ∨ res = 2 then .next { s with dev := d.respond res }
      else if old then .next { s with dev := d.respond 3 }
      else if res ≠ 0 then .next { s with dev := d.respond res }
      else
        let at' := (1 - d.getF F.STEW_STATUS_cfg_copy) * 0x10000
        let k := (s.kept.flashErase at' 0x10000).flashWrite at' (r.take recordBytes)
        .next { s with kept := k, dev := (d.stewNote 4 [leAt r 8 4]).respond 0 }

/-- A digest as a stored integer (R448). -/
def digestBytes (bs : List Byte) : List Byte := leBytes 48 (beNat (Crypto.sha384 bs))

/-- Plan state as a quote gives it. -/
def PlanPhase.code : PlanPhase → Nat
  | .empty => 0
  | .loaded => 1
  | .locked => 2

/-- The signed part of a quote (R457). What a device has none of (an image in mode ROM, a record, a plan) reads zero (log 57). -/
def Dev.quoteBody (d : Dev) (nonce pub : List Byte) : List Byte :=
  let hash := fun (bs : List Byte) (n : Nat) => if bs.isEmpty then List.replicate 48 0 else digestBytes (bs.take n)
  leBytes 4 0x544F5551 ++ leBytes 2 1 ++ leBytes 2 0x170 ++ nonce ++ leBytes 8 d.devNs ++ leBytes 2 (d.getF F.TOP_ID_part)
    ++ leBytes 1 (d.getF F.TOP_ID_stepping) ++ leBytes 1 d.plan.phase.code ++ leBytes 4 (d.getF F.STEW_FW_VERSION_version)
    ++ leBytes 4 (d.getF F.STEW_CFG_VERSION_version) ++ leBytes 4 (d.header 0x20 4) ++ leBytes 8 (d.header 0x18 8) ++ leBytes 8 0
    ++ hash d.stew.fwHeader 0x70 ++ hash d.stew.record 0x500 ++ hash d.plan.header 0x130 ++ digestBytes pub

/-- ATTEST (R456, R457): a quote is signed by the identity key and written. -/
def execAttest (s : State) : Host.Outcome State Fault Refusal :=
  s.withDev fun d =>
    match d.serves 0x60, d.stew.idKey with
    | none, _ => d
    | some _, none => d.respond 8
    | some c, some (key, x, y) =>
      let body := d.quoteBody (fitBytes 32 (c.drop 8)) (leBytes 48 x ++ leBytes 48 y)
      let (r, t) := Crypto.sign key (Crypto.sha384 body)
      match d.mgmtWriteEach 23 0x5F false (leAt c 40 8) (body ++ leBytes 48 r ++ leBytes 48 t) with
      | (d, none) => d.respond 0
      | (d, some _) => d.respond 0xF4

/-- Data bytes of a DLC (ISO 11898-1, as R173 takes it). -/
def dlcBytes (fd : Bool) (dlc : Nat) : Nat :=
  if dlc ≤ 8 then dlc else if !fd then 8 else [12, 16, 20, 24, 32, 48, 64].getD (dlc - 9) 64

/-- A frame of the controller has gone out on its CAN bus (R173; the counting is ISO 11898-1's, log 61). -/
def Dev.canSent (d : Dev) (k : Nat) (f : CanFrame) : Dev :=
  (d.setCan k (d.getF (F.GATE_CAN_CTL_tec k) - 1) (d.getF (F.GATE_CAN_CTL_rec k))).emit (.canFrame k f)

/-- CAN_SEND (R173, R446). Attempts that end in an error frame come before it as CAN_FRAME_RECEIVE (log 61). -/
def execCanSend (s : State) : Host.Outcome State Fault Refusal :=
  s.withDev fun d =>
    match d.serves 0x70 with
    | none => d
    | some c =>
      let k := leAt c 8 1
      let fl := leAt c 9 1
      let ext := fl.testBit 0
      let id := leAt c 12 4
      if decide (2 ≤ k) || decide (8 ≤ fl) || decide (16 ≤ leAt c 10 1) || decide ((if ext then 2 ^ 29 else 2 ^ 11) ≤ id) then d.respond 0xF2
      else if !d.gateStatus.testBit (12 + k) then d.respond 9
      else match d.mgmtRead 23 0x5F false (leAt c 16 8) (dlcBytes (fl.testBit 1) (leAt c 10 1)) with
        | (d, .error _) => d.respond 0xF4
        | (d, .ok bs) =>
          (d.canSent k ⟨BitVec.ofNat 29 id, ext, fl.testBit 1, fl.testBit 2, false, BitVec.ofNat 4 (leAt c 10 1), bs, true, true⟩).respond 0

/-- ETH_SEND (R446). -/
def execEthSend (s : State) : Host.Outcome State Fault Refusal :=
  s.withDev fun d =>
    match d.serves 0x71 with
    | none => d
    | some c =>
      let p := leAt c 8 1
      let n := leAt c 12 4
      if decide (4 ≤ p) || !within 60 n 9216 then d.respond 0xF2
      else if !(d.getF F.GATE_STATUS_eth_up).testBit p then d.respond 0x0A
      else match d.mgmtRead 23 0x5F false (leAt c 16 8) n with
        | (d, .error _) => d.respond 0xF4
        | (d, .ok bs) => (d.emit (.ethFrame p bs)).respond 0

/-- DEVICE_RECOVER (R446, R467): the response is sent, then the recovery is requested. -/
def execDeviceRecover (s : State) : Host.Outcome State Fault Refusal :=
  if (s.dev.serves 0x80).isSome then .next ((s.upd fun d => d.respond 0).reeveRequest 31 6 0) else .next s

end Sys2Proof.Machine
end

