-- ==== Sys2Proof/Machine/Boot.lean ====
section
/-! DEFINITION. The Steward's boot (R451, R454–R456, R498), its housekeeping slice (R442, R468, R471), and the discovery of identity
memories (R184, R185, R187). -/

namespace Sys2Proof.Machine

/-! ### Identity (R456) -/

/-- The bytes of a label. -/
def asciiBytes (s : String) : List Byte := s.toList.map fun c => BitVec.ofNat 8 c.toNat

/-- Step 1: the identity from the PUF array and its helper data. -/
def State.bootIdentity (s : State) : State :=
  match Config.pufSeed (s.kept.flashRead 0x28000 0x8000) with
  | none => s.upd fun d => ((d.setB F.STEW_STATUS_identity_ok false).updStew fun x => { x with idKey := none, bootKey := [] }).stewEvent 0x0C09 0 0
  | some seed =>
    let key := leNat (Crypto.hkdf seed (asciiBytes "ZS4816 ID")) % (Crypto.nMod - 1) + 1
    let pub := Crypto.publicKey key
    s.upd fun d => (d.setB F.STEW_STATUS_identity_ok true).updStew fun x =>
      { x with idKey := some (key, pub.1, pub.2), bootKey := Crypto.hkdf seed (asciiBytes "ZS4816 BOOT") }

/-! ### The choice of a slot (R451 steps 2 and 3) -/

/-- The outcome of step 2 on a block: the block afterwards when it changes, the slot chosen, and whether the trial fell back. -/
def Bcb.choose (b : Bcb) : Option Bcb × Nat × Bool :=
  if b.trial = 0xFF then (none, b.active, false)
  else if 0 < b.left then (some { b with left := b.left - 1 }, b.trial, false)
  else (some { b with trial := 0xFF }, b.active, true)

/-- The record that step 4 will apply, with its copy: the valid one of the higher version (R455). -/
def State.bestRecord (s : State) (floor : Nat) : Option (Nat × List Byte) :=
  let ok := fun (c : Nat) => recordResult (s.kept.recordCopy c) floor s.dev.identityDigest == 0
  let ver := fun (c : Nat) => leAt (s.kept.recordCopy c) 8 4
  if ok 0 && ok 1 then (if ver 0 < ver 1 then some (1, s.kept.recordCopy 1) else some (0, s.kept.recordCopy 0))
  else if ok 0 then some (0, s.kept.recordCopy 0)
  else if ok 1 then some (1, s.kept.recordCopy 1)
  else none

/-- The image in a slot. -/
def Kept.slotImage (k : Kept) (slot : Nat) : List Byte := k.flashRead (slotAt slot) (min slotBytes (max 256 (leAt (k.flashRead (slotAt slot) 16) 0xC 4)))

/-! ### Applying the record (R454, R455, R488, R498, R524) -/

/-- Step 4: the registers that the record loads. -/
def Dev.applyRecord (d : Dev) (copy : Nat) (r : List Byte) : Dev :=
  let d := (d.updStew fun x => { x with record := r }).setF F.STEW_STATUS_cfg_copy copy
  let d := d.setF F.STEW_CFG_VERSION_version (leAt r 8 4)
  let d := (d.setF F.TOP_DEVICE_NUM_device_num (leAt r 0xC 1)).setF F.TOP_DEVICE_NUM_topology (leAt r 0xD 1)
  let d := d.setF F.TOP_DEVICE_NUM_board_size (leAt r 0xE 1)
  let d := (d.setF F.LINK_BOARD_ID_id (leAt r 0x10 8)).setF F.BELL_PTP_CLOCK_ID_id (leAt r 0x18 8)
  let d := (d.setF ⟨R.GATE_ID_POLICY, 0, 16⟩ (leAt r 0x20 2)).setF F.PWR_CAP_mw (leAt r 0x2C 4)
  let d := if (leAt r 0x38 4).testBit 0 then d else d.setB F.HOST_STATUS_usb_up false
  iter 4 d fun p d =>
    let old := d.flag (F.LINK_PORT_CTL_enable p)
    (d.setF (F.LINK_PORT_CTL_enable p) (b2n ((leAt r 0xF 1).testBit p))).linkCtlWritten p old false

/-- The log goes on after its highest sequence, and the boot entry is queued, with the cause and sequence of a dump that the device holds (R460,
R478). -/
def State.bootLog (s : State) : State :=
  let (seq, boots) := s.kept.logResume
  let facts := if s.kept.dumpValid then [leAt s.kept.dump 6 1, s.kept.dumpSeq] else []
  s.upd fun d =>
    ((d.setReg R.STEW_LOG_SEQ (BitVec.ofNat 64 seq)).updStew fun x => { x with bootCount := (boots + 1) % 2 ^ 32 }).stewNote 1 facts

/-- Steps 4 and 5 (R451, R454, R468): the record is applied, or the firmware stays in mode RECOVERY; the frames begin. -/
def State.bootRecord (s : State) (b : Bcb) (fw : Nat) : State :=
  let s := (List.range 2).foldl (fun (s : State) c =>
    if recordResult (s.kept.recordCopy c) b.cfgFloor s.dev.identityDigest = 7 then s.upd fun d => d.stewEvent 0x0C02 0 3 else s) s
  let s := s.bootLog
  let s := s.upd fun d =>
    let d := (d.setF F.HEDGE_MGMT_ROOT_root Config.mgmtRoot).mgmtDefault
    (d.updHost fun h => { h with loaded := !h.perst }).updStew fun x => { x with frames := [(3, d.frameNo)].filter fun e => e.2 != 0 }
  match s.bestRecord b.cfgFloor with
  | none => s.upd fun d => ((d.setF F.STEW_STATUS_mode 1).stewEvent 0x0C02 0 2).stewEvent 0x0C01 0 1 fw
  | some (copy, r) =>
    let v := leAt r 8 4
    let k := if b.cfgFloor < v then s.kept.putBcb s.dev.stew.bootKey { b with cfgFloor := v } else s.kept
    let d := (s.dev.applyRecord copy r).setF F.STEW_STATUS_mode 2
    let d := ((d.stewEvent 0x0C02 0 1).stewNote 4 [v]).stewEvent 0x0C01 0 2 fw
    let d := (d.setB F.TOP_STATUS_steward_ready true).updReeve fun x => { x with ready := true, kick := d.clk }
    let d := (d.setB F.GATE_STATUS_discovery_busy true).updGate fun g => { g with discovering := 0xFF }
    { s with kept := k, dev := d }

/-- No slot or no block is valid: the ROM stays in mode ROM, and the configuration space takes its default IDs (R451, R498). -/
def Dev.bootRom (d : Dev) : Dev := ((d.setF F.STEW_STATUS_mode 0).stewEvent 0x0C01 0 0).updHost fun h => { h with loaded := !h.perst }

/-- The Steward's RAM with an image at its start (R451 step 3); the rest reads zero (log 96). -/
def ramOf (img : List Byte) : SMap (BitVec 8) :=
  ((List.range img.length).zip img).filter fun x => x.2 != 0

/-- The image that runs: its header and slot; it lies in RAM, and the code starts at the header's entry (R450, R451). -/
def Dev.runImage (d : Dev) (slot : Nat) (trial : Bool) (img : List Byte) : Dev :=
  let head := img.take 256
  let d := (d.setF F.STEW_STATUS_slot slot).setB F.STEW_STATUS_trial trial
  let d := (d.setF F.STEW_FW_VERSION_version (leAt head 8 4)).updStew fun x => { x with fwHeader := head, ram := ramOf img }
  d.updPlough stewCore fun _ => { pc := Config.stewRam + leAt head 0x10 4 }

/-- Steps 2 and 3: the block, the slot, the image. -/
def State.bootImage (s : State) : State :=
  match s.kept.bcb s.dev.stew.bootKey with
  | none => s.upd Dev.bootRom
  | some (_, b0) =>
    let (changed, first, fell) := b0.choose
    let b := changed.getD b0
    let s := match changed with
      | some b => { s with kept := s.kept.putBcb s.dev.stew.bootKey b }
      | none => s
    let s := if fell then s.upd fun d => d.updateNote 0 4 else s
    let floor := fwFloorOf b ((s.bestRecord b.cfgFloor).elim [] (·.2))
    let ok := fun (slot : Nat) => imageResult (s.kept.slotImage slot) floor == 0
    let run := fun (s : State) (slot : Nat) =>
      let img := s.kept.slotImage slot
      (s.upd fun d => d.runImage slot (b0.trial == slot && !fell) img).bootRecord b (leAt img 8 4)
    if ok first then run s first
    else
      let s := s.upd fun d => d.updateNote 0 5
      if ok (1 - first) then run s (1 - first) else s.upd Dev.bootRom

/-- STEWARD_BOOT (R451, R497): once after each device reset, with the switched domains on. -/
def execStewardBoot (s : State) : Host.Outcome State Fault Refusal :=
  if !s.dev.pwr.good || !s.dev.pwr.started || s.dev.stew.booted || s.dev.stew.halted then .next s
  else .next ((s.upd fun d => d.updStew fun x => { x with booted := true }).bootIdentity).bootImage

/-! ### The housekeeping slice -/

/-- A suspect whose fence is complete takes its next generation, or is retired when none is left (R471). -/
def Dev.renewOne (d : Dev) (x : Nat × Bool) : Dev :=
  let id := x.1
  if !d.hedge.fences.any fun f => f.ctx == id && f.step == 4 then d
  else
    let d := d.updStew fun y => { y with renew := y.renew.filter fun e => e.1 != id }
    if x.2 then
      let part := b2n ((d.ctxOf id).life == .resident)
      (d.updCtx id fun c => { c with usage := c.usage.set 1 part, life := .retiring, retStep := 2 }).retireGo id
    else
      let d := d.updCtx id fun c => { c with gen := c.gen + 1, vtCur := 0, vtPend := 0, vtPrev := 0, vtReg := none, outcast := false, recoverOn := List.range 16, entryOn := [] }
      (d.writeCtxEntry id true).unfence id

/-- The frame whose housekeeping slice has begun last, and the device time at which it began. -/
def Dev.hkFrame (d : Dev) : Option (Nat × Nat) :=
  let f := d.frameNo
  if 950000 ≤ d.devNs % 1000000 then some (f, f * 1000000 + 950000)
  else if f = 0 then none
  else some (f - 1, (f - 1) * 1000000 + 950000)

/-- HOUSEKEEPING_SLICE (R442, R468, R471): a slice that begins later than one S clock after its time is counted and reported; generations are
written; the kick feeds the watchdog. -/
def execHousekeepingSlice (s : State) : Host.Outcome State Fault Refusal :=
  s.withDev fun d =>
    match d.hkFrame with
    | none => d
    | some (f, start) =>
      if !d.firmware || SMap.get (fun _ => 0) d.stew.frames 3 == f + 1 then d
      else
        let late := decide (start + 3 ≤ d.devNs)
        let d := d.sliceDone .housekeeping f
        let d := if late then (d.bump R.STEW_FRAME_LATE).stewEvent 0x0C08 0 0 else d
        let d := d.stew.renew.foldl (fun (d : Dev) x => d.renewOne x) d
        d.updReeve fun x => { x with kick := d.clk }

/-! ### Discovery (R184, R185, R187) -/

/-- The policy of a bus: 0 IGNORE, 1 REQUIRE_SIGNED, 2 ALLOW_UNSIGNED. -/
def Dev.idPolicy (d : Dev) (bus : Nat) : Nat :=
  let p := field (d.getF F.GATE_ID_POLICY_policy) (2 * bus) 2
  if p = 3 then 1 else p

/-- The entries of an entry area fit in it. -/
def tlvOk : Nat → List Byte → Bool
  | 0, _ => true
  | fuel + 1, bs =>
    if bs.isEmpty then true
    else
      let n := 4 + (leAt bs 2 2 + 3) / 4 * 4
      decide (4 ≤ bs.length) && decide (n ≤ bs.length) && tlvOk fuel (bs.drop n)

/-- Step 2: magic, version, length and the entry area of a record. -/
def recordForm (b : List Byte) : Bool :=
  let n := leAt b 6 2
  let o := leAt b 0x48 2
  let l := leAt b 0x4A 2
  leAt b 0 4 == 0x52495357 && leAt b 4 2 == 1 && within 256 n 2048 && n % 4 == 0 && decide (n ≤ b.length) && decide (0x50 ≤ o)
    && decide (o + l + 96 ≤ n) && tlvOk 512 ((b.drop o).take l)

/-- The state of a record read (R185): 1 VERIFIED, 2 UNSIGNED, 3 FAILED. -/
def Dev.recordState (d : Dev) (policy : Nat) (b : List Byte) : Nat :=
  let n := leAt b 6 2
  let slot := leAt b 0xB 1
  if !recordForm b then 3
  else if slot = 0xFF then (if policy = 2 && zeroAt b (n - 96) 96 then 2 else 3)
  else
    let key := (d.stew.record.drop (0x200 + 96 * slot)).take 96
    if slot < 8 && !(key.all (· == 0))
        && Crypto.verify (leAt key 0 48, leAt key 48 48) (Crypto.sha384 (b.take (n - 96))) (leAt b (n - 96) 48) (leAt b (n - 48) 48) then 1
    else 3

/-- One address of a bus is probed. -/
def Dev.probeId (d : Dev) (bus addr : Nat) (found : Option (List Byte)) : Dev :=
  let k := bus * 8 + addr
  match found with
  | none => d.updGate fun g => { g with ids := SMap.set (fun _ => {}) g.ids k {} }
  | some b =>
    let st := d.recordState (d.idPolicy bus) b
    let b := b.take (if recordForm b then leAt b 6 2 else 2048)
    let serial := (b.drop 0x18).take 16
    let was := SMap.get (fun _ => []) d.gate.serials k
    let d := d.updGate fun g => { g with ids := SMap.set (fun _ => {}) g.ids k ⟨st, b⟩, serials := SMap.set (fun _ => []) g.serials k serial }
    let kind := leAt b 9 1
    let d := d.raise 0x010A bus 0 0 (dAt 24 1 kind + dAt 25 1 st + dAt 26 1 (0x50 + addr))
    if was ≠ [] ∧ was ≠ serial then d.raise 0x010B bus 0 0 (dAt 24 1 kind + dAt 25 1 (0x50 + addr)) else d

/-- DISCOVERY (R185), in a housekeeping slice (R442): the running discovery probes every address of its buses, IGNORE apart, with what each identity memory answers, as
(bus, address, bytes). -/
def execDiscovery (found : List (Nat × Nat × List Byte)) (s : State) : Host.Outcome State Fault Refusal :=
  s.withDev fun d =>
    if !d.flag F.GATE_STATUS_discovery_busy || !d.sliceOpen .housekeeping then d
    else
      let buses := (List.range 8).filter fun b => d.gate.discovering.testBit b && d.idPolicy b != 0
      let d := buses.foldl (fun (d : Dev) b => iter 8 d fun a d =>
        d.probeId b a ((found.find? fun x => x.1 == b && x.2.1 == a).map fun x => x.2.2)) d
      (d.setB F.GATE_STATUS_discovery_busy false).setB F.GATE_STATUS_discovery_done true

end Sys2Proof.Machine
end

