-- ==== Sys2Proof/Machine/HostAccess.lean ====
section
/-! DEFINITION. What reaches the host attachment from outside: PERST_N, USB attach, configuration requests, BAR accesses (R417–R421, R428,
R491, R498). -/

namespace Sys2Proof.Machine

/-! ### PERST_N and USB -/

/-- PERST (R418, R491, R498): a falling edge resets the host attachment, ends standby and releases WAKE_N; after a rising edge the
configuration space is loaded once the Steward has booted. -/
def execPerst (low : Bool) (s : State) : Host.Outcome State Fault Refusal :=
  s.withDev fun d =>
    if low then
      if d.host.perst then d
      else ((d.hostReset.updHost fun h => { h with perst := true, loaded := false }).standbyLeave false true).wakeRelease
    else d.updHost fun h => { h with perst := false, loaded := h.loaded || d.stew.booted }

/-- The configuration record in force enables the service port; without a record it is enabled (R454). -/
def Dev.usbEnabled (d : Dev) : Bool := d.stew.record.isEmpty || (leAt d.stew.record 0x38 4).testBit 0

/-- USB_ATTACH (R428, R491): in standby it ends standby; else the port comes up at a speed. -/
def execUsbAttach (speed : BitVec 2) (s : State) : Host.Outcome State Fault Refusal :=
  s.withDev fun d =>
    if !d.pwr.good then d
    else if d.inStandby then d.standbyLeave true true
    else if d.domainOn 32 && d.usbEnabled then (d.setB F.HOST_STATUS_usb_up true).setF F.HOST_STATUS_usb_speed speed.toNat
    else d

/-! ### The configuration space (R417, R498; its layout is PCI Express's, log 42) -/

/-- The 16-bit IDs: vendor, subsystem vendor, subsystem, from the record in force or Wyduken's default. -/
def Dev.pciIds (d : Dev) : Nat := if d.stew.record.isEmpty then Config.defaultIds else leAt d.stew.record 0x22 6

/-- The address bits of a BAR word: 64 MiB for BAR0 and BAR2, 64 GiB for BAR4. -/
def barMask (w : Nat) : Nat :=
  match w with
  | 4 => 0xFC000000
  | 6 => 0xFC000000
  | 8 => 0
  | 9 => 0xFFFFFFF0
  | _ => 0xFFFFFFFF

/-- A word as a read gives it. -/
def Dev.cfgRead (d : Dev) (w : Nat) : Nat :=
  let v := SMap.get (fun _ => 0) d.host.cfg w
  match w with
  | 0 => field d.pciIds 0 16 + 0x48160000
  | 1 => v + 0x100000
  | 2 => 0x120000B1
  | 3 => 0
  | 4 => v + 4
  | 5 => v
  | 6 => v + 4
  | 7 => v
  | 8 => v + 12
  | 9 => v
  | 0xB => field d.pciIds 16 32
  | 0xF => v
  | 0x11 => v
  | 0x41 => v
  | _ => Config.cfgWord w v % 2 ^ 32

/-- What a write leaves in a word: the command bits, BAR addresses, the interrupt line, D0 or D3hot, AER's write-1-to-clear bits. -/
def cfgStore (w old v : Nat) : Nat :=
  if w = 1 then v &&& 0x546
  else if 4 ≤ w ∧ w ≤ 9 then v &&& barMask w
  else if w = 0xF then v % 256
  else if w = 0x11 then (if v % 4 = 0 ∨ v % 4 = 3 then v % 4 else old)
  else if w = 0x41 then old - (old &&& v)
  else v

/-- The function is in D0. -/
def Dev.inD0 (d : Dev) : Bool := SMap.get (fun _ => 0) d.host.cfg 0x11 == 0

/-- CONFIGURATION_REQUEST (R417, R498): Retry Status until the space is loaded, then served. -/
def execConfigurationRequest (req : CfgReq) (s : State) : Host.Outcome State Fault Refusal :=
  s.withDev fun d =>
    if !d.flag F.HOST_STATUS_link_up then d
    else if !d.host.loaded then d.emit (.cfg none)
    else match req with
      | .read o => d.emit (.cfg (some (BitVec.ofNat 32 (d.cfgRead (o.toNat / 4)))))
      | .write o v =>
        let w := o.toNat / 4
        d.updHost fun h => { h with cfg := SMap.set (fun _ => 0) h.cfg w (cfgStore w (SMap.get (fun _ => 0) h.cfg w) v.toNat) }

/-! ### BAR accesses (R419–R421, R498) -/

/-- A BAR access reaches the function: link up, space loaded, D0, inside the BAR. -/
def Dev.barReaches (d : Dev) (bar offset len : Nat) : Bool :=
  let size := if bar = 4 then 2 ^ 36 else 2 ^ 26
  d.flag F.HOST_STATUS_link_up && d.host.loaded && d.inD0 && [0, 2, 4].contains bar && decide (1 ≤ len) && decide (offset + len ≤ size)

/-- In mode RUN, BAR2 and BAR4 are served. -/
def Dev.windowsOn (d : Dev) : Bool := d.getF F.STEW_STATUS_mode == 2

/-- BAR_READ (R420, R421, R498). -/
def execBarRead (bar : BitVec 3) (offset len : Nat) (s : State) : Host.Outcome State Fault Refusal :=
  if !s.dev.barReaches bar.toNat offset len then .next s
  else if bar.toNat = 0 then
    let r := s.busRead .pcie offset len
    .next (r.1.upd fun d => (d.emit (.barData (leBytes len r.2))).summaryCheck)
  else s.withDev fun d =>
    if d.windowsOn then d.barAccess ((d.barWindow bar.toNat).1 + offset) len none else d.emit (.barData (List.replicate len 0))

/-- BAR_WRITE (R420, R421, R498). -/
def execBarWrite (bar : BitVec 3) (offset : Nat) (bytes : List Byte) (s : State) : Host.Outcome State Fault Refusal :=
  if !s.dev.barReaches bar.toNat offset bytes.length then .next s
  else if bar.toNat = 0 then .next (s.busWrite .pcie offset bytes.length (leNat bytes))
  else s.withDev fun d =>
    if d.windowsOn then d.barAccess ((d.barWindow bar.toNat).1 + offset) bytes.length (some bytes) else d

end Sys2Proof.Machine
end

