-- ==== Sys2Proof/Machine/Matrix.lean ====
section
/-! DEFINITION. The matrix unit: operand loads VLDT and MLDW, MMA, MDRAIN and the store path (R116–R133). -/

namespace Sys2Proof.Machine

/-- Elements of one step of a format (R116); 0 for a format that is no matrix operand. -/
def stepK (fmt : Nat) : Nat :=
  match fmt with
  | 1 => 64 | 2 => 64 | 3 => 128 | 4 => 128 | 10 => 128 | 5 => 256 | 6 => 256 | 7 => 256 | 11 => 256 | _ => 0

/-- A row bytes of a format (R116). -/
def rowBytes (fmt : Nat) : Nat := stepK fmt * Fp.fmtBits fmt / 8

/-- Rows per v register (R116). -/
def rowsPerV (fmt : Nat) : Nat := if rowBytes fmt = 0 then 0 else 1024 / rowBytes fmt

/-- The descriptor requirements of VLDT and MLDW (R147, R148). -/
def rowMajor2 (t : TDesc) : Bool :=
  t.mode == 0 && t.nd == 2 && t.st 0 == 1 && (!t.mx || t.blockDim == 0) && !t.formatBad

/-- Elements [c0, c0 + n) of row r clipped to the extents: the bit address and number of bits, none when nothing is inside. -/
def rowPiece (t : TDesc) (r c0 n : Nat) : Option (Int × Nat) :=
  let c1 := min (c0 + n) (t.e 0)
  if r < t.e 1 ∧ c0 < c1 then some (t.bitAddr [c0, r], (c1 - c0) * t.width) else none

/-- The byte range of a piece. -/
def pieceBytes (x : Int × Nat) : Nat × Nat := (x.1.toNat / 8, bytesFor (x.1.toNat % 8) x.2)

/-- Translate ranges for an L or M slot: the pieces of each with its address, or the first failing address and reason. -/
def Dev.lxlateAll (d : Dev) (p : Nat) (pl : Plough) (write : Bool) : List (Nat × Nat) → Except (Nat × Nat) (List (Nat × Pieces))
  | [] => .ok []
  | (va, n) :: rest =>
    match d.lxlate p pl va n write with
    | .error r => .error (va, r)
    | .ok ps =>
      match Dev.lxlateAll d p pl write rest with
      | .error e => .error e
      | .ok l => .ok ((va, ps) :: l)

/-- Some range lies in the Barn. -/
def anyBarn (l : List (Nat × Pieces)) : Bool := l.any fun x => x.2.barn

/-- The entries of the pages that ranges touch. -/
def allPtes (l : List (Nat × Pieces)) : List (BitVec 64) := l.flatMap fun x => x.2.map fun y => y.2.2

/-- Read translated ranges for a plough: the bytes of each, and the index of the first range with an uncorrectable word and the word's
address. -/
def Dev.readPieces (d : Dev) (p : Nat) (l : List (Nat × Pieces)) : Dev × List (List Byte) × Option (Nat × Nat) :=
  l.foldl (fun (acc : Dev × List (List Byte) × Option (Nat × Nat)) x =>
    let (d, out, bad) := acc
    let (d, bs, b) := d.readRange p x.1 x.2
    (d, out ++ [bs], bad.orElse fun _ => b.map fun a => (out.length, a))) (d, [], none)

/-- The pieces a VLDT reads: for each row i of the count, its place in the destination (bit offset) and the piece. -/
def vldtPieces (t : TDesc) (rows col count : Nat) (scales : Bool) : List (Nat × Int × Nat) :=
  let k := stepK t.fmt
  (List.range count).flatMap fun i =>
    if scales then
      (List.range (k / 32)).filterMap fun b =>
        let c := col * k + 32 * b
        if rows + i < t.e 1 ∧ c < t.e 0 then some (8 * (8 * i + b), t.scaleAddr [c, rows + i] * 8, 8) else none
    else match rowPiece t (rows + i) (col * k) k with
      | some x => [(8 * (i * rowBytes t.fmt), x.1, x.2)]
      | none => []

/-- The vector that the pieces of a VLDT make: each piece's bits at its place, zero elsewhere. -/
def vldtValue (pcs : List (Nat × Int × Nat)) (bss : List (List Byte)) : BitVec 8192 :=
  BitVec.ofNat 8192 ((pcs.zip bss).foldl (fun acc x => acc + (bitsOf x.2 (x.1.2.1.toNat % 8) x.1.2.2) <<< x.1.1) 0)

/-- VLDT (R119–R121): A rows, or their MX scale bytes, into a vector register. DESIGN CHOICE (log 97): a descriptor whose format is no matrix
operand is ILLEGAL. -/
def execVldt (p : Runner) (l1 : Bool) (w : BitVec 64) (s : State) : Host.Outcome State Fault Refusal :=
  s.withDev fun d => d.ploughRun p (slotL l1) w (zeros w [(0, 30)]) fun v d =>
    let n := p.toNat
    let slot := slotL l1
    let t := tdesc (v.rdD (wf' w 41 5))
    let rs := (v.rdS (wf' w 35 6)).toNat
    let count := wf' w 31 4
    let scales := w.getLsbD 30
    if stepK t.fmt = 0 ∨ count = 0 ∨ rowsPerV t.fmt < count ∨ (scales ∧ !t.mx) then d.plFault n slot illegalF
    else if !rowMajor2 t then d.plFault n slot { code := fDescFormat, b27 := wf' w 41 5 }
    else
      let pcs := vldtPieces t (rs % 2 ^ 32) (rs / 2 ^ 32) count scales
      match d.lxlateAll n (d.plough n) false (pcs.map fun x => pieceBytes (x.2.1, x.2.2)) with
      | .error (va, r) => d.plFault n slot (faultAt fAccess r va)
      | .ok keys =>
        d.takeBarn n slot (anyBarn keys) 2 fun d =>
          d.withProvLoads n slot (fun d =>
            match d.readPieces n keys with
            | (d, _, some (_, a)) => d.plFault n slot (faultAt fEcc 1 a)
            | (d, bss, none) =>
              d.result n slot (latOf (anyBarn keys) 8 48) (.vec (wf' w 46 5) (vldtValue pcs bss)))
            (allPtes keys)

/-- The pieces of a B tile (R119): row k of the tile, columns of the tile; then its scale bytes when block-scaled. -/
def mldwPieces (t : TDesc) (rows col : Nat) : List (Nat × Int × Nat) :=
  (List.range (stepK t.fmt)).filterMap fun k =>
    match rowPiece t (rows * stepK t.fmt + k) (col * 128) 128 with
    | some x => some (k, x.1, x.2)
    | none => none

/-- The scale pieces of a B tile: element (k, c) has the scale of its block along dimension 0. -/
def mldwScales (t : TDesc) (rows col : Nat) : List (Nat × Int × Nat) :=
  if !t.mx then [] else
  (List.range (stepK t.fmt)).flatMap fun k =>
    (List.range 4).filterMap fun b =>
      let r := rows * stepK t.fmt + k
      let c := col * 128 + 32 * b
      if r < t.e 1 ∧ c < t.e 0 then some (4 * k + b, t.scaleAddr [c, r] * 8, 8) else none

/-- Bytes of the elements of a B tile. -/
def tileBytes (t : TDesc) : Nat := stepK t.fmt * 128 * Fp.fmtBits t.fmt / 8

/-- Clocks of the tile's path that MLDW takes (R119, R121): 512 bytes a clock from the Barn, 1,024 from the local store, then the scales. -/
def tileClocks (t : TDesc) (barn : Bool) : Nat :=
  tileBytes t / (if barn then 512 else 1024) + (if t.mx then (if barn then 2 else 1) else 0)

/-- Clocks from issue until the weight buffer is loaded. -/
def tileReady (t : TDesc) (barn : Bool) : Nat := (if barn then 40 else 4) + tileClocks t barn

/-- The weight buffer that the pieces read make. -/
def tileBuf (t : TDesc) (pcs scs : List (Nat × Int × Nat)) (bss : List (List Byte)) (prov : Bool) (poison : Option Nat) : WBuf :=
  let k := stepK t.fmt
  let rows := ((pcs.zip bss).foldl (fun (m : SMap Nat) x => SMap.set (fun _ => 0) m x.1.1 (bitsOf x.2 (x.1.2.1.toNat % 8) x.1.2.2)) [])
  let elems := (List.range k).flatMap fun i =>
    let r := SMap.get (fun _ => 0) rows i
    (List.range 128).map fun c => Fp.elemAt r (Fp.fmtBits t.fmt) c
  let scales := if t.mx then
      let m := ((scs.zip (bss.drop pcs.length)).foldl (fun (m : SMap Nat) x => SMap.set (fun _ => 0) m x.1.1 (leNat x.2)) [])
      (List.range (4 * k)).map fun i => SMap.get (fun _ => 0) m i
    else []
  { loaded := true, fmt := t.fmt, mx := t.mx, elems := elems, scales := scales, prov := prov, poison := poison }

/-- The C clock at which an MLDW that issues at `now` meets what lies `off` bytes into its tile (log 97). -/
def tileMet (barn : Bool) (now off : Nat) : Nat := now + (if barn then 40 + off / 512 else 4 + off / 1024)

/-- The bytes of a B tile before the range of index `i`: an element row, or the scales at its end. -/
def tileOff (t : TDesc) (pcs : List (Nat × Int × Nat)) (i : Nat) : Nat :=
  if i < pcs.length then (pcs[i]?.map fun x => x.1 * 128 * Fp.fmtBits t.fmt / 8).getD 0 else tileBytes t

/-- MLDW (R119–R121, R131): a B tile into a weight buffer. A word that is uncorrectable and is met after the bundle retires poisons
the buffer; one met earlier is a precise fault of the bundle. DESIGN CHOICE (log 97): a descriptor whose format is no matrix operand is ILLEGAL;
the weight path is held for the T clocks from issue; the words are met at the clocks of tileMet, the scale words at the tile's end, and the
data are those of the issue clock. -/
def execMldw (p : Runner) (l1 : Bool) (w : BitVec 64) (s : State) : Host.Outcome State Fault Refusal :=
  s.withDev fun d => d.ploughRun p (slotL l1) w (zeros w [(0, 39)]) fun v d =>
    let n := p.toNat
    let slot := slotL l1
    let wb := wf' w 50 1
    let t := tdesc (v.rdD (wf' w 45 5))
    let rs := (v.rdS (wf' w 39 6)).toNat
    let now := d.cclk
    if stepK t.fmt = 0 then d.plFault n slot illegalF
    else if !rowMajor2 t then d.plFault n slot { code := fDescFormat, b27 := wf' w 45 5 }
    else
      let pcs := mldwPieces t (rs % 2 ^ 32) (rs / 2 ^ 32)
      let scs := mldwScales t (rs % 2 ^ 32) (rs / 2 ^ 32)
      match d.lxlateAll n (d.plough n) false ((pcs ++ scs).map fun x => pieceBytes (x.2.1, x.2.2)) with
      | .error (va, r) => d.plFault n slot (faultAt fAccess r va)
      | .ok keys =>
        let barn := anyBarn keys
        let tclk := tileClocks t barn
        let pl := d.plough n
        if pl.busy 8 0 now (now + tclk) then d.plFault n slot { code := fMat, b25 := 8 }
        else if pl.busy 9 wb now (now + 1) || pl.busy 2 wb now (now + 1) then d.plFault n slot { code := fMat, b25 := 2 }
        else d.takeBarn n slot barn tclk fun d =>
          d.withProvLoads n slot (fun d =>
            let (d, bss, bad) := d.readPieces n keys
            match bad.filter fun x => decide (tileMet barn now (tileOff t pcs x.1) < now + 48) with
            | some x => d.plFault n slot (faultAt fEcc 1 x.2)
            | none =>
              let b := tileBuf t pcs scs bss (d.plough n).pmode.isSome (bad.map (·.2))
              let d := d.occupy n 8 0 now (now + tclk)
              let d := d.occupy n 2 wb now (now + tileReady t barn)
              d.result n slot (tileReady t barn) (.wbuf wb b))
            (allPtes keys)

/-! ### MMA (R117, R122–R124) -/

/-- Whether an operand pair is allowed (R116, R117). -/
def pairOk (fa : Nat) (mxa : Bool) (fb : Nat) (mxb : Bool) : Bool :=
  stepK fa == stepK fb && stepK fa != 0
    && (if Fp.fmtInt fa || Fp.fmtInt fb then
          Fp.fmtInt fa && Fp.fmtInt fb && ((!mxa && !mxb) || (mxa && mxb && fa == 10 && fb == 10))
        else true)

/-- Plain integer pairs accumulate in INT32 (R117). -/
def pairInt (fa : Nat) (mxa : Bool) : Bool := Fp.fmtInt fa && !mxa

/-- The exact sums of one step for each of the 128 columns (R110–R112). -/
def stepSums (fa : Nat) (mxa : Bool) (arow : Nat) (ascale : Nat) (b : WBuf) : List StepSum :=
  let k := stepK fa
  let wa := Fp.fmtBits fa
  let wb := Fp.fmtBits b.fmt
  let el := b.elems.toArray
  let sc := b.scales.toArray
  if pairInt fa mxa then
    let av := ((List.range k).map fun i => toSigned wa (Fp.elemAt arow wa i)).toArray
    (List.range 128).map fun c =>
      .int ((List.range k).foldl (fun s i => s + av.getD i 0 * toSigned wb (el.getD (128 * i + c) 0)) 0)
  else
    let av := ((List.range k).map fun i =>
      let bits := Fp.elemAt arow wa i
      if mxa then Fp.mxValue fa (Fp.elemAt ascale 8 (i / 32)) bits else Fp.decodeElem fa bits).toArray
    (List.range 128).map fun c =>
      let prod := fun i =>
        let bits := el.getD (128 * i + c) 0
        let bv := if b.mx then Fp.mxValue b.fmt (sc.getD (4 * i + c / 32) 0) bits else Fp.decodeElem b.fmt bits
        Fp.mulV (av.getD i .nan) bv
      .flt ((List.range (k - 1)).foldl (fun s i => Fp.addV s (prod (i + 1))) (prod 0))

/-- MMA (R122–R124, R131). DESIGN CHOICE (log 97): of several causes the first in this order is recorded: a field, the array, the buffer, the bank,
the pair, the poison; an MMA runs against an MLDW into its buffer from issue to issue + count − 1. -/
def execMma (p : Runner) (w : BitVec 64) (s : State) : Host.Outcome State Fault Refusal :=
  s.withDev fun d => d.ploughRun p slotM w (zeros w [(0, 21)]) fun v d =>
    let n := p.toNat
    let bank := wf' w 49 2
    let wb := wf' w 48 1
    let row := wf' w 31 7
    let count := wf' w 27 4
    let fa := wf' w 23 4
    let mx := w.getLsbD 22
    let zero := w.getLsbD 21
    let now := d.cclk
    let pl := d.plough n
    let buf := if wb = 0 then v.w0 else v.w1
    if 128 < row + count ∨ count = 0 ∨ rowsPerV fa < count ∨ (mx ∧ !Fp.fmtMx fa) then d.plFault n slotM illegalF
    else if pl.busy 1 0 now (now + count) then d.plFault n slotM { code := fMat, b25 := 1 }
    else if pl.busy 2 wb now (now + 1) || !buf.loaded then d.plFault n slotM { code := fMat, b25 := 2 }
    else if pl.busy 3 bank now (now + count + 32) then d.plFault n slotM { code := fMat, b25 := 3 }
    else if !pairOk fa mx buf.fmt buf.mx then d.plFault n slotM illegalF
    else match buf.poison with
      | some a => d.plFault n slotM (faultAt fEcc 1 a)
      | none =>
        let va := (v.rdV (wf' w 43 5)).toNat
        let vs := (v.rdV (wf' w 38 5)).toNat
        let d := d.occupy n 1 0 now (now + count)
        let d := d.occupy n 9 wb now (now + count)
        let d := d.occupy n 10 bank now (now + count + 32)
        (List.range count).foldl (fun d i =>
          let sums := stepSums fa mx (Fp.elemAt va (8 * rowBytes fa) i) (Fp.elemAt vs 64 i) buf
          d.result n slotM (i + 32) (.accStep bank (row + i) zero sums)) d

/-! ### MDRAIN (R125–R130) -/

/-- The fields of MDRAIN (R125), with what the descriptor and the scalar register hold: the first row and column of the destination. -/
structure Drain where
  bank : Nat
  row : Nat
  count : Nat
  fmt : Nat
  rm : Nat
  sat : Bool
  transpose : Bool
  epi : Bool
  relu : Bool
  clear : Bool
  int : Bool
  dd : Nat
  t : TDesc
  r0 : Nat
  c0 : Nat
  vb : Nat
deriving DecidableEq, Repr

/-- The fields of an MDRAIN slot, with the registers the bundle reads. -/
def Plough.drain (v : Plough) (w : BitVec 64) : Drain :=
  let rs := (v.rdS (wf' w 6 6)).toNat
  { bank := wf' w 49 2, row := wf' w 37 7, count := wf' w 29 8, fmt := wf' w 21 4, rm := wf' w 25 3, sat := w.getLsbD 28,
    transpose := w.getLsbD 20, epi := w.getLsbD 19, relu := w.getLsbD 13, clear := w.getLsbD 12, int := w.getLsbD 5,
    dd := wf' w 44 5, t := tdesc (v.rdD (wf' w 44 5)), r0 := rs % 2 ^ 32, c0 := rs / 2 ^ 32, vb := (v.rdV (wf' w 14 5)).toNat }

/-- The value of a source element after the epilogue stages 1 to 3 of R126: exact value to convert. -/
def drainValue (x : Drain) (vb : Nat) (bits : Nat) (c : Nat) : Fp.FVal :=
  let floatDest := !Fp.fmtInt x.fmt
  if x.int && !x.epi && !x.relu && !floatDest then Fp.ofInt (toSigned 32 bits)
  else
    let f := if x.int then Fp.ofZ (toSigned 32 bits) else bits
    let y := if x.epi then Fp.fma f (Fp.elemAt vb 32 c) (Fp.elemAt vb 32 (128 + c)) else f
    let z := if x.relu then (match Fp.val y with
      | .nan => 0x7FC00000
      | .inf neg => if neg then 0 else y
      | .fin dy => if dy.neg then 0 else y) else y
    Fp.val z

/-- Conversion of one element: its bits and what it counts (R108, R109). -/
def cvtElem (fmt rm : Nat) (sat : Bool) (u : Nat) (v : Fp.FVal) : Nat × Nat × Nat :=
  let r := Fp.encodeElem fmt ((Fp.rmOf rm u).getD .rne) sat v
  (r.1, b2n (r.2 == .sat), b2n (r.2 == .nan))

/-- Convert one output row (R126 stages 4 and 5): packed elements, scale bytes, counts. `u` gives the SR bits of an element of
the row. -/
def cvtRow (fmt rm : Nat) (sat mx : Bool) (u : Nat → Nat) (vs : List Fp.FVal) : Nat × List Nat × Nat × Nat :=
  let w := Fp.fmtBits fmt
  if mx then
    let nb := ceilDiv vs.length 32
    let blocks := (List.range nb).map fun b =>
      Fp.mxBlock fmt (fun i => (Fp.rmOf rm (u (32 * b + i))).getD .rne) ((vs.drop (32 * b)).take 32)
    (Fp.pack w (blocks.flatMap fun b => b.2.1), blocks.map (·.1), 0, (blocks.filter fun b => b.2.2).length)
  else
    let es := (vs.zip (List.range vs.length)).map fun x => cvtElem fmt rm sat (u x.2) x.1
    (Fp.pack w (es.map (·.1)), [], es.foldl (fun s e => s + e.2.1) 0, es.foldl (fun s e => s + e.2.2) 0)

/-- The SR bits of an element for an instruction issuing now (R107). -/
def Dev.srFor (d : Dev) (p slot e : Nat) : Nat :=
  Fp.srBits (d.reg (R.PLOUGH_SR_SEED p)) d.plan.period d.ccount p slot e

/-- Whether a list of byte addresses fills whole aligned 32-byte units (R128). -/
def fillsUnits (as : List Nat) : Bool :=
  as.all fun a => (List.range 32).all fun i => as.contains (a / 32 * 32 + i)

/-- Rows written: the rows drained, or the 128 columns of a transposed drain (R128). -/
def Drain.rows (x : Drain) : Nat := if x.transpose then 128 else x.count

/-- Elements of a row drained. -/
def Drain.len (x : Drain) : Nat := if x.transpose then x.count else 128

/-- Elements of a row written: those that lie within the destination's extent (R104, log 97). -/
def Drain.cols (x : Drain) : Nat := min x.len (x.t.e 0 - x.c0)

/-- Rows that lie within the destination's extent: a row past it is not written (R104, log 97). -/
def Drain.inRows (x : Drain) : Nat := min x.rows (x.t.e 1 - x.r0)

/-- Clocks from issue to the first clock of the store path (R127, R128). -/
def Drain.first (x : Drain) : Nat := if x.transpose then x.count + 13 else 4

/-- Bytes of a row written. -/
def Drain.bytes (x : Drain) : Nat := x.cols * Fp.fmtBits x.fmt / 8

/-- The destination is block-scaled. -/
def Drain.mx (x : Drain) : Bool := x.t.mx && Fp.fmtMx x.fmt

/-- The bit address of row `j` of the destination. -/
def Drain.rowAt (x : Drain) (j : Nat) : Int := x.t.bitAddr [x.c0, x.r0 + j]

/-- The scale bytes of the whole destination, row by row: address, row, block. -/
def Drain.scaleAt (x : Drain) : List (Nat × Nat × Nat) :=
  if x.mx then (List.range x.inRows).flatMap fun j => (List.range (ceilDiv x.cols 32)).map fun b =>
    ((x.t.scaleAddr [x.c0 + 32 * b, x.r0 + j]).toNat, j, b)
  else []

/-- The addresses of the scale bytes of the whole destination. -/
def Drain.scaleAddrs (x : Drain) : List Nat := x.scaleAt.map (·.1)

/-- The aligned 32-byte units that the scale bytes fill (R128). -/
def Drain.units (x : Drain) : List Nat := (x.scaleAddrs.map (· / 32)).eraseDups

/-- The byte ranges written: the rows, then the units of scale bytes. -/
def Drain.ranges (x : Drain) : List (Nat × Nat) :=
  ((List.range x.inRows).map fun j => ((x.rowAt j).toNat / 8, x.bytes)) ++ x.units.map fun u => (32 * u, 32)

/-- The bytes of a unit of scales, from the converted rows, and the last row among theirs: a unit is written when it is full (R128). -/
def Drain.unitOf (x : Drain) (conv : List (Nat × List Nat × Nat × Nat)) (u : Nat) : List Byte × Nat :=
  let own := x.scaleAt.filter fun z => z.1 / 32 == u
  ((List.range 32).map fun i =>
    match own.find? fun z => z.1 == 32 * u + i with
    | some z => BitVec.ofNat 8 ((conv.getD z.2.1 (0, [], 0, 0)).2.1.getD z.2.2 0)
    | none => 0,
   own.foldl (fun m z => max m z.2.1) 0)

/-- Clocks from issue until row `j` is in memory (R127, R128). -/
def Drain.visible (x : Drain) (barn : Bool) (j : Nat) : Nat :=
  if x.transpose then x.first + j + (if barn then 52 else 16) else j + (if barn then 56 else 20)

/-- The MDRAIN is one that the unit can run (R125, R128): else its fault. -/
def Drain.fieldFault (x : Drain) : Option PFault :=
  if x.count = 0 ∨ 128 < x.row + x.count ∨ x.fmt ≠ x.t.fmt ∨ x.fmt = 12 ∨ !Fp.fmtValid x.fmt ∨ 4 < x.rm then some illegalF
  else if !rowMajor2 x.t ∨ !x.t.writable then some { code := fDescFormat, b27 := x.dd }
  else if (x.cols * Fp.fmtBits x.fmt) % 256 ≠ 0 ∨ (List.range x.inRows).any (fun j => x.rowAt j % 256 != 0) ∨ !fillsUnits x.scaleAddrs then
    some (faultAt fAlign 0 ((x.rowAt 0).toNat / 8))
  else none

/-- The resources that an MDRAIN takes are free and its pages take a store in the plough's mode (R59, R83, R131): else its fault. -/
def Drain.useFault (x : Drain) (d : Dev) (pl : Plough) (keys : List (Nat × Pieces)) : Option PFault :=
  let now := d.cclk
  let first := now + x.first
  let barn := anyBarn keys
  if pl.busy 10 x.bank now (now + 1) then some { code := fMat, b25 := 3 }
  else if pl.busy 4 0 now (now + x.count) then some { code := fMat, b25 := 4 }
  else if pl.busy 5 0 first (first + x.rows) then some { code := fMat, b25 := 5 }
  else if x.transpose && decide (2 ≤ (pl.occ.filter fun o => o.res == 6 && decide (now < o.hi)).length) then some { code := fMat, b25 := 6 }
  else if x.transpose && pl.busy 7 0 (now + 4) (now + 4 + x.count) then some { code := fMat, b25 := 7 }
  else if barn && pl.busy 0 0 first (first + x.rows) then some { code := fResource, b25 := 1 }
  else if (allPtes keys).any fun e => !d.provStoreOk pl e then some { code := fProvWrite }
  else none

/-- What an MDRAIN holds while it runs (R131). -/
def Drain.occupy (x : Drain) (d : Dev) (n : Nat) (barn : Bool) : Dev :=
  let now := d.cclk
  let first := now + x.first
  let d := d.occupy n 3 x.bank now (now + x.count)
  let d := d.occupy n 4 0 now (now + x.count)
  let d := d.occupy n 5 0 first (first + x.rows)
  let d := if x.transpose then (d.occupy n 6 0 now (first + x.rows)).occupy n 7 0 (now + 4) (now + 4 + x.count) else d
  if barn then d.occupy n 0 0 first (first + x.rows) else d

/-- The converted rows of an MDRAIN (R126): packed elements, scale bytes, counts. DESIGN CHOICE (log 97): elements past the destination's extents
are neither converted nor written, and a short block's scale is that of its present elements (R104). -/
def Drain.convert (x : Drain) (d : Dev) (n : Nat) (v : Plough) : List (Nat × List Nat × Nat × Nat) :=
  (List.range x.inRows).map fun j =>
    let vals := (List.range x.cols).map fun c =>
      let (sr, sc) := if x.transpose then (x.row + c, j) else (x.row + j, c)
      drainValue x x.vb (v.rdA x.bank sr sc).toNat sc
    cvtRow x.fmt x.rm x.sat x.mx (fun c => d.srFor n slotM (j * x.len + c)) vals

/-- Put a range's bytes on their way to memory. -/
def Dev.drainTo (d : Dev) (n lat vis : Nat) (range : Nat × Pieces) (bs : List Byte) : Dev :=
  (cutPieces range.2 bs).foldl (fun d y => d.result n slotM lat (.memRow y.1 y.2.1 vis y.2.2)) d

/-- The rows, the scale bytes, the cleared accumulators and the counts of an MDRAIN go on their way (R126–R130). -/
def Drain.run (x : Drain) (d : Dev) (n : Nat) (v : Plough) (keys : List (Nat × Pieces)) : Dev :=
  let barn := anyBarn keys
  let conv := x.convert d n v
  let now := d.cclk
  let send := fun (j i : Nat) (bs : List Byte) (d : Dev) =>
    d.drainTo n (max (x.visible barn j) 48) (now + x.visible barn j) (keys.getD i (0, [])) bs
  let d := (allPtes keys).foldl (fun d e => d.ploughOpen n e) d
  let d := x.occupy d n barn
  let d := (conv.zip (List.range conv.length)).foldl (fun d y => send y.2 y.2 (leBytes x.bytes y.1.1) d) d
  let d := (x.units.zip (List.range x.units.length)).foldl (fun d y =>
    let u := x.unitOf conv y.1
    send u.2 (x.inRows + y.2) u.1 d) d
  let d := if x.clear then (List.range x.count).foldl (fun d j => d.result n slotM (j + 1) (.accClear x.bank (x.row + j))) d else d
  let sat : Nat := conv.foldl (fun s y => s + y.2.2.1) 0
  let nan : Nat := conv.foldl (fun s y => s + y.2.2.2) 0
  if sat + nan = 0 then d else d.result n slotM 48 (.counts sat nan (d.plough n).pmode)

/-- MDRAIN (R125–R131): rows of an accumulator bank through the epilogue and conversion to memory. -/
def execMdrain (p : Runner) (w : BitVec 64) (s : State) : Host.Outcome State Fault Refusal :=
  s.withDev fun d => d.ploughRun p slotM w (zeros w [(0, 5)]) fun v d =>
    let n := p.toNat
    let x := v.drain w
    match x.fieldFault with
    | some f => d.plFault n slotM f
    | none =>
      match d.lxlateAll n (d.plough n) true x.ranges with
      | .error (va, r) => d.plFault n slotM (faultAt fAccess r va)
      | .ok keys =>
        match x.useFault d (d.plough n) keys with
        | some f => d.plFault n slotM f
        | none => x.run d n v keys

end Sys2Proof.Machine
end

