-- ==== Sys2Proof/Machine/Vector.lean ====
section
/-! DEFINITION. The vector slot V (R134–R139). -/

namespace Sys2Proof.Machine

/-- Width in bits of a lane of type `lt`; 0 for a code that is no lane type (R134). -/
def laneW (lt : Nat) : Nat :=
  match lt with
  | 0 => 32 | 8 => 32 | 1 => 16 | 2 => 16 | 9 => 16 | 10 => 8 | _ => 0

/-- The lane type field. -/
def fLt (w : BitVec 64) : Nat := wf' w 27 4
/-- vd of the V slot. -/
def vVd (w : BitVec 64) : Nat := wf' w 46 5
/-- va of the V slot. -/
def vVa (w : BitVec 64) : Nat := wf' w 41 5
/-- vb of the V slot. -/
def vVb (w : BitVec 64) : Nat := wf' w 36 5
/-- vc of the V slot. -/
def vVc (w : BitVec 64) : Nat := wf' w 31 5
/-- cc of the V slot. -/
def vCc (w : BitVec 64) : Nat := wf' w 19 8

/-- The lanes of a register as numbers of `w` bits. -/
def lanesOf (w : Nat) (v : BitVec 8192) : List Nat := (List.range (8192 / w)).map (Fp.elemAt v.toNat w)

/-- A vector register from lanes. -/
def ofLanes (w : Nat) (l : List Nat) : BitVec 8192 := BitVec.ofNat 8192 (Fp.pack w l)

/-- Round an exact value into a floating lane type, RNE, overflow to infinity (R136). -/
def laneRound (lt : Nat) (v : Fp.FVal) : Nat :=
  match Fp.floatFmt lt with
  | some f => (Fp.encode f .rne false v).1
  | none => 0

/-- The exact value of a floating lane. -/
def laneVal (lt : Nat) (b : Nat) : Fp.FVal :=
  match Fp.floatFmt lt with
  | some f => Fp.decode f b
  | none => .nan

/-- A lane operation: one function over exact values, one over signed integers. -/
def lane2 (lt : Nat) (ff : Fp.FVal → Fp.FVal → Fp.FVal) (fi : Int → Int → Int) (a b : Nat) : Nat :=
  if Fp.fmtInt lt then ofSigned (laneW lt) (fi (toSigned (laneW lt) a) (toSigned (laneW lt) b))
  else laneRound lt (ff (laneVal lt a) (laneVal lt b))

/-- An instruction whose lanes are a function of the lanes of va, vb and vc; `okT` names its lane types. -/
def vecOp (p : Runner) (w : BitVec 64) (lat : Nat) (okT : Nat → Bool) (okW : Bool) (f : Nat → Nat → Nat → Nat → Nat) (d : Dev) : Dev :=
  d.ploughRun p slotV w (okW && laneW (fLt w) != 0 && okT (fLt w)) fun v d =>
    let lt := fLt w
    let lw := laneW lt
    let a := v.rdV (vVa w)
    let b := v.rdV (vVb w)
    let c := v.rdV (vVc w)
    d.result p.toNat slotV lat (.vec (vVd w) (ofLanes lw ((List.range (8192 / lw)).map fun k =>
      f lt (Fp.elemAt a.toNat lw k) (Fp.elemAt b.toNat lw k) (Fp.elemAt c.toNat lw k))))

/-- No field below cc. -/
def vPlain (w : BitVec 64) : Bool := zeros w [(0, 19)]

/-- Every lane type. -/
def ltAll (_ : Nat) : Bool := true
/-- The floating lane types. -/
def ltFloat (lt : Nat) : Bool := !Fp.fmtInt lt
/-- The integer lane types. -/
def ltInt (lt : Nat) : Bool := Fp.fmtInt lt
/-- FP32 lanes. -/
def ltF32 (lt : Nat) : Bool := lt == 0

/-- The magnitude of an exact value. -/
def absV : Fp.FVal → Fp.FVal
  | .nan => .nan
  | .inf _ => .inf false
  | .fin d => .fin { d with neg := false }

/-- The reciprocal of an exact value. -/
def rcpV (v : Fp.FVal) : Fp.FVal := Fp.divV (Fp.ofInt 1) v

/-- The comparison of floating lanes (R136): false for an unordered pair, but NE. -/
def fcond (c : Nat) (a b : Fp.FVal) : Bool :=
  match c, Fp.cmpV a b with
  | 0, o => o == some .eq
  | 1, o => o != some .eq
  | 2, o => o == some .lt
  | 3, o => o == some .lt || o == some .eq
  | 4, o => o == some .gt
  | _, o => o == some .gt || o == some .eq

/-- VCMP of one lane. -/
def laneCmp (lt c a b : Nat) : Nat :=
  let lw := laneW lt
  let r := if Fp.fmtInt lt then condHolds c (BitVec.ofInt 64 (toSigned lw a)) (BitVec.ofInt 64 (toSigned lw b))
           else fcond c (laneVal lt a) (laneVal lt b)
  if r then 2 ^ lw - 1 else 0

/-- VADD (R135, R136). -/
def execVadd (p : Runner) (w : BitVec 64) (s : State) : Host.Outcome State Fault Refusal :=
  s.withDev (vecOp p w 3 ltAll (vPlain w) fun lt a b _ => lane2 lt Fp.addV (· + ·) a b)

/-- VSUB (R135, R136). -/
def execVsub (p : Runner) (w : BitVec 64) (s : State) : Host.Outcome State Fault Refusal :=
  s.withDev (vecOp p w 3 ltAll (vPlain w) fun lt a b _ => lane2 lt (fun x y => Fp.addV x (Fp.negV y)) (· - ·) a b)

/-- VMUL (R135, R136). -/
def execVmul (p : Runner) (w : BitVec 64) (s : State) : Host.Outcome State Fault Refusal :=
  s.withDev (vecOp p w 3 ltAll (vPlain w) fun lt a b _ => lane2 lt Fp.mulV (· * ·) a b)

/-- VFMA (R135, R136). -/
def execVfma (p : Runner) (w : BitVec 64) (s : State) : Host.Outcome State Fault Refusal :=
  s.withDev (vecOp p w 4 ltFloat (vPlain w) fun lt a b c => laneRound lt (Fp.addV (Fp.mulV (laneVal lt a) (laneVal lt b)) (laneVal lt c)))

/-- VMIN (R135, R136). -/
def execVmin (p : Runner) (w : BitVec 64) (s : State) : Host.Outcome State Fault Refusal :=
  s.withDev (vecOp p w 2 ltAll (vPlain w) fun lt a b _ => lane2 lt Fp.minV min a b)

/-- VMAX (R135, R136). -/
def execVmax (p : Runner) (w : BitVec 64) (s : State) : Host.Outcome State Fault Refusal :=
  s.withDev (vecOp p w 2 ltAll (vPlain w) fun lt a b _ => lane2 lt Fp.maxV max a b)

/-- VABS (R135: the integer minimum stays). -/
def execVabs (p : Runner) (w : BitVec 64) (s : State) : Host.Outcome State Fault Refusal :=
  s.withDev (vecOp p w 2 ltAll (vPlain w) fun lt a _ _ => lane2 lt (fun x _ => absV x) (fun x _ => if x < 0 then -x else x) a 0)

/-- VNEG (R135: the integer minimum stays). -/
def execVneg (p : Runner) (w : BitVec 64) (s : State) : Host.Outcome State Fault Refusal :=
  s.withDev (vecOp p w 2 ltAll (vPlain w) fun lt a _ _ => lane2 lt (fun x _ => Fp.negV x) (fun x _ => -x) a 0)

/-- VAND (R135). -/
def execVand (p : Runner) (w : BitVec 64) (s : State) : Host.Outcome State Fault Refusal :=
  s.withDev (vecOp p w 1 ltInt (vPlain w) fun _ a b _ => a &&& b)

/-- VOR (R135). -/
def execVor (p : Runner) (w : BitVec 64) (s : State) : Host.Outcome State Fault Refusal :=
  s.withDev (vecOp p w 1 ltInt (vPlain w) fun _ a b _ => a ||| b)

/-- VXOR (R135). -/
def execVxor (p : Runner) (w : BitVec 64) (s : State) : Host.Outcome State Fault Refusal :=
  s.withDev (vecOp p w 1 ltInt (vPlain w) fun _ a b _ => a ^^^ b)

/-- VSHL (R135). -/
def execVshl (p : Runner) (w : BitVec 64) (s : State) : Host.Outcome State Fault Refusal :=
  s.withDev (vecOp p w 1 ltInt (vPlain w) fun lt a b _ => (a <<< (b % laneW lt)) % 2 ^ laneW lt)

/-- VSRA (R135). -/
def execVsra (p : Runner) (w : BitVec 64) (s : State) : Host.Outcome State Fault Refusal :=
  s.withDev (vecOp p w 1 ltInt (vPlain w) fun lt a b _ => ofSigned (laneW lt) (toSigned (laneW lt) a / 2 ^ (b % laneW lt)))

/-- VCMP (R135, R136). -/
def execVcmp (p : Runner) (w : BitVec 64) (s : State) : Host.Outcome State Fault Refusal :=
  s.withDev (vecOp p w 2 (fun lt => if Fp.fmtInt lt then decide (wf' w 15 4 ≤ 9) else decide (wf' w 15 4 ≤ 5)) (zeros w [(0, 15)]) fun lt a b _ => laneCmp lt (wf' w 15 4) a b)

/-- VSEL (R135). -/
def execVsel (p : Runner) (w : BitVec 64) (s : State) : Host.Outcome State Fault Refusal :=
  s.withDev (vecOp p w 2 ltAll (vPlain w) fun _ a b c => if c = 0 then b else a)

/-- VEXP2 (R135, R136). -/
def execVexp2 (p : Runner) (w : BitVec 64) (s : State) : Host.Outcome State Fault Refusal :=
  s.withDev (vecOp p w 12 ltF32 (vPlain w) fun lt a _ _ => laneRound lt (Fp.exp2V (laneVal lt a)))

/-- VLOG2 (R135, R136). -/
def execVlog2 (p : Runner) (w : BitVec 64) (s : State) : Host.Outcome State Fault Refusal :=
  s.withDev (vecOp p w 12 ltF32 (vPlain w) fun lt a _ _ => laneRound lt (Fp.log2V (laneVal lt a)))

/-- VRCP (R135, R136). -/
def execVrcp (p : Runner) (w : BitVec 64) (s : State) : Host.Outcome State Fault Refusal :=
  s.withDev (vecOp p w 12 ltF32 (vPlain w) fun lt a _ _ => laneRound lt (rcpV (laneVal lt a)))

/-- VRSQRT (R135, R136). -/
def execVrsqrt (p : Runner) (w : BitVec 64) (s : State) : Host.Outcome State Fault Refusal :=
  s.withDev (vecOp p w 12 ltF32 (vPlain w) fun lt a _ _ => laneRound lt (Fp.rsqrtV (laneVal lt a)))

/-- VSQRT (R135, R136). -/
def execVsqrt (p : Runner) (w : BitVec 64) (s : State) : Host.Outcome State Fault Refusal :=
  s.withDev (vecOp p w 12 ltF32 (vPlain w) fun lt a _ _ => laneRound lt (Fp.sqrtV (laneVal lt a)))

/-- The exact values that a VCVT converts: into FX32 (R113) they are taken to a fraction count, which no field of the instruction gives; it is
free (log 21). -/
def cvtInputs (fmt free : Nat) (vs : List Fp.FVal) : List Fp.FVal :=
  if fmt = 12 then vs.map (Fp.scale2 ((free % 32 : Nat) : Int)) else vs

/-- The device after a VCVT has taken its free fraction count, if its destination is FX32. -/
def Dev.cvtFresh (d : Dev) (fmt : Nat) : Dev := if fmt = 12 then d.fresh.2 else d

/-- VCVT (R105–R109, R138, R139): min(source lanes, 8,192 / destination width) elements, packed from byte 0. -/
def execVcvt (p : Runner) (w : BitVec 64) (s : State) : Host.Outcome State Fault Refusal :=
  let lt := fLt w
  let fmt := field (vCc w) 0 4
  let rm := field (vCc w) 4 3
  let sat := (vCc w).testBit 7
  let mx := w.getLsbD 18
  s.withDev fun d => d.ploughRun p slotV w
      (zeros w [(0, 18)] && Fp.fmtValid lt && lt != 12 && Fp.fmtValid fmt && decide (rm ≤ 4) && (!mx || Fp.fmtMx fmt)) fun v d =>
    let sw := Fp.fmtBits lt
    let src := (v.rdV (vVa w)).toNat
    let n := min (8192 / sw) (8192 / Fp.fmtBits fmt)
    let vs := cvtInputs fmt d.fresh.1 ((List.range n).map fun k => Fp.decodeElem lt (Fp.elemAt src sw k))
    let d := d.cvtFresh fmt
    let r := cvtRow fmt rm sat mx (fun e => d.srFor p.toNat slotV e) vs
    let d1 := d.result p.toNat slotV 4 (.vec (vVd w) (BitVec.ofNat 8192 r.1))
    let d2 := if mx then d1.result p.toNat slotV 4 (.vec (vVc w) (ofLanes 8 r.2.1)) else d1
    if r.2.2.1 + r.2.2.2 = 0 then d2
    else d2.result p.toNat slotV 4 (.counts r.2.2.1 r.2.2.2 (d.plough p.toNat).pmode)

/-- VBCAST (R135): every lane takes the low bits of a scalar register. -/
def execVbcast (p : Runner) (w : BitVec 64) (s : State) : Host.Outcome State Fault Refusal :=
  s.withDev fun d => d.ploughRun p slotV w (zeros w [(0, 13)] && laneW (fLt w) != 0) fun v d =>
    let lw := laneW (fLt w)
    d.result p.toNat slotV 2
      (.vec (vVd w) (ofLanes lw (List.replicate (8192 / lw) ((v.rdS (wf' w 13 6)).toNat % 2 ^ lw))))

/-- The tree of R137 over a group of 2 ^ k lanes. -/
def redTree (op : Nat → Nat → Nat) : Nat → List Nat → Nat
  | 0, l => l.headD 0
  | k + 1, l => op (redTree op k (l.take (2 ^ k))) (redTree op k (l.drop (2 ^ k)))

/-- One operation of VRED. -/
def redOp (lt op a b : Nat) : Nat :=
  match op with
  | 0 => lane2 lt Fp.addV (· + ·) a b
  | 1 => lane2 lt Fp.maxV max a b
  | _ => lane2 lt Fp.minV min a b

/-- VRED (R137). -/
def execVred (p : Runner) (w : BitVec 64) (s : State) : Host.Outcome State Fault Refusal :=
  let op := wf' w 17 2
  let lg := wf' w 13 4
  s.withDev fun d => d.ploughRun p slotV w
      (zeros w [(0, 13)] && (fLt w == 0 || fLt w == 8) && op != 3 && decide (1 ≤ lg) && decide (lg ≤ 8)) fun v d =>
    let l := lanesOf 32 (v.rdV (vVa w))
    let out := (List.range (256 / 2 ^ lg)).map fun k => redTree (redOp (fLt w) op) lg ((l.drop (k * 2 ^ lg)).take (2 ^ lg))
    d.result p.toNat slotV (4 + 3 * lg) (.vec (vVd w) (ofLanes 32 out))

/-- The lanes of VPERM (R138): an index already taken by a lower lane reads zero. -/
def permLanes (a b : BitVec 8192) : List Nat :=
  let idx := (lanesOf 64 b).map (· % 128)
  (List.range 128).map fun i =>
    let j := idx.getD i 0
    if (idx.take i).contains j then 0 else Fp.elemAt a.toNat 64 j

/-- A use of the permutation network in clock issue + 2 (R129, R131). The lane type is none of the operation's, but a code that is no lane
type faults on every V-slot instruction except VCVT (R134). -/
def networkOp (p : Runner) (w : BitVec 64) (okBits : Bool) (lat : Nat) (f : Plough → List Nat) (d : Dev) : Dev :=
  d.ploughRun p slotV w (okBits && laneW (fLt w) != 0) fun v d =>
    let n := p.toNat
    let now := d.cclk
    if (d.plough n).busy 7 0 (now + 2) (now + 3) then d.plFault n slotV { code := fMat, b25 := 7 }
    else (d.occupy n 7 0 (now + 2) (now + 3)).result n slotV lat (.vec (vVd w) (ofLanes 64 (f v)))

/-- VPERM (R135, R138). -/
def execVperm (p : Runner) (w : BitVec 64) (s : State) : Host.Outcome State Fault Refusal :=
  s.withDev (networkOp p w (vPlain w) 20 fun v => permLanes (v.rdV (vVa w)) (v.rdV (vVb w)))

/-- VROT (R135). -/
def execVrot (p : Runner) (w : BitVec 64) (s : State) : Host.Outcome State Fault Refusal :=
  s.withDev (networkOp p w (zeros w [(0, 12)]) 15 fun v =>
    (List.range 128).map fun i => Fp.elemAt (v.rdV (vVa w)).toNat 64 ((i + wf' w 12 7) % 128))

end Sys2Proof.Machine
end

