-- ==== Sys2Proof/Machine/Dispatch.lean ====
section
/-! DEFINITION. The meaning of every command: one arm per constructor of Instr. -/

namespace Sys2Proof.Machine

def exec (i : Instr) (s : State) : Host.Outcome State Fault Refusal :=
  match i with
  | .registerWrite path addr size value => Sys2Proof.Machine.execRegisterWrite path addr size value s
  | .registerReadClear path addr size => Sys2Proof.Machine.execRegisterReadClear path addr size s
  | .lowHalfWrite path addr value => Sys2Proof.Machine.execLowHalfWrite path addr value s
  | .lowHalfRead path addr => Sys2Proof.Machine.execLowHalfRead path addr s
  | .collectorIntake => Sys2Proof.Machine.execCollectorIntake s
  | .collectorWrite => Sys2Proof.Machine.execCollectorWrite s
  | .topEvtCtl path value => Sys2Proof.Machine.execTopEvtCtl path value s
  | .topEvtRingRd path value => Sys2Proof.Machine.execTopEvtRingRd path value s
  | .planLoad => Sys2Proof.Machine.execPlanLoad s
  | .planStart => Sys2Proof.Machine.execPlanStart s
  | .planLock => Sys2Proof.Machine.execPlanLock s
  | .planStop => Sys2Proof.Machine.execPlanStop s
  | .planStopEnd => Sys2Proof.Machine.execPlanStopEnd s
  | .planUnload => Sys2Proof.Machine.execPlanUnload s
  | .planStore => Sys2Proof.Machine.execPlanStore s
  | .majorPeriodBoundary => Sys2Proof.Machine.execMajorPeriodBoundary s
  | .nop p slot w => Sys2Proof.Machine.execNop p slot w s
  | .add p s1 w => Sys2Proof.Machine.execAdd p s1 w s
  | .sub p s1 w => Sys2Proof.Machine.execSub p s1 w s
  | .and p s1 w => Sys2Proof.Machine.execAnd p s1 w s
  | .or p s1 w => Sys2Proof.Machine.execOr p s1 w s
  | .xor p s1 w => Sys2Proof.Machine.execXor p s1 w s
  | .shl p s1 w => Sys2Proof.Machine.execShl p s1 w s
  | .shr p s1 w => Sys2Proof.Machine.execShr p s1 w s
  | .sra p s1 w => Sys2Proof.Machine.execSra p s1 w s
  | .mul p s1 w => Sys2Proof.Machine.execMul p s1 w s
  | .mulhs p s1 w => Sys2Proof.Machine.execMulhs p s1 w s
  | .mulhu p s1 w => Sys2Proof.Machine.execMulhu p s1 w s
  | .min p s1 w => Sys2Proof.Machine.execMin p s1 w s
  | .max p s1 w => Sys2Proof.Machine.execMax p s1 w s
  | .minu p s1 w => Sys2Proof.Machine.execMinu p s1 w s
  | .maxu p s1 w => Sys2Proof.Machine.execMaxu p s1 w s
  | .clz p s1 w => Sys2Proof.Machine.execClz p s1 w s
  | .popc p s1 w => Sys2Proof.Machine.execPopc p s1 w s
  | .sel p s1 w => Sys2Proof.Machine.execSel p s1 w s
  | .addi p s1 w => Sys2Proof.Machine.execAddi p s1 w s
  | .andi p s1 w => Sys2Proof.Machine.execAndi p s1 w s
  | .ori p s1 w => Sys2Proof.Machine.execOri p s1 w s
  | .xori p s1 w => Sys2Proof.Machine.execXori p s1 w s
  | .shli p s1 w => Sys2Proof.Machine.execShli p s1 w s
  | .shri p s1 w => Sys2Proof.Machine.execShri p s1 w s
  | .srai p s1 w => Sys2Proof.Machine.execSrai p s1 w s
  | .movi p s1 w => Sys2Proof.Machine.execMovi p s1 w s
  | .movhi p s1 w => Sys2Proof.Machine.execMovhi p s1 w s
  | .cmp p s1 w => Sys2Proof.Machine.execCmp p s1 w s
  | .cmpi p s1 w => Sys2Proof.Machine.execCmpi p s1 w s
  | .plog p s1 w => Sys2Proof.Machine.execPlog p s1 w s
  | .movs p s1 w => Sys2Proof.Machine.execMovs p s1 w s
  | .b p w => Sys2Proof.Machine.execB p w s
  | .br p w => Sys2Proof.Machine.execBr p w s
  | .call p w => Sys2Proof.Machine.execCall p w s
  | .loop p w => Sys2Proof.Machine.execLoop p w s
  | .loopi p w => Sys2Proof.Machine.execLoopi p w s
  | .waitc p w => Sys2Proof.Machine.execWaitc p w s
  | .waitcRelease p => Sys2Proof.Machine.execWaitcRelease p s
  | .chkpt p w => Sys2Proof.Machine.execChkpt p w s
  | .commit p w => Sys2Proof.Machine.execCommit p w s
  | .squash p w => Sys2Proof.Machine.execSquash p w s
  | .commitDone p => Sys2Proof.Machine.execCommitDone p s
  | .squashDone p => Sys2Proof.Machine.execSquashDone p s
  | .sliceEnd p w => Sys2Proof.Machine.execSliceEnd p w s
  | .trap p w => Sys2Proof.Machine.execTrap p w s
  | .ld8u p l1 w => Sys2Proof.Machine.execLd8u p l1 w s
  | .ld16u p l1 w => Sys2Proof.Machine.execLd16u p l1 w s
  | .ld32u p l1 w => Sys2Proof.Machine.execLd32u p l1 w s
  | .ld64 p l1 w => Sys2Proof.Machine.execLd64 p l1 w s
  | .ld8s p l1 w => Sys2Proof.Machine.execLd8s p l1 w s
  | .ld16s p l1 w => Sys2Proof.Machine.execLd16s p l1 w s
  | .ld32s p l1 w => Sys2Proof.Machine.execLd32s p l1 w s
  | .st8 p l1 w => Sys2Proof.Machine.execSt8 p l1 w s
  | .st16 p l1 w => Sys2Proof.Machine.execSt16 p l1 w s
  | .st32 p l1 w => Sys2Proof.Machine.execSt32 p l1 w s
  | .st64 p l1 w => Sys2Proof.Machine.execSt64 p l1 w s
  | .vld p l1 w => Sys2Proof.Machine.execVld p l1 w s
  | .vst p l1 w => Sys2Proof.Machine.execVst p l1 w s
  | .dld p l1 w => Sys2Proof.Machine.execDld p l1 w s
  | .dst p l1 w => Sys2Proof.Machine.execDst p l1 w s
  | .dma p l1 w => Sys2Proof.Machine.execDma p l1 w s
  | .dmawait p l1 w => Sys2Proof.Machine.execDmawait p l1 w s
  | .dmaTransferDone p q => Sys2Proof.Machine.execDmaTransferDone p q s
  | .vldt p l1 w => Sys2Proof.Machine.execVldt p l1 w s
  | .mldw p l1 w => Sys2Proof.Machine.execMldw p l1 w s
  | .mma p w => Sys2Proof.Machine.execMma p w s
  | .mdrain p w => Sys2Proof.Machine.execMdrain p w s
  | .resultLand p => Sys2Proof.Machine.execResultLand p s
  | .bundleRetire p => Sys2Proof.Machine.execBundleRetire p s
  | .vadd p w => Sys2Proof.Machine.execVadd p w s
  | .vsub p w => Sys2Proof.Machine.execVsub p w s
  | .vmul p w => Sys2Proof.Machine.execVmul p w s
  | .vfma p w => Sys2Proof.Machine.execVfma p w s
  | .vmin p w => Sys2Proof.Machine.execVmin p w s
  | .vmax p w => Sys2Proof.Machine.execVmax p w s
  | .vabs p w => Sys2Proof.Machine.execVabs p w s
  | .vneg p w => Sys2Proof.Machine.execVneg p w s
  | .vand p w => Sys2Proof.Machine.execVand p w s
  | .vor p w => Sys2Proof.Machine.execVor p w s
  | .vxor p w => Sys2Proof.Machine.execVxor p w s
  | .vshl p w => Sys2Proof.Machine.execVshl p w s
  | .vsra p w => Sys2Proof.Machine.execVsra p w s
  | .vcmp p w => Sys2Proof.Machine.execVcmp p w s
  | .vsel p w => Sys2Proof.Machine.execVsel p w s
  | .vexp2 p w => Sys2Proof.Machine.execVexp2 p w s
  | .vlog2 p w => Sys2Proof.Machine.execVlog2 p w s
  | .vrcp p w => Sys2Proof.Machine.execVrcp p w s
  | .vrsqrt p w => Sys2Proof.Machine.execVrsqrt p w s
  | .vsqrt p w => Sys2Proof.Machine.execVsqrt p w s
  | .vcvt p w => Sys2Proof.Machine.execVcvt p w s
  | .vbcast p w => Sys2Proof.Machine.execVbcast p w s
  | .vred p w => Sys2Proof.Machine.execVred p w s
  | .vperm p w => Sys2Proof.Machine.execVperm p w s
  | .vrot p w => Sys2Proof.Machine.execVrot p w s
  | .eissue p w => Sys2Proof.Machine.execEissue p w s
  | .ewait p w => Sys2Proof.Machine.execEwait p w s
  | .engineWindowEnd engine => Sys2Proof.Machine.execEngineWindowEnd engine s
  | .xsend p w => Sys2Proof.Machine.execXsend p w s
  | .xrecv p w => Sys2Proof.Machine.execXrecv p w s
  | .xwait p w => Sys2Proof.Machine.execXwait p w s
  | .runSliceStart p => Sys2Proof.Machine.execRunSliceStart p s
  | .sliceSave p => Sys2Proof.Machine.execSliceSave p s
  | .swapSlice p => Sys2Proof.Machine.execSwapSlice p s
  | .exchangeComplete => Sys2Proof.Machine.execExchangeComplete s
  | .mboxSubmit path cmd => Sys2Proof.Machine.execMboxSubmit path cmd s
  | .stewMboxPop path => Sys2Proof.Machine.execStewMboxPop path s
  | .create => Sys2Proof.Machine.execCreate s
  | .suspend => Sys2Proof.Machine.execSuspend s
  | .resume => Sys2Proof.Machine.execResume s
  | .retire => Sys2Proof.Machine.execRetire s
  | .exchange => Sys2Proof.Machine.execExchange s
  | .topCtxQuota path idx value => Sys2Proof.Machine.execTopCtxQuota path idx value s
  | .powerCap => Sys2Proof.Machine.execPowerCap s
  | .logRead => Sys2Proof.Machine.execLogRead s
  | .updateStage => Sys2Proof.Machine.execUpdateStage s
  | .updateActivate => Sys2Proof.Machine.execUpdateActivate s
  | .updateConfirm => Sys2Proof.Machine.execUpdateConfirm s
  | .configWrite => Sys2Proof.Machine.execConfigWrite s
  | .attest => Sys2Proof.Machine.execAttest s
  | .canSend => Sys2Proof.Machine.execCanSend s
  | .ethSend => Sys2Proof.Machine.execEthSend s
  | .deviceRecover => Sys2Proof.Machine.execDeviceRecover s
  | .telemetrySlice readings => Sys2Proof.Machine.execTelemetrySlice readings s
  | .logSlice => Sys2Proof.Machine.execLogSlice s
  | .mailboxSlice => Sys2Proof.Machine.execMailboxSlice s
  | .housekeepingSlice => Sys2Proof.Machine.execHousekeepingSlice s
  | .stewTrap cause => Sys2Proof.Machine.execStewTrap cause s
  | .stewTelCtl path value => Sys2Proof.Machine.execStewTelCtl path value s
  | .stewTelRd path value => Sys2Proof.Machine.execStewTelRd path value s
  | .stewardBoot => Sys2Proof.Machine.execStewardBoot s
  | .hedgeInval path value => Sys2Proof.Machine.execHedgeInval path value s
  | .invalComplete => Sys2Proof.Machine.execInvalComplete s
  | .hedgeFence path value => Sys2Proof.Machine.execHedgeFence path value s
  | .fenceDrainEnd => Sys2Proof.Machine.execFenceDrainEnd s
  | .fenceDone => Sys2Proof.Machine.execFenceDone s
  | .translationWalk => Sys2Proof.Machine.execTranslationWalk s
  | .strobeEdge input rise => Sys2Proof.Machine.execStrobeEdge input rise s
  | .stampConvert => Sys2Proof.Machine.execStampConvert s
  | .csiFrameStart port vc good frame => Sys2Proof.Machine.execCsiFrameStart port vc good frame s
  | .csiLongPacket port vc dt good payload => Sys2Proof.Machine.execCsiLongPacket port vc dt good payload s
  | .csiFrameEnd port vc => Sys2Proof.Machine.execCsiFrameEnd port vc s
  | .ethFrameReceive port fcsOk frame => Sys2Proof.Machine.execEthFrameReceive port fcsOk frame s
  | .imuDrdyEdge port => Sys2Proof.Machine.execImuDrdyEdge port s
  | .imuTransferEnd port miso => Sys2Proof.Machine.execImuTransferEnd port miso s
  | .canFrameReceive ctl frame => Sys2Proof.Machine.execCanFrameReceive ctl frame s
  | .encoderEdge ch edge => Sys2Proof.Machine.execEncoderEdge ch edge s
  | .encoderLatch ch => Sys2Proof.Machine.execEncoderLatch ch s
  | .triggerPulse t => Sys2Proof.Machine.execTriggerPulse t s
  | .portLink kind port up => Sys2Proof.Machine.execPortLink kind port up s
  | .gateSlotMap path n value => Sys2Proof.Machine.execGateSlotMap path n value s
  | .gateDiscover path value => Sys2Proof.Machine.execGateDiscover path value s
  | .discovery found => Sys2Proof.Machine.execDiscovery found s
  | .injectedSample n => Sys2Proof.Machine.execInjectedSample n s
  | .dropPacket n sw => Sys2Proof.Machine.execDropPacket n sw s
  | .troughFlush n => Sys2Proof.Machine.execTroughFlush n s
  | .troughHeadArrival n => Sys2Proof.Machine.execTroughHeadArrival n s
  | .sampleIntake => Sys2Proof.Machine.execSampleIntake s
  | .fuseProv sch => Sys2Proof.Machine.execFuseProv sch s
  | .fuseCommit sch => Sys2Proof.Machine.execFuseCommit sch s
  | .project => Sys2Proof.Machine.execProject s
  | .projClear => Sys2Proof.Machine.execProjClear s
  | .projJobEnd => Sys2Proof.Machine.execProjJobEnd s
  | .sweep => Sys2Proof.Machine.execSweep s
  | .rules => Sys2Proof.Machine.execRules s
  | .gather => Sys2Proof.Machine.execGather s
  | .scatterAdd => Sys2Proof.Machine.execScatterAdd s
  | .sieveJobEnd => Sys2Proof.Machine.execSieveJobEnd s
  | .kin q => Sys2Proof.Machine.execKin q s
  | .invdyn q => Sys2Proof.Machine.execInvdyn q s
  | .fwddyn q => Sys2Proof.Machine.execFwddyn q s
  | .wbik q => Sys2Proof.Machine.execWbik q s
  | .lsq q => Sys2Proof.Machine.execLsq q s
  | .millJobEnd q => Sys2Proof.Machine.execMillJobEnd q s
  | .granOpen lane => Sys2Proof.Machine.execGranOpen lane s
  | .granClose lane => Sys2Proof.Machine.execGranClose lane s
  | .granFork lane => Sys2Proof.Machine.execGranFork lane s
  | .granTrim lane => Sys2Proof.Machine.execGranTrim lane s
  | .granAppend lane => Sys2Proof.Machine.execGranAppend lane s
  | .granFlush lane => Sys2Proof.Machine.execGranFlush lane s
  | .attend lane => Sys2Proof.Machine.execAttend lane s
  | .merge lane => Sys2Proof.Machine.execMerge lane s
  | .expand lane => Sys2Proof.Machine.execExpand lane s
  | .bwd lane => Sys2Proof.Machine.execBwd lane s
  | .granJobEnd lane => Sys2Proof.Machine.execGranJobEnd lane s
  | .granInit path value => Sys2Proof.Machine.execGranInit path value s
  | .granInitDone => Sys2Proof.Machine.execGranInitDone s
  | .stackRequestServe ch => Sys2Proof.Machine.execStackRequestServe ch s
  | .stackWindowEnd ch => Sys2Proof.Machine.execStackWindowEnd ch s
  | .refreshWindow ch => Sys2Proof.Machine.execRefreshWindow ch s
  | .timerRefresh ch => Sys2Proof.Machine.execTimerRefresh ch s
  | .maintenanceCycle bank => Sys2Proof.Machine.execMaintenanceCycle bank s
  | .fillDone => Sys2Proof.Machine.execFillDone s
  | .stackTempRead t0 t1 => Sys2Proof.Machine.execStackTempRead t0 t1 s
  | .stackPhy stack => Sys2Proof.Machine.execStackPhy stack s
  | .portTraining port => Sys2Proof.Machine.execPortTraining port s
  | .trainingDone port peer => Sys2Proof.Machine.execTrainingDone port peer s
  | .laneFault port lanes => Sys2Proof.Machine.execLaneFault port lanes s
  | .flitError port err => Sys2Proof.Machine.execFlitError port err s
  | .replay port seq => Sys2Proof.Machine.execReplay port seq s
  | .dataMessage port msg => Sys2Proof.Machine.execDataMessage port msg s
  | .nackMsg port msg => Sys2Proof.Machine.execNackMsg port msg s
  | .noteMsg port msg => Sys2Proof.Machine.execNoteMsg port msg s
  | .receiveLanded port xfer => Sys2Proof.Machine.execReceiveLanded port xfer s
  | .sendDone port xfer => Sys2Proof.Machine.execSendDone port xfer s
  | .timeRequest => Sys2Proof.Machine.execTimeRequest s
  | .timeAnswer port t1 => Sys2Proof.Machine.execTimeAnswer port t1 s
  | .timeResponse port t1 t2 t3 => Sys2Proof.Machine.execTimeResponse port t1 t2 t3 s
  | .holdoverTimeout => Sys2Proof.Machine.execHoldoverTimeout s
  | .rateApply => Sys2Proof.Machine.execRateApply s
  | .bellSet path value => Sys2Proof.Machine.execBellSet path value s
  | .bellCtl path value => Sys2Proof.Machine.execBellCtl path value s
  | .vtAdvance path value => Sys2Proof.Machine.execVtAdvance path value s
  | .bellAlmSet path value => Sys2Proof.Machine.execBellAlmSet path value s
  | .almanacTick => Sys2Proof.Machine.execAlmanacTick s
  | .ptpSync port msg => Sys2Proof.Machine.execPtpSync port msg s
  | .ptpFollowUp port msg => Sys2Proof.Machine.execPtpFollowUp port msg s
  | .ptpDelayReq port msg => Sys2Proof.Machine.execPtpDelayReq port msg s
  | .ptpDelayResp port msg => Sys2Proof.Machine.execPtpDelayResp port msg s
  | .ptpPdelayReq port msg => Sys2Proof.Machine.execPtpPdelayReq port msg s
  | .ptpPdelayResp port msg => Sys2Proof.Machine.execPtpPdelayResp port msg s
  | .ptpPdelayRespFollowUp port msg => Sys2Proof.Machine.execPtpPdelayRespFollowUp port msg s
  | .ptpAnnounce port msg => Sys2Proof.Machine.execPtpAnnounce port msg s
  | .ptpSyncInterval port => Sys2Proof.Machine.execPtpSyncInterval port s
  | .ptpAnnounceInterval port => Sys2Proof.Machine.execPtpAnnounceInterval port s
  | .ppsOutRise => Sys2Proof.Machine.execPpsOutRise s
  | .ppsOutFall => Sys2Proof.Machine.execPpsOutFall s
  | .ppsIn => Sys2Proof.Machine.execPpsIn s
  | .pcieLinkUp speed width => Sys2Proof.Machine.execPcieLinkUp speed width s
  | .pcieLinkDown => Sys2Proof.Machine.execPcieLinkDown s
  | .perst low => Sys2Proof.Machine.execPerst low s
  | .hotReset => Sys2Proof.Machine.execHotReset s
  | .flr => Sys2Proof.Machine.execFlr s
  | .barRead bar offset len => Sys2Proof.Machine.execBarRead bar offset len s
  | .barWrite bar offset bytes => Sys2Proof.Machine.execBarWrite bar offset bytes s
  | .barTimeout tag => Sys2Proof.Machine.execBarTimeout tag s
  | .hostQTail path q value => Sys2Proof.Machine.execHostQTail path q value s
  | .hostDmaTransfer desc data ok => Sys2Proof.Machine.execHostDmaTransfer desc data ok s
  | .hostQCtl path q value => Sys2Proof.Machine.execHostQCtl path q value s
  | .injectionWord n => Sys2Proof.Machine.execInjectionWord n s
  | .doorbellTime ctx value => Sys2Proof.Machine.execDoorbellTime ctx value s
  | .doorbellTail ctx value => Sys2Proof.Machine.execDoorbellTail ctx value s
  | .msixUnmask v => Sys2Proof.Machine.execMsixUnmask v s
  | .regRead addr size => Sys2Proof.Machine.execRegRead addr size s
  | .regWrite addr size value => Sys2Proof.Machine.execRegWrite addr size value s
  | .memRead addr len => Sys2Proof.Machine.execMemRead addr len s
  | .memWrite addr bytes => Sys2Proof.Machine.execMemWrite addr bytes s
  | .usbAttach speed => Sys2Proof.Machine.execUsbAttach speed s
  | .hitchReadCycle addr => Sys2Proof.Machine.execHitchReadCycle addr s
  | .hitchWriteCycle addr word => Sys2Proof.Machine.execHitchWriteCycle addr word s
  | .publishCopy => Sys2Proof.Machine.execPublishCopy s
  | .bankSwap => Sys2Proof.Machine.execBankSwap s
  | .swapAcknowledge => Sys2Proof.Machine.execSwapAcknowledge s
  | .ageIncrement => Sys2Proof.Machine.execAgeIncrement s
  | .inboundCapture => Sys2Proof.Machine.execInboundCapture s
  | .captureAcknowledge => Sys2Proof.Machine.execCaptureAcknowledge s
  | .checkpointMiss p => Sys2Proof.Machine.execCheckpointMiss p s
  | .engineHang engine => Sys2Proof.Machine.execEngineHang engine s
  | .heartbeatTimeout block => Sys2Proof.Machine.execHeartbeatTimeout block s
  | .stewardWatchdogExpiry => Sys2Proof.Machine.execStewardWatchdogExpiry s
  | .recoveryRequest path value => Sys2Proof.Machine.execRecoveryRequest path value s
  | .unpark path value => Sys2Proof.Machine.execUnpark path value s
  | .dumpReadTimeout => Sys2Proof.Machine.execDumpReadTimeout s
  | .dumpDone => Sys2Proof.Machine.execDumpDone s
  | .recoveryDone unit => Sys2Proof.Machine.execRecoveryDone unit s
  | .recoveryEscalation unit => Sys2Proof.Machine.execRecoveryEscalation unit s
  | .deviceRecovery => Sys2Proof.Machine.execDeviceRecovery s
  | .deviceReset => Sys2Proof.Machine.execDeviceReset s
  | .inputStart => Sys2Proof.Machine.execInputStart s
  | .inputStop => Sys2Proof.Machine.execInputStop s
  | .powerGood => Sys2Proof.Machine.execPowerGood s
  | .powerSample mv ma => Sys2Proof.Machine.execPowerSample mv ma s
  | .overLimit => Sys2Proof.Machine.execOverLimit s
  | .thermalSample temps => Sys2Proof.Machine.execThermalSample temps s
  | .thermalTrip site => Sys2Proof.Machine.execThermalTrip site s
  | .pwrDomainReq path value => Sys2Proof.Machine.execPwrDomainReq path value s
  | .domainSwitch => Sys2Proof.Machine.execDomainSwitch s
  | .domainFault n => Sys2Proof.Machine.execDomainFault n s
  | .standby path => Sys2Proof.Machine.execStandby path s
  | .wakeAlarm => Sys2Proof.Machine.execWakeAlarm s
  | .stackPhyTrained => Sys2Proof.Machine.execStackPhyTrained s
  | .smbusReadWord cmd => Sys2Proof.Machine.execSmbusReadWord cmd s
  | .almanacSupplyChange supply => Sys2Proof.Machine.execAlmanacSupplyChange supply s
  | .usbDetach => Sys2Proof.Machine.execUsbDetach s
  | .configurationRequest req => Sys2Proof.Machine.execConfigurationRequest req s
  | .ptpDelayReqInterval port => Sys2Proof.Machine.execPtpDelayReqInterval port s
  | .wakeNTimeout => Sys2Proof.Machine.execWakeNTimeout s
  | .ppsInSeenExpiry => Sys2Proof.Machine.execPpsInSeenExpiry s
  | .hitchClockStopped => Sys2Proof.Machine.execHitchClockStopped s
  | .canBusOffRecovery ctl => Sys2Proof.Machine.execCanBusOffRecovery ctl s
  | .primarySideFault => Sys2Proof.Machine.execPrimarySideFault s
  | .headWordTake => Sys2Proof.Machine.execHeadWordTake s

end Sys2Proof.Machine
end

