-- ==== Sys2Proof/Machine/Tick.lean ====
section
/-! DEFINITION. The passing of time: what a step does when no command waits (the clock table of spec/01_architecture.md, R205, R75–R77;
log 1 and log 3). -/

namespace Sys2Proof.Machine

/-- The next edge of any clock after a time in the model's units: C every 20, F every 24, M every 15; the edges of T (48) and S (60) lie
among those of F and of C and M. -/
def nextEdge (t : Nat) : Nat := min (20 * (t / 20 + 1)) (min (24 * (t / 24 + 1)) (15 * (t / 15 + 1)))

/-! ### Ploughs at a C edge -/

/-- A late WAITC is counted and reported in the clock after its issue (R75, R93). -/
def Dev.waitLate (d : Dev) (n : Nat) (r : Report) : Dev :=
  let pl := d.plough n
  let mode := match pl.pmode with
    | some t => 1 + 2 * (t.sched % 8)
    | none => 0
  (d.bump (R.PLOUGH_WAIT_LATE n)).raiseFor pl.pmode 0x100B n pl.ctx pl.gen
    (dAt 16 8 r.pc + dAt 26 1 mode + dAt 28 4 r.ccount)

/-- The reports of the clocks before this one leave the plough: a late WAITC, or a checkpoint for the Reeve (R75, R76). -/
def State.reportsOut (s : State) (n : Nat) : State :=
  let rs := (s.dev.plough n).reports.filter fun r => decide (r.issue < s.dev.cclk)
  if rs.isEmpty then s
  else
    let s := s.upd fun d => d.updPlough n fun pl => { pl with reports := pl.reports.filter fun r => decide (d.cclk ≤ r.issue) }
    rs.foldl (fun s r => match r.num with
      | some k => s.cpReport n k r.ccount
      | none => s.upd fun d => d.waitLate n r) s

/-- In the clock after a SQUASH issues, the registers read zero (R60, R77). -/
def Plough.squashEdge (pl : Plough) (now : Nat) : Plough :=
  if pl.markOps.any fun o => o.squash && !o.known && o.issue + 1 == now then pl.squashZero now else pl

/-- A DMAWAIT ends when few enough transfers are outstanding (R85). -/
def Plough.dmaWaitEdge (pl : Plough) : Plough :=
  { pl with waits := pl.waits.filter fun x => match x with
      | .dma q lim => decide (lim < (pl.queue q).xfers.length)
      | _ => true }

/-- A running plough that neither waits nor has ended its slice goes on to its next bundle (R72, R74, R366). -/
def Plough.clockEdge (pl : Plough) (now : Nat) : Plough :=
  let pl := (pl.squashEdge now).dmaWaitEdge
  let pl := { pl with occ := pl.occ.filter (fun o => decide (now < o.hi)), opens := pl.opens.filter (fun o => decide (now ≤ o.1)) }
  if pl.status = .running ∧ pl.waits.isEmpty ∧ pl.ended = false ∧ pl.pcAt < now ∧ now < pl.issueTo then pl.advance now else pl

/-- One plough at a C edge. -/
def State.ploughEdge (s : State) (n : Nat) : State :=
  let s := (s.upd fun d => d.trapOut n).reportsOut n
  s.upd fun d =>
    if (d.plough n).status = .running then (d.updPlough n fun pl => pl.clockEdge d.cclk).fetchRead n else d

/-! ### The Steward's bundles (R94, R95) -/

/-- A store of the Steward's bundle is done: into its RAM, or through the management space, where a failure is a trap (R443). -/
def Dev.stewStoreOut (d : Dev) (va : Nat) (bs : List Byte) : Dev :=
  if inStewRam va bs.length then
    d.updStew fun x => { x with ram :=
      ((List.range bs.length).zip bs).foldl (fun m y => SMap.set (fun _ => 0) m (va - Config.stewRam + y.1) y.2) x.ram }
  else match d.mgmtWrite 23 0x5F false va bs with
    | (d, none) => d
    | (d, some r) => d.stewTrap (if r = 0x10 then 4 else 3)

/-- The stores of the Steward's bundle in slot order (R82). -/
def Dev.stewStores (d : Dev) : List (Nat × Nat × List Byte) :=
  (d.stew.stores.filter fun x => x.1 == slotL false) ++ d.stew.stores.filter fun x => x.1 == slotL true

/-- An S edge: the bundle that the Steward has issued in the clock before ends, and its code goes on to the next (R72, R74, R95). -/
def Dev.stewEdge (d : Dev) : Dev :=
  let next := fun (d : Dev) => d.updStew fun x => { x with issuing := false, trapped := false, stores := [], idx := x.idx + 1 }
  if d.stew.trapped then next d
  else if !d.stew.issuing then d
  else
    let now := d.stew.idx + 1
    let d := d.updPlough stewCore fun pl => ({ pl.view now with pend := pl.pend.filter fun x => decide (now < x.land) }).advance now
    next (d.stewStores.foldl (fun d x => d.stewStoreOut x.2.1 x.2.2) d)

/-! ### The edges -/

/-- A C edge: the issues of the clock before take their places (R88), the ploughs go on, then the links' wires (R406). -/
def State.cEdge (s : State) : State :=
  let s := iter 16 (s.upd Dev.placeIssues) fun n s => s.ploughEdge n
  s.upd fun d => iter 4 d fun p d => d.linkPump p

/-- An F edge: the collector's clock ends (R29), the troughs' read sides go on (R193, R197, R199, R200), stalled injection queues count (R425), retirements go on (R372). -/
def Dev.fEdge (d : Dev) : Dev := (iter 16 d.collectorEdge fun n d => d.troughEdge n).injStall.retireAll

/-- A T edge: device time advances (R205), the stamp unit converts an edge (R208); after a set or a step the triggers skip what lies in the past (R207). -/
def Dev.timeEdge (d : Dev) : Dev :=
  let moved := d.bell.setPend.isSome || d.bell.stepPend.isSome
  let d := d.tEdge.convertClock
  if moved then d.trigSkip else d

/-- What the clock edges at the present time do, while the fabric's clocks run. Words of port samples whose instant has come are written first
(R526). -/
def State.edges (s : State) : State :=
  let c := s.dev.clk
  let s := s.upd fun d => iter 16 d fun n d => d.portPump n
  let s := if c % 48 = 0 then s.upd Dev.timeEdge else s
  let s := if c % 60 = 0 then s.upd Dev.stewEdge else s
  let s := if c % 20 = 0 then s.cEdge else s
  let s := if c % 24 = 0 then s.upd Dev.fEdge else s
  if c % 15 = 0 then s.upd Dev.barPump else s

/-- Time goes on to the next clock edge (log 1). -/
def tick (s : State) : State :=
  let s := s.upd fun d => { d with clk := nextEdge d.clk }
  if s.dev.pwr.good then s.edges else s

end Sys2Proof.Machine
end

