-- ==== Sys2Proof/Safety.lean ====
section
/-! DEFINITION. The words the statements use: what it is for a command to complete, for a slot of a bundle to execute, and for a
step to go on. -/

namespace Sys2Proof.Safety

open Sys2Proof.Machine

/-- A step that answers a next state. -/
def Goes (s : State) : Prop := ∃ t, step s = .next t

/-- A command answers a next state, and that state is related to the one before as `E` says. -/
def Completes (i : Instr) (s : State) (E : State → Prop) : Prop := ∃ t, exec i s = .next t ∧ E t

/-- A slot of a core's bundle executes now (R63, R64, R94, R366): the bundle issues, its fetch does not fault, the guard holds. The Steward's
bundle is that of the present S clock, while its code runs (log 96). -/
def Executes (s : State) (p : Runner) (w : BitVec 64) : Prop :=
  (match p with
    | .plough n => (s.dev.plough n.toNat).issues s.dev.cclk = true ∧ s.dev.fetchFault n.toNat = none
    | .steward => s.dev.firmware = true ∧ s.dev.stew.trapped = false) ∧
  (s.dev.pview p.toNat).guard w = true

/-- The device once a core's bundle has begun: the Steward keeps that it issues one in this clock. -/
def begun (d : Dev) : Runner → Dev
  | .plough _ => d
  | .steward => d.updStew fun x => { x with issuing := true }

/-- A control slot stands where R73 allows it: in no delay bundle and not in the last bundle of a loop body. -/
def PlacedWell (s : State) (p : Runner) : Prop :=
  (s.dev.plough p.toNat).branch = none ∧ ((s.dev.plough p.toNat).loops.any fun l => l.last == (s.dev.plough p.toNat).pc) = false

/-- The next state in which a result of a core is in flight and nothing else has changed (R65). -/
def withResult (s : State) (p : Runner) (slot lat : Nat) (dst : Dest) : Host.Outcome State Fault Refusal :=
  .next { s with dev := (begun s.dev p).updPlough p.toNat fun pl =>
    { pl with pend := pl.pend ++ [⟨s.dev.coreClock p.toNat + lat, s.dev.coreClock p.toNat, slot, dst⟩] } }

/-- The command answers the state in which the device has become `d` and nothing outside it has changed: no command waits that did not
wait before, and what a device reset keeps is as it was. -/
def Gives (i : Instr) (s : State) (d : Dev) : Prop := exec i s = .next { s with dev := d }

/-- The next state in which a core has changed as `f` says and nothing else. -/
def withPlough (s : State) (p : Runner) (f : Plough → Plough) : Host.Outcome State Fault Refusal :=
  .next { s with dev := (begun s.dev p).updPlough p.toNat f }

/-- The device once plough `p` holds the Barn port for `port` clocks from now; an access elsewhere takes no port (R83). -/
def portTaken (d : Dev) (p : BitVec 4) (barn : Bool) (port : Nat) : Dev :=
  if barn then d.occupy p.toNat 0 0 d.cclk (d.cclk + port) else d

/-- An aligned access of plough `p` to `n` bytes at `va` translates to pieces, and the Barn port it needs is free (R79, R81, R83). -/
def Reaches (s : State) (p : BitVec 4) (va n al port : Nat) (write : Bool) (ps : Pieces) : Prop :=
  va % al = 0 ∧ s.dev.lxlate p.toNat (s.dev.plough p.toNat) va n write = .ok ps ∧
    (ps.barn = true → (s.dev.plough p.toNat).busy 0 0 s.dev.cclk (s.dev.cclk + port) = false)

/-- A load reads `bs` under the code, from the Barn or not, and leaves the device as `d`: by a plough, from pages that ask nothing of provisional
mode; by the Steward, from its RAM or through the management space (R94). -/
def Loads (s : State) (p : Runner) (va n al port : Nat) (barn : Bool) (bs : List Byte) (d : Dev) : Prop :=
  match p with
  | .plough k => ∃ ps, Reaches s k va n al port false ps ∧ ps.barn = barn ∧
      (∀ x ∈ ps, (portTaken s.dev k barn port).provLoad ((portTaken s.dev k barn port).plough k.toNat) x.2.2 = .plain) ∧
      (portTaken s.dev k barn port).readRange k.toNat va ps = (d, bs, none)
  | .steward => va % al = 0 ∧ barn = false ∧
      (inStewRam va n = true → d = begun s.dev .steward ∧
        bs = (List.range n).map fun i => SMap.get (fun _ => 0) s.dev.stew.ram (va - Config.stewRam + i)) ∧
      (inStewRam va n = false → (begun s.dev .steward).mgmtRead 23 0x5F false va n = (d, .ok bs))

/-- A store of plough `p` in committed mode to words without an uncorrectable error that the store would only cover in part. -/
def Stores (s : State) (p : BitVec 4) (va n al port : Nat) (ps : Pieces) : Prop :=
  Reaches s p va n al port true ps ∧ ((portTaken s.dev p ps.barn port).plough p.toNat).pmode = none ∧
    ∀ fresh who, (portTaken s.dev p ps.barn port).piecesStop fresh who ps = (portTaken s.dev p ps.barn port, false)

/-- The device once a store's bytes are held for the pieces until the bundle retires (R82, R91). -/
def heldStore (s : State) (p : BitVec 4) (port slot : Nat) (ps : Pieces) (bs : List Byte) : Dev :=
  (cutPieces ps bs).foldl (fun d x => d.holdEff p.toNat slot (.store x.1 x.2.1 x.2.2)) (portTaken s.dev p ps.barn port)

/-- A load of plough `p` of several ranges from pages that ask nothing of provisional mode; the Barn port, held `port` clocks when a range
lies in the Barn, is free. It reads `bss` under the code and leaves the device as `d`. -/
def LoadsAll (s : State) (p : BitVec 4) (ranges : List (Nat × Nat)) (port : Nat) (keys : List (Nat × Pieces))
    (bss : List (List Byte)) (d : Dev) : Prop :=
  s.dev.lxlateAll p.toNat (s.dev.plough p.toNat) false ranges = .ok keys ∧
    (anyBarn keys = true → (s.dev.plough p.toNat).busy 0 0 s.dev.cclk (s.dev.cclk + port) = false) ∧
    (∀ e ∈ allPtes keys, (portTaken s.dev p (anyBarn keys) port).provLoad ((portTaken s.dev p (anyBarn keys) port).plough p.toNat) e = .plain) ∧
    (portTaken s.dev p (anyBarn keys) port).readPieces p.toNat keys = (d, bss, none)

/-- The command answers a state in which only the device has changed, as `E` says. -/
def Yields (i : Instr) (s : State) (E : Dev → Prop) : Prop := ∃ d, Gives i s d ∧ E d

/-- The command changes nothing: its trigger has not come. -/
def Idle (i : Instr) (s : State) : Prop := exec i s = .next s

end Sys2Proof.Safety
end

