-- ==== Sys2Proof/Certificates/Slice0/Obligations.lean ====
section
/-! DEFINITION. The statements for the provers, chapter by chapter of the spec, then the whole block. -/

open Sys2Proof Sys2Proof.Machine Sys2Proof.Safety

/-- R68: the results of the register-register operations of S0 and S1, their latencies, and nothing else changed. R68: CLZ and POPC with
rb zero, and SEL, whose predicate stands in [31:28]. R68: the results of the operations with imm32, sign-extended, and nothing else
changed. MOVI needs ra = 0. -/
def Obligations.ScalarSlotResults : Prop :=
  (∀ (s : State) (p : Runner) (s1 : Bool) (w : BitVec 64), Executes s p w → zeros w [(0, 33)] = true →
    let v := s.dev.pview p.toNat
    let a := v.rdS (fRa w)
    let b := v.rdS (fRb w)
    let put := fun (lat : Nat) (x : BitVec 64) => withResult s p (slotS s1) lat (.scalar (fRd w) x)
    exec (.add p s1 w) s = put 1 (a + b) ∧ exec (.sub p s1 w) s = put 1 (a - b) ∧
    exec (.and p s1 w) s = put 1 (a &&& b) ∧ exec (.or p s1 w) s = put 1 (a ||| b) ∧ exec (.xor p s1 w) s = put 1 (a ^^^ b) ∧
    exec (.shl p s1 w) s = put 1 (a <<< b.extractLsb' 0 6) ∧ exec (.shr p s1 w) s = put 1 (a >>> b.extractLsb' 0 6) ∧
    exec (.sra p s1 w) s = put 1 (a.sshiftRight' (b.extractLsb' 0 6)) ∧
    exec (.mul p s1 w) s = put 3 (a * b) ∧
    exec (.mulhs p s1 w) s = put 3 ((a.signExtend 128 * b.signExtend 128).extractLsb' 64 64) ∧
    exec (.mulhu p s1 w) s = put 3 ((a.zeroExtend 128 * b.zeroExtend 128).extractLsb' 64 64) ∧
    exec (.min p s1 w) s = put 1 (if a.sle b then a else b) ∧ exec (.max p s1 w) s = put 1 (if a.sle b then b else a) ∧
    exec (.minu p s1 w) s = put 1 (if a.ule b then a else b) ∧ exec (.maxu p s1 w) s = put 1 (if a.ule b then b else a)) ∧
  (∀ (s : State) (p : Runner) (s1 : Bool) (w : BitVec 64), Executes s p w →
    let v := s.dev.pview p.toNat
    let a := v.rdS (fRa w)
    let put := fun (x : BitVec 64) => withResult s p (slotS s1) 1 (.scalar (fRd w) x)
    (zeros w [(0, 39)] = true →
      exec (.clz p s1 w) s = put a.clz ∧
      exec (.popc p s1 w) s = put (BitVec.ofNat 64 ((List.range 64).countP fun i => a.getLsbD i))) ∧
    (zeros w [(0, 28), (32, 1)] = true →
      exec (.sel p s1 w) s = put (if v.rdP (wf' w 28 4) then a else v.rdS (fRb w)))) ∧
  (∀ (s : State) (p : Runner) (s1 : Bool) (w : BitVec 64), Executes s p w → zeros w [(32, 7)] = true →
    let a := (s.dev.pview p.toNat).rdS (fRa w)
    let low := w.extractLsb' 0 32
    let imm := low.signExtend 64
    let put := fun (x : BitVec 64) => withResult s p (slotS s1) 1 (.scalar (fRd w) x)
    exec (.addi p s1 w) s = put (a + imm) ∧ exec (.andi p s1 w) s = put (a &&& imm) ∧ exec (.ori p s1 w) s = put (a ||| imm) ∧
    exec (.xori p s1 w) s = put (a ^^^ imm) ∧
    exec (.shli p s1 w) s = put (a <<< w.extractLsb' 0 6) ∧ exec (.shri p s1 w) s = put (a >>> w.extractLsb' 0 6) ∧
    exec (.srai p s1 w) s = put (a.sshiftRight' (w.extractLsb' 0 6)) ∧
    exec (.movhi p s1 w) s = put (low ++ a.extractLsb' 0 32) ∧
    (fRa w = 0 → exec (.movi p s1 w) s = put imm))

/-- R69: CMP, CMPI and PLOG write the predicate pd. -/
def Obligations.PredicateResults : Prop :=
  ∀ (s : State) (p : Runner) (s1 : Bool) (w : BitVec 64), Executes s p w → wf' w 49 2 = 0 →
    let v := s.dev.pview p.toNat
    let a := v.rdS (fRa w)
    let b := v.rdS (fRb w)
    let imm := (w.extractLsb' 0 32).signExtend 64
    let put := fun (x : Bool) => withResult s p (slotS s1) 1 (.pred (wf' w 45 4) x)
    let test := fun (c : Nat) (a b : BitVec 64) =>
      [a == b, a != b, a.slt b, a.sle b, b.slt a, b.sle a, a.ult b, a.ule b, b.ult a, b.ule a].getD c false
    (zeros w [(0, 28), (32, 1)] = true → wf' w 28 4 ≤ 9 → exec (.cmp p s1 w) s = put (test (wf' w 28 4) a b)) ∧
    (wf' w 32 3 = 0 → wf' w 35 4 ≤ 9 → exec (.cmpi p s1 w) s = put (test (wf' w 35 4) a imm)) ∧
    (zeros w [(0, 28), (32, 5)] = true → wf' w 28 4 ≤ 3 →
      let x := v.rdP (wf' w 41 4)
      let y := v.rdP (wf' w 37 4)
      exec (.plog p s1 w) s = put ([x && y, x || y, Bool.xor x y, x && !y].getD (wf' w 28 4) false))

/-- R70: MOVS reads the special registers at issue. -/
def Obligations.MovsReadsSpecials : Prop :=
  (∀ (s : State) (p : BitVec 4) (s1 : Bool) (w : BitVec 64), Executes s (.plough p) w → zeros w [(32, 13), (11, 21)] = true →
    let pl := s.dev.plough p.toNat
    let put := fun (x : Nat) => withResult s (.plough p) (slotS s1) 1 (.scalar (fRd w) (BitVec.ofNat 64 x))
    (wf' w 0 11 = 0 → exec (.movs (.plough p) s1 w) s = put (s.dev.cclk - s.dev.plan.cBase)) ∧
    (wf' w 0 11 = 1 → exec (.movs (.plough p) s1 w) s = put s.dev.plan.period) ∧
    (wf' w 0 11 = 2 → exec (.movs (.plough p) s1 w) s = put p.toNat) ∧
    (wf' w 0 11 = 3 → pl.ctx < 4096 → pl.gen < 2 ^ 20 → exec (.movs (.plough p) s1 w) s = put (pl.ctx + 4096 * pl.gen)) ∧
    (wf' w 0 8 = 4 → exec (.movs (.plough p) s1 w) s = put (s.dev.markNow (wf' w 8 3))) ∧
    (wf' w 0 11 = 5 → pl.pmode = none → exec (.movs (.plough p) s1 w) s = put 0) ∧
    (wf' w 0 11 = 5 → ∀ k m, k < 8 → m < 2 ^ 32 → pl.pmode = some ⟨k, m⟩ → exec (.movs (.plough p) s1 w) s = put (1 + 2 * k + 16 * m))) ∧
  (∀ (s : State) (s1 : Bool) (w : BitVec 64), Executes s .steward w → zeros w [(32, 13), (8, 24)] = true →
    let t : State := { s with dev := { s.dev with free := s.dev.free + 1 } }
    (wf' w 0 8 = 2 ∨ wf' w 0 8 = 3 → exec (.movs .steward s1 w) s =
      withResult t .steward (slotS s1) 1 (.scalar (fRd w) (BitVec.ofNat 64 (Config.freeNat s.dev.free)))) ∧
    (wf' w 0 8 ≠ 2 → wf' w 0 8 ≠ 3 → Gives (.movs .steward s1 w) s ((begun t.dev .steward).stewTrap 1)))

/-- R67: a result aimed at s0 or p0 takes the same time, raises no fault, and is discarded when it lands. -/
def Obligations.ZeroRegistersDiscard : Prop :=
  (∀ (pl : Plough) (x : BitVec 64) (b : Bool), pl.land (.scalar 0 x) = pl ∧ pl.land (.pred 0 b) = pl ∧ pl.rdS 0 = 0 ∧ pl.rdP 0 = true) ∧
  (∀ (s : State) (p : Runner) (s1 : Bool) (w : BitVec 64), Executes s p w →
    (zeros w [(0, 33)] = true → ∀ rd, fRd w = rd →
      ∃ x, exec (.add p s1 w) s = withResult s p (slotS s1) 1 (.scalar rd x)) ∧
    (zeros w [(0, 28), (32, 1), (49, 2)] = true → wf' w 28 4 ≤ 9 → ∀ pd, wf' w 45 4 = pd →
      ∃ b, exec (.cmp p s1 w) s = withResult s p (slotS s1) 1 (.pred pd b)))

/-- R71, R72: a taken B, BR or CALL names its target and leaves two delay bundles; CALL also sets s63 to the address three bundles on.
R72: the two bundles after a taken branch are the next two sequential ones, and the third is the target. -/
def Obligations.BranchesTake : Prop :=
  (∀ (s : State) (p : Runner) (w : BitVec 64), Executes s p w → PlacedWell s p →
    let pc := (s.dev.plough p.toNat).pc
    let off := (w.extractLsb' 0 32).signExtend 64
    let target := (BitVec.ofNat 64 pc + 64#64 * off).toNat
    let ra := ((s.dev.pview p.toNat).rdS (fRa w)).toNat
    (zeros w [(32, 19)] = true →
      exec (.b p w) s = withPlough s p (fun pl => { pl with branch := some (target, 2) }) ∧
      Gives (.call p w) s (((begun s.dev p).branchTo p.toNat target).result p.toNat slotK 1 (.scalar 63 (BitVec.ofNat 64 (pc + 192))))) ∧
    (zeros w [(45, 6), (0, 39)] = true → ra % 64 = 0 →
      exec (.br p w) s = withPlough s p (fun pl => { pl with branch := some (ra, 2) }))) ∧
  (∀ (pl : Plough) (target c : Nat), pl.branch = some (target, 2) → pl.pc + 128 < 2 ^ 64 →
    let a := pl.advance (c + 1)
    let b := a.advance (c + 2)
    let e := b.advance (c + 3)
    a.pc = pl.pc + 64 ∧ b.pc = pl.pc + 128 ∧ e.pc = target ∧ e.pcAt = c + 3 ∧ e.branch = none)

/-- R74: LOOP and LOOPI start a hardware loop whose body begins at the next bundle; a third active level is ILLEGAL. R74: a body of len
bundles runs count times with no bundle between iterations and then the bundle after it issues; with count 0 that bundle issues at once; a
branch ends every level whose body it leaves. -/
def Obligations.LoopsRun : Prop :=
  (∀ (s : State) (p : Runner) (w : BitVec 64), Executes s p w → PlacedWell s p → zeros w [(32, 7)] = true →
    let v := s.dev.pview p.toNat
    let ra := ((v.rdS (fRa w)).toNat) % 2 ^ 32
    let enter := fun (n : Nat) => withPlough s p (fun pl => { pl with
      loopEnter := some ⟨bundleAt v.pc 1, bundleAt v.pc (fImmInt w), n⟩ })
    (v.loops.length < 2 → exec (.loopi p w) s = enter (wf' w 39 12)) ∧
    (v.loops.length < 2 → fRd w = 0 → exec (.loop p w) s = enter ra) ∧
    (v.loops.length = 2 → 0 < wf' w 39 12 → Gives (.loopi p w) s ((begun s.dev p).plFault p.toNat slotK illegalF))) ∧
  ((∀ (pl : Plough) (n len c : Nat), pl.branch = none → pl.loops = [] → 1 ≤ len → pl.pc + 64 * len + 64 < 2 ^ 64 →
    pl.loopEnter = some ⟨pl.pc + 64, pl.pc + 64 * len, n⟩ →
    let after := fun (k : Nat) => (List.range k).foldl (fun (x : Plough) i => x.advance (c + i)) pl
    (∀ k < n * len, (after (k + 1)).pc = pl.pc + 64 + 64 * (k % len)) ∧ (after (n * len + 1)).pc = pl.pc + 64 * len + 64) ∧
  (∀ (pl : Plough) (t now : Nat), pl.branch = some (t, 0) →
    (pl.advance now).pc = t ∧ ∀ l, l ∈ (pl.advance now).loops ↔ l ∈ pl.loops ∧ l.first ≤ t ∧ t ≤ l.last))

/-- R75, R76, R78, R71: WAITC, CHKPT, SLICE_END, TRAP and NOP, and the end of a wait. R75: WAITC_RELEASE: the plough goes on to its next
bundle when CCOUNT has reached the clock it waits for. -/
def Obligations.ControlCompletes : Prop :=
  (∀ (s : State) (p : BitVec 4) (w : BitVec 64), Executes s (.plough p) w →
    let d := s.dev
    let pc := (d.pview p.toNat).pc
    let clock := wf' w 0 32
    let report := fun (num : Option Nat) => withPlough s (.plough p) (fun pl => { pl with reports := pl.reports ++ [⟨d.cclk, d.ccount, pc, num⟩] })
    (zeros w [(32, 19)] = true → d.ccount < clock →
      exec (.waitc (.plough p) w) s = withPlough s (.plough p) (fun pl => { pl with waits := pl.waits ++ [.clock clock] })) ∧
    (zeros w [(32, 19)] = true → clock ≤ d.ccount → exec (.waitc (.plough p) w) s = report none) ∧
    (zeros w [(16, 35)] = true → exec (.chkpt (.plough p) w) s = report (some (wf' w 0 16))) ∧
    (zeros w [(0, 51)] = true → exec (.sliceEnd (.plough p) w) s = withPlough s (.plough p) (fun pl => { pl with ended := true, stopped := true }))) ∧
  (∀ (s : State) (p : Runner) (w : BitVec 64), Executes s p w →
    let d := begun s.dev p
    (zeros w [(16, 35)] = true →
      Gives (.trap p w) s (d.plFault p.toNat slotK { code := 0x100A, low := wf' w 0 16, info := wf' w 0 16 })) ∧
    (∀ slot, zeros w [(56, 8), (0, 51)] = true → Gives (.nop p slot w) s d)) ∧
  (∀ (s : State) (p : BitVec 4) (c : Nat),
    let d := s.dev
    let n := p.toNat
    let pl := d.plough n
    (pl.waits = [.clock c] → c ≤ d.ccount →
      Gives (.waitcRelease p) s ((d.updPlough n fun _ => { pl with waits := [] }.advance d.cclk).fetchRead n)) ∧
    (∀ x, pl.waits = [.clock c, x] → c ≤ d.ccount → (∀ k, x ≠ .clock k) →
      Gives (.waitcRelease p) s (d.updPlough n fun _ => { pl with waits := [x] })) ∧
    ((∀ k, .clock k ∈ pl.waits → d.ccount < k) → Idle (.waitcRelease p) s))

/-- R77: COMMIT and SQUASH inside a window of their kind that serves the context start, to complete 16 and 64 C clocks after issue. R60,
R77: when the clocks of the oldest COMMIT or SQUASH of a plough have passed and its mark is not yet resolved, provisional mode of its
schedule ends on the plough and the mark is committed or squashed. R77: one whose mark was sealed or squashed before it issued changes
nothing. -/
def Obligations.MarkOpsStartAndEnd : Prop :=
  (∀ (s : State) (p : BitVec 4) (w : BitVec 64), Executes s (.plough p) w → zeros w [(45, 6), (35, 4), (0, 32)] = true →
    let d := s.dev
    let v := d.pview p.toNat
    let t : PTag := ⟨wf' w 32 3, (v.rdS (fRa w)).toNat % 2 ^ 32⟩
    let serves := fun (bit : Nat) => d.windowFor 0 v.ctx fun e => e.kind == 0x20 + t.sched && e.flags.testBit bit
    let start := fun (squash : Bool) (lat : Nat) => withPlough s (.plough p) (fun pl => { pl with
      markOps := pl.markOps ++ [⟨squash, t, d.cclk, d.cclk + lat, (d.markSealed t).isSome⟩] })
    ((serves 1).isSome → exec (.commit (.plough p) w) s = start false 16) ∧
    ((serves 2).isSome → exec (.squash (.plough p) w) s = start true 64) ∧
    (serves 1 = none → Gives (.commit (.plough p) w) s (d.plFault p.toNat slotK { code := 0x1001 }))) ∧
  (∀ (s : State) (p : BitVec 4) (o : MarkOp),
    let n := p.toNat
    let pl := s.dev.plough n
    let ended := (s.dev.updPlough n fun pl =>
        { pl with markOps := pl.markOps.erase o }).updPlough n
      fun pl => { pl with pmode := pl.pmode.filter fun t => t.sched != o.tag.sched }
    o.known = false → s.dev.markSealed o.tag = none →
    (pl.markOps.find? (fun o => o.squash == false && decide (o.due ≤ s.dev.cclk)) = some o →
      Gives (.commitDone p) s (ended.commitMark o.tag pl.ctx pl.gen)) ∧
    (pl.markOps.find? (fun o => o.squash == true && decide (o.due ≤ s.dev.cclk)) = some o →
      Gives (.squashDone p) s (ended.squashMark o.tag))) ∧
  (∀ (s : State) (p : BitVec 4) (o : MarkOp), o.known = true →
    let pl := s.dev.plough p.toNat
    let left := s.dev.updPlough p.toNat fun pl => { pl with markOps := pl.markOps.erase o }
    (pl.markOps.find? (fun o => o.squash == false && decide (o.due ≤ s.dev.cclk)) = some o → Gives (.commitDone p) s left) ∧
    (pl.markOps.find? (fun o => o.squash == true && decide (o.due ≤ s.dev.cclk)) = some o → Gives (.squashDone p) s left))

/-- R80, R83: the scalar loads put the bytes read, extended as the opcode says, in flight to rd, 4 clocks from a local store and 40 from
the Barn. R80, R84: VLD brings 1,024 bytes to vd over two clocks of the Barn port; DLD brings 64 bytes to dd when the Hedge accepts them
and the plough is in no provisional mode. R80, R82, R91: a store holds its bytes until its bundle retires; memory is as it was. -/
def Obligations.LoadsAndStores : Prop :=
  (∀ (s : State) (p : Runner) (l1 : Bool) (w : BitVec 64) (n : Nat) (barn : Bool) (bs : List Byte) (d : Dev),
    Executes s p w → zeros w [(32, 7)] = true →
    let va := ((s.dev.pview p.toNat).rdS (fRa w) + (w.extractLsb' 0 32).signExtend 64).toNat
    Loads s p va n n 1 barn bs d →
    let put := fun (i : Instr) (x : BitVec 64) =>
      Gives i s (d.result p.toNat (slotL l1) (if barn then 40 else 4) (.scalar (fRd w) x))
    (n = 1 → put (.ld8u p l1 w) ((BitVec.ofNat 8 (leNat bs)).zeroExtend 64) ∧
      put (.ld8s p l1 w) ((BitVec.ofNat 8 (leNat bs)).signExtend 64)) ∧
    (n = 2 → put (.ld16u p l1 w) ((BitVec.ofNat 16 (leNat bs)).zeroExtend 64) ∧
      put (.ld16s p l1 w) ((BitVec.ofNat 16 (leNat bs)).signExtend 64)) ∧
    (n = 4 → put (.ld32u p l1 w) ((BitVec.ofNat 32 (leNat bs)).zeroExtend 64) ∧
      put (.ld32s p l1 w) ((BitVec.ofNat 32 (leNat bs)).signExtend 64)) ∧
    (n = 8 → put (.ld64 p l1 w) (BitVec.ofNat 64 (leNat bs)))) ∧
  (∀ (s : State) (p : BitVec 4) (l1 : Bool) (w : BitVec 64) (barn : Bool) (bs : List Byte) (d : Dev),
    Executes s (.plough p) w → zeros w [(32, 7)] = true → fRd w < 32 →
    let va := ((s.dev.pview p.toNat).rdS (fRa w) + (w.extractLsb' 0 32).signExtend 64).toNat
    (Loads s (.plough p) va 1024 64 2 barn bs d →
      Gives (.vld (.plough p) l1 w) s (d.result p.toNat (slotL l1) (if barn then 44 else 6) (.vec (fRd w) (BitVec.ofNat 8192 (leNat bs))))) ∧
    (Loads s (.plough p) va 64 64 1 barn bs d → (d.plough p.toNat).pmode = none → (tdesc (descOfBytes bs)).formatBad = false →
      (tdesc (descOfBytes bs)).aliasReason = 0 →
      Gives (.dld (.plough p) l1 w) s (d.result p.toNat (slotL l1) (if barn then 48 else 8) (.desc (fRd w) (descOfBytes bs))))) ∧
  (∀ (s : State) (p : BitVec 4) (l1 : Bool) (w : BitVec 64) (ps : Pieces), Executes s (.plough p) w → zeros w [(32, 7)] = true →
    let v := s.dev.pview p.toNat
    let va := (v.rdS (fRa w) + (w.extractLsb' 0 32).signExtend 64).toNat
    let x := (v.rdS (fRd w)).toNat
    let held := fun (i : Instr) (port : Nat) (bs : List Byte) =>
      Gives i s (heldStore s p port (slotL l1) ps bs) ∧ (heldStore s p port (slotL l1) ps bs).mem = s.dev.mem
    (Stores s p va 1 1 1 ps → held (.st8 (.plough p) l1 w) 1 (leBytes 1 x)) ∧
    (Stores s p va 2 2 1 ps → held (.st16 (.plough p) l1 w) 1 (leBytes 2 x)) ∧
    (Stores s p va 4 4 1 ps → held (.st32 (.plough p) l1 w) 1 (leBytes 4 x)) ∧
    (Stores s p va 8 8 1 ps → held (.st64 (.plough p) l1 w) 1 (leBytes 8 x)) ∧
    (fRd w < 32 → Stores s p va 1024 64 2 ps → held (.vst (.plough p) l1 w) 2 (leBytes 1024 (v.rdV (fRd w)).toNat)) ∧
    (fRd w < 32 → Stores s p va 64 64 1 ps → held (.dst (.plough p) l1 w) 1 (leBytes 64 (v.rdD (fRd w)).toNat))) ∧
  (∀ (s : State) (l1 : Bool) (w : BitVec 64), Executes s .steward w → zeros w [(32, 7)] = true →
    let v := s.dev.pview stewCore
    let va := (v.rdS (fRa w) + (w.extractLsb' 0 32).signExtend 64).toNat
    let x := (v.rdS (fRd w)).toNat
    let kept := fun (i : Instr) (n : Nat) => va % n = 0 → inStewRam va n = true ∨
        (∃ ps, (begun s.dev .steward).xlateRange { req := 23, va := va, mgmt := true, write := true } (pagesOf n) n = .ok ps) →
      Gives i s (s.dev.updStew fun y => { y with issuing := true, stores := y.stores ++ [(slotL l1, va, leBytes n x)] })
    kept (.st8 .steward l1 w) 1 ∧ kept (.st16 .steward l1 w) 2 ∧ kept (.st32 .steward l1 w) 4 ∧ kept (.st64 .steward l1 w) 8)

/-- R94: on the Steward an operation that its subset leaves out (COMMIT, SQUASH, WAITC, CHKPT and SLICE_END; in L0 and L1 everything but LD*
and ST*; every V, M and X slot but NOP) is its illegal-instruction trap, whatever its operands. R65, R95: a read on the Steward sees a
result of any earlier bundle, whatever its latency, where a plough still sees the value before. That its results land in the order of a
plough's is the model's reading (log 96). -/
def Obligations.StewardSubset : Prop :=
  (∀ (s : State) (b : Bool) (w : BitVec 64) (i : Instr), Executes s .steward w →
    i ∈ ([.commit .steward w, .squash .steward w, .waitc .steward w, .chkpt .steward w, .sliceEnd .steward w, .vld .steward b w,
      .vst .steward b w, .dld .steward b w, .dst .steward b w, .dma .steward b w, .dmawait .steward b w, .vldt .steward b w,
      .mldw .steward b w, .mma .steward w, .mdrain .steward w, .vadd .steward w, .vsub .steward w, .vmul .steward w, .vfma .steward w,
      .vmin .steward w, .vmax .steward w, .vabs .steward w, .vneg .steward w, .vand .steward w, .vor .steward w, .vxor .steward w,
      .vshl .steward w, .vsra .steward w, .vcmp .steward w, .vsel .steward w, .vexp2 .steward w, .vlog2 .steward w, .vrcp .steward w,
      .vrsqrt .steward w, .vsqrt .steward w, .vcvt .steward w, .vbcast .steward w, .vred .steward w, .vperm .steward w, .vrot .steward w,
      .eissue .steward w, .ewait .steward w, .xsend .steward w, .xrecv .steward w, .xwait .steward w] : List Instr) →
    Gives i s ((begun s.dev .steward).stewTrap 1)) ∧
  (∀ (d : Dev) (slot lat r : Nat) (x : BitVec 64), r ≠ 0 → r < 64 → 1 ≤ lat →
    ((d.plough stewCore).pend = [] →
      let e := d.result stewCore slot lat (.scalar r x)
      (({ e with stew := { e.stew with idx := e.stew.idx + 1 } } : Dev).pview stewCore).rdS r = x) ∧
    (∀ p < 16, (d.plough p).pend = [] →
      let e := d.result p slot lat (.scalar r x)
      ∀ c, d.cclk < c / 20 → (({ e with clk := c } : Dev).pview p).rdS r = if d.cclk + lat ≤ c / 20 then x else (d.plough p).rdS r))

/-- R81: an L-slot access off its alignment faults with ALIGN and the address. -/
def Obligations.MisalignedAccessFaults : Prop :=
  (∀ (s : State) (p : BitVec 4) (l1 : Bool) (w : BitVec 64), Executes s (.plough p) w → zeros w [(32, 7)] = true →
    let va := ((s.dev.pview p.toNat).rdS (fRa w) + (w.extractLsb' 0 32).signExtend 64).toNat
    let fault := fun (i : Instr) => Gives i s (s.dev.plFault p.toNat (slotL l1) { code := 0x1007, low := va, info := va })
    (va % 2 ≠ 0 → fault (.ld16u (.plough p) l1 w) ∧ fault (.ld16s (.plough p) l1 w) ∧ fault (.st16 (.plough p) l1 w)) ∧
    (va % 4 ≠ 0 → fault (.ld32u (.plough p) l1 w) ∧ fault (.ld32s (.plough p) l1 w) ∧ fault (.st32 (.plough p) l1 w)) ∧
    (va % 8 ≠ 0 → fault (.ld64 (.plough p) l1 w) ∧ fault (.st64 (.plough p) l1 w)) ∧
    (va % 64 ≠ 0 → fRd w < 32 → fault (.vld (.plough p) l1 w) ∧ fault (.vst (.plough p) l1 w) ∧ fault (.dld (.plough p) l1 w) ∧ fault (.dst (.plough p) l1 w))) ∧
  (∀ (s : State) (l1 : Bool) (w : BitVec 64), Executes s .steward w → zeros w [(32, 7)] = true →
    let va := ((s.dev.pview stewCore).rdS (fRa w) + (w.extractLsb' 0 32).signExtend 64).toNat
    let trap := fun (i : Instr) => Gives i s ((begun s.dev .steward).stewTrap 2)
    (va % 2 ≠ 0 → trap (.ld16u .steward l1 w) ∧ trap (.ld16s .steward l1 w) ∧ trap (.st16 .steward l1 w)) ∧
    (va % 4 ≠ 0 → trap (.ld32u .steward l1 w) ∧ trap (.ld32s .steward l1 w) ∧ trap (.st32 .steward l1 w)) ∧
    (va % 8 ≠ 0 → trap (.ld64 .steward l1 w) ∧ trap (.st64 .steward l1 w)))

/-- R135, R136: the lane operations of the V slot that integer lanes have: each lane is computed from the same lane of va, vb and vc,
modulo the lane's width, and all land together. -/
def Obligations.VectorIntegerLanes : Prop :=
  ∀ (s : State) (p : BitVec 4) (w : BitVec 64), Executes s (.plough p) w → zeros w [(0, 19)] = true → Fp.fmtInt (fLt w) = true → laneW (fLt w) ≠ 0 →
    let v := s.dev.pview p.toNat
    let n := laneW (fLt w)
    let lane := fun (r k : Nat) => BitVec.ofNat n (Fp.elemAt (v.rdV r).toNat n k)
    let put := fun (i : Instr) (lat : Nat) (f : BitVec n → BitVec n → BitVec n → BitVec n) =>
      exec i s = withResult s (.plough p) slotV lat (.vec (vVd w) (ofLanes n ((List.range (8192 / n)).map fun k =>
        (f (lane (vVa w) k) (lane (vVb w) k) (lane (vVc w) k)).toNat)))
    put (.vadd (.plough p) w) 3 (fun a b _ => a + b) ∧ put (.vsub (.plough p) w) 3 (fun a b _ => a - b) ∧ put (.vmul (.plough p) w) 3 (fun a b _ => a * b) ∧
    put (.vmin (.plough p) w) 2 (fun a b _ => if a.sle b then a else b) ∧ put (.vmax (.plough p) w) 2 (fun a b _ => if a.sle b then b else a) ∧
    put (.vabs (.plough p) w) 2 (fun a _ _ => if a.msb then -a else a) ∧ put (.vneg (.plough p) w) 2 (fun a _ _ => -a) ∧
    put (.vand (.plough p) w) 1 (fun a b _ => a &&& b) ∧ put (.vor (.plough p) w) 1 (fun a b _ => a ||| b) ∧ put (.vxor (.plough p) w) 1 (fun a b _ => a ^^^ b) ∧
    put (.vshl (.plough p) w) 1 (fun a b _ => a <<< (b.toNat % n)) ∧ put (.vsra (.plough p) w) 1 (fun a b _ => a.sshiftRight (b.toNat % n)) ∧
    put (.vsel (.plough p) w) 2 (fun a b c => if c = 0 then b else a)

/-- R135, R136: the lane operations of the V slot on floating lanes: each lane is the exact result rounded once. -/
def Obligations.VectorFloatLanes : Prop :=
  ∀ (s : State) (p : BitVec 4) (w : BitVec 64), Executes s (.plough p) w → zeros w [(0, 19)] = true → Fp.fmtInt (fLt w) = false → laneW (fLt w) ≠ 0 →
    let v := s.dev.pview p.toNat
    let lt := fLt w
    let n := laneW lt
    let lane := fun (r k : Nat) => laneVal lt (Fp.elemAt (v.rdV r).toNat n k)
    let put := fun (i : Instr) (lat : Nat) (f : Fp.FVal → Fp.FVal → Fp.FVal → Fp.FVal) =>
      exec i s = withResult s (.plough p) slotV lat (.vec (vVd w) (ofLanes n ((List.range (8192 / n)).map fun k =>
        laneRound lt (f (lane (vVa w) k) (lane (vVb w) k) (lane (vVc w) k)))))
    put (.vadd (.plough p) w) 3 (fun a b _ => Fp.addV a b) ∧ put (.vsub (.plough p) w) 3 (fun a b _ => Fp.addV a (Fp.negV b)) ∧
    put (.vmul (.plough p) w) 3 (fun a b _ => Fp.mulV a b) ∧ put (.vfma (.plough p) w) 4 (fun a b c => Fp.addV (Fp.mulV a b) c) ∧
    put (.vmin (.plough p) w) 2 (fun a b _ => Fp.minV a b) ∧ put (.vmax (.plough p) w) 2 (fun a b _ => Fp.maxV a b) ∧
    put (.vabs (.plough p) w) 2 (fun a _ _ => absV a) ∧ put (.vneg (.plough p) w) 2 (fun a _ _ => Fp.negV a) ∧
    (lt = 0 → put (.vexp2 (.plough p) w) 12 (fun a _ _ => Fp.exp2V a) ∧ put (.vlog2 (.plough p) w) 12 (fun a _ _ => Fp.log2V a) ∧
      put (.vrcp (.plough p) w) 12 (fun a _ _ => Fp.divV (Fp.ofInt 1) a) ∧ put (.vrsqrt (.plough p) w) 12 (fun a _ _ => Fp.rsqrtV a) ∧
      put (.vsqrt (.plough p) w) 12 (fun a _ _ => Fp.sqrtV a))

/-- R135, R137, R138: comparisons, conversions, broadcast, reductions and the two uses of the permutation network. R105, R138, R139: VCVT
converts the first min(source lanes, 8,192 / destination width) elements, packs them from byte 0 of vd, with MX their scale bytes into vc,
and holds the counts of what saturated or was no number; into FX32, whose fraction count the instruction does not give, it converts at any
fraction count (the model's free value, log 21). -/
def Obligations.VectorNetworkAndConversions : Prop :=
  (∀ (s : State) (p : BitVec 4) (w : BitVec 64), Executes s (.plough p) w →
    let d := s.dev
    let v := d.pview p.toNat
    let lt := fLt w
    let n := laneW lt
    let a := v.rdV (vVa w)
    let b := v.rdV (vVb w)
    let vec := fun (lat : Nat) (x : BitVec 8192) => withResult s (.plough p) slotV lat (.vec (vVd w) x)
    let net := fun (lat : Nat) (l : List Nat) =>
      .next { s with dev := (d.occupy p.toNat 7 0 (d.cclk + 2) (d.cclk + 3)).result p.toNat slotV lat (.vec (vVd w) (ofLanes 64 l)) }
    let free := (d.plough p.toNat).busy 7 0 (d.cclk + 2) (d.cclk + 3) = false
    (zeros w [(0, 15)] = true → n ≠ 0 → wf' w 15 4 ≤ (if Fp.fmtInt lt then 9 else 5) →
      exec (.vcmp (.plough p) w) s = vec 2 (ofLanes n ((List.range (8192 / n)).map fun k =>
        laneCmp lt (wf' w 15 4) (Fp.elemAt a.toNat n k) (Fp.elemAt b.toNat n k)))) ∧
    (zeros w [(0, 13)] = true → n ≠ 0 → exec (.vbcast (.plough p) w) s =
      vec 2 (ofLanes n (List.replicate (8192 / n) ((v.rdS (wf' w 13 6)).toNat % 2 ^ n)))) ∧
    (zeros w [(0, 13)] = true → lt = 0 ∨ lt = 8 → wf' w 17 2 ≠ 3 → 1 ≤ wf' w 13 4 → wf' w 13 4 ≤ 8 →
      let lg := wf' w 13 4
      exec (.vred (.plough p) w) s = vec (4 + 3 * lg) (ofLanes 32 ((List.range (256 / 2 ^ lg)).map fun k =>
        redTree (redOp lt (wf' w 17 2)) lg (((lanesOf 32 a).drop (k * 2 ^ lg)).take (2 ^ lg))))) ∧
    (zeros w [(0, 19)] = true → n ≠ 0 → free → exec (.vperm (.plough p) w) s = net 20 (permLanes a b)) ∧
    (zeros w [(0, 12)] = true → n ≠ 0 → free → exec (.vrot (.plough p) w) s =
      net 15 ((List.range 128).map fun i => Fp.elemAt a.toNat 64 ((i + wf' w 12 7) % 128)))) ∧
  (∀ (s : State) (p : BitVec 4) (w : BitVec 64), Executes s (.plough p) w → zeros w [(0, 18)] = true →
    let d := s.dev
    let lt := fLt w
    let fmt := field (vCc w) 0 4
    let rm := field (vCc w) 4 3
    let mx := w.getLsbD 18
    let src := ((d.pview p.toNat).rdV (vVa w)).toNat
    let count := min (8192 / Fp.fmtBits lt) (8192 / Fp.fmtBits fmt)
    let vals := (List.range count).map fun k => Fp.decodeElem lt (Fp.elemAt src (Fp.fmtBits lt) k)
    let vals := if fmt = 12 then vals.map (Fp.scale2 ((Config.freeNat d.free % 32 : Nat) : Int)) else vals
    let d : Dev := if fmt = 12 then { d with free := d.free + 1 } else d
    let r := cvtRow fmt rm ((vCc w).testBit 7) mx (fun e => d.srFor p.toNat slotV e) vals
    let d1 := d.result p.toNat slotV 4 (.vec (vVd w) (BitVec.ofNat 8192 r.1))
    let d2 := if mx then d1.result p.toNat slotV 4 (.vec (vVc w) (ofLanes 8 r.2.1)) else d1
    Fp.fmtValid lt = true → lt ≠ 12 → Fp.fmtValid fmt = true → rm ≤ 4 → (mx = true → Fp.fmtMx fmt = true) →
      Gives (.vcvt (.plough p) w) s (if r.2.2.1 + r.2.2.2 = 0 then d2
        else d2.result p.toNat slotV 4 (.counts r.2.2.1 r.2.2.2 (d.plough p.toNat).pmode)))

/-- R85, R91, R148: a DMA whose descriptors are in order takes a place in its queue, a copy of its descriptors with it, and is held until
its bundle retires; with 16 transfers outstanding it is RESOURCE_COLLISION. An index descriptor is only checked when it is used. R85:
DMAWAIT goes on when at most limit transfers are outstanding, and else the plough waits. A transfer at the front of its queue whose stack
requests have been served moves its elements and leaves the queue; one of a stale generation is discarded and counted (R37). -/
def Obligations.DmaTransfers : Prop :=
  (∀ (s : State) (p : BitVec 4) (l1 : Bool) (w : BitVec 64) (d1 d2 : Dev) (sv tv : Option (List Int)), Executes s (.plough p) w →
    zeros w [(0, 44)] = true → wf' w 44 5 % 2 = 0 →
    let d := s.dev
    let n := p.toNat
    let v := d.pview n
    let q := wf' w 49 2
    let dd := wf' w 44 5
    let src := v.rdD dd
    let dst := v.rdD (dd + 1)
    let six := v.rdD (tdesc src).idxReg
    let dix := v.rdD (tdesc dst).idxReg
    ((d.plough n).queue q).haltOf v.ctx = none → dmaDescOk (tdesc src) (tdesc dst) (tdesc six) (tdesc dix) = true →
    d.indexSide n dd (tdesc src) (tdesc six) = (d1, .ok sv) → d1.indexSide n (dd + 1) (tdesc dst) (tdesc dix) = (d2, .ok tv) →
    (((d.plough n).queue q).xfers.length < 16 →
      let x : Dma := { src := src, dst := dst, srcIdx := six, dstIdx := dix, srcVals := sv, dstVals := tv, ctx := (d2.plough n).ctx,
                       gen := (d2.plough n).gen, tag := (d2.plough n).pmode, issue := d2.cclk, held := true }
      Gives (.dma (.plough p) l1 w) s ((d2.updPlough n fun pl => pl.setQueue q { pl.queue q with xfers := (pl.queue q).xfers ++ [x] }).holdEff n
        (slotL l1) (.dma q))) ∧
    (16 ≤ ((d.plough n).queue q).xfers.length →
      Gives (.dma (.plough p) l1 w) s (d2.plFault n (slotL l1) { code := 0x1002, b25 := 2, b27 := q }))) ∧
  (∀ (s : State) (p : BitVec 4) (l1 : Bool) (w : BitVec 64) (q : BitVec 2),
    let d := s.dev
    let n := p.toNat
    (Executes s (.plough p) w → zeros w [(8, 41)] = true → ((d.plough n).queue (wf' w 49 2)).haltOf (d.plough n).ctx = none →
      (((d.plough n).queue (wf' w 49 2)).xfers.length ≤ wf' w 0 8 → Idle (.dmawait (.plough p) l1 w) s) ∧
      (wf' w 0 8 < ((d.plough n).queue (wf' w 49 2)).xfers.length →
        exec (.dmawait (.plough p) l1 w) s = withPlough s (.plough p) fun pl => { pl with waits := pl.waits ++ [.dma (wf' w 49 2) (wf' w 0 8)] })) ∧
    (∀ (x : Dma) (rest : List Dma) (e : Dev), ((d.plough n).queue q.toNat).halt = none → ((d.plough n).queue q.toNat).xfers = x :: rest →
      x.held = false → (∀ y ∈ d.memc.reqs, y.req ≠ 4 * n + q.toNat) →
      (d.genOk x.ctx x.gen = true → d.dmaMove (x.who n q.toNat) x = (e, none) → Gives (.dmaTransferDone p q) s (e.dmaPop n q.toNat rest)) ∧
      (d.genOk x.ctx x.gen = false → Gives (.dmaTransferDone p q) s ((d.dmaPop n q.toNat rest).bump R.HEDGE_GEN_DISCARD))))

/-- R119, R120, R121: VLDT brings rows of A, or their scale bytes, into a vector register; MLDW brings a tile of B into a weight buffer.
R117, R122, R123: MMA adds the products of rows of A with the loaded tile to rows of a bank, row i 32 + i clocks after issue, or stores
them there when zero is set; the sums of one row of INT8 are those of the integers. R125, R126, R127: an MDRAIN without a fault puts its
rows in flight; neither memory nor a register changes at issue. -/
def Obligations.MatrixUnitWorks : Prop :=
  (∀ (s : State) (p : BitVec 4) (l1 : Bool) (w : BitVec 64) (keys : List (Nat × Pieces)) (bss : List (List Byte)) (d : Dev),
    Executes s (.plough p) w →
    let n := p.toNat
    let now := s.dev.cclk
    let v := s.dev.pview n
    let barn := anyBarn keys
    (zeros w [(0, 30)] = true →
      let t := tdesc (v.rdD (wf' w 41 5))
      let rs := (v.rdS (wf' w 35 6)).toNat
      let pcs := vldtPieces t (rs % 2 ^ 32) (rs / 2 ^ 32) (wf' w 31 4) (w.getLsbD 30)
      stepK t.fmt ≠ 0 → 1 ≤ wf' w 31 4 → wf' w 31 4 ≤ rowsPerV t.fmt → (w.getLsbD 30 = true → t.mx = true) → rowMajor2 t = true →
      LoadsAll s p (pcs.map fun x => pieceBytes (x.2.1, x.2.2)) 2 keys bss d →
      Gives (.vldt (.plough p) l1 w) s (d.result n (slotL l1) (if barn then 48 else 8) (.vec (wf' w 46 5) (vldtValue pcs bss)))) ∧
    (zeros w [(0, 39)] = true →
      let t := tdesc (v.rdD (wf' w 45 5))
      let rs := (v.rdS (wf' w 39 6)).toNat
      let wb := wf' w 50 1
      let pcs := mldwPieces t (rs % 2 ^ 32) (rs / 2 ^ 32)
      let scs := mldwScales t (rs % 2 ^ 32) (rs / 2 ^ 32)
      let clocks := tileClocks t barn
      stepK t.fmt ≠ 0 → rowMajor2 t = true →
      LoadsAll s p ((pcs ++ scs).map fun x => pieceBytes (x.2.1, x.2.2)) clocks keys bss d → d.cclk = now →
      (s.dev.plough n).busy 8 0 now (now + clocks) = false → (s.dev.plough n).busy 9 wb now (now + 1) = false →
      (s.dev.plough n).busy 2 wb now (now + 1) = false →
      Gives (.mldw (.plough p) l1 w) s (((d.occupy n 8 0 now (now + clocks)).occupy n 2 wb now (now + (if barn then 40 else 4) + clocks)).result n
        (slotL l1) ((if barn then 40 else 4) + clocks) (.wbuf wb (tileBuf t pcs scs bss (d.plough n).pmode.isSome none))))) ∧
  (∀ (s : State) (p : BitVec 4) (w : BitVec 64), Executes s (.plough p) w → zeros w [(0, 21)] = true →
    let d := s.dev
    let n := p.toNat
    let v := d.pview n
    let now := d.cclk
    let bank := wf' w 49 2
    let wb := wf' w 48 1
    let buf := if wb = 0 then v.w0 else v.w1
    let row := wf' w 31 7
    let count := wf' w 27 4
    let fa := wf' w 23 4
    let mx := w.getLsbD 22
    1 ≤ count → row + count ≤ 128 → count ≤ rowsPerV fa → (mx = true → Fp.fmtMx fa = true) → buf.loaded = true → buf.poison = none →
    pairOk fa mx buf.fmt buf.mx = true →
    (d.plough n).busy 1 0 now (now + count) = false → (d.plough n).busy 2 wb now (now + 1) = false →
    (d.plough n).busy 3 bank now (now + count + 32) = false →
      Gives (.mma (.plough p) w) s ((List.range count).foldl (fun e i =>
        e.result n slotM (i + 32) (.accStep bank (row + i) (w.getLsbD 21)
          (stepSums fa mx (Fp.elemAt (v.rdV (wf' w 43 5)).toNat (8 * rowBytes fa) i) (Fp.elemAt (v.rdV (wf' w 38 5)).toNat 64 i) buf)))
        (((d.occupy n 1 0 now (now + count)).occupy n 9 wb now (now + count)).occupy n 10 bank now (now + count + 32))) ∧
      (fa = 10 → mx = false → buf.fmt = 10 → ∀ a sc, stepSums fa mx a sc buf = (List.range 128).map fun c =>
        .int ((List.range 128).map fun k => toSigned 8 (Fp.elemAt a 8 k) * toSigned 8 (buf.elems.getD (128 * k + c) 0)).sum)) ∧
  (∀ (s : State) (p : BitVec 4) (w : BitVec 64) (keys : List (Nat × Pieces)), Executes s (.plough p) w → zeros w [(0, 5)] = true →
    let d := s.dev
    let x := (d.pview p.toNat).drain w
    x.fieldFault = none → d.lxlateAll p.toNat (d.plough p.toNat) true x.ranges = .ok keys → x.useFault d (d.plough p.toNat) keys = none →
      Yields (.mdrain (.plough p) w) s fun e => e = x.run d p.toNat (d.pview p.toNat) keys ∧ e.mem = d.mem ∧ e.regs = d.regs)

/-- R65, R127: RESULT_LAND lands every result of the plough whose clock has come, later bundles and later slots last, and leaves the
others in flight; steps that land are counted; a drained row is written under the code. With nothing due it changes nothing. R91: a bundle
retires 48 clocks after it issued: a store it holds is then written under the code, and not before. -/
def Obligations.PloughEffectsLand : Prop :=
  (∀ (s : State) (p : BitVec 4),
    let d := s.dev
    let n := p.toNat
    let due := (d.plough n).due d.cclk
    let landed := d.updPlough n fun pl => { pl.view d.cclk with pend := pl.pend.filter fun x => decide (d.cclk < x.land) }
    let rows := fun (e : Dev) (k : Nat) => e.setReg (R.PLOUGH_MAT_ROWS n) (e.reg (R.PLOUGH_MAT_ROWS n) + BitVec.ofNat 64 k)
    (due = [] → Idle (.resultLand p) s) ∧
    ((∀ x ∈ due, ∃ r v, x.dst = .scalar r v) → due ≠ [] → Gives (.resultLand p) s (rows landed 0)) ∧
    (∀ x b r z sums, due = [x] → x.dst = .accStep b r z sums → Gives (.resultLand p) s (rows landed 1)) ∧
    (∀ x k bs vis pte, due = [x] → x.dst = .memRow k bs vis pte →
      Gives (.resultLand p) s (rows (landed.writeKey k bs ⟨n, 0, (d.plough n).ctx, (d.plough n).gen⟩).1 0))) ∧
  (∀ (s : State) (p : BitVec 4),
    let d := s.dev
    let n := p.toNat
    let left := d.updPlough n fun pl => { pl with held := pl.held.filter fun h => decide (d.cclk < h.issue + 48) }
    ((∀ h ∈ (d.plough n).held, d.cclk < h.issue + 48) → Gives (.bundleRetire p) s left) ∧
    (∀ h key bs pte, (d.plough n).held.filter (fun h => decide (h.issue + 48 ≤ d.cclk)) = [h] → h.eff = .store key bs pte →
      Gives (.bundleRetire p) s ((left.writeKey key bs ⟨n, 0, (left.plough n).ctx, (left.plough n).gen⟩).1.hitchStore key bs)))

/-- R44, R88: an EISSUE in a window of its context that admits issues goes to the engine's queue and is held until its bundle retires; outside
every such window, and at an engine that the Reeve has parked, it is ENGINE_WINDOW. R88, R93: in the clock after issue it takes its place; a
full queue, and in the Mill and the Granary an issue of the same clock by a lower-numbered plough, is a RESOURCE_COLLISION of its bundle. R89: EWAIT with no outstanding issue of its context to the engine sets pd; else the plough
waits for the oldest, to the end of its window; when the window has ended pd is 0. R89, R257, R272, R294, R352: at the end of a window a
fusion window's cut is made, the ploughs that wait past it go on, and a job of the engine still outstanding is an overrun, once. R87,
R405: XSEND and XRECV take one of the 16 places of their port and direction until the bundle retires; XWAIT goes on when at most limit
transfers are outstanding on the port, and else the plough waits. -/
def Obligations.EngineAndLinkSlots : Prop :=
  (∀ (s : State) (p : BitVec 4) (w : BitVec 64), Executes s (.plough p) w → zeros w [(0, 30)] = true →
    let d := s.dev
    let n := p.toNat
    let v := d.pview n
    let e := wf' w 49 2
    let dd := wf' w 36 5
    (d.windowFor e v.ctx (fun x => issueKind e x.kind) = none → Gives (.eissue (.plough p) w) s (d.plFault n slotX { code := 0x1001 })) ∧
    (∀ win, d.windowFor e v.ctx (fun x => issueKind e x.kind) = some win → d.engineParked e = false →
      let j : Job :=
        { id := d.nextId, engine := e, lane := issueLane e win.kind, kind := wf' w 41 8, plough := n, ctx := v.ctx, gen := v.gen,
          addr := (v.rdS (wf' w 30 6)).toNat, dd := v.rdD dd, dd2 := v.rdD ((dd + 1) % 32), tag := (d.plough n).pmode, issue := d.cclk,
          winEnd := d.plan.cBase + win.start + win.len, accepted := false, acceptAt := 0, ran := false, result := 0, hold := 0,
          overrun := false, notes := [dd % 2] }
      Gives (.eissue (.plough p) w) s (({ d with nextId := d.nextId + 1, jobs := d.jobs ++ [j] } : Dev).holdEff n slotX (.issue j.id))) ∧
    (∀ win, d.windowFor e v.ctx (fun x => issueKind e x.kind) = some win → d.engineParked e = true →
      Gives (.eissue (.plough p) w) s (d.plFault n slotX { code := 0x1001 }))) ∧
  (∀ (d : Dev) (j : Job),
    let before := d.jobs.filter fun k => k.engine == j.engine && k.lane == j.lane &&
      (decide (k.issue < j.issue) || (k.issue == j.issue && decide (k.plough < j.plough)))
    let full := d.plFaultAt j.plough slotX j.issue
      { code := 0x1002, b25 := 3, b27 := j.engine + 16 * (if j.engine = 2 ∧ j.lane = 4 then 0xF else j.lane) }
    (issuePlaces j.engine ≤ before.length → d.placeIssue j = full) ∧
    (2 ≤ j.engine → (∃ k ∈ before, k.issue = j.issue) → d.placeIssue j = full) ∧
    (before.length < issuePlaces j.engine → (∀ k ∈ before, j.engine < 2 ∨ k.issue ≠ j.issue) → d.placeIssue j = d)) ∧
  (∀ (s : State) (p : BitVec 4) (w : BitVec 64), Executes s (.plough p) w → zeros w [(0, 45)] = true →
    let d := s.dev
    let n := p.toNat
    let v := d.pview n
    let e := wf' w 49 2
    let pd := wf' w 45 4
    let mine := d.jobs.find? fun j => j.engine == e && j.ctx == v.ctx && j.gen == v.gen
    (mine = none → exec (.ewait (.plough p) w) s = withResult s (.plough p) slotX 1 (.pred pd true)) ∧
    (∀ j, mine = some j → d.windowFor e v.ctx (fun x => issueKind e x.kind) = none →
      (j.winEnd ≤ d.cclk → exec (.ewait (.plough p) w) s = withResult s (.plough p) slotX 1 (.pred pd false)) ∧
      (d.cclk < j.winEnd → exec (.ewait (.plough p) w) s = withPlough s (.plough p) fun pl => { pl with waits := pl.waits ++ [.engine j.id pd e j.winEnd] }))) ∧
  (∀ (s : State) (engine : BitVec 2),
    let d := (if engine = 0 then s.dev.fuseWindowEnd else s.dev).ewaitRelease engine.toNat
    let late := d.jobs.filter fun j => j.engine == engine.toNat && j.accepted && !j.overrun && decide (j.winEnd ≤ d.cclk)
    (late = [] → Gives (.engineWindowEnd engine) s d) ∧
    (∀ j, late = [j] → Gives (.engineWindowEnd engine) s (d.overrunAt j))) ∧
  (∀ (s : State) (p : BitVec 4) (w : BitVec 64), Executes s (.plough p) w →
    let d := s.dev
    let n := p.toNat
    let pl := d.plough n
    let v := d.pview n
    let port := wf' w 49 2
    let t := tdesc (v.rdD (wf' w 36 5))
    let free := fun (send : Bool) => ((d.linkOutstanding n port).filter fun x => x.send == send).length < 16
    let x := fun (send : Bool) (tag : Option PTag) => (
      { id := d.nextId, port := port, plough := n, send := send, ctx := pl.ctx, gen := pl.gen, desc := v.rdD (wf' w 36 5), tag := tag,
        issue := d.cclk, accepted := false, sent := none, msg := none, asked := false } : LinkXfer)
    let placed := fun (x : LinkXfer) => ({ d with nextId := d.nextId + 1, links := { d.links with xfers := insertXfer x d.links.xfers } } : Dev)
    d.linkHalt n port pl.ctx pl.gen = none →
    (zeros w [(41, 8), (0, 36)] = true → t.mode = 0 → t.formatBad = false →
      (free true → (pl.pmode = none ∨ (d.reg (R.LINK_PORT_PEER_PLAN port)).toNat = d.header 0x18 8) →
        Gives (.xsend (.plough p) w) s ((placed (x true pl.pmode)).holdEff n slotX (.send port d.nextId))) ∧
      (free false → t.writable = true →
        Gives (.xrecv (.plough p) w) s ((placed (x false none)).holdEff n slotX (.recv port d.nextId)))) ∧
    (zeros w [(8, 41)] = true →
      ((d.linkOutstanding n port).length ≤ wf' w 0 8 → Idle (.xwait (.plough p) w) s) ∧
      (wf' w 0 8 < (d.linkOutstanding n port).length →
        exec (.xwait (.plough p) w) s = withPlough s (.plough p) fun pl => { pl with waits := pl.waits ++ [.link port (wf' w 0 8)] })))

/-- R366, R370: a RUN slice of a resident context within its quota restores the plough from its save area and runs; the entry of an empty
slot idles; a slice past its quota is cut and counted. R366, R368: SLICE_SAVE from 582 clocks before the end of the slice saves the state
and idles the plough; SWAP_SLICE of the exchange's period moves the outgoing state out and the incoming one in, once per plough; with
every plough of the slot swapped the exchange is done. -/
def Obligations.SlicesSwitch : Prop :=
  (∀ (s : State) (p : BitVec 4) (i : Nat) (e : SliceEntry),
    let n := p.toNat
    s.dev.openSlice n = some (i, e) → s.dev.locked = true →
    let d := (s.dev.sliceSave n).updPlough n fun pl => { pl with nextEntry := i + 1 }
    let idle := d.updPlough n fun pl => { pl with waived := i :: pl.waived }
    (d.sliceCtx n e = none → Gives (.runSliceStart p) s idle) ∧
    (∀ id, d.sliceCtx n e = some id → d.sliceOver id e = false → Gives (.runSliceStart p) s (d.sliceRun n i e id)) ∧
    (∀ id, d.sliceCtx n e = some id → d.sliceOver id e = true → Yields (.runSliceStart p) s fun t =>
      t.ploughs = idle.ploughs ∧ (t.ctxOf id).sliceCut = satAdd32 (d.ctxOf id).sliceCut 1)) ∧
  (∀ (s : State) (p : BitVec 4),
    let d := s.dev
    let n := p.toNat
    (∀ e, d.runningSlice n = some e → e.start + e.len ≤ d.ccount + 582 → Gives (.sliceSave p) s (d.sliceSave n)) ∧
    (∀ e, d.runningSlice n = some e → d.ccount + 582 < e.start + e.len → Idle (.sliceSave p) s) ∧
    (∀ x sl o, d.exch = some x → d.swapEntry n = some sl → x.period = d.plan.period → sl.start ≤ d.ccount → x.swapped.contains n = false →
      (d.slotPloughs x.rslot).testBit n = true → x.out = some o →
      (savedProv (d.peek (d.barnSave x.rslot n + Machine.controlAt) 64) = false →
        Gives (.swapSlice p) s ({ (d.swapMove x o n true).swapMove x x.id n false with exch := some { x with swapped := n :: x.swapped } } : Dev)) ∧
      (savedProv (d.peek (d.barnSave x.rslot n + Machine.controlAt) 64) = true → Gives (.swapSlice p) s (d.exchangeUndo x 0x06))) ∧
    (∀ x, d.exch = some x → x.period = d.plan.period → (∀ n < 16, (d.slotPloughs x.rslot).testBit n = true → n ∈ x.swapped) → d.swapBusy x = false →
      Gives .exchangeComplete s { d with exch := some { x with done := true } }))

/-- R10, R11, R13, R14, R206, R427: a write of a 32-bit register acts on it, and where its block has no action of its own it stores by the
types of its fields; a write of the low half of a 64-bit register is only held for its path, and the write of the high half then acts with
both, or with the low half that the register holds; a read gives the register's value and clears nothing but an RC register, which it leaves
zero; a read of a low half captures the high half for the read of it, and that of BELL_TIME the fraction too; an address without a register reads
zero and takes no write; with its domain off a block is such a place; a word of the MSI-X table is written. R10, R11, R12: what a software
write leaves in a field, by its type; a bit set by the hardware in the same clock stays; while the plan is locked an RWL field keeps its
value. -/
def Obligations.RegisterAccesses : Prop :=
  (∀ (s : State) (path : Path) (a : Nat) (v : BitVec 64) (u : BitVec 32),
    let d := s.dev
    let read := fun (t : State) (x : Nat) => Host.Outcome.next (t.upd fun d => (d.emit (.value path (BitVec.ofNat 64 x))).summaryCheck)
    (∀ size, d.accessOn path a = false → Idle (.registerWrite path a size v) s ∧ exec (.registerReadClear path a size) s = read s 0) ∧
    (∀ i, d.accessOn path a = true → doorbellAt a = none → msixWordAt a = some i →
      Gives (.registerWrite path a 4 v) s (d.msixWrite i (v.toNat % 2 ^ 32)) ∧
      exec (.registerReadClear path a 4) s = read s (SMap.get msixDefault d.host.msix i)) ∧
    (d.accessOn path a = true → doorbellAt a = none → msixWordAt a = none → pbaWordAt a = none →
      (∀ size, regPart a size = none → Idle (.registerWrite path a size v) s ∧ exec (.registerReadClear path a size) s = read s 0) ∧
      (∀ row, regRowAt a = some row → row.wide = false →
        exec (.registerWrite path a 4 v) s = .next (s.regWrite path a (v.toNat % 2 ^ 32)) ∧
        (a / 0x100000 ∈ [4, 5, 6] → s.regWrite path a (v.toNat % 2 ^ 32) = 
          s.upd fun d => ((d.storeReg a (v.toNat % 2 ^ 32)).afterWrite path a (d.reg a).toNat).summaryCheck) ∧
        (a ≠ R.BELL_TIME_FRAC → (∀ f ∈ row.fields, f.acc ≠ .rc) → a ≠ R.PWR_RESET_CAUSE → a ≠ R.TOP_CTX_SLICE_CUT →
          exec (.registerReadClear path a 4) s = read s (s.regView a)) ∧
        (a ≠ R.BELL_TIME_FRAC → (∃ f ∈ row.fields, f.acc = .rc) → a ≠ R.PWR_RESET_CAUSE → a ≠ R.TOP_CTX_SLICE_CUT →
          (∀ i < 16, a ≠ R.TROUGH_PEAK i) → (∀ t ∈ d.same, t.addr = a → t.clk ≠ d.regClk a) →
          exec (.registerReadClear path a 4) s = read (s.upd fun d =>
            (d.note { addr := a, clk := d.regClk a, before := 0 }).setReg a 0) (d.reg a).toNat)) ∧
      (∀ row, regRowAt a = some row → row.wide = true →
        Gives (.lowHalfWrite path a u) s { d with lowHeld := heldPut d.lowHeld path a u.toNat } ∧
        exec (.registerWrite path a 8 v) s = .next (s.regWrite path a v.toNat) ∧
        exec (.lowHalfRead path a) s = read (s.upd fun d =>
          let e : Dev := { d with highCap := heldPut d.highCap path a (s.regView a / 2 ^ 32) }
          if a = R.BELL_TIME then { e with highCap := heldPut e.highCap path R.BELL_TIME_FRAC (s.regView R.BELL_TIME_FRAC) } else e)
            (s.regView a % 2 ^ 32) ∧
        (d.accessOn path (a + 4) = true → doorbellAt (a + 4) = none → msixWordAt (a + 4) = none → pbaWordAt (a + 4) = none →
          regRowAt (a + 4) = none →
          let left : State := { s with dev := { d with lowHeld := heldDrop d.lowHeld path a } }
          let seen : State := { s with dev := { d with highCap := heldDrop d.highCap path a } }
          (∀ low, heldAt d.lowHeld path a = some low →
            exec (.registerWrite path (a + 4) 4 v) s = .next (left.regWrite path a (low + v.toNat % 2 ^ 32 * 2 ^ 32))) ∧
          (heldAt d.lowHeld path a = none → exec (.registerWrite path (a + 4) 4 v) s =
            .next (left.regWrite path a (s.regView a % 2 ^ 32 + v.toNat % 2 ^ 32 * 2 ^ 32))) ∧
          (∀ high, heldAt d.highCap path a = some high → exec (.registerReadClear path (a + 4) 4) s = read seen high) ∧
          (heldAt d.highCap path a = none → exec (.registerReadClear path (a + 4) 4) s = read seen (s.regView a / 2 ^ 32)))))) ∧
  (∀ (locked : Bool) (set old v : Nat) (f : RegField) (i : Nat), i < f.width →
    let new := (fieldWrite locked set old v f).testBit i
    let was := old.testBit (f.lsb + i)
    let bit := v.testBit (f.lsb + i)
    (f.acc = .rw → new = bit) ∧ (f.acc = .w1c → new = (was && (!bit || set.testBit (f.lsb + i)))) ∧ (f.acc = .w1s → new = (was || bit)) ∧
    (f.acc = .rwl → new = if locked then was else bit) ∧ (f.acc = .ro → new = was) ∧ (f.acc = .rc → new = was))

/-- R29, R33, R160, R161, R174, R180, R185, R207, R211, R223, R227, R328, R370, R422, R424, R444, R459, R463, R469, R480, R486, R491: the
commands that are one register each do on an answering path what their registers say, and then the order of PCIe
and USB in one F clock is kept (R429) and the summary vector is judged (R33). -/
def Obligations.RegisterCommands : Prop :=
  ∀ (s : State) (path : Path),
    let on := fun (a : Nat) => s.dev.accessOn path a = true
    let done := fun (a : Nat) (i : Instr) (f : Dev → Dev) =>
      exec i s = .next (s.upd fun d => ((f d).afterWrite path a (d.reg a).toNat).summaryCheck)
    (∀ v, on R.TOP_EVT_CTL → done R.TOP_EVT_CTL (.topEvtCtl path v) (·.evtCtlWritten v.toNat)) ∧
    (∀ v, on R.TOP_EVT_RING_RD → done R.TOP_EVT_RING_RD (.topEvtRingRd path v) (·.evtRdWritten v.toNat)) ∧
    (∀ (i : BitVec 3) v, i.toNat < 6 → on (R.TOP_CTX_QUOTA i.toNat) → done (R.TOP_CTX_QUOTA i.toNat) (.topCtxQuota path i v) (·.quotaWritten i.toNat v.toNat)) ∧
    (∀ v, on R.HEDGE_INVAL → done R.HEDGE_INVAL (.hedgeInval path v) fun d =>
      let d := d.storeReg R.HEDGE_INVAL v.toNat
      if v.toNat.testBit 31 then d.invalStart else d) ∧
    (∀ v : BitVec 32, on R.HEDGE_FENCE →
      (v.getLsbD 31 = false → done R.HEDGE_FENCE (.hedgeFence path v) (·.storeReg R.HEDGE_FENCE v.toNat)) ∧
      (v.getLsbD 31 = true → s.dev.flag F.HEDGE_FENCE_STATUS_busy = true → done R.HEDGE_FENCE (.hedgeFence path v) id) ∧
      (v.getLsbD 31 = true → s.dev.flag F.HEDGE_FENCE_STATUS_busy = false → done R.HEDGE_FENCE (.hedgeFence path v) fun d =>
        let d := d.storeReg R.HEDGE_FENCE v.toNat
        d.fenceStart (d.getF F.HEDGE_FENCE_ctx_id))) ∧
    (∀ q v, on (R.HOST_Q_TAIL q.toNat) → done (R.HOST_Q_TAIL q.toNat) (.hostQTail path q v) (·.storeReg (R.HOST_Q_TAIL q.toNat) v.toNat)) ∧
    (∀ q v, on (R.HOST_Q_CTL q.toNat) → done (R.HOST_Q_CTL q.toNat) (.hostQCtl path q v) fun d => (d.storeReg (R.HOST_Q_CTL q.toNat) v.toNat).qCtlWritten q.toNat) ∧
    (∀ n v, on (R.GATE_SLOT_MAP n.toNat) → done (R.GATE_SLOT_MAP n.toNat) (.gateSlotMap path n v) (·.writeSlotMap n.toNat v.toNat)) ∧
    (∀ v, on R.GATE_DISCOVER → done R.GATE_DISCOVER (.gateDiscover path v) (·.writeDiscover v.toNat)) ∧
    (∀ v, on R.GRAN_CTL → done R.GRAN_CTL (.granInit path v) fun d =>
      let d := d.storeReg R.GRAN_CTL v.toNat
      if v.toNat.testBit 0 then d.granInitStart else d) ∧
    (∀ v, on R.BELL_SET → (s.dev.locked = false → done R.BELL_SET (.bellSet path v) fun d => { d with bell := { d.bell with setPend := some (v.toNat * 256, true) } }) ∧
      (s.dev.locked = true → done R.BELL_SET (.bellSet path v) fun d => d.raise 0x0309 0 0 0 (bellDetail (toSigned 64 v.toNat) d.servo 0))) ∧
    (∀ v, on R.BELL_CTL → done R.BELL_CTL (.bellCtl path v) (Dev.bellCtl · v.toNat)) ∧
    (∀ v, on R.BELL_VT_PENDING → done R.BELL_VT_PENDING (.vtAdvance path v) fun d => d.vtAdvanceReg (d.getF F.BELL_VT_SEL_ctx_id) v.toNat) ∧
    (∀ v, on R.BELL_ALM_SET → (s.dev.servo ≠ 2 → done R.BELL_ALM_SET (.bellAlmSet path v) fun d => { d with bell := { d.bell with almHeld := some (v.toNat % 2 ^ 48, d.clk) } }) ∧
      (s.dev.servo = 2 → done R.BELL_ALM_SET (.bellAlmSet path v) id)) ∧
    (∀ v, on R.PWR_DOMAIN_REQ → done R.PWR_DOMAIN_REQ (.pwrDomainReq path v) (·.domainReq v.toNat)) ∧
    (on R.STEW_MBOX_POP → done R.STEW_MBOX_POP (.stewMboxPop path) fun d => { d with stew := { d.stew with rsps := d.stew.rsps.drop 1 } }) ∧
    (∀ v, on R.STEW_TEL_CTL → done R.STEW_TEL_CTL (.stewTelCtl path v) (·.telCtlWritten v.toNat)) ∧
    (∀ v, on R.STEW_TEL_RD → done R.STEW_TEL_RD (.stewTelRd path v) fun d => (d.storeReg R.STEW_TEL_RD v.toNat).telRdWritten)

/-- R444, R469, R480, R491: STANDBY is a write of PWR_CTL with standby set; a request for recovery and an unpark are writes of REEVE_CMD;
a command submitted over USB enters the mailbox queue, or is answered BUSY when 64 are pending. R428, R429: the USB register and memory
requests: a wrong size or length is BAD_REQUEST, an access that fails is an error, and data is given on endpoint 2; before the port is up
a request has no effect. -/
def Obligations.RecoveryAndUsbRequests : Prop :=
  (∀ (s : State) (path : Path),
    let stored := fun (v : Nat) => s.upd fun d => d.storeReg R.REEVE_CMD v
    let on := fun (a : Nat) => s.dev.accessOn path a = true
    let closed := fun (d : Dev) => (d.afterWrite path R.REEVE_CMD (s.dev.reg R.REEVE_CMD).toNat).summaryCheck
    (on R.PWR_CTL → exec (.standby path) s = .next (s.upd fun d =>
      (((d.storeReg R.PWR_CTL (putBit (s.dev.reg R.PWR_CTL).toNat 2 true % 2 ^ 32)).standbyEnter).afterWrite path R.PWR_CTL
        (s.dev.reg R.PWR_CTL).toNat).summaryCheck)) ∧
    (∀ v : BitVec 32, on R.REEVE_CMD → v.getLsbD 8 = false →
      (v.getLsbD 31 = true → exec (.recoveryRequest path v) s = .next (((stored v.toNat).reeveCmd v.toNat).upd closed)) ∧
      (v.getLsbD 31 = false → exec (.recoveryRequest path v) s = .next ((stored v.toNat).upd closed))) ∧
    (∀ (v : BitVec 32) m, on R.REEVE_CMD → v.getLsbD 8 = true → v.getLsbD 31 = true → unitMask (v.toNat % 32) = some m →
      exec (.unpark path v) s = .next ((((stored v.toNat).upd fun d => d.unpark m).reeveRetry).upd closed)) ∧
    (∀ cmd, s.dev.pwr.good = true → s.dev.flag F.HOST_STATUS_usb_up = true → s.dev.mboxPending < 64 →
      let queued : List MboxCmd := s.dev.stew.queue ++ [⟨.usb, fitBytes 64 cmd, s.dev.devNs⟩]
      Gives (.mboxSubmit .usb cmd) s { s.dev with stew := { s.dev.stew with queue := queued, usbAt := some s.dev.fclk } }) ∧
    (path ≠ .usb → on R.STEW_MBOX_SUBMIT → exec (.mboxSubmit path []) s = .next (s.regWrite path R.STEW_MBOX_SUBMIT 1))) ∧
  (∀ (s : State) (a n : Nat) (v : BitVec 64) (bs : List Byte),
    let d := s.dev
    (d.usbOn = false → Idle (.regRead a n) s ∧ Idle (.regWrite a n v) s ∧ Idle (.memRead a n) s ∧ Idle (.memWrite a bs) s) ∧
    (d.usbOn = true →
      (n ≠ 4 → n ≠ 8 → Gives (.regRead a n) s (d.emit (.usb 2 [])) ∧ Gives (.regWrite a n v) s (d.emit (.usb 2 []))) ∧
      (n = 4 ∨ n = 8 →
        exec (.regRead a n) s = .next ((s.busRead .usb a n).1.upd fun d => (d.emit (.usb 0 (leBytes n (s.busRead .usb a n).2))).summaryCheck) ∧
        exec (.regWrite a n v) s = .next ((s.busWrite .usb a n v.toNat).upd fun d => d.emit (.usb 0 []))) ∧
      (n < 4 ∨ 0x100000 < n ∨ n % 4 ≠ 0 → Gives (.memRead a n) s (d.emit (.usb 2 []))) ∧
      (∀ e r, 4 ≤ n → n ≤ 0x100000 → n % 4 = 0 → d.mgmtRead 22 0x5E true a n = (e, .ok r) → Gives (.memRead a n) s (e.emit (.usb 0 r))) ∧
      (∀ e, 4 ≤ bs.length → bs.length ≤ 0x100000 → bs.length % 4 = 0 → d.mgmtWrite 22 0x5E true a bs = (e, none) →
        Gives (.memWrite a bs) s (e.emit (.usb 0 [])))))

/-- R25, R26, R37: COLLECTOR_INTAKE takes the records of the earliest F clock once that clock is over, by block and then by instance; beyond
512 held they are lost, and one of a generation that has gone is discarded. R25, R28, R29, R30, R33, R460: COLLECTOR_WRITE takes the oldest
record, at most one in an F clock; a record of no queue goes to the log's intake and to the device ring, whose WR moves on by one, and an
armed vector is sent and disarmed; with the ring off it is lost and counted; with no room in the ring it waits for the clock's end. That a
record is logged when the collector writes it is the model's choice (log 74). -/
def Obligations.CollectorWorks : Prop :=
  (∀ (s : State), s.dev.domainOn 34 = true →
    let x := s.dev.evt
    let taken : Dev := { s.dev with evt := { x with arriving := [] } }
    (x.arriving = [] → Idle .collectorIntake s) ∧
    (∀ e, x.arriving = [e] → s.dev.fclk ≤ e.arrive → Idle .collectorIntake s) ∧
    (∀ e, x.arriving = [e] → e.arrive < s.dev.fclk →
      (s.dev.staleEvt e = true → Gives .collectorIntake s taken) ∧
      (s.dev.staleEvt e = false → x.fifo.length < 512 →
        Gives .collectorIntake s { s.dev with evt := { x with arriving := [], fifo := x.fifo ++ [e] } }) ∧
      (s.dev.staleEvt e = false → 512 ≤ x.fifo.length → Gives .collectorIntake s (taken.evtLost e))) ∧
    (∀ a b, x.arriving = [a, b] → a.arrive = b.arrive → a.arrive < s.dev.fclk → s.dev.staleEvt a = false → s.dev.staleEvt b = false →
      x.fifo.length < 511 →
      let first := if evtBefore b a then b else a
      let then' := if evtBefore b a then a else b
      Gives .collectorIntake s { s.dev with evt := { x with arriving := [], fifo := x.fifo ++ [first] ++ [then'] } })) ∧
  (∀ (s : State) (e : Event) (rest : List Event), s.dev.evt.fifo = e :: rest → s.dev.evt.waiting = none →
    (s.dev.evt.lastWrite = some s.dev.fclk → Idle .collectorWrite s) ∧
    (s.dev.evt.lastWrite ≠ some s.dev.fclk →
      let d0 : Dev := { s.dev with evt := { s.dev.evt with fifo := rest, lastWrite := some s.dev.fclk } }
      let d := d0.logEvent e
      (d0.ringShort e = true → Gives .collectorWrite s { d0 with evt := { d0.evt with waiting := some e } }) ∧
      (d0.ringShort e = false → d.hasQueue e = false →
        (d.flag F.TOP_EVT_CTL_enable = false → Gives .collectorWrite s ((d.evtLost e).summaryCheck)) ∧
        (∀ t, d.flag F.TOP_EVT_CTL_enable = true → d.evt.lossCount = 0 → d.evt.ringUndefined = false →
          let wr := d.getF F.TOP_EVT_RING_WR_count
          (wr + 2 ^ 32 - d.getF F.TOP_EVT_RING_RD_count) % 2 ^ 32 ≠ d.ringRecords →
          d.mgmtWrite 23 0x5F false (d.getF F.TOP_EVT_RING_BASE_base * 4096 + 32 * (wr % d.ringRecords)) e.bytes true = (t, none) →
          let moved := t.setF F.TOP_EVT_RING_WR_count (wr + 1)
          (moved.flag F.TOP_EVT_CTL_armed = false →
            Gives .collectorWrite s (({ moved with evt := { moved.evt with silent := some moved.fclk } } : Dev).summaryCheck)) ∧
          (moved.flag F.TOP_EVT_CTL_armed = true →
            Gives .collectorWrite s (((moved.hwClear F.TOP_EVT_CTL_armed).sendMsix (moved.getF F.TOP_EVT_CTL_vector)).summaryCheck)))))) ∧
  (∀ (s : State), s.dev.evt.fifo = [] ∨ s.dev.evt.waiting.isSome = true → Idle .collectorWrite s)

/-- R50, R446, R499: PLAN_LOAD waits for the stacks and discovery; it checks the header, in the order of its table, then the rest of the
image, and answers the first check that fails; an image that passes is copied where its sections say and the plan is LOADED. R50: the
checks of a plan image give the result of the first that fails, in the order of the table. The result 9 of the pools of R324 is the
model's reading (log 75). -/
def Obligations.PlanLoads : Prop :=
  (∀ (s : State) (c : List Byte), s.dev.serves 1 = some c →
    let addr := leAt c 8 8
    let size := leAt c 16 8
    let most := if addr = 0 then 0x3000000 else 0xA00000000
    (size < 0x200 ∨ most < size → Gives .planLoad s (s.dev.respond 0xF2)) ∧
    (0x200 ≤ size → size ≤ most →
      ((s.dev.flag F.TOP_STATUS_stack_ready = false ∨ s.dev.flag F.GATE_STATUS_discovery_done = false) → Idle .planLoad s) ∧
      (∀ s1 h, s.dev.flag F.TOP_STATUS_stack_ready = true → s.dev.flag F.GATE_STATUS_discovery_done = true →
        s.imageRead addr 0 512 = (s1, .ok h) →
        (∀ r, s1.dev.headerRefusal h = some r → exec .planLoad s = .next (s1.upd fun d => d.respond r)) ∧
        (∀ s2 payload, s1.dev.headerRefusal h = none → 0x200 ≤ leAt h 0x10 8 → leAt h 0x10 8 ≤ size →
          s1.imageRead addr 0x200 (leAt h 0x10 8 - 0x200) = (s2, .ok payload) →
          (∀ r, s2.dev.imageRefusal h payload = some r → exec .planLoad s = .next (s2.upd fun d => d.respond r)) ∧
          (s2.dev.imageRefusal h payload = none → exec .planLoad s = .next (s2.upd fun d => d.planAccept addr h payload)))))) ∧
  (∀ (d : Dev) (h payload : List Byte),
    let p : PlanImg := ⟨h, sectionsOf (h ++ payload)⟩
    let header := [(magicOk h, 1), (d.partOk h, 2), (d.boardOk h, 3), (planSigned ((d.stew.record.drop 0x80).take 384) h, 4)]
    let whole := [(hashOk h payload, 5), (decide (leAt d.stew.record 0x34 4 ≤ leAt h 0x20 4), 6),
      (sectionsOk (h ++ payload) (fun a => (d.reg a).toNat), 7), (slackOk h, 8), (d.resourcesOk p, 9),
      (decide (p.hd 0x3C 4 ≤ d.getF F.PWR_CAP_mw), 0xA), (d.plan.phase == .empty, 0xB)]
    let first := fun (l : List (Bool × Nat)) => (l.find? fun x => !x.1).map (·.2)
    d.headerRefusal h = first header ∧ d.imageRefusal h payload = first whole)

/-- R51, R446: PLAN_START of a LOADED plan takes a T0 at least 1 ms after its receipt and prepares the registers; at T0 the plan LOCKS and
its first period begins; R52: a plan that is not LOADED refuses. R40, R222: a major period boundary that is due closes the period and
begins the next, unless the plan stops: then it was the last (R52). Before its instant it is not due. R52, R394, R446: PLAN_STOP lets the
period end, then every live context is retired and the plan is LOADED again; PLAN_UNLOAD fills the plan's memory, and with the fill done
the plan is EMPTY; PLAN_STORE writes the image to the plan store of the flash. The instants and results named in log 76 are the model's
choice. -/
def Obligations.PlanRuns : Prop :=
  (∀ (s : State),
    (∀ c t, s.dev.serves 2 = some c → s.dev.plan.phase = .loaded → s.dev.plan.t0 = none → s.dev.stew.running = some t →
      (t.rx + 1000000 ≤ leAt c 8 8 → exec .planStart s = .next ((s.planPrepare (leAt c 8 8)).upd fun d => d.respond 0)) ∧
      (leAt c 8 8 < t.rx + 1000000 → Gives .planStart s (s.dev.respond 0x0C))) ∧
    (∀ c, s.dev.serves 2 = some c → s.dev.plan.phase ≠ .loaded → Gives .planStart s (s.dev.respond 0x0B)) ∧
    (∀ t0, s.dev.plan.phase = .loaded → s.dev.plan.t0 = some t0 → t0 ≤ s.dev.devNs → (∀ f ∈ s.dev.memc.fills, f.plan = false) →
      Yields .planLock s fun d => d = s.dev.planLock ∧ d.plan.phase = .locked ∧ d.plan.period = 0 ∧ d.plan.cBase = s.dev.cclk) ∧
    (∀ t0, s.dev.plan.t0 = some t0 → s.dev.devNs < t0 → Idle .planLock s)) ∧
  (∀ (s : State), s.dev.locked = true → s.dev.plan.ended = false →
    let d := s.dev.sliceBoundary.exchangeBoundary
    let at' := s.dev.boundaryNs s.dev.plan.nextBoundary
    (at' ≤ s.dev.devNs → d.plan.stopping = false → Gives .majorPeriodBoundary s (d.periodBegins d.plan.nextBoundary)) ∧
    (at' ≤ s.dev.devNs → d.plan.stopping = true →
      Gives .majorPeriodBoundary s ((({ d with plan := { d.plan with ended := true } } : Dev).periodSignal d.plan.nextBoundary).setB F.MEM_STATUS_open_mode true)) ∧
    (s.dev.devNs < at' → Idle .majorPeriodBoundary s)) ∧
  (∀ (s : State),
    let d := s.dev
    (∀ c, d.serves 3 = some c →
      (d.locked = true → Gives .planStop s { d with plan := { d.plan with stopping := true } }) ∧
      (d.locked = false → Gives .planStop s (d.respond 0x0B))) ∧
    (d.locked = true → d.plan.ended = true → (∀ e ∈ d.ctxs, e.2.live = false) → d.pwr.restore = 0 → d.domainNext = none →
      Gives .planStopEnd s d.planStopped) ∧
    (∀ id x l, d.locked = true → d.plan.ended = true → d.ctxs = (id, x) :: l → x.life = .retiring → Gives .planStopEnd s (d.retireGo id)) ∧
    (∀ c, d.serves 4 = some c →
      (d.plan.phase = .loaded → (∀ f ∈ d.memc.fills, f.plan = false) →
        Gives .planUnload s (({ d with plan := { d.plan with t0 := none } } : Dev).startFill d.planMemory none true false)) ∧
      (d.plan.phase ≠ .loaded → Gives .planUnload s (d.respond 0x0B))) ∧
    (∀ c e bs, d.serves 5 = some c → leAt c 16 8 ≤ 0x3000000 → (d.plan.phase = .empty ∨ d.plan.fromFlash = false) →
      d.mgmtRead 23 0x5F false (leAt c 8 8) (leAt c 16 8) = (e, .ok bs) →
      exec .planStore s = .next { s with
        kept := (s.kept.flashErase 0xD00000 (ceilDiv (leAt c 16 8) 4096 * 4096)).flashWrite 0xD00000 bs, dev := e.respond 0 }) ∧
    (∀ e j, d.finishFill = (e, some j) →
      Gives .fillDone s (match j.ctx with
        | some id => e.retireDone id
        | none => if j.plan then e.planUnloaded else if j.boot then e.bootFilled else e)))

/-- R53: while the plan is LOCKED a cap below its power_mw is refused, and so are the load of another plan and the unload of this one;
only a stop is taken. -/
def Obligations.LockedPlanStands : Prop :=
  ∀ (s : State) (c : List Byte), s.dev.plan.phase = .locked →
    (s.dev.serves 0x20 = some c → 60000 ≤ leAt c 8 4 → leAt c 8 4 ≤ 220000 → leAt c 8 4 < s.dev.header 0x3C 4 →
      Gives .powerCap s (s.dev.respond 0x0A)) ∧
    (∀ h payload, (s.dev.imageRefusal h payload).isSome = true) ∧
    (s.dev.serves 4 = some c → Gives .planUnload s (s.dev.respond 0x0B)) ∧
    (s.dev.serves 3 = some c → Gives .planStop s { s.dev with plan := { s.dev.plan with stopping := true } })

/-- R361, R362, R363: CREATE of a RETIRED ID with a generation left makes it SWAPPED; SUSPEND sets suspended once no slice of the context
runs; RESUME clears suspended and halted, but halted stays with a fault of the same F clock; a command on an ID in another state ends with BAD_STATE, one while no plan is locked with
NOT_LOCKED. R362, R368, R372: RETIRE of an owner of an enabled schedule or slot is refused; else the context is RETIRING and its steps
follow; a RETIRE of a context that retires for another cause ends with BAD_STATE; EXCHANGE of a SWAPPED, swappable context within its quotas is for the next major period. -/
def Obligations.ContextLifeCycle : Prop :=
  (∀ (s : State) (c : CtxCmd),
    let d := s.dev
    let x := d.ctxOf c.id
    d.ctxCmd = some c →
    (d.locked = false → (c.cmd = 1 → Gives .create s (d.ctxEnd 0x08)) ∧ (c.cmd = 2 → Gives .suspend s (d.ctxEnd 0x08)) ∧
      (c.cmd = 3 → Gives .resume s (d.ctxEnd 0x08)) ∧ (c.cmd = 4 → Gives .retire s (d.ctxEnd 0x08))) ∧
    (d.locked = true → c.id < d.ctxCount →
      (c.cmd = 1 → x.life = .retired → x.gen < 0xFFFFF →
        Gives .create s ((((d.bringUp c.id .swapped 0).writeCtxEntry c.id true).mgmtAttrs).ctxEnd 0)) ∧
      (c.cmd = 1 → x.life ≠ .retired → Gives .create s (d.ctxEnd 0x01)) ∧
      (c.cmd = 1 → x.life = .retired → 0xFFFFF ≤ x.gen → Gives .create s (d.ctxEnd 0x03)) ∧
      (c.cmd = 2 → x.active = true → d.ctxRunning c.id = false →
        Gives .suspend s ((d.updCtx c.id fun x => { x with suspended := true }).ctxEnd 0)) ∧
      (c.cmd = 2 → x.active = true → d.ctxRunning c.id = true → Idle .suspend s) ∧
      (c.cmd = 3 → x.active = true → (x.halted && x.haltAt == some d.fclk) = true →
        Gives .resume s ((d.updCtx c.id fun x => { x with suspended := false }).ctxEnd 0)) ∧
      (c.cmd = 3 → x.active = true → (x.halted && x.haltAt == some d.fclk) = false →
        Gives .resume s ((d.updCtx c.id fun x =>
          { x with suspended := false, halted := false, entryOn := if x.halted then List.range 16 else x.entryOn }).ctxEnd 0)) ∧
      (c.cmd = 3 → x.active = false → Gives .resume s (d.ctxEnd 0x01)))) ∧
  (∀ (s : State) (c : CtxCmd),
    let d := s.dev
    let x := d.ctxOf c.id
    d.ctxCmd = some c → d.locked = true → c.id < d.ctxCount →
    (c.cmd = 4 → x.active = true →
      (d.owns c.id = true → Gives .retire s (d.ctxEnd 0x04)) ∧
      (d.owns c.id = false → Gives .retire s
        (((({ d with ctxCmd := some { c with begun := true } } : Dev).updCtx c.id fun y =>
          { y with usage := y.usage.set 1 (b2n (x.life == .resident)) }).retireStart c.id).retireGo c.id))) ∧
    (c.cmd = 4 → x.life = .retiring → c.begun = false → Gives .retire s (d.ctxEnd 0x01)) ∧
    (c.cmd = 5 → d.exch = none → x.life = .swapped → c.rslot < d.slotCount → d.swappable c.id = true →
      (∀ o, d.slotHolder c.rslot = some o → d.swappable o = true) →
      let r := d.slotRec c.rslot
      (r.2.1 ≤ d.quotaNow c.id 1 → r.2.2 ≤ d.quotaNow c.id 5 →
        Gives .exchange s { d with exch := some ⟨c.id, c.rslot, d.slotHolder c.rslot, d.plan.period + 1, [], false⟩ }) ∧
      (d.quotaNow c.id 1 < r.2.1 → Gives .exchange s (d.ctxEnd 0x05))))

/-- R446, R488: POWER_CAP sets the cap within its range and not below the plan's bound; R173: CAN_SEND and ETH_SEND put a frame on their
port, a CAN frame only while the controller is on the bus (the counting is log 61's); R457: ATTEST writes a signed quote; R446: LOG_READ writes entries and answers their count, and DEVICE_RECOVER answers and then
requests the recovery. R450, R452, R455: UPDATE_STAGE writes a checked image to the slot that is not active; UPDATE_ACTIVATE gives it
three trial boots; UPDATE_CONFIRM makes the trial slot active and raises the floor; CONFIG_WRITE writes a newer checked record to the
other copy. The order of UPDATE_STAGE's checks is the model's choice (log 77). -/
def Obligations.StewardCommandsEffects : Prop :=
  (∀ (s : State),
    let d := s.dev
    (∀ c, d.serves 0x20 = some c → 60000 ≤ leAt c 8 4 → leAt c 8 4 ≤ 220000 →
      (d.locked = false ∨ d.header 0x3C 4 ≤ leAt c 8 4 → Gives .powerCap s ((d.setF F.PWR_CAP_mw (leAt c 8 4)).respond 0)) ∧
      (d.locked = true → leAt c 8 4 < d.header 0x3C 4 → Gives .powerCap s (d.respond 0x0A))) ∧
    (∀ c e, d.serves 0x30 = some c →
      let es := s.kept.logFrom (leAt c 16 8) (d.reg R.STEW_LOG_SEQ).toNat (leAt c 24 4)
      let next := match es.getLast? with
        | some x => x.1 + 1
        | none => leAt c 16 8
      d.mgmtWriteEach 23 0x5F false (leAt c 8 8) (es.flatMap (·.2)) = (e, none) →
        Gives .logRead s (e.respond 0 (leBytes 4 es.length ++ leBytes 4 0 ++ leBytes 8 next))) ∧
    (∀ c k, d.serves 0x60 = some c → d.stew.idKey = some k → ∀ e,
      let body := d.quoteBody (fitBytes 32 (c.drop 8)) (leBytes 48 k.2.1 ++ leBytes 48 k.2.2)
      let sig := Crypto.sign k.1 (Crypto.sha384 body)
      d.mgmtWriteEach 23 0x5F false (leAt c 40 8) (body ++ leBytes 48 sig.1 ++ leBytes 48 sig.2) = (e, none) → Gives .attest s (e.respond 0)) ∧
    (∀ c e bs, d.serves 0x70 = some c → leAt c 8 1 < 2 → leAt c 9 1 < 8 → leAt c 10 1 < 16 →
      leAt c 12 4 < (if (leAt c 9 1).testBit 0 then 2 ^ 29 else 2 ^ 11) → d.gateStatus.testBit (12 + leAt c 8 1) = true →
      d.mgmtRead 23 0x5F false (leAt c 16 8) (dlcBytes ((leAt c 9 1).testBit 1) (leAt c 10 1)) = (e, .ok bs) →
        Gives .canSend s (((e.setCan (leAt c 8 1) (e.getF (F.GATE_CAN_CTL_tec (leAt c 8 1)) - 1)
          (e.getF (F.GATE_CAN_CTL_rec (leAt c 8 1)))).emit
          (.canFrame (leAt c 8 1) ⟨BitVec.ofNat 29 (leAt c 12 4), (leAt c 9 1).testBit 0, (leAt c 9 1).testBit 1,
            (leAt c 9 1).testBit 2, false, BitVec.ofNat 4 (leAt c 10 1), bs, true, true⟩)).respond 0)) ∧
    (∀ c, d.serves 0x70 = some c → leAt c 8 1 < 2 → leAt c 9 1 < 8 → leAt c 10 1 < 16 →
      leAt c 12 4 < (if (leAt c 9 1).testBit 0 then 2 ^ 29 else 2 ^ 11) → d.gateStatus.testBit (12 + leAt c 8 1) = false →
        Gives .canSend s (d.respond 9)) ∧
    (∀ c e bs, d.serves 0x71 = some c → leAt c 8 1 < 4 → 60 ≤ leAt c 12 4 → leAt c 12 4 ≤ 9216 →
      (d.getF F.GATE_STATUS_eth_up).testBit (leAt c 8 1) = true → d.mgmtRead 23 0x5F false (leAt c 16 8) (leAt c 12 4) = (e, .ok bs) →
      Gives .ethSend s ((e.emit (.ethFrame (leAt c 8 1) bs)).respond 0)) ∧
    (∀ c, d.serves 0x80 = some c → exec .deviceRecover s = .next ((s.upd fun d => d.respond 0).reeveRequest 31 6 0))) ∧
  (∀ (s : State),
    let d := s.dev
    let b := s.bcbNow
    (∀ c e img, d.serves 0x40 = some c → leAt c 16 4 ≤ 0x600000 → d.mgmtRead 23 0x5F false (leAt c 8 8) (leAt c 16 4) = (e, .ok img) →
      let floor := fwFloorOf b e.stew.record
      (∀ r, imageResult img floor = r → r ≠ 0 → Gives .updateStage s (e.respond r)) ∧
      (imageResult img floor = 0 → b.trial = 0xFF →
        let off := 0x100000 + (1 - b.active) * 0x600000
        let k := (s.kept.flashErase off 0x600000).flashWrite off (img.take (leAt img 0xC 4))
        imageResult (k.flashRead off (leAt img 0xC 4)) floor = 0 →
        exec .updateStage s = .next { s with kept := k, dev := ((e.updStew fun x => { x with staged := true }).updateNote 0x40 1).respond 0 })) ∧
    (∀ c, d.serves 0x41 = some c → d.stew.staged = true → b.trial = 0xFF → d.stew.bootKey ≠ [] →
      exec .updateActivate s = .next { s with
        kept := s.kept.putBcb d.stew.bootKey { b with trial := 1 - b.active, left := 3 }
        dev := ((d.updStew fun x => { x with staged := false }).updateNote 0x41 2).respond 0 }) ∧
    (∀ c, d.serves 0x42 = some c → d.flag F.STEW_STATUS_trial = true →
      exec .updateConfirm s = .next { s with
        kept := s.kept.putBcb d.stew.bootKey { b with active := d.getF F.STEW_STATUS_slot, trial := 0xFF, left := 0,
                                                      fwFloor := max b.fwFloor (leAt d.stew.fwHeader 8 4) }
        dev := ((d.setB F.STEW_STATUS_trial false).updateNote 0x42 3).respond 0 }) ∧
    (∀ c e r, d.serves 0x50 = some c → d.mgmtRead 23 0x5F false (leAt c 8 8) 0x560 = (e, .ok r) →
      recordResult r b.cfgFloor e.identityDigest = 0 → (e.stew.record = [] ∨ leAt e.stew.record 8 4 < leAt r 8 4) →
      let off := (1 - e.getF F.STEW_STATUS_cfg_copy) * 0x10000
      exec .configWrite s = .next { s with
        kept := (s.kept.flashErase off 0x10000).flashWrite off (r.take 0x560), dev := (e.stewNote 4 [leAt r 8 4]).respond 0 }))

/-- R442, R443, R445, R458, R460: in its slice, once a frame, the Steward samples the enabled sensors whose turn has come, writes up to 16
queued log entries, takes the next command of the mailbox; a trap undoes its bundle, goes to the trap entry of the
image's header and is recorded, and a second one in the trap entry halts the Steward. R444, R446,
R447: the Steward refuses a command of an opcode it does not have, one its mode does not serve, and one with a reserved byte that is not
zero; else the command runs. R442, R451, R456, R468, R471: the boot follows a device reset once; the housekeeping slice kicks the
watchdog; discovery probes the buses whose policy is not IGNORE and reports done. -/
def Obligations.StewardFramesAndBoot : Prop :=
  (∀ (s : State) (rs : List (Nat × BitVec 32)) (cause : BitVec 4),
    let d := s.dev
    (d.sliceDue .telemetry = true → (d.sliceDone .telemetry d.frameNo).flag F.STEW_TEL_CTL_enable = true →
      let e := d.sliceDone .telemetry d.frameNo
      let due := sensors.filter fun x => (e.getF F.STEW_TEL_MASK_mask).testBit x.1 && d.frameNo % x.2 == 0
      (due = [] → Gives (.telemetrySlice rs) s e) ∧
      (∀ x v, due = [x] → rs = [(x.1, v)] → Gives (.telemetrySlice rs) s (e.telSample x.1 (e.sampleValue x.1 v))) ∧
      (∀ x, due = [x] → rs = [] → Gives (.telemetrySlice rs) s (e.bump R.STEW_TEL_SKIP))) ∧
    (d.sliceDue .telemetry = false → Idle (.telemetrySlice rs) s) ∧
    (d.sliceDue .log = true → exec .logSlice s =
      .next ((List.range 16).foldl (fun t _ => t.logOne) { s with dev := d.sliceDone .log d.frameNo })) ∧
    (d.sliceOpen .mailbox = true → Gives .mailboxSlice s d.trapEntryDone.mailboxTake) ∧
    (d.firmware = true →
      let u := d.updPlough stewCore fun pl => { pl with
        pend := pl.pend.filter (fun x => decide (x.issue < d.stew.idx)), branch := none, loopEnter := none, loops := []
        pc := Config.stewRam + leAt d.stew.fwHeader 0x14 4 }
      let x := { u.stew with trapped := true, stores := [] }
      (d.stew.inTrap = false →
        let rec' := (({ u with stew := x } : Dev).setF F.STEW_TRAP_cause cause.toNat).setB F.STEW_TRAP_done false
        Gives (.stewTrap cause) s (({ rec' with stew := { rec'.stew with inTrap := true } } : Dev).raise 0x0C07 0 0 0
          (dAt 24 1 0 + dAt 25 1 cause.toNat + dAt 28 4 0))) ∧
      (d.stew.inTrap = true → Gives (.stewTrap cause) s { u with stew := { x with halted := true } }))) ∧
  (∀ (d : Dev) (c : MboxCmd) (rest : List MboxCmd), d.stew.running = none → d.stew.queue = c :: rest →
    let op := leAt c.bytes 0 2
    let taken : Dev := { d with stew := { d.stew with queue := rest, running := some c } }
    (op ≠ 0x10 →
      (opArgs op = none → d.mailboxTake = taken.respond 0xF1) ∧
      (∀ args, opArgs op = some args → modeServes (d.getF F.STEW_STATUS_mode) op = false → d.mailboxTake = taken.respond 0xF3) ∧
      (∀ args, opArgs op = some args → modeServes (d.getF F.STEW_STATUS_mode) op = true → reservedSet c.bytes args = true →
        d.mailboxTake = taken.respond 0xF2) ∧
      (∀ args, opArgs op = some args → modeServes (d.getF F.STEW_STATUS_mode) op = true → reservedSet c.bytes args = false →
        d.mailboxTake = taken)) ∧
    (op = 0x10 → d.getF F.STEW_STATUS_mode = 2 →
      (d.ctxCmd.isSome = true → d.mailboxTake = d) ∧
      (d.ctxCmd = none → reservedSet c.bytes [(8, 4)] = false → ctxArgsOk c.bytes = true →
        d.mailboxTake = taken.ctxCmdStart (leAt c.bytes 10 1) (leAt c.bytes 8 2) (leAt c.bytes 11 1) .mbox))) ∧
  (∀ (s : State) (found : List (Nat × Nat × List Byte)),
    let d := s.dev
    (d.pwr.good = true → d.pwr.started = true → d.stew.booted = false → d.stew.halted = false →
      exec .stewardBoot s =
        .next (({ s with dev := { d with stew := { d.stew with booted := true } } } : State).bootIdentity).bootImage) ∧
    (d.stew.booted = true → Idle .stewardBoot s) ∧
    (∀ f start, d.hkFrame = some (f, start) → d.firmware = true → SMap.get (fun _ => 0) d.stew.frames 3 ≠ f + 1 → d.devNs < start + 3 →
      let e := d.sliceDone .housekeeping f
      e.stew.renew = [] → Gives .housekeepingSlice s { e with reeve := { e.reeve with kick := d.clk } }) ∧
    (d.flag F.GATE_STATUS_discovery_busy = true → d.sliceOpen .housekeeping = true → (∀ b < 8, d.gate.discovering.testBit b = false ∨ d.idPolicy b = 0) →
      Gives (.discovery found) s ((d.setB F.GATE_STATUS_discovery_busy false).setB F.GATE_STATUS_discovery_done true)) ∧
    (∀ b < 8, d.flag F.GATE_STATUS_discovery_busy = true → d.sliceOpen .housekeeping = true →
      (∀ c < 8, (d.gate.discovering.testBit c = true ∧ d.idPolicy c ≠ 0) ↔ c = b) →
      Gives (.discovery found) s (((((List.range 8).foldl (fun (e : Dev) a =>
        e.probeId b a ((found.find? fun x => x.1 == b && x.2.1 == a).map fun x => x.2.2)) d)).setB F.GATE_STATUS_discovery_busy false).setB
          F.GATE_STATUS_discovery_done true)))

/-- R158, R159, R160, R161: a free walker takes the waiting request that the rotating pointer picks, and its table reads become stack
requests; a walk's end caches a leaf and serves every request that waits for its page; INVAL_COMPLETE drops what the invalidation
reaches; a fence whose requests have all completed goes on, one past its bound answers those left, and its end invalidates the ID's
entries, is reported and lets the next fence begin. The instance byte of FENCE_DONE is a free value (log 6); that fences wait for one
another is the model's reading (log 30). -/
def Obligations.HedgeWork : Prop :=
  (∀ (s : State),
    let d := s.dev
    (d.hedge.waiting = [] → Idle .translationWalk s) ∧
    (d.freeWalker = none → Idle .translationWalk s) ∧
    (∀ x k, d.hedge.waiting = [x] → d.freeWalker = some k → x.req < 24 → d.getF F.HEDGE_STATUS_arb_ptr < 24 → ∀ e,
      e = ({ d.setF F.HEDGE_STATUS_arb_ptr ((x.req + 1) % 24) with hedge := { d.hedge with waiting := [] } } : Dev) →
      (x.ctx ≠ mgmtSpace → e.fenced x.ctx = true → Gives .translationWalk s e) ∧
      (x.ctx ≠ mgmtSpace → e.fenced x.ctx = false → e.genOk x.ctx x.gen = false → Gives .translationWalk s (e.bump R.HEDGE_GEN_DISCARD)) ∧
      (x.ctx = mgmtSpace ∨ (e.fenced x.ctx = false ∧ e.genOk x.ctx x.gen = true) →
        let w := e.bump R.HEDGE_WALKS
        let going : Dev := { w with hedge := { w.hedge with walks := w.hedge.walks ++ [⟨k, x.req, x.ctx, x.gen, x.va, w.fclk⟩] } }
        Gives .translationWalk s
          (going.stackRequest ⟨x.req, 0x58 + k, x.ctx, x.gen⟩ ((going.walkWords x.ctx x.gen x.va).map fun y => (y, false))))) ∧
    (∀ i, d.hedge.inval = some i →
      Gives .invalComplete s
        (((d.invalApply i).updHedge fun h => { h with inval := none, lastInval := some (i, d.fclk) }).setB F.HEDGE_STATUS_inval_busy false)) ∧
    (∀ f, d.hedge.fences = [f] → f.step = 1 →
      let ended := fun (n : Nat) => (d.fenceForce f.ctx f.gen).1.updHedge fun h => { h with
        fences := h.fences.map fun x => if x.ctx = f.ctx then { x with step := 3, forced := n } else x }
      (d.fenceOutstanding f.ctx = 0 → Gives .fenceDrainEnd s (ended 0)) ∧
      (d.fenceOutstanding f.ctx ≠ 0 → f.start + 100016 ≤ d.fclk →
        Gives .fenceDrainEnd s ((ended (d.fenceOutstanding f.ctx)).setB F.HEDGE_FENCE_STATUS_forced true)) ∧
      (d.fenceOutstanding f.ctx ≠ 0 → d.fclk < f.start + 100016 → Idle .fenceDrainEnd s)) ∧
    (∀ f, d.hedge.fences = [f] → f.step = 3 →
      let e := (d.invalApply { scope := 0, ctx := f.ctx, va := 0, pages := 1, start := 0 }).updHedge fun h => { h with
        fences := h.fences.map fun x => if x.ctx = f.ctx then { x with step := 4 } else x }
      let g := e.setB F.HEDGE_FENCE_STATUS_busy false
      Gives .fenceDone s ((({ g with free := g.free + 1 } : Dev).raise 0x0827 (Config.freeNat g.free) f.ctx f.gen
        (hedgeDetail 0 (Config.freeNat g.free) 0 0 0 f.forced)).fenceNext))) ∧
  (∀ (d : Dev) (w : Walk) (l : Leaf), d.hedge.lastInval = none →
    let done : Dev := { d with hedge := { d.hedge with walks := d.hedge.walks.filter fun x => x.walker != w.walker } }
    let e := done.nodeFill w.ctx w.gen w.va
    (∀ r, done.walk w.ctx w.gen w.va = .error r → d.walkEnd w = e) ∧
    (done.walk w.ctx w.gen w.va = .ok l →
      let filled := if (e.tlbHit w.ctx w.gen w.va).isSome then e else e.tlbFill w.ctx w.gen w.va l
      d.walkEnd w = { filled with hedge := { filled.hedge with
        waiting := filled.hedge.waiting.filter fun x => !(x.ctx == w.ctx && x.gen == w.gen && l.covers x.va) } }))

/-- R465, R467, R468, R386: a checkpoint that is past its margin is a miss; an engine past its limit, a stopped block, the watchdog, the
fault of a stack each ask for a recovery when their time has come, and not before. R469, R477: a device recovery supersedes every other:
requests that wait are dropped; while it is asked for or runs a request is discarded and counted; a partition request for a unit that
nothing holds starts its recovery. R472, R474, R475, R476, R477: a partition recovery whose dump and fences are complete resets its unit
and rejoins; one past its bound asks for a device recovery; a device recovery isolates every unit and begins its dump; a complete dump
stands in the buffer with valid set. The layout of the dump is the model's choice (log 38). -/
def Obligations.RecoveryRuns : Prop :=
  (∀ (s : State),
    (∀ p : BitVec 4, let t := s.upd fun d => d.cpSettle p.toNat
      ∀ x l, t.dev.cpLeft p.toNat = x :: l → t.dev.locked = true → t.dev.ploughHeld p.toNat = false →
        (x.planned + t.dev.marginC < t.dev.ccount → exec (.checkpointMiss p) s = .next (t.cpMiss p.toNat 0)) ∧
        (t.dev.ccount ≤ x.planned + t.dev.marginC → exec (.checkpointMiss p) s = .next t)) ∧
    (∀ e : BitVec 2, (s.dev.engineSince e.toNat = none → Idle (.engineHang e) s) ∧
      (∀ t, s.dev.engineSince e.toNat = some t → t + max 1 (s.dev.getF (F.REEVE_ENG_LIMIT_us e.toNat)) * 1200 < s.dev.cclk →
        s.dev.unitBusy (16 + e.toNat) = false → s.dev.flag F.REEVE_CTL_auto = false →
        (s.dev.reg R.REEVE_HUNG).toNat.testBit (16 + e.toNat) = false →
        let h := s.dev.hwSetBits R.REEVE_HUNG (unitBits (20 + e.toNat))
        Gives (.engineHang e) s (({ h with free := h.free + 1 } : Dev).reeveEvent 0x0D02 (20 + e.toNat) 0 0 h.devNs 2 0 0
          (Config.freeNat h.free)))) ∧
    (∀ b : BitVec 4, s.dev.pwr.good = true → b.toNat ∈ [1, 2, 3, 8, 9, 0xA, 0xB, 0xE] →
      exec (.heartbeatTimeout b) s = .next (s.reeveRequest 31 3 0)) ∧
    (s.dev.pwr.good = true → s.dev.reeve.kick + s.dev.watchdogLimit ≤ s.dev.clk →
      exec .stewardWatchdogExpiry s = .next (s.reeveRequest 31 4 0)) ∧
    (s.dev.clk < s.dev.reeve.kick + s.dev.watchdogLimit → Idle .stewardWatchdogExpiry s) ∧
    (∀ k : BitVec 1, s.dev.domainOn (24 + k.toNat) = true →
      let e := ({ s.dev with free := s.dev.free + 1 } : Dev).raise 0x0908 (Config.freeNat s.dev.free) 0 0 (dAt 25 1 k.toNat)
      exec (.stackPhy k) s = .next (({ s with dev := e } : State).reeveRequest 31 5 0))) ∧
  (∀ (s : State) (u cause detail m : Nat), unitMask u = some m →
    let d := s.dev
    (d.reeve.device.isSome = true → s.reeveRequest u cause detail = s.upd fun d => d.bump R.REEVE_DISCARDED) ∧
    (d.reeve.device = none → u = 31 →
      s.reeveRequest u cause detail =
        { s with dev := { d with reeve := { d.reeve with device := some (d.newRecovery 31 cause detail), waiting := [] } } }) ∧
    (d.reeve.device = none → u ≠ 31 → d.parkedBits &&& m = 0 → m ≠ 0 → (∀ r ∈ d.reeve.recs, unitBits r.unit &&& m = 0) →
      s.reeveRequest u cause detail = s.recoveryStart u cause detail)) ∧
  (∀ (s : State),
    let d := s.dev
    (∀ (unit : BitVec 5) r, d.reeve.recs.find? (fun r => r.unit == unit.toNat) = some r →
      (r.dumped = true → d.recFenced r = true →
        let a := (unitPloughs r.unit).foldl (fun (d : Dev) n => d.resetPlough n) d
        let b := ((unitEngines r.unit).foldl (fun (d : Dev) e => d.resetEngine e) a).recoverySquash r
        let c := ({ b with reeve := { b.reeve with recs := b.reeve.recs.filter fun y => y.unit != r.unit } } : Dev).reeveShow
        exec (.recoveryDone unit) s =
          .next ({ s with dev := ((c.bump R.REEVE_RECOVERIES).recEvent 0x0D04 r 0).notePark r } : State).reeveRetry) ∧
      (d.recLate r = true → exec (.recoveryEscalation unit) s = .next (s.reeveRequest 31 7 r.detail)) ∧
      (d.recLate r = false → Idle (.recoveryEscalation unit) s)) ∧
    (∀ r, d.reeve.device = some r → d.reeve.deviceRuns = false → ∃ t, exec .deviceRecovery s = .next t ∧ t.kept.dumpValid = false ∧
      t.kept.dump = s.kept.dump ∧ t.kept.flash = s.kept.flash ∧ t.pending = s.pending) ∧
    (∀ r, d.dumping = some r →
      let plan := dumpPlan 0 (d.memberWords r) r.timeouts
      (r.summary = false → r.dumpFrom + dumpReads plan + 9999 * r.timeouts.length ≤ d.fclk → ∃ t, exec .dumpDone s = .next t ∧
        t.kept.dump = s.dumpBytes r ++ s.kept.dump.drop (s.dumpBytes r).length ∧ t.kept.dumpValid = true ∧ t.kept.dumpSeq = r.seq) ∧
      (r.summary = true → r.dumpFrom + dumpReads plan + 9999 * r.timeouts.length ≤ d.fclk → ∃ t, exec .dumpDone s = .next t ∧
        t.kept.dump = s.kept.dump ∧ t.kept.dumpValid = s.kept.dumpValid) ∧
      (∀ w, r.timeouts = [] → r.dumpFrom + 10000 ≤ d.fclk → readWord plan (d.fclk - r.dumpFrom - 10000) = some w →
        Gives .dumpReadTimeout s ((d.updRec { r with timeouts := [w] }).bump R.REEVE_DUMP_TIMEOUTS))))

/-- R482, R483, R494, R496: the input's start is a power-up that keeps only the Almanac, the flash and the cause; its stop and a fault of
the primary side remove the rails with their cause; POWER_GOOD releases the always-on domain; a device reset clears the device and keeps
what R494 keeps. R485, R486, R487, R490, R491: a domain switches 20 µs after the one before; its fault is reported and the device
recovers; a trip switches every domain off and latches its cause; the alarm and the host end standby; both stacks trained, the start-up
fill begins. R482, R489, R490, R510: a power sample shows the input and keeps the averages, a temperature sample judges the warning, the
10 ms above the limit ask for a device recovery, and the SMBus words are given out. The average over received samples is the model's
choice (log 43). -/
def Obligations.PowerAndStandby : Prop :=
  (∀ (s : State),
    let k := s.kept
    (s.dev.pwr.on = false → ∃ t, exec .inputStart s = .next t ∧ t.dev = s.dev.blank true ∧ t.pending = s.pending ∧ t.kept.flash = k.flash ∧
      t.kept.cause = k.cause ∧ t.kept.dumpValid = false ∧ t.kept.dump = [] ∧ t.kept.alm = { k.alm with supply := 0, stopped := false }) ∧
    (s.dev.pwr.on = true →
      (∃ t, exec .inputStop s = .next t ∧ t.dev = s.dev.blank false ∧ t.kept.cause = 1 ∧ t.kept.flash = k.flash ∧ t.kept.dump = k.dump) ∧
      (∃ t, exec .primarySideFault s = .next t ∧ t.dev = s.dev.blank false ∧ t.kept.cause = 5 ∧ t.kept.flash = k.flash)) ∧
    (s.dev.pwr.on = true → s.dev.pwr.good = false → Gives .powerGood s s.dev.released) ∧
    (s.dev.pwr.good = true → Idle .powerGood s) ∧
    (∀ cause, s.dev.resetDue = some cause → ∃ t, exec .deviceReset s = .next t ∧ t.kept = { k with cause := cause.getD k.cause } ∧
      t.dev.mem = [] ∧ t.dev.ctxs = [] ∧ t.dev.ploughs = [] ∧ t.dev.plan = { cBase := s.dev.cclk, mBase := s.dev.mclk } ∧ t.dev.reeve.seq = s.dev.reeve.seq ∧ t.dev.clk = s.dev.clk) ∧
    (s.dev.resetDue = none → Idle .deviceReset s)) ∧
  (∀ (s : State),
    let d := s.dev
    (∀ n, d.pwr.good = true → d.pwr.lastSwitch + 480000 ≤ d.clk → d.domainNext = some n →
      let e := d.domainSwitch n (d.domainWant n)
      Gives .domainSwitch s ({ e with pwr := { e.pwr with lastSwitch := e.clk } } : Dev).domainShow) ∧
    (d.clk < d.pwr.lastSwitch + 480000 → Idle .domainSwitch s) ∧
    (∀ n : BitVec 6, d.pwr.good = true → n.toNat < 36 → exec (.domainFault n) s = .next
      ((s.upd fun d => (d.hwSet ⟨R.PWR_DOMAIN_FAULT, n.toNat, 1⟩).raise 0x0E05 0 0 0 (dAt 16 4 0 + dAt 24 1 n.toNat + dAt 25 1 0)).reeveRequest 31 6 0)) ∧
    (∀ site t, SMap.get (fun _ => none) d.pwr.hotSince site = some t → t + 24000000 ≤ d.clk → d.pwr.tripped = false →
      ∃ r, exec (.thermalTrip site) s = .next r ∧ r.kept.cause = 2 ∧ r.kept.flash = s.kept.flash ∧ r.pending = s.pending) ∧
    (SMap.get (fun _ => none) d.pwr.hotSince 0 = none → Idle (.thermalTrip 0) s) ∧
    (d.getF F.PWR_WAKE_sec ≠ 0 → d.getF F.PWR_WAKE_sec ≤ s.kept.alm.sec → Gives .wakeAlarm s (d.standbyLeave true false)) ∧
    (s.kept.alm.sec < d.getF F.PWR_WAKE_sec → Idle .wakeAlarm s) ∧
    (∀ t, d.pwr.wakeN = some t → t + 2400000000 ≤ d.clk →
      Gives .wakeNTimeout s (({ d with pwr := { d.pwr with wakeN := none } } : Dev).emit (.pin "WAKE_N" 0 true))) ∧
    (d.pwr.started = true → d.pwr.trained = false → d.domainOn 24 = true → d.domainOn 25 = true → d.pwr.filled = true →
      Gives .stackPhyTrained s (({ d with pwr := { d.pwr with trained := true, filled := true } } : Dev).startFill [(0, 0xC00000000)] none false true))) ∧
  (∀ (s : State) (mv ma : BitVec 32) (temps : List (Nat × BitVec 8)),
    let d := s.dev
    (d.pwr.good = true →
      Yields (.powerSample mv ma) s fun e => e.mem = d.mem ∧ e.ploughs = d.ploughs ∧
        e.pwr.samples = (mv.toNat * ma.toNat / 1000 :: d.pwr.samples).take 1000) ∧
    (d.pwr.good = true → Yields (.thermalSample temps) s fun e => e.mem = d.mem ∧ e.ploughs = d.ploughs) ∧
    (d.pwr.good = false → Idle (.powerSample mv ma) s ∧ Idle (.thermalSample temps) s) ∧
    (∀ t, d.pwr.overSince = some t → t + 240000000 ≤ d.clk →
      exec .overLimit s = .next ((s.upd fun d =>
        let e : Dev := { d with pwr := { d.pwr with overSince := some d.clk } }
        e.raise 0x0E02 0 0 0 (dAt 16 4 (e.getF F.PWR_AVG10_value) + dAt 24 1 0 + dAt 25 1 0)).reeveRequest 31 6 0)) ∧
    (∀ t, d.pwr.overSince = some t → d.clk < t + 240000000 → Idle .overLimit s) ∧
    (d.pwr.good = true →
      Gives (.smbusReadWord 0) s (d.emit (.smbus (some ((d.reg R.PWR_STATUS).toNat % 65536)))) ∧
      Gives (.smbusReadWord 2) s (d.emit (.smbus (some (d.getF F.PWR_INPUT_V_value / 10 % 65536)))) ∧
      Gives (.smbusReadWord 3) s (d.emit (.smbus (some (d.getF F.PWR_INPUT_P_value / 100 % 65536)))) ∧
      Gives (.smbusReadWord 5) s (d.emit (.smbus (some (s.kept.cause % 65536)))) ∧
      (∀ c : BitVec 8, 5 < c.toNat → Gives (.smbusReadWord c) s (d.emit (.smbus none)))))

/-- R174, R208: an edge of a capture input is captured while fewer than two edges of its register wait, and else it is lost and counted; a
disabled or inactive edge does nothing. STAMP_CONVERT converts, once in a T clock, the oldest edge of the first register that has one, from
the pointer on, and the pointer passes it. -/
def Obligations.StrobesAndStamps : Prop :=
  ∀ (s : State) (input : BitVec 6) (rise : Bool),
    let d := s.dev
    let r := input.toNat
    let taken := ((d.captured r).length < 2 → Gives (.strobeEdge input rise) s (d.updBell fun b =>
        { b with captures := SMap.modify (fun _ => []) b.captures r (· ++ [⟨d.edgeTime (d.filterEdges r), rise, d.holdoverFlag⟩]) })) ∧
      (2 ≤ (d.captured r).length → Gives (.strobeEdge input rise) s (d.stampOverrun r (d.registerSlot r)))
    (r < 36 → r ≠ 16 → r ≠ 17 → taken) ∧
    (r = 16 ∨ r = 17 → (rise = d.flag (F.GATE_IMU_CTL_drdy_pol (r - 16)) → Idle (.strobeEdge input rise) s) ∧
      (rise ≠ d.flag (F.GATE_IMU_CTL_drdy_pol (r - 16)) → taken)) ∧
    (r = 36 → (d.flag F.BELL_PPS_CTL_in_en = false → Idle (.strobeEdge input rise) s) ∧
      (d.flag F.BELL_PPS_CTL_in_en = true → rise ≠ d.flag F.BELL_PPS_CTL_in_pol → taken)) ∧
    (36 < r → Idle (.strobeEdge input rise) s) ∧
    ((∀ k < 37, d.captured k = []) → Idle .stampConvert s) ∧
    (d.bell.convT = some d.bell.tEdges → Idle .stampConvert s) ∧
    (∀ k c cs, d.bell.convT ≠ some d.bell.tEdges → k < 37 → (∀ j < k, d.captured ((d.bell.stampPtr + j) % 37) = []) → d.captured ((d.bell.stampPtr + k) % 37) = c :: cs →
      let q := (d.bell.stampPtr + k) % 37
      let e := d.updBell fun b => { b with captures := SMap.set (fun _ => []) b.captures q cs, stampPtr := (q + 1) % 37, convT := some b.tEdges }
      (8 ≤ q → Gives .stampConvert s (e.updBell fun b => { b with stamps := SMap.modify (fun _ => []) b.stamps q (· ++ [c]) })) ∧
      (q < 8 → Gives .stampConvert s (e.updGate fun g => { g with strobes := SMap.modify (fun _ => {}) g.strobes q (·.edge c) })))

/-- R165, R170, R175, R526, R527: a frame start cuts what its virtual channel still has open, with an error, is stamped by its frame start
packet, or by the strobe pulse that it matches (with the fallback flag and a record when it should match one and does not), and opens a frame
for the slot that takes its source, one of a discarded sample to be left out; one whose header cannot be corrected starts no frame; a good packet's payload waits until words are complete, a bad
one marks the frame partial, one of a data type that the port does not support is ignored; the frame's end closes it. The codes of the
supported types (log 58) and the frame start that is left out (log 59) are the model's. -/
def Obligations.CameraFrames : Prop :=
  (∀ (s : State) (port : BitVec 3) (vc : BitVec 2) (frame : BitVec 16) (d e : Dev) (cap : Capture) (x : Source) (n : Nat),
    let p := port.toNat
    let i : Instr := .csiFrameStart port vc true frame
    let opened := fun (e : Dev) (base fl width : Nat) (left : Bool) => e.updGate fun g => { g with csi := g.csi ++
      [{ port := x.port, vc := x.key % 4, dt := x.key / 4, slot := n,
         hdr := { slot := n, kind := 1, stamp := addStamp base (e.slotOffset n), flags := cap.hold + fl + 128, seq := 0, bytes := 0,
                  src := x.key % 256, aux := frame.toNat + width * 65536 },
         buf := [], total := 0, lines := 0, partialF := false, started := false, drop := left }] }
    (s.dev.csiCut p vc.toNat).takeStamp (8 + p) 0 true = (d, cap) →
      let mode := d.getF (F.GATE_CSI_CTL_strobe_mode p)
      let input := d.getF (F.GATE_CSI_CTL_strobe_input p)
      let plain := addStamp cap.time (-(d.getF (F.GATE_CSI_FS_OFFSET_offset p) * 256 : Nat))
      let conv := d.convertUntil input 75
      (mode ≠ 1 → mode ≠ 2 → d.csiSources p vc.toNat = [] → Gives i s d) ∧
      (mode ≠ 1 → mode ≠ 2 → d.csiSources p vc.toNat = [x] → d.takingSlot x = some n →
        (d.takeIn x plain = (e, some n) → Gives i s (opened e plain 0 0 false)) ∧
        (d.takeIn x plain = (e, none) → Gives i s (opened e plain 0 0 true))) ∧
      (mode = 1 ∨ mode = 2 →
        (conv.matchPulse p input cap.time = none → conv.csiSources p vc.toNat = [x] → conv.takingSlot x = some n →
          let told := conv.gateEvent 0x0107 n (addStamp plain (conv.slotOffset n)) 0
          told.takeIn x plain = (e, some n) → Gives i s (opened e plain 2 0 false)) ∧
        (∀ q, conv.matchPulse p input cap.time = some q →
          let base := if mode = 1 then (q.rise + q.fall) / 2 else q.rise
          let used := conv.updGate fun g => { g with strobes := SMap.modify (fun _ => {}) g.strobes input fun st =>
            { st with pulses := st.pulses.map fun y => if y = q then { y with served := p :: y.served } else y } }
          used.csiSources p vc.toNat = [x] → used.takingSlot x = some n → used.takeIn x base = (e, some n) →
          Gives i s (opened e base 0 (min ((q.fall - q.rise) / 256) 0xFFFFFFFF) false)))) ∧
  (∀ (s : State) (port : BitVec 3) (vc : BitVec 2) (dt : BitVec 6) (payload : List Byte) (e : Dev),
    let p := port.toNat
    let x : Source := { kind := 1, port := p, key := vc.toNat + dt.toNat * 4 }
    let same := fun (f : CsiFrame) => f.port == p && f.vc == vc.toNat && f.dt == dt.toNat
    let on := fun (f : CsiFrame) => f.port == p && f.vc == vc.toNat
    let without := fun (d : Dev) => d.updGate fun g => { g with csi := g.csi.filter fun f => !on f }
    (∀ frame, Idle (.csiFrameStart port vc false frame) s) ∧
    (s.dev.gate.csi.filter on = [] → s.dev.csiCut p vc.toNat = s.dev ∧ Idle (.csiFrameEnd port vc) s) ∧
    (∀ f, s.dev.gate.csi.filter on = [f] →
      (f.drop = false →
        s.dev.csiCut p vc.toNat = ((without (s.dev.rxError 0x0102 { kind := 1, port := p, key := f.vc + f.dt * 4 } s.dev.dev256)).csiFinish
          { f with partialF := true }).applyPendMap f.slot ∧
        Gives (.csiFrameEnd port vc) s (((without s.dev).csiFinish f).applyPendMap f.slot)) ∧
      (f.drop = true → Gives (.csiFrameEnd port vc) s ((without s.dev).applyPendMap f.slot))) ∧
    (csiTypes.contains dt.toNat = false → ∀ good, Idle (.csiLongPacket port vc dt good payload) s) ∧
    (csiTypes.contains dt.toNat = true →
      (s.dev.gate.csi.find? same = none → Idle (.csiLongPacket port vc dt true payload) s ∧
        Gives (.csiLongPacket port vc dt false payload) s (s.dev.rxError 0x0102 x s.dev.dev256)) ∧
      (∀ f, s.dev.gate.csi.find? same = some f →
        (∀ g, f.drop = false → s.dev.csiFlush (payload.length / 64 + 2)
            { f with buf := f.buf ++ payload, total := f.total + payload.length, lines := f.lines + 1 } = (e, g) →
          Gives (.csiLongPacket port vc dt true payload) s
            (e.updGate fun k => { k with csi := k.csi.map fun y => if same y then g else y })) ∧
        (f.drop = true → Idle (.csiLongPacket port vc dt true payload) s) ∧
        Gives (.csiLongPacket port vc dt false payload) s ((s.dev.rxError 0x0102 x s.dev.dev256).updGate fun k =>
          { k with csi := k.csi.map fun y => if same y then { f with partialF := true } else y }))))

/-- R165, R171, R176: an Ethernet frame of an enabled port is stamped with its ingress correction; a good UDP datagram that a slot takes
becomes a sample, a bad one is an error of its slot; PTP goes to the Belltower and anything else is counted as unmatched. R165, R172,
R173: a DRDY edge lowers CS_N and starts a transfer of an IMU port, and one that comes during a transfer is an error; the transfer's end
raises CS_N and makes a sample of its burst. A good data frame of an enabled CAN controller is acknowledged, unless the controller only
listens, and becomes a sample stamped 150 ns before its captured start; a bad one is signalled likewise, and so is a failed attempt of the
command CAN_SEND that the Steward runs; a controller leaves bus-off with its counters at zero. The counting of CAN errors is the model's choice (log 61). -/
def Obligations.PortFrames : Prop :=
  (∀ (s : State) (port : BitVec 2) (fcsOk : Bool) (frame : List Byte) (d e : Dev) (cap : Capture),
    let p := port.toNat
    let mode := s.dev.getF (F.GATE_ETH_CTL_mode p)
    let mx := s.dev.getF (F.GATE_ETH_CTL_max_frame p)
    let limit := if 1518 ≤ mx ∧ mx ≤ 9216 then mx else 1518
    let i : Instr := .ethFrameReceive port fcsOk frame
    let good := fcsOk = true ∧ frame.length ≤ limit
    let class' := ethClass (frame.take (frame.length - 4))
    (mode = 0 ∨ 4 < mode → Idle i s) ∧
    (1 ≤ mode → mode ≤ 4 → s.dev.takeStamp (28 + p) 0 true = (d, cap) →
      let mac := addStamp cap.time (-(d.getF (F.GATE_ETH_INGRESS_CORR_corr p) : Int))
      (good → class' = .ptp → Gives i s d) ∧
      (class' = .other → Gives i s (d.bump R.GATE_ETH_UNMATCHED)) ∧
      (∀ sport dport payload, class' = .udp sport dport payload →
        let x : Source := { kind := 2, port := p, key := dport }
        ((∀ n < 16, d.slotMaps n x = false) → Gives i s (d.bump R.GATE_ETH_UNMATCHED)) ∧
        (∀ n, ¬ good → d.takingSlot x = some n → Gives i s ((d.bump (R.GATE_SLOT_ERR n)).gateEvent 0x0102 n mac 0)) ∧
        (∀ n, good → d.takingSlot x = some n → d.takeIn x mac = (e, some n) → e.getF (F.GATE_SLOT_PARSE_mode n) = 0 →
          Gives i s (e.emitSample n (addStamp mac (e.slotOffset n)) cap.hold sport 0 payload))))) ∧
  (∀ (s : State) (port ctl : BitVec 1) (miso : List Byte) (f : CanFrame) (d : Dev) (c : Capture),
    let p := port.toNat
    let k := ctl.toNat
    let xfer := SMap.get (fun _ => none) s.dev.gate.imu p
    let imu : Source := { kind := 3, port := p }
    (s.dev.takeStamp (16 + p) (s.dev.filterEdges (16 + p)) (!s.dev.flag (F.GATE_IMU_CTL_drdy_pol p)) = (d, c) →
      let burst := d.getF (F.GATE_IMU_CTL_burst p)
      let en := d.flag (F.GATE_IMU_CTL_cmd_en p)
      (burst = 0 → Gives (.imuDrdyEdge port) s d) ∧
      (burst ≠ 0 → SMap.get (fun _ => none) d.gate.imu p = none → Gives (.imuDrdyEdge port) s (((d.updGate fun g =>
        { g with imu := SMap.set (fun _ => none) g.imu p (some ⟨c.time - 256, c.hold, d.takingSlot imu⟩) }).emit (.pin "IMU_CS_N" p false)).emit
          (.spi p (d.getF (F.GATE_IMU_CTL_spi_mode p)) (max 1 (d.getF (F.GATE_IMU_CTL_div p))) (8 * (b2n en + burst))
            (if en then some (d.getF (F.GATE_IMU_CTL_cmd p)) else none)))) ∧
      (burst ≠ 0 → SMap.get (fun _ => none) d.gate.imu p ≠ none → Gives (.imuDrdyEdge port) s (d.rxError 0x0102 imu (c.time - 256)))) ∧
    (xfer = none → Idle (.imuTransferEnd port miso) s) ∧
    (∀ st, xfer = some st →
      let up := (s.dev.updGate fun g => { g with imu := SMap.set (fun _ => none) g.imu p none }).emit (.pin "IMU_CS_N" p true)
      let burst := s.dev.getF (F.GATE_IMU_CTL_burst p)
      let bytes := (if s.dev.flag (F.GATE_IMU_CTL_cmd_en p) then miso.drop 1 else miso).take burst
      (∀ n, st.slot = some n →
        Gives (.imuTransferEnd port miso) s ((up.portArrival imu st.stamp st.hold burst 0 bytes).applyPendMap n)) ∧
      (st.slot = none → up.takingSlot imu = none →
        Gives (.imuTransferEnd port miso) s (up.portArrival imu st.stamp st.hold burst 0 bytes))) ∧
    (s.dev.flag (F.GATE_CAN_CTL_enable k) = false ∨ s.dev.getF (F.GATE_CAN_CTL_state k) = 2 → Idle (.canFrameReceive ctl f) s) ∧
    (s.dev.flag (F.GATE_CAN_CTL_enable k) = true → s.dev.getF (F.GATE_CAN_CTL_state k) ≠ 2 → f.own = true →
      (f.ok = true ∨ s.dev.runs 0x70 = none ∨ s.dev.flag (F.GATE_CAN_CTL_listen_only k) = true → Idle (.canFrameReceive ctl f) s) ∧
      (∀ cmd, s.dev.runs 0x70 = some cmd → leAt cmd 8 1 = k → f.ok = false → s.dev.flag (F.GATE_CAN_CTL_listen_only k) = false →
        Gives (.canFrameReceive ctl f) s
          ((s.dev.setCan k (s.dev.getF (F.GATE_CAN_CTL_tec k) + 8) (s.dev.getF (F.GATE_CAN_CTL_rec k))).emit (.canFlag k true)))) ∧
    (s.dev.flag (F.GATE_CAN_CTL_enable k) = true → s.dev.getF (F.GATE_CAN_CTL_state k) ≠ 2 → f.own = false →
      s.dev.takeStamp (18 + k) 0 false = (d, c) →
      let x : Source := { kind := 4, port := k, key := f.id.toNat, ext := f.ext }
      let stamp := addStamp c.time (-(150 * 256))
      let good := f.ok = true ∧ (f.fd = true → d.flag (F.GATE_CAN_CTL_fd k) = true)
      let listens := d.flag (F.GATE_CAN_CTL_listen_only k) = true
      let tec := d.getF (F.GATE_CAN_CTL_tec k)
      let rec' := d.getF (F.GATE_CAN_CTL_rec k)
      let sample := fun (d : Dev) =>
        d.portArrival x stamp c.hold (f.id.toNat + b2n f.ext * 2 ^ 29 + b2n f.fd * 2 ^ 30 + b2n f.brs * 2 ^ 31) f.dlc.toNat f.data
      let acked := (d.setCan k tec (if 127 < rec' then 127 else rec' - 1)).emit (.canFlag k false)
      let flagged := (d.setCan k tec (min 255 (rec' + 1))).emit (.canFlag k true)
      (good → f.rtr = false → (listens → Gives (.canFrameReceive ctl f) s (sample d)) ∧
        (¬ listens → Gives (.canFrameReceive ctl f) s (sample acked))) ∧
      (good → f.rtr = true → (listens → Gives (.canFrameReceive ctl f) s d) ∧ (¬ listens → Gives (.canFrameReceive ctl f) s acked)) ∧
      (¬ good → (listens → Gives (.canFrameReceive ctl f) s (d.rxError 0x0102 x stamp)) ∧
        (¬ listens → Gives (.canFrameReceive ctl f) s (flagged.rxError 0x0102 x stamp)))) ∧
    (s.dev.getF (F.GATE_CAN_CTL_state k) = 2 → Gives (.canBusOffRecovery ctl) s
      (((s.dev.setF (F.GATE_CAN_CTL_tec k) 0).setF (F.GATE_CAN_CTL_rec k) 0).setF (F.GATE_CAN_CTL_state k) 0)) ∧
    (s.dev.getF (F.GATE_CAN_CTL_state k) ≠ 2 → Idle (.canBusOffRecovery ctl) s))

/-- R177, R178, R515: an edge of A counts up when it leads B and down when it follows, an edge of B the other way, invert turns the
direction, a rise of Z may set the count to 0, and the edge is a sample unless the channel latches; a change of both lines at once is an
error and does not count; an edge within 200 ns of the last one accepted on its input is ignored. A latching channel gives a sample at each latch
instant, stale when no edge came since the last. R174, R188: an armed trigger's output goes to its active level when its instant has come
and back when its width has passed, and the next instant is a period later; before that TRIGGER_PULSE does nothing. A port whose link
changes shows it and raises PORT_LINK. -/
def Obligations.EncodersAndTriggers : Prop :=
  (∀ (s : State) (ch : BitVec 3) (rise : Bool) (d : Dev) (cap : Capture),
    let c := ch.toNat
    (s.dev.takeStamp (20 + c) (s.dev.filterEdges (20 + c)) true = (d, cap) →
      let stamp := addStamp cap.time (-(39 * 256))
      let takes := fun (edge : EncEdge) => (d.enc c).tooSoon edge stamp = false
      let into := fun (edge : EncEdge) => d.updEnc c fun e => e.accepts edge stamp
      let counted := fun (edge : EncEdge) (code count : Nat) (a b : Bool) =>
        let e := (into edge).enc c
        ((into edge).updEnc c fun x => { x with
          aLevel := a, bLevel := b, stamp := stamp, count := count, edge := code
          interval := if e.any then min ((stamp - e.stamp) / 256) 0xFFFFFFFF else 0xFFFFFFFF
          fresh := true, any := true, hold := cap.hold }).setF (F.GATE_ENC_COUNT_count c) count
      let done := fun (edge : EncEdge) (m : Dev) =>
        (m.flag (F.GATE_ENC_CTL_latch c) = true → Gives (.encoderEdge ch edge) s m) ∧
        (m.flag (F.GATE_ENC_CTL_latch c) = false → Gives (.encoderEdge ch edge) s (m.encSample c 0))
      let moves := fun (e : Enc) (up : Bool) =>
        if up != (into (.a rise)).flag (F.GATE_ENC_CTL_invert c) then (e.count + 1) % 2 ^ 32 else (e.count + (2 ^ 32 - 1)) % 2 ^ 32
      (∀ edge, (d.enc c).tooSoon edge stamp = true → Gives (.encoderEdge ch edge) s d) ∧
      (takes (.a rise) → let e := (into (.a rise)).enc c
        done (.a rise) (counted (.a rise) (if rise then 0 else 1) (moves e (rise != e.bLevel)) rise e.bLevel)) ∧
      (takes (.b rise) → let e := (into (.b rise)).enc c
        done (.b rise) (counted (.b rise) (if rise then 2 else 3) (moves e (rise == e.aLevel)) e.aLevel rise)) ∧
      (takes (.z true) → let e := (into (.z true)).enc c
        done (.z true) (counted (.z true) 4 (if d.flag (F.GATE_ENC_CTL_z_reset c) then 0 else e.count) e.aLevel e.bLevel)) ∧
      (takes (.z false) → Gives (.encoderEdge ch (.z false)) s (into (.z false))) ∧
      (takes .both → Gives (.encoderEdge ch .both) s (((into .both).updEnc c fun e =>
        { e with aLevel := !e.aLevel, bLevel := !e.bLevel }).rxError 0x0108 { kind := 5, port := c } stamp))) ∧
    (let due := (s.dev.enc c).nextLatch.getD (s.dev.plan.t0.getD 0 * 256)
     (s.dev.flag (F.GATE_ENC_CTL_latch c) = true → s.dev.locked = true → due ≤ s.dev.dev256 →
       Gives (.encoderLatch ch) s ((s.dev.updEnc c fun e =>
         { e with nextLatch := some (due + max 1 (s.dev.getF (F.GATE_ENC_CTL_period c)) * 256000), fresh := false }).encSample c
           (if (s.dev.enc c).fresh then 0 else 16))) ∧
     (s.dev.dev256 < due → Idle (.encoderLatch ch) s))) ∧
  (∀ (s : State) (t : BitVec 3) (port : BitVec 3) (up : Bool),
    let d := s.dev
    let i := t.toNat
    let x := d.trig i
    let inv := d.flag (F.GATE_TRIG_WIDTH_invert i)
    let p := d.getF (F.GATE_TRIG_PERIOD_period i)
    (x.level = true → d.dev256 < x.fallAt → Idle (.triggerPulse t) s) ∧
    (x.level = true → x.fallAt ≤ d.dev256 →
      Gives (.triggerPulse t) s ((d.updTrig i fun x => { x with level := false }).emit (.pin "TRIG" i inv))) ∧
    (x.level = false → x.next = none → Idle (.triggerPulse t) s) ∧
    (∀ n, x.level = false → x.next = some n →
      (x.armed = true → n * 256 ≤ d.dev256 → Gives (.triggerPulse t) s ((d.updTrig i fun x =>
        { x with level := true, fallAt := (n + d.trigWidth i) * 256, next := if p = 0 then none else some (n + p) }).emit (.pin "TRIG" i (!inv)))) ∧
      (d.dev256 < n * 256 → Idle (.triggerPulse t) s)) ∧
    (let q := d.getF F.GATE_STATUS_csi_up
     (q.testBit port.toNat = up → Idle (.portLink .csi port up) s) ∧
     (q.testBit port.toNat ≠ up → Gives (.portLink .csi port up) s ((d.setF F.GATE_STATUS_csi_up (putBit q port.toNat up)).raise 0x0101
       port.toNat 0 0 (dAt 24 1 1 + dAt 25 1 (b2n up))))) ∧
    (let q := d.getF F.GATE_STATUS_eth_up
     let k := port.toNat % 4
     (q.testBit k = up → Idle (.portLink .eth port up) s) ∧
     (q.testBit k ≠ up → Gives (.portLink .eth port up) s ((d.setF F.GATE_STATUS_eth_up (putBit q k up)).raise 0x0101 k 0 0
       (dAt 24 1 2 + dAt 25 1 (b2n up))))))

/-- R196, R197, R198, R199: DROP_PACKET and TROUGH_FLUSH act for the consumer that has the trough; a word comes to the head once the one
before it is taken; a packet whose stamp lies outside the gate's window is dropped and counted; an abort word that stands at the head for an uncorrectable
word ends a drop, and the rest of its packet goes on being discarded; the consumer drops in an F clock in which it takes no word. R183, R195, R425, R529: a sample that an
injection queue has read whole has its slot and kind put in and waits for the trough, or is discarded when its slot is off, or dropped
when its stamp goes back or its header is bad; its words pass one by one while the trough has room, the first takes the slot's number, and
the last completes the descriptor. -/
def Obligations.TroughsAndInjection : Prop :=
  (∀ (s : State) (n : BitVec 4) (sw : Bool),
    let d := s.dev
    let i := n.toNat
    let t := d.trough i
    let hold := d.flag (F.TROUGH_CTL_consumer_hold i)
    let after := fun (u : Trough) =>
      let e := d.updTrough i fun _ => u
      if sw then e else ({ e with yoke := { e.yoke with lastTake := some d.fclk } } : Dev)
    let gone := { t with words := t.words.drop 1, counted := t.counted - 1, rd := (t.rd + 1) % 4096, chain := t.chain.drop 1, head := false,
                         takes := d.clk :: t.takes.filter fun c => decide (d.clk < c + 7200) }
    (sw = hold → (sw = true ∨ d.yoke.lastTake ≠ some d.fclk) →
      (∀ g cs, t.head = true → t.chain = g :: cs → g.lost = true → Gives (.dropPacket n sw) s (after { gone with aborting := !g.last })) ∧
      (t.head = false ∨ t.chain = [] ∨ (∀ g cs, t.chain = g :: cs → g.lost = false) →
        Gives (.dropPacket n sw) s (after { t with dropping := true, head := false }))) ∧
    (sw ≠ hold → Idle (.dropPacket n sw) s) ∧
    (sw = false → d.yoke.lastTake = some d.fclk → Idle (.dropPacket n sw) s) ∧
    (hold = true → Gives (.troughFlush n) s (d.updTrough i fun t =>
      { t with words := t.words.drop t.counted, counted := 0, rd := (t.rd + t.counted) % 4096, chain := [], head := false,
               dropping := false, aborting := false, toSop := true })) ∧
    (hold = false → Idle (.troughFlush n) s) ∧
    (t.head = true ∨ t.chain = [] → Idle (.troughHeadArrival n) s) ∧
    (∀ g cs, t.head = false → t.chain = g :: cs →
      (d.fclk < g.ready ∨ t.discards d.fclk = true → Idle (.troughHeadArrival n) s) ∧
      (g.ready ≤ d.fclk → t.discards d.fclk = false →
        let e := d.updTrough i fun t => { t with toSop := false, stamp := if g.word.sop then g.stamp else t.stamp }
        let gated := g.word.sop = true ∧ e.flag (F.TROUGH_CTL_gate_en i) = true ∧
          ¬ (e.slotNow i ≤ g.stamp + e.getF (F.TROUGH_GATE_past i) * 256000 ∧ g.stamp < e.slotNow i + e.getF (F.TROUGH_GATE_future i) * 256000)
        (g.lost = true → Gives (.troughHeadArrival n) s ((e.updTrough i fun t => { t with head := true }).troughEvent 0x0203 i g.stamp 0)) ∧
        (g.lost = false → ¬ gated → Gives (.troughHeadArrival n) s (e.updTrough i fun t => { t with head := true })) ∧
        (g.lost = false → gated → let e := (e.updTrough i fun t => { t with dropping := true, head := false }).bump (R.TROUGH_GATE_DROP i)
          Gives (.troughHeadArrival n) s (e.troughEvent 0x0204 i g.stamp (e.reg (R.TROUGH_GATE_DROP i)).toNat))))) ∧
  (∀ (s : State) (n : BitVec 4) (x : Inject),
    let d := s.dev
    let i := n.toNat
    let q := i + 4
    let irq := (leAt x.desc 12 1).testBit 0
    let st := headerStamp x.buf
    d.injOf q = some x →
    (x.taken = false → x.cut = false → leAt x.desc 8 4 ≤ x.buf.length → d.slotInj i = true →
      (d.slotOn i = false → Gives (.injectedSample n) s (((d.setInj q none).slotDiscard i st 3).qDone q irq)) ∧
      (d.slotOn i = true → injBad x.buf = true ∨ st + 1 < SMap.get (fun _ => 0) d.gate.lastStamp i →
        Gives (.injectedSample n) s ((((d.setInj q none).bump (R.GATE_SLOT_ERR i)).gateEvent 0x0105 i st 0).qDone q irq)) ∧
      (d.slotOn i = true → injBad x.buf = false → SMap.get (fun _ => 0) d.gate.lastStamp i ≤ st + 1 →
        Yields (.injectedSample n) s fun e => ∃ words, e = d.setInj q (some { x with taken := true, words := words, stamp := st }) ∧
          ∀ k (h : k < words.length), (words[k]).sop = (k == 0) ∧ (words[k]).eop = (k + 1 == words.length) ∧ (words[k]).abort = false)) ∧
    (x.words = [] → Idle (.injectionWord n) s) ∧
    (d.troughFree i = 0 ∨ SMap.get (fun _ => 0) d.host.injAt q = d.fclk + 1 → Idle (.injectionWord n) s) ∧
    (∀ w ws, x.words = w :: ws → d.troughFree i ≠ 0 → SMap.get (fun _ => 0) d.host.injAt q ≠ d.fclk + 1 → x.cut = false → d.slotInj i = true → d.qOn q = true → d.qHalted q = false →
      (x.passed ≠ 0 → ws ≠ [] → Gives (.injectionWord n) s (((d.injMark q).troughPut i w).setInj q (some { x with words := ws, passed := x.passed + 1 }))) ∧
      (x.passed ≠ 0 → ws = [] → Gives (.injectionWord n) s (((((d.injMark q).troughPut i w).setInj q none).applyPendMap i).qDone q irq)) ∧
      (x.passed = 0 → ws ≠ [] → Gives (.injectionWord n) s ((((((d.injMark q).takeSeq i).2.noteStamp i x.stamp).troughPut i
        (numberWord w ((d.injMark q).takeSeq i).1))).setInj q (some { x with words := ws, passed := 1 })))))

/-- R234, R235, R236, R254: the intake takes the head word of the trough that its pointer finds first, and the pointer passes it; with the
word that ends a sample the sample goes to the streams that select it; an aborted sample leaves no trace. Without such a word,
HEAD_WORD_TAKE and SAMPLE_INTAKE do nothing. R250, R251, R252, R528: in the provisional window of a schedule the mark it serves is
evaluated at its provisional instant and a provisional copy written; in the commit window it is evaluated at its commit instant, and the
provisional copy is kept (verdict 1) when no stream has changed and refused (verdict 2) when one has. R236, R378: the histories are read
with their code: one without errors stays, an entry with an uncorrectable error goes, one with a correctable error is corrected. How long
a fusion takes within its bound is free (log 63). -/
def Obligations.YokeTakesAndFuses : Prop :=
  (∀ (s : State),
    let d := s.dev
    (d.intakePick = none → Idle .headWordTake s ∧ Idle .sampleIntake s) ∧
    (∀ n w, d.intakePick = some (n, w) →
      let e := d.intakeTake n w
      (w.eop = false → Gives .headWordTake s e ∧ Idle .sampleIntake s) ∧
      (w.eop = true → Idle .headWordTake s) ∧
      (w.eop = true → w.abort = true → Gives .sampleIntake s (e.updYoke fun y => { y with part := SMap.set (fun _ => []) y.part n [] })) ∧
      (w.eop = true → w.abort = false → ∀ ws, SMap.get (fun _ => []) e.yoke.part n = ws → ws ≠ [] →
        let g := e.updYoke fun y => { y with part := SMap.set (fun _ => []) y.part n [] }
        let b := sampleBytes ws
        let stamp := leAt b 0 8 * 256 + leAt b 8 1
        let x : Hist := { stamp := stamp, arrival := g.slotNow n, seq := leAt b 12 4, flags := leAt b 10 2, bytes := leAt b 16 4,
                          aux := leAt b 24 8, ch := [], ring := 0 }
        let streams := (List.range g.streamCount).filter fun i =>
          (g.streamRec i).slot == n && (leAt b 20 4 &&& (g.streamRec i).srcMask) == (g.streamRec i).srcVal
        let t := streams.foldl (fun e i => e.streamTake n b x i) g
        t.lateFor streams stamp (g.slotNow n) = false → Gives .sampleIntake s t))) ∧
  (∀ (st : State) (sch : BitVec 3) (w : CalEntry) (start m : Nat) (e : Dev) (written : Nat),
    let d := st.dev
    let s := sch.toNat
    (d.fuseWindow (0x10 + s) s = none → Idle (.fuseProv sch) st) ∧
    (d.fuseWindow (0x18 + s) s = none → Idle (.fuseCommit sch) st) ∧
    (d.fuseWindow (0x10 + s) s = some (w, start) → d.noProv s = false →
      d.fuseMark s (d.provLag s) start (d.sched s).provDone = some m → (d.histReads s).fuseSpan s w false m = (e, written) →
      let r := e.region (e.getF (F.YOKE_MARK_CFG_region_base s) + m % e.nbuf s)
      let p := e.evaluate s m ((e.markTime s m + e.provLag s) * 256)
      (r.state = 1 → r.mark ≠ m → Gives (.fuseProv sch) st ((e.updSched s fun x => { x with provDone := some m, provs := (m, none) :: x.provs }).provSkip s m)) ∧
      (r.state ≠ 1 ∨ r.mark = m →
        let g := e.updSched s fun x => { x with provDone := some m, provs := (m, some p) :: x.provs }
        Gives (.fuseProv sch) st (g.writeFrame s m false (g.frame s p false 0 0 0 written false)))) ∧
    (d.fuseWindow (0x18 + s) s = some (w, start) →
      d.fuseMark s (d.commitLag s) start (d.sched s).commitDone = some m → (d.histReads s).fuseSpan s w true m = (e, written) →
      let c := e.evaluate s m ((e.markTime s m + e.commitLag s) * 256)
      let arr := e.windowArrivals s m
      (e.noProv s = true → Gives (.fuseCommit sch) st ((e.writeFrame s m true (e.frame s c true 1 arr 0 written false)).noteCommitted s c 1 arr)) ∧
      (∀ p, e.noProv s = false → (e.sched s).provs.find? (fun x => x.1 == m) = some (m, some p) →
        let ch := (p.streams.zip c.streams).filter (fun x => e.streamChanged x.1 x.2) |>.map (·.2.stream)
        (ch = [] → Gives (.fuseCommit sch) st ((e.writeFrame s m true (e.frame s p true 1 arr 0 written false)).noteCommitted s p 1 arr)) ∧
        (ch ≠ [] → Yields (.fuseCommit sch) st fun t => ∃ (f : Dev) (c' : Eval), t = f.noteCommitted s c' 2 arr ∧
          c'.mark = c.mark ∧ c'.conflict = c.conflict)))) ∧
  (∀ (d : Dev) (s i : Nat) (x : Hist),
    ((∀ i, ∀ x ∈ d.history i, x.err.find false = .clean) → d.histReads s = d) ∧
    (x.err.find false = .uncorr → (d.histEntry i x).2 = none) ∧
    (x.err.find false = .corr → (d.histEntry i x).2 = some { x with err := {} }))

/-- R265, R266, R276: the job at the head of the projection queue or of the Sieve runs once when it is of the command's kind and its unit
is not recovering: a projection job whose block breaks R266 ends with its reason and touches no output; with no such job at the head the
command does nothing. R89, R266, R271, R273, R276, R277, R288: the end of a job of the projection unit or the Sieve counts a job that ended
without an error and reports one that failed (a projection job with its camera where one is concerned, else with a free byte, log 6),
writes a sweep's or rules job's result block, and takes the job from its queue, which lets a plough that waits for it go on; with no job
that has run the command does nothing. -/
def Obligations.ImageJobs : Prop :=
  (∀ (s : State) (j : Job) (b : List Byte) (d e : Dev) (words : List Nat) (r : Nat) (cam : Option Nat),
    let run0 := fun (kind : Nat) (i : Instr) (work : Dev → Job → List Byte → List CamJob → Dev × Option (Option Nat)) =>
      (s.dev.headToRun 0 0 = none → Idle i s) ∧
      (s.dev.headToRun 0 0 = some j → (j.kind ≠ kind → Idle i s) ∧ (s.dev.flag F.YOKE_STATUS_recovering = true → Idle i s) ∧
        (j.kind = kind → s.dev.flag F.YOKE_STATUS_recovering = false → s.dev.jobRead j j.addr 576 = (d, some b) →
          (d.projReason j b = some (r, cam) → Gives i s (d.jobRan j r cam.toList)) ∧
          (d.projReason j b = none → work (d.projCams j b).1 j b (d.projCams j b).2 = (e, none) → Gives i s (e.jobRan j 0 [])) ∧
          (d.projReason j b = none → work (d.projCams j b).1 j b (d.projCams j b).2 = (e, some cam) → Gives i s (e.jobRan j 3 cam.toList))) ∧
        (j.kind = kind → s.dev.flag F.YOKE_STATUS_recovering = false → s.dev.jobRead j j.addr 576 = (d, none) → Gives i s (d.jobRan j 3 [])))
    let run1 := fun (kind : Nat) (i : Instr) (work : Dev → Job → Dev × Nat × List Nat) =>
      (s.dev.headToRun 1 0 = none → Idle i s) ∧
      (s.dev.headToRun 1 0 = some j → (j.kind ≠ kind → Idle i s) ∧ (s.dev.flag F.SIEVE_STATUS_recovering = true → Idle i s) ∧
        (j.kind = kind → s.dev.flag F.SIEVE_STATUS_recovering = false → work s.dev j = (e, r, words) → Gives i s (e.jobRan j r words)))
    run0 0x40 .project Dev.projectWork ∧ run0 0x41 .projClear Dev.projClearWork ∧ run1 1 .sweep Dev.sweepJob ∧
      run1 2 .rules Dev.rulesJob ∧ run1 3 .gather Dev.gatherJob ∧ run1 4 .scatterAdd Dev.scatterJob) ∧
  (∀ (s : State) (j : Job) (b : List Byte) (d e : Dev),
    let named := fun (d : Dev) (r : Nat) =>
      (d.setF F.SIEVE_LAST_JOB_address j.addr).setReg R.SIEVE_LAST_END (BitVec.ofNat 64 (j.kind % 256 + r * 256))
    (s.dev.headRan 0 0 = none → Idle .projJobEnd s) ∧
    (s.dev.headRan 0 0 = some j →
      (j.result = 0 → Gives .projJobEnd s ((s.dev.bumpFor j.tag R.YOKE_PROJ_JOBS).endJob j)) ∧
      (∀ c cs, j.result ≠ 0 → s.dev.genOk j.ctx j.gen = true → j.notes = c :: cs →
        Gives .projJobEnd s ((s.dev.projEvent j.tag 0x0442 c j.ctx j.gen j.addr j.result 0).endJob j)) ∧
      (j.result ≠ 0 → s.dev.genOk j.ctx j.gen = true → j.notes = [] →
        Gives .projJobEnd s ((({ s.dev with free := s.dev.free + 1 } : Dev).projEvent j.tag 0x0442 (Config.freeNat s.dev.free % 256)
          j.ctx j.gen j.addr j.result 0).endJob j))) ∧
    (s.dev.headRan 1 0 = none → Idle .sieveJobEnd s) ∧
    (s.dev.headRan 1 0 = some j →
      (j.result = 0 → 2 < j.kind → Gives .sieveJobEnd s ((named (s.dev.bumpFor j.tag R.SIEVE_JOBS) 0).endJob j)) ∧
      (j.result = 0 → j.kind ≤ 2 → 1 < j.notes.length → s.dev.jobRead j j.addr 64 = (d, some b) →
        d.jobWrite j (sieveResultAddr j.kind b) (j.notes.flatMap (leBytes 4)) = (e, true) → (j.notes.getD 2 0).testBit 0 = false →
        Gives .sieveJobEnd s ((named (e.bumpFor j.tag R.SIEVE_JOBS) 0).endJob j)) ∧
      (j.result ≠ 0 → s.dev.genOk j.ctx j.gen = true →
        Gives .sieveJobEnd s ((named (s.dev.sieveNote j 0x0501 j.result) j.result).endJob j))))

/-- R300, R301, R303, R309, R310, R313: the job at the head of a queue of the Mill runs when it is of the command's kind, the Mill is not
recovering and it has its turn: a batch job while no lane job runs or was accepted before it could start, a lane job while no batch job runs
or could start before it was accepted; its block's faults end it before an instance is written. At the clock of its end its status words
are written: the instances written, and the end code. -/
def Obligations.MillJobs : Prop :=
  ∀ (s : State) (q : BitVec 3) (j : Job) (b : List Byte) (d e : Dev) (sat c : Nat),
    let n := q.toNat
    let rows : List (Nat × Instr) := [(1, .kin q), (2, .invdyn q), (3, .fwddyn q), (4, .wbik q), (5, .lsq q)]
    let turn := if n = 4 then ∀ l < 4, ∀ x ∈ s.dev.laneJobs 2 l, x.ran = false ∧ s.dev.batchFrom j < x.acceptAt
      else ∀ y, (s.dev.laneJobs 2 4).head? = some y → y.ran = false ∧ j.acceptAt ≤ s.dev.batchFrom y
    (∀ r ∈ rows,
      (s.dev.headToRun 2 n = none → Idle r.2 s) ∧
      (s.dev.headToRun 2 n = some j →
        (j.kind ≠ r.1 → Idle r.2 s) ∧ (s.dev.flag F.MILL_STATUS_recovering = true → Idle r.2 s) ∧ (¬ turn → Idle r.2 s) ∧
        (j.kind = r.1 → s.dev.flag F.MILL_STATUS_recovering = false → turn → s.dev.jobRead j j.addr 128 = (d, none) →
          Gives r.2 s (d.jobRan j 3 [0, d.cclk])) ∧
        (j.kind = r.1 → s.dev.flag F.MILL_STATUS_recovering = false → turn → s.dev.jobRead j j.addr 128 = (d, some b) →
          let free := (queueLanes n).foldl (fun m l => max m (SMap.get (fun _ => 0) d.mill.laneFree l)) j.acceptAt
          (d.millReason j b ≠ 0 → Gives r.2 s (d.jobRan j (d.millReason j b) [0, free])) ∧
          (d.millReason j b = 0 → r.1 ≠ 5 → Gives r.2 s (d.millWork j b n r.1 0 free)) ∧
          (d.millReason j b = 0 → r.1 = 5 → j.tag.isSome = true → pbReset b = true ∨ leAt b 56 4 ≠ 0 → Gives r.2 s (d.jobRan j 3 [0, free])) ∧
          (d.millReason j b = 0 → r.1 = 5 → j.tag = none ∨ (pbReset b = false ∧ leAt b 56 4 = 0) →
            (d.lsqFeed j b = (e, 0, sat) → Gives r.2 s (e.millWork j b n 5 sat free)) ∧
            (c ≠ 0 → d.lsqFeed j b = (e, c, sat) → Gives r.2 s (e.jobRan j c [0, free])))))) ∧
    (s.dev.headRan 2 n = none → Idle (.millJobEnd q) s) ∧
    (s.dev.headRan 2 n = some j →
      (s.dev.cclk < j.notes.getD 1 0 → Idle (.millJobEnd q) s) ∧
      (j.notes.getD 1 0 ≤ s.dev.cclk → j.notes.getD 2 0 = 0 → j.result = 0 →
        s.dev.jobWrite j (j.addr + 120) (leBytes 4 (j.notes.getD 0 0) ++ leBytes 4 1) = (e, true) →
        Gives (.millJobEnd q) s ((((e.bumpFor j.tag R.MILL_JOBS).setF F.MILL_LAST_JOB_address j.addr).setReg R.MILL_LAST_END
          (BitVec.ofNat 64 (j.kind % 256))).endJob j)))

/-- R332, R333, R334, R335, R336, R338, R339, R341, R347, R349, R350: the job at the head of a lane of the Granary runs when it is of the
command's kind, the Granary is not recovering, no earlier job of its sequence is left and no higher lane has changed frames in the same F
clock; a job refused with a code from 4 to 9 changes
nothing. Its end writes the status word and takes it from the lane. GRAN_INIT_DONE ends an initialisation. -/
def Obligations.GranaryJobs : Prop :=
  ∀ (s : State) (lane : BitVec 2) (j : Job) (e : Dev) (c : Nat),
    let d := s.dev
    let n := lane.toNat
    let seq := j.notes.getD 1 0
    let rows : List (Nat × Instr × (Job → List Byte → GM Nat)) :=
      [(1, .granOpen lane, gOpen), (2, .granClose lane, gClose), (3, .granFork lane, gFork), (4, .granTrim lane, gTrim),
       (5, .granAppend lane, gAppend), (6, .granFlush lane, gFlushJob), (8, .attend lane, gAttend), (9, .merge lane, gMerge),
       (0xA, .expand lane, gExpand), (0xB, .bwd lane, gBwd)]
    (∀ r ∈ rows,
      (d.headToRun 3 n = none → Idle r.2.1 s) ∧
      (d.headToRun 3 n = some j →
        (j.kind ≠ r.1 → Idle r.2.1 s) ∧ (d.flag F.GRAN_STATUS_recovering = true → Idle r.2.1 s) ∧ (d.granWaits j = true → Idle r.2.1 s) ∧
        (∀ l, 2 ≤ r.1 → r.1 ≤ 6 → d.gran.lastFrames = some (d.fclk, l) → n < l → Idle r.2.1 s) ∧
        (j.kind = r.1 → d.flag F.GRAN_STATUS_recovering = false → d.granWaits j = false → d.granLate n r.1 = false →
          d.flag F.GRAN_STATUS_table_bad = false →
          let d : Dev := if 2 ≤ r.1 ∧ r.1 ≤ 6 then { d with gran := { d.gran with lastFrames := some (d.fclk, n) } } else d
          let prog : GM Nat := gJobRead j j.addr 128 >>= fun b => gCheck (gBlockBad r.1 j.addr b) gBadBlock >>= fun _ => r.2.2 j b
          (prog.run.run d = (.ok c, e) → Gives r.2.1 s (e.jobRan j 0 [c, seq])) ∧
          (prog.run.run d = (.error c, e) → gRefused c = true → Gives r.2.1 s (d.jobRan j c [0, seq])) ∧
          (prog.run.run d = (.error c, e) → gRefused c = false → Gives r.2.1 s (e.jobRan j c [0, seq]))))) ∧
    (d.headRan 3 n = none → Idle (.granJobEnd lane) s) ∧
    (d.headRan 3 n = some j → j.result = 0 →
      Gives (.granJobEnd lane) s (((((d.jobWrite j (j.addr + 4) (leBytes 4 (0x100 + j.notes.getD 0 0 % 4096 * 65536))).1.bumpFor j.tag
        R.GRAN_JOBS).setF F.GRAN_LAST_JOB_address j.addr).setReg R.GRAN_LAST_END (BitVec.ofNat 64 (j.kind % 256))).endJob j)) ∧
    (d.flag F.GRAN_STATUS_init_busy = true →
      Gives .granInitDone s ((d.setB F.GRAN_STATUS_init_busy false).setB F.GRAN_STATUS_ready true)) ∧
    (d.flag F.GRAN_STATUS_init_busy = false → Idle .granInitDone s)

/-- R45, R387, R391: a channel serves one word in an M clock, the oldest request of the requester whose turn it is: the owner of the open window, or in open mode
the one that the rotating pointer finds, which then passes it; the last request of a walk ends the walk (R159). At the end of a window the requests of its owner that are still waiting are
reported. With no requester to serve, or no window that has ended, nothing happens. R387, R390: the planned refresh of an open refresh
window starts once and runs to the window's end; a timer refresh of 560 M clocks starts when 3,120 M clocks have passed since the refresh
before it, in open mode or after the last planned one. -/
def Obligations.StackChannelsServe : Prop :=
  (∀ (s : State) (ch : BitVec 5),
    let d := s.dev
    let c := ch.toNat
    (d.chanRequester c = none → Idle (.stackRequestServe ch) s) ∧
    (d.refreshing c = true ∨ d.movedNow c d.mclk = true → d.chanRequester c = none) ∧
    (∀ w, d.openMode = false → d.chanWindow c = some w → ∀ r, d.chanRequester c = some r → r = w.req ∧ r ≠ 0xFF) ∧
    (∀ r x, d.chanRequester c = some r → (d.memc.reqs.find? fun x => chanOf x.word == c && x.req == r) = some x →
      let e : Dev := ({ d with memc := { d.memc with reqs := d.memc.reqs.erase x } } : Dev).moveWord c d.mclk
      let e : Dev := if d.openMode then { e with memc := { e.memc with arb := SMap.set (fun _ => 0) e.memc.arb c ((r + 1) % 0x60) } } else e
      let e := if x.missed then e.windowMiss c x else e
      let done := fun (u : Dev) (t : Dev) =>
        (u.memc.reqs.any (fun y => y.req == r) = true ∨ (∀ w ∈ u.hedge.walks, 0x58 + w.walker ≠ r) → t = u) ∧
        (∀ w, u.memc.reqs.any (fun y => y.req == r) = false → (u.hedge.walks.find? fun w => 0x58 + w.walker == r) = some w → t = u.walkEnd w)
      (x.write = true ∨ touches r = true ∨ e.badWords (32 * x.word) 32 = [] → Yields (.stackRequestServe ch) s (done e)) ∧
      (x.write = false → touches r = false → e.badWords (32 * x.word) 32 ≠ [] →
        let u := (e.scanRead [x.word] ⟨r, r, x.ctx, x.gen⟩ 0 true).1
        (r < 0x40 ∨ r = 0x5C → Gives (.stackRequestServe ch) s { u with memc := { u.memc with served := u.memc.served ++ [(r, x.word)] } }) ∧
        (¬ (r < 0x40 ∨ r = 0x5C) → Yields (.stackRequestServe ch) s (done u)))) ∧
    (d.openMode = true → Idle (.stackWindowEnd ch) s) ∧
    (((d.chanWindows c).filter fun w => decide (w.start + w.len ≤ d.mcount)) = [] → Idle (.stackWindowEnd ch) s) ∧
    (∀ w, d.openMode = false → ((d.chanWindows c).filter fun w => decide (w.start + w.len ≤ d.mcount)).getLast? = some w →
      let e := d.plan.mBase + w.start + w.len
      (e ≤ SMap.get (fun _ => 0) d.memc.winEnds c → Idle (.stackWindowEnd ch) s) ∧
      (SMap.get (fun _ => 0) d.memc.winEnds c < e → (∀ x ∈ d.memc.reqs, chanOf x.word = c → x.req = w.req → e ≤ x.mclk) →
        Gives (.stackWindowEnd ch) s { d with memc := { d.memc with winEnds := SMap.set (fun _ => 0) d.memc.winEnds c e } }))) ∧
  (∀ (s : State) (ch : BitVec 5),
    let d := s.dev
    let c := ch.toNat
    let last := SMap.get (fun _ => 0) d.memc.refreshAt c
    let started := fun (a b : Nat) => ({ d with memc := { d.memc with
      refreshAt := SMap.set (fun _ => 0) d.memc.refreshAt c a, refreshing := SMap.set (fun _ => 0) d.memc.refreshing c b } } : Dev)
    (d.openMode = true → Idle (.refreshWindow ch) s) ∧
    (d.chanWindow c = none → Idle (.refreshWindow ch) s) ∧
    (∀ w, d.openMode = false → d.chanWindow c = some w →
      let st := d.plan.mBase + w.start
      (w.req ≠ 0xFF ∨ last = st + 1 → Idle (.refreshWindow ch) s) ∧
      (w.req = 0xFF → last ≠ st + 1 → (w.start = 0 → d.refreshing c = false) → Gives (.refreshWindow ch) s (started (st + 1) (st + w.len)))) ∧
    (d.openMode = true ∨ (∀ w ∈ d.chanWindows c, w.req = 0xFF → w.start < d.mcount) →
      (last + 3120 ≤ d.mclk + 1 → Gives (.timerRefresh ch) s (started (d.mclk + 1) (d.mclk + 560))) ∧
      (d.mclk + 1 < last + 3120 → Idle (.timerRefresh ch) s)))

/-- R380, R384, R392, R393, R394, R397, R504: a bank's maintenance clock writes a queued word back first, else fills a word, else scrubs
one; an on-chip bank writes back, and while windows are planned fills, only in its maintenance cycles, at most one in 16 of its clocks, and moves at
most one word in a clock; a stack channel has such a clock only in a maintenance window or, in open mode, when it is idle. Stack temperatures are shown, and
below 95 °C raise nothing. -/
def Obligations.MaintenanceWorks : Prop :=
  ∀ (s : State) (bank : MaintBank) (t0 t1 : BitVec 8),
    let d := s.dev
    let wb := d.memc.wb.find? fun x => bankOf x.word == bankNum bank
    (∀ ch, bank = .stack ch → d.openMode = false → (∀ w, d.chanWindow ch.toNat = some w → w.req ≠ 0x60) → Idle (.maintenanceCycle bank) s) ∧
    (d.movedNow (bankNum bank) (d.bankClk bank) = true → Idle (.maintenanceCycle bank) s) ∧
    (d.maintOk bank = true →
      (∀ x, d.maintCycle bank = true → wb = some x → Gives (.maintenanceCycle bank) s ((d.useBank bank true).writeBack x)) ∧
      ((d.maintCycle bank = true → wb = none) →
        (∀ w js, d.maintCycle bank = true ∨ d.openMode = true → fillStep (bankNum bank) d.memc.fills = some (w, js) →
          let e := d.useBank bank (d.maintCycle bank)
          Gives (.maintenanceCycle bank) s (({ e with memc := { e.memc with fills := js } } : Dev).fillKey (32 * w) 32)) ∧
        ((d.maintCycle bank = true ∨ d.openMode = true → fillStep (bankNum bank) d.memc.fills = none) → (∀ ch, bank ≠ .stack ch) →
          let e := d.useBank bank false
          let k := SMap.get (fun _ => 0) d.memc.sramScrub (bankNum bank)
          k + 1 < bankWords bank → d.badWords (32 * bankWord bank k) 32 = [] →
          let next := SMap.set (fun _ => 0) d.memc.sramScrub (bankNum bank) (k + 1)
          Gives (.maintenanceCycle bank) s { e with memc := { e.memc with sramScrub := next } }))) ∧
    (t0.toNat < 95 → t1.toNat < 95 → Gives (.stackTempRead t0 t1) s
      (let e := (d.setF F.MEM_STACK_TEMP_stack0 t0.toNat).setF F.MEM_STACK_TEMP_stack1 t1.toNat
       { e with memc := { e.memc with hot := putBit (putBit e.memc.hot 0 false) 1 false } }))

/-- R401, R402, R403: a training that is due takes the port down, counts the attempt and trains; lanes that do not lock count another; a
wrong peer holds the port; the right one brings it up. A lane that loses lock on an up port is reported, and the port is held down. R401:
on an up port corrected bytes are counted, a flit that cannot be used is asked for again with the sequence number expected, counted and
reported, and the flits held from the sequence number asked for leave again in order. The layout of a control flit is the model's choice
(log 70). -/
def Obligations.LinkPortsWork : Prop :=
  (∀ (s : State) (port : BitVec 2) (peer : LinkPeer) (lanes : BitVec 8),
    let d := s.dev
    let p := port.toNat
    let due := (d.lport p).want = true ∧ d.flag (F.LINK_PORT_CTL_enable p) = true
    (due → Gives (.portTraining port) s ((((d.portDown p 1).setF (F.LINK_PORT_STATE_lane_ok p) 0).bump (R.LINK_PORT_RETRAIN p)).updLport p
      fun l => { l with want := false })) ∧
    (¬ due → Idle (.portTraining port) s) ∧
    (d.lstate p ≠ 1 → Idle (.trainingDone port peer) s) ∧
    (d.lstate p = 1 → peer.locked = false → Gives (.trainingDone port peer) s (d.bump (R.LINK_PORT_RETRAIN p))) ∧
    (d.lstate p = 1 → peer.locked = true →
      let e := ((d.setF (F.LINK_PORT_STATE_lane_ok p) 0xFF).setF (F.LINK_PORT_STATE_peer_device p) peer.device.toNat).setF
        (F.LINK_PORT_STATE_peer_port p) peer.port.toNat
      (e.peerRight p peer = false → Gives (.trainingDone port peer) s ((e.setLstate p 3).linkEvent 0x0A03 p 0 0 0 peer.device.toNat 0)) ∧
      (e.peerRight p peer = true → Gives (.trainingDone port peer) s ((((e.setReg (R.LINK_PORT_PEER_PLAN p) peer.plan).setLstate p 2).updLport p
        fun l => { want := l.want, carried := l.carried }).linkEvent 0x0A01 p 0 0 0 1 0))) ∧
    (d.lstate p ≠ 2 ∨ lanes = 0 → Idle (.laneFault port lanes) s) ∧
    (d.lstate p = 2 → ∀ k < 8, (∀ j < k, lanes.getLsbD j = false) → lanes.getLsbD k = true →
      let down := ((d.linkEvent 0x0A02 p 0 0 0 k 0).portDown p 3).setF (F.LINK_PORT_STATE_lane_ok p) (255 - lanes.toNat)
      Gives (.laneFault port lanes) s (down.updLport p fun l => { l with want := down.flag (F.LINK_PORT_CTL_auto_retrain p) }))) ∧
  (∀ (s : State) (port : BitVec 2) (seq : BitVec 16) (err : FlitErr),
    let d := s.dev
    let p := port.toNat
    (d.lstate p ≠ 2 → Idle (.flitError port err) s ∧ Idle (.replay port seq) s) ∧
    (d.lstate p = 2 →
      Gives (.flitError port .fecCorrected) s (d.bump (R.LINK_PORT_FEC_CORR p)) ∧
      (err ≠ .fecCorrected →
        let e := ((d.emit (.link p 0 (leBytes 2 (d.lport p).rxSeq))).bump (R.LINK_PORT_REPLAY p)).linkEvent 0x0A04 p 0 0 0 0 0
        let rs := e.clk :: (e.lport p).replays.filter fun t => decide (e.clk < t + 24000000)
        let g := e.updLport p fun l => { l with replays := rs }
        rs.length ≤ max 1 (g.getF (F.LINK_PORT_CTL_fault_thr p)) → Gives (.flitError port err) s g) ∧
      (∀ pre f post, (d.lport p).buf = pre ++ f :: post → (∀ x ∈ pre, x.1 ≠ seq.toNat % 4096) → f.1 = seq.toNat % 4096 →
        Yields (.replay port seq) s fun e => e.out =
          ((f :: post).map fun f => Output.link p (field (leAt f.2 0 1) 0 3) f.2).reverse ++ d.out)))

/-- R407, R408, R409, R410, R411, R412: a message that fails a check is discarded with its reason; a good one goes to the oldest posted
receive of its context, or waits while 128 blocks suffice. A receive whose message has landed, its stack requests served (R45), completes,
or ends with an error that halts its context's entries; a send completes with its acknowledgement, or ends with the reason of a NACK; one
of a generation that has gone is discarded and counted (R37). A note is held. The layout of a
control flit is the model's choice (log 70). -/
def Obligations.LinkMessages : Prop :=
  ∀ (s : State) (port : BitVec 2) (msg : DataMsg) (nack : NackMsg) (note : NoteMsg) (id : Nat) (x : LinkXfer) (m : DataMsg) (e : Dev) (r : Nat),
    let d := s.dev
    let p := port.toNat
    (d.lstate p ≠ 2 → Idle (.dataMessage port msg) s ∧ Idle (.nackMsg port nack) s ∧ Idle (.noteMsg port note) s) ∧
    (d.lstate p = 2 →
      let keep := fun (l : List PTag) => match msgTag msg with
        | some g => if l.contains g then l else l ++ [g]
        | none => l
      let g := (d.setReg (R.LINK_PORT_PEER_PLAN p) msg.plan).updLport p fun l =>
        { l with rxSeq := (msg.seq.toNat + flitCount msg.bytes.length) % 4096, carried := keep l.carried }
      let ctx := msg.ctx.toNat
      let gen := g.genOk ctx msg.gen.toNat = true
      let plan := g.locked = true ∧ msg.plan.toNat = g.header 0x18 8
      let used := (g.lport p).waiting.foldl (fun n m => n + wireBlocks m.bytes.length) 0
      let room := used + wireBlocks msg.bytes.length ≤ 128
      (¬ gen → Gives (.dataMessage port msg) s (g.msgDiscard p msg 1)) ∧
      (gen → g.fenced ctx = true → Gives (.dataMessage port msg) s (g.msgDiscard p msg 2)) ∧
      (gen → g.fenced ctx = false → ¬ plan → Gives (.dataMessage port msg) s (g.msgDiscard p msg 4)) ∧
      (gen → g.fenced ctx = false → plan →
        (∀ y, g.postedRecv p ctx msg.gen.toNat = some y → Gives (.dataMessage port msg) s (g.takeMsg y msg)) ∧
        (g.postedRecv p ctx msg.gen.toNat = none →
          (room → Gives (.dataMessage port msg) s (g.updLport p fun l => { l with waiting := l.waiting ++ [msg] })) ∧
          (¬ room → Gives (.dataMessage port msg) s (g.msgDiscard p msg 5)))) ∧
      (let u := d.updLport p fun l => { l with rxSeq := (l.rxSeq + 1) % 4096 }
       (∀ y, (u.links.xfers.find? fun x => x.port == p && x.send && x.ctx == nack.ctx.toNat && x.sent == some nack.seq.toNat) = some y →
          Gives (.nackMsg port nack) s (if u.genOk y.ctx y.gen then u.xferError y nack.reason.toNat else (u.dropXfer y.id).bump R.HEDGE_GEN_DISCARD)) ∧
       (let t : PTag := ⟨note.sched.toNat, note.mark.toNat⟩
        let held : Dev := { u with links := { u.links with notes := u.links.notes ++ [(p, t)] } }
        (held.markSealed t ≠ some true → Gives (.noteMsg port note) s held) ∧
        (held.markSealed t = some true → Gives (.noteMsg port note) s (held.linkEvent 0x0A06 p 0 0 0 0 t.mark))))) ∧
    ((d.links.xfers.find? fun x => x.id == id && x.port == p && !x.send) = some x → x.msg = some m → d.xferHalted x = false →
      (d.genOk x.ctx x.gen = false → Gives (.receiveLanded port id) s ((d.dropXfer x.id).bump R.HEDGE_GEN_DISCARD)) ∧
      (d.genOk x.ctx x.gen = true → d.stackBusy 0x5C x.ctx = true → Idle (.receiveLanded port id) s) ∧
      (d.genOk x.ctx x.gen = true → d.stackBusy 0x5C x.ctx = false → d.landMsg x m = (e, r) →
        (r = 0 → Gives (.receiveLanded port id) s (((e.dropXfer x.id).noteLanded x m).emit (.link x.port 0 (leBytes 2 m.seq.toNat)))) ∧
        (r ≠ 0 → Gives (.receiveLanded port id) s ((e.msgDiscard x.port m r).xferError x r)))) ∧
    ((d.links.xfers.find? fun x => x.id == id && x.port == p && x.send && x.sent.isSome) = some x → d.xferHalted x = false →
      (d.genOk x.ctx x.gen = true → Gives (.sendDone port id) s (d.dropXfer x.id)) ∧
      (d.genOk x.ctx x.gen = false → Gives (.sendDone port id) s ((d.dropXfer x.id).bump R.HEDGE_GEN_DISCARD))) ∧
    ((∀ y ∈ d.links.xfers, y.id ≠ id) → Idle (.receiveLanded port id) s ∧ Idle (.sendDone port id) s)

/-- R205, R211, R214, R225, R226, R227: a waiting rate takes effect once 1,024 T clocks have passed since the last change; without an
update for holdover_to intervals the servo goes to HOLDOVER at the rate it has learnt. An A edge counts one Almanac tick, a set held for
100 ns (R31) or a rewrite replaces the count, and the first A edge after a device reset seeds device time; an Almanac without a supply has
stopped. R220, R229: the output rises after the first T edge of a second and falls when its width has passed; after 2 s without an accepted pulse the input is no longer
seen. R413: with source LINK an up source port sends a request stamped t1; any up port answers with its arrival and its departure; the
response gives the offset, the difference of the two sums halved, which is shown and is a servo update. -/
def Obligations.TimeKeeps : Prop :=
  (∀ (s : State) (r : Int),
    let d := s.dev
    let b := d.bell
    let a := s.kept.alm
    (b.waitRate = none ∨ b.sinceChange < 1024 → Idle .rateApply s) ∧
    (b.waitRate = some r → 1024 ≤ b.sinceChange →
      Gives .rateApply s ((d.updBell fun b => { b with rate := r, waitRate := none, sinceChange := 0 }).setF F.BELL_RATE_rate (ofSigned 32 r))) ∧
    (let due := b.lastUpdate + max 1 (d.getF F.BELL_SERVO_LIMITS_holdover_to) * d.updateInterval
     (d.servo = 1 ∨ d.servo = 2 → due ≤ d.clk → Gives .holdoverTimeout s ((d.enterServo 3).requestRate b.acc)) ∧
     ((d.servo ≠ 1 ∧ d.servo ≠ 2) ∨ d.clk < due → Idle .holdoverTimeout s)) ∧
    (a.stopped = true → Idle .almanacTick s) ∧
    (a.stopped = false → b.seedPend = false →
      let total := a.sec * 32768 + a.ticks + 1
      let counted : Almanac := { a with sec := total / 32768 % 2 ^ 48, ticks := total % 32768 }
      let left := match b.almHeld with
        | some (v, at') => if at' + 2400 ≤ d.clk then none else some (v, at')
        | none => none
      let rest : Dev := d.updBell fun b => { b with almHeld := left, almSec := d.devNs / 1000000000, seedPend := false }
      let rewrite := d.servo = 2 ∧ d.flag F.BELL_CTL_alm_rewrite = true ∧ d.devNs / 1000000000 ≠ b.almSec
      let goes := fun (x : Almanac) => exec .almanacTick s = .next { s with dev := rest, kept := { s.kept with alm := x } }
      (¬ rewrite → b.almHeld = none → goes counted) ∧
      (∀ v at', ¬ rewrite → b.almHeld = some (v, at') →
        (at' + 2400 ≤ d.clk → goes { counted with sec := v, ticks := 0, valid := true }) ∧ (d.clk < at' + 2400 → goes counted)) ∧
      (rewrite → goes { counted with sec := d.devNs / 1000000000 % 2 ^ 48, ticks := 0, valid := true })) ∧
    (a.stopped = false → b.seedPend = true → d.pwr.good = true → d.servo ≠ 2 → b.almHeld = none → a.valid = true →
      ∃ t, exec .almanacTick s = .next t ∧ t.dev.bell.seedPend = false ∧ t.dev.bell.setPend = some (almSeed t.kept.alm, true)) ∧
    (let goes := fun (x : AlmSupply) (y : Almanac) => exec (.almanacSupplyChange x) s = .next { s with kept := { s.kept with alm := y } }
     goes .standby { a with supply := 0, stopped := false } ∧ goes .cap { a with supply := 1, capLow := false, stopped := false } ∧
     goes .capLow { a with capLow := true } ∧ goes .capOk { a with capLow := false } ∧ goes .coin { a with supply := 2, capLow := true, stopped := false } ∧
     goes .none { a with stopped := true, valid := false, lost := true, capLow := true })) ∧
  (∀ (s : State),
    let d := s.dev
    let w := d.getF F.BELL_PPS_CTL_out_width
    let width := if 1 ≤ w ∧ w ≤ 999999 then w else 100000
    let second := fun (t : Nat) => t / 256000000000
    (∀ now before, d.bell.hist = now :: before → d.flag F.BELL_PPS_CTL_out_en = true → d.bell.ppsHigh = false →
      second (before.headD 0) < second now → d.bell.ppsEdge ≠ d.bell.tEdges → Gives .ppsOutRise s ((d.updBell fun b =>
        { b with ppsHigh := true, ppsEdge := b.tEdges, ppsFall := d.dev256 + width * 256000 }).emit (.pin "PPS_OUT" 0 true))) ∧
    (d.flag F.BELL_PPS_CTL_out_en = false ∨ d.bell.ppsHigh = true ∨ d.bell.hist = [] ∨ d.bell.ppsEdge = d.bell.tEdges → Idle .ppsOutRise s) ∧
    (∀ now before, d.bell.hist = now :: before → second now ≤ second (before.headD 0) → Idle .ppsOutRise s) ∧
    (d.bell.ppsHigh = true → d.bell.ppsFall ≤ d.dev256 →
      Gives .ppsOutFall s ((d.updBell fun b => { b with ppsHigh := false }).emit (.pin "PPS_OUT" 0 false))) ∧
    (d.bell.ppsHigh = false ∨ d.dev256 < d.bell.ppsFall → Idle .ppsOutFall s) ∧
    (d.flag F.BELL_STATUS_pps_in_seen = true → d.bell.ppsSeenT + 48000000000 ≤ d.clk →
      Gives .ppsInSeenExpiry s (d.setF F.BELL_STATUS_pps_in_seen 0)) ∧
    (d.clk < d.bell.ppsSeenT + 48000000000 → Idle .ppsInSeenExpiry s)) ∧
  (∀ (s : State) (port : BitVec 2) (t1 t2 t3 : BitVec 64),
    let d := s.dev
    let p := port.toNat
    let src := d.getF F.BELL_CTL_link_port
    let now := BitVec.ofNat 64 d.dev256
    (d.getF F.BELL_CTL_source = 3 → d.flag F.LINK_TIME_CTL_enable = true → d.linkUp src = true →
      Gives .timeRequest s ((d.updBell fun b => { b with timeReq := true }).emit (.link src 3 (leBytes 8 d.dev256)))) ∧
    (d.getF F.BELL_CTL_source ≠ 3 ∨ d.flag F.LINK_TIME_CTL_enable = false ∨ d.linkUp src = false → Idle .timeRequest s) ∧
    (d.linkUp p = true → Gives (.timeAnswer port t1) s (d.emit (.timeAnswer p t1 now now))) ∧
    (d.linkUp p = false → Idle (.timeAnswer port t1) s ∧ Idle (.timeResponse port t1 t2 t3) s) ∧
    (d.getF F.BELL_CTL_source = 3 → src = p → d.linkUp p = true → d.bell.timeReq = true →
      let theta : Int := ((t1 + now).toInt - (t2 + t3).toInt) / 2
      Gives (.timeResponse port t1 t2 t3) s (((d.updBell fun b => { b with timeReq := false }).setF (F.LINK_PORT_TIME_OFFSET_theta p)
        (ofSigned 64 theta)).servoUpdate theta)))

/-- R219: on a port with a role, a malformed message, one of an unsupported type, one for another domain, a request over the rate of R216
and a value excluded by R217 are discarded, each counted in BELL_PTP_DISCARD and raised as PTP_DISCARD with its reason. -/
def Obligations.PtpDiscards : Prop :=
  ∀ (s : State) (port : BitVec 2) (m : PtpMsg),
    let d := s.dev
    let p := port.toNat
    let discarded := fun (d : Dev) (reason : Nat) => (d.bump R.BELL_PTP_DISCARD).raise 0x0305 p 0 0 (bellDetail 0 d.servo reason)
    let ok := fun (ty : Nat) => m.malformed = false ∧ m.mtype.toNat = ty ∧ m.domain.toNat = d.getF F.BELL_PTP_CTL_domain
    let rows : List (Nat × Instr) :=
      [(0, .ptpSync port m), (8, .ptpFollowUp port m), (1, .ptpDelayReq port m), (9, .ptpDelayResp port m), (2, .ptpPdelayReq port m),
       (3, .ptpPdelayResp port m), (10, .ptpPdelayRespFollowUp port m), (11, .ptpAnnounce port m)]
    (∀ r ∈ rows,
      (d.ptpRole p = 0 → Idle r.2 s) ∧
      (d.ptpRole p ≠ 0 → m.malformed = true → Gives r.2 s (discarded d 2)) ∧
      (d.ptpRole p ≠ 0 → m.malformed = false → m.mtype.toNat ≠ r.1 → Gives r.2 s (discarded d 3)) ∧
      (d.ptpRole p ≠ 0 → m.malformed = false → m.mtype.toNat = r.1 → m.domain.toNat ≠ d.getF F.BELL_PTP_CTL_domain →
        Gives r.2 s (discarded d 1))) ∧
    (d.ptpMayAnswer p = false →
      (d.ptpRole p = 1 → ok 1 → Gives (.ptpDelayReq port m) s (discarded d 4)) ∧
      (d.ptpRole p ≠ 0 → ok 2 → Gives (.ptpPdelayReq port m) s (discarded d 4))) ∧
    (d.ptpRole p = 2 → ok 0 → m.twoStep = false → ptpTime m = none → Gives (.ptpSync port m) s (discarded d 5)) ∧
    (∀ v : Int, v < 0 ∨ 1000000 * 2 ^ 17 < v → d.ptpDelay p v = discarded d 5)

/-- R215, R216, R217, R218: what the messages of a slave port measure, what a master port and a peer answer, and what a port sends at its
intervals. The layout of the Announce body and the variance of FREERUN are the model's (log 50 and log 51). -/
def Obligations.PtpWorks : Prop :=
  ∀ (s : State) (port : BitVec 2) (m : PtpMsg) (t : Nat),
    let d := s.dev
    let p := port.toNat
    let ok := fun (ty : Nat) => m.malformed = false ∧ m.mtype.toNat = ty ∧ m.domain.toNat = d.getF F.BELL_PTP_CTL_domain
    let slave := d.ptpRole p = 2
    let master := d.ptpRole p = 1
    let x := d.ptp p
    let mine := m.requester = d.reg R.BELL_PTP_CLOCK_ID
    let tr := if d.flag F.BELL_PTP_CTL_profile = true ∨ d.getF F.BELL_PTP_CTL_transport = 3 then 0 else d.getF F.BELL_PTP_CTL_transport
    let due := fun (last : Option Nat) (n : Nat) => ∀ t, last = some t → t + n ≤ d.clk
    let syncDue := due x.syncAt (24000000000 / 2 ^ d.logSync)
    let annDue := due x.annAt d.announceInterval
    (slave → ok 0 → m.twoStep = true → Gives (.ptpSync port m) s (d.updPtp p fun x => { x with sync := some (m.seq.toNat, d.ingress p, corrOf m) })) ∧
    (slave → ok 0 → m.twoStep = false → ptpTime m = some t → Gives (.ptpSync port m) s (d.ptpOffset p t (d.ingress p) (corrOf m))) ∧
    (∀ t2 c, slave → ok 8 → x.sync = some (m.seq.toNat, t2, c) → ptpTime m = some t →
      Gives (.ptpFollowUp port m) s (d.ptpOffset p t t2 (c + corrOf m))) ∧
    (let left := m.corr - BitVec.ofNat 64 (d.ingress p % 256 * 256)
     let answer := ptpStamped { d.ptpMsg 9 m.seq.toNat with requester := m.source } (d.ingress p)
     master → ok 1 → d.ptpMayAnswer p = true → Gives (.ptpDelayReq port m) s ((d.ptpAnswered p).emit (.ptp p tr { answer with corr := left }))) ∧
    (∀ t1 t2 t3 c, slave → d.ptpPeer = false → ok 9 → mine → x.req = some (m.seq.toNat, t3) → x.last = some (t1, t2, c) → ptpTime m = some t →
      Gives (.ptpDelayResp port m) s ((d.updPtp p fun x => { x with req := none }).ptpDelay p
        ((((t2 : Int) - t1) + ((t : Int) - t3)) * 256 - c - corrOf m))) ∧
    (d.ptpRole p ≠ 0 → ok 2 → d.ptpMayAnswer p = true → Yields (.ptpPdelayReq port m) s fun e => ∃ a b,
      e = ((d.ptpAnswered p).emit (.ptp p tr a)).emit (.ptp p tr b) ∧ a.mtype = 3 ∧ b.mtype = 10 ∧ a.seq = m.seq ∧ b.seq = m.seq ∧ a.requester = m.source) ∧
    (∀ t1, slave → d.ptpPeer = true → ok 3 → mine → x.req = some (m.seq.toNat, t1) → m.twoStep = false →
      Gives (.ptpPdelayResp port m) s ((d.updPtp p fun x => { x with req := none }).ptpDelay p
        (((d.ingress p : Int) - t1) * 256 - corrOf m))) ∧
    (∀ t1 t2 t4 c, slave → d.ptpPeer = true → ok 10 → mine → x.req = some (m.seq.toNat, t1) → x.presp = some (t2, t4, c) →
      ptpTime m = some t → Gives (.ptpPdelayRespFollowUp port m) s ((d.updPtp p fun x => { x with req := none, presp := none }).ptpDelay p
        ((((t4 : Int) - t1) - ((t : Int) - t2)) * 256 - c - corrOf m))) ∧
    (slave → ok 11 → 20 ≤ m.announce.length → Gives (.ptpAnnounce port m) s
      (((d.updBell fun b => { b with grandmaster := m.announce.take 20 }).setF F.BELL_UTC_OFFSET_offset (beAt m.announce 0 2)).setF
        F.BELL_UTC_OFFSET_valid (leAt m.announce 20 1))) ∧
    (let sent := d.updPtp p fun y => { y with txSeq := (x.txSeq + 1) % 65536, syncAt := some d.clk }
     (master → syncDue → sent.flag F.BELL_PTP_CTL_one_step = true →
       Gives (.ptpSyncInterval port) s (sent.emit (.ptp p tr (ptpStamped (sent.ptpMsg 0 x.txSeq) (d.egress p))))) ∧
     (master → syncDue → sent.flag F.BELL_PTP_CTL_one_step = false → Gives (.ptpSyncInterval port) s
       ((sent.emit (.ptp p tr { sent.ptpMsg 0 x.txSeq with twoStep := true })).emit
         (.ptp p tr (ptpStamped (sent.ptpMsg 8 x.txSeq) (d.egress p)))))) ∧
    (master → annDue → Yields (.ptpAnnounceInterval port) s fun e => ∃ v, ∃ y : PtpMsg, y.mtype = 11 ∧
      y.announce = (d.fresh).2.announceBody v ∧ e.out = .ptp p tr y :: d.out) ∧
    (slave → d.ptpPeer = false → Gives (.ptpDelayReqInterval port) s ((d.updPtp p fun y =>
      { y with reqSeq := (x.reqSeq + 1) % 65536, req := some (x.reqSeq, d.egress p), presp := none }).emit (.ptp p tr (d.ptpMsg 1 x.reqSeq)))) ∧
    (¬ master ∨ ¬ syncDue → Idle (.ptpSyncInterval port) s) ∧ (¬ master ∨ ¬ annDue → Idle (.ptpAnnounceInterval port) s) ∧
    (¬ slave → d.ptpRole p ≠ 0 → (ok 3 → Idle (.ptpPdelayResp port m) s) ∧ (ok 10 → Idle (.ptpPdelayRespFollowUp port m) s)) ∧
    (¬ master → Idle (.ptpSyncInterval port) s ∧ Idle (.ptpAnnounceInterval port) s) ∧
    (d.ptpRole p = 0 → Idle (.ptpDelayReqInterval port) s)

/-- R221: the input is captured like a strobe input, with capture number 36. The offset of a pulse is its stamp less the nearest whole
second, from −500 ms to below 500 ms; a pulse less than 500 ms after the last accepted one is ignored; an accepted one is stored in
BELL_PPS_IN_STAMP and raises PPS_IN, and with source PPS it is a servo update. -/
def Obligations.PpsInput : Prop :=
  ∀ (s : State) (e : Dev) (c : Capture),
    let d := s.dev
    let st := c.time - 256
    d.flag F.BELL_PPS_CTL_in_en = true → d.takeStamp 36 (1 + d.getF F.BELL_PPS_CTL_filter) (!d.flag F.BELL_PPS_CTL_in_pol) = (e, c) →
    (let rise := !d.flag F.BELL_PPS_CTL_in_pol
     let edge : Capture := ⟨d.edgeTime (1 + d.getF F.BELL_PPS_CTL_filter), rise, d.holdoverFlag⟩
     (d.captured 36).length < 2 → Gives (.strobeEdge 36 rise) s (d.updBell fun b =>
       { b with captures := SMap.modify (fun _ => []) b.captures 36 (· ++ [edge]) })) ∧
    (∀ t, e.bell.ppsLast = some t → t ≤ st → st < t + 128000000000 → Gives .ppsIn s e) ∧
    ((∀ t, e.bell.ppsLast = some t → st < t ∨ t + 128000000000 ≤ st) →
      ∀ (theta : Int) (sec : Nat), (st : Int) - sec * 256000000000 = theta → -128000000000 ≤ theta → theta < 128000000000 →
      let shown := ((((e.setF F.BELL_PPS_IN_STAMP_ns (st / 256)).updBell fun b =>
        { b with ppsLast := some st, ppsSeenT := e.clk }).setF F.BELL_STATUS_pps_in_seen 1).raise 0x0307 0 0 0 (bellDetail theta 36 0))
      (shown.getF F.BELL_CTL_source ≠ 2 → Gives .ppsIn s shown) ∧
      (shown.getF F.BELL_CTL_source = 2 → Gives .ppsIn s (shown.servoUpdate theta)))

/-- R417, R418, R428, R441, R491, R498: the link comes up while PERST_N is high and the domain has power, and is reported; when it goes
down the queues halt; PERST_N, a hot reset and an FLR reset the function, and an FLR also the HOST registers but for the USB port's state;
the service port comes up and down. That a hot reset and PERST_N clear the MSI-X table is PCI Express's (log 40). -/
def Obligations.HostLinkAndResets : Prop :=
  ∀ (s : State) (speed : BitVec 3) (width : BitVec 5) (usb : BitVec 2),
    let d := s.dev
    let up := d.flag F.HOST_STATUS_link_up = true
    let up' := d.flag F.HOST_STATUS_link_up = false
    let power := d.flag ⟨R.PWR_DOMAIN_ON, 35, 1⟩
    (d.host.perst = false → up' → power = true → Gives (.pcieLinkUp speed width) s
      (((((d.setF F.HOST_STATUS_link_up 1).setF F.TOP_STATUS_host_link_up 1).setF F.HOST_STATUS_speed speed.toNat).setF F.HOST_STATUS_width
        width.toNat).hostEvent 0x0B83 0 0 1)) ∧
    (d.host.perst = true ∨ up ∨ power = false → Idle (.pcieLinkUp speed width) s) ∧
    (up → Gives .pcieLinkDown s d.hostDown) ∧ (up' → Idle .pcieLinkDown s) ∧
    Gives .hotReset s (d.hostDown.updHost fun h => { h with cfg := [], msix := [], pba := 0 }) ∧
    (let e := d.hostReset
     Gives .flr s ((((({ e with regs := SMap.dropIf (fun a _ => isHostReg a) e.regs } : Dev).updHost fun h =>
       { h with failed := [], tails := [], moved := [], desc := [] }).setF F.HOST_STATUS_usb_up (e.getF F.HOST_STATUS_usb_up)).setF
         F.HOST_STATUS_usb_speed (e.getF F.HOST_STATUS_usb_speed)).hostEvent 0x0B84 0 0 0)) ∧
    (d.host.perst = false → Gives (.perst true) s
      (((d.hostReset.updHost fun h => { h with perst := true, loaded := false }).standbyLeave false true).wakeRelease)) ∧
    (d.host.perst = true → Idle (.perst true) s) ∧
    Gives (.perst false) s (d.updHost fun h => { h with perst := false, loaded := h.loaded || d.stew.booted }) ∧
    Gives .usbDetach s (d.setF F.HOST_STATUS_usb_up 0) ∧
    (d.pwr.good = false → Idle (.usbAttach usb) s) ∧
    (d.pwr.good = true → d.inStandby = true → Gives (.usbAttach usb) s (d.standbyLeave true true)) ∧
    (d.pwr.good = true → d.inStandby = false → d.domainOn 32 = true → d.usbEnabled = true →
      Gives (.usbAttach usb) s ((d.setB F.HOST_STATUS_usb_up true).setF F.HOST_STATUS_usb_speed usb.toNat))

/-- R417, R419, R420, R421, R498: a configuration request before the space is loaded gets a retry, and after it is served. A BAR access
that does not reach the function has no effect; BAR0 is the register bus; BAR2 and BAR4 are windows on memory in mode RUN, and outside it
read zero and take no write; a BAR read that has waited 10 ms is aborted, counted and reported. The layout of the configuration space is
PCI Express's (log 42). -/
def Obligations.HostReadsAndWrites : Prop :=
  ∀ (s : State) (req : CfgReq) (bar : BitVec 3) (off len : Nat) (bs : List Byte) (w : BarReq),
    let d := s.dev
    let reaches := fun (n : Nat) => d.barReaches bar.toNat off n
    (d.flag F.HOST_STATUS_link_up = false → Idle (.configurationRequest req) s ∧ Idle (.barRead bar off len) s ∧ Idle (.barWrite bar off bs) s) ∧
    (d.flag F.HOST_STATUS_link_up = true →
      (d.host.loaded = false → Gives (.configurationRequest req) s (d.emit (.cfg none))) ∧
      (d.host.loaded = true →
        (∀ o, req = .read o → Gives (.configurationRequest req) s (d.emit (.cfg (some (BitVec.ofNat 32 (d.cfgRead (o.toNat / 4))))))) ∧
        (∀ o v, req = .write o v →
          let w := o.toNat / 4
          let left := SMap.set (fun _ => 0) d.host.cfg w (cfgStore w (SMap.get (fun _ => 0) d.host.cfg w) v.toNat)
          Gives (.configurationRequest req) s (d.updHost fun h => { h with cfg := left })))) ∧
    (reaches len = true →
      (bar = 0 → exec (.barRead bar off len) s = .next ((s.busRead .pcie off len).1.upd fun d =>
        (d.emit (.barData (leBytes len (s.busRead .pcie off len).2))).summaryCheck)) ∧
      (bar ≠ 0 → d.windowsOn = false → Gives (.barRead bar off len) s (d.emit (.barData (List.replicate len 0)))) ∧
      (∀ e r, bar ≠ 0 → d.windowsOn = true → d.host.bars = [] → d.barMayIssue ((d.barWindow bar.toNat).1 + off) len = true →
        d.mgmtRead 21 0x5D true ((d.barWindow bar.toNat).1 + off) len = (e, .ok r) → Gives (.barRead bar off len) s (e.emit (.barData r)))) ∧
    (reaches bs.length = true →
      (bar = 0 → exec (.barWrite bar off bs) s = .next (s.busWrite .pcie off bs.length (leNat bs))) ∧
      (bar ≠ 0 → d.windowsOn = false → Idle (.barWrite bar off bs) s) ∧
      (bar ≠ 0 → d.windowsOn = true → d.host.bars = [] → d.barMayIssue ((d.barWindow bar.toNat).1 + off) bs.length = true →
        Gives (.barWrite bar off bs) s (d.mgmtWrite 21 0x5D true ((d.barWindow bar.toNat).1 + off) bs).1)) ∧
    ((d.host.bars.find? fun b => b.tag == len && b.data.isNone && decide (b.at' + 240000000 ≤ d.clk)) = some w →
      Gives (.barTimeout len) s ((((d.updHost fun h => { h with bars := h.bars.filter fun x => x.tag != len }).barAbort).bump
        R.HOST_BAR_TIMEOUT).hostEvent 0x0B85 0 w.va 0)) ∧
    ((∀ b ∈ d.host.bars, b.tag ≠ len) → Idle (.barTimeout len) s)

/-- R422, R423, R424, R425, R426, R427: HOST_DMA_TRANSFER moves up to 512 bytes of the descriptor of the queue that the rotating pointer
finds, a copy of stack memory in a locked plan only inside a window of requester 0x5D (R420); a copy into the block that its last piece
completes moves the head, and one that fails halts its queue. A doorbell takes a time
word or the tail of its own context's queue and discards what does not fit; a vector unmasked with its message pending is sent. -/
def Obligations.HostQueues : Prop :=
  ∀ (s : State) (desc data : List Byte) (ok : Bool) (ctx : BitVec 12) (v64 : BitVec 64) (v32 : BitVec 32) (vec : BitVec 8) (q : Nat) (e : Dev),
    let d := s.dev
    let k := ctx.toNat
    let c := d.ctxOf k
    (d.flag F.HOST_STATUS_link_up = false ∨ rotPick 20 d.host.arb d.qReady = none → Idle (.hostDmaTransfer desc data ok) s) ∧
    (d.flag F.HOST_STATUS_link_up = true → rotPick 20 d.host.arb d.qReady = some q →
      let b := (SMap.get (fun _ => none) d.host.desc q).getD ((desc ++ List.replicate 32 0).take 32)
      let g := d.updHost fun h => { h with arb := (q + 1) % 20, desc := SMap.set (fun _ => none) h.desc q (some b) }
      let moved := SMap.get (fun _ => 0) g.host.moved q
      let n := min 512 (leAt b 16 4 - moved)
      (4 ≤ q → Gives (.hostDmaTransfer desc data ok) s (g.injTransfer q b data ok)) ∧
      (q < 4 → copyDescBad b = true → Gives (.hostDmaTransfer desc data ok) s (g.qFail q 0x12)) ∧
      (q < 4 → copyDescBad b = false → g.copyWaits q b = true → Gives (.hostDmaTransfer desc data ok) s g) ∧
      (q < 4 → copyDescBad b = false → g.copyWaits q b = false → leAt b 20 1 % 2 = 0 →
        (ok = false → Gives (.hostDmaTransfer desc data ok) s (g.qFail q 0x13)) ∧
        (ok = true → g.mgmtWrite 21 0x5D true (leAt b 8 8 + moved) ((data ++ List.replicate n 0).take n) = (e, none) →
          (moved + n = leAt b 16 4 → Gives (.hostDmaTransfer desc data ok) s (e.qDone q ((leAt b 20 1).testBit 1))) ∧
          (moved + n ≠ leAt b 16 4 → Gives (.hostDmaTransfer desc data ok) s
            (e.updHost fun h => { h with moved := SMap.set (fun _ => 0) h.moved q (moved + n) }))))) ∧
    (c.active = true → d.virtualCtx k = true → Gives (.doorbellTime ctx v64) s (d.vtAdvanceBell k v64.toNat)) ∧
    (c.active = false ∨ d.virtualCtx k = false →
      Gives (.doorbellTime ctx v64) s ((d.bump R.HOST_DB_DISCARD).raise 0x0B82 0 k c.gen 0)) ∧
    (let slot := field v32.toNat 16 4
     let fits := field v32.toNat 20 12 = 0 ∧ c.active = true ∧ d.slotOwner slot = k ∧ d.slotInj slot = true ∧ field v32.toNat 0 16 < d.qSize (slot + 4)
     (fits → Gives (.doorbellTail ctx v32) s (d.updHost fun h => { h with tails := SMap.set (fun _ => 0) h.tails (slot + 4) (field v32.toNat 0 16) })) ∧
     (¬ fits → Gives (.doorbellTail ctx v32) s ((d.bump R.HOST_DB_DISCARD).raise 0x0B82 0 k c.gen 0))) ∧
    (let i := 4 * vec.toNat + 3
     let g := d.updHost fun h => { h with msix := SMap.set msixDefault h.msix i (putBit (SMap.get msixDefault h.msix i) 0 false % 2 ^ 32) }
     (d.host.pba.testBit vec.toNat = false → Gives (.msixUnmask vec) s g) ∧
     (d.host.pba.testBit vec.toNat = true →
       Gives (.msixUnmask vec) s ((g.updHost fun h => { h with pba := putBit h.pba vec.toNat false }).sendMsix vec.toNat)))

/-- R430, R431, R432, R433, R434, R435: a read cycle gives the word of the active bank and is counted, a write cycle enters its word in
the inbound write bank, the first edge of a group captures the words 1 and 2, and a K edge with CS_N high ends the group and applies what
was posted three K edges ago. Which commands are K edges is the model's choice (log 80). -/
def Obligations.HitchCycles : Prop :=
  ∀ (s : State) (addr : BitVec 16) (word : BitVec 32),
    let d := s.dev
    let e := d.groupEdge.bump R.HITCH_READS
    let g := d.groupEdge.updHitch fun h => { h with inWrites := h.inWrites + 1 }
    let i := addr.toNat - 0x4000
    let inside := 0x4000 ≤ addr.toNat ∧ i < g.getF F.HITCH_CFG_in_words
    (e.flag F.TOP_STATUS_steward_ready = false → Gives (.hitchReadCycle addr) s (e.emit (.word 0))) ∧
    (e.flag F.TOP_STATUS_steward_ready = true →
      (addr = 0x8000 → Gives (.hitchReadCycle addr) s (e.emit (.word 0x481600B1))) ∧
      (∀ a f, addr = 1 → e.hitch.group = some (a, f) → Gives (.hitchReadCycle addr) s (e.emit (.word (BitVec.ofNat 32 a)))) ∧
      (∀ a f, addr = 2 → e.hitch.group = some (a, f) → Gives (.hitchReadCycle addr) s (e.emit (.word (BitVec.ofNat 32 f)))) ∧
      (4 ≤ addr.toNat → addr.toNat < e.getF F.HITCH_CFG_out_words → addr ≠ 0x8000 →
        Gives (.hitchReadCycle addr) s (e.emit (.word (BitVec.ofNat 32 (SMap.get (fun _ => 0) e.activeBank addr.toNat))))) ∧
      (4 ≤ addr.toNat → e.getF F.HITCH_CFG_out_words ≤ addr.toNat → addr ≠ 0x8000 → Gives (.hitchReadCycle addr) s (e.emit (.word 0)))) ∧
    (¬ inside → Gives (.hitchWriteCycle addr word) s g) ∧
    (inside → g.hitch.inBank = true →
      Gives (.hitchWriteCycle addr word) s (g.updHitch fun h => { h with in1 := SMap.set (fun _ => 0) h.in1 i word.toNat })) ∧
    (inside → g.hitch.inBank = false →
      Gives (.hitchWriteCycle addr word) s (g.updHitch fun h => { h with in0 := SMap.set (fun _ => 0) h.in0 i word.toNat })) ∧
    (let k := d.kEdge.updHitch fun h => { h with group := none }
     (k.hitch.post = none → k.hitch.inPost = none → Gives .bankSwap s k) ∧
     (∀ n, k.hitch.post = some n → 3 ≤ n → k.hitch.inPost = none →
       Yields .bankSwap s fun t => t.hitch.ack = true ∧ t.hitch.post = none ∧ t.hitch.group = none) ∧
     (∀ n m, k.hitch.post = none → k.hitch.inPost = some (n, m) → 3 ≤ n → Gives .bankSwap s (k.updHitch fun h =>
       { h with inPost := none, inBank := !h.inBank, inAck := some (m, h.inWrites), inWrites := 0 })))

/-- R433, R434, R435, R440: 80 ns after a publication its words are copied into the shadow bank with the device time and the swap is
posted; the acknowledgement ends the swap. The age goes up at a deadline without a publication; the inbound capture is posted at its
instant or skipped, and when it is acknowledged the captured bank is written to the inbound area and cleared. -/
def Obligations.HitchExchanges : Prop :=
  ∀ (s : State) (p : Publication) (e : Dev) (bs : List Byte) (m w : Nat),
    let d := s.dev
    let sc := d.getF F.HITCH_CFG_schedule
    (d.hitch.copy = none → Idle .publishCopy s) ∧
    (d.hitch.copy = some p → d.clk < p.at' + 1920 → Idle .publishCopy s) ∧
    (d.hitch.copy = some p → p.at' + 1920 ≤ d.clk →
      let g := d.updHitch fun h => { h with copy := none }
      g.mgmtRead 21 0x5D false g.pubArea (4 * g.getF F.HITCH_CFG_out_words) = (e, .ok bs) →
      let bank := (List.range (g.getF F.HITCH_CFG_out_words)).foldl (fun m i =>
        SMap.set (fun _ => 0) m i (if i = 3 then p.ns / 1000 % 2 ^ 32 else if i = 1 ∨ i = 2 then 0 else leAt bs (4 * i) 4)) ([] : SMap Nat)
      (e.flag F.HITCH_STATUS_bank = true → Gives .publishCopy s ((e.updHitch fun h =>
        { h with post := some 0, postMark := leAt bs 0 4, bank0 := bank }).setB F.HITCH_STATUS_swap_pending true)) ∧
      (e.flag F.HITCH_STATUS_bank = false → Gives .publishCopy s ((e.updHitch fun h =>
        { h with post := some 0, postMark := leAt bs 0 4, bank1 := bank }).setB F.HITCH_STATUS_swap_pending true))) ∧
    (d.hitch.ack = true → Gives .swapAcknowledge s ((d.updHitch fun h => { h with ack := false }).setB F.HITCH_STATUS_swap_pending false)) ∧
    (d.hitch.ack = false → Idle .swapAcknowledge s) ∧
    (let due := (d.markTime sc d.hitch.ageMark + d.getF F.HITCH_DEADLINE_ns) * 256
     (d.locked = false ∨ d.flag F.HITCH_CFG_out_en = false ∨ d.dev256 < due → Idle .ageIncrement s) ∧
     (d.locked = true → d.flag F.HITCH_CFG_out_en = true → due ≤ d.dev256 →
       let g := d.updHitch fun h => { h with ageMark := h.ageMark + 1, pubs := h.pubs.filter fun t => decide (due ≤ t) }
       ((∃ t ∈ d.hitch.pubs, due - d.schedPeriod sc * 256 ≤ t ∧ t < due) → Gives .ageIncrement s g) ∧
       ((∀ t ∈ d.hitch.pubs, t < due - d.schedPeriod sc * 256 ∨ due ≤ t) → Gives .ageIncrement s
         ((g.setAge (min 0xFFFFFFFF (g.getF F.HITCH_AGE_value + 1))).hitchEvent 0x0B02 g.pubArea d.hitch.ageMark)))) ∧
    (let due := (d.markTime sc d.hitch.capMark + d.getF F.HITCH_CAPTURE_ns) * 256
     let g := d.updHitch fun h => { h with capMark := h.capMark + 1 }
     (d.locked = false ∨ d.flag F.HITCH_CFG_in_en = false ∨ d.dev256 < due → Idle .inboundCapture s) ∧
     (d.locked = true → d.flag F.HITCH_CFG_in_en = true → due ≤ d.dev256 →
       (d.hitch.inPost = none → d.hitch.inAck = none → Gives .inboundCapture s (g.updHitch fun h => { h with inPost := some (0, d.hitch.capMark) })) ∧
       (d.hitch.inPost ≠ none ∨ d.hitch.inAck ≠ none → Gives .inboundCapture s (g.bump R.HITCH_IN_DROP)))) ∧
    (d.hitch.inAck = none → Idle .captureAcknowledge s) ∧
    (d.hitch.inAck = some (m, w) →
      let bank := if d.hitch.inBank then d.hitch.in0 else d.hitch.in1
      let words := (List.range (d.getF F.HITCH_CFG_in_words)).flatMap fun i => leBytes 4 (SMap.get (fun _ => 0) bank i)
      d.mgmtWrite 21 0x5D false d.inArea (leBytes 8 d.devNs ++ leBytes 4 m ++ leBytes 4 w ++ List.replicate 48 0 ++ words) = (e, none) →
      (e.hitch.inBank = true → Gives .captureAcknowledge s (e.updHitch fun h => { h with in0 := [], inAck := none })) ∧
      (e.hitch.inBank = false → Gives .captureAcknowledge s (e.updHitch fun h => { h with in1 := [], inAck := none }))) ∧
    (d.hitch.kSeen + 24000 ≤ d.clk → Gives .hitchClockStopped s (d.setB F.HITCH_STATUS_k_active false)) ∧
    (d.clk < d.hitch.kSeen + 24000 → Idle .hitchClockStopped s)

/-- A step takes the command at the front of the queue and runs it with the queue's rest; on an empty queue time goes on to the next edge
of a clock of 20, 24 or 15 units (the model's choice, log 1 and log 3), and with no power that is all. -/
def Obligations.StepRunsTheFront : Prop :=
  (∀ (s : State) (c : Instr) (rest : List Instr), s.pending = c :: rest → step s = exec c { s with pending := rest }) ∧
  (∀ s : State, s.pending = [] → step s = .next (tick s) ∧
    (s.dev.pwr.good = false → tick s = { s with dev := { s.dev with clk := nextEdge s.dev.clk } })) ∧
  (∀ t, t < nextEdge t ∧ (nextEdge t % 20 = 0 ∨ nextEdge t % 24 = 0 ∨ nextEdge t % 15 = 0) ∧
    ∀ u, t < u → u < nextEdge t → u % 20 ≠ 0 ∧ u % 24 ≠ 0 ∧ u % 15 ≠ 0)

/-- Every step goes on: no state of the block stops it. -/
def Obligations.EveryStepGoes : Prop :=
 ∀ s : State, Goes s

/-- The queue is first in, first out: a step takes exactly the command at the front, and no command puts another one into the queue. -/
def Obligations.QueueIsFifo : Prop :=
 ∀ s t : State, step s = .next t → t.pending = s.pending.tail

/-- R449: no step writes the part of the flash that holds the PUF's helper data, which is written at manufacture; and the flash keeps its
canonical form. What an erased byte reads as is the model's choice (log 8). -/
def Obligations.FlashKeepsItsRoot : Prop :=
  ∀ s t : State, SMap.wf flashDefault s.kept.flash = true → step s = .next t →
    SMap.wf flashDefault t.kept.flash = true ∧
      ∀ a, 0x28000 ≤ a → a < 0x30000 → SMap.get flashDefault t.kept.flash a = SMap.get flashDefault s.kept.flash a

/-- Reset leaves an empty queue, memory and flash in their canonical form, every register at the value of its Reset column, and every
context ID at generation 1 (R38); that memory and flash list nothing is the model's choice (log 5 and log 8). -/
def Obligations.ResetStands : Prop :=
  State.reset.pending = [] ∧ Memory.wf State.reset.dev.mem = true ∧ SMap.wf flashDefault State.reset.kept.flash = true ∧
    (∀ a row, regRowAt a = some row → State.reset.dev.reg a = BitVec.ofNat 64 (fieldsReset row.fields)) ∧
    (∀ id, (State.reset.dev.ctxOf id).gen = 1 ∧ (State.reset.dev.ctxOf id).live = false)

/-- R54, R65, R68, R69, R136: a slot that only computes leaves memory and its check bits, every unit outside the ploughs, the Hedge and
the host's interrupt state, the other ploughs, and everything outside the device as they were, also when it faults; on the Steward it
leaves all of that but the Steward itself. -/
def Obligations.ComputingSlotsLeaveTheRest : Prop :=
  ∀ (s t : State) (p : Runner) (b : Bool) (w : BitVec 64) (i : Instr),
    i ∈ ([.add p b w, .sub p b w, .and p b w, .or p b w, .xor p b w, .shl p b w, .shr p b w, .sra p b w, .mul p b w, .mulhs p b w,
      .mulhu p b w, .min p b w, .max p b w, .minu p b w, .maxu p b w, .clz p b w, .popc p b w, .sel p b w, .addi p b w, .andi p b w,
      .ori p b w, .xori p b w, .shli p b w, .shri p b w, .srai p b w, .movi p b w, .movhi p b w, .cmp p b w, .cmpi p b w, .plog p b w,
      .movs p b w, .vadd p w, .vsub p w, .vmul p w, .vfma p w, .vmin p w, .vmax p w, .vabs p w, .vneg p w, .vand p w, .vor p w, .vxor p w,
      .vshl p w, .vsra p w, .vsel p w, .vcmp p w, .vbcast p w, .vred p w, .vexp2 p w, .vlog2 p w, .vrcp p w, .vrsqrt p w, .vsqrt p w]
        : List Instr) →
    exec i s = .next t →
      t.pending = s.pending ∧ t.kept = s.kept ∧ t.dev.mem = s.dev.mem ∧ t.dev.ecc = s.dev.ecc ∧ t.dev.memc = s.dev.memc ∧
      t.dev.gate = s.dev.gate ∧ t.dev.troughs = s.dev.troughs ∧ t.dev.bell = s.dev.bell ∧ t.dev.yoke = s.dev.yoke ∧
      t.dev.mill = s.dev.mill ∧ t.dev.gran = s.dev.gran ∧ t.dev.hitch = s.dev.hitch ∧ (p ≠ .steward → t.dev.stew = s.dev.stew) ∧
      t.dev.reeve = s.dev.reeve ∧ t.dev.pwr = s.dev.pwr ∧ t.dev.plan = s.dev.plan ∧ t.dev.clk = s.dev.clk ∧
      ∀ n, n ≠ p.toNat → t.dev.plough n = s.dev.plough n
end

