-- ==== Sys2Proof/Laws/Maps.lean ====
section
/-! SUPPORT. The laws of sparse maps: a read after a write, and that the operations keep the canonical form. -/

namespace Sys2Proof.Machine

variable {α : Type}

/-- Reading a list whose keys all lie above `k` gives the default at `k`. -/
theorem SMap.get_of_above [DecidableEq α] (dflt : Nat → α) {b k : Nat} {m : SMap α} (h : SMap.wfAbove dflt b m = true) (hk : k < b) :
    SMap.get dflt m k = dflt k := by
  cases m with
  | nil => rfl
  | cons e m =>
    simp only [SMap.wfAbove, Bool.and_eq_true, decide_eq_true_eq] at h
    simp only [SMap.get]
    rw [if_pos (by omega)]

/-- A lower bound may be lowered. -/
theorem SMap.wfAbove_mono [DecidableEq α] (dflt : Nat → α) {b c : Nat} {m : SMap α} (h : SMap.wfAbove dflt c m = true) (hb : b ≤ c) :
    SMap.wfAbove dflt b m = true := by
  cases m with
  | nil => rfl
  | cons e m =>
    simp only [SMap.wfAbove, Bool.and_eq_true, decide_eq_true_eq] at h ⊢
    exact ⟨⟨by omega, h.1.2⟩, h.2⟩

/-- A read of the key just inserted. -/
theorem SMap.get_insert_same (dflt : Nat → α) (m : SMap α) (k : Nat) (v : α) : SMap.get dflt (SMap.insert m k v) k = v := by
  induction m with
  | nil => simp [SMap.insert, SMap.get]
  | cons e m ih =>
    simp only [SMap.insert]
    split
    · simp [SMap.get]
    · split
      · simp [SMap.get]
      · simp only [SMap.get]
        rw [if_neg (by omega), if_neg (by omega), ih]

/-- An insertion leaves every other key alone. -/
theorem SMap.get_insert_ne (dflt : Nat → α) (m : SMap α) {k j : Nat} (v : α) (h : j ≠ k) :
    SMap.get dflt (SMap.insert m k v) j = SMap.get dflt m j := by
  induction m with
  | nil => simp only [SMap.insert, SMap.get, if_neg h]; split <;> rfl
  | cons e m ih =>
    obtain ⟨x, u⟩ := e
    simp only [SMap.insert]
    split
    · simp only [SMap.get]
      split
      · rw [if_pos (by omega)]
      · rfl
    · split
      · subst k; simp only [SMap.get, if_neg h]
      · simp only [SMap.get, ih]

/-- A read of the key just removed. -/
theorem SMap.get_erase_same [DecidableEq α] (dflt : Nat → α) {b : Nat} {m : SMap α} (k : Nat) (h : SMap.wfAbove dflt b m = true) :
    SMap.get dflt (SMap.erase m k) k = dflt k := by
  induction m generalizing b with
  | nil => rfl
  | cons e m ih =>
    obtain ⟨x, u⟩ := e
    simp only [SMap.wfAbove, Bool.and_eq_true, decide_eq_true_eq] at h
    simp only [SMap.erase]
    split
    · simp only [SMap.get]; rw [if_pos (by assumption)]
    · split
      · exact SMap.get_of_above dflt h.2 (by omega)
      · simp only [SMap.get]
        rw [if_neg (by omega), if_neg (by omega), ih h.2]

/-- A removal leaves every other key alone. -/
theorem SMap.get_erase_ne [DecidableEq α] (dflt : Nat → α) {b : Nat} {m : SMap α} {k j : Nat} (h : SMap.wfAbove dflt b m = true) (hj : j ≠ k) :
    SMap.get dflt (SMap.erase m k) j = SMap.get dflt m j := by
  induction m generalizing b with
  | nil => rfl
  | cons e m ih =>
    obtain ⟨x, u⟩ := e
    simp only [SMap.wfAbove, Bool.and_eq_true, decide_eq_true_eq] at h
    simp only [SMap.erase]
    split
    · rfl
    · split
      · subst k
        simp only [SMap.get, if_neg hj]
        split
        · exact SMap.get_of_above dflt h.2 (by omega)
        · rfl
      · simp only [SMap.get, ih h.2]

/-- A read of the key just written gives what was written. -/
theorem SMap.get_set_same [DecidableEq α] (dflt : Nat → α) {m : SMap α} (k : Nat) (v : α) (h : SMap.wf dflt m = true) :
    SMap.get dflt (SMap.set dflt m k v) k = v := by
  unfold SMap.set
  split
  · rename_i e; rw [SMap.get_erase_same dflt k h, e]
  · exact SMap.get_insert_same dflt m k v

/-- A write leaves every other key alone. -/
theorem SMap.get_set_ne [DecidableEq α] (dflt : Nat → α) {m : SMap α} {k j : Nat} (v : α) (h : SMap.wf dflt m = true) (hj : j ≠ k) :
    SMap.get dflt (SMap.set dflt m k v) j = SMap.get dflt m j := by
  unfold SMap.set
  split
  · exact SMap.get_erase_ne dflt h hj
  · exact SMap.get_insert_ne dflt m v hj

/-- An insertion of a value that is not the default keeps the canonical form. -/
theorem SMap.wfAbove_insert [DecidableEq α] (dflt : Nat → α) {b : Nat} {m : SMap α} {k : Nat} {v : α} (h : SMap.wfAbove dflt b m = true)
    (hb : b ≤ k) (hv : v ≠ dflt k) : SMap.wfAbove dflt b (SMap.insert m k v) = true := by
  induction m generalizing b with
  | nil => simp [SMap.insert, SMap.wfAbove, hb, hv]
  | cons e m ih =>
    obtain ⟨x, u⟩ := e
    simp only [SMap.wfAbove, Bool.and_eq_true, decide_eq_true_eq] at h
    simp only [SMap.insert]
    split
    · simp only [SMap.wfAbove, Bool.and_eq_true, decide_eq_true_eq]
      exact ⟨⟨hb, hv⟩, ⟨⟨by omega, h.1.2⟩, h.2⟩⟩
    · split
      · subst k
        simp only [SMap.wfAbove, Bool.and_eq_true, decide_eq_true_eq]
        exact ⟨⟨hb, hv⟩, h.2⟩
      · simp only [SMap.wfAbove, Bool.and_eq_true, decide_eq_true_eq]
        exact ⟨h.1, ih h.2 (by omega)⟩

/-- What remains of a canonical list is canonical. -/
theorem SMap.wfAbove_filter [DecidableEq α] (dflt : Nat → α) {b : Nat} {m : SMap α} (p : Nat × α → Bool) (h : SMap.wfAbove dflt b m = true) :
    SMap.wfAbove dflt b (m.filter p) = true := by
  induction m generalizing b with
  | nil => rfl
  | cons e m ih =>
    simp only [SMap.wfAbove, Bool.and_eq_true, decide_eq_true_eq] at h
    simp only [List.filter]
    split
    · simp only [SMap.wfAbove, Bool.and_eq_true, decide_eq_true_eq]
      exact ⟨h.1, ih h.2⟩
    · exact SMap.wfAbove_mono dflt (ih h.2) (by omega)

/-- A removal keeps the canonical form. -/
theorem SMap.wfAbove_erase [DecidableEq α] (dflt : Nat → α) {b : Nat} {m : SMap α} (k : Nat) (h : SMap.wfAbove dflt b m = true) :
    SMap.wfAbove dflt b (SMap.erase m k) = true := by
  induction m generalizing b with
  | nil => rfl
  | cons e m ih =>
    obtain ⟨x, u⟩ := e
    have h' := h
    simp only [SMap.wfAbove, Bool.and_eq_true, decide_eq_true_eq] at h
    simp only [SMap.erase]
    split
    · exact h'
    · split
      · exact SMap.wfAbove_mono dflt h.2 (by omega)
      · simp only [SMap.wfAbove, Bool.and_eq_true, decide_eq_true_eq]
        exact ⟨h.1, ih h.2⟩

/-- A write keeps the canonical form. -/
theorem SMap.wf_set [DecidableEq α] (dflt : Nat → α) {m : SMap α} (k : Nat) (v : α) (h : SMap.wf dflt m = true) :
    SMap.wf dflt (SMap.set dflt m k v) = true := by
  unfold SMap.set SMap.wf
  split
  · exact SMap.wfAbove_erase dflt k h
  · exact SMap.wfAbove_insert dflt h (by omega) (by assumption)

/-- A change of one value keeps the canonical form. -/
theorem SMap.wf_modify [DecidableEq α] (dflt : Nat → α) {m : SMap α} (k : Nat) (f : α → α) (h : SMap.wf dflt m = true) :
    SMap.wf dflt (SMap.modify dflt m k f) = true := SMap.wf_set dflt k _ h

/-- A canonical list reads by looking its key up. -/
theorem SMap.get_eq_find [DecidableEq α] (dflt : Nat → α) {b : Nat} {m : SMap α} (k : Nat) (h : SMap.wfAbove dflt b m = true) :
    SMap.get dflt m k = ((m.find? fun e => e.1 == k).map (·.2)).getD (dflt k) := by
  induction m generalizing b with
  | nil => rfl
  | cons e m ih =>
    obtain ⟨x, u⟩ := e
    simp only [SMap.wfAbove, Bool.and_eq_true, decide_eq_true_eq] at h
    simp only [SMap.get, List.find?]
    by_cases hx : x = k
    · subst hx; simp
    · rw [show (x == k) = false from by simp [hx]]
      split
      · rw [← ih h.2, SMap.get_of_above dflt h.2 (by omega)]
      · rw [if_neg (by omega), ih h.2]

/-- Two canonical lists of which the first lies below the second join to a canonical list. -/
theorem SMap.wfAbove_append [DecidableEq α] (dflt : Nat → α) {b c : Nat} {m n : SMap α} (hm : SMap.wfAbove dflt b m = true)
    (hn : SMap.wfAbove dflt c n = true) (hbc : b ≤ c) (hlt : ∀ e ∈ m, e.1 < c) : SMap.wfAbove dflt b (m ++ n) = true := by
  induction m generalizing b with
  | nil => exact SMap.wfAbove_mono dflt hn hbc
  | cons e m ih =>
    obtain ⟨x, u⟩ := e
    simp only [SMap.wfAbove, Bool.and_eq_true, decide_eq_true_eq] at hm
    simp only [List.cons_append, SMap.wfAbove, Bool.and_eq_true, decide_eq_true_eq]
    have hx : x < c := hlt (x, u) (by simp)
    exact ⟨hm.1, ih hm.2 (by omega) fun e he => hlt e (by simp [he])⟩

/-- Every key of a canonical list above `b` is at least `b`. -/
theorem SMap.wfAbove_keys [DecidableEq α] (dflt : Nat → α) {b : Nat} {m : SMap α} (h : SMap.wfAbove dflt b m = true) : ∀ e ∈ m, b ≤ e.1 := by
  induction m generalizing b with
  | nil => simp
  | cons e m ih =>
    simp only [SMap.wfAbove, Bool.and_eq_true, decide_eq_true_eq] at h
    intro x hx
    rcases List.mem_cons.mp hx with rfl | hx
    · exact h.1.1
    · have := ih h.2 x hx; omega

/-- Raising the bound over a list whose keys allow it. -/
theorem SMap.wfAbove_of_keys [DecidableEq α] (dflt : Nat → α) {b c : Nat} {m : SMap α} (h : SMap.wfAbove dflt b m = true)
    (hk : ∀ e ∈ m, c ≤ e.1) : SMap.wfAbove dflt c m = true := by
  cases m with
  | nil => rfl
  | cons e m =>
    simp only [SMap.wfAbove, Bool.and_eq_true, decide_eq_true_eq] at h ⊢
    exact ⟨⟨hk e (by simp), h.1.2⟩, h.2⟩

end Sys2Proof.Machine
end

