-- ==== Sys2Proof/Laws/State.lean ====
section
/-! SUPPORT. What each update of the device does to each of its fields: true by unfolding, for the simplifier. -/

namespace Sys2Proof.Machine

variable (d : Dev) (s : State)

/-! ### Updates of the whole state -/

@[simp] theorem State.upd_pending (f : Dev → Dev) : (s.upd f).pending = s.pending := rfl
@[simp] theorem State.upd_kept (f : Dev → Dev) : (s.upd f).kept = s.kept := rfl
@[simp] theorem State.upd_dev (f : Dev → Dev) : (s.upd f).dev = f s.dev := rfl

/-! ### setReg -/

@[simp] theorem Dev.setReg_clk (a : Nat) (v : Word) : (d.setReg a v).clk = d.clk := rfl
@[simp] theorem Dev.setReg_regs (a : Nat) (v : Word) : (d.setReg a v).regs = SMap.set regReset d.regs a v := rfl
@[simp] theorem Dev.setReg_lowHeld (a : Nat) (v : Word) : (d.setReg a v).lowHeld = d.lowHeld := rfl
@[simp] theorem Dev.setReg_same (a : Nat) (v : Word) : (d.setReg a v).same = d.same := rfl
@[simp] theorem Dev.setReg_highCap (a : Nat) (v : Word) : (d.setReg a v).highCap = d.highCap := rfl
@[simp] theorem Dev.setReg_mem (a : Nat) (v : Word) : (d.setReg a v).mem = d.mem := rfl
@[simp] theorem Dev.setReg_ecc (a : Nat) (v : Word) : (d.setReg a v).ecc = d.ecc := rfl
@[simp] theorem Dev.setReg_memc (a : Nat) (v : Word) : (d.setReg a v).memc = d.memc := rfl
@[simp] theorem Dev.setReg_hedge (a : Nat) (v : Word) : (d.setReg a v).hedge = d.hedge := rfl
@[simp] theorem Dev.setReg_evt (a : Nat) (v : Word) : (d.setReg a v).evt = d.evt := rfl
@[simp] theorem Dev.setReg_ctxs (a : Nat) (v : Word) : (d.setReg a v).ctxs = d.ctxs := rfl
@[simp] theorem Dev.setReg_ctxCmd (a : Nat) (v : Word) : (d.setReg a v).ctxCmd = d.ctxCmd := rfl
@[simp] theorem Dev.setReg_exch (a : Nat) (v : Word) : (d.setReg a v).exch = d.exch := rfl
@[simp] theorem Dev.setReg_plan (a : Nat) (v : Word) : (d.setReg a v).plan = d.plan := rfl
@[simp] theorem Dev.setReg_ploughs (a : Nat) (v : Word) : (d.setReg a v).ploughs = d.ploughs := rfl
@[simp] theorem Dev.setReg_jobs (a : Nat) (v : Word) : (d.setReg a v).jobs = d.jobs := rfl
@[simp] theorem Dev.setReg_nextId (a : Nat) (v : Word) : (d.setReg a v).nextId = d.nextId := rfl
@[simp] theorem Dev.setReg_gate (a : Nat) (v : Word) : (d.setReg a v).gate = d.gate := rfl
@[simp] theorem Dev.setReg_troughs (a : Nat) (v : Word) : (d.setReg a v).troughs = d.troughs := rfl
@[simp] theorem Dev.setReg_bell (a : Nat) (v : Word) : (d.setReg a v).bell = d.bell := rfl
@[simp] theorem Dev.setReg_yoke (a : Nat) (v : Word) : (d.setReg a v).yoke = d.yoke := rfl
@[simp] theorem Dev.setReg_mill (a : Nat) (v : Word) : (d.setReg a v).mill = d.mill := rfl
@[simp] theorem Dev.setReg_gran (a : Nat) (v : Word) : (d.setReg a v).gran = d.gran := rfl
@[simp] theorem Dev.setReg_links (a : Nat) (v : Word) : (d.setReg a v).links = d.links := rfl
@[simp] theorem Dev.setReg_hitch (a : Nat) (v : Word) : (d.setReg a v).hitch = d.hitch := rfl
@[simp] theorem Dev.setReg_host (a : Nat) (v : Word) : (d.setReg a v).host = d.host := rfl
@[simp] theorem Dev.setReg_stew (a : Nat) (v : Word) : (d.setReg a v).stew = d.stew := rfl
@[simp] theorem Dev.setReg_reeve (a : Nat) (v : Word) : (d.setReg a v).reeve = d.reeve := rfl
@[simp] theorem Dev.setReg_pwr (a : Nat) (v : Word) : (d.setReg a v).pwr = d.pwr := rfl
@[simp] theorem Dev.setReg_free (a : Nat) (v : Word) : (d.setReg a v).free = d.free := rfl
@[simp] theorem Dev.setReg_out (a : Nat) (v : Word) : (d.setReg a v).out = d.out := rfl

/-! ### setF -/

@[simp] theorem Dev.setF_clk (f : FieldRef) (v : Nat) : (d.setF f v).clk = d.clk := rfl
@[simp] theorem Dev.setF_lowHeld (f : FieldRef) (v : Nat) : (d.setF f v).lowHeld = d.lowHeld := rfl
@[simp] theorem Dev.setF_same (f : FieldRef) (v : Nat) : (d.setF f v).same = d.same := rfl
@[simp] theorem Dev.setF_highCap (f : FieldRef) (v : Nat) : (d.setF f v).highCap = d.highCap := rfl
@[simp] theorem Dev.setF_mem (f : FieldRef) (v : Nat) : (d.setF f v).mem = d.mem := rfl
@[simp] theorem Dev.setF_ecc (f : FieldRef) (v : Nat) : (d.setF f v).ecc = d.ecc := rfl
@[simp] theorem Dev.setF_memc (f : FieldRef) (v : Nat) : (d.setF f v).memc = d.memc := rfl
@[simp] theorem Dev.setF_hedge (f : FieldRef) (v : Nat) : (d.setF f v).hedge = d.hedge := rfl
@[simp] theorem Dev.setF_evt (f : FieldRef) (v : Nat) : (d.setF f v).evt = d.evt := rfl
@[simp] theorem Dev.setF_ctxs (f : FieldRef) (v : Nat) : (d.setF f v).ctxs = d.ctxs := rfl
@[simp] theorem Dev.setF_ctxCmd (f : FieldRef) (v : Nat) : (d.setF f v).ctxCmd = d.ctxCmd := rfl
@[simp] theorem Dev.setF_exch (f : FieldRef) (v : Nat) : (d.setF f v).exch = d.exch := rfl
@[simp] theorem Dev.setF_plan (f : FieldRef) (v : Nat) : (d.setF f v).plan = d.plan := rfl
@[simp] theorem Dev.setF_ploughs (f : FieldRef) (v : Nat) : (d.setF f v).ploughs = d.ploughs := rfl
@[simp] theorem Dev.setF_jobs (f : FieldRef) (v : Nat) : (d.setF f v).jobs = d.jobs := rfl
@[simp] theorem Dev.setF_nextId (f : FieldRef) (v : Nat) : (d.setF f v).nextId = d.nextId := rfl
@[simp] theorem Dev.setF_gate (f : FieldRef) (v : Nat) : (d.setF f v).gate = d.gate := rfl
@[simp] theorem Dev.setF_troughs (f : FieldRef) (v : Nat) : (d.setF f v).troughs = d.troughs := rfl
@[simp] theorem Dev.setF_bell (f : FieldRef) (v : Nat) : (d.setF f v).bell = d.bell := rfl
@[simp] theorem Dev.setF_yoke (f : FieldRef) (v : Nat) : (d.setF f v).yoke = d.yoke := rfl
@[simp] theorem Dev.setF_mill (f : FieldRef) (v : Nat) : (d.setF f v).mill = d.mill := rfl
@[simp] theorem Dev.setF_gran (f : FieldRef) (v : Nat) : (d.setF f v).gran = d.gran := rfl
@[simp] theorem Dev.setF_links (f : FieldRef) (v : Nat) : (d.setF f v).links = d.links := rfl
@[simp] theorem Dev.setF_hitch (f : FieldRef) (v : Nat) : (d.setF f v).hitch = d.hitch := rfl
@[simp] theorem Dev.setF_host (f : FieldRef) (v : Nat) : (d.setF f v).host = d.host := rfl
@[simp] theorem Dev.setF_stew (f : FieldRef) (v : Nat) : (d.setF f v).stew = d.stew := rfl
@[simp] theorem Dev.setF_reeve (f : FieldRef) (v : Nat) : (d.setF f v).reeve = d.reeve := rfl
@[simp] theorem Dev.setF_pwr (f : FieldRef) (v : Nat) : (d.setF f v).pwr = d.pwr := rfl
@[simp] theorem Dev.setF_free (f : FieldRef) (v : Nat) : (d.setF f v).free = d.free := rfl
@[simp] theorem Dev.setF_out (f : FieldRef) (v : Nat) : (d.setF f v).out = d.out := rfl

/-! ### setB -/

@[simp] theorem Dev.setB_clk (f : FieldRef) (b : Bool) : (d.setB f b).clk = d.clk := rfl
@[simp] theorem Dev.setB_lowHeld (f : FieldRef) (b : Bool) : (d.setB f b).lowHeld = d.lowHeld := rfl
@[simp] theorem Dev.setB_same (f : FieldRef) (b : Bool) : (d.setB f b).same = d.same := rfl
@[simp] theorem Dev.setB_highCap (f : FieldRef) (b : Bool) : (d.setB f b).highCap = d.highCap := rfl
@[simp] theorem Dev.setB_mem (f : FieldRef) (b : Bool) : (d.setB f b).mem = d.mem := rfl
@[simp] theorem Dev.setB_ecc (f : FieldRef) (b : Bool) : (d.setB f b).ecc = d.ecc := rfl
@[simp] theorem Dev.setB_memc (f : FieldRef) (b : Bool) : (d.setB f b).memc = d.memc := rfl
@[simp] theorem Dev.setB_hedge (f : FieldRef) (b : Bool) : (d.setB f b).hedge = d.hedge := rfl
@[simp] theorem Dev.setB_evt (f : FieldRef) (b : Bool) : (d.setB f b).evt = d.evt := rfl
@[simp] theorem Dev.setB_ctxs (f : FieldRef) (b : Bool) : (d.setB f b).ctxs = d.ctxs := rfl
@[simp] theorem Dev.setB_ctxCmd (f : FieldRef) (b : Bool) : (d.setB f b).ctxCmd = d.ctxCmd := rfl
@[simp] theorem Dev.setB_exch (f : FieldRef) (b : Bool) : (d.setB f b).exch = d.exch := rfl
@[simp] theorem Dev.setB_plan (f : FieldRef) (b : Bool) : (d.setB f b).plan = d.plan := rfl
@[simp] theorem Dev.setB_ploughs (f : FieldRef) (b : Bool) : (d.setB f b).ploughs = d.ploughs := rfl
@[simp] theorem Dev.setB_jobs (f : FieldRef) (b : Bool) : (d.setB f b).jobs = d.jobs := rfl
@[simp] theorem Dev.setB_nextId (f : FieldRef) (b : Bool) : (d.setB f b).nextId = d.nextId := rfl
@[simp] theorem Dev.setB_gate (f : FieldRef) (b : Bool) : (d.setB f b).gate = d.gate := rfl
@[simp] theorem Dev.setB_troughs (f : FieldRef) (b : Bool) : (d.setB f b).troughs = d.troughs := rfl
@[simp] theorem Dev.setB_bell (f : FieldRef) (b : Bool) : (d.setB f b).bell = d.bell := rfl
@[simp] theorem Dev.setB_yoke (f : FieldRef) (b : Bool) : (d.setB f b).yoke = d.yoke := rfl
@[simp] theorem Dev.setB_mill (f : FieldRef) (b : Bool) : (d.setB f b).mill = d.mill := rfl
@[simp] theorem Dev.setB_gran (f : FieldRef) (b : Bool) : (d.setB f b).gran = d.gran := rfl
@[simp] theorem Dev.setB_links (f : FieldRef) (b : Bool) : (d.setB f b).links = d.links := rfl
@[simp] theorem Dev.setB_hitch (f : FieldRef) (b : Bool) : (d.setB f b).hitch = d.hitch := rfl
@[simp] theorem Dev.setB_host (f : FieldRef) (b : Bool) : (d.setB f b).host = d.host := rfl
@[simp] theorem Dev.setB_stew (f : FieldRef) (b : Bool) : (d.setB f b).stew = d.stew := rfl
@[simp] theorem Dev.setB_reeve (f : FieldRef) (b : Bool) : (d.setB f b).reeve = d.reeve := rfl
@[simp] theorem Dev.setB_pwr (f : FieldRef) (b : Bool) : (d.setB f b).pwr = d.pwr := rfl
@[simp] theorem Dev.setB_free (f : FieldRef) (b : Bool) : (d.setB f b).free = d.free := rfl
@[simp] theorem Dev.setB_out (f : FieldRef) (b : Bool) : (d.setB f b).out = d.out := rfl

/-! ### bump -/

@[simp] theorem Dev.bump_clk (a n : Nat) : (d.bump a n).clk = d.clk := rfl
@[simp] theorem Dev.bump_lowHeld (a n : Nat) : (d.bump a n).lowHeld = d.lowHeld := rfl
@[simp] theorem Dev.bump_highCap (a n : Nat) : (d.bump a n).highCap = d.highCap := rfl
@[simp] theorem Dev.bump_mem (a n : Nat) : (d.bump a n).mem = d.mem := rfl
@[simp] theorem Dev.bump_ecc (a n : Nat) : (d.bump a n).ecc = d.ecc := rfl
@[simp] theorem Dev.bump_memc (a n : Nat) : (d.bump a n).memc = d.memc := rfl
@[simp] theorem Dev.bump_hedge (a n : Nat) : (d.bump a n).hedge = d.hedge := rfl
@[simp] theorem Dev.bump_evt (a n : Nat) : (d.bump a n).evt = d.evt := rfl
@[simp] theorem Dev.bump_ctxs (a n : Nat) : (d.bump a n).ctxs = d.ctxs := rfl
@[simp] theorem Dev.bump_ctxCmd (a n : Nat) : (d.bump a n).ctxCmd = d.ctxCmd := rfl
@[simp] theorem Dev.bump_exch (a n : Nat) : (d.bump a n).exch = d.exch := rfl
@[simp] theorem Dev.bump_plan (a n : Nat) : (d.bump a n).plan = d.plan := rfl
@[simp] theorem Dev.bump_ploughs (a n : Nat) : (d.bump a n).ploughs = d.ploughs := rfl
@[simp] theorem Dev.bump_jobs (a n : Nat) : (d.bump a n).jobs = d.jobs := rfl
@[simp] theorem Dev.bump_nextId (a n : Nat) : (d.bump a n).nextId = d.nextId := rfl
@[simp] theorem Dev.bump_gate (a n : Nat) : (d.bump a n).gate = d.gate := rfl
@[simp] theorem Dev.bump_troughs (a n : Nat) : (d.bump a n).troughs = d.troughs := rfl
@[simp] theorem Dev.bump_bell (a n : Nat) : (d.bump a n).bell = d.bell := rfl
@[simp] theorem Dev.bump_yoke (a n : Nat) : (d.bump a n).yoke = d.yoke := rfl
@[simp] theorem Dev.bump_mill (a n : Nat) : (d.bump a n).mill = d.mill := rfl
@[simp] theorem Dev.bump_gran (a n : Nat) : (d.bump a n).gran = d.gran := rfl
@[simp] theorem Dev.bump_links (a n : Nat) : (d.bump a n).links = d.links := rfl
@[simp] theorem Dev.bump_hitch (a n : Nat) : (d.bump a n).hitch = d.hitch := rfl
@[simp] theorem Dev.bump_host (a n : Nat) : (d.bump a n).host = d.host := rfl
@[simp] theorem Dev.bump_stew (a n : Nat) : (d.bump a n).stew = d.stew := rfl
@[simp] theorem Dev.bump_reeve (a n : Nat) : (d.bump a n).reeve = d.reeve := rfl
@[simp] theorem Dev.bump_pwr (a n : Nat) : (d.bump a n).pwr = d.pwr := rfl
@[simp] theorem Dev.bump_free (a n : Nat) : (d.bump a n).free = d.free := rfl
@[simp] theorem Dev.bump_out (a n : Nat) : (d.bump a n).out = d.out := rfl

/-! ### note -/

@[simp] theorem Dev.note_regs (t : Touch) : (d.note t).regs = d.regs := rfl
@[simp] theorem Dev.note_clk (t : Touch) : (d.note t).clk = d.clk := rfl
@[simp] theorem Dev.note_lowHeld (t : Touch) : (d.note t).lowHeld = d.lowHeld := rfl
@[simp] theorem Dev.note_highCap (t : Touch) : (d.note t).highCap = d.highCap := rfl
@[simp] theorem Dev.note_mem (t : Touch) : (d.note t).mem = d.mem := rfl
@[simp] theorem Dev.note_ecc (t : Touch) : (d.note t).ecc = d.ecc := rfl
@[simp] theorem Dev.note_memc (t : Touch) : (d.note t).memc = d.memc := rfl
@[simp] theorem Dev.note_hedge (t : Touch) : (d.note t).hedge = d.hedge := rfl
@[simp] theorem Dev.note_evt (t : Touch) : (d.note t).evt = d.evt := rfl
@[simp] theorem Dev.note_ctxs (t : Touch) : (d.note t).ctxs = d.ctxs := rfl
@[simp] theorem Dev.note_ctxCmd (t : Touch) : (d.note t).ctxCmd = d.ctxCmd := rfl
@[simp] theorem Dev.note_exch (t : Touch) : (d.note t).exch = d.exch := rfl
@[simp] theorem Dev.note_plan (t : Touch) : (d.note t).plan = d.plan := rfl
@[simp] theorem Dev.note_ploughs (t : Touch) : (d.note t).ploughs = d.ploughs := rfl
@[simp] theorem Dev.note_jobs (t : Touch) : (d.note t).jobs = d.jobs := rfl
@[simp] theorem Dev.note_nextId (t : Touch) : (d.note t).nextId = d.nextId := rfl
@[simp] theorem Dev.note_gate (t : Touch) : (d.note t).gate = d.gate := rfl
@[simp] theorem Dev.note_troughs (t : Touch) : (d.note t).troughs = d.troughs := rfl
@[simp] theorem Dev.note_bell (t : Touch) : (d.note t).bell = d.bell := rfl
@[simp] theorem Dev.note_yoke (t : Touch) : (d.note t).yoke = d.yoke := rfl
@[simp] theorem Dev.note_mill (t : Touch) : (d.note t).mill = d.mill := rfl
@[simp] theorem Dev.note_gran (t : Touch) : (d.note t).gran = d.gran := rfl
@[simp] theorem Dev.note_links (t : Touch) : (d.note t).links = d.links := rfl
@[simp] theorem Dev.note_hitch (t : Touch) : (d.note t).hitch = d.hitch := rfl
@[simp] theorem Dev.note_host (t : Touch) : (d.note t).host = d.host := rfl
@[simp] theorem Dev.note_stew (t : Touch) : (d.note t).stew = d.stew := rfl
@[simp] theorem Dev.note_reeve (t : Touch) : (d.note t).reeve = d.reeve := rfl
@[simp] theorem Dev.note_pwr (t : Touch) : (d.note t).pwr = d.pwr := rfl
@[simp] theorem Dev.note_free (t : Touch) : (d.note t).free = d.free := rfl
@[simp] theorem Dev.note_out (t : Touch) : (d.note t).out = d.out := rfl

/-! ### noteCount -/

@[simp] theorem Dev.noteCount_regs (a v n : Nat) : (d.noteCount a v n).regs = d.regs := rfl
@[simp] theorem Dev.noteCount_clk (a v n : Nat) : (d.noteCount a v n).clk = d.clk := rfl
@[simp] theorem Dev.noteCount_lowHeld (a v n : Nat) : (d.noteCount a v n).lowHeld = d.lowHeld := rfl
@[simp] theorem Dev.noteCount_highCap (a v n : Nat) : (d.noteCount a v n).highCap = d.highCap := rfl
@[simp] theorem Dev.noteCount_mem (a v n : Nat) : (d.noteCount a v n).mem = d.mem := rfl
@[simp] theorem Dev.noteCount_ecc (a v n : Nat) : (d.noteCount a v n).ecc = d.ecc := rfl
@[simp] theorem Dev.noteCount_memc (a v n : Nat) : (d.noteCount a v n).memc = d.memc := rfl
@[simp] theorem Dev.noteCount_hedge (a v n : Nat) : (d.noteCount a v n).hedge = d.hedge := rfl
@[simp] theorem Dev.noteCount_evt (a v n : Nat) : (d.noteCount a v n).evt = d.evt := rfl
@[simp] theorem Dev.noteCount_ctxs (a v n : Nat) : (d.noteCount a v n).ctxs = d.ctxs := rfl
@[simp] theorem Dev.noteCount_ctxCmd (a v n : Nat) : (d.noteCount a v n).ctxCmd = d.ctxCmd := rfl
@[simp] theorem Dev.noteCount_exch (a v n : Nat) : (d.noteCount a v n).exch = d.exch := rfl
@[simp] theorem Dev.noteCount_plan (a v n : Nat) : (d.noteCount a v n).plan = d.plan := rfl
@[simp] theorem Dev.noteCount_ploughs (a v n : Nat) : (d.noteCount a v n).ploughs = d.ploughs := rfl
@[simp] theorem Dev.noteCount_jobs (a v n : Nat) : (d.noteCount a v n).jobs = d.jobs := rfl
@[simp] theorem Dev.noteCount_nextId (a v n : Nat) : (d.noteCount a v n).nextId = d.nextId := rfl
@[simp] theorem Dev.noteCount_gate (a v n : Nat) : (d.noteCount a v n).gate = d.gate := rfl
@[simp] theorem Dev.noteCount_troughs (a v n : Nat) : (d.noteCount a v n).troughs = d.troughs := rfl
@[simp] theorem Dev.noteCount_bell (a v n : Nat) : (d.noteCount a v n).bell = d.bell := rfl
@[simp] theorem Dev.noteCount_yoke (a v n : Nat) : (d.noteCount a v n).yoke = d.yoke := rfl
@[simp] theorem Dev.noteCount_mill (a v n : Nat) : (d.noteCount a v n).mill = d.mill := rfl
@[simp] theorem Dev.noteCount_gran (a v n : Nat) : (d.noteCount a v n).gran = d.gran := rfl
@[simp] theorem Dev.noteCount_links (a v n : Nat) : (d.noteCount a v n).links = d.links := rfl
@[simp] theorem Dev.noteCount_hitch (a v n : Nat) : (d.noteCount a v n).hitch = d.hitch := rfl
@[simp] theorem Dev.noteCount_host (a v n : Nat) : (d.noteCount a v n).host = d.host := rfl
@[simp] theorem Dev.noteCount_stew (a v n : Nat) : (d.noteCount a v n).stew = d.stew := rfl
@[simp] theorem Dev.noteCount_reeve (a v n : Nat) : (d.noteCount a v n).reeve = d.reeve := rfl
@[simp] theorem Dev.noteCount_pwr (a v n : Nat) : (d.noteCount a v n).pwr = d.pwr := rfl
@[simp] theorem Dev.noteCount_free (a v n : Nat) : (d.noteCount a v n).free = d.free := rfl
@[simp] theorem Dev.noteCount_out (a v n : Nat) : (d.noteCount a v n).out = d.out := rfl

/-! ### noteValue -/

@[simp] theorem Dev.noteValue_regs (a v n : Nat) : (d.noteValue a v n).regs = d.regs := rfl
@[simp] theorem Dev.noteValue_clk (a v n : Nat) : (d.noteValue a v n).clk = d.clk := rfl
@[simp] theorem Dev.noteValue_lowHeld (a v n : Nat) : (d.noteValue a v n).lowHeld = d.lowHeld := rfl
@[simp] theorem Dev.noteValue_highCap (a v n : Nat) : (d.noteValue a v n).highCap = d.highCap := rfl
@[simp] theorem Dev.noteValue_mem (a v n : Nat) : (d.noteValue a v n).mem = d.mem := rfl
@[simp] theorem Dev.noteValue_ecc (a v n : Nat) : (d.noteValue a v n).ecc = d.ecc := rfl
@[simp] theorem Dev.noteValue_memc (a v n : Nat) : (d.noteValue a v n).memc = d.memc := rfl
@[simp] theorem Dev.noteValue_hedge (a v n : Nat) : (d.noteValue a v n).hedge = d.hedge := rfl
@[simp] theorem Dev.noteValue_evt (a v n : Nat) : (d.noteValue a v n).evt = d.evt := rfl
@[simp] theorem Dev.noteValue_ctxs (a v n : Nat) : (d.noteValue a v n).ctxs = d.ctxs := rfl
@[simp] theorem Dev.noteValue_ctxCmd (a v n : Nat) : (d.noteValue a v n).ctxCmd = d.ctxCmd := rfl
@[simp] theorem Dev.noteValue_exch (a v n : Nat) : (d.noteValue a v n).exch = d.exch := rfl
@[simp] theorem Dev.noteValue_plan (a v n : Nat) : (d.noteValue a v n).plan = d.plan := rfl
@[simp] theorem Dev.noteValue_ploughs (a v n : Nat) : (d.noteValue a v n).ploughs = d.ploughs := rfl
@[simp] theorem Dev.noteValue_jobs (a v n : Nat) : (d.noteValue a v n).jobs = d.jobs := rfl
@[simp] theorem Dev.noteValue_nextId (a v n : Nat) : (d.noteValue a v n).nextId = d.nextId := rfl
@[simp] theorem Dev.noteValue_gate (a v n : Nat) : (d.noteValue a v n).gate = d.gate := rfl
@[simp] theorem Dev.noteValue_troughs (a v n : Nat) : (d.noteValue a v n).troughs = d.troughs := rfl
@[simp] theorem Dev.noteValue_bell (a v n : Nat) : (d.noteValue a v n).bell = d.bell := rfl
@[simp] theorem Dev.noteValue_yoke (a v n : Nat) : (d.noteValue a v n).yoke = d.yoke := rfl
@[simp] theorem Dev.noteValue_mill (a v n : Nat) : (d.noteValue a v n).mill = d.mill := rfl
@[simp] theorem Dev.noteValue_gran (a v n : Nat) : (d.noteValue a v n).gran = d.gran := rfl
@[simp] theorem Dev.noteValue_links (a v n : Nat) : (d.noteValue a v n).links = d.links := rfl
@[simp] theorem Dev.noteValue_hitch (a v n : Nat) : (d.noteValue a v n).hitch = d.hitch := rfl
@[simp] theorem Dev.noteValue_host (a v n : Nat) : (d.noteValue a v n).host = d.host := rfl
@[simp] theorem Dev.noteValue_stew (a v n : Nat) : (d.noteValue a v n).stew = d.stew := rfl
@[simp] theorem Dev.noteValue_reeve (a v n : Nat) : (d.noteValue a v n).reeve = d.reeve := rfl
@[simp] theorem Dev.noteValue_pwr (a v n : Nat) : (d.noteValue a v n).pwr = d.pwr := rfl
@[simp] theorem Dev.noteValue_free (a v n : Nat) : (d.noteValue a v n).free = d.free := rfl
@[simp] theorem Dev.noteValue_out (a v n : Nat) : (d.noteValue a v n).out = d.out := rfl

/-! ### hwSetBits -/

@[simp] theorem Dev.hwSetBits_clk (a m : Nat) : (d.hwSetBits a m).clk = d.clk := rfl
@[simp] theorem Dev.hwSetBits_lowHeld (a m : Nat) : (d.hwSetBits a m).lowHeld = d.lowHeld := rfl
@[simp] theorem Dev.hwSetBits_highCap (a m : Nat) : (d.hwSetBits a m).highCap = d.highCap := rfl
@[simp] theorem Dev.hwSetBits_mem (a m : Nat) : (d.hwSetBits a m).mem = d.mem := rfl
@[simp] theorem Dev.hwSetBits_ecc (a m : Nat) : (d.hwSetBits a m).ecc = d.ecc := rfl
@[simp] theorem Dev.hwSetBits_memc (a m : Nat) : (d.hwSetBits a m).memc = d.memc := rfl
@[simp] theorem Dev.hwSetBits_hedge (a m : Nat) : (d.hwSetBits a m).hedge = d.hedge := rfl
@[simp] theorem Dev.hwSetBits_evt (a m : Nat) : (d.hwSetBits a m).evt = d.evt := rfl
@[simp] theorem Dev.hwSetBits_ctxs (a m : Nat) : (d.hwSetBits a m).ctxs = d.ctxs := rfl
@[simp] theorem Dev.hwSetBits_ctxCmd (a m : Nat) : (d.hwSetBits a m).ctxCmd = d.ctxCmd := rfl
@[simp] theorem Dev.hwSetBits_exch (a m : Nat) : (d.hwSetBits a m).exch = d.exch := rfl
@[simp] theorem Dev.hwSetBits_plan (a m : Nat) : (d.hwSetBits a m).plan = d.plan := rfl
@[simp] theorem Dev.hwSetBits_ploughs (a m : Nat) : (d.hwSetBits a m).ploughs = d.ploughs := rfl
@[simp] theorem Dev.hwSetBits_jobs (a m : Nat) : (d.hwSetBits a m).jobs = d.jobs := rfl
@[simp] theorem Dev.hwSetBits_nextId (a m : Nat) : (d.hwSetBits a m).nextId = d.nextId := rfl
@[simp] theorem Dev.hwSetBits_gate (a m : Nat) : (d.hwSetBits a m).gate = d.gate := rfl
@[simp] theorem Dev.hwSetBits_troughs (a m : Nat) : (d.hwSetBits a m).troughs = d.troughs := rfl
@[simp] theorem Dev.hwSetBits_bell (a m : Nat) : (d.hwSetBits a m).bell = d.bell := rfl
@[simp] theorem Dev.hwSetBits_yoke (a m : Nat) : (d.hwSetBits a m).yoke = d.yoke := rfl
@[simp] theorem Dev.hwSetBits_mill (a m : Nat) : (d.hwSetBits a m).mill = d.mill := rfl
@[simp] theorem Dev.hwSetBits_gran (a m : Nat) : (d.hwSetBits a m).gran = d.gran := rfl
@[simp] theorem Dev.hwSetBits_links (a m : Nat) : (d.hwSetBits a m).links = d.links := rfl
@[simp] theorem Dev.hwSetBits_hitch (a m : Nat) : (d.hwSetBits a m).hitch = d.hitch := rfl
@[simp] theorem Dev.hwSetBits_host (a m : Nat) : (d.hwSetBits a m).host = d.host := rfl
@[simp] theorem Dev.hwSetBits_stew (a m : Nat) : (d.hwSetBits a m).stew = d.stew := rfl
@[simp] theorem Dev.hwSetBits_reeve (a m : Nat) : (d.hwSetBits a m).reeve = d.reeve := rfl
@[simp] theorem Dev.hwSetBits_pwr (a m : Nat) : (d.hwSetBits a m).pwr = d.pwr := rfl
@[simp] theorem Dev.hwSetBits_free (a m : Nat) : (d.hwSetBits a m).free = d.free := rfl
@[simp] theorem Dev.hwSetBits_out (a m : Nat) : (d.hwSetBits a m).out = d.out := rfl

/-! ### hwSet -/

@[simp] theorem Dev.hwSet_clk (f : FieldRef) : (d.hwSet f).clk = d.clk := rfl
@[simp] theorem Dev.hwSet_lowHeld (f : FieldRef) : (d.hwSet f).lowHeld = d.lowHeld := rfl
@[simp] theorem Dev.hwSet_highCap (f : FieldRef) : (d.hwSet f).highCap = d.highCap := rfl
@[simp] theorem Dev.hwSet_mem (f : FieldRef) : (d.hwSet f).mem = d.mem := rfl
@[simp] theorem Dev.hwSet_ecc (f : FieldRef) : (d.hwSet f).ecc = d.ecc := rfl
@[simp] theorem Dev.hwSet_memc (f : FieldRef) : (d.hwSet f).memc = d.memc := rfl
@[simp] theorem Dev.hwSet_hedge (f : FieldRef) : (d.hwSet f).hedge = d.hedge := rfl
@[simp] theorem Dev.hwSet_evt (f : FieldRef) : (d.hwSet f).evt = d.evt := rfl
@[simp] theorem Dev.hwSet_ctxs (f : FieldRef) : (d.hwSet f).ctxs = d.ctxs := rfl
@[simp] theorem Dev.hwSet_ctxCmd (f : FieldRef) : (d.hwSet f).ctxCmd = d.ctxCmd := rfl
@[simp] theorem Dev.hwSet_exch (f : FieldRef) : (d.hwSet f).exch = d.exch := rfl
@[simp] theorem Dev.hwSet_plan (f : FieldRef) : (d.hwSet f).plan = d.plan := rfl
@[simp] theorem Dev.hwSet_ploughs (f : FieldRef) : (d.hwSet f).ploughs = d.ploughs := rfl
@[simp] theorem Dev.hwSet_jobs (f : FieldRef) : (d.hwSet f).jobs = d.jobs := rfl
@[simp] theorem Dev.hwSet_nextId (f : FieldRef) : (d.hwSet f).nextId = d.nextId := rfl
@[simp] theorem Dev.hwSet_gate (f : FieldRef) : (d.hwSet f).gate = d.gate := rfl
@[simp] theorem Dev.hwSet_troughs (f : FieldRef) : (d.hwSet f).troughs = d.troughs := rfl
@[simp] theorem Dev.hwSet_bell (f : FieldRef) : (d.hwSet f).bell = d.bell := rfl
@[simp] theorem Dev.hwSet_yoke (f : FieldRef) : (d.hwSet f).yoke = d.yoke := rfl
@[simp] theorem Dev.hwSet_mill (f : FieldRef) : (d.hwSet f).mill = d.mill := rfl
@[simp] theorem Dev.hwSet_gran (f : FieldRef) : (d.hwSet f).gran = d.gran := rfl
@[simp] theorem Dev.hwSet_links (f : FieldRef) : (d.hwSet f).links = d.links := rfl
@[simp] theorem Dev.hwSet_hitch (f : FieldRef) : (d.hwSet f).hitch = d.hitch := rfl
@[simp] theorem Dev.hwSet_host (f : FieldRef) : (d.hwSet f).host = d.host := rfl
@[simp] theorem Dev.hwSet_stew (f : FieldRef) : (d.hwSet f).stew = d.stew := rfl
@[simp] theorem Dev.hwSet_reeve (f : FieldRef) : (d.hwSet f).reeve = d.reeve := rfl
@[simp] theorem Dev.hwSet_pwr (f : FieldRef) : (d.hwSet f).pwr = d.pwr := rfl
@[simp] theorem Dev.hwSet_free (f : FieldRef) : (d.hwSet f).free = d.free := rfl
@[simp] theorem Dev.hwSet_out (f : FieldRef) : (d.hwSet f).out = d.out := rfl

/-! ### hwClear -/

@[simp] theorem Dev.hwClear_clk (f : FieldRef) : (d.hwClear f).clk = d.clk := by unfold Dev.hwClear; split <;> rfl
@[simp] theorem Dev.hwClear_lowHeld (f : FieldRef) : (d.hwClear f).lowHeld = d.lowHeld := by unfold Dev.hwClear; split <;> rfl
@[simp] theorem Dev.hwClear_highCap (f : FieldRef) : (d.hwClear f).highCap = d.highCap := by unfold Dev.hwClear; split <;> rfl
@[simp] theorem Dev.hwClear_mem (f : FieldRef) : (d.hwClear f).mem = d.mem := by unfold Dev.hwClear; split <;> rfl
@[simp] theorem Dev.hwClear_ecc (f : FieldRef) : (d.hwClear f).ecc = d.ecc := by unfold Dev.hwClear; split <;> rfl
@[simp] theorem Dev.hwClear_memc (f : FieldRef) : (d.hwClear f).memc = d.memc := by unfold Dev.hwClear; split <;> rfl
@[simp] theorem Dev.hwClear_hedge (f : FieldRef) : (d.hwClear f).hedge = d.hedge := by unfold Dev.hwClear; split <;> rfl
@[simp] theorem Dev.hwClear_evt (f : FieldRef) : (d.hwClear f).evt = d.evt := by unfold Dev.hwClear; split <;> rfl
@[simp] theorem Dev.hwClear_ctxs (f : FieldRef) : (d.hwClear f).ctxs = d.ctxs := by unfold Dev.hwClear; split <;> rfl
@[simp] theorem Dev.hwClear_ctxCmd (f : FieldRef) : (d.hwClear f).ctxCmd = d.ctxCmd := by unfold Dev.hwClear; split <;> rfl
@[simp] theorem Dev.hwClear_exch (f : FieldRef) : (d.hwClear f).exch = d.exch := by unfold Dev.hwClear; split <;> rfl
@[simp] theorem Dev.hwClear_plan (f : FieldRef) : (d.hwClear f).plan = d.plan := by unfold Dev.hwClear; split <;> rfl
@[simp] theorem Dev.hwClear_ploughs (f : FieldRef) : (d.hwClear f).ploughs = d.ploughs := by unfold Dev.hwClear; split <;> rfl
@[simp] theorem Dev.hwClear_jobs (f : FieldRef) : (d.hwClear f).jobs = d.jobs := by unfold Dev.hwClear; split <;> rfl
@[simp] theorem Dev.hwClear_nextId (f : FieldRef) : (d.hwClear f).nextId = d.nextId := by unfold Dev.hwClear; split <;> rfl
@[simp] theorem Dev.hwClear_gate (f : FieldRef) : (d.hwClear f).gate = d.gate := by unfold Dev.hwClear; split <;> rfl
@[simp] theorem Dev.hwClear_troughs (f : FieldRef) : (d.hwClear f).troughs = d.troughs := by unfold Dev.hwClear; split <;> rfl
@[simp] theorem Dev.hwClear_bell (f : FieldRef) : (d.hwClear f).bell = d.bell := by unfold Dev.hwClear; split <;> rfl
@[simp] theorem Dev.hwClear_yoke (f : FieldRef) : (d.hwClear f).yoke = d.yoke := by unfold Dev.hwClear; split <;> rfl
@[simp] theorem Dev.hwClear_mill (f : FieldRef) : (d.hwClear f).mill = d.mill := by unfold Dev.hwClear; split <;> rfl
@[simp] theorem Dev.hwClear_gran (f : FieldRef) : (d.hwClear f).gran = d.gran := by unfold Dev.hwClear; split <;> rfl
@[simp] theorem Dev.hwClear_links (f : FieldRef) : (d.hwClear f).links = d.links := by unfold Dev.hwClear; split <;> rfl
@[simp] theorem Dev.hwClear_hitch (f : FieldRef) : (d.hwClear f).hitch = d.hitch := by unfold Dev.hwClear; split <;> rfl
@[simp] theorem Dev.hwClear_host (f : FieldRef) : (d.hwClear f).host = d.host := by unfold Dev.hwClear; split <;> rfl
@[simp] theorem Dev.hwClear_stew (f : FieldRef) : (d.hwClear f).stew = d.stew := by unfold Dev.hwClear; split <;> rfl
@[simp] theorem Dev.hwClear_reeve (f : FieldRef) : (d.hwClear f).reeve = d.reeve := by unfold Dev.hwClear; split <;> rfl
@[simp] theorem Dev.hwClear_pwr (f : FieldRef) : (d.hwClear f).pwr = d.pwr := by unfold Dev.hwClear; split <;> rfl
@[simp] theorem Dev.hwClear_free (f : FieldRef) : (d.hwClear f).free = d.free := by unfold Dev.hwClear; split <;> rfl
@[simp] theorem Dev.hwClear_out (f : FieldRef) : (d.hwClear f).out = d.out := by unfold Dev.hwClear; split <;> rfl

/-! ### emit -/

@[simp] theorem Dev.emit_clk (o : Output) : (d.emit o).clk = d.clk := rfl
@[simp] theorem Dev.emit_regs (o : Output) : (d.emit o).regs = d.regs := rfl
@[simp] theorem Dev.emit_lowHeld (o : Output) : (d.emit o).lowHeld = d.lowHeld := rfl
@[simp] theorem Dev.emit_same (o : Output) : (d.emit o).same = d.same := rfl
@[simp] theorem Dev.emit_highCap (o : Output) : (d.emit o).highCap = d.highCap := rfl
@[simp] theorem Dev.emit_mem (o : Output) : (d.emit o).mem = d.mem := rfl
@[simp] theorem Dev.emit_ecc (o : Output) : (d.emit o).ecc = d.ecc := rfl
@[simp] theorem Dev.emit_memc (o : Output) : (d.emit o).memc = d.memc := rfl
@[simp] theorem Dev.emit_hedge (o : Output) : (d.emit o).hedge = d.hedge := rfl
@[simp] theorem Dev.emit_evt (o : Output) : (d.emit o).evt = d.evt := rfl
@[simp] theorem Dev.emit_ctxs (o : Output) : (d.emit o).ctxs = d.ctxs := rfl
@[simp] theorem Dev.emit_ctxCmd (o : Output) : (d.emit o).ctxCmd = d.ctxCmd := rfl
@[simp] theorem Dev.emit_exch (o : Output) : (d.emit o).exch = d.exch := rfl
@[simp] theorem Dev.emit_plan (o : Output) : (d.emit o).plan = d.plan := rfl
@[simp] theorem Dev.emit_ploughs (o : Output) : (d.emit o).ploughs = d.ploughs := rfl
@[simp] theorem Dev.emit_jobs (o : Output) : (d.emit o).jobs = d.jobs := rfl
@[simp] theorem Dev.emit_nextId (o : Output) : (d.emit o).nextId = d.nextId := rfl
@[simp] theorem Dev.emit_gate (o : Output) : (d.emit o).gate = d.gate := rfl
@[simp] theorem Dev.emit_troughs (o : Output) : (d.emit o).troughs = d.troughs := rfl
@[simp] theorem Dev.emit_bell (o : Output) : (d.emit o).bell = d.bell := rfl
@[simp] theorem Dev.emit_yoke (o : Output) : (d.emit o).yoke = d.yoke := rfl
@[simp] theorem Dev.emit_mill (o : Output) : (d.emit o).mill = d.mill := rfl
@[simp] theorem Dev.emit_gran (o : Output) : (d.emit o).gran = d.gran := rfl
@[simp] theorem Dev.emit_links (o : Output) : (d.emit o).links = d.links := rfl
@[simp] theorem Dev.emit_hitch (o : Output) : (d.emit o).hitch = d.hitch := rfl
@[simp] theorem Dev.emit_host (o : Output) : (d.emit o).host = d.host := rfl
@[simp] theorem Dev.emit_stew (o : Output) : (d.emit o).stew = d.stew := rfl
@[simp] theorem Dev.emit_reeve (o : Output) : (d.emit o).reeve = d.reeve := rfl
@[simp] theorem Dev.emit_pwr (o : Output) : (d.emit o).pwr = d.pwr := rfl
@[simp] theorem Dev.emit_free (o : Output) : (d.emit o).free = d.free := rfl
@[simp] theorem Dev.emit_out (o : Output) : (d.emit o).out = o :: d.out := rfl

/-! ### fresh -/

@[simp] theorem Dev.fresh_clk : (d.fresh.2).clk = d.clk := rfl
@[simp] theorem Dev.fresh_regs : (d.fresh.2).regs = d.regs := rfl
@[simp] theorem Dev.fresh_lowHeld : (d.fresh.2).lowHeld = d.lowHeld := rfl
@[simp] theorem Dev.fresh_same : (d.fresh.2).same = d.same := rfl
@[simp] theorem Dev.fresh_highCap : (d.fresh.2).highCap = d.highCap := rfl
@[simp] theorem Dev.fresh_mem : (d.fresh.2).mem = d.mem := rfl
@[simp] theorem Dev.fresh_ecc : (d.fresh.2).ecc = d.ecc := rfl
@[simp] theorem Dev.fresh_memc : (d.fresh.2).memc = d.memc := rfl
@[simp] theorem Dev.fresh_hedge : (d.fresh.2).hedge = d.hedge := rfl
@[simp] theorem Dev.fresh_evt : (d.fresh.2).evt = d.evt := rfl
@[simp] theorem Dev.fresh_ctxs : (d.fresh.2).ctxs = d.ctxs := rfl
@[simp] theorem Dev.fresh_ctxCmd : (d.fresh.2).ctxCmd = d.ctxCmd := rfl
@[simp] theorem Dev.fresh_exch : (d.fresh.2).exch = d.exch := rfl
@[simp] theorem Dev.fresh_plan : (d.fresh.2).plan = d.plan := rfl
@[simp] theorem Dev.fresh_ploughs : (d.fresh.2).ploughs = d.ploughs := rfl
@[simp] theorem Dev.fresh_jobs : (d.fresh.2).jobs = d.jobs := rfl
@[simp] theorem Dev.fresh_nextId : (d.fresh.2).nextId = d.nextId := rfl
@[simp] theorem Dev.fresh_gate : (d.fresh.2).gate = d.gate := rfl
@[simp] theorem Dev.fresh_troughs : (d.fresh.2).troughs = d.troughs := rfl
@[simp] theorem Dev.fresh_bell : (d.fresh.2).bell = d.bell := rfl
@[simp] theorem Dev.fresh_yoke : (d.fresh.2).yoke = d.yoke := rfl
@[simp] theorem Dev.fresh_mill : (d.fresh.2).mill = d.mill := rfl
@[simp] theorem Dev.fresh_gran : (d.fresh.2).gran = d.gran := rfl
@[simp] theorem Dev.fresh_links : (d.fresh.2).links = d.links := rfl
@[simp] theorem Dev.fresh_hitch : (d.fresh.2).hitch = d.hitch := rfl
@[simp] theorem Dev.fresh_host : (d.fresh.2).host = d.host := rfl
@[simp] theorem Dev.fresh_stew : (d.fresh.2).stew = d.stew := rfl
@[simp] theorem Dev.fresh_reeve : (d.fresh.2).reeve = d.reeve := rfl
@[simp] theorem Dev.fresh_pwr : (d.fresh.2).pwr = d.pwr := rfl
@[simp] theorem Dev.fresh_free : (d.fresh.2).free = d.free + 1 := rfl
@[simp] theorem Dev.fresh_out : (d.fresh.2).out = d.out := rfl

/-! ### poke -/

@[simp] theorem Dev.poke_clk (key : Nat) (bs : List Byte) : (d.poke key bs).clk = d.clk := rfl
@[simp] theorem Dev.poke_regs (key : Nat) (bs : List Byte) : (d.poke key bs).regs = d.regs := rfl
@[simp] theorem Dev.poke_lowHeld (key : Nat) (bs : List Byte) : (d.poke key bs).lowHeld = d.lowHeld := rfl
@[simp] theorem Dev.poke_same (key : Nat) (bs : List Byte) : (d.poke key bs).same = d.same := rfl
@[simp] theorem Dev.poke_highCap (key : Nat) (bs : List Byte) : (d.poke key bs).highCap = d.highCap := rfl
@[simp] theorem Dev.poke_mem (key : Nat) (bs : List Byte) : (d.poke key bs).mem = Memory.write d.mem key bs := rfl
@[simp] theorem Dev.poke_ecc (key : Nat) (bs : List Byte) : (d.poke key bs).ecc = d.ecc := rfl
@[simp] theorem Dev.poke_memc (key : Nat) (bs : List Byte) : (d.poke key bs).memc = d.memc := rfl
@[simp] theorem Dev.poke_hedge (key : Nat) (bs : List Byte) : (d.poke key bs).hedge = d.hedge := rfl
@[simp] theorem Dev.poke_evt (key : Nat) (bs : List Byte) : (d.poke key bs).evt = d.evt := rfl
@[simp] theorem Dev.poke_ctxs (key : Nat) (bs : List Byte) : (d.poke key bs).ctxs = d.ctxs := rfl
@[simp] theorem Dev.poke_ctxCmd (key : Nat) (bs : List Byte) : (d.poke key bs).ctxCmd = d.ctxCmd := rfl
@[simp] theorem Dev.poke_exch (key : Nat) (bs : List Byte) : (d.poke key bs).exch = d.exch := rfl
@[simp] theorem Dev.poke_plan (key : Nat) (bs : List Byte) : (d.poke key bs).plan = d.plan := rfl
@[simp] theorem Dev.poke_ploughs (key : Nat) (bs : List Byte) : (d.poke key bs).ploughs = d.ploughs := rfl
@[simp] theorem Dev.poke_jobs (key : Nat) (bs : List Byte) : (d.poke key bs).jobs = d.jobs := rfl
@[simp] theorem Dev.poke_nextId (key : Nat) (bs : List Byte) : (d.poke key bs).nextId = d.nextId := rfl
@[simp] theorem Dev.poke_gate (key : Nat) (bs : List Byte) : (d.poke key bs).gate = d.gate := rfl
@[simp] theorem Dev.poke_troughs (key : Nat) (bs : List Byte) : (d.poke key bs).troughs = d.troughs := rfl
@[simp] theorem Dev.poke_bell (key : Nat) (bs : List Byte) : (d.poke key bs).bell = d.bell := rfl
@[simp] theorem Dev.poke_yoke (key : Nat) (bs : List Byte) : (d.poke key bs).yoke = d.yoke := rfl
@[simp] theorem Dev.poke_mill (key : Nat) (bs : List Byte) : (d.poke key bs).mill = d.mill := rfl
@[simp] theorem Dev.poke_gran (key : Nat) (bs : List Byte) : (d.poke key bs).gran = d.gran := rfl
@[simp] theorem Dev.poke_links (key : Nat) (bs : List Byte) : (d.poke key bs).links = d.links := rfl
@[simp] theorem Dev.poke_hitch (key : Nat) (bs : List Byte) : (d.poke key bs).hitch = d.hitch := rfl
@[simp] theorem Dev.poke_host (key : Nat) (bs : List Byte) : (d.poke key bs).host = d.host := rfl
@[simp] theorem Dev.poke_stew (key : Nat) (bs : List Byte) : (d.poke key bs).stew = d.stew := rfl
@[simp] theorem Dev.poke_reeve (key : Nat) (bs : List Byte) : (d.poke key bs).reeve = d.reeve := rfl
@[simp] theorem Dev.poke_pwr (key : Nat) (bs : List Byte) : (d.poke key bs).pwr = d.pwr := rfl
@[simp] theorem Dev.poke_free (key : Nat) (bs : List Byte) : (d.poke key bs).free = d.free := rfl
@[simp] theorem Dev.poke_out (key : Nat) (bs : List Byte) : (d.poke key bs).out = d.out := rfl

/-! ### updCtx -/

@[simp] theorem Dev.updCtx_clk (id : Nat) (f : Ctx → Ctx) : (d.updCtx id f).clk = d.clk := rfl
@[simp] theorem Dev.updCtx_regs (id : Nat) (f : Ctx → Ctx) : (d.updCtx id f).regs = d.regs := rfl
@[simp] theorem Dev.updCtx_lowHeld (id : Nat) (f : Ctx → Ctx) : (d.updCtx id f).lowHeld = d.lowHeld := rfl
@[simp] theorem Dev.updCtx_same (id : Nat) (f : Ctx → Ctx) : (d.updCtx id f).same = d.same := rfl
@[simp] theorem Dev.updCtx_highCap (id : Nat) (f : Ctx → Ctx) : (d.updCtx id f).highCap = d.highCap := rfl
@[simp] theorem Dev.updCtx_mem (id : Nat) (f : Ctx → Ctx) : (d.updCtx id f).mem = d.mem := rfl
@[simp] theorem Dev.updCtx_ecc (id : Nat) (f : Ctx → Ctx) : (d.updCtx id f).ecc = d.ecc := rfl
@[simp] theorem Dev.updCtx_memc (id : Nat) (f : Ctx → Ctx) : (d.updCtx id f).memc = d.memc := rfl
@[simp] theorem Dev.updCtx_hedge (id : Nat) (f : Ctx → Ctx) : (d.updCtx id f).hedge = d.hedge := rfl
@[simp] theorem Dev.updCtx_evt (id : Nat) (f : Ctx → Ctx) : (d.updCtx id f).evt = d.evt := rfl
@[simp] theorem Dev.updCtx_ctxs (id : Nat) (f : Ctx → Ctx) : (d.updCtx id f).ctxs = SMap.modify (fun _ => {}) d.ctxs id f := rfl
@[simp] theorem Dev.updCtx_ctxCmd (id : Nat) (f : Ctx → Ctx) : (d.updCtx id f).ctxCmd = d.ctxCmd := rfl
@[simp] theorem Dev.updCtx_exch (id : Nat) (f : Ctx → Ctx) : (d.updCtx id f).exch = d.exch := rfl
@[simp] theorem Dev.updCtx_plan (id : Nat) (f : Ctx → Ctx) : (d.updCtx id f).plan = d.plan := rfl
@[simp] theorem Dev.updCtx_ploughs (id : Nat) (f : Ctx → Ctx) : (d.updCtx id f).ploughs = d.ploughs := rfl
@[simp] theorem Dev.updCtx_jobs (id : Nat) (f : Ctx → Ctx) : (d.updCtx id f).jobs = d.jobs := rfl
@[simp] theorem Dev.updCtx_nextId (id : Nat) (f : Ctx → Ctx) : (d.updCtx id f).nextId = d.nextId := rfl
@[simp] theorem Dev.updCtx_gate (id : Nat) (f : Ctx → Ctx) : (d.updCtx id f).gate = d.gate := rfl
@[simp] theorem Dev.updCtx_troughs (id : Nat) (f : Ctx → Ctx) : (d.updCtx id f).troughs = d.troughs := rfl
@[simp] theorem Dev.updCtx_bell (id : Nat) (f : Ctx → Ctx) : (d.updCtx id f).bell = d.bell := rfl
@[simp] theorem Dev.updCtx_yoke (id : Nat) (f : Ctx → Ctx) : (d.updCtx id f).yoke = d.yoke := rfl
@[simp] theorem Dev.updCtx_mill (id : Nat) (f : Ctx → Ctx) : (d.updCtx id f).mill = d.mill := rfl
@[simp] theorem Dev.updCtx_gran (id : Nat) (f : Ctx → Ctx) : (d.updCtx id f).gran = d.gran := rfl
@[simp] theorem Dev.updCtx_links (id : Nat) (f : Ctx → Ctx) : (d.updCtx id f).links = d.links := rfl
@[simp] theorem Dev.updCtx_hitch (id : Nat) (f : Ctx → Ctx) : (d.updCtx id f).hitch = d.hitch := rfl
@[simp] theorem Dev.updCtx_host (id : Nat) (f : Ctx → Ctx) : (d.updCtx id f).host = d.host := rfl
@[simp] theorem Dev.updCtx_stew (id : Nat) (f : Ctx → Ctx) : (d.updCtx id f).stew = d.stew := rfl
@[simp] theorem Dev.updCtx_reeve (id : Nat) (f : Ctx → Ctx) : (d.updCtx id f).reeve = d.reeve := rfl
@[simp] theorem Dev.updCtx_pwr (id : Nat) (f : Ctx → Ctx) : (d.updCtx id f).pwr = d.pwr := rfl
@[simp] theorem Dev.updCtx_free (id : Nat) (f : Ctx → Ctx) : (d.updCtx id f).free = d.free := rfl
@[simp] theorem Dev.updCtx_out (id : Nat) (f : Ctx → Ctx) : (d.updCtx id f).out = d.out := rfl

/-! ### updPlough -/

@[simp] theorem Dev.updPlough_clk (n : Nat) (f : Plough → Plough) : (d.updPlough n f).clk = d.clk := rfl
@[simp] theorem Dev.updPlough_regs (n : Nat) (f : Plough → Plough) : (d.updPlough n f).regs = d.regs := rfl
@[simp] theorem Dev.updPlough_lowHeld (n : Nat) (f : Plough → Plough) : (d.updPlough n f).lowHeld = d.lowHeld := rfl
@[simp] theorem Dev.updPlough_same (n : Nat) (f : Plough → Plough) : (d.updPlough n f).same = d.same := rfl
@[simp] theorem Dev.updPlough_highCap (n : Nat) (f : Plough → Plough) : (d.updPlough n f).highCap = d.highCap := rfl
@[simp] theorem Dev.updPlough_mem (n : Nat) (f : Plough → Plough) : (d.updPlough n f).mem = d.mem := rfl
@[simp] theorem Dev.updPlough_ecc (n : Nat) (f : Plough → Plough) : (d.updPlough n f).ecc = d.ecc := rfl
@[simp] theorem Dev.updPlough_memc (n : Nat) (f : Plough → Plough) : (d.updPlough n f).memc = d.memc := rfl
@[simp] theorem Dev.updPlough_hedge (n : Nat) (f : Plough → Plough) : (d.updPlough n f).hedge = d.hedge := rfl
@[simp] theorem Dev.updPlough_evt (n : Nat) (f : Plough → Plough) : (d.updPlough n f).evt = d.evt := rfl
@[simp] theorem Dev.updPlough_ctxs (n : Nat) (f : Plough → Plough) : (d.updPlough n f).ctxs = d.ctxs := rfl
@[simp] theorem Dev.updPlough_ctxCmd (n : Nat) (f : Plough → Plough) : (d.updPlough n f).ctxCmd = d.ctxCmd := rfl
@[simp] theorem Dev.updPlough_exch (n : Nat) (f : Plough → Plough) : (d.updPlough n f).exch = d.exch := rfl
@[simp] theorem Dev.updPlough_plan (n : Nat) (f : Plough → Plough) : (d.updPlough n f).plan = d.plan := rfl
@[simp] theorem Dev.updPlough_ploughs (n : Nat) (f : Plough → Plough) : (d.updPlough n f).ploughs = SMap.modify (fun _ => {}) d.ploughs n f := rfl
@[simp] theorem Dev.updPlough_jobs (n : Nat) (f : Plough → Plough) : (d.updPlough n f).jobs = d.jobs := rfl
@[simp] theorem Dev.updPlough_nextId (n : Nat) (f : Plough → Plough) : (d.updPlough n f).nextId = d.nextId := rfl
@[simp] theorem Dev.updPlough_gate (n : Nat) (f : Plough → Plough) : (d.updPlough n f).gate = d.gate := rfl
@[simp] theorem Dev.updPlough_troughs (n : Nat) (f : Plough → Plough) : (d.updPlough n f).troughs = d.troughs := rfl
@[simp] theorem Dev.updPlough_bell (n : Nat) (f : Plough → Plough) : (d.updPlough n f).bell = d.bell := rfl
@[simp] theorem Dev.updPlough_yoke (n : Nat) (f : Plough → Plough) : (d.updPlough n f).yoke = d.yoke := rfl
@[simp] theorem Dev.updPlough_mill (n : Nat) (f : Plough → Plough) : (d.updPlough n f).mill = d.mill := rfl
@[simp] theorem Dev.updPlough_gran (n : Nat) (f : Plough → Plough) : (d.updPlough n f).gran = d.gran := rfl
@[simp] theorem Dev.updPlough_links (n : Nat) (f : Plough → Plough) : (d.updPlough n f).links = d.links := rfl
@[simp] theorem Dev.updPlough_hitch (n : Nat) (f : Plough → Plough) : (d.updPlough n f).hitch = d.hitch := rfl
@[simp] theorem Dev.updPlough_host (n : Nat) (f : Plough → Plough) : (d.updPlough n f).host = d.host := rfl
@[simp] theorem Dev.updPlough_stew (n : Nat) (f : Plough → Plough) : (d.updPlough n f).stew = d.stew := rfl
@[simp] theorem Dev.updPlough_reeve (n : Nat) (f : Plough → Plough) : (d.updPlough n f).reeve = d.reeve := rfl
@[simp] theorem Dev.updPlough_pwr (n : Nat) (f : Plough → Plough) : (d.updPlough n f).pwr = d.pwr := rfl
@[simp] theorem Dev.updPlough_free (n : Nat) (f : Plough → Plough) : (d.updPlough n f).free = d.free := rfl
@[simp] theorem Dev.updPlough_out (n : Nat) (f : Plough → Plough) : (d.updPlough n f).out = d.out := rfl

/-! ### updJob -/

@[simp] theorem Dev.updJob_clk (id : Nat) (f : Job → Job) : (d.updJob id f).clk = d.clk := rfl
@[simp] theorem Dev.updJob_regs (id : Nat) (f : Job → Job) : (d.updJob id f).regs = d.regs := rfl
@[simp] theorem Dev.updJob_lowHeld (id : Nat) (f : Job → Job) : (d.updJob id f).lowHeld = d.lowHeld := rfl
@[simp] theorem Dev.updJob_same (id : Nat) (f : Job → Job) : (d.updJob id f).same = d.same := rfl
@[simp] theorem Dev.updJob_highCap (id : Nat) (f : Job → Job) : (d.updJob id f).highCap = d.highCap := rfl
@[simp] theorem Dev.updJob_mem (id : Nat) (f : Job → Job) : (d.updJob id f).mem = d.mem := rfl
@[simp] theorem Dev.updJob_ecc (id : Nat) (f : Job → Job) : (d.updJob id f).ecc = d.ecc := rfl
@[simp] theorem Dev.updJob_memc (id : Nat) (f : Job → Job) : (d.updJob id f).memc = d.memc := rfl
@[simp] theorem Dev.updJob_hedge (id : Nat) (f : Job → Job) : (d.updJob id f).hedge = d.hedge := rfl
@[simp] theorem Dev.updJob_evt (id : Nat) (f : Job → Job) : (d.updJob id f).evt = d.evt := rfl
@[simp] theorem Dev.updJob_ctxs (id : Nat) (f : Job → Job) : (d.updJob id f).ctxs = d.ctxs := rfl
@[simp] theorem Dev.updJob_ctxCmd (id : Nat) (f : Job → Job) : (d.updJob id f).ctxCmd = d.ctxCmd := rfl
@[simp] theorem Dev.updJob_exch (id : Nat) (f : Job → Job) : (d.updJob id f).exch = d.exch := rfl
@[simp] theorem Dev.updJob_plan (id : Nat) (f : Job → Job) : (d.updJob id f).plan = d.plan := rfl
@[simp] theorem Dev.updJob_ploughs (id : Nat) (f : Job → Job) : (d.updJob id f).ploughs = d.ploughs := rfl
@[simp] theorem Dev.updJob_jobs (id : Nat) (f : Job → Job) : (d.updJob id f).jobs = d.jobs.map fun j => if j.id = id then f j else j := rfl
@[simp] theorem Dev.updJob_nextId (id : Nat) (f : Job → Job) : (d.updJob id f).nextId = d.nextId := rfl
@[simp] theorem Dev.updJob_gate (id : Nat) (f : Job → Job) : (d.updJob id f).gate = d.gate := rfl
@[simp] theorem Dev.updJob_troughs (id : Nat) (f : Job → Job) : (d.updJob id f).troughs = d.troughs := rfl
@[simp] theorem Dev.updJob_bell (id : Nat) (f : Job → Job) : (d.updJob id f).bell = d.bell := rfl
@[simp] theorem Dev.updJob_yoke (id : Nat) (f : Job → Job) : (d.updJob id f).yoke = d.yoke := rfl
@[simp] theorem Dev.updJob_mill (id : Nat) (f : Job → Job) : (d.updJob id f).mill = d.mill := rfl
@[simp] theorem Dev.updJob_gran (id : Nat) (f : Job → Job) : (d.updJob id f).gran = d.gran := rfl
@[simp] theorem Dev.updJob_links (id : Nat) (f : Job → Job) : (d.updJob id f).links = d.links := rfl
@[simp] theorem Dev.updJob_hitch (id : Nat) (f : Job → Job) : (d.updJob id f).hitch = d.hitch := rfl
@[simp] theorem Dev.updJob_host (id : Nat) (f : Job → Job) : (d.updJob id f).host = d.host := rfl
@[simp] theorem Dev.updJob_stew (id : Nat) (f : Job → Job) : (d.updJob id f).stew = d.stew := rfl
@[simp] theorem Dev.updJob_reeve (id : Nat) (f : Job → Job) : (d.updJob id f).reeve = d.reeve := rfl
@[simp] theorem Dev.updJob_pwr (id : Nat) (f : Job → Job) : (d.updJob id f).pwr = d.pwr := rfl
@[simp] theorem Dev.updJob_free (id : Nat) (f : Job → Job) : (d.updJob id f).free = d.free := rfl
@[simp] theorem Dev.updJob_out (id : Nat) (f : Job → Job) : (d.updJob id f).out = d.out := rfl

/-! ### lanesFree -/

@[simp] theorem Dev.lanesFree_clk (j : Job) : (d.lanesFree j).clk = d.clk := rfl
@[simp] theorem Dev.lanesFree_regs (j : Job) : (d.lanesFree j).regs = d.regs := rfl
@[simp] theorem Dev.lanesFree_lowHeld (j : Job) : (d.lanesFree j).lowHeld = d.lowHeld := rfl
@[simp] theorem Dev.lanesFree_same (j : Job) : (d.lanesFree j).same = d.same := rfl
@[simp] theorem Dev.lanesFree_highCap (j : Job) : (d.lanesFree j).highCap = d.highCap := rfl
@[simp] theorem Dev.lanesFree_mem (j : Job) : (d.lanesFree j).mem = d.mem := rfl
@[simp] theorem Dev.lanesFree_ecc (j : Job) : (d.lanesFree j).ecc = d.ecc := rfl
@[simp] theorem Dev.lanesFree_memc (j : Job) : (d.lanesFree j).memc = d.memc := rfl
@[simp] theorem Dev.lanesFree_hedge (j : Job) : (d.lanesFree j).hedge = d.hedge := rfl
@[simp] theorem Dev.lanesFree_evt (j : Job) : (d.lanesFree j).evt = d.evt := rfl
@[simp] theorem Dev.lanesFree_ctxs (j : Job) : (d.lanesFree j).ctxs = d.ctxs := rfl
@[simp] theorem Dev.lanesFree_ctxCmd (j : Job) : (d.lanesFree j).ctxCmd = d.ctxCmd := rfl
@[simp] theorem Dev.lanesFree_exch (j : Job) : (d.lanesFree j).exch = d.exch := rfl
@[simp] theorem Dev.lanesFree_plan (j : Job) : (d.lanesFree j).plan = d.plan := rfl
@[simp] theorem Dev.lanesFree_ploughs (j : Job) : (d.lanesFree j).ploughs = d.ploughs := rfl
@[simp] theorem Dev.lanesFree_jobs (j : Job) : (d.lanesFree j).jobs = d.jobs := rfl
@[simp] theorem Dev.lanesFree_nextId (j : Job) : (d.lanesFree j).nextId = d.nextId := rfl
@[simp] theorem Dev.lanesFree_gate (j : Job) : (d.lanesFree j).gate = d.gate := rfl
@[simp] theorem Dev.lanesFree_troughs (j : Job) : (d.lanesFree j).troughs = d.troughs := rfl
@[simp] theorem Dev.lanesFree_bell (j : Job) : (d.lanesFree j).bell = d.bell := rfl
@[simp] theorem Dev.lanesFree_yoke (j : Job) : (d.lanesFree j).yoke = d.yoke := rfl
@[simp] theorem Dev.lanesFree_mill (j : Job) : (d.lanesFree j).mill = d.mill := rfl
@[simp] theorem Dev.lanesFree_gran (j : Job) : (d.lanesFree j).gran = d.gran := rfl
@[simp] theorem Dev.lanesFree_links (j : Job) : (d.lanesFree j).links = d.links := rfl
@[simp] theorem Dev.lanesFree_hitch (j : Job) : (d.lanesFree j).hitch = d.hitch := rfl
@[simp] theorem Dev.lanesFree_host (j : Job) : (d.lanesFree j).host = d.host := rfl
@[simp] theorem Dev.lanesFree_stew (j : Job) : (d.lanesFree j).stew = d.stew := rfl
@[simp] theorem Dev.lanesFree_pwr (j : Job) : (d.lanesFree j).pwr = d.pwr := rfl
@[simp] theorem Dev.lanesFree_free (j : Job) : (d.lanesFree j).free = d.free := rfl
@[simp] theorem Dev.lanesFree_out (j : Job) : (d.lanesFree j).out = d.out := rfl

/-! ### dropJob -/

@[simp] theorem Dev.dropJob_clk (id : Nat) : (d.dropJob id).clk = d.clk := rfl
@[simp] theorem Dev.dropJob_regs (id : Nat) : (d.dropJob id).regs = d.regs := rfl
@[simp] theorem Dev.dropJob_lowHeld (id : Nat) : (d.dropJob id).lowHeld = d.lowHeld := rfl
@[simp] theorem Dev.dropJob_same (id : Nat) : (d.dropJob id).same = d.same := rfl
@[simp] theorem Dev.dropJob_highCap (id : Nat) : (d.dropJob id).highCap = d.highCap := rfl
@[simp] theorem Dev.dropJob_mem (id : Nat) : (d.dropJob id).mem = d.mem := rfl
@[simp] theorem Dev.dropJob_ecc (id : Nat) : (d.dropJob id).ecc = d.ecc := rfl
@[simp] theorem Dev.dropJob_memc (id : Nat) : (d.dropJob id).memc = d.memc := rfl
@[simp] theorem Dev.dropJob_hedge (id : Nat) : (d.dropJob id).hedge = d.hedge := rfl
@[simp] theorem Dev.dropJob_evt (id : Nat) : (d.dropJob id).evt = d.evt := rfl
@[simp] theorem Dev.dropJob_ctxs (id : Nat) : (d.dropJob id).ctxs = d.ctxs := rfl
@[simp] theorem Dev.dropJob_ctxCmd (id : Nat) : (d.dropJob id).ctxCmd = d.ctxCmd := rfl
@[simp] theorem Dev.dropJob_exch (id : Nat) : (d.dropJob id).exch = d.exch := rfl
@[simp] theorem Dev.dropJob_plan (id : Nat) : (d.dropJob id).plan = d.plan := rfl
@[simp] theorem Dev.dropJob_ploughs (id : Nat) : (d.dropJob id).ploughs = d.ploughs := rfl
@[simp] theorem Dev.dropJob_jobs (id : Nat) : (d.dropJob id).jobs = d.jobs.filter fun j => j.id != id := rfl
@[simp] theorem Dev.dropJob_nextId (id : Nat) : (d.dropJob id).nextId = d.nextId := rfl
@[simp] theorem Dev.dropJob_gate (id : Nat) : (d.dropJob id).gate = d.gate := rfl
@[simp] theorem Dev.dropJob_troughs (id : Nat) : (d.dropJob id).troughs = d.troughs := rfl
@[simp] theorem Dev.dropJob_bell (id : Nat) : (d.dropJob id).bell = d.bell := rfl
@[simp] theorem Dev.dropJob_yoke (id : Nat) : (d.dropJob id).yoke = d.yoke := rfl
@[simp] theorem Dev.dropJob_mill (id : Nat) : (d.dropJob id).mill = d.mill := rfl
@[simp] theorem Dev.dropJob_gran (id : Nat) : (d.dropJob id).gran = d.gran := rfl
@[simp] theorem Dev.dropJob_links (id : Nat) : (d.dropJob id).links = d.links := rfl
@[simp] theorem Dev.dropJob_hitch (id : Nat) : (d.dropJob id).hitch = d.hitch := rfl
@[simp] theorem Dev.dropJob_host (id : Nat) : (d.dropJob id).host = d.host := rfl
@[simp] theorem Dev.dropJob_stew (id : Nat) : (d.dropJob id).stew = d.stew := rfl
@[simp] theorem Dev.dropJob_reeve (id : Nat) : (d.dropJob id).reeve = d.reeve := rfl
@[simp] theorem Dev.dropJob_pwr (id : Nat) : (d.dropJob id).pwr = d.pwr := rfl
@[simp] theorem Dev.dropJob_free (id : Nat) : (d.dropJob id).free = d.free := rfl
@[simp] theorem Dev.dropJob_out (id : Nat) : (d.dropJob id).out = d.out := rfl

/-! ### updHedge -/

@[simp] theorem Dev.updHedge_clk (f : HedgeState → HedgeState) : (d.updHedge f).clk = d.clk := rfl
@[simp] theorem Dev.updHedge_regs (f : HedgeState → HedgeState) : (d.updHedge f).regs = d.regs := rfl
@[simp] theorem Dev.updHedge_lowHeld (f : HedgeState → HedgeState) : (d.updHedge f).lowHeld = d.lowHeld := rfl
@[simp] theorem Dev.updHedge_same (f : HedgeState → HedgeState) : (d.updHedge f).same = d.same := rfl
@[simp] theorem Dev.updHedge_highCap (f : HedgeState → HedgeState) : (d.updHedge f).highCap = d.highCap := rfl
@[simp] theorem Dev.updHedge_mem (f : HedgeState → HedgeState) : (d.updHedge f).mem = d.mem := rfl
@[simp] theorem Dev.updHedge_ecc (f : HedgeState → HedgeState) : (d.updHedge f).ecc = d.ecc := rfl
@[simp] theorem Dev.updHedge_memc (f : HedgeState → HedgeState) : (d.updHedge f).memc = d.memc := rfl
@[simp] theorem Dev.updHedge_hedge (f : HedgeState → HedgeState) : (d.updHedge f).hedge = f d.hedge := rfl
@[simp] theorem Dev.updHedge_evt (f : HedgeState → HedgeState) : (d.updHedge f).evt = d.evt := rfl
@[simp] theorem Dev.updHedge_ctxs (f : HedgeState → HedgeState) : (d.updHedge f).ctxs = d.ctxs := rfl
@[simp] theorem Dev.updHedge_ctxCmd (f : HedgeState → HedgeState) : (d.updHedge f).ctxCmd = d.ctxCmd := rfl
@[simp] theorem Dev.updHedge_exch (f : HedgeState → HedgeState) : (d.updHedge f).exch = d.exch := rfl
@[simp] theorem Dev.updHedge_plan (f : HedgeState → HedgeState) : (d.updHedge f).plan = d.plan := rfl
@[simp] theorem Dev.updHedge_ploughs (f : HedgeState → HedgeState) : (d.updHedge f).ploughs = d.ploughs := rfl
@[simp] theorem Dev.updHedge_jobs (f : HedgeState → HedgeState) : (d.updHedge f).jobs = d.jobs := rfl
@[simp] theorem Dev.updHedge_nextId (f : HedgeState → HedgeState) : (d.updHedge f).nextId = d.nextId := rfl
@[simp] theorem Dev.updHedge_gate (f : HedgeState → HedgeState) : (d.updHedge f).gate = d.gate := rfl
@[simp] theorem Dev.updHedge_troughs (f : HedgeState → HedgeState) : (d.updHedge f).troughs = d.troughs := rfl
@[simp] theorem Dev.updHedge_bell (f : HedgeState → HedgeState) : (d.updHedge f).bell = d.bell := rfl
@[simp] theorem Dev.updHedge_yoke (f : HedgeState → HedgeState) : (d.updHedge f).yoke = d.yoke := rfl
@[simp] theorem Dev.updHedge_mill (f : HedgeState → HedgeState) : (d.updHedge f).mill = d.mill := rfl
@[simp] theorem Dev.updHedge_gran (f : HedgeState → HedgeState) : (d.updHedge f).gran = d.gran := rfl
@[simp] theorem Dev.updHedge_links (f : HedgeState → HedgeState) : (d.updHedge f).links = d.links := rfl
@[simp] theorem Dev.updHedge_hitch (f : HedgeState → HedgeState) : (d.updHedge f).hitch = d.hitch := rfl
@[simp] theorem Dev.updHedge_host (f : HedgeState → HedgeState) : (d.updHedge f).host = d.host := rfl
@[simp] theorem Dev.updHedge_stew (f : HedgeState → HedgeState) : (d.updHedge f).stew = d.stew := rfl
@[simp] theorem Dev.updHedge_reeve (f : HedgeState → HedgeState) : (d.updHedge f).reeve = d.reeve := rfl
@[simp] theorem Dev.updHedge_pwr (f : HedgeState → HedgeState) : (d.updHedge f).pwr = d.pwr := rfl
@[simp] theorem Dev.updHedge_free (f : HedgeState → HedgeState) : (d.updHedge f).free = d.free := rfl
@[simp] theorem Dev.updHedge_out (f : HedgeState → HedgeState) : (d.updHedge f).out = d.out := rfl

/-! ### updEvt -/

@[simp] theorem Dev.updEvt_clk (f : EvtState → EvtState) : (d.updEvt f).clk = d.clk := rfl
@[simp] theorem Dev.updEvt_regs (f : EvtState → EvtState) : (d.updEvt f).regs = d.regs := rfl
@[simp] theorem Dev.updEvt_lowHeld (f : EvtState → EvtState) : (d.updEvt f).lowHeld = d.lowHeld := rfl
@[simp] theorem Dev.updEvt_same (f : EvtState → EvtState) : (d.updEvt f).same = d.same := rfl
@[simp] theorem Dev.updEvt_highCap (f : EvtState → EvtState) : (d.updEvt f).highCap = d.highCap := rfl
@[simp] theorem Dev.updEvt_mem (f : EvtState → EvtState) : (d.updEvt f).mem = d.mem := rfl
@[simp] theorem Dev.updEvt_ecc (f : EvtState → EvtState) : (d.updEvt f).ecc = d.ecc := rfl
@[simp] theorem Dev.updEvt_memc (f : EvtState → EvtState) : (d.updEvt f).memc = d.memc := rfl
@[simp] theorem Dev.updEvt_hedge (f : EvtState → EvtState) : (d.updEvt f).hedge = d.hedge := rfl
@[simp] theorem Dev.updEvt_evt (f : EvtState → EvtState) : (d.updEvt f).evt = f d.evt := rfl
@[simp] theorem Dev.updEvt_ctxs (f : EvtState → EvtState) : (d.updEvt f).ctxs = d.ctxs := rfl
@[simp] theorem Dev.updEvt_ctxCmd (f : EvtState → EvtState) : (d.updEvt f).ctxCmd = d.ctxCmd := rfl
@[simp] theorem Dev.updEvt_exch (f : EvtState → EvtState) : (d.updEvt f).exch = d.exch := rfl
@[simp] theorem Dev.updEvt_plan (f : EvtState → EvtState) : (d.updEvt f).plan = d.plan := rfl
@[simp] theorem Dev.updEvt_ploughs (f : EvtState → EvtState) : (d.updEvt f).ploughs = d.ploughs := rfl
@[simp] theorem Dev.updEvt_jobs (f : EvtState → EvtState) : (d.updEvt f).jobs = d.jobs := rfl
@[simp] theorem Dev.updEvt_nextId (f : EvtState → EvtState) : (d.updEvt f).nextId = d.nextId := rfl
@[simp] theorem Dev.updEvt_gate (f : EvtState → EvtState) : (d.updEvt f).gate = d.gate := rfl
@[simp] theorem Dev.updEvt_troughs (f : EvtState → EvtState) : (d.updEvt f).troughs = d.troughs := rfl
@[simp] theorem Dev.updEvt_bell (f : EvtState → EvtState) : (d.updEvt f).bell = d.bell := rfl
@[simp] theorem Dev.updEvt_yoke (f : EvtState → EvtState) : (d.updEvt f).yoke = d.yoke := rfl
@[simp] theorem Dev.updEvt_mill (f : EvtState → EvtState) : (d.updEvt f).mill = d.mill := rfl
@[simp] theorem Dev.updEvt_gran (f : EvtState → EvtState) : (d.updEvt f).gran = d.gran := rfl
@[simp] theorem Dev.updEvt_links (f : EvtState → EvtState) : (d.updEvt f).links = d.links := rfl
@[simp] theorem Dev.updEvt_hitch (f : EvtState → EvtState) : (d.updEvt f).hitch = d.hitch := rfl
@[simp] theorem Dev.updEvt_host (f : EvtState → EvtState) : (d.updEvt f).host = d.host := rfl
@[simp] theorem Dev.updEvt_stew (f : EvtState → EvtState) : (d.updEvt f).stew = d.stew := rfl
@[simp] theorem Dev.updEvt_reeve (f : EvtState → EvtState) : (d.updEvt f).reeve = d.reeve := rfl
@[simp] theorem Dev.updEvt_pwr (f : EvtState → EvtState) : (d.updEvt f).pwr = d.pwr := rfl
@[simp] theorem Dev.updEvt_free (f : EvtState → EvtState) : (d.updEvt f).free = d.free := rfl
@[simp] theorem Dev.updEvt_out (f : EvtState → EvtState) : (d.updEvt f).out = d.out := rfl

/-! ### updGate -/

@[simp] theorem Dev.updGate_clk (f : GateState → GateState) : (d.updGate f).clk = d.clk := rfl
@[simp] theorem Dev.updGate_regs (f : GateState → GateState) : (d.updGate f).regs = d.regs := rfl
@[simp] theorem Dev.updGate_lowHeld (f : GateState → GateState) : (d.updGate f).lowHeld = d.lowHeld := rfl
@[simp] theorem Dev.updGate_same (f : GateState → GateState) : (d.updGate f).same = d.same := rfl
@[simp] theorem Dev.updGate_highCap (f : GateState → GateState) : (d.updGate f).highCap = d.highCap := rfl
@[simp] theorem Dev.updGate_mem (f : GateState → GateState) : (d.updGate f).mem = d.mem := rfl
@[simp] theorem Dev.updGate_ecc (f : GateState → GateState) : (d.updGate f).ecc = d.ecc := rfl
@[simp] theorem Dev.updGate_memc (f : GateState → GateState) : (d.updGate f).memc = d.memc := rfl
@[simp] theorem Dev.updGate_hedge (f : GateState → GateState) : (d.updGate f).hedge = d.hedge := rfl
@[simp] theorem Dev.updGate_evt (f : GateState → GateState) : (d.updGate f).evt = d.evt := rfl
@[simp] theorem Dev.updGate_ctxs (f : GateState → GateState) : (d.updGate f).ctxs = d.ctxs := rfl
@[simp] theorem Dev.updGate_ctxCmd (f : GateState → GateState) : (d.updGate f).ctxCmd = d.ctxCmd := rfl
@[simp] theorem Dev.updGate_exch (f : GateState → GateState) : (d.updGate f).exch = d.exch := rfl
@[simp] theorem Dev.updGate_plan (f : GateState → GateState) : (d.updGate f).plan = d.plan := rfl
@[simp] theorem Dev.updGate_ploughs (f : GateState → GateState) : (d.updGate f).ploughs = d.ploughs := rfl
@[simp] theorem Dev.updGate_jobs (f : GateState → GateState) : (d.updGate f).jobs = d.jobs := rfl
@[simp] theorem Dev.updGate_nextId (f : GateState → GateState) : (d.updGate f).nextId = d.nextId := rfl
@[simp] theorem Dev.updGate_gate (f : GateState → GateState) : (d.updGate f).gate = f d.gate := rfl
@[simp] theorem Dev.updGate_troughs (f : GateState → GateState) : (d.updGate f).troughs = d.troughs := rfl
@[simp] theorem Dev.updGate_bell (f : GateState → GateState) : (d.updGate f).bell = d.bell := rfl
@[simp] theorem Dev.updGate_yoke (f : GateState → GateState) : (d.updGate f).yoke = d.yoke := rfl
@[simp] theorem Dev.updGate_mill (f : GateState → GateState) : (d.updGate f).mill = d.mill := rfl
@[simp] theorem Dev.updGate_gran (f : GateState → GateState) : (d.updGate f).gran = d.gran := rfl
@[simp] theorem Dev.updGate_links (f : GateState → GateState) : (d.updGate f).links = d.links := rfl
@[simp] theorem Dev.updGate_hitch (f : GateState → GateState) : (d.updGate f).hitch = d.hitch := rfl
@[simp] theorem Dev.updGate_host (f : GateState → GateState) : (d.updGate f).host = d.host := rfl
@[simp] theorem Dev.updGate_stew (f : GateState → GateState) : (d.updGate f).stew = d.stew := rfl
@[simp] theorem Dev.updGate_reeve (f : GateState → GateState) : (d.updGate f).reeve = d.reeve := rfl
@[simp] theorem Dev.updGate_pwr (f : GateState → GateState) : (d.updGate f).pwr = d.pwr := rfl
@[simp] theorem Dev.updGate_free (f : GateState → GateState) : (d.updGate f).free = d.free := rfl
@[simp] theorem Dev.updGate_out (f : GateState → GateState) : (d.updGate f).out = d.out := rfl

/-! ### updBell -/

@[simp] theorem Dev.updBell_clk (f : BellState → BellState) : (d.updBell f).clk = d.clk := rfl
@[simp] theorem Dev.updBell_regs (f : BellState → BellState) : (d.updBell f).regs = d.regs := rfl
@[simp] theorem Dev.updBell_lowHeld (f : BellState → BellState) : (d.updBell f).lowHeld = d.lowHeld := rfl
@[simp] theorem Dev.updBell_same (f : BellState → BellState) : (d.updBell f).same = d.same := rfl
@[simp] theorem Dev.updBell_highCap (f : BellState → BellState) : (d.updBell f).highCap = d.highCap := rfl
@[simp] theorem Dev.updBell_mem (f : BellState → BellState) : (d.updBell f).mem = d.mem := rfl
@[simp] theorem Dev.updBell_ecc (f : BellState → BellState) : (d.updBell f).ecc = d.ecc := rfl
@[simp] theorem Dev.updBell_memc (f : BellState → BellState) : (d.updBell f).memc = d.memc := rfl
@[simp] theorem Dev.updBell_hedge (f : BellState → BellState) : (d.updBell f).hedge = d.hedge := rfl
@[simp] theorem Dev.updBell_evt (f : BellState → BellState) : (d.updBell f).evt = d.evt := rfl
@[simp] theorem Dev.updBell_ctxs (f : BellState → BellState) : (d.updBell f).ctxs = d.ctxs := rfl
@[simp] theorem Dev.updBell_ctxCmd (f : BellState → BellState) : (d.updBell f).ctxCmd = d.ctxCmd := rfl
@[simp] theorem Dev.updBell_exch (f : BellState → BellState) : (d.updBell f).exch = d.exch := rfl
@[simp] theorem Dev.updBell_plan (f : BellState → BellState) : (d.updBell f).plan = d.plan := rfl
@[simp] theorem Dev.updBell_ploughs (f : BellState → BellState) : (d.updBell f).ploughs = d.ploughs := rfl
@[simp] theorem Dev.updBell_jobs (f : BellState → BellState) : (d.updBell f).jobs = d.jobs := rfl
@[simp] theorem Dev.updBell_nextId (f : BellState → BellState) : (d.updBell f).nextId = d.nextId := rfl
@[simp] theorem Dev.updBell_gate (f : BellState → BellState) : (d.updBell f).gate = d.gate := rfl
@[simp] theorem Dev.updBell_troughs (f : BellState → BellState) : (d.updBell f).troughs = d.troughs := rfl
@[simp] theorem Dev.updBell_bell (f : BellState → BellState) : (d.updBell f).bell = f d.bell := rfl
@[simp] theorem Dev.updBell_yoke (f : BellState → BellState) : (d.updBell f).yoke = d.yoke := rfl
@[simp] theorem Dev.updBell_mill (f : BellState → BellState) : (d.updBell f).mill = d.mill := rfl
@[simp] theorem Dev.updBell_gran (f : BellState → BellState) : (d.updBell f).gran = d.gran := rfl
@[simp] theorem Dev.updBell_links (f : BellState → BellState) : (d.updBell f).links = d.links := rfl
@[simp] theorem Dev.updBell_hitch (f : BellState → BellState) : (d.updBell f).hitch = d.hitch := rfl
@[simp] theorem Dev.updBell_host (f : BellState → BellState) : (d.updBell f).host = d.host := rfl
@[simp] theorem Dev.updBell_stew (f : BellState → BellState) : (d.updBell f).stew = d.stew := rfl
@[simp] theorem Dev.updBell_reeve (f : BellState → BellState) : (d.updBell f).reeve = d.reeve := rfl
@[simp] theorem Dev.updBell_pwr (f : BellState → BellState) : (d.updBell f).pwr = d.pwr := rfl
@[simp] theorem Dev.updBell_free (f : BellState → BellState) : (d.updBell f).free = d.free := rfl
@[simp] theorem Dev.updBell_out (f : BellState → BellState) : (d.updBell f).out = d.out := rfl

/-! ### updMill -/

@[simp] theorem Dev.updMill_clk (f : MillState → MillState) : (d.updMill f).clk = d.clk := rfl
@[simp] theorem Dev.updMill_regs (f : MillState → MillState) : (d.updMill f).regs = d.regs := rfl
@[simp] theorem Dev.updMill_lowHeld (f : MillState → MillState) : (d.updMill f).lowHeld = d.lowHeld := rfl
@[simp] theorem Dev.updMill_same (f : MillState → MillState) : (d.updMill f).same = d.same := rfl
@[simp] theorem Dev.updMill_highCap (f : MillState → MillState) : (d.updMill f).highCap = d.highCap := rfl
@[simp] theorem Dev.updMill_mem (f : MillState → MillState) : (d.updMill f).mem = d.mem := rfl
@[simp] theorem Dev.updMill_ecc (f : MillState → MillState) : (d.updMill f).ecc = d.ecc := rfl
@[simp] theorem Dev.updMill_memc (f : MillState → MillState) : (d.updMill f).memc = d.memc := rfl
@[simp] theorem Dev.updMill_hedge (f : MillState → MillState) : (d.updMill f).hedge = d.hedge := rfl
@[simp] theorem Dev.updMill_evt (f : MillState → MillState) : (d.updMill f).evt = d.evt := rfl
@[simp] theorem Dev.updMill_ctxs (f : MillState → MillState) : (d.updMill f).ctxs = d.ctxs := rfl
@[simp] theorem Dev.updMill_ctxCmd (f : MillState → MillState) : (d.updMill f).ctxCmd = d.ctxCmd := rfl
@[simp] theorem Dev.updMill_exch (f : MillState → MillState) : (d.updMill f).exch = d.exch := rfl
@[simp] theorem Dev.updMill_plan (f : MillState → MillState) : (d.updMill f).plan = d.plan := rfl
@[simp] theorem Dev.updMill_ploughs (f : MillState → MillState) : (d.updMill f).ploughs = d.ploughs := rfl
@[simp] theorem Dev.updMill_jobs (f : MillState → MillState) : (d.updMill f).jobs = d.jobs := rfl
@[simp] theorem Dev.updMill_nextId (f : MillState → MillState) : (d.updMill f).nextId = d.nextId := rfl
@[simp] theorem Dev.updMill_gate (f : MillState → MillState) : (d.updMill f).gate = d.gate := rfl
@[simp] theorem Dev.updMill_troughs (f : MillState → MillState) : (d.updMill f).troughs = d.troughs := rfl
@[simp] theorem Dev.updMill_bell (f : MillState → MillState) : (d.updMill f).bell = d.bell := rfl
@[simp] theorem Dev.updMill_yoke (f : MillState → MillState) : (d.updMill f).yoke = d.yoke := rfl
@[simp] theorem Dev.updMill_mill (f : MillState → MillState) : (d.updMill f).mill = f d.mill := rfl
@[simp] theorem Dev.updMill_gran (f : MillState → MillState) : (d.updMill f).gran = d.gran := rfl
@[simp] theorem Dev.updMill_links (f : MillState → MillState) : (d.updMill f).links = d.links := rfl
@[simp] theorem Dev.updMill_hitch (f : MillState → MillState) : (d.updMill f).hitch = d.hitch := rfl
@[simp] theorem Dev.updMill_host (f : MillState → MillState) : (d.updMill f).host = d.host := rfl
@[simp] theorem Dev.updMill_stew (f : MillState → MillState) : (d.updMill f).stew = d.stew := rfl
@[simp] theorem Dev.updMill_reeve (f : MillState → MillState) : (d.updMill f).reeve = d.reeve := rfl
@[simp] theorem Dev.updMill_pwr (f : MillState → MillState) : (d.updMill f).pwr = d.pwr := rfl
@[simp] theorem Dev.updMill_free (f : MillState → MillState) : (d.updMill f).free = d.free := rfl
@[simp] theorem Dev.updMill_out (f : MillState → MillState) : (d.updMill f).out = d.out := rfl

/-! ### updLport -/

@[simp] theorem Dev.updLport_clk (p : Nat) (f : LinkPort → LinkPort) : (d.updLport p f).clk = d.clk := rfl
@[simp] theorem Dev.updLport_regs (p : Nat) (f : LinkPort → LinkPort) : (d.updLport p f).regs = d.regs := rfl
@[simp] theorem Dev.updLport_lowHeld (p : Nat) (f : LinkPort → LinkPort) : (d.updLport p f).lowHeld = d.lowHeld := rfl
@[simp] theorem Dev.updLport_same (p : Nat) (f : LinkPort → LinkPort) : (d.updLport p f).same = d.same := rfl
@[simp] theorem Dev.updLport_highCap (p : Nat) (f : LinkPort → LinkPort) : (d.updLport p f).highCap = d.highCap := rfl
@[simp] theorem Dev.updLport_mem (p : Nat) (f : LinkPort → LinkPort) : (d.updLport p f).mem = d.mem := rfl
@[simp] theorem Dev.updLport_ecc (p : Nat) (f : LinkPort → LinkPort) : (d.updLport p f).ecc = d.ecc := rfl
@[simp] theorem Dev.updLport_memc (p : Nat) (f : LinkPort → LinkPort) : (d.updLport p f).memc = d.memc := rfl
@[simp] theorem Dev.updLport_hedge (p : Nat) (f : LinkPort → LinkPort) : (d.updLport p f).hedge = d.hedge := rfl
@[simp] theorem Dev.updLport_evt (p : Nat) (f : LinkPort → LinkPort) : (d.updLport p f).evt = d.evt := rfl
@[simp] theorem Dev.updLport_ctxs (p : Nat) (f : LinkPort → LinkPort) : (d.updLport p f).ctxs = d.ctxs := rfl
@[simp] theorem Dev.updLport_ctxCmd (p : Nat) (f : LinkPort → LinkPort) : (d.updLport p f).ctxCmd = d.ctxCmd := rfl
@[simp] theorem Dev.updLport_exch (p : Nat) (f : LinkPort → LinkPort) : (d.updLport p f).exch = d.exch := rfl
@[simp] theorem Dev.updLport_plan (p : Nat) (f : LinkPort → LinkPort) : (d.updLport p f).plan = d.plan := rfl
@[simp] theorem Dev.updLport_ploughs (p : Nat) (f : LinkPort → LinkPort) : (d.updLport p f).ploughs = d.ploughs := rfl
@[simp] theorem Dev.updLport_jobs (p : Nat) (f : LinkPort → LinkPort) : (d.updLport p f).jobs = d.jobs := rfl
@[simp] theorem Dev.updLport_nextId (p : Nat) (f : LinkPort → LinkPort) : (d.updLport p f).nextId = d.nextId := rfl
@[simp] theorem Dev.updLport_gate (p : Nat) (f : LinkPort → LinkPort) : (d.updLport p f).gate = d.gate := rfl
@[simp] theorem Dev.updLport_troughs (p : Nat) (f : LinkPort → LinkPort) : (d.updLport p f).troughs = d.troughs := rfl
@[simp] theorem Dev.updLport_bell (p : Nat) (f : LinkPort → LinkPort) : (d.updLport p f).bell = d.bell := rfl
@[simp] theorem Dev.updLport_yoke (p : Nat) (f : LinkPort → LinkPort) : (d.updLport p f).yoke = d.yoke := rfl
@[simp] theorem Dev.updLport_mill (p : Nat) (f : LinkPort → LinkPort) : (d.updLport p f).mill = d.mill := rfl
@[simp] theorem Dev.updLport_gran (p : Nat) (f : LinkPort → LinkPort) : (d.updLport p f).gran = d.gran := rfl
@[simp] theorem Dev.updLport_hitch (p : Nat) (f : LinkPort → LinkPort) : (d.updLport p f).hitch = d.hitch := rfl
@[simp] theorem Dev.updLport_host (p : Nat) (f : LinkPort → LinkPort) : (d.updLport p f).host = d.host := rfl
@[simp] theorem Dev.updLport_stew (p : Nat) (f : LinkPort → LinkPort) : (d.updLport p f).stew = d.stew := rfl
@[simp] theorem Dev.updLport_reeve (p : Nat) (f : LinkPort → LinkPort) : (d.updLport p f).reeve = d.reeve := rfl
@[simp] theorem Dev.updLport_pwr (p : Nat) (f : LinkPort → LinkPort) : (d.updLport p f).pwr = d.pwr := rfl
@[simp] theorem Dev.updLport_free (p : Nat) (f : LinkPort → LinkPort) : (d.updLport p f).free = d.free := rfl
@[simp] theorem Dev.updLport_out (p : Nat) (f : LinkPort → LinkPort) : (d.updLport p f).out = d.out := rfl

/-! ### updHitch -/

@[simp] theorem Dev.updHitch_clk (f : HitchState → HitchState) : (d.updHitch f).clk = d.clk := rfl
@[simp] theorem Dev.updHitch_regs (f : HitchState → HitchState) : (d.updHitch f).regs = d.regs := rfl
@[simp] theorem Dev.updHitch_lowHeld (f : HitchState → HitchState) : (d.updHitch f).lowHeld = d.lowHeld := rfl
@[simp] theorem Dev.updHitch_same (f : HitchState → HitchState) : (d.updHitch f).same = d.same := rfl
@[simp] theorem Dev.updHitch_highCap (f : HitchState → HitchState) : (d.updHitch f).highCap = d.highCap := rfl
@[simp] theorem Dev.updHitch_mem (f : HitchState → HitchState) : (d.updHitch f).mem = d.mem := rfl
@[simp] theorem Dev.updHitch_ecc (f : HitchState → HitchState) : (d.updHitch f).ecc = d.ecc := rfl
@[simp] theorem Dev.updHitch_memc (f : HitchState → HitchState) : (d.updHitch f).memc = d.memc := rfl
@[simp] theorem Dev.updHitch_hedge (f : HitchState → HitchState) : (d.updHitch f).hedge = d.hedge := rfl
@[simp] theorem Dev.updHitch_evt (f : HitchState → HitchState) : (d.updHitch f).evt = d.evt := rfl
@[simp] theorem Dev.updHitch_ctxs (f : HitchState → HitchState) : (d.updHitch f).ctxs = d.ctxs := rfl
@[simp] theorem Dev.updHitch_ctxCmd (f : HitchState → HitchState) : (d.updHitch f).ctxCmd = d.ctxCmd := rfl
@[simp] theorem Dev.updHitch_exch (f : HitchState → HitchState) : (d.updHitch f).exch = d.exch := rfl
@[simp] theorem Dev.updHitch_plan (f : HitchState → HitchState) : (d.updHitch f).plan = d.plan := rfl
@[simp] theorem Dev.updHitch_ploughs (f : HitchState → HitchState) : (d.updHitch f).ploughs = d.ploughs := rfl
@[simp] theorem Dev.updHitch_jobs (f : HitchState → HitchState) : (d.updHitch f).jobs = d.jobs := rfl
@[simp] theorem Dev.updHitch_nextId (f : HitchState → HitchState) : (d.updHitch f).nextId = d.nextId := rfl
@[simp] theorem Dev.updHitch_gate (f : HitchState → HitchState) : (d.updHitch f).gate = d.gate := rfl
@[simp] theorem Dev.updHitch_troughs (f : HitchState → HitchState) : (d.updHitch f).troughs = d.troughs := rfl
@[simp] theorem Dev.updHitch_bell (f : HitchState → HitchState) : (d.updHitch f).bell = d.bell := rfl
@[simp] theorem Dev.updHitch_yoke (f : HitchState → HitchState) : (d.updHitch f).yoke = d.yoke := rfl
@[simp] theorem Dev.updHitch_mill (f : HitchState → HitchState) : (d.updHitch f).mill = d.mill := rfl
@[simp] theorem Dev.updHitch_gran (f : HitchState → HitchState) : (d.updHitch f).gran = d.gran := rfl
@[simp] theorem Dev.updHitch_links (f : HitchState → HitchState) : (d.updHitch f).links = d.links := rfl
@[simp] theorem Dev.updHitch_hitch (f : HitchState → HitchState) : (d.updHitch f).hitch = f d.hitch := rfl
@[simp] theorem Dev.updHitch_host (f : HitchState → HitchState) : (d.updHitch f).host = d.host := rfl
@[simp] theorem Dev.updHitch_stew (f : HitchState → HitchState) : (d.updHitch f).stew = d.stew := rfl
@[simp] theorem Dev.updHitch_reeve (f : HitchState → HitchState) : (d.updHitch f).reeve = d.reeve := rfl
@[simp] theorem Dev.updHitch_pwr (f : HitchState → HitchState) : (d.updHitch f).pwr = d.pwr := rfl
@[simp] theorem Dev.updHitch_free (f : HitchState → HitchState) : (d.updHitch f).free = d.free := rfl
@[simp] theorem Dev.updHitch_out (f : HitchState → HitchState) : (d.updHitch f).out = d.out := rfl

/-! ### updHost -/

@[simp] theorem Dev.updHost_clk (f : HostState → HostState) : (d.updHost f).clk = d.clk := rfl
@[simp] theorem Dev.updHost_regs (f : HostState → HostState) : (d.updHost f).regs = d.regs := rfl
@[simp] theorem Dev.updHost_lowHeld (f : HostState → HostState) : (d.updHost f).lowHeld = d.lowHeld := rfl
@[simp] theorem Dev.updHost_same (f : HostState → HostState) : (d.updHost f).same = d.same := rfl
@[simp] theorem Dev.updHost_highCap (f : HostState → HostState) : (d.updHost f).highCap = d.highCap := rfl
@[simp] theorem Dev.updHost_mem (f : HostState → HostState) : (d.updHost f).mem = d.mem := rfl
@[simp] theorem Dev.updHost_ecc (f : HostState → HostState) : (d.updHost f).ecc = d.ecc := rfl
@[simp] theorem Dev.updHost_memc (f : HostState → HostState) : (d.updHost f).memc = d.memc := rfl
@[simp] theorem Dev.updHost_hedge (f : HostState → HostState) : (d.updHost f).hedge = d.hedge := rfl
@[simp] theorem Dev.updHost_evt (f : HostState → HostState) : (d.updHost f).evt = d.evt := rfl
@[simp] theorem Dev.updHost_ctxs (f : HostState → HostState) : (d.updHost f).ctxs = d.ctxs := rfl
@[simp] theorem Dev.updHost_ctxCmd (f : HostState → HostState) : (d.updHost f).ctxCmd = d.ctxCmd := rfl
@[simp] theorem Dev.updHost_exch (f : HostState → HostState) : (d.updHost f).exch = d.exch := rfl
@[simp] theorem Dev.updHost_plan (f : HostState → HostState) : (d.updHost f).plan = d.plan := rfl
@[simp] theorem Dev.updHost_ploughs (f : HostState → HostState) : (d.updHost f).ploughs = d.ploughs := rfl
@[simp] theorem Dev.updHost_jobs (f : HostState → HostState) : (d.updHost f).jobs = d.jobs := rfl
@[simp] theorem Dev.updHost_nextId (f : HostState → HostState) : (d.updHost f).nextId = d.nextId := rfl
@[simp] theorem Dev.updHost_gate (f : HostState → HostState) : (d.updHost f).gate = d.gate := rfl
@[simp] theorem Dev.updHost_troughs (f : HostState → HostState) : (d.updHost f).troughs = d.troughs := rfl
@[simp] theorem Dev.updHost_bell (f : HostState → HostState) : (d.updHost f).bell = d.bell := rfl
@[simp] theorem Dev.updHost_yoke (f : HostState → HostState) : (d.updHost f).yoke = d.yoke := rfl
@[simp] theorem Dev.updHost_mill (f : HostState → HostState) : (d.updHost f).mill = d.mill := rfl
@[simp] theorem Dev.updHost_gran (f : HostState → HostState) : (d.updHost f).gran = d.gran := rfl
@[simp] theorem Dev.updHost_links (f : HostState → HostState) : (d.updHost f).links = d.links := rfl
@[simp] theorem Dev.updHost_hitch (f : HostState → HostState) : (d.updHost f).hitch = d.hitch := rfl
@[simp] theorem Dev.updHost_host (f : HostState → HostState) : (d.updHost f).host = f d.host := rfl
@[simp] theorem Dev.updHost_stew (f : HostState → HostState) : (d.updHost f).stew = d.stew := rfl
@[simp] theorem Dev.updHost_reeve (f : HostState → HostState) : (d.updHost f).reeve = d.reeve := rfl
@[simp] theorem Dev.updHost_pwr (f : HostState → HostState) : (d.updHost f).pwr = d.pwr := rfl
@[simp] theorem Dev.updHost_free (f : HostState → HostState) : (d.updHost f).free = d.free := rfl
@[simp] theorem Dev.updHost_out (f : HostState → HostState) : (d.updHost f).out = d.out := rfl

/-! ### updStew -/

@[simp] theorem Dev.updStew_clk (f : StewState → StewState) : (d.updStew f).clk = d.clk := rfl
@[simp] theorem Dev.updStew_regs (f : StewState → StewState) : (d.updStew f).regs = d.regs := rfl
@[simp] theorem Dev.updStew_lowHeld (f : StewState → StewState) : (d.updStew f).lowHeld = d.lowHeld := rfl
@[simp] theorem Dev.updStew_same (f : StewState → StewState) : (d.updStew f).same = d.same := rfl
@[simp] theorem Dev.updStew_highCap (f : StewState → StewState) : (d.updStew f).highCap = d.highCap := rfl
@[simp] theorem Dev.updStew_mem (f : StewState → StewState) : (d.updStew f).mem = d.mem := rfl
@[simp] theorem Dev.updStew_ecc (f : StewState → StewState) : (d.updStew f).ecc = d.ecc := rfl
@[simp] theorem Dev.updStew_memc (f : StewState → StewState) : (d.updStew f).memc = d.memc := rfl
@[simp] theorem Dev.updStew_hedge (f : StewState → StewState) : (d.updStew f).hedge = d.hedge := rfl
@[simp] theorem Dev.updStew_evt (f : StewState → StewState) : (d.updStew f).evt = d.evt := rfl
@[simp] theorem Dev.updStew_ctxs (f : StewState → StewState) : (d.updStew f).ctxs = d.ctxs := rfl
@[simp] theorem Dev.updStew_ctxCmd (f : StewState → StewState) : (d.updStew f).ctxCmd = d.ctxCmd := rfl
@[simp] theorem Dev.updStew_exch (f : StewState → StewState) : (d.updStew f).exch = d.exch := rfl
@[simp] theorem Dev.updStew_plan (f : StewState → StewState) : (d.updStew f).plan = d.plan := rfl
@[simp] theorem Dev.updStew_ploughs (f : StewState → StewState) : (d.updStew f).ploughs = d.ploughs := rfl
@[simp] theorem Dev.updStew_jobs (f : StewState → StewState) : (d.updStew f).jobs = d.jobs := rfl
@[simp] theorem Dev.updStew_nextId (f : StewState → StewState) : (d.updStew f).nextId = d.nextId := rfl
@[simp] theorem Dev.updStew_gate (f : StewState → StewState) : (d.updStew f).gate = d.gate := rfl
@[simp] theorem Dev.updStew_troughs (f : StewState → StewState) : (d.updStew f).troughs = d.troughs := rfl
@[simp] theorem Dev.updStew_bell (f : StewState → StewState) : (d.updStew f).bell = d.bell := rfl
@[simp] theorem Dev.updStew_yoke (f : StewState → StewState) : (d.updStew f).yoke = d.yoke := rfl
@[simp] theorem Dev.updStew_mill (f : StewState → StewState) : (d.updStew f).mill = d.mill := rfl
@[simp] theorem Dev.updStew_gran (f : StewState → StewState) : (d.updStew f).gran = d.gran := rfl
@[simp] theorem Dev.updStew_links (f : StewState → StewState) : (d.updStew f).links = d.links := rfl
@[simp] theorem Dev.updStew_hitch (f : StewState → StewState) : (d.updStew f).hitch = d.hitch := rfl
@[simp] theorem Dev.updStew_host (f : StewState → StewState) : (d.updStew f).host = d.host := rfl
@[simp] theorem Dev.updStew_stew (f : StewState → StewState) : (d.updStew f).stew = f d.stew := rfl
@[simp] theorem Dev.updStew_reeve (f : StewState → StewState) : (d.updStew f).reeve = d.reeve := rfl
@[simp] theorem Dev.updStew_pwr (f : StewState → StewState) : (d.updStew f).pwr = d.pwr := rfl
@[simp] theorem Dev.updStew_free (f : StewState → StewState) : (d.updStew f).free = d.free := rfl
@[simp] theorem Dev.updStew_out (f : StewState → StewState) : (d.updStew f).out = d.out := rfl

/-! ### updReeve -/

@[simp] theorem Dev.updReeve_clk (f : ReeveState → ReeveState) : (d.updReeve f).clk = d.clk := rfl
@[simp] theorem Dev.updReeve_regs (f : ReeveState → ReeveState) : (d.updReeve f).regs = d.regs := rfl
@[simp] theorem Dev.updReeve_lowHeld (f : ReeveState → ReeveState) : (d.updReeve f).lowHeld = d.lowHeld := rfl
@[simp] theorem Dev.updReeve_same (f : ReeveState → ReeveState) : (d.updReeve f).same = d.same := rfl
@[simp] theorem Dev.updReeve_highCap (f : ReeveState → ReeveState) : (d.updReeve f).highCap = d.highCap := rfl
@[simp] theorem Dev.updReeve_mem (f : ReeveState → ReeveState) : (d.updReeve f).mem = d.mem := rfl
@[simp] theorem Dev.updReeve_ecc (f : ReeveState → ReeveState) : (d.updReeve f).ecc = d.ecc := rfl
@[simp] theorem Dev.updReeve_memc (f : ReeveState → ReeveState) : (d.updReeve f).memc = d.memc := rfl
@[simp] theorem Dev.updReeve_hedge (f : ReeveState → ReeveState) : (d.updReeve f).hedge = d.hedge := rfl
@[simp] theorem Dev.updReeve_evt (f : ReeveState → ReeveState) : (d.updReeve f).evt = d.evt := rfl
@[simp] theorem Dev.updReeve_ctxs (f : ReeveState → ReeveState) : (d.updReeve f).ctxs = d.ctxs := rfl
@[simp] theorem Dev.updReeve_ctxCmd (f : ReeveState → ReeveState) : (d.updReeve f).ctxCmd = d.ctxCmd := rfl
@[simp] theorem Dev.updReeve_exch (f : ReeveState → ReeveState) : (d.updReeve f).exch = d.exch := rfl
@[simp] theorem Dev.updReeve_plan (f : ReeveState → ReeveState) : (d.updReeve f).plan = d.plan := rfl
@[simp] theorem Dev.updReeve_ploughs (f : ReeveState → ReeveState) : (d.updReeve f).ploughs = d.ploughs := rfl
@[simp] theorem Dev.updReeve_jobs (f : ReeveState → ReeveState) : (d.updReeve f).jobs = d.jobs := rfl
@[simp] theorem Dev.updReeve_nextId (f : ReeveState → ReeveState) : (d.updReeve f).nextId = d.nextId := rfl
@[simp] theorem Dev.updReeve_gate (f : ReeveState → ReeveState) : (d.updReeve f).gate = d.gate := rfl
@[simp] theorem Dev.updReeve_troughs (f : ReeveState → ReeveState) : (d.updReeve f).troughs = d.troughs := rfl
@[simp] theorem Dev.updReeve_bell (f : ReeveState → ReeveState) : (d.updReeve f).bell = d.bell := rfl
@[simp] theorem Dev.updReeve_yoke (f : ReeveState → ReeveState) : (d.updReeve f).yoke = d.yoke := rfl
@[simp] theorem Dev.updReeve_mill (f : ReeveState → ReeveState) : (d.updReeve f).mill = d.mill := rfl
@[simp] theorem Dev.updReeve_gran (f : ReeveState → ReeveState) : (d.updReeve f).gran = d.gran := rfl
@[simp] theorem Dev.updReeve_links (f : ReeveState → ReeveState) : (d.updReeve f).links = d.links := rfl
@[simp] theorem Dev.updReeve_hitch (f : ReeveState → ReeveState) : (d.updReeve f).hitch = d.hitch := rfl
@[simp] theorem Dev.updReeve_host (f : ReeveState → ReeveState) : (d.updReeve f).host = d.host := rfl
@[simp] theorem Dev.updReeve_stew (f : ReeveState → ReeveState) : (d.updReeve f).stew = d.stew := rfl
@[simp] theorem Dev.updReeve_reeve (f : ReeveState → ReeveState) : (d.updReeve f).reeve = f d.reeve := rfl
@[simp] theorem Dev.updReeve_pwr (f : ReeveState → ReeveState) : (d.updReeve f).pwr = d.pwr := rfl
@[simp] theorem Dev.updReeve_free (f : ReeveState → ReeveState) : (d.updReeve f).free = d.free := rfl
@[simp] theorem Dev.updReeve_out (f : ReeveState → ReeveState) : (d.updReeve f).out = d.out := rfl

/-! ### updPwr -/

@[simp] theorem Dev.updPwr_clk (f : PwrState → PwrState) : (d.updPwr f).clk = d.clk := rfl
@[simp] theorem Dev.updPwr_regs (f : PwrState → PwrState) : (d.updPwr f).regs = d.regs := rfl
@[simp] theorem Dev.updPwr_lowHeld (f : PwrState → PwrState) : (d.updPwr f).lowHeld = d.lowHeld := rfl
@[simp] theorem Dev.updPwr_same (f : PwrState → PwrState) : (d.updPwr f).same = d.same := rfl
@[simp] theorem Dev.updPwr_highCap (f : PwrState → PwrState) : (d.updPwr f).highCap = d.highCap := rfl
@[simp] theorem Dev.updPwr_mem (f : PwrState → PwrState) : (d.updPwr f).mem = d.mem := rfl
@[simp] theorem Dev.updPwr_ecc (f : PwrState → PwrState) : (d.updPwr f).ecc = d.ecc := rfl
@[simp] theorem Dev.updPwr_memc (f : PwrState → PwrState) : (d.updPwr f).memc = d.memc := rfl
@[simp] theorem Dev.updPwr_hedge (f : PwrState → PwrState) : (d.updPwr f).hedge = d.hedge := rfl
@[simp] theorem Dev.updPwr_evt (f : PwrState → PwrState) : (d.updPwr f).evt = d.evt := rfl
@[simp] theorem Dev.updPwr_ctxs (f : PwrState → PwrState) : (d.updPwr f).ctxs = d.ctxs := rfl
@[simp] theorem Dev.updPwr_ctxCmd (f : PwrState → PwrState) : (d.updPwr f).ctxCmd = d.ctxCmd := rfl
@[simp] theorem Dev.updPwr_exch (f : PwrState → PwrState) : (d.updPwr f).exch = d.exch := rfl
@[simp] theorem Dev.updPwr_plan (f : PwrState → PwrState) : (d.updPwr f).plan = d.plan := rfl
@[simp] theorem Dev.updPwr_ploughs (f : PwrState → PwrState) : (d.updPwr f).ploughs = d.ploughs := rfl
@[simp] theorem Dev.updPwr_jobs (f : PwrState → PwrState) : (d.updPwr f).jobs = d.jobs := rfl
@[simp] theorem Dev.updPwr_nextId (f : PwrState → PwrState) : (d.updPwr f).nextId = d.nextId := rfl
@[simp] theorem Dev.updPwr_gate (f : PwrState → PwrState) : (d.updPwr f).gate = d.gate := rfl
@[simp] theorem Dev.updPwr_troughs (f : PwrState → PwrState) : (d.updPwr f).troughs = d.troughs := rfl
@[simp] theorem Dev.updPwr_bell (f : PwrState → PwrState) : (d.updPwr f).bell = d.bell := rfl
@[simp] theorem Dev.updPwr_yoke (f : PwrState → PwrState) : (d.updPwr f).yoke = d.yoke := rfl
@[simp] theorem Dev.updPwr_mill (f : PwrState → PwrState) : (d.updPwr f).mill = d.mill := rfl
@[simp] theorem Dev.updPwr_gran (f : PwrState → PwrState) : (d.updPwr f).gran = d.gran := rfl
@[simp] theorem Dev.updPwr_links (f : PwrState → PwrState) : (d.updPwr f).links = d.links := rfl
@[simp] theorem Dev.updPwr_hitch (f : PwrState → PwrState) : (d.updPwr f).hitch = d.hitch := rfl
@[simp] theorem Dev.updPwr_host (f : PwrState → PwrState) : (d.updPwr f).host = d.host := rfl
@[simp] theorem Dev.updPwr_stew (f : PwrState → PwrState) : (d.updPwr f).stew = d.stew := rfl
@[simp] theorem Dev.updPwr_reeve (f : PwrState → PwrState) : (d.updPwr f).reeve = d.reeve := rfl
@[simp] theorem Dev.updPwr_pwr (f : PwrState → PwrState) : (d.updPwr f).pwr = f d.pwr := rfl
@[simp] theorem Dev.updPwr_free (f : PwrState → PwrState) : (d.updPwr f).free = d.free := rfl
@[simp] theorem Dev.updPwr_out (f : PwrState → PwrState) : (d.updPwr f).out = d.out := rfl

/-! ### updTrough -/

@[simp] theorem Dev.updTrough_clk (n : Nat) (f : Trough → Trough) : (d.updTrough n f).clk = d.clk := rfl
@[simp] theorem Dev.updTrough_regs (n : Nat) (f : Trough → Trough) : (d.updTrough n f).regs = d.regs := rfl
@[simp] theorem Dev.updTrough_same (n : Nat) (f : Trough → Trough) : (d.updTrough n f).same = d.same := rfl
@[simp] theorem Dev.updTrough_lowHeld (n : Nat) (f : Trough → Trough) : (d.updTrough n f).lowHeld = d.lowHeld := rfl
@[simp] theorem Dev.updTrough_highCap (n : Nat) (f : Trough → Trough) : (d.updTrough n f).highCap = d.highCap := rfl
@[simp] theorem Dev.updTrough_mem (n : Nat) (f : Trough → Trough) : (d.updTrough n f).mem = d.mem := rfl
@[simp] theorem Dev.updTrough_ecc (n : Nat) (f : Trough → Trough) : (d.updTrough n f).ecc = d.ecc := rfl
@[simp] theorem Dev.updTrough_memc (n : Nat) (f : Trough → Trough) : (d.updTrough n f).memc = d.memc := rfl
@[simp] theorem Dev.updTrough_hedge (n : Nat) (f : Trough → Trough) : (d.updTrough n f).hedge = d.hedge := rfl
@[simp] theorem Dev.updTrough_evt (n : Nat) (f : Trough → Trough) : (d.updTrough n f).evt = d.evt := rfl
@[simp] theorem Dev.updTrough_ctxs (n : Nat) (f : Trough → Trough) : (d.updTrough n f).ctxs = d.ctxs := rfl
@[simp] theorem Dev.updTrough_ctxCmd (n : Nat) (f : Trough → Trough) : (d.updTrough n f).ctxCmd = d.ctxCmd := rfl
@[simp] theorem Dev.updTrough_exch (n : Nat) (f : Trough → Trough) : (d.updTrough n f).exch = d.exch := rfl
@[simp] theorem Dev.updTrough_plan (n : Nat) (f : Trough → Trough) : (d.updTrough n f).plan = d.plan := rfl
@[simp] theorem Dev.updTrough_ploughs (n : Nat) (f : Trough → Trough) : (d.updTrough n f).ploughs = d.ploughs := rfl
@[simp] theorem Dev.updTrough_jobs (n : Nat) (f : Trough → Trough) : (d.updTrough n f).jobs = d.jobs := rfl
@[simp] theorem Dev.updTrough_nextId (n : Nat) (f : Trough → Trough) : (d.updTrough n f).nextId = d.nextId := rfl
@[simp] theorem Dev.updTrough_gate (n : Nat) (f : Trough → Trough) : (d.updTrough n f).gate = d.gate := rfl
@[simp] theorem Dev.updTrough_bell (n : Nat) (f : Trough → Trough) : (d.updTrough n f).bell = d.bell := rfl
@[simp] theorem Dev.updTrough_yoke (n : Nat) (f : Trough → Trough) : (d.updTrough n f).yoke = d.yoke := rfl
@[simp] theorem Dev.updTrough_mill (n : Nat) (f : Trough → Trough) : (d.updTrough n f).mill = d.mill := rfl
@[simp] theorem Dev.updTrough_gran (n : Nat) (f : Trough → Trough) : (d.updTrough n f).gran = d.gran := rfl
@[simp] theorem Dev.updTrough_links (n : Nat) (f : Trough → Trough) : (d.updTrough n f).links = d.links := rfl
@[simp] theorem Dev.updTrough_hitch (n : Nat) (f : Trough → Trough) : (d.updTrough n f).hitch = d.hitch := rfl
@[simp] theorem Dev.updTrough_host (n : Nat) (f : Trough → Trough) : (d.updTrough n f).host = d.host := rfl
@[simp] theorem Dev.updTrough_stew (n : Nat) (f : Trough → Trough) : (d.updTrough n f).stew = d.stew := rfl
@[simp] theorem Dev.updTrough_reeve (n : Nat) (f : Trough → Trough) : (d.updTrough n f).reeve = d.reeve := rfl
@[simp] theorem Dev.updTrough_pwr (n : Nat) (f : Trough → Trough) : (d.updTrough n f).pwr = d.pwr := rfl
@[simp] theorem Dev.updTrough_free (n : Nat) (f : Trough → Trough) : (d.updTrough n f).free = d.free := rfl
@[simp] theorem Dev.updTrough_out (n : Nat) (f : Trough → Trough) : (d.updTrough n f).out = d.out := rfl

/-! ### updEnc -/

@[simp] theorem Dev.updEnc_clk (n : Nat) (f : Enc → Enc) : (d.updEnc n f).clk = d.clk := rfl
@[simp] theorem Dev.updEnc_regs (n : Nat) (f : Enc → Enc) : (d.updEnc n f).regs = d.regs := rfl
@[simp] theorem Dev.updEnc_same (n : Nat) (f : Enc → Enc) : (d.updEnc n f).same = d.same := rfl
@[simp] theorem Dev.updEnc_lowHeld (n : Nat) (f : Enc → Enc) : (d.updEnc n f).lowHeld = d.lowHeld := rfl
@[simp] theorem Dev.updEnc_highCap (n : Nat) (f : Enc → Enc) : (d.updEnc n f).highCap = d.highCap := rfl
@[simp] theorem Dev.updEnc_mem (n : Nat) (f : Enc → Enc) : (d.updEnc n f).mem = d.mem := rfl
@[simp] theorem Dev.updEnc_ecc (n : Nat) (f : Enc → Enc) : (d.updEnc n f).ecc = d.ecc := rfl
@[simp] theorem Dev.updEnc_memc (n : Nat) (f : Enc → Enc) : (d.updEnc n f).memc = d.memc := rfl
@[simp] theorem Dev.updEnc_hedge (n : Nat) (f : Enc → Enc) : (d.updEnc n f).hedge = d.hedge := rfl
@[simp] theorem Dev.updEnc_evt (n : Nat) (f : Enc → Enc) : (d.updEnc n f).evt = d.evt := rfl
@[simp] theorem Dev.updEnc_ctxs (n : Nat) (f : Enc → Enc) : (d.updEnc n f).ctxs = d.ctxs := rfl
@[simp] theorem Dev.updEnc_ctxCmd (n : Nat) (f : Enc → Enc) : (d.updEnc n f).ctxCmd = d.ctxCmd := rfl
@[simp] theorem Dev.updEnc_exch (n : Nat) (f : Enc → Enc) : (d.updEnc n f).exch = d.exch := rfl
@[simp] theorem Dev.updEnc_plan (n : Nat) (f : Enc → Enc) : (d.updEnc n f).plan = d.plan := rfl
@[simp] theorem Dev.updEnc_ploughs (n : Nat) (f : Enc → Enc) : (d.updEnc n f).ploughs = d.ploughs := rfl
@[simp] theorem Dev.updEnc_jobs (n : Nat) (f : Enc → Enc) : (d.updEnc n f).jobs = d.jobs := rfl
@[simp] theorem Dev.updEnc_nextId (n : Nat) (f : Enc → Enc) : (d.updEnc n f).nextId = d.nextId := rfl
@[simp] theorem Dev.updEnc_troughs (n : Nat) (f : Enc → Enc) : (d.updEnc n f).troughs = d.troughs := rfl
@[simp] theorem Dev.updEnc_bell (n : Nat) (f : Enc → Enc) : (d.updEnc n f).bell = d.bell := rfl
@[simp] theorem Dev.updEnc_yoke (n : Nat) (f : Enc → Enc) : (d.updEnc n f).yoke = d.yoke := rfl
@[simp] theorem Dev.updEnc_mill (n : Nat) (f : Enc → Enc) : (d.updEnc n f).mill = d.mill := rfl
@[simp] theorem Dev.updEnc_gran (n : Nat) (f : Enc → Enc) : (d.updEnc n f).gran = d.gran := rfl
@[simp] theorem Dev.updEnc_links (n : Nat) (f : Enc → Enc) : (d.updEnc n f).links = d.links := rfl
@[simp] theorem Dev.updEnc_hitch (n : Nat) (f : Enc → Enc) : (d.updEnc n f).hitch = d.hitch := rfl
@[simp] theorem Dev.updEnc_host (n : Nat) (f : Enc → Enc) : (d.updEnc n f).host = d.host := rfl
@[simp] theorem Dev.updEnc_stew (n : Nat) (f : Enc → Enc) : (d.updEnc n f).stew = d.stew := rfl
@[simp] theorem Dev.updEnc_reeve (n : Nat) (f : Enc → Enc) : (d.updEnc n f).reeve = d.reeve := rfl
@[simp] theorem Dev.updEnc_pwr (n : Nat) (f : Enc → Enc) : (d.updEnc n f).pwr = d.pwr := rfl
@[simp] theorem Dev.updEnc_free (n : Nat) (f : Enc → Enc) : (d.updEnc n f).free = d.free := rfl
@[simp] theorem Dev.updEnc_out (n : Nat) (f : Enc → Enc) : (d.updEnc n f).out = d.out := rfl

/-! ### updTrig -/

@[simp] theorem Dev.updTrig_clk (n : Nat) (f : Trig → Trig) : (d.updTrig n f).clk = d.clk := rfl
@[simp] theorem Dev.updTrig_regs (n : Nat) (f : Trig → Trig) : (d.updTrig n f).regs = d.regs := rfl
@[simp] theorem Dev.updTrig_same (n : Nat) (f : Trig → Trig) : (d.updTrig n f).same = d.same := rfl
@[simp] theorem Dev.updTrig_lowHeld (n : Nat) (f : Trig → Trig) : (d.updTrig n f).lowHeld = d.lowHeld := rfl
@[simp] theorem Dev.updTrig_highCap (n : Nat) (f : Trig → Trig) : (d.updTrig n f).highCap = d.highCap := rfl
@[simp] theorem Dev.updTrig_mem (n : Nat) (f : Trig → Trig) : (d.updTrig n f).mem = d.mem := rfl
@[simp] theorem Dev.updTrig_ecc (n : Nat) (f : Trig → Trig) : (d.updTrig n f).ecc = d.ecc := rfl
@[simp] theorem Dev.updTrig_memc (n : Nat) (f : Trig → Trig) : (d.updTrig n f).memc = d.memc := rfl
@[simp] theorem Dev.updTrig_hedge (n : Nat) (f : Trig → Trig) : (d.updTrig n f).hedge = d.hedge := rfl
@[simp] theorem Dev.updTrig_evt (n : Nat) (f : Trig → Trig) : (d.updTrig n f).evt = d.evt := rfl
@[simp] theorem Dev.updTrig_ctxs (n : Nat) (f : Trig → Trig) : (d.updTrig n f).ctxs = d.ctxs := rfl
@[simp] theorem Dev.updTrig_ctxCmd (n : Nat) (f : Trig → Trig) : (d.updTrig n f).ctxCmd = d.ctxCmd := rfl
@[simp] theorem Dev.updTrig_exch (n : Nat) (f : Trig → Trig) : (d.updTrig n f).exch = d.exch := rfl
@[simp] theorem Dev.updTrig_plan (n : Nat) (f : Trig → Trig) : (d.updTrig n f).plan = d.plan := rfl
@[simp] theorem Dev.updTrig_ploughs (n : Nat) (f : Trig → Trig) : (d.updTrig n f).ploughs = d.ploughs := rfl
@[simp] theorem Dev.updTrig_jobs (n : Nat) (f : Trig → Trig) : (d.updTrig n f).jobs = d.jobs := rfl
@[simp] theorem Dev.updTrig_nextId (n : Nat) (f : Trig → Trig) : (d.updTrig n f).nextId = d.nextId := rfl
@[simp] theorem Dev.updTrig_troughs (n : Nat) (f : Trig → Trig) : (d.updTrig n f).troughs = d.troughs := rfl
@[simp] theorem Dev.updTrig_bell (n : Nat) (f : Trig → Trig) : (d.updTrig n f).bell = d.bell := rfl
@[simp] theorem Dev.updTrig_yoke (n : Nat) (f : Trig → Trig) : (d.updTrig n f).yoke = d.yoke := rfl
@[simp] theorem Dev.updTrig_mill (n : Nat) (f : Trig → Trig) : (d.updTrig n f).mill = d.mill := rfl
@[simp] theorem Dev.updTrig_gran (n : Nat) (f : Trig → Trig) : (d.updTrig n f).gran = d.gran := rfl
@[simp] theorem Dev.updTrig_links (n : Nat) (f : Trig → Trig) : (d.updTrig n f).links = d.links := rfl
@[simp] theorem Dev.updTrig_hitch (n : Nat) (f : Trig → Trig) : (d.updTrig n f).hitch = d.hitch := rfl
@[simp] theorem Dev.updTrig_host (n : Nat) (f : Trig → Trig) : (d.updTrig n f).host = d.host := rfl
@[simp] theorem Dev.updTrig_stew (n : Nat) (f : Trig → Trig) : (d.updTrig n f).stew = d.stew := rfl
@[simp] theorem Dev.updTrig_reeve (n : Nat) (f : Trig → Trig) : (d.updTrig n f).reeve = d.reeve := rfl
@[simp] theorem Dev.updTrig_pwr (n : Nat) (f : Trig → Trig) : (d.updTrig n f).pwr = d.pwr := rfl
@[simp] theorem Dev.updTrig_free (n : Nat) (f : Trig → Trig) : (d.updTrig n f).free = d.free := rfl
@[simp] theorem Dev.updTrig_out (n : Nat) (f : Trig → Trig) : (d.updTrig n f).out = d.out := rfl

/-! ### updYoke -/

@[simp] theorem Dev.updYoke_clk (f : YokeState → YokeState) : (d.updYoke f).clk = d.clk := rfl
@[simp] theorem Dev.updYoke_regs (f : YokeState → YokeState) : (d.updYoke f).regs = d.regs := rfl
@[simp] theorem Dev.updYoke_same (f : YokeState → YokeState) : (d.updYoke f).same = d.same := rfl
@[simp] theorem Dev.updYoke_lowHeld (f : YokeState → YokeState) : (d.updYoke f).lowHeld = d.lowHeld := rfl
@[simp] theorem Dev.updYoke_highCap (f : YokeState → YokeState) : (d.updYoke f).highCap = d.highCap := rfl
@[simp] theorem Dev.updYoke_mem (f : YokeState → YokeState) : (d.updYoke f).mem = d.mem := rfl
@[simp] theorem Dev.updYoke_ecc (f : YokeState → YokeState) : (d.updYoke f).ecc = d.ecc := rfl
@[simp] theorem Dev.updYoke_memc (f : YokeState → YokeState) : (d.updYoke f).memc = d.memc := rfl
@[simp] theorem Dev.updYoke_hedge (f : YokeState → YokeState) : (d.updYoke f).hedge = d.hedge := rfl
@[simp] theorem Dev.updYoke_evt (f : YokeState → YokeState) : (d.updYoke f).evt = d.evt := rfl
@[simp] theorem Dev.updYoke_ctxs (f : YokeState → YokeState) : (d.updYoke f).ctxs = d.ctxs := rfl
@[simp] theorem Dev.updYoke_ctxCmd (f : YokeState → YokeState) : (d.updYoke f).ctxCmd = d.ctxCmd := rfl
@[simp] theorem Dev.updYoke_exch (f : YokeState → YokeState) : (d.updYoke f).exch = d.exch := rfl
@[simp] theorem Dev.updYoke_plan (f : YokeState → YokeState) : (d.updYoke f).plan = d.plan := rfl
@[simp] theorem Dev.updYoke_ploughs (f : YokeState → YokeState) : (d.updYoke f).ploughs = d.ploughs := rfl
@[simp] theorem Dev.updYoke_jobs (f : YokeState → YokeState) : (d.updYoke f).jobs = d.jobs := rfl
@[simp] theorem Dev.updYoke_nextId (f : YokeState → YokeState) : (d.updYoke f).nextId = d.nextId := rfl
@[simp] theorem Dev.updYoke_gate (f : YokeState → YokeState) : (d.updYoke f).gate = d.gate := rfl
@[simp] theorem Dev.updYoke_troughs (f : YokeState → YokeState) : (d.updYoke f).troughs = d.troughs := rfl
@[simp] theorem Dev.updYoke_bell (f : YokeState → YokeState) : (d.updYoke f).bell = d.bell := rfl
@[simp] theorem Dev.updYoke_yoke (f : YokeState → YokeState) : (d.updYoke f).yoke = f d.yoke := rfl
@[simp] theorem Dev.updYoke_mill (f : YokeState → YokeState) : (d.updYoke f).mill = d.mill := rfl
@[simp] theorem Dev.updYoke_gran (f : YokeState → YokeState) : (d.updYoke f).gran = d.gran := rfl
@[simp] theorem Dev.updYoke_links (f : YokeState → YokeState) : (d.updYoke f).links = d.links := rfl
@[simp] theorem Dev.updYoke_hitch (f : YokeState → YokeState) : (d.updYoke f).hitch = d.hitch := rfl
@[simp] theorem Dev.updYoke_host (f : YokeState → YokeState) : (d.updYoke f).host = d.host := rfl
@[simp] theorem Dev.updYoke_stew (f : YokeState → YokeState) : (d.updYoke f).stew = d.stew := rfl
@[simp] theorem Dev.updYoke_reeve (f : YokeState → YokeState) : (d.updYoke f).reeve = d.reeve := rfl
@[simp] theorem Dev.updYoke_pwr (f : YokeState → YokeState) : (d.updYoke f).pwr = d.pwr := rfl
@[simp] theorem Dev.updYoke_free (f : YokeState → YokeState) : (d.updYoke f).free = d.free := rfl
@[simp] theorem Dev.updYoke_out (f : YokeState → YokeState) : (d.updYoke f).out = d.out := rfl

/-! ### setRegion -/

@[simp] theorem Dev.setRegion_clk (g : Nat) (r : PRegion) : (d.setRegion g r).clk = d.clk := rfl
@[simp] theorem Dev.setRegion_regs (g : Nat) (r : PRegion) : (d.setRegion g r).regs = d.regs := rfl
@[simp] theorem Dev.setRegion_same (g : Nat) (r : PRegion) : (d.setRegion g r).same = d.same := rfl
@[simp] theorem Dev.setRegion_lowHeld (g : Nat) (r : PRegion) : (d.setRegion g r).lowHeld = d.lowHeld := rfl
@[simp] theorem Dev.setRegion_highCap (g : Nat) (r : PRegion) : (d.setRegion g r).highCap = d.highCap := rfl
@[simp] theorem Dev.setRegion_mem (g : Nat) (r : PRegion) : (d.setRegion g r).mem = d.mem := rfl
@[simp] theorem Dev.setRegion_ecc (g : Nat) (r : PRegion) : (d.setRegion g r).ecc = d.ecc := rfl
@[simp] theorem Dev.setRegion_memc (g : Nat) (r : PRegion) : (d.setRegion g r).memc = d.memc := rfl
@[simp] theorem Dev.setRegion_evt (g : Nat) (r : PRegion) : (d.setRegion g r).evt = d.evt := rfl
@[simp] theorem Dev.setRegion_ctxs (g : Nat) (r : PRegion) : (d.setRegion g r).ctxs = d.ctxs := rfl
@[simp] theorem Dev.setRegion_ctxCmd (g : Nat) (r : PRegion) : (d.setRegion g r).ctxCmd = d.ctxCmd := rfl
@[simp] theorem Dev.setRegion_exch (g : Nat) (r : PRegion) : (d.setRegion g r).exch = d.exch := rfl
@[simp] theorem Dev.setRegion_plan (g : Nat) (r : PRegion) : (d.setRegion g r).plan = d.plan := rfl
@[simp] theorem Dev.setRegion_ploughs (g : Nat) (r : PRegion) : (d.setRegion g r).ploughs = d.ploughs := rfl
@[simp] theorem Dev.setRegion_jobs (g : Nat) (r : PRegion) : (d.setRegion g r).jobs = d.jobs := rfl
@[simp] theorem Dev.setRegion_nextId (g : Nat) (r : PRegion) : (d.setRegion g r).nextId = d.nextId := rfl
@[simp] theorem Dev.setRegion_gate (g : Nat) (r : PRegion) : (d.setRegion g r).gate = d.gate := rfl
@[simp] theorem Dev.setRegion_troughs (g : Nat) (r : PRegion) : (d.setRegion g r).troughs = d.troughs := rfl
@[simp] theorem Dev.setRegion_bell (g : Nat) (r : PRegion) : (d.setRegion g r).bell = d.bell := rfl
@[simp] theorem Dev.setRegion_yoke (g : Nat) (r : PRegion) : (d.setRegion g r).yoke = d.yoke := rfl
@[simp] theorem Dev.setRegion_mill (g : Nat) (r : PRegion) : (d.setRegion g r).mill = d.mill := rfl
@[simp] theorem Dev.setRegion_gran (g : Nat) (r : PRegion) : (d.setRegion g r).gran = d.gran := rfl
@[simp] theorem Dev.setRegion_links (g : Nat) (r : PRegion) : (d.setRegion g r).links = d.links := rfl
@[simp] theorem Dev.setRegion_hitch (g : Nat) (r : PRegion) : (d.setRegion g r).hitch = d.hitch := rfl
@[simp] theorem Dev.setRegion_host (g : Nat) (r : PRegion) : (d.setRegion g r).host = d.host := rfl
@[simp] theorem Dev.setRegion_stew (g : Nat) (r : PRegion) : (d.setRegion g r).stew = d.stew := rfl
@[simp] theorem Dev.setRegion_reeve (g : Nat) (r : PRegion) : (d.setRegion g r).reeve = d.reeve := rfl
@[simp] theorem Dev.setRegion_pwr (g : Nat) (r : PRegion) : (d.setRegion g r).pwr = d.pwr := rfl
@[simp] theorem Dev.setRegion_free (g : Nat) (r : PRegion) : (d.setRegion g r).free = d.free := rfl
@[simp] theorem Dev.setRegion_out (g : Nat) (r : PRegion) : (d.setRegion g r).out = d.out := rfl

end Sys2Proof.Machine
end

