-- ==== Sys2Proof/Laws/Access.lean ====
section
/-! SUPPORT. What a register access does, once each: the access that is off, the plain narrow and wide ones (R10–R14), and reads of the
register file and of the ploughs after a write. -/

namespace Sys2Proof.Machine

/-! ### The stored values -/

/-- A register reads what was stored in it. -/
theorem Dev.reg_setReg_same {d : Dev} (h : SMap.wf regReset d.regs = true) (a : Nat) (v : Word) : (d.setReg a v).reg a = v :=
  SMap.get_set_same regReset a v h

/-- A store leaves every other register alone. -/
theorem Dev.reg_setReg_ne {d : Dev} (h : SMap.wf regReset d.regs = true) {a b : Nat} (hb : b ≠ a) (v : Word) : (d.setReg a v).reg b = d.reg b :=
  SMap.get_set_ne regReset v h hb

/-- A store keeps the register file canonical. -/
theorem Dev.wf_setReg {d : Dev} (h : SMap.wf regReset d.regs = true) (a : Nat) (v : Word) : SMap.wf regReset (d.setReg a v).regs = true :=
  SMap.wf_set regReset a v h

/-- A plough reads what was stored in it. -/
theorem Dev.plough_updPlough_same {d : Dev} (h : SMap.wf (fun _ => ({} : Plough)) d.ploughs = true) (n : Nat) (f : Plough → Plough) :
    (d.updPlough n f).plough n = f (d.plough n) := SMap.get_set_same _ n _ h

/-- A change of one plough leaves every other alone. -/
theorem Dev.plough_updPlough_ne {d : Dev} (h : SMap.wf (fun _ => ({} : Plough)) d.ploughs = true) {n m : Nat} (hm : m ≠ n)
    (f : Plough → Plough) : (d.updPlough n f).plough m = d.plough m := SMap.get_set_ne _ _ h hm

/-- A context ID reads what was stored in it. -/
theorem Dev.ctxOf_updCtx_same {d : Dev} (h : SMap.wf (fun _ => ({} : Ctx)) d.ctxs = true) (n : Nat) (f : Ctx → Ctx) :
    (d.updCtx n f).ctxOf n = f (d.ctxOf n) := SMap.get_set_same _ n _ h

/-- A change of one context ID leaves every other alone. -/
theorem Dev.ctxOf_updCtx_ne {d : Dev} (h : SMap.wf (fun _ => ({} : Ctx)) d.ctxs = true) {n m : Nat} (hm : m ≠ n) (f : Ctx → Ctx) :
    (d.updCtx n f).ctxOf m = d.ctxOf m := SMap.get_set_ne _ _ h hm

/-! ### Accesses (R10–R14) -/

/-- A write that its path or its domain turns away changes nothing. -/
theorem busWrite_off {s : State} {path : Path} {a : Nat} (h : s.dev.accessOn path a = false) (size v : Nat) : s.busWrite path a size v = s := by
  unfold State.busWrite; simp [h]

/-- A read that its path or its domain turns away reads zero and changes nothing. -/
theorem busRead_off {s : State} {path : Path} {a : Nat} (h : s.dev.accessOn path a = false) (size : Nat) : s.busRead path a size = (s, 0) := by
  unfold State.busRead; simp [h]

/-- A 4-byte write of a narrow register is a write of the register. -/
theorem busWrite_narrow {s : State} {path : Path} {a : Nat} {row : RegRow} (h : s.dev.accessOn path a = true) (h1 : doorbellAt a = none)
    (h2 : msixWordAt a = none) (h3 : regRowAt a = some row) (h4 : row.wide = false) (v : Nat) :
    s.busWrite path a 4 v = s.regWrite path a (v % 2 ^ 32) := by
  unfold State.busWrite; rw [h]; simp only [Bool.not_true, Bool.false_eq_true, if_false, h1, h2]
  have : regPart a 4 = some (a, .whole) := by unfold regPart; simp [h3, h4]
  rw [this]; simp only [h3, h4, Bool.not_false, if_true]

/-- An 8-byte write of a wide register is a write of the register. -/
theorem busWrite_wide {s : State} {path : Path} {a : Nat} {row : RegRow} (h : s.dev.accessOn path a = true) (h1 : doorbellAt a = none)
    (h2 : msixWordAt a = none) (h3 : regRowAt a = some row) (h4 : row.wide = true) (v : Nat) :
    s.busWrite path a 8 v = s.regWrite path a (v % 2 ^ 64) := by
  unfold State.busWrite; rw [h]; simp only [Bool.not_true, Bool.false_eq_true, if_false, h1, h2]
  have : regPart a 8 = some (a, .whole) := by unfold regPart; simp [h3, h4, widePart]
  rw [this]; simp only [h3, h4, Bool.not_true, Bool.false_eq_true, if_false, Dev.joinHalves]

/-- A 4-byte read of a narrow register reads it whole. -/
theorem busRead_narrow {s : State} {path : Path} {a : Nat} {row : RegRow} (h : s.dev.accessOn path a = true) (h1 : msixWordAt a = none)
    (h2 : pbaWordAt a = none) (h3 : regRowAt a = some row) (h4 : row.wide = false) : s.busRead path a 4 = s.readWhole path a := by
  unfold State.busRead; rw [h]; simp only [Bool.not_true, Bool.false_eq_true, if_false, h1, h2]
  have : regPart a 4 = some (a, .whole) := by unfold regPart; simp [h3, h4]
  rw [this]

/-- An 8-byte read of a wide register reads it whole. -/
theorem busRead_wide {s : State} {path : Path} {a : Nat} {row : RegRow} (h : s.dev.accessOn path a = true) (h1 : msixWordAt a = none)
    (h2 : pbaWordAt a = none) (h3 : regRowAt a = some row) (h4 : row.wide = true) : s.busRead path a 8 = s.readWhole path a := by
  unfold State.busRead; rw [h]; simp only [Bool.not_true, Bool.false_eq_true, if_false, h1, h2]
  have : regPart a 8 = some (a, .whole) := by unfold regPart; simp [h3, h4, widePart]
  rw [this]

end Sys2Proof.Machine
end

