-- ==== Sys2Proof/Laws/Events.lean ====
section
/-! SUPPORT. What raising a record can change: registers, the event state, the host's pending vectors and what is given out; nothing else. -/

namespace Sys2Proof.Machine

/-- `e` is `d` with other registers, traces of them in this clock, event state, host state and output. -/
def Dev.ReportsTo (d e : Dev) : Prop := ∃ r sm ev h o, e = { d with regs := r, same := sm, evt := ev, host := h, out := o }

theorem Dev.ReportsTo.refl (d : Dev) : d.ReportsTo d := ⟨_, _, _, _, _, rfl⟩

theorem Dev.ReportsTo.trans {a b c : Dev} (h : a.ReportsTo b) (g : b.ReportsTo c) : a.ReportsTo c := by
  obtain ⟨r, sm, ev, ho, o, rfl⟩ := h
  obtain ⟨r', sm', ev', ho', o', rfl⟩ := g
  exact ⟨r', sm', ev', ho', o', rfl⟩

theorem Dev.reportsTo_setReg (d : Dev) (a : Nat) (v : Word) : d.ReportsTo (d.setReg a v) := ⟨_, _, _, _, _, rfl⟩
theorem Dev.reportsTo_setF (d : Dev) (f : FieldRef) (v : Nat) : d.ReportsTo (d.setF f v) := ⟨_, _, _, _, _, rfl⟩
theorem Dev.reportsTo_setB (d : Dev) (f : FieldRef) (b : Bool) : d.ReportsTo (d.setB f b) := ⟨_, _, _, _, _, rfl⟩
theorem Dev.reportsTo_note (d : Dev) (x : Touch) : d.ReportsTo (d.note x) := ⟨_, _, _, _, _, rfl⟩
theorem Dev.reportsTo_hwSet (d : Dev) (f : FieldRef) : d.ReportsTo (d.hwSet f) := ⟨_, _, _, _, _, rfl⟩
theorem Dev.reportsTo_bump (d : Dev) (a n : Nat) : d.ReportsTo (d.bump a n) := ⟨_, _, _, _, _, rfl⟩
theorem Dev.reportsTo_emit (d : Dev) (o : Output) : d.ReportsTo (d.emit o) := ⟨_, _, _, _, _, rfl⟩

/-- Setting a status bit, if there is one. -/
theorem Dev.reportsTo_setIrq (d : Dev) (f : Option FieldRef) : d.ReportsTo (d.setIrq f) := by
  unfold Dev.setIrq; split
  · exact d.reportsTo_hwSet _
  · exact .refl d

/-- Sending a vector sets its pending bit or gives it out (R427). -/
theorem Dev.reportsTo_sendMsix (d : Dev) (v : Nat) : d.ReportsTo (d.sendMsix v) := by
  unfold Dev.sendMsix; split
  · exact ⟨_, _, _, _, _, rfl⟩
  · split
    · exact ⟨_, _, _, _, _, rfl⟩
    · exact .refl d

/-- The check of the summary (R33). -/
theorem Dev.reportsTo_summaryCheck (d : Dev) : d.ReportsTo d.summaryCheck := by
  unfold Dev.summaryCheck
  have h : d.ReportsTo { d with evt := { d.evt with summaryPrev := d.irqSummary } } := ⟨_, _, _, _, _, rfl⟩
  dsimp only
  split
  · exact h.trans (Dev.reportsTo_sendMsix _ _)
  · exact h

/-- The fault registers of a plough (R92). -/
theorem Dev.reportsTo_plFaultRegs (d : Dev) (e : Event) : d.ReportsTo (d.plFaultRegs e) := by
  unfold Dev.plFaultRegs
  cases e.plough with
  | none => exact .refl d
  | some n =>
    dsimp only
    exact (((((((d.reportsTo_setF _ _).trans (Dev.reportsTo_setF _ _ _)).trans (Dev.reportsTo_hwSet _ _)).trans (Dev.reportsTo_setF _ _ _)).trans
      (Dev.reportsTo_setReg _ _ _)).trans (Dev.reportsTo_setReg _ _ _)).trans (Dev.reportsTo_bump _ _ _)).trans (Dev.reportsTo_hwSet _ _)

/-- Delivering a record (R27). -/
theorem Dev.reportsTo_deliver (d : Dev) (e : Event) : d.ReportsTo (d.deliver e) := by
  have last : ∀ x : Dev, d.ReportsTo x →
      d.ReportsTo (Dev.summaryCheck (if hedgeFault e.code then x.bump R.HEDGE_FAULT_COUNT else x)) := fun x hx => by
    refine .trans ?_ (Dev.reportsTo_summaryCheck _)
    split
    · exact hx.trans (Dev.reportsTo_bump _ _ _)
    · exact hx
  have first : ∀ ev : EvtState, d.ReportsTo { d with evt := ev } := fun ev => ⟨_, _, _, _, _, rfl⟩
  exact last _ (((first _).trans (Dev.reportsTo_setIrq _ _)).trans (Dev.reportsTo_plFaultRegs _ _))

/-- Raising a record. -/
theorem Dev.reportsTo_raise (d : Dev) (code inst ctx gen detail : Nat) : d.ReportsTo (d.raise code inst ctx gen detail) :=
  d.reportsTo_deliver _

/-- Discarding a record. -/
theorem Dev.reportsTo_dropEvent (d : Dev) (e : Event) : d.ReportsTo (d.dropEvent e) := by
  unfold Dev.dropEvent; split
  · exact d.reportsTo_bump _ _
  · exact .refl d

/-- Raising a record of work under a tag: held while the mark is open. -/
theorem Dev.reportsTo_raiseEvent (d : Dev) (tag : Option PTag) (e : Event) : d.ReportsTo (d.raiseEvent tag e) := by
  unfold Dev.raiseEvent
  split
  · exact d.reportsTo_deliver e
  · split
    · exact d.reportsTo_deliver e
    · exact d.reportsTo_dropEvent e
    · exact ⟨_, _, _, _, _, rfl⟩

/-- Raising a record that is held while the work is provisional. -/
theorem Dev.reportsTo_raiseFor (d : Dev) (tag : Option PTag) (code inst ctx gen detail : Nat) :
    d.ReportsTo (d.raiseFor tag code inst ctx gen detail) := by
  exact d.reportsTo_raiseEvent tag _

/-- What a report leaves alone. -/
theorem Dev.ReportsTo.keeps {d e : Dev} (h : d.ReportsTo e) :
    e.clk = d.clk ∧ e.mem = d.mem ∧ e.ecc = d.ecc ∧ e.memc = d.memc ∧ e.hedge = d.hedge ∧ e.ctxs = d.ctxs ∧ e.plan = d.plan ∧
      e.ploughs = d.ploughs ∧ e.jobs = d.jobs ∧ e.gate = d.gate ∧ e.troughs = d.troughs ∧ e.bell = d.bell ∧ e.yoke = d.yoke ∧
      e.mill = d.mill ∧ e.gran = d.gran ∧ e.links = d.links ∧ e.hitch = d.hitch ∧ e.stew = d.stew ∧ e.reeve = d.reeve ∧ e.pwr = d.pwr ∧
      e.free = d.free := by
  obtain ⟨r, sm, ev, ho, o, rfl⟩ := h
  simp

end Sys2Proof.Machine
end

