-- ==== Sys2Proof/Laws/Memory.lean ====
section
/-! SUPPORT. The laws of memory and of the flash: a read after a write, what a write leaves alone, and that every operation keeps the
canonical form. -/

namespace Sys2Proof.Machine

/-! ### The canonical form -/

/-- Writing one byte keeps the canonical form. -/
theorem Memory.wf_write1 {m : List Host.Cell} (k : Nat) (b : Byte) (h : Memory.wf m = true) : Memory.wf (Memory.write1 m k b) = true :=
  SMap.wf_set memDefault k b h

/-- Keeping some of the cells keeps the canonical form: zeroing a range (R394), and the loss of what a domain held (R485). -/
theorem Memory.wf_filter {m : List Host.Cell} (p : Host.Cell → Bool) (h : Memory.wf m = true) : Memory.wf (m.filter p) = true :=
  SMap.wfAbove_filter memDefault p h

/-- A fill keeps the canonical form. -/
theorem Memory.wf_fill {m : List Host.Cell} (k n : Nat) (h : Memory.wf m = true) : Memory.wf (Memory.fill m k n) = true :=
  Memory.wf_filter _ h

/-- The cells of bytes laid from `k` are canonical above `k`. -/
theorem Memory.cells_wf (k : Nat) (bs : List Byte) : SMap.wfAbove memDefault k (Memory.cells k bs) = true := by
  induction bs generalizing k with
  | nil => rfl
  | cons b bs ih =>
    simp only [Memory.cells]
    split
    · exact SMap.wfAbove_mono memDefault (ih (k + 1)) (by omega)
    · simp only [SMap.wfAbove, Bool.and_eq_true, decide_eq_true_eq]
      exact ⟨⟨by omega, by assumption⟩, ih (k + 1)⟩

/-- The cells of bytes laid from `k` lie below the end of the bytes. -/
theorem Memory.cells_lt (k : Nat) (bs : List Byte) : ∀ e ∈ Memory.cells k bs, e.1 < k + bs.length := by
  induction bs generalizing k with
  | nil => simp [Memory.cells]
  | cons b bs ih =>
    simp only [Memory.cells, List.length_cons]
    intro e he
    split at he
    · have := ih (k + 1) e he; omega
    · rcases List.mem_cons.mp he with rfl | he
      · simp
      · have := ih (k + 1) e he; omega

/-- The parts of a canonical list below, inside and beyond a range join to a canonical list. -/
theorem SMap.wf_splice {α : Type} [DecidableEq α] (dflt : Nat → α) {m c : SMap α} (k e : Nat) (hm : SMap.wf dflt m = true) (hke : k ≤ e)
    (hc : SMap.wfAbove dflt k c = true) (hlt : ∀ x ∈ c, x.1 < e) :
    SMap.wf dflt (m.filter (fun c => decide (c.1 < k)) ++ c ++ m.filter (fun c => decide (e ≤ c.1))) = true := by
  have hhi : SMap.wfAbove dflt e (m.filter fun c => decide (e ≤ c.1)) = true :=
    SMap.wfAbove_of_keys dflt (SMap.wfAbove_filter dflt _ hm) fun x hx => by simpa using (List.mem_filter.mp hx).2
  have hmid : SMap.wfAbove dflt k (c ++ m.filter fun c => decide (e ≤ c.1)) = true := SMap.wfAbove_append dflt hc hhi hke hlt
  have hlo : SMap.wfAbove dflt 0 (m.filter fun c => decide (c.1 < k)) = true := SMap.wfAbove_filter dflt _ hm
  have := SMap.wfAbove_append dflt hlo hmid (by omega) fun x hx => by simpa using (List.mem_filter.mp hx).2
  simpa [SMap.wf, List.append_assoc] using this

/-- Writing bytes keeps the canonical form. -/
theorem Memory.wf_write {m : List Host.Cell} (k : Nat) (bs : List Byte) (h : Memory.wf m = true) : Memory.wf (Memory.write m k bs) = true :=
  SMap.wf_splice memDefault k (k + bs.length) h (by omega) (Memory.cells_wf k bs) (Memory.cells_lt k bs)

/-! ### Reads after writes -/

/-- A look-up in what remains of a list. -/
theorem find_filter {α : Type} (p q : α → Bool) (l : List α) : (l.filter p).find? q = l.find? fun x => p x && q x := by
  rw [List.find?_filter]; congr 1; funext x; simp

/-- A read of a spliced list: inside the range the new part, elsewhere the old list. -/
theorem SMap.get_splice {α : Type} [DecidableEq α] (dflt : Nat → α) {m c : SMap α} (k e j : Nat) (hm : SMap.wf dflt m = true) (hke : k ≤ e)
    (hc : SMap.wfAbove dflt k c = true) (hlt : ∀ x ∈ c, x.1 < e) :
    SMap.get dflt (m.filter (fun c => decide (c.1 < k)) ++ c ++ m.filter (fun c => decide (e ≤ c.1))) j
      = if k ≤ j ∧ j < e then SMap.get dflt c j else SMap.get dflt m j := by
  rw [SMap.get_eq_find dflt j (SMap.wf_splice dflt k e hm hke hc hlt), SMap.get_eq_find dflt j hc, SMap.get_eq_find dflt j hm]
  rw [List.append_assoc, List.find?_append, List.find?_append, find_filter, find_filter]
  have hlow : k ≤ j → (m.find? fun x => decide (x.1 < k) && (x.1 == j)) = none := fun h => by
    rw [List.find?_eq_none]; intro x _; simp only [Bool.and_eq_true, decide_eq_true_eq, beq_iff_eq]; omega
  have hhigh : j < e → (m.find? fun x => decide (e ≤ x.1) && (x.1 == j)) = none := fun h => by
    rw [List.find?_eq_none]; intro x _; simp only [Bool.and_eq_true, decide_eq_true_eq, beq_iff_eq]; omega
  have hmid : ¬ (k ≤ j ∧ j < e) → (c.find? fun x => x.1 == j) = none := fun h => by
    rw [List.find?_eq_none]; intro x hx; have h1 := hlt x hx; have h2 := SMap.wfAbove_keys dflt hc x hx
    simp only [beq_iff_eq]; omega
  have hsame : ∀ p : Nat × α → Bool, (∀ x : Nat × α, x.1 = j → p x = true) →
      (m.find? fun x => p x && (x.1 == j)) = m.find? fun x => x.1 == j := fun p hp => by
    congr 1; funext x
    by_cases hx : x.1 = j
    · simp [hx, hp x hx]
    · simp [hx]
  by_cases hin : k ≤ j ∧ j < e
  · rw [if_pos hin, hlow hin.1, hhigh hin.2]; simp
  · rw [if_neg hin, hmid hin]
    by_cases hk : j < k
    · rw [hhigh (by omega), hsame (fun x => decide (x.1 < k)) (fun x hx => by simp [hx, hk])]; simp
    · rw [hlow (by omega), hsame (fun x => decide (e ≤ x.1)) (fun x hx => by simp [hx]; omega)]; simp

/-- The byte that cells laid from `k` hold at `k + i`. -/
theorem Memory.read1_cells (k i : Nat) (bs : List Byte) (hi : i < bs.length) : Memory.read1 (Memory.cells k bs) (k + i) = bs.getD i 0 := by
  induction bs generalizing k i with
  | nil => simp at hi
  | cons b bs ih =>
    simp only [Memory.cells]
    cases i with
    | zero =>
      split
      · rename_i hb
        simp only [Memory.read1]
        rw [SMap.get_of_above memDefault (Memory.cells_wf (k + 1) bs) (by omega)]
        simp [memDefault, hb]
      · simp [Memory.read1, SMap.get]
    | succ i =>
      have hlen : i < bs.length := by simpa using hi
      have := ih (k + 1) i hlen
      rw [show k + 1 + i = k + (i + 1) by omega] at this
      split
      · rw [this]; simp
      · simp only [Memory.read1, SMap.get]
        rw [if_neg (by omega), if_neg (by omega)]
        simpa [Memory.read1] using this

/-- A byte read inside what was written is the byte written. -/
theorem Memory.read1_write_inside {m : List Host.Cell} (k i : Nat) (bs : List Byte) (h : Memory.wf m = true) (hi : i < bs.length) :
    Memory.read1 (Memory.write m k bs) (k + i) = bs.getD i 0 := by
  have := SMap.get_splice memDefault k (k + bs.length) (k + i) h (by omega) (Memory.cells_wf k bs) (Memory.cells_lt k bs)
  rw [if_pos (by omega)] at this
  exact this.trans (Memory.read1_cells k i bs hi)

/-- A byte outside what was written reads as before. -/
theorem Memory.read1_write_outside {m : List Host.Cell} (k j : Nat) (bs : List Byte) (h : Memory.wf m = true)
    (hj : j < k ∨ k + bs.length ≤ j) : Memory.read1 (Memory.write m k bs) j = Memory.read1 m j := by
  have := SMap.get_splice memDefault k (k + bs.length) j h (by omega) (Memory.cells_wf k bs) (Memory.cells_lt k bs)
  rwa [if_neg (by omega)] at this

/-- A read of several bytes is the reads of each. -/
theorem Memory.read_eq {m : List Host.Cell} (k n : Nat) (h : Memory.wf m = true) :
    Memory.read m k n = (List.range n).map fun i => Memory.read1 m (k + i) := by
  unfold Memory.read
  refine List.map_congr_left fun i hi => ?_
  have hw : SMap.wfAbove memDefault 0 (Memory.within m k n) = true := SMap.wfAbove_filter memDefault _ h
  unfold Memory.read1
  rw [SMap.get_eq_find memDefault (k + i) hw, SMap.get_eq_find memDefault (k + i) h]
  simp only [Memory.within, find_filter]
  have : (m.find? fun x => decide (k ≤ x.1 ∧ x.1 < k + n) && (x.1 == k + i)) = m.find? fun x => x.1 == k + i := by
    congr 1; funext x
    by_cases hx : x.1 = k + i
    · have := List.mem_range.mp hi; simp [hx]; omega
    · simp [hx]
  rw [this]

/-! ### The flash (R449) -/

/-- An erase keeps the canonical form of the flash. -/
theorem Kept.wf_flashErase {k : Kept} (off n : Nat) (h : SMap.wf flashDefault k.flash = true) :
    SMap.wf flashDefault (k.flashErase off n).flash = true := SMap.wfAbove_filter flashDefault _ h

/-- The cells of bytes of the flash, numbered from `i`. -/
theorem flash_cells (off i : Nat) (bs : List Byte) :
    let c := ((List.range' i bs.length).zip bs).filterMap fun x => if x.2 = 0xFF then none else some (off + x.1, x.2)
    SMap.wfAbove flashDefault (off + i) c = true ∧ (∀ e ∈ c, e.1 < off + i + bs.length) ∧
      ∀ j, j < bs.length → SMap.get flashDefault c (off + i + j) = bs.getD j 0xFF := by
  induction bs generalizing i with
  | nil => simp [SMap.wfAbove]
  | cons b bs ih =>
    obtain ⟨h1, h2, h3⟩ := ih (i + 1)
    simp only [List.length_cons, List.range'_succ, List.zip_cons_cons, List.filterMap_cons]
    by_cases hb : b = 0xFF
    · simp only [hb, if_true]
      refine ⟨SMap.wfAbove_mono _ h1 (by omega), fun e he => by have := h2 e he; omega, fun j hj => ?_⟩
      cases j with
      | zero => rw [SMap.get_of_above flashDefault h1 (by omega)]; simp [flashDefault]
      | succ j => have := h3 j (by omega); rw [show off + (i + 1) + j = off + i + (j + 1) by omega] at this; simpa using this
    · simp only [hb, if_false]
      refine ⟨?_, ?_, fun j hj => ?_⟩
      · simp only [SMap.wfAbove, Bool.and_eq_true, decide_eq_true_eq]
        exact ⟨⟨by omega, hb⟩, h1⟩
      · intro e he
        rcases List.mem_cons.mp he with rfl | he
        · simp
        · have := h2 e he; omega
      · cases j with
        | zero => simp [SMap.get]
        | succ j =>
          have := h3 j (by omega)
          rw [show off + (i + 1) + j = off + i + (j + 1) by omega] at this
          simp only [SMap.get]
          rw [if_neg (by omega), if_neg (by omega)]
          simpa using this

/-- A write keeps the canonical form of the flash. -/
theorem Kept.wf_flashWrite {k : Kept} (off : Nat) (bs : List Byte) (h : SMap.wf flashDefault k.flash = true) :
    SMap.wf flashDefault (k.flashWrite off bs).flash = true := by
  obtain ⟨h1, h2, -⟩ := flash_cells off 0 bs
  rw [← List.range_eq_range'] at h1 h2
  exact SMap.wf_splice flashDefault off (off + bs.length) h (by omega) h1 h2

/-- A byte of the flash outside what was written reads as before. -/
theorem Kept.flashWrite_outside {k : Kept} (off j : Nat) (bs : List Byte) (h : SMap.wf flashDefault k.flash = true)
    (hj : j < off ∨ off + bs.length ≤ j) : SMap.get flashDefault (k.flashWrite off bs).flash j = SMap.get flashDefault k.flash j := by
  obtain ⟨h1, h2, -⟩ := flash_cells off 0 bs
  rw [← List.range_eq_range'] at h1 h2
  have := SMap.get_splice flashDefault off (off + bs.length) j h (by omega) h1 h2
  rwa [if_neg (by omega)] at this

/-- A byte of the flash inside what was written reads what was written. -/
theorem Kept.flashWrite_inside {k : Kept} (off j : Nat) (bs : List Byte) (h : SMap.wf flashDefault k.flash = true) (hj : j < bs.length) :
    SMap.get flashDefault (k.flashWrite off bs).flash (off + j) = bs.getD j 0xFF := by
  obtain ⟨h1, h2, h3⟩ := flash_cells off 0 bs
  rw [← List.range_eq_range'] at h1 h2 h3
  have := SMap.get_splice flashDefault off (off + bs.length) (off + j) h (by omega) h1 h2
  rw [if_pos (by omega)] at this
  exact this.trans (h3 j hj)

/-- A byte of the flash outside what was erased reads as before. -/
theorem Kept.flashErase_outside {k : Kept} (off n j : Nat) (h : SMap.wf flashDefault k.flash = true) (hj : j < off ∨ off + n ≤ j) :
    SMap.get flashDefault (k.flashErase off n).flash j = SMap.get flashDefault k.flash j := by
  have hw : SMap.wfAbove flashDefault 0 (k.flashErase off n).flash = true := SMap.wfAbove_filter flashDefault _ h
  rw [SMap.get_eq_find flashDefault j hw, SMap.get_eq_find flashDefault j h]
  simp only [Kept.flashErase, find_filter]
  have : (k.flash.find? fun x => (!(decide (off ≤ x.1) && decide (x.1 < off + n))) && (x.1 == j)) = k.flash.find? fun x => x.1 == j := by
    congr 1; funext x
    by_cases hx : x.1 = j
    · simp [hx]; omega
    · simp [hx]
  rw [this]

/-- The reset memory and the reset flash are canonical. -/
theorem reset_canonical : Memory.wf State.reset.dev.mem = true ∧ SMap.wf flashDefault State.reset.kept.flash = true := ⟨rfl, rfl⟩

end Sys2Proof.Machine
end

