-- ==== Sys2Proof/Laws/Code.lean ====
section
/-! SUPPORT. Reads and writes of memory under its code: reports of errors change no byte, a read changes no byte, and every write keeps the
canonical form (R376–R383). -/

namespace Sys2Proof.Machine

theorem Dev.raise_mem (d : Dev) (code inst ctx gen detail : Nat) : (d.raise code inst ctx gen detail).mem = d.mem :=
  (d.reportsTo_raise code inst ctx gen detail).keeps.2.1

theorem Dev.noteCorr_mem (d : Dev) (w : Nat) (who : Who) (kind : Nat) : (d.noteCorr w who kind).mem = d.mem := by
  unfold Dev.noteCorr Dev.corrAt; simp only [Dev.raise_mem, Dev.fresh, Dev.bump_mem]

theorem Dev.noteUncorr_mem (d : Dev) (w : Nat) (who : Who) (kind : Nat) : (d.noteUncorr w who kind).mem = d.mem := by
  unfold Dev.noteUncorr Dev.uncorrAt; simp only [Dev.raise_mem, Dev.fresh, Dev.bump_mem, Dev.setF_mem]

theorem Dev.queueWb_mem (d : Dev) (w : Nat) (poison : Bool) (who : Who) : (d.queueWb w poison who).mem = d.mem := by
  unfold Dev.queueWb
  split
  · rfl
  · split
    · rfl
    · simp only [Dev.raise_mem, Dev.fresh, Dev.bump_mem]

@[simp] theorem Dev.noteWrote_mem (d : Dev) (key n : Nat) : (d.noteWrote key n).mem = d.mem := by
  unfold Dev.noteWrote; split <;> rfl

theorem Dev.wordWritten_mem (d : Dev) (w : Nat) : (d.wordWritten w).mem = d.mem := by
  unfold Dev.wordWritten
  dsimp only
  split <;> simp

/-- Counting and queueing the errors that a read meets changes no byte. -/
theorem Dev.scanRead_mem (d : Dev) (ws : List Nat) (who : Who) (kind : Nat) (counts : Bool) : (d.scanRead ws who kind counts).1.mem = d.mem := by
  unfold Dev.scanRead
  refine List.foldlRecOn (motive := fun acc : Dev × List Nat × List (Nat × Nat) => acc.1.mem = d.mem) _ _ rfl fun acc h w _ => ?_
  obtain ⟨e, bad, wrong⟩ := acc
  dsimp only at h ⊢
  split
  · exact h
  · split
    · rw [Dev.queueWb_mem, Dev.noteCorr_mem, h]
    · exact h
  · have h2 : ∀ b : Bool, (if b then e.noteUncorr w who kind else e).mem = d.mem := fun b => by
      cases b
      · exact h
      · exact (Dev.noteUncorr_mem ..).trans h
    have hq : ∀ x : Dev, x.mem = d.mem → (if (x.wordErr w).poison then x else x.queueWb w true who).mem = d.mem := fun x hx => by
      split
      · exact hx
      · exact (Dev.queueWb_mem ..).trans hx
    exact hq _ (h2 _)
  · dsimp only [Dev.fresh]
    by_cases h0 : Config.freeNat e.free % 3 = 0
    · simp only [h0, if_true, Dev.queueWb_mem, Dev.noteUncorr_mem]; exact h
    · simp only [h0, if_false]
      by_cases h1 : Config.freeNat e.free % 3 = 1
      · simp only [h1, if_true, Dev.queueWb_mem, Dev.noteCorr_mem]; exact h
      · simp only [h1, if_false]; exact h

/-- A read under the code changes no byte (R378, R380). -/
theorem Dev.readKey_mem (d : Dev) (key n : Nat) (who : Who) (kind : Nat) (counts : Bool) : (d.readKey key n who kind counts).1.mem = d.mem := by
  unfold Dev.readKey
  split
  · rfl
  · split
    · rfl
    · exact d.scanRead_mem _ who kind counts

/-- A read of words without errors, whose domains are on, is the bytes that memory holds. -/
theorem Dev.readKey_clean {d : Dev} {key n : Nat} (hd : d.downWord key n = none) (he : d.badWords key n = []) (who : Who) (kind : Nat)
    (counts : Bool) : d.readKey key n who kind counts = (d, d.peek key n, none) := by
  unfold Dev.readKey; rw [hd, he]

/-- A write to words that need nothing more is the bytes written; the range is noted for a flip armed in the same clock (R396). -/
theorem Dev.writeKey_plain {d : Dev} {key : Nat} {bs : List Byte} (hb : bs ≠ []) (hd : d.downWord key bs.length = none)
    (he : d.oddWords key bs.length = []) (who : Who) : d.writeKey key bs who = ((d.poke key bs).noteWrote key bs.length, none) := by
  unfold Dev.writeKey
  dsimp only
  rw [if_neg (by simpa using hb), hd, he]

/-- A fill keeps the canonical form (R394). -/
theorem Dev.wf_fillKey {d : Dev} (key n : Nat) (h : Memory.wf d.mem = true) : Memory.wf (d.fillKey key n).mem = true := by
  unfold Dev.fillKey
  suffices g : ∀ (l : List Nat) (e : Dev), (l.foldl (fun d w => d.wordWritten w) e).mem = e.mem by
    dsimp only; rw [g, Dev.noteWrote_mem]; exact Memory.wf_fill key n h
  intro l
  induction l with
  | nil => exact fun _ => rfl
  | cons w l ih => exact fun e => (ih _).trans (e.wordWritten_mem w)

/-- A raw write keeps the canonical form. -/
theorem Dev.wf_poke {d : Dev} (key : Nat) (bs : List Byte) (h : Memory.wf d.mem = true) : Memory.wf (d.poke key bs).mem = true :=
  Memory.wf_write key bs h

/-- A write under the code keeps the canonical form (R382). -/
theorem Dev.wf_writeKey {d : Dev} (key : Nat) (bs : List Byte) (who : Who) (h : Memory.wf d.mem = true) :
    Memory.wf (d.writeKey key bs who).1.mem = true := by
  unfold Dev.writeKey
  dsimp only
  split
  · exact h
  · split
    · exact h
    · split
      · rw [Dev.noteWrote_mem]; exact Dev.wf_poke key bs h
      · refine (fun {b : Bool} {x : Dev} {k n : Nat} (hx : Memory.wf x.mem = true) => show Memory.wf (if b then x else x.noteWrote k n).mem = true by
          cases b
          · exact (congrArg Memory.wf (Dev.noteWrote_mem x k n)).trans hx
          · exact hx) ?_
        refine Dev.wf_poke key _ (List.foldlRecOn (motive := fun acc : Dev × List Byte × Option Nat => Memory.wf acc.1.mem = true) _ _ h fun acc hacc w _ => ?_)
        obtain ⟨e, x, bad⟩ := acc
        dsimp only at hacc ⊢
        split
        · rw [Dev.wordWritten_mem]; exact hacc
        · split
          · rw [Dev.wordWritten_mem]; exact hacc
          · rw [Dev.wordWritten_mem, Dev.noteCorr_mem]; exact hacc
          · dsimp only
            split
            · rw [Dev.noteUncorr_mem]; exact hacc
            · rw [Dev.queueWb_mem, Dev.noteUncorr_mem]; exact hacc
          · dsimp only [Dev.fresh]
            by_cases h0 : Config.freeNat e.free % 3 = 0
            · simp only [h0, if_true, Dev.queueWb_mem, Dev.noteUncorr_mem]; exact hacc
            · simp only [h0, if_false, Dev.wordWritten_mem]
              refine Memory.wf_write _ _ ?_
              by_cases h1 : Config.freeNat e.free % 3 = 1
              · simp only [h1, if_true, Dev.noteCorr_mem]; exact hacc
              · simp only [h1, if_false]; exact hacc

/-- What is lost with a domain leaves a canonical memory (R485). -/
theorem Dev.wf_dropMem {d : Dev} (p : Nat → Nat → Bool) (h : Memory.wf d.mem = true) : Memory.wf (d.dropMem p).mem = true :=
  Memory.wf_filter _ h

end Sys2Proof.Machine
end

