-- ==== Sys2Proof/WellFormed.lean ====
section
/-! DEFINITION. Which commands are well formed: a slot command's word carries the opcode of its row (R63, R68, R71, R80,
R87, R119, R122, R125, R135), and an operand that numbers an instance stays inside the instances the spec gives. -/

namespace Sys2Proof

/-- The opcode of a slot row and the word the command carries; none for the other rows. -/
def Instr.slotWord : Instr → Option (Nat × BitVec 64)
  | .add _ _ w => some (0x01, w)
  | .sub _ _ w => some (0x02, w)
  | .and _ _ w => some (0x03, w)
  | .or _ _ w => some (0x04, w)
  | .xor _ _ w => some (0x05, w)
  | .shl _ _ w => some (0x06, w)
  | .shr _ _ w => some (0x07, w)
  | .sra _ _ w => some (0x08, w)
  | .mul _ _ w => some (0x09, w)
  | .mulhs _ _ w => some (0x0A, w)
  | .mulhu _ _ w => some (0x0B, w)
  | .min _ _ w => some (0x0C, w)
  | .max _ _ w => some (0x0D, w)
  | .minu _ _ w => some (0x0E, w)
  | .maxu _ _ w => some (0x0F, w)
  | .clz _ _ w => some (0x10, w)
  | .popc _ _ w => some (0x11, w)
  | .sel _ _ w => some (0x12, w)
  | .addi _ _ w => some (0x21, w)
  | .andi _ _ w => some (0x23, w)
  | .ori _ _ w => some (0x24, w)
  | .xori _ _ w => some (0x25, w)
  | .shli _ _ w => some (0x26, w)
  | .shri _ _ w => some (0x27, w)
  | .srai _ _ w => some (0x28, w)
  | .movi _ _ w => some (0x30, w)
  | .movhi _ _ w => some (0x31, w)
  | .cmp _ _ w => some (0x40, w)
  | .cmpi _ _ w => some (0x41, w)
  | .plog _ _ w => some (0x42, w)
  | .movs _ _ w => some (0x50, w)
  | .b _ w => some (0x01, w)
  | .br _ w => some (0x02, w)
  | .call _ w => some (0x03, w)
  | .loop _ w => some (0x04, w)
  | .loopi _ w => some (0x05, w)
  | .waitc _ w => some (0x06, w)
  | .chkpt _ w => some (0x07, w)
  | .commit _ w => some (0x08, w)
  | .squash _ w => some (0x09, w)
  | .sliceEnd _ w => some (0x0A, w)
  | .trap _ w => some (0x0B, w)
  | .ld8u _ _ w => some (0x01, w)
  | .ld16u _ _ w => some (0x02, w)
  | .ld32u _ _ w => some (0x03, w)
  | .ld64 _ _ w => some (0x04, w)
  | .ld8s _ _ w => some (0x05, w)
  | .ld16s _ _ w => some (0x06, w)
  | .ld32s _ _ w => some (0x07, w)
  | .st8 _ _ w => some (0x10, w)
  | .st16 _ _ w => some (0x11, w)
  | .st32 _ _ w => some (0x12, w)
  | .st64 _ _ w => some (0x13, w)
  | .vld _ _ w => some (0x20, w)
  | .vst _ _ w => some (0x21, w)
  | .dld _ _ w => some (0x30, w)
  | .dst _ _ w => some (0x31, w)
  | .dma _ _ w => some (0x40, w)
  | .dmawait _ _ w => some (0x41, w)
  | .vldt _ _ w => some (0x50, w)
  | .mldw _ _ w => some (0x51, w)
  | .mma _ w => some (0x01, w)
  | .mdrain _ w => some (0x02, w)
  | .vadd _ w => some (0x01, w)
  | .vsub _ w => some (0x02, w)
  | .vmul _ w => some (0x03, w)
  | .vfma _ w => some (0x04, w)
  | .vmin _ w => some (0x05, w)
  | .vmax _ w => some (0x06, w)
  | .vabs _ w => some (0x07, w)
  | .vneg _ w => some (0x08, w)
  | .vand _ w => some (0x09, w)
  | .vor _ w => some (0x0A, w)
  | .vxor _ w => some (0x0B, w)
  | .vshl _ w => some (0x0C, w)
  | .vsra _ w => some (0x0D, w)
  | .vcmp _ w => some (0x10, w)
  | .vsel _ w => some (0x11, w)
  | .vexp2 _ w => some (0x18, w)
  | .vlog2 _ w => some (0x19, w)
  | .vrcp _ w => some (0x1A, w)
  | .vrsqrt _ w => some (0x1B, w)
  | .vsqrt _ w => some (0x1C, w)
  | .vcvt _ w => some (0x20, w)
  | .vbcast _ w => some (0x28, w)
  | .vred _ w => some (0x30, w)
  | .vperm _ w => some (0x38, w)
  | .vrot _ w => some (0x39, w)
  | .eissue _ w => some (0x01, w)
  | .ewait _ w => some (0x02, w)
  | .xsend _ w => some (0x10, w)
  | .xrecv _ w => some (0x11, w)
  | .xwait _ w => some (0x12, w)
  | _ => none

/-- The opcode field of a slot word (R63). -/
def opcodeOf (w : BitVec 64) : Nat := field w.toNat 56 8

/-- The opcodes defined for a slot beside 0 (R68, R71, R80, R87, R119, R122, R125, R135); slots are numbered as in R62. -/
def slotOpcodes (slot : Nat) : List Nat :=
  match slot with
  | 0 => [0x01, 0x02, 0x03, 0x04, 0x05, 0x06, 0x07, 0x08, 0x09, 0x0A, 0x0B]
  | 3 => [0x01, 0x02, 0x03, 0x04, 0x05, 0x06, 0x07, 0x08, 0x09, 0x0A, 0x0B, 0x0C, 0x0D, 0x10, 0x11, 0x18, 0x19, 0x1A, 0x1B, 0x1C, 0x20,
          0x28, 0x30, 0x38, 0x39]
  | 4 => [0x01, 0x02]
  | 5 => [0x01, 0x02, 0x03, 0x04, 0x05, 0x06, 0x07, 0x10, 0x11, 0x12, 0x13, 0x20, 0x21, 0x30, 0x31, 0x40, 0x41, 0x50, 0x51]
  | 6 => [0x01, 0x02, 0x03, 0x04, 0x05, 0x06, 0x07, 0x10, 0x11, 0x12, 0x13, 0x20, 0x21, 0x30, 0x31, 0x40, 0x41, 0x50, 0x51]
  | 7 => [0x01, 0x02, 0x10, 0x11, 0x12]
  | _ => [0x01, 0x02, 0x03, 0x04, 0x05, 0x06, 0x07, 0x08, 0x09, 0x0A, 0x0B, 0x0C, 0x0D, 0x0E, 0x0F, 0x10, 0x11, 0x12, 0x21, 0x23, 0x24,
          0x25, 0x26, 0x27, 0x28, 0x30, 0x31, 0x40, 0x41, 0x42, 0x50]

/-- A slot command's word carries its row's opcode. NOP also carries every slot word whose opcode is not defined for its slot, which has
no row of its own (R63, log 12). -/
def Instr.opcodeOk (i : Instr) : Bool :=
  match i.slotWord with
  | some (op, w) => opcodeOf w == op
  | none =>
    match i with
    | .nop _ slot w => opcodeOf w == 0 || !(slotOpcodes slot.toNat).contains (opcodeOf w)
    | _ => true

/-- A classic CAN frame holds at most 8 bytes and a CAN FD frame at most 64 (R173). -/
def CanFrame.lenOk (f : CanFrame) : Bool := decide (f.data.length ≤ (if f.fd then 64 else 8))

/-- An operand that numbers an instance stays inside the instances of the spec: 37 captured inputs (R208), 36 domains (R486),
23 recovery units (R464), 6 quotas (R369), three BARs (R419), the register sizes of R13, and message lengths. -/
def Instr.operandsOk : Instr → Bool
  | .strobeEdge i _ => decide (i.toNat < 37)
  | .domainFault n => decide (n.toNat < 36)
  | .topCtxQuota _ i _ => decide (i.toNat < 6)
  | .registerWrite _ _ size _ => size == 4 || size == 8
  | .registerReadClear _ _ size => size == 4 || size == 8
  | .regRead _ size => size == 4 || size == 8
  | .regWrite _ size _ => size == 4 || size == 8
  | .barRead bar _ _ => bar == 0 || bar == 2 || bar == 4
  | .barWrite bar _ _ => bar == 0 || bar == 2 || bar == 4
  | .canFrameReceive _ f => f.lenOk
  | .mboxSubmit _ cmd => cmd.length == 64
  | _ => true

/-- Well-formed commands. -/
def Instr.wf (i : Instr) : Bool := i.opcodeOk && i.operandsOk

end Sys2Proof
end

