-- ==== Sys2Proof/Laws/PerInstr.lean ====
section
/-! SUPPORT. What is proved of every command as syntax: a well-formed slot command carries its row's opcode. -/

namespace Sys2Proof.Laws.Wf

/-- The word of a well-formed slot command carries the opcode of its row (R63). -/
def Statement (i : Sys2Proof.Instr) : Prop :=
  i.wf = true → ∀ op w, i.slotWord = some (op, w) → Sys2Proof.opcodeOf w = op

/-- Every command satisfies the statement. -/
theorem all (i : Sys2Proof.Instr) : Statement i := by
  intro h op w e
  have h1 : i.opcodeOk = true := by
    simp only [Sys2Proof.Instr.wf, Bool.and_eq_true] at h
    exact h.1
  simp only [Sys2Proof.Instr.opcodeOk, e] at h1
  exact eq_of_beq h1

theorem registerWrite (path : Sys2Proof.Path) (addr : Nat) (size : Nat) (value : BitVec 64) : Statement (.registerWrite path addr size value) := all _
theorem registerReadClear (path : Sys2Proof.Path) (addr : Nat) (size : Nat) : Statement (.registerReadClear path addr size) := all _
theorem lowHalfWrite (path : Sys2Proof.Path) (addr : Nat) (value : BitVec 32) : Statement (.lowHalfWrite path addr value) := all _
theorem lowHalfRead (path : Sys2Proof.Path) (addr : Nat) : Statement (.lowHalfRead path addr) := all _
theorem collectorIntake : Statement (.collectorIntake) := all _
theorem collectorWrite : Statement (.collectorWrite) := all _
theorem topEvtCtl (path : Sys2Proof.Path) (value : BitVec 32) : Statement (.topEvtCtl path value) := all _
theorem topEvtRingRd (path : Sys2Proof.Path) (value : BitVec 32) : Statement (.topEvtRingRd path value) := all _
theorem planLoad : Statement (.planLoad) := all _
theorem planStart : Statement (.planStart) := all _
theorem planLock : Statement (.planLock) := all _
theorem planStop : Statement (.planStop) := all _
theorem planStopEnd : Statement (.planStopEnd) := all _
theorem planUnload : Statement (.planUnload) := all _
theorem planStore : Statement (.planStore) := all _
theorem majorPeriodBoundary : Statement (.majorPeriodBoundary) := all _
theorem nop (p : Runner) (slot : BitVec 3) (w : BitVec 64) : Statement (.nop p slot w) := all _
theorem add (p : Runner) (s1 : Bool) (w : BitVec 64) : Statement (.add p s1 w) := all _
theorem sub (p : Runner) (s1 : Bool) (w : BitVec 64) : Statement (.sub p s1 w) := all _
theorem and (p : Runner) (s1 : Bool) (w : BitVec 64) : Statement (.and p s1 w) := all _
theorem or (p : Runner) (s1 : Bool) (w : BitVec 64) : Statement (.or p s1 w) := all _
theorem xor (p : Runner) (s1 : Bool) (w : BitVec 64) : Statement (.xor p s1 w) := all _
theorem shl (p : Runner) (s1 : Bool) (w : BitVec 64) : Statement (.shl p s1 w) := all _
theorem shr (p : Runner) (s1 : Bool) (w : BitVec 64) : Statement (.shr p s1 w) := all _
theorem sra (p : Runner) (s1 : Bool) (w : BitVec 64) : Statement (.sra p s1 w) := all _
theorem mul (p : Runner) (s1 : Bool) (w : BitVec 64) : Statement (.mul p s1 w) := all _
theorem mulhs (p : Runner) (s1 : Bool) (w : BitVec 64) : Statement (.mulhs p s1 w) := all _
theorem mulhu (p : Runner) (s1 : Bool) (w : BitVec 64) : Statement (.mulhu p s1 w) := all _
theorem min (p : Runner) (s1 : Bool) (w : BitVec 64) : Statement (.min p s1 w) := all _
theorem max (p : Runner) (s1 : Bool) (w : BitVec 64) : Statement (.max p s1 w) := all _
theorem minu (p : Runner) (s1 : Bool) (w : BitVec 64) : Statement (.minu p s1 w) := all _
theorem maxu (p : Runner) (s1 : Bool) (w : BitVec 64) : Statement (.maxu p s1 w) := all _
theorem clz (p : Runner) (s1 : Bool) (w : BitVec 64) : Statement (.clz p s1 w) := all _
theorem popc (p : Runner) (s1 : Bool) (w : BitVec 64) : Statement (.popc p s1 w) := all _
theorem sel (p : Runner) (s1 : Bool) (w : BitVec 64) : Statement (.sel p s1 w) := all _
theorem addi (p : Runner) (s1 : Bool) (w : BitVec 64) : Statement (.addi p s1 w) := all _
theorem andi (p : Runner) (s1 : Bool) (w : BitVec 64) : Statement (.andi p s1 w) := all _
theorem ori (p : Runner) (s1 : Bool) (w : BitVec 64) : Statement (.ori p s1 w) := all _
theorem xori (p : Runner) (s1 : Bool) (w : BitVec 64) : Statement (.xori p s1 w) := all _
theorem shli (p : Runner) (s1 : Bool) (w : BitVec 64) : Statement (.shli p s1 w) := all _
theorem shri (p : Runner) (s1 : Bool) (w : BitVec 64) : Statement (.shri p s1 w) := all _
theorem srai (p : Runner) (s1 : Bool) (w : BitVec 64) : Statement (.srai p s1 w) := all _
theorem movi (p : Runner) (s1 : Bool) (w : BitVec 64) : Statement (.movi p s1 w) := all _
theorem movhi (p : Runner) (s1 : Bool) (w : BitVec 64) : Statement (.movhi p s1 w) := all _
theorem cmp (p : Runner) (s1 : Bool) (w : BitVec 64) : Statement (.cmp p s1 w) := all _
theorem cmpi (p : Runner) (s1 : Bool) (w : BitVec 64) : Statement (.cmpi p s1 w) := all _
theorem plog (p : Runner) (s1 : Bool) (w : BitVec 64) : Statement (.plog p s1 w) := all _
theorem movs (p : Runner) (s1 : Bool) (w : BitVec 64) : Statement (.movs p s1 w) := all _
theorem b (p : Runner) (w : BitVec 64) : Statement (.b p w) := all _
theorem br (p : Runner) (w : BitVec 64) : Statement (.br p w) := all _
theorem call (p : Runner) (w : BitVec 64) : Statement (.call p w) := all _
theorem loop (p : Runner) (w : BitVec 64) : Statement (.loop p w) := all _
theorem loopi (p : Runner) (w : BitVec 64) : Statement (.loopi p w) := all _
theorem waitc (p : Runner) (w : BitVec 64) : Statement (.waitc p w) := all _
theorem waitcRelease (p : BitVec 4) : Statement (.waitcRelease p) := all _
theorem chkpt (p : Runner) (w : BitVec 64) : Statement (.chkpt p w) := all _
theorem commit (p : Runner) (w : BitVec 64) : Statement (.commit p w) := all _
theorem squash (p : Runner) (w : BitVec 64) : Statement (.squash p w) := all _
theorem commitDone (p : BitVec 4) : Statement (.commitDone p) := all _
theorem squashDone (p : BitVec 4) : Statement (.squashDone p) := all _
theorem sliceEnd (p : Runner) (w : BitVec 64) : Statement (.sliceEnd p w) := all _
theorem trap (p : Runner) (w : BitVec 64) : Statement (.trap p w) := all _
theorem ld8u (p : Runner) (l1 : Bool) (w : BitVec 64) : Statement (.ld8u p l1 w) := all _
theorem ld16u (p : Runner) (l1 : Bool) (w : BitVec 64) : Statement (.ld16u p l1 w) := all _
theorem ld32u (p : Runner) (l1 : Bool) (w : BitVec 64) : Statement (.ld32u p l1 w) := all _
theorem ld64 (p : Runner) (l1 : Bool) (w : BitVec 64) : Statement (.ld64 p l1 w) := all _
theorem ld8s (p : Runner) (l1 : Bool) (w : BitVec 64) : Statement (.ld8s p l1 w) := all _
theorem ld16s (p : Runner) (l1 : Bool) (w : BitVec 64) : Statement (.ld16s p l1 w) := all _
theorem ld32s (p : Runner) (l1 : Bool) (w : BitVec 64) : Statement (.ld32s p l1 w) := all _
theorem st8 (p : Runner) (l1 : Bool) (w : BitVec 64) : Statement (.st8 p l1 w) := all _
theorem st16 (p : Runner) (l1 : Bool) (w : BitVec 64) : Statement (.st16 p l1 w) := all _
theorem st32 (p : Runner) (l1 : Bool) (w : BitVec 64) : Statement (.st32 p l1 w) := all _
theorem st64 (p : Runner) (l1 : Bool) (w : BitVec 64) : Statement (.st64 p l1 w) := all _
theorem vld (p : Runner) (l1 : Bool) (w : BitVec 64) : Statement (.vld p l1 w) := all _
theorem vst (p : Runner) (l1 : Bool) (w : BitVec 64) : Statement (.vst p l1 w) := all _
theorem dld (p : Runner) (l1 : Bool) (w : BitVec 64) : Statement (.dld p l1 w) := all _
theorem dst (p : Runner) (l1 : Bool) (w : BitVec 64) : Statement (.dst p l1 w) := all _
theorem dma (p : Runner) (l1 : Bool) (w : BitVec 64) : Statement (.dma p l1 w) := all _
theorem dmawait (p : Runner) (l1 : Bool) (w : BitVec 64) : Statement (.dmawait p l1 w) := all _
theorem dmaTransferDone (p : BitVec 4) (q : BitVec 2) : Statement (.dmaTransferDone p q) := all _
theorem vldt (p : Runner) (l1 : Bool) (w : BitVec 64) : Statement (.vldt p l1 w) := all _
theorem mldw (p : Runner) (l1 : Bool) (w : BitVec 64) : Statement (.mldw p l1 w) := all _
theorem mma (p : Runner) (w : BitVec 64) : Statement (.mma p w) := all _
theorem mdrain (p : Runner) (w : BitVec 64) : Statement (.mdrain p w) := all _
theorem resultLand (p : BitVec 4) : Statement (.resultLand p) := all _
theorem bundleRetire (p : BitVec 4) : Statement (.bundleRetire p) := all _
theorem vadd (p : Runner) (w : BitVec 64) : Statement (.vadd p w) := all _
theorem vsub (p : Runner) (w : BitVec 64) : Statement (.vsub p w) := all _
theorem vmul (p : Runner) (w : BitVec 64) : Statement (.vmul p w) := all _
theorem vfma (p : Runner) (w : BitVec 64) : Statement (.vfma p w) := all _
theorem vmin (p : Runner) (w : BitVec 64) : Statement (.vmin p w) := all _
theorem vmax (p : Runner) (w : BitVec 64) : Statement (.vmax p w) := all _
theorem vabs (p : Runner) (w : BitVec 64) : Statement (.vabs p w) := all _
theorem vneg (p : Runner) (w : BitVec 64) : Statement (.vneg p w) := all _
theorem vand (p : Runner) (w : BitVec 64) : Statement (.vand p w) := all _
theorem vor (p : Runner) (w : BitVec 64) : Statement (.vor p w) := all _
theorem vxor (p : Runner) (w : BitVec 64) : Statement (.vxor p w) := all _
theorem vshl (p : Runner) (w : BitVec 64) : Statement (.vshl p w) := all _
theorem vsra (p : Runner) (w : BitVec 64) : Statement (.vsra p w) := all _
theorem vcmp (p : Runner) (w : BitVec 64) : Statement (.vcmp p w) := all _
theorem vsel (p : Runner) (w : BitVec 64) : Statement (.vsel p w) := all _
theorem vexp2 (p : Runner) (w : BitVec 64) : Statement (.vexp2 p w) := all _
theorem vlog2 (p : Runner) (w : BitVec 64) : Statement (.vlog2 p w) := all _
theorem vrcp (p : Runner) (w : BitVec 64) : Statement (.vrcp p w) := all _
theorem vrsqrt (p : Runner) (w : BitVec 64) : Statement (.vrsqrt p w) := all _
theorem vsqrt (p : Runner) (w : BitVec 64) : Statement (.vsqrt p w) := all _
theorem vcvt (p : Runner) (w : BitVec 64) : Statement (.vcvt p w) := all _
theorem vbcast (p : Runner) (w : BitVec 64) : Statement (.vbcast p w) := all _
theorem vred (p : Runner) (w : BitVec 64) : Statement (.vred p w) := all _
theorem vperm (p : Runner) (w : BitVec 64) : Statement (.vperm p w) := all _
theorem vrot (p : Runner) (w : BitVec 64) : Statement (.vrot p w) := all _
theorem eissue (p : Runner) (w : BitVec 64) : Statement (.eissue p w) := all _
theorem ewait (p : Runner) (w : BitVec 64) : Statement (.ewait p w) := all _
theorem engineWindowEnd (engine : BitVec 2) : Statement (.engineWindowEnd engine) := all _
theorem xsend (p : Runner) (w : BitVec 64) : Statement (.xsend p w) := all _
theorem xrecv (p : Runner) (w : BitVec 64) : Statement (.xrecv p w) := all _
theorem xwait (p : Runner) (w : BitVec 64) : Statement (.xwait p w) := all _
theorem runSliceStart (p : BitVec 4) : Statement (.runSliceStart p) := all _
theorem sliceSave (p : BitVec 4) : Statement (.sliceSave p) := all _
theorem swapSlice (p : BitVec 4) : Statement (.swapSlice p) := all _
theorem exchangeComplete : Statement (.exchangeComplete) := all _
theorem mboxSubmit (path : Sys2Proof.Path) (cmd : List Sys2Proof.Byte) : Statement (.mboxSubmit path cmd) := all _
theorem stewMboxPop (path : Sys2Proof.Path) : Statement (.stewMboxPop path) := all _
theorem create : Statement (.create) := all _
theorem suspend : Statement (.suspend) := all _
theorem resume : Statement (.resume) := all _
theorem retire : Statement (.retire) := all _
theorem exchange : Statement (.exchange) := all _
theorem topCtxQuota (path : Sys2Proof.Path) (i : BitVec 3) (value : BitVec 32) : Statement (.topCtxQuota path i value) := all _
theorem powerCap : Statement (.powerCap) := all _
theorem logRead : Statement (.logRead) := all _
theorem updateStage : Statement (.updateStage) := all _
theorem updateActivate : Statement (.updateActivate) := all _
theorem updateConfirm : Statement (.updateConfirm) := all _
theorem configWrite : Statement (.configWrite) := all _
theorem attest : Statement (.attest) := all _
theorem canSend : Statement .canSend := all _
theorem ethSend : Statement (.ethSend) := all _
theorem deviceRecover : Statement (.deviceRecover) := all _
theorem telemetrySlice (readings : List (Nat × BitVec 32)) : Statement (.telemetrySlice readings) := all _
theorem logSlice : Statement (.logSlice) := all _
theorem mailboxSlice : Statement (.mailboxSlice) := all _
theorem housekeepingSlice : Statement (.housekeepingSlice) := all _
theorem stewTrap (cause : BitVec 4) : Statement (.stewTrap cause) := all _
theorem stewTelCtl (path : Sys2Proof.Path) (value : BitVec 32) : Statement (.stewTelCtl path value) := all _
theorem stewTelRd (path : Sys2Proof.Path) (value : BitVec 32) : Statement (.stewTelRd path value) := all _
theorem stewardBoot : Statement (.stewardBoot) := all _
theorem hedgeInval (path : Sys2Proof.Path) (value : BitVec 32) : Statement (.hedgeInval path value) := all _
theorem invalComplete : Statement (.invalComplete) := all _
theorem hedgeFence (path : Sys2Proof.Path) (value : BitVec 32) : Statement (.hedgeFence path value) := all _
theorem fenceDrainEnd : Statement (.fenceDrainEnd) := all _
theorem fenceDone : Statement (.fenceDone) := all _
theorem translationWalk : Statement (.translationWalk) := all _
theorem strobeEdge (input : BitVec 6) (rise : Bool) : Statement (.strobeEdge input rise) := all _
theorem stampConvert : Statement (.stampConvert) := all _
theorem csiFrameStart (port : BitVec 3) (vc : BitVec 2) (good : Bool) (frame : BitVec 16) : Statement (.csiFrameStart port vc good frame) := all _
theorem csiLongPacket (port : BitVec 3) (vc : BitVec 2) (dt : BitVec 6) (good : Bool) (payload : List Sys2Proof.Byte) : Statement (.csiLongPacket port vc dt good payload) := all _
theorem csiFrameEnd (port : BitVec 3) (vc : BitVec 2) : Statement (.csiFrameEnd port vc) := all _
theorem ethFrameReceive (port : BitVec 2) (fcsOk : Bool) (frame : List Sys2Proof.Byte) : Statement (.ethFrameReceive port fcsOk frame) := all _
theorem imuDrdyEdge (port : BitVec 1) : Statement (.imuDrdyEdge port) := all _
theorem imuTransferEnd (port : BitVec 1) (miso : List Sys2Proof.Byte) : Statement (.imuTransferEnd port miso) := all _
theorem canFrameReceive (ctl : BitVec 1) (frame : Sys2Proof.CanFrame) : Statement (.canFrameReceive ctl frame) := all _
theorem encoderEdge (ch : BitVec 3) (edge : Sys2Proof.EncEdge) : Statement (.encoderEdge ch edge) := all _
theorem encoderLatch (ch : BitVec 3) : Statement (.encoderLatch ch) := all _
theorem triggerPulse (t : BitVec 3) : Statement (.triggerPulse t) := all _
theorem portLink (kind : Sys2Proof.PortKind) (port : BitVec 3) (up : Bool) : Statement (.portLink kind port up) := all _
theorem gateSlotMap (path : Sys2Proof.Path) (n : BitVec 4) (value : BitVec 32) : Statement (.gateSlotMap path n value) := all _
theorem gateDiscover (path : Sys2Proof.Path) (value : BitVec 32) : Statement (.gateDiscover path value) := all _
theorem discovery (found : List (Nat × Nat × List Sys2Proof.Byte)) : Statement (.discovery found) := all _
theorem injectedSample (n : BitVec 4) : Statement (.injectedSample n) := all _
theorem dropPacket (n : BitVec 4) (sw : Bool) : Statement (.dropPacket n sw) := all _
theorem troughFlush (n : BitVec 4) : Statement (.troughFlush n) := all _
theorem troughHeadArrival (n : BitVec 4) : Statement (.troughHeadArrival n) := all _
theorem sampleIntake : Statement (.sampleIntake) := all _
theorem fuseProv (s : BitVec 3) : Statement (.fuseProv s) := all _
theorem fuseCommit (s : BitVec 3) : Statement (.fuseCommit s) := all _
theorem project : Statement (.project) := all _
theorem projClear : Statement (.projClear) := all _
theorem projJobEnd : Statement (.projJobEnd) := all _
theorem sweep : Statement (.sweep) := all _
theorem rules : Statement (.rules) := all _
theorem gather : Statement (.gather) := all _
theorem scatterAdd : Statement (.scatterAdd) := all _
theorem sieveJobEnd : Statement (.sieveJobEnd) := all _
theorem kin (q : BitVec 3) : Statement (.kin q) := all _
theorem invdyn (q : BitVec 3) : Statement (.invdyn q) := all _
theorem fwddyn (q : BitVec 3) : Statement (.fwddyn q) := all _
theorem wbik (q : BitVec 3) : Statement (.wbik q) := all _
theorem lsq (q : BitVec 3) : Statement (.lsq q) := all _
theorem millJobEnd (q : BitVec 3) : Statement (.millJobEnd q) := all _
theorem granOpen (lane : BitVec 2) : Statement (.granOpen lane) := all _
theorem granClose (lane : BitVec 2) : Statement (.granClose lane) := all _
theorem granFork (lane : BitVec 2) : Statement (.granFork lane) := all _
theorem granTrim (lane : BitVec 2) : Statement (.granTrim lane) := all _
theorem granAppend (lane : BitVec 2) : Statement (.granAppend lane) := all _
theorem granFlush (lane : BitVec 2) : Statement (.granFlush lane) := all _
theorem attend (lane : BitVec 2) : Statement (.attend lane) := all _
theorem merge (lane : BitVec 2) : Statement (.merge lane) := all _
theorem expand (lane : BitVec 2) : Statement (.expand lane) := all _
theorem bwd (lane : BitVec 2) : Statement (.bwd lane) := all _
theorem granJobEnd (lane : BitVec 2) : Statement (.granJobEnd lane) := all _
theorem granInit (path : Sys2Proof.Path) (value : BitVec 32) : Statement (.granInit path value) := all _
theorem granInitDone : Statement (.granInitDone) := all _
theorem stackRequestServe (ch : BitVec 5) : Statement (.stackRequestServe ch) := all _
theorem stackWindowEnd (ch : BitVec 5) : Statement (.stackWindowEnd ch) := all _
theorem refreshWindow (ch : BitVec 5) : Statement (.refreshWindow ch) := all _
theorem timerRefresh (ch : BitVec 5) : Statement (.timerRefresh ch) := all _
theorem maintenanceCycle (bank : Sys2Proof.MaintBank) : Statement (.maintenanceCycle bank) := all _
theorem fillDone : Statement (.fillDone) := all _
theorem stackTempRead (t0 : BitVec 8) (t1 : BitVec 8) : Statement (.stackTempRead t0 t1) := all _
theorem stackPhy (stack : BitVec 1) : Statement (.stackPhy stack) := all _
theorem portTraining (port : BitVec 2) : Statement (.portTraining port) := all _
theorem trainingDone (port : BitVec 2) (peer : Sys2Proof.LinkPeer) : Statement (.trainingDone port peer) := all _
theorem laneFault (port : BitVec 2) (lanes : BitVec 8) : Statement (.laneFault port lanes) := all _
theorem flitError (port : BitVec 2) (err : Sys2Proof.FlitErr) : Statement (.flitError port err) := all _
theorem replay (port : BitVec 2) (seq : BitVec 16) : Statement (.replay port seq) := all _
theorem dataMessage (port : BitVec 2) (msg : Sys2Proof.DataMsg) : Statement (.dataMessage port msg) := all _
theorem nackMsg (port : BitVec 2) (msg : Sys2Proof.NackMsg) : Statement (.nackMsg port msg) := all _
theorem noteMsg (port : BitVec 2) (msg : Sys2Proof.NoteMsg) : Statement (.noteMsg port msg) := all _
theorem receiveLanded (port : BitVec 2) (xfer : Nat) : Statement (.receiveLanded port xfer) := all _
theorem sendDone (port : BitVec 2) (xfer : Nat) : Statement (.sendDone port xfer) := all _
theorem timeRequest : Statement (.timeRequest) := all _
theorem timeAnswer (port : BitVec 2) (t1 : BitVec 64) : Statement (.timeAnswer port t1) := all _
theorem timeResponse (port : BitVec 2) (t1 : BitVec 64) (t2 : BitVec 64) (t3 : BitVec 64) : Statement (.timeResponse port t1 t2 t3) := all _
theorem holdoverTimeout : Statement (.holdoverTimeout) := all _
theorem rateApply : Statement (.rateApply) := all _
theorem bellSet (path : Sys2Proof.Path) (value : BitVec 64) : Statement (.bellSet path value) := all _
theorem bellCtl (path : Sys2Proof.Path) (value : BitVec 32) : Statement (.bellCtl path value) := all _
theorem vtAdvance (path : Sys2Proof.Path) (value : BitVec 64) : Statement (.vtAdvance path value) := all _
theorem bellAlmSet (path : Sys2Proof.Path) (value : BitVec 64) : Statement (.bellAlmSet path value) := all _
theorem almanacTick : Statement (.almanacTick) := all _
theorem ptpSync (port : BitVec 2) (msg : Sys2Proof.PtpMsg) : Statement (.ptpSync port msg) := all _
theorem ptpFollowUp (port : BitVec 2) (msg : Sys2Proof.PtpMsg) : Statement (.ptpFollowUp port msg) := all _
theorem ptpDelayReq (port : BitVec 2) (msg : Sys2Proof.PtpMsg) : Statement (.ptpDelayReq port msg) := all _
theorem ptpDelayResp (port : BitVec 2) (msg : Sys2Proof.PtpMsg) : Statement (.ptpDelayResp port msg) := all _
theorem ptpPdelayReq (port : BitVec 2) (msg : Sys2Proof.PtpMsg) : Statement (.ptpPdelayReq port msg) := all _
theorem ptpPdelayResp (port : BitVec 2) (msg : Sys2Proof.PtpMsg) : Statement (.ptpPdelayResp port msg) := all _
theorem ptpPdelayRespFollowUp (port : BitVec 2) (msg : Sys2Proof.PtpMsg) : Statement (.ptpPdelayRespFollowUp port msg) := all _
theorem ptpAnnounce (port : BitVec 2) (msg : Sys2Proof.PtpMsg) : Statement (.ptpAnnounce port msg) := all _
theorem ptpSyncInterval (port : BitVec 2) : Statement (.ptpSyncInterval port) := all _
theorem ptpAnnounceInterval (port : BitVec 2) : Statement (.ptpAnnounceInterval port) := all _
theorem ppsOutRise : Statement (.ppsOutRise) := all _
theorem ppsOutFall : Statement (.ppsOutFall) := all _
theorem ppsIn : Statement (.ppsIn) := all _
theorem pcieLinkUp (speed : BitVec 3) (width : BitVec 5) : Statement (.pcieLinkUp speed width) := all _
theorem pcieLinkDown : Statement (.pcieLinkDown) := all _
theorem perst (low : Bool) : Statement (.perst low) := all _
theorem hotReset : Statement (.hotReset) := all _
theorem flr : Statement (.flr) := all _
theorem barRead (bar : BitVec 3) (offset : Nat) (len : Nat) : Statement (.barRead bar offset len) := all _
theorem barWrite (bar : BitVec 3) (offset : Nat) (bytes : List Sys2Proof.Byte) : Statement (.barWrite bar offset bytes) := all _
theorem barTimeout (tag : Nat) : Statement (.barTimeout tag) := all _
theorem hostQTail (path : Sys2Proof.Path) (q : BitVec 2) (value : BitVec 32) : Statement (.hostQTail path q value) := all _
theorem hostDmaTransfer (desc : List Sys2Proof.Byte) (data : List Sys2Proof.Byte) (ok : Bool) : Statement (.hostDmaTransfer desc data ok) := all _
theorem hostQCtl (path : Sys2Proof.Path) (q : BitVec 2) (value : BitVec 32) : Statement (.hostQCtl path q value) := all _
theorem injectionWord (n : BitVec 4) : Statement (.injectionWord n) := all _
theorem doorbellTime (ctx : BitVec 12) (value : BitVec 64) : Statement (.doorbellTime ctx value) := all _
theorem doorbellTail (ctx : BitVec 12) (value : BitVec 32) : Statement (.doorbellTail ctx value) := all _
theorem msixUnmask (v : BitVec 8) : Statement (.msixUnmask v) := all _
theorem regRead (addr : Nat) (size : Nat) : Statement (.regRead addr size) := all _
theorem regWrite (addr : Nat) (size : Nat) (value : BitVec 64) : Statement (.regWrite addr size value) := all _
theorem memRead (addr : Nat) (len : Nat) : Statement (.memRead addr len) := all _
theorem memWrite (addr : Nat) (bytes : List Sys2Proof.Byte) : Statement (.memWrite addr bytes) := all _
theorem usbAttach (speed : BitVec 2) : Statement (.usbAttach speed) := all _
theorem hitchReadCycle (addr : BitVec 16) : Statement (.hitchReadCycle addr) := all _
theorem hitchWriteCycle (addr : BitVec 16) (word : BitVec 32) : Statement (.hitchWriteCycle addr word) := all _
theorem publishCopy : Statement (.publishCopy) := all _
theorem bankSwap : Statement (.bankSwap) := all _
theorem swapAcknowledge : Statement (.swapAcknowledge) := all _
theorem ageIncrement : Statement (.ageIncrement) := all _
theorem inboundCapture : Statement (.inboundCapture) := all _
theorem captureAcknowledge : Statement (.captureAcknowledge) := all _
theorem checkpointMiss (p : BitVec 4) : Statement (.checkpointMiss p) := all _
theorem engineHang (engine : BitVec 2) : Statement (.engineHang engine) := all _
theorem heartbeatTimeout (block : BitVec 4) : Statement (.heartbeatTimeout block) := all _
theorem stewardWatchdogExpiry : Statement (.stewardWatchdogExpiry) := all _
theorem recoveryRequest (path : Sys2Proof.Path) (value : BitVec 32) : Statement (.recoveryRequest path value) := all _
theorem unpark (path : Sys2Proof.Path) (value : BitVec 32) : Statement (.unpark path value) := all _
theorem dumpReadTimeout : Statement (.dumpReadTimeout) := all _
theorem dumpDone : Statement (.dumpDone) := all _
theorem recoveryDone (unit : BitVec 5) : Statement (.recoveryDone unit) := all _
theorem recoveryEscalation (unit : BitVec 5) : Statement (.recoveryEscalation unit) := all _
theorem deviceRecovery : Statement (.deviceRecovery) := all _
theorem deviceReset : Statement (.deviceReset) := all _
theorem inputStart : Statement (.inputStart) := all _
theorem inputStop : Statement (.inputStop) := all _
theorem powerGood : Statement (.powerGood) := all _
theorem powerSample (mv : BitVec 32) (ma : BitVec 32) : Statement (.powerSample mv ma) := all _
theorem overLimit : Statement (.overLimit) := all _
theorem thermalSample (temps : List (Nat × BitVec 8)) : Statement (.thermalSample temps) := all _
theorem thermalTrip (site : Nat) : Statement (.thermalTrip site) := all _
theorem pwrDomainReq (path : Sys2Proof.Path) (value : BitVec 64) : Statement (.pwrDomainReq path value) := all _
theorem domainSwitch : Statement (.domainSwitch) := all _
theorem domainFault (n : BitVec 6) : Statement (.domainFault n) := all _
theorem standby (path : Sys2Proof.Path) : Statement (.standby path) := all _
theorem wakeAlarm : Statement (.wakeAlarm) := all _
theorem stackPhyTrained : Statement (.stackPhyTrained) := all _
theorem smbusReadWord (cmd : BitVec 8) : Statement (.smbusReadWord cmd) := all _
theorem almanacSupplyChange (supply : Sys2Proof.AlmSupply) : Statement (.almanacSupplyChange supply) := all _
theorem usbDetach : Statement (.usbDetach) := all _
theorem configurationRequest (req : Sys2Proof.CfgReq) : Statement (.configurationRequest req) := all _
theorem ptpDelayReqInterval (port : BitVec 2) : Statement (.ptpDelayReqInterval port) := all _
theorem wakeNTimeout : Statement (.wakeNTimeout) := all _
theorem ppsInSeenExpiry : Statement (.ppsInSeenExpiry) := all _
theorem hitchClockStopped : Statement (.hitchClockStopped) := all _
theorem canBusOffRecovery (ctl : BitVec 1) : Statement (.canBusOffRecovery ctl) := all _
theorem primarySideFault : Statement (.primarySideFault) := all _
theorem headWordTake : Statement (.headWordTake) := all _

end Sys2Proof.Laws.Wf
end

