-- ==== Sys2Proof/Laws/Slots.lean ====
section
/-! SUPPORT. What the shared operations of the slots do, once each: the guard and the reserved bits, the place of a control slot, results,
held effects, loads and stores, and the plough's view of its registers. -/

namespace Sys2Proof.Machine

open Sys2Proof.Safety

/-! ### The frame of every slot -/

@[simp] theorem begun_plough (d : Dev) (n : BitVec 4) : begun d (.plough n) = d := rfl
@[simp] theorem begun_pview (d : Dev) (p : Runner) (n : Nat) : (begun d p).pview n = d.pview n := by cases p <;> rfl
@[simp] theorem begun_ploughOf (d : Dev) (p : Runner) (n : Nat) : (begun d p).plough n = d.plough n := by cases p <;> rfl
@[simp] theorem begun_coreClock (d : Dev) (p : Runner) (n : Nat) : (begun d p).coreClock n = d.coreClock n := by cases p <;> rfl
@[simp] theorem begun_cclk (d : Dev) (p : Runner) : (begun d p).cclk = d.cclk := by cases p <;> rfl
@[simp] theorem begun_plan (d : Dev) (p : Runner) : (begun d p).plan = d.plan := by cases p <;> rfl

/-- A slot that executes in a place that is allowed runs its body on the registers the bundle reads, or faults with ILLEGAL on non-zero reserved
bits (R63, R64). -/
theorem slotRun_executes {s : State} {p : Runner} {w : BitVec 64} (h : Executes s p w) (slot : Nat) (ok : Bool) (body : Plough → Dev → Dev)
    {bad : Plough → Bool} (hb : bad (s.dev.plough p.toNat) = false) :
    s.dev.slotRun p slot w ok body bad =
      if ok then body (s.dev.pview p.toNat) (begun s.dev p) else (begun s.dev p).plFault p.toNat slot illegalF := by
  obtain ⟨h1, h2⟩ := h
  cases p with
  | plough n =>
    obtain ⟨h1, h3⟩ := h1
    simp only [Runner.toNat] at *
    unfold Dev.slotRun Dev.ploughSlot Dev.slotBody
    simp only [Runner.toNat, h1, h3, hb, h2, begun_plough]
    cases ok <;> simp
  | steward =>
    obtain ⟨h1, h3⟩ := h1
    unfold Dev.slotRun Dev.slotBody
    have e : ∀ n, (s.dev.updStew fun x => { x with issuing := true }).pview n = s.dev.pview n := fun n => rfl
    have e' : ∀ n, (s.dev.updStew fun x => { x with issuing := true }).plough n = s.dev.plough n := fun n => rfl
    simp only [h1, h3, e, e', hb, h2, begun]
    cases ok <;> simp

/-- A slot of an operation that the Steward leaves out, by a plough. -/
theorem ploughRun_executes {s : State} {n : BitVec 4} {w : BitVec 64} (h : Executes s (.plough n) w) (slot : Nat) (ok : Bool)
    (body : Plough → Dev → Dev) : s.dev.ploughRun (.plough n) slot w ok body =
      if ok then body (s.dev.pview n.toNat) s.dev else s.dev.plFault n.toNat slot illegalF := by
  unfold Dev.ploughRun
  rw [slotRun_executes h slot _ body rfl]
  simp [Runner.isPlough, Runner.toNat]

/-- An operation that the Steward's subset leaves out is an illegal instruction there (R94). -/
theorem ploughRun_steward {s : State} {w : BitVec 64} (h : Executes s .steward w) (slot : Nat) (ok : Bool) (body : Plough → Dev → Dev) :
    s.dev.ploughRun .steward slot w ok body = (begun s.dev .steward).plFault stewCore slot illegalF := by
  unfold Dev.ploughRun
  rw [slotRun_executes h slot _ body rfl]
  simp [Runner.isPlough, Runner.toNat, stewCore]

/-- A slot of a plough that issues no bundle now and has not trapped in this clock at a later slot changes nothing. -/
theorem slotRun_not_issued {d : Dev} {p : BitVec 4} (h : (d.plough p.toNat).issues d.cclk = false) {slot : Nat}
    (ht : (d.plough p.toNat).laterTrap d.cclk slot = none) (w : BitVec 64) (ok : Bool) (body : Plough → Dev → Dev) :
    d.slotRun (.plough p) slot w ok body = d := by
  unfold Dev.slotRun; simp [Runner.toNat, h, ht]

/-- A guarded-off slot of a plough's bundle changes nothing (R64). -/
theorem slotRun_guarded_off {d : Dev} {p : BitVec 4} {w : BitVec 64} (hi : (d.plough p.toNat).issues d.cclk = true)
    (h : d.fetchFault p.toNat = none) (hg : (d.pview p.toNat).guard w = false) (slot : Nat) (ok : Bool) (body : Plough → Dev → Dev) :
    d.slotRun (.plough p) slot w ok body = d := by
  unfold Dev.slotRun Dev.ploughSlot Dev.slotBody
  simp [Runner.toNat, hi, h, hg, anyPlace]

/-- A control slot in a place that R73 allows runs as any slot does. -/
theorem placedRun_placedWell {s : State} {p : Runner} {w : BitVec 64} (h : PlacedWell s p) (hx : Executes s p w) (ok : Bool)
    (body : Plough → Dev → Dev) :
    s.dev.placedRun p w ok body =
      if ok then body (s.dev.pview p.toNat) (begun s.dev p) else (begun s.dev p).plFault p.toNat slotK illegalF := by
  obtain ⟨h1, h2⟩ := h
  exact slotRun_executes hx slotK ok body (by simp [Plough.misplaced, h1, h2])

/-! ### What a view of the registers leaves alone (R65) -/

/-- Two states of a plough with the same program counter, context, loops and mode. -/
def SteersAs (a b : Plough) : Prop := a.pc = b.pc ∧ a.ctx = b.ctx ∧ a.gen = b.gen ∧ a.loops = b.loops ∧ a.pmode = b.pmode

theorem SteersAs.refl (a : Plough) : SteersAs a a := ⟨rfl, rfl, rfl, rfl, rfl⟩

theorem SteersAs.trans {a b c : Plough} (h : SteersAs a b) (g : SteersAs b c) : SteersAs a c :=
  ⟨h.1.trans g.1, h.2.1.trans g.2.1, h.2.2.1.trans g.2.2.1, h.2.2.2.1.trans g.2.2.2.1, h.2.2.2.2.trans g.2.2.2.2⟩

/-- An accumulator row that lands steers nothing. -/
theorem steersAs_accRow (pl : Plough) (bank row : Nat) (zero : Bool) (c : Nat) (xs : List StepSum) :
    SteersAs (accRow pl bank row zero c xs) pl := by
  induction xs generalizing pl c with
  | nil => exact .refl pl
  | cons x xs ih => exact (ih _ (c + 1)).trans ⟨rfl, rfl, rfl, rfl, rfl⟩

/-- Clearing an accumulator row steers nothing. -/
theorem steersAs_clear (pl : Plough) (bank row n : Nat) : SteersAs (iter n pl fun c pl => pl.wrA bank row c 0) pl := by
  unfold iter
  generalize List.range n = l
  induction l generalizing pl with
  | nil => exact .refl pl
  | cons x l ih => exact (ih _).trans ⟨rfl, rfl, rfl, rfl, rfl⟩

/-- Landing a result changes registers only. -/
theorem steersAs_land (pl : Plough) (x : Dest) : SteersAs (pl.land x) pl := by
  cases x with
  | scalar n v => show SteersAs (if n = 0 then pl else _) pl; split <;> exact ⟨rfl, rfl, rfl, rfl, rfl⟩
  | pred n b => show SteersAs (if n = 0 then pl else _) pl; split <;> exact ⟨rfl, rfl, rfl, rfl, rfl⟩
  | vec n v => exact ⟨rfl, rfl, rfl, rfl, rfl⟩
  | desc n v => exact ⟨rfl, rfl, rfl, rfl, rfl⟩
  | accStep bank row zero sums => exact steersAs_accRow pl bank row zero 0 sums
  | accClear bank row => exact steersAs_clear pl bank row 128
  | memRow => exact .refl pl
  | counts => exact .refl pl
  | wbuf w b => show SteersAs (if w = 0 then _ else _) pl; split <;> exact ⟨rfl, rfl, rfl, rfl, rfl⟩

/-- Landing results in turn steers nothing. -/
theorem steersAs_lands (pl : Plough) (l : List Pend) : SteersAs (l.foldl (fun pl x => pl.land x.dst) pl) pl := by
  induction l generalizing pl with
  | nil => exact .refl pl
  | cons x l ih => exact (ih _).trans (steersAs_land pl x.dst)

/-- The registers that a bundle reads belong to the same program counter, context, loops and mode as the plough. -/
theorem steersAs_view (pl : Plough) (now : Nat) : SteersAs (pl.view now) pl := steersAs_lands pl _

/-- So do the registers that the Steward's bundle reads. -/
theorem steersAs_pview (d : Dev) (n : Nat) : SteersAs (d.pview n) (d.plough n) := by
  unfold Dev.pview; split
  · exact steersAs_lands _ _
  · exact steersAs_lands _ _

@[simp] theorem pview_pc (d : Dev) (n : Nat) : (d.pview n).pc = (d.plough n).pc := (steersAs_pview _ _).1
@[simp] theorem pview_ctx (d : Dev) (n : Nat) : (d.pview n).ctx = (d.plough n).ctx := (steersAs_pview _ _).2.1
@[simp] theorem pview_gen (d : Dev) (n : Nat) : (d.pview n).gen = (d.plough n).gen := (steersAs_pview _ _).2.2.1
@[simp] theorem pview_loops (d : Dev) (n : Nat) : (d.pview n).loops = (d.plough n).loops := (steersAs_pview _ _).2.2.2.1
@[simp] theorem pview_pmode (d : Dev) (n : Nat) : (d.pview n).pmode = (d.plough n).pmode := (steersAs_pview _ _).2.2.2.2

/-! ### Loads and stores (R79–R86) -/

/-- Loads from pages that ask nothing of provisional mode change no mode. -/
theorem withProvLoads_plain {d : Dev} {n : Nat} {es : List (BitVec 64)} (h : ∀ e ∈ es, d.provLoad (d.plough n) e = .plain) (slot : Nat)
    (k : Dev → Dev) : d.withProvLoads n slot k es = k d := by
  induction es with
  | nil => rfl
  | cons e es ih =>
    simp only [Dev.withProvLoads, Dev.withProvLoad, h e (by simp)]
    exact ih fun x hx => h x (by simp [hx])

/-- The Barn port of an access that finds it free is taken. -/
theorem takeBarn_free {d : Dev} {p : BitVec 4} {barn : Bool} {port : Nat}
    (h : barn = true → (d.plough p.toNat).busy 0 0 d.cclk (d.cclk + port) = false) (slot : Nat) (k : Dev → Dev) :
    d.takeBarn p.toNat slot barn port k = k (portTaken d p barn port) := by
  unfold Dev.takeBarn portTaken
  cases barn
  · simp
  · simp [h rfl]

/-- No plough's number is that of the Steward's core. -/
theorem plough_ne_stewCore (p : BitVec 4) : p.toNat ≠ stewCore := by unfold stewCore; have := p.isLt; omega

/-- An access that reaches its bytes goes on with its pieces. -/
theorem lAccess_reaches {s : State} {p : BitVec 4} {va n al port : Nat} {write : Bool} {ps : Pieces} (h : Reaches s p va n al port write ps)
    (slot : Nat) (k : Pieces → Dev → Dev) : s.dev.lAccess p.toNat slot va n al write k = k ps s.dev := by
  unfold Dev.lAccess
  rw [if_neg (by simp [h.1]), h.2.1]

/-- A load whose access reaches its bytes goes on with them. -/
theorem loadFor_loads {s : State} {p : Runner} {va n al port : Nat} {barn : Bool} {bs : List Byte} {d : Dev}
    (h : Loads s p va n al port barn bs d) (slot : Nat) (k : Bool → List Byte → Dev → Dev) :
    (begun s.dev p).loadFor p.toNat slot va n al port k = k barn bs d := by
  cases p with
  | plough m =>
    obtain ⟨ps, h1, rfl, h4, h5⟩ := h
    unfold Dev.loadFor
    rw [if_neg (show (Runner.plough m).toNat ≠ stewCore from plough_ne_stewCore m)]
    show s.dev.lAccess m.toNat slot va n al false _ = _
    rw [lAccess_reaches h1]
    show s.dev.takeBarn m.toNat slot ps.barn port _ = _
    rw [takeBarn_free h1.2.2]
    show Dev.withProvLoads _ m.toNat slot _ _ = _
    rw [withProvLoads_plain (by simpa using fun e a b h => h4 (a, b, e) h)]
    show (match Dev.readRange _ m.toNat va ps with
      | (d, _, some _) => d.plFault m.toNat slot (faultAt fEcc 1 va)
      | (d, bs, none) => k ps.barn bs d) = _
    simp only [h5]
  | steward =>
    obtain ⟨h1, rfl, h3, h4⟩ := h
    unfold Dev.loadFor Dev.stewLoad
    simp only [Runner.toNat, stewCore, if_true]
    rw [if_neg (by simp [h1])]
    cases hr : inStewRam va n with
    | true => obtain ⟨rfl, rfl⟩ := h3 hr; simp [begun]
    | false => simp only [h4 hr, Bool.false_eq_true, if_false]

/-- A misaligned access faults with ALIGN before it translates (R79, R81, log 97). -/
theorem lAccess_misaligned {d : Dev} {va al : Nat} (h : va % al ≠ 0) (p slot n : Nat) (write : Bool) (k : Pieces → Dev → Dev) :
    d.lAccess p slot va n al write k = d.plFault p slot (faultAt fAlign 0 va) := by
  unfold Dev.lAccess; rw [if_pos h]

/-- In committed mode a write opens no region. -/
theorem ploughOpen_committed {d : Dev} {n : Nat} (h : (d.plough n).pmode = none) (pte : BitVec 64) : d.ploughOpen n pte = d := by
  unfold Dev.ploughOpen; rw [h]

/-- A store in committed mode whose access reaches its bytes is held until its bundle retires (R82, R91). -/
theorem storeFor_stores {s : State} {p : BitVec 4} {va n al port : Nat} {ps : Pieces} (h : Stores s p va n al port ps) (slot : Nat)
    (bs : List Byte) : s.dev.storeFor p.toNat slot va n al port bs = heldStore s p port slot ps bs := by
  obtain ⟨h1, h4, h5⟩ := h
  unfold Dev.storeFor
  rw [if_neg (plough_ne_stewCore p), lAccess_reaches h1, takeBarn_free h1.2.2]
  have e : ∀ l : Pieces, l.foldl (fun d x => d.ploughOpen p.toNat x.2.2) (portTaken s.dev p ps.barn port) = portTaken s.dev p ps.barn port := by
    intro l
    induction l with
    | nil => rfl
    | cons x l ih => simp only [List.foldl_cons]; rw [ploughOpen_committed h4]; exact ih
  simp only [Dev.provStoreOk, h4, Option.isNone_none, Bool.true_or, Bool.not_true, h5, e]
  rw [if_neg (by simp)]
  rfl

end Sys2Proof.Machine
end

