-- ==== Sys2Proof/Tests/Slice0.lean ====
section
/-! SUPPORT. The model's own tests: the well-formedness checks refuse what they must, the hypotheses of the statements are met by concrete
states, and values that the spec fixes come out. Expected values are worked out by hand from the rules named. -/

namespace Sys2Proof.Tests

-- one theorem after another: each of the kernel evaluations below takes a thread of its own otherwise
set_option Elab.async false

open Sys2Proof.Machine Sys2Proof.Safety

/-! ### States for the witnesses -/

/-- A state with this device and nothing else. -/
def st (d : Dev) : State := { pending := [], kept := {}, dev := d }

/-- A device with power, every domain on. -/
def on : Dev := { regs := SMap.set regReset [] R.PWR_DOMAIN_ON 0xFFFFFFFFF#64, pwr := { on := true, good := true, started := true } }

/-- `on` with fields set. -/
def onWith (l : List (FieldRef × Nat)) (d : Dev := on) : Dev := l.foldl (fun d x => d.setF x.1 x.2) d

/-- Bytes given as (offset, size, value) over `n` zeros. -/
def bytesOf (n : Nat) (l : List (Nat × Nat × Nat)) : List Byte :=
  l.foldl (fun bs x => bs.take x.1 ++ leBytes x.2.1 x.2.2 ++ bs.drop (x.1 + x.2.1)) (List.replicate n 0)

/-! ### Well-formedness: each check refuses an ill-formed command -/

theorem test_wf_opcode : (Instr.add (.plough 0) false 0x0200000000000000).wf = false ∧ (Instr.add .steward false 0x0100000000000000).wf = true := by decide
theorem test_wf_nop : (Instr.nop (.plough 0) 0 0x0100000000000000).wf = false ∧ (Instr.nop (.plough 0) 0 0x0C00000000000000).wf = true ∧
    (Instr.nop (.plough 0) 0 0).wf = true := by decide
theorem test_wf_strobe : (Instr.strobeEdge 37 true).wf = false ∧ (Instr.strobeEdge 36 true).wf = true := by decide
theorem test_wf_domain : (Instr.domainFault 36).wf = false ∧ (Instr.domainFault 35).wf = true := by decide
theorem test_wf_quota : (Instr.topCtxQuota .pcie 6 0).wf = false ∧ (Instr.topCtxQuota .pcie 5 0).wf = true := by decide
theorem test_wf_write : (Instr.registerWrite .pcie 0 3 0).wf = false ∧ (Instr.registerWrite .pcie 0 8 0).wf = true := by decide
theorem test_wf_read : (Instr.registerReadClear .pcie 0 5).wf = false ∧ (Instr.registerReadClear .pcie 0 4).wf = true := by decide
theorem test_wf_usb_read : (Instr.regRead 0 2).wf = false := by decide
theorem test_wf_usb_write : (Instr.regWrite 0 1 0).wf = false := by decide
theorem test_wf_bar_read : (Instr.barRead 1 0 4).wf = false ∧ (Instr.barRead 4 0 4).wf = true := by decide
theorem test_wf_bar_write : (Instr.barWrite 3 0 []).wf = false := by decide
theorem test_wf_can : (Instr.canFrameReceive 0 ⟨0, false, false, false, false, 9, List.replicate 9 0, true, false⟩).wf = false := by decide
theorem test_wf_mbox : (Instr.mboxSubmit .usb []).wf = false := by decide

/-! ### Ploughs -/

/-- A plough in a slice of context 1 that issues its bundle at clock 5, with its first 4 KiB of local store mapped for every access. -/
def runningPlough : Plough :=
  { status := .running, ctx := 1, gen := 1, pcAt := 5, issueTo := 1000, regions := [⟨0, 0x1000, lsKey 0, 0x73, none⟩] }

/-- Plough 0 issues. -/
def running (pl : Plough := runningPlough) : Dev := { on with clk := 100, ploughs := [(0, pl)] }

/-- The Steward issues its bundle: it runs its firmware and no trap has come in this clock. -/
def stewing (pl : Plough := {}) : Dev :=
  { on with ploughs := [(stewCore, pl)], stew := { booted := true } } |> onWith [(F.STEW_STATUS_mode, 2)]

theorem test_runs : Executes (st (running)) (.plough 0) 0 ∧ PlacedWell (st (running)) (.plough 0) ∧
    Executes (st (stewing)) .steward 0 ∧ PlacedWell (st (stewing)) .steward := by
  refine ⟨⟨⟨?_, ?_⟩, ?_⟩, ⟨?_, ?_⟩, ⟨⟨by decide +kernel, ?_⟩, ?_⟩, ?_, ?_⟩ <;> rfl

theorem test_StewardSubset : ((stewing).plough stewCore).pend = [] ∧ ((running).plough 0).pend = [] ∧ (running).cclk < 120 / 20 := by decide

theorem test_ScalarSlotResults : zeros 0x0100000000000000 [(0, 33)] = true ∧ zeros 0 [(0, 39)] = true ∧
    zeros 0x00000000F0000000 [(0, 28), (32, 1)] = true ∧ zeros 0x00000000FFFFFFFF [(32, 7)] = true ∧ fRa 0xFFFFFFFF = 0 := by decide

theorem test_PredicateResults : wf' 0x90000000 49 2 = 0 ∧ zeros 0x90000000 [(0, 28), (32, 1)] = true ∧ wf' 0x90000000 28 4 ≤ 9 ∧
    wf' 0x4800000000 32 3 = 0 ∧ wf' 0x4800000000 35 4 ≤ 9 ∧ zeros 0x30000000 [(0, 28), (32, 5)] = true ∧ wf' 0x30000000 28 4 ≤ 3 := by decide

theorem test_MovsReadsSpecials : (∀ n ≤ 5, zeros (BitVec.ofNat 64 n) [(32, 13), (11, 21)] = true ∧ wf' (BitVec.ofNat 64 n) 0 11 = n) ∧
    wf' 0x704 0 8 = 4 ∧ zeros 3 [(32, 13), (8, 24)] = true ∧ wf' 2 0 8 = 2 ∧ wf' 3 0 8 = 3 ∧ wf' 7 0 8 ≠ 2 ∧ wf' 7 0 8 ≠ 3 ∧ ((running).plough 0).ctx < 4096 ∧ ((running).plough 0).gen < 2 ^ 20 ∧ ((running).plough 0).pmode = none ∧
    ((running { runningPlough with pmode := some ⟨7, 2 ^ 32 - 1⟩ }).plough 0).pmode = some ⟨7, 2 ^ 32 - 1⟩ := by decide

theorem test_BranchesTake : zeros 0xFFFFFFFF [(32, 19)] = true ∧ zeros 0x8000000000 [(45, 6), (0, 39)] = true ∧
    (((running).pview 0).rdS (fRa 0x8000000000)).toNat % 64 = 0 ∧ ({ branch := some (64, 2) } : Plough).branch = some (64, 2) := by decide

theorem test_LoopsRun : zeros 0x8000000002 [(32, 7)] = true ∧ ((running).pview 0).loops.length < 2 ∧ fRd 0x8000000002 = 0 ∧
    ((running { runningPlough with loops := [⟨0, 0, 1⟩, ⟨0, 64, 1⟩] }).pview 0).loops.length = 2 ∧ 0 < wf' 0x8000000002 39 12 ∧
    ({ loopEnter := some ⟨64, 64 * 1, 3⟩ } : Plough).branch = none ∧ ({ branch := some (0, 0) } : Plough).branch = some (0, 0) := by decide

theorem test_ControlCompletes : (running).ccount < wf' 6 0 32 ∧ wf' 5 0 32 ≤ (running).ccount ∧ zeros 0xFFFF [(16, 35)] = true ∧
    zeros 0 [(56, 8), (0, 51)] = true ∧ (let e := running { runningPlough with waits := [.clock 5, .engine 0 1 3 9] }
     (e.plough 0).waits = [.clock 5, .engine 0 1 3 9] ∧ 5 ≤ e.ccount) ∧ ((running { runningPlough with waits := [.clock 5] }).plough 0).waits = [.clock 5] := by decide

theorem test_ControlCompletes_wait (k : Nat) : Wait.engine 0 1 3 9 ≠ .clock k := by simp

/-- A locked plan with sections. -/
def lockedPlan (l : List (Nat × Nat × List Byte)) : PlanState :=
  { phase := .locked, header := bytesOf 512 [(0x44, 2, 4), (0x46, 1, 1)], sections := l.map fun x => ⟨x.1, x.2.1, 0, 0, x.2.2⟩ }

/-- A calendar of one window that takes the whole period, for context 1, of a kind. -/
def calendar (kind flags : Nat) : List Byte := bytesOf 16 [(0, 4, 0), (4, 4, 100000), (8, 2, 1), (10, 1, kind), (11, 1, flags)]

theorem test_MarkOpsStartAndEnd :
    let d := { running with plan := lockedPlan [(2, 0, calendar 0x20 6)] }
    let done := fun sq => (running { runningPlough with markOps := [⟨sq, ⟨0, 7⟩, 1, 5, false⟩] })
    let known := fun sq => (running { runningPlough with markOps := [⟨sq, ⟨0, 7⟩, 1, 5, true⟩] })
    zeros 0x8000000000 [(45, 6), (35, 4), (0, 32)] = true ∧
    (∀ bit, bit = 1 ∨ bit = 2 → (d.windowFor 0 1 fun e => e.kind == 0x20 && e.flags.testBit bit).isSome = true) ∧
    ((running).windowFor 0 1 fun e => e.kind == 0x20 && e.flags.testBit 1) = none ∧
    (∀ sq, (((done sq).plough 0).markOps.find? fun o => o.squash == sq && decide (o.due ≤ (done sq).cclk)) = some ⟨sq, ⟨0, 7⟩, 1, 5, false⟩) ∧
    (running).markSealed ⟨0, 7⟩ = none ∧
    (∀ sq, (((known sq).plough 0).markOps.find? fun o => o.squash == sq && decide (o.due ≤ (known sq).cclk)) = some ⟨sq, ⟨0, 7⟩, 1, 5, true⟩) := by
  refine ⟨by decide, ?_, by decide, ?_, by decide, ?_⟩
  · rintro bit (rfl | rfl) <;> rfl
  · intro sq; cases sq <;> rfl
  · intro sq; cases sq <;> rfl

/-! ### Loads, stores, vectors, DMA, matrix -/

/-- A row of 64 INT8 elements at 0x100, row-major, writable. -/
def rowBytes64 : List Byte :=
  bytesOf 64 [(0, 8, 0x100), (8, 1, 0x1A), (9, 1, 0x40), (16, 4, 64), (20, 4, 4), (24, 4, 1), (28, 4, 1), (32, 4, 1), (36, 4, 1), (40, 4, 1), (44, 4, 64)]

/-- The same as a descriptor. -/
def rowDesc : BitVec 512 := descOfBytes rowBytes64

/-- Bytes of local store 0 as plough 0 reaches them. -/
def lsPieces (off n : Nat) : Pieces := [(lsKey 0 + off, n, 0x73)]

theorem test_LoadsAndStores_loads : zeros 0x8 [(32, 7)] = true ∧ fRd 8 < 32 ∧
    (∃ bs d, Loads (st (running)) (.plough 0) 0xFF8 8 8 1 false bs d) ∧ (∃ bs d, Loads (st (running)) (.plough 0) 0xFFF 1 1 1 false bs d) :=
  ⟨by decide, by decide, ⟨_, _, lsPieces 0xFF8 8, ⟨by decide, rfl, by decide⟩, rfl, by decide, rfl⟩,
    ⟨_, _, lsPieces 0xFFF 1, ⟨by decide, rfl, by decide⟩, rfl, by decide, rfl⟩⟩

theorem test_LoadsAndStores_wide : ∃ bs d, Loads (st (running)) (.plough 0) 0xC00 1024 64 2 false bs d :=
  ⟨_, _, lsPieces 0xC00 1024, ⟨by decide, rfl, by decide⟩, rfl, by decide, rfl⟩

/-- Local store 0 holds that descriptor at 0xFC0. -/
def withDesc : Dev :=
  { running with mem := ((List.range 64).zip rowBytes64).filterMap fun x => if x.2 = 0 then none else some (lsKey 0 + 0xFC0 + x.1, x.2) }

theorem test_LoadsAndStores_desc : (∃ d, Loads (st withDesc) (.plough 0) 0xFC0 64 64 1 false rowBytes64 d ∧ (d.plough 0).pmode = none) ∧
      (tdesc (descOfBytes rowBytes64)).formatBad = false ∧ (tdesc (descOfBytes rowBytes64)).aliasReason = 0 :=
  ⟨⟨withDesc, ⟨lsPieces 0xFC0 64, ⟨by decide, rfl, by decide⟩, rfl, by decide, by
    have h : (withDesc.readRange 0 0xFC0 (lsPieces 0xFC0 64)).2 = (rowBytes64, none) := by decide +kernel
    have h' : (withDesc.readRange 0 0xFC0 (lsPieces 0xFC0 64)).1 = withDesc := by decide +kernel
    exact Prod.ext h' h⟩, rfl⟩, by decide +kernel, by decide +kernel⟩

/-- An access that two regions cover, the first up to its end (R79). -/
theorem test_regions_span :
    let pl := { runningPlough with regions := [⟨0, 0x1000, lsKey 0, 0x73, none⟩, ⟨0x1000, 0x1000, lsKey 0 + 0x2000, 0x73, none⟩] }
    (running pl).lxlate 0 pl 0xFC0 1024 false = .ok [(lsKey 0 + 0xFC0, 64, 0x73), (lsKey 0 + 0x2000, 960, 0x73)] := by rfl

/-- The Steward reads its RAM, at its first aligned address. -/
theorem test_LoadsAndStores_steward : ∃ bs d, Loads (st (stewing)) .steward ((Config.stewRam + 7) / 8 * 8) 8 8 1 false bs d := by
  have hr : inStewRam ((Config.stewRam + 7) / 8 * 8) 8 = true := by
    unfold inStewRam
    generalize Config.stewRam = r
    rw [Bool.and_eq_true, decide_eq_true_iff, decide_eq_true_iff]
    omega
  refine ⟨_, _, ?_, rfl, fun _ => ⟨rfl, rfl⟩, fun h => ?_⟩
  · generalize Config.stewRam = r
    omega
  · rw [hr] at h
    cases h

theorem test_LoadsAndStores_stores : (∃ ps, Stores (st (running)) 0 0xFF8 8 8 1 ps) ∧
    (∃ ps, Stores (st (running)) 0 0xC00 1024 64 2 ps) ∧ (∃ ps, Stores (st (running)) 0 0xFC0 64 64 1 ps) := by
  refine ⟨⟨_, ⟨by decide, rfl, by decide⟩, rfl, fun _ _ => rfl⟩, ⟨_, ⟨by decide, rfl, by decide⟩, rfl, fun _ _ => rfl⟩,
    ⟨_, ⟨by decide, rfl, by decide⟩, rfl, fun _ _ => rfl⟩⟩

/-- A loaded word is what was stored at its key: 8 bytes in the local store. -/
theorem test_ld64_value : (({ running with mem := [(lsKey 0 + 8, 0x12), (lsKey 0 + 15, 0x34)] } : Dev).ploughRead 0 (lsKey 0 + 8) 8).2.1 =
    [0x12, 0, 0, 0, 0, 0, 0, 0x34] := by decide

theorem test_MisalignedAccessFaults : (0x1 : Nat) % 2 ≠ 0 ∧ (0x2 : Nat) % 4 ≠ 0 ∧ (0x4 : Nat) % 8 ≠ 0 ∧ (0x20 : Nat) % 64 ≠ 0 ∧
    (∀ n ∈ [1, 2, 4, 0x20], (((running).pview 0).rdS (fRa (BitVec.ofNat 64 n)) + ((BitVec.ofNat 64 n).extractLsb' 0 32).signExtend 64).toNat = n) := by
  decide

/-- Vector words: integer lanes of INT32 (code 8), FP32 lanes (code 0), reductions over 8 and conversion to FP8-E4M3 (code 3). -/
theorem test_Vector : zeros 0x40000000 [(0, 19)] = true ∧ Fp.fmtInt (fLt 0x40000000) = true ∧ laneW (fLt 0x40000000) ≠ 0 ∧
    Fp.fmtInt (fLt 0) = false ∧ laneW (fLt 0) ≠ 0 ∧ fLt 0 = 0 ∧
    zeros 0x28000 [(0, 15)] = true ∧ wf' 0x28000 15 4 ≤ 5 ∧ zeros 0x10000 [(0, 13)] = true ∧ wf' 0x10000 17 2 ≠ 3 ∧ wf' 0x10000 13 4 = 8 ∧
    zeros 0x7F000 [(0, 12)] = true ∧ ((running).plough 0).busy 7 0 7 8 = false ∧
    zeros 0x1C0000 [(0, 18)] = true ∧ field (vCc 0x1C0000) 0 4 = 3 ∧ field (vCc 0x1C0000) 4 3 ≤ 4 ∧ (0x1C0000 : BitVec 64).getLsbD 18 = true ∧
    Fp.fmtMx 3 = true ∧ Fp.fmtValid 3 = true := by decide

/-- The lanes of VADD on INT8 wrap in each lane (R136): 0x7F + 0x01 and 0xFF + 0x01. -/
theorem test_vadd_wraps :
    let n := laneW 10
    (List.range 2).map (fun k => (BitVec.ofNat n (Fp.elemAt 0xFF7F n k) + BitVec.ofNat n (Fp.elemAt 0x0101 n k)).toNat) = [0x80, 0] := by decide

/-- Its fields. -/
def rowT : TDesc := tdesc rowDesc

/-- Plough 0 with the descriptor in d0, d1 and d2. -/
def described : Plough := { runningPlough with d := [(0, rowDesc), (1, rowDesc), (2, rowDesc)] }

/-- A transfer of that row in queue 3. -/
def transfer (ctx : Nat) : Dma :=
  { src := rowDesc, dst := rowDesc, srcIdx := 0, dstIdx := 0, srcVals := none, dstVals := none, ctx := ctx, gen := 1, tag := none, issue := 0, held := false }

theorem test_DmaTransfers :
    zeros 0x6000000000000 [(0, 44)] = true ∧ wf' 0x6000000000000 49 2 = 3 ∧ (((running described).plough 0).queue 3).haltOf 1 = none ∧
    (((running described).plough 0).queue 3).halt = none ∧ dmaDescOk rowT rowT rowT rowT = true ∧ (running described).indexSide 0 0 rowT rowT = (running described, .ok none) ∧ (((running described).plough 0).queue 3).xfers.length < 16 ∧
    (((running { described with q3 := { xfers := List.replicate 16 (transfer 1) } }).plough 0).queue 3).xfers.length = 16 ∧
    zeros 0x60000000000FF [(8, 41)] = true ∧
    (let e : Dev := { running { described with q3 := { xfers := [transfer 1] } } with ctxs := [(1, { life := .resident })] }
     ((e.plough 0).queue 3).xfers = [transfer 1] ∧ e.genOk 1 1 = true ∧ e.genOk 2 1 = false ∧ e.memc.reqs = []) := by
  refine ⟨by decide, by decide, rfl, rfl, by decide +kernel, by unfold Dev.indexSide; rw [if_pos (by decide +kernel)], by decide, by decide, by decide, rfl, by decide, by decide, rfl⟩

theorem test_VldtMldw :
    zeros 0x80000000 [(0, 30)] = true ∧ stepK rowT.fmt ≠ 0 ∧ 1 ≤ wf' 0x80000000 31 4 ∧ wf' 0x80000000 31 4 ≤ rowsPerV rowT.fmt ∧
    rowMajor2 rowT = true ∧ zeros 0 [(0, 39)] = true ∧
    ((vldtPieces rowT 0 0 1 false).map fun x => pieceBytes (x.2.1, x.2.2)) = [(0x100, 64)] ∧
    ((mldwPieces rowT 3 0 ++ mldwScales rowT 3 0).map fun x => pieceBytes (x.2.1, x.2.2)) = [] ∧
    ((running described).plough 0).busy 8 0 5 100 = false ∧ (running described).cclk = 5 ∧
    ((running described).plough 0).busy 9 0 5 6 = false ∧ ((running described).plough 0).busy 2 0 5 6 = false := by
  decide +kernel

/-- The pieces of the row's bytes. -/
def rowKeys : List (Nat × Pieces) := [(0x100, lsPieces 0x100 64)]

theorem test_VldtMldw_reads : LoadsAll (st (running described)) 0 [(0x100, 64)] 2 rowKeys [List.replicate 64 0] (running described) := by
  have h : (running described).readPieces 0 rowKeys = (running described, [List.replicate 64 0], none) :=
    Prod.ext (by decide +kernel) (by decide +kernel)
  have k : (running described).provLoad ((running described).plough 0) 0x73 = .plain := rfl
  refine ⟨rfl, ?_, ?_, h⟩
  · intro h; cases h
  · intro e he
    rw [show allPtes rowKeys = [0x73] from rfl, List.mem_singleton] at he
    rw [he]; exact k

theorem test_VldtMldw_nothing : LoadsAll (st (running described)) 0 [] 16 [] [] (running described) := by
  refine ⟨rfl, ?_, ?_, rfl⟩ <;> intros <;> contradiction

theorem test_Mma :
    let x : Plough := { runningPlough with w0 := { loaded := true, fmt := 10 } }
    zeros 0x40D000000 [(0, 21)] = true ∧ wf' 0x40D000000 27 4 = 1 ∧ wf' 0x40D000000 23 4 = 10 ∧
      wf' 0x40D000000 31 7 + 1 ≤ 128 ∧ 1 ≤ rowsPerV 10 ∧
      ((running x).pview 0).w0.loaded = true ∧ pairOk 10 false 10 false = true ∧ ((running x).plough 0).busy 1 0 5 6 = false ∧
      ((running x).plough 0).busy 2 0 5 6 = false ∧ ((running x).plough 0).busy 3 0 5 38 = false ∧ ((running x).pview 0).w0.poison = none := by decide

/-- The MDRAIN of row 0 of bank 0 to that row. -/
def rowDrain : Drain := ((running described).pview 0).drain 0x21400000

theorem test_Mdrain :
    zeros 0x21400000 [(0, 5)] = true ∧ rowDrain.fieldFault = none ∧ rowDrain.ranges = [(0x100, 64)] ∧
    ∃ keys, (running described).lxlateAll 0 ((running described).plough 0) true [(0x100, 64)] = .ok keys ∧
      rowDrain.useFault (running described) ((running described).plough 0) keys = none := by
  refine ⟨by decide, by decide +kernel, by decide +kernel, _, rfl, by decide +kernel⟩

/-- Plough 0 with a result that lands now. -/
def lands (x : Dest) : Dev := running { runningPlough with pend := [⟨5, 1, 1, x⟩] }

theorem test_PloughEffectsLand :
    ((running).plough 0).due 5 = [] ∧
    ((lands (.scalar 63 1)).plough 0).due (lands (.scalar 63 1)).cclk = [⟨5, 1, 1, .scalar 63 1⟩] ∧
    ((lands (.accStep 3 127 true [])).plough 0).due 5 = [⟨5, 1, 1, .accStep 3 127 true []⟩] ∧
    ((lands (.memRow 64 [1] 5 0)).plough 0).due 5 = [⟨5, 1, 1, .memRow 64 [1] 5 0⟩] ∧
    (let h : HeldEff := ⟨0, 5, .store 64 [1] 0⟩
     let d : Dev := { running { runningPlough with held := [h] } with clk := 960 }
     (d.plough 0).held.filter (fun h => decide (h.issue + 48 ≤ d.cclk)) = [h]) ∧
    (∀ h ∈ ((running { runningPlough with held := [⟨0, 5, .store 64 [1] 0⟩] }).plough 0).held, (running).cclk < h.issue + 48) := by decide

/-! ### Engines, links, slices -/

/-- A job of context 1 in an engine's queue. -/
def job (engine lane kind : Nat) : Job :=
  { id := 0, engine := engine, lane := lane, kind := kind, plough := 0, ctx := 1, gen := 1, addr := 0x10000, dd := 0, dd2 := 0, tag := none,
    issue := 0, winEnd := 1, accepted := true, acceptAt := 1, ran := false, result := 0, hold := 0, overrun := false, notes := [0, 0, 0] }

theorem test_Eissue_Ewait :
    let d := { running with plan := lockedPlan [(2, 3, calendar 4 0)] }
    zeros 0x6000000000000 [(0, 30)] = true ∧ wf' 0x6000000000000 49 2 = 3 ∧ (running).windowFor 3 1 (fun x => issueKind 3 x.kind) = none ∧
    (d.windowFor 3 1 fun x => issueKind 3 x.kind) = some ⟨0, 100000, 1, 4, 0⟩ ∧
    d.engineParked 3 = false ∧ (onWith [(F.REEVE_UNIT_PARKED_engine, 8)] d).engineParked 3 = true ∧
    zeros 0x6000000000000 [(0, 45)] = true ∧ (d.jobs.find? fun j => j.engine == 3 && j.ctx == 1 && j.gen == 1) = none ∧
    (let e : Dev := { running with jobs := [job 3 0 1, { job 3 1 2 with ctx := 2 }] }
     (e.jobs.find? fun j => j.engine == 3 && j.ctx == 1 && j.gen == 1) = some (job 3 0 1) ∧ (job 3 0 1).winEnd ≤ e.cclk ∧
     e.windowFor 3 1 (fun x => issueKind 3 x.kind) = none ∧ e.cclk < ({ job 3 0 1 with winEnd := 6 } : Job).winEnd) := by
  refine ⟨by decide, by decide, rfl, by decide, by decide, by decide, by decide, by decide, rfl, ?_⟩
  decide +kernel

/-- What stands before an issue of clock 5 by plough 15, of clock 0 by it, and beside four others. -/
theorem test_placeIssue :
    let before := fun (js : List Job) (j : Job) => js.filter fun k => k.engine == j.engine && k.lane == j.lane &&
      (decide (k.issue < j.issue) || (k.issue == j.issue && decide (k.plough < j.plough)))
    let j := fun (c : Nat) => { job 3 0 1 with plough := 15, issue := c }
    before [job 3 0 1] (j 5) = [job 3 0 1] ∧ (∀ k ∈ before [job 3 0 1] (j 5), k.issue ≠ (j 5).issue) ∧ 2 ≤ (j 1).engine ∧
    (∃ k ∈ before [job 3 0 1] (j 0), k.issue = (j 0).issue) ∧ issuePlaces 3 ≤ (before (List.replicate 4 (job 3 0 1)) (j 5)).length := by
  decide +kernel

theorem test_EngineWindowEnd :
    let late := fun (d : Dev) => d.jobs.filter fun j => j.engine == 3 && j.accepted && !j.overrun && decide (j.winEnd ≤ d.cclk)
    late ((running).ewaitRelease 3) = [] ∧
    late (({ running with jobs := [job 3 0 1] } : Dev).ewaitRelease 3) = [job 3 0 1] := by decide +kernel

theorem test_LinkSlots :
    let d := running described
    d.linkHalt 0 3 1 1 = none ∧ zeros 0x6000000000000 [(41, 8), (0, 36)] = true ∧ wf' 0x6000000000000 49 2 = 3 ∧
    rowT.mode = 0 ∧ rowT.formatBad = false ∧ rowT.writable = true ∧ ((d.linkOutstanding 0 3).filter fun x => x.send == true).length < 16 ∧
    (d.plough 0).pmode = none ∧ zeros 0x60000000000FF [(8, 41)] = true ∧ (d.linkOutstanding 0 3).length ≤ wf' 0x60000000000FF 0 8 ∧
    (let x : LinkXfer := { id := 1, port := 3, plough := 0, send := true, ctx := 1, gen := 1, desc := 0, tag := none, issue := 0, accepted := false,
                           sent := none, msg := none, asked := false }
     wf' 0x6000000000000 0 8 < (({ running with links := { xfers := [x] } } : Dev).linkOutstanding 0 3).length) := by
  refine ⟨rfl, by decide, by decide, by decide +kernel, by decide +kernel, by decide +kernel, by decide, rfl, by decide, by decide, by decide +kernel⟩

/-- A SLICE section: slot 0 with a RUN entry of 2,000 C clocks on plough 0, and a SWAP entry. -/
def sliceSection : List Byte :=
  bytesOf 1152 [(0, 4, 2), (4, 1, 1), (64 + 8, 4, 0x100000), (1088, 4, 0), (1092, 4, 2000), (1104, 4, 2000), (1108, 4, 2000), (1113, 1, 1)]

/-- A device whose plan has that section, with context 1 resident in slot 0. -/
def sliced (clk : Nat) (life : CtxLife) (quota : Nat) : Dev :=
  { on with clk := clk, plan := lockedPlan [(4, 0, sliceSection)], ctxs := [(1, { life := life, quota := [quota, 0, 0, 0, 0, 0] })] }

theorem test_RunSlice :
    (sliced 0 .resident 0).locked = true ∧ ((sliced 0 .resident 0).openSlice 0) = some (0, ⟨0, 2000, 0, false, 0⟩) ∧
    (sliced 0 .swapped 0).sliceCtx 0 ⟨0, 2000, 0, false, 0⟩ = none ∧
    (sliced 0 .resident 2000).sliceCtx 0 ⟨0, 2000, 0, false, 0⟩ = some 1 ∧
    (sliced 0 .resident 2000).sliceOver 1 ⟨0, 2000, 0, false, 0⟩ = false ∧
    (sliced 0 .resident 1999).sliceOver 1 ⟨0, 2000, 0, false, 0⟩ = true := by decide +kernel

theorem test_SaveAndSwap :
    let sliceAt := fun (clk : Nat) => { sliced clk .resident 2000 with ploughs := [(0, { runningPlough with sliceIdx := some 0 })] }
    (sliceAt (1418 * 20)).runningSlice 0 = some ⟨0, 2000, 0, false, 0⟩ ∧ 0 + 2000 ≤ (sliceAt (1418 * 20)).ccount + 582 ∧
    (sliceAt (1417 * 20)).ccount + 582 < 0 + 2000 ∧
    (let d : Dev := { sliced (2000 * 20) .resident 2000 with exch := some ⟨2, 0, some 1, 0, [], false⟩ }
     d.swapEntry 0 = some ⟨2000, 2000, 0, true, 0⟩ ∧ 2000 ≤ d.ccount ∧ (d.slotPloughs 0).testBit 0 = true ∧
     savedProv (d.peek (d.barnSave 0 0 + Machine.controlAt) 64) = false ∧
     (∀ n < 16, (d.slotPloughs 0).testBit n = true → n ∈ [0])) ∧
    savedProv (Memory.read [(lsKey 0 + 8, 1)] (lsKey 0) 64) = true := by decide +kernel

/-! ### Registers, events, the collector -/

/-- A record of a unit. -/
def record (inst : Nat) : Event :=
  { stamp := 0, inst := inst, code := 0x0A02, ctx := 0, gen := 0, detail := 0, limited := false, key := 0, plough := none, info := 0, arrive := 3 }

theorem test_RegisterAccesses :
    ({} : Dev).accessOn .usb R.YOKE_IRQ_MASK = false ∧ on.accessOn .usb R.YOKE_IRQ_MASK = true ∧ doorbellAt R.YOKE_IRQ_MASK = none ∧
    msixWordAt R.YOKE_IRQ_MASK = none ∧ pbaWordAt R.YOKE_IRQ_MASK = none ∧ regPart R.YOKE_IRQ_MASK 8 = none ∧
    (regRowAt R.YOKE_IRQ_MASK).any (fun r => !r.wide) = true ∧ (regRowAt R.BELL_SET).any (fun r => r.wide) = true ∧
    on.accessOn .usb R.BELL_SET = true ∧ (R.YOKE_IRQ_MASK / 0x100000 ∈ [4, 5, 6]) := by decide

theorem test_RegisterAccesses_more :
    msixWordAt 0xB90FFC = some 1023 ∧ doorbellAt 0xB90FFC = none ∧ on.accessOn .usb 0xB90FFC = true ∧
    (regRowAt R.YOKE_IRQ_MASK).any (fun r => r.fields.all fun f => f.acc != .rc) = true ∧
    (regRowAt R.HEDGE_WALKS).any (fun r => !r.wide && r.fields.any fun f => f.acc == .rc) = true ∧ on.accessOn .usb R.HEDGE_WALKS = true ∧
    (∀ i < 16, R.HEDGE_WALKS ≠ R.TROUGH_PEAK i) ∧ (∀ t ∈ on.same, t.addr = R.HEDGE_WALKS → t.clk ≠ on.regClk R.HEDGE_WALKS) ∧
    doorbellAt R.HEDGE_WALKS = none ∧ msixWordAt R.HEDGE_WALKS = none ∧ pbaWordAt R.HEDGE_WALKS = none ∧
    on.accessOn .usb (R.BELL_SET + 4) = true ∧ regRowAt (R.BELL_SET + 4) = none ∧ doorbellAt (R.BELL_SET + 4) = none ∧
    msixWordAt (R.BELL_SET + 4) = none ∧ pbaWordAt (R.BELL_SET + 4) = none ∧ heldAt on.lowHeld .usb R.BELL_SET = none ∧
    (let d : Dev := { on with lowHeld := heldPut [] .usb R.BELL_SET 5, highCap := heldPut [] .usb R.BELL_SET 6 }
     heldAt d.lowHeld .usb R.BELL_SET = some 5 ∧ heldAt d.highCap .usb R.BELL_SET = some 6) := by decide +kernel

/-- R10 on a field of two bits at bit 1: what each type keeps of 0b11 when 0b01 is written to it, and the lock (R12). -/
theorem test_fieldWrite :
    let f := fun a => ({ lsb := 1, width := 2, acc := a, reset := 0 } : RegField)
    [fieldWrite false 0 6 2 (f .rw), fieldWrite false 0 6 2 (f .w1c), fieldWrite false 2 6 2 (f .w1c), fieldWrite false 0 4 2 (f .w1s),
      fieldWrite true 0 6 2 (f .rwl), fieldWrite false 0 6 2 (f .ro), fieldWrite false 0 6 2 (f .rc)] = [1, 2, 3, 3, 3, 3, 3] := by decide

theorem test_RegisterCommands : (∀ a ∈ [R.TOP_EVT_CTL, R.TOP_EVT_RING_RD, R.TOP_CTX_QUOTA 0, R.TOP_CTX_QUOTA 5, R.HEDGE_INVAL, R.HEDGE_FENCE,
    R.HOST_Q_TAIL 0, R.HOST_Q_TAIL 3, R.HOST_Q_CTL 3, R.GATE_SLOT_MAP 15, R.GATE_DISCOVER, R.GRAN_CTL, R.BELL_SET, R.BELL_CTL, R.BELL_VT_PENDING,
    R.BELL_ALM_SET, R.PWR_DOMAIN_REQ, R.STEW_MBOX_POP, R.STEW_TEL_CTL, R.STEW_TEL_RD, R.PWR_CTL, R.REEVE_CMD], on.accessOn .usb a = true) ∧
    on.locked = false ∧ ({ on with plan := lockedPlan [] } : Dev).locked = true ∧ on.servo ≠ 2 ∧
    on.flag F.HEDGE_FENCE_STATUS_busy = false ∧ (onWith [(F.HEDGE_FENCE_STATUS_busy, 1)]).flag F.HEDGE_FENCE_STATUS_busy = true ∧
    (onWith [(F.BELL_STATUS_servo_state, 2)]).servo = 2 := by decide +kernel

theorem test_RecoveryAndUsbRequests :
    (0x80000000 : BitVec 32).getLsbD 31 = true ∧ (0x80000000 : BitVec 32).getLsbD 8 = false ∧
    (∃ e r, (onWith []).mgmtRead 22 0x5E true 0 4 = (e, .ok r)) ∧ (∃ e, (onWith []).mgmtWrite 22 0x5E true 0 [1, 2, 3, 4] = (e, none)) := by
  refine ⟨by decide, by decide, ⟨_, _, rfl⟩, ⟨_, rfl⟩⟩

theorem test_CollectorIntake :
    let d : Dev := { on with clk := 24 * 4, evt := { arriving := [record 1, record 0] } }
    on.domainOn 34 = true ∧ on.evt.arriving = [] ∧ (List.replicate 511 (record 0)).length < 512 ∧ 512 ≤ (List.replicate 512 (record 0)).length ∧
    evtBefore (record 0) (record 1) = true ∧ (record 0).arrive = (record 1).arrive ∧ d.domainOn 34 = true ∧ (record 0).arrive < d.fclk ∧
    ({ on with clk := 24 * 3 } : Dev).fclk ≤ (record 0).arrive ∧ d.staleEvt (record 0) = false ∧ d.staleEvt { record 0 with gen := 7 } = true := by
  decide +kernel

/-- The ring is on and one record is held; the device once that record is taken. -/
def ringOn (armed : Nat := 0) : Dev := (onWith [(F.TOP_EVT_CTL_enable, 1), (F.TOP_EVT_CTL_armed, armed)]).logEvent (record 0)

theorem test_CollectorWrite :
    (on.logEvent (record 0)).hasQueue (record 0) = false ∧ (on.logEvent (record 0)).flag F.TOP_EVT_CTL_enable = false ∧
    on.evt.lastWrite ≠ some on.fclk ∧ on.ringShort (record 0) = false ∧ (onWith [(F.TOP_EVT_CTL_enable, 1)]).ringShort (record 0) = false ∧
    (onWith [(F.TOP_EVT_CTL_enable, 1), (F.TOP_EVT_RING_WR_count, 128)]).ringShort (record 0) = true ∧ (ringOn).ringRecords = 128 ∧
    (ringOn).flag F.TOP_EVT_CTL_enable = true ∧ (ringOn).evt.lossCount = 0 ∧ (ringOn).evt.ringUndefined = false ∧ (ringOn).hasQueue (record 0) = false ∧
    (ringOn).getF F.TOP_EVT_RING_WR_count = 0 ∧ (ringOn).getF F.TOP_EVT_RING_RD_count = 0 ∧ (ringOn).flag F.TOP_EVT_CTL_armed = false ∧
    (ringOn 1).flag F.TOP_EVT_CTL_armed = true := by decide +kernel

theorem test_CollectorWrite_goes : ∃ t, (ringOn).mgmtWrite 23 0x5F false 0 (record 0).bytes true = (t, none) := ⟨_, rfl⟩

/-! ### The plan -/

/-- The Steward runs a command of the mailbox. -/
def command (op : Nat) (l : List (Nat × Nat × Nat)) (d : Dev := on) : Dev :=
  let d := d.setF F.STEW_STATUS_mode 2
  { d with bell := { d.bell with t48 := 200000 * 2 ^ 48 },
           stew := { d.stew with booted := true, running := some ⟨.usb, bytesOf 64 ((0, 2, op) :: l), 0⟩ } }

/-- The bytes of the command that runs. -/
def Ran (d : Dev) (op : Nat) (f : List Byte → Bool) : Bool := (d.serves op).any f

theorem test_PlanLoads_refused :
    let d := command 1 [(16, 8, 0x3000000)] (onWith [(F.TOP_STATUS_stack_ready, 1), (F.GATE_STATUS_discovery_done, 1)])
    Ran (command 1 []) 1 (fun c => leAt c 16 8 < 0x200) = true ∧ Ran d 1 (fun c => 0x200 ≤ leAt c 16 8 && leAt c 16 8 ≤ 0x3000000) = true ∧
    d.flag F.TOP_STATUS_stack_ready = true ∧ d.flag F.GATE_STATUS_discovery_done = true ∧ on.flag F.TOP_STATUS_stack_ready = false ∧
    ((st d).imageRead 0 0 512).1 = st d ∧ d.headerRefusal (List.replicate 512 0xFF) = some 1 := by decide +kernel

theorem test_PlanRuns :
    Ran (command 2 [(8, 8, 1000000)]) 2 (fun c => leAt c 8 8 == 1000000) = true ∧ on.plan.phase ≠ .loaded ∧
    (let d : Dev := { command 2 [(8, 8, 1000000)] with plan := { phase := .loaded } }
     d.plan.phase = .loaded ∧ d.plan.t0 = none ∧ d.stew.running.any (fun t => decide (t.rx + 1000000 ≤ 1000000)) = true) ∧
    (let d : Dev := { on with plan := { phase := .loaded, t0 := some 0 } }
     d.plan.t0 = some 0 ∧ 0 ≤ d.devNs ∧ d.memc.fills = []) ∧
    (let d : Dev := { on with plan := { lockedPlan [] with t0 := some 0, header := bytesOf 512 [(0x30, 4, 1000000), (0x47, 1, 1)] } }
     d.locked = true ∧ d.plan.ended = false ∧ d.devNs < d.boundaryNs 1 ∧ d.boundaryNs 0 ≤ d.devNs ∧
     d.sliceBoundary.exchangeBoundary.plan.stopping = false) ∧
    (command 3 []).serves 3 ≠ none ∧ (command 4 []).serves 4 ≠ none ∧
    (let d : Dev := { on with plan := { lockedPlan [] with ended := true }, ctxs := [(7, { life := .retiring })] }
     d.locked = true ∧ d.plan.ended = true ∧ d.pwr.restore = 0 ∧ (({ d with ctxs := [] } : Dev).domainNext = none)) ∧
    ({ on with memc := { fills := [⟨[], some 3, false, false⟩] } } : Dev).finishFill.2 = some ⟨[], some 3, false, false⟩ := by
  decide +kernel

theorem test_PlanStore : Ran (command 5 [(16, 8, 64)]) 5 (fun c => leAt c 16 8 == 64) = true ∧
    ∃ e bs, (command 5 [(16, 8, 64)]).mgmtRead 23 0x5F false 0 64 = (e, .ok bs) := ⟨by decide +kernel, _, _, rfl⟩

theorem test_LockedPlanStands :
    let d := command 0x20 [(8, 4, 60000)] { on with plan := { lockedPlan [] with header := bytesOf 512 [(0x3C, 4, 60001)] } }
    d.plan.phase = .locked ∧ Ran d 0x20 (fun c => leAt c 8 4 == 60000) = true ∧ d.header 0x3C 4 = 60001 := by decide +kernel

/-! ### Contexts -/

/-- A context command runs on ID 1, in a locked plan of four contexts. -/
def contextCommand (cmd : Nat) (c : Ctx) : Dev :=
  { on with plan := lockedPlan [(4, 0, sliceSection), (5, 1, bytesOf 64 [(2, 1, 4)])], ctxs := [(1, c)], ctxCmd := some { cmd := cmd, id := 1, rslot := 0, src := .reg } }

theorem test_ContextLifeCycle :
    (contextCommand 1 {}).locked = true ∧ 1 < (contextCommand 1 {}).ctxCount ∧ ((contextCommand 1 {}).ctxOf 1).life = .retired ∧
    ((contextCommand 1 {}).ctxOf 1).gen < 0xFFFFF ∧ ((contextCommand 1 { gen := 0xFFFFF }).ctxOf 1).gen = 0xFFFFF ∧
    ((contextCommand 2 { life := .swapped }).ctxOf 1).active = true ∧ (contextCommand 2 { life := .swapped }).ctxRunning 1 = false ∧
    ({ contextCommand 2 { life := .resident } with ploughs := [(15, { runningPlough with sliceIdx := some 0 })] } : Dev).ctxRunning 1 = true ∧
    (contextCommand 4 { life := .swapped }).owns 1 = false ∧
    (let d := contextCommand 3 { life := .swapped, halted := true, haltAt := some 0 }
     ((d.ctxOf 1).halted && (d.ctxOf 1).haltAt == some d.fclk) = true ∧ (d.ctxOf 1).active = true) ∧
    ((contextCommand 3 { life := .swapped }).ctxOf 1).halted = false ∧
    ((contextCommand 4 { life := .retiring }).ctxOf 1).life = .retiring ∧
    (onWith [(F.YOKE_MARK_CFG_enable 7, 1), (F.YOKE_MARK_CFG_owner 7, 1)] (contextCommand 4 { life := .swapped })).owns 1 = true ∧
    (let d := contextCommand 5 { life := .swapped, quota := [0, 0x100000, 0, 0, 0, 0] }
     d.exch = none ∧ (d.ctxOf 1).life = .swapped ∧ 0 < d.slotCount ∧ d.swappable 1 = true ∧ d.slotHolder 0 = none ∧
     (d.slotRec 0).2.1 ≤ d.quotaNow 1 1 ∧ (d.slotRec 0).2.2 ≤ d.quotaNow 1 5) ∧
    (let d := contextCommand 5 { life := .swapped, quota := [0, 0xFFFFF, 0, 0, 0, 0] }
     d.quotaNow 1 1 < (d.slotRec 0).2.1) := by decide +kernel


/-! ### The Steward -/

/-- The Steward runs and serves a mode, at a device time in ns. -/
def steward (ns : Nat) (mode : Nat := 2) (l : List (FieldRef × Nat) := []) : Dev :=
  let d := onWith ((F.STEW_STATUS_mode, mode) :: l)
  { d with bell := { d.bell with t48 := ns * 2 ^ 48 }, stew := { d.stew with booted := true } }

/-- An enabled CAN controller 1 and a link on port 3. -/
def portsUp : Dev := onWith [(F.GATE_CAN_CTL_enable 1, 1), (F.GATE_STATUS_eth_up, 8)]

theorem test_StewardCommandsEffects :
    Ran (command 0x20 [(8, 4, 220000)]) 0x20 (fun c => leAt c 8 4 == 220000) = true ∧ (command 0x20 []).locked = false ∧
    (let d := command 0x20 [(8, 4, 60000)] { on with plan := { lockedPlan [] with header := bytesOf 512 [(0x3C, 4, 60001)] } }
     d.locked = true ∧ leAt (bytesOf 64 [(8, 4, 60000)]) 8 4 < d.header 0x3C 4) ∧
    (let k := ({} : Kept).flashWrite logBase (logEntry 1 [7] 0 1)
     (k.logFrom 0 1 1).flatMap (·.2) = logEntry 1 [7] 0 1 ∧
     (on.mgmtWrite 23 0x5F false 0 ((k.logFrom 0 1 1).flatMap (·.2))).2 = none) ∧
    (let c := bytesOf 64 [(8, 1, 1), (9, 1, 7), (10, 1, 15), (12, 4, 2 ^ 29 - 1)]
     leAt c 8 1 < 2 ∧ leAt c 9 1 < 8 ∧ leAt c 10 1 < 16 ∧ (leAt c 9 1).testBit 0 = true ∧ leAt c 12 4 < 2 ^ 29 ∧
     portsUp.gateStatus.testBit (12 + 1) = true ∧ on.gateStatus.testBit (12 + 1) = false ∧ portsUp.gateStatus.testBit (12 + leAt c 8 1) = true ∧ dlcBytes ((leAt c 9 1).testBit 1) (leAt c 10 1) = 64) ∧
    (portsUp.getF F.GATE_STATUS_eth_up).testBit 3 = true ∧ (command 0x80 []).serves 0x80 ≠ none ∧ (command 0x41 []).serves 0x41 ≠ none ∧
    (st on).bcbNow.trial = 0xFF ∧ (command 0x42 [] (onWith [(F.STEW_STATUS_trial, 1)])).flag F.STEW_STATUS_trial = true ∧
    imageResult [] 0 = 1 ∧ recordResult [] 0 none = 1 := by decide +kernel

theorem test_StewardAccesses : (∃ e bs, on.mgmtRead 23 0x5F false 0 64 = (e, .ok bs)) ∧ (∃ e bs, on.mgmtRead 23 0x5F false 0 0x560 = (e, .ok bs)) :=
  ⟨⟨_, _, rfl⟩, ⟨_, _, rfl⟩⟩

/-- The signed quote of a device with the identity key 1. -/
theorem test_Attest :
    let d := command 0x60 [] { on with stew := { idKey := some (1, Crypto.baseG) } }
    let body := d.quoteBody (List.replicate 32 0) (leBytes 48 Crypto.baseG.1 ++ leBytes 48 Crypto.baseG.2)
    let sig := Crypto.sign 1 (Crypto.sha384 body)
    d.serves 0x60 ≠ none ∧ (d.mgmtWriteEach 23 0x5F false 0 (body ++ leBytes 48 sig.1 ++ leBytes 48 sig.2)).2 = none := by decide +kernel

/-- A mailbox with one command. -/
def mailed (op : Nat) (l : List (Nat × Nat × Nat)) (d : Dev) : Dev :=
  { d with stew := { d.stew with queue := [⟨.usb, bytesOf 64 ((0, 2, op) :: l), 0⟩] } }

theorem test_StewardFrames :
    (steward 99999).sliceDue .telemetry = true ∧ (steward 100000).sliceDue .telemetry = false ∧
    (let e := (steward 99999 2 [(F.STEW_TEL_CTL_enable, 1), (F.STEW_TEL_MASK_mask, 1)]).sliceDone .telemetry 0
     e.flag F.STEW_TEL_CTL_enable = true ∧
     (sensors.filter fun x => (e.getF F.STEW_TEL_MASK_mask).testBit x.1 && e.frameNo % x.2 == 0) = [(0, 1)]) ∧
    (let e := (steward 0 2 [(F.STEW_TEL_CTL_enable, 1), (F.STEW_TEL_MASK_mask, 0)]).sliceDone .telemetry 0
     (sensors.filter fun x => (e.getF F.STEW_TEL_MASK_mask).testBit x.1 && e.frameNo % x.2 == 0) = []) ∧
    (steward 100000).sliceDue .log = true ∧ (steward 949999).sliceOpen .mailbox = true ∧ (steward 0).firmware = true ∧
    (steward 0).stew.inTrap = false ∧
    opArgs 0x99 = none ∧ opArgs 0x70 = some [(8, 3), (12, 12)] ∧ modeServes 1 0x70 = false ∧ modeServes 2 0x70 = true ∧
    reservedSet (bytesOf 64 [(0, 2, 0x70), (11, 1, 1)]) [(8, 3), (12, 12)] = true ∧
    reservedSet (bytesOf 64 [(0, 2, 0x70), (23, 1, 1)]) [(8, 3), (12, 12)] = false ∧
    (steward 0).getF F.STEW_STATUS_mode = 2 ∧ (steward 0).ctxCmd = none ∧
    (let c := bytesOf 64 [(0, 2, 0x10), (8, 2, 4095), (10, 1, 5), (11, 1, 63)]; reservedSet c [(8, 4)] = false ∧ ctxArgsOk c = true) ∧
    (mailed 0x20 [] (steward 0)).stew.running = none := by decide +kernel

theorem test_StewardBoot :
    on.pwr.good = true ∧ on.pwr.started = true ∧ on.stew.booted = false ∧ on.stew.halted = false ∧ (steward 0).stew.booted = true ∧
    (steward 950002).hkFrame = some (0, 950000) ∧ (steward 1000000).hkFrame = some (0, 950000) ∧ (steward 950002).devNs < 950000 + 3 ∧
    SMap.get (fun _ => 0) (steward 950002).stew.frames 3 ≠ 0 + 1 ∧ (steward 950002).firmware = true ∧ ((steward 950002).sliceDone .housekeeping 0).stew.renew = [] ∧
    (let d := steward 950000 2 [(F.GATE_STATUS_discovery_busy, 1), (F.GATE_ID_POLICY_policy, 0)]
     d.flag F.GATE_STATUS_discovery_busy = true ∧ d.sliceOpen .housekeeping = true ∧ (∀ b < 8, d.gate.discovering.testBit b = false ∨ d.idPolicy b = 0)) ∧
    (let d := steward 950000 2 [(F.GATE_STATUS_discovery_busy, 1), (F.GATE_ID_POLICY_policy, 2 ^ 14)]
     let e : Dev := { d with gate := { d.gate with discovering := 0xFF } }
     e.flag F.GATE_STATUS_discovery_busy = true ∧ ∀ c < 8, (e.gate.discovering.testBit c = true ∧ e.idPolicy c ≠ 0) ↔ c = 7) := by
  decide +kernel

/-! ### The Hedge, recovery -/

/-- A request of context 1 waits for a walk. -/
def walking (c : Ctx) (h : HedgeState := {}) : Dev :=
  { onWith [(F.HEDGE_STATUS_arb_ptr, 23)] with ctxs := [(1, c)], hedge := { h with waiting := [⟨23, 1, 1, 0x1000⟩] } }

/-- A readable page of 64 KiB of local store 0. -/
def aPage : Leaf := ⟨0, 0x10000, 0x40007#64⟩

theorem test_HedgeWork :
    (walking {}).hedge.waiting = [⟨23, 1, 1, 0x1000⟩] ∧ (walking {}).getF F.HEDGE_STATUS_arb_ptr < 24 ∧ (walking {}).freeWalker = some 0 ∧
    (walking {} { walks := (List.range 4).map fun k => ⟨k, 23, 1, 1, 0x1000, 0⟩ }).freeWalker = none ∧ 1 ≠ mgmtSpace ∧
    (walking {} { fences := [⟨1, 1, 1, 0, 0⟩] }).fenced 1 = true ∧ (walking {}).fenced 1 = false ∧
    (walking { gen := 2, life := .resident }).genOk 1 1 = false ∧ (walking { life := .resident }).genOk 1 1 = true ∧
    (let d : Dev := { walking {} { fences := [⟨1, 1, 1, 0, 0⟩] } with clk := 24 * 100016 }
     d.fenceOutstanding 1 = 1 ∧ 0 + 100016 ≤ d.fclk ∧ (walking {} { fences := [⟨1, 1, 1, 0, 0⟩] }).fclk < 0 + 100016) ∧
    ({ on with hedge := { fences := [⟨1, 1, 1, 0, 0⟩] } } : Dev).fenceOutstanding 1 = 0 ∧ (walking {}).hedge.lastInval = none := by decide +kernel

theorem test_HedgeWork_ends : (∃ r, (walking { life := .resident }).walk 1 1 0x1000 = .error r) ∧
    (walking { life := .resident } { tables := [(1, [aPage])] }).walk 1 1 0x1000 = .ok aPage := ⟨⟨_, rfl⟩, rfl⟩

/-- Plough 15 has a checkpoint planned at CCOUNT 1,000, and time is at a CCOUNT. -/
def checkpointed (c : Nat) : Dev :=
  { on with clk := 20 * c, plan := lockedPlan [(7, 15, bytesOf 128 [(0, 4, 1), (64, 2, 5), (68, 4, 1000)])] }

/-- The recovery of plough 15. -/
def recovery15 : Recovery := { unit := 15, cause := 1, seq := 1, ns := 0, fclk := 0, ccount := 0, period := 0, detail := 0 }

theorem test_RecoveryDetectors :
    ((st (checkpointed 1001)).upd fun d => d.cpSettle 15).dev.cpLeft 15 = [⟨5, 0, 1000⟩] ∧
    ((st (checkpointed 1001)).upd fun d => d.cpSettle 15).dev.locked = true ∧
    ((st (checkpointed 1001)).upd fun d => d.cpSettle 15).dev.ploughHeld 15 = false ∧
    1000 + (checkpointed 1001).marginC < (checkpointed 1001).ccount ∧ (checkpointed 1000).ccount ≤ 1000 + (checkpointed 1000).marginC ∧
    on.engineSince 3 = none ∧
    (let d : Dev := { onWith [(F.REEVE_CTL_auto, 0)] with clk := 2 ^ 40, jobs := [job 3 0 1] }
     d.engineSince 3 = some 1 ∧ 1 + max 1 (d.getF (F.REEVE_ENG_LIMIT_us 3)) * 1200 < d.cclk ∧ d.unitBusy 19 = false ∧
     d.flag F.REEVE_CTL_auto = false ∧ (d.reg R.REEVE_HUNG).toNat.testBit 19 = false) ∧
    ({ on with clk := 24000000000 } : Dev).reeve.kick + ({ on with clk := 24000000000 } : Dev).watchdogLimit = 24000000000 ∧
    on.domainOn 25 = true := by decide +kernel

theorem test_RecoveryRuns :
    unitMask 19 = some 0xF000 ∧ unitMask 31 = some 0xFFFFF ∧ on.parkedBits &&& 0xF000 = 0 ∧
    (let d : Dev := { on with reeve := { recs := [{ recovery15 with dumped := true }] } }
     d.reeve.recs.find? (fun r => r.unit == (15 : BitVec 5).toNat) = some { recovery15 with dumped := true } ∧
     d.recFenced recovery15 = true ∧ d.recLate { recovery15 with dumped := true } = false) ∧
    ({ on with clk := 24 * 201000, reeve := { recs := [recovery15] } } : Dev).recLate recovery15 = false ∧
    ({ on with clk := 24 * 201001, reeve := { recs := [recovery15] } } : Dev).recLate recovery15 = true ∧
    (let d : Dev := { on with clk := 24 * 37232, reeve := { recs := [recovery15] } }
     d.dumping = some recovery15 ∧ dumpReads (dumpPlan 0 (d.memberWords recovery15) []) = 37232 ∧ 37232 ≤ d.fclk) ∧
    (let r := { recovery15 with summary := true }
     let d : Dev := { on with clk := 24 * 10031, reeve := { recs := [r] } }
     d.dumping = some r ∧ dumpReads (dumpPlan 0 (d.memberWords r) []) = 32 ∧ readWord (dumpPlan 0 (d.memberWords r) []) (d.fclk - 10000) = some 31) ∧
    ({ on with reeve := { device := some recovery15 } } : Dev).reeve.deviceRuns = false := by decide +kernel

/-! ### Power -/

theorem test_Power :
    ({ } : Dev).pwr.on = true ∧ ({ } : Dev).pwr.good = false ∧ ({ on with pwr := { on.pwr with on := false } } : Dev).pwr.on = false ∧
    on.resetDue = none ∧ ({ on with pwr := { on.pwr with reset := some .thermalRelease } } : Dev).resetDue = some none ∧
    ({ on with reeve := { device := some { recovery15 with dumped := true }, deviceRuns := true } } : Dev).resetDue = some (some 3) ∧
    (let d : Dev := { onWith [(⟨R.PWR_DOMAIN_ON, 0, 1⟩, 0)] with clk := 480000 }
     d.pwr.good = true ∧ d.pwr.lastSwitch + 480000 ≤ d.clk ∧ d.domainNext.isSome = true) ∧
    (35 : BitVec 6).toNat < 36 ∧
    (let d : Dev := { on with clk := 24000000, pwr := { on.pwr with hotSince := [(3, some 0)] } }
     SMap.get (fun _ => none) d.pwr.hotSince (3 : Nat) = some 0 ∧ 0 + 24000000 ≤ d.clk ∧ d.pwr.tripped = false) ∧
    SMap.get (fun _ => none) on.pwr.hotSince (0 : Nat) = none ∧ (onWith [(F.PWR_WAKE_sec, 5)]).getF F.PWR_WAKE_sec = 5 ∧
    ({ on with pwr := { on.pwr with wakeN := some 0 } } : Dev).pwr.wakeN = some 0 ∧
    (let d : Dev := { on with pwr := { on.pwr with filled := true } }
     d.pwr.started = true ∧ d.pwr.trained = false ∧ d.domainOn 24 = true ∧ d.domainOn 25 = true ∧ d.pwr.filled = true) ∧
    ({ on with pwr := { on.pwr with overSince := some 0 } } : Dev).pwr.overSince = some 0 := by decide +kernel

/-! ### Gatehouse, troughs, Yoke -/

/-- A capture of device time zero. -/
def edge0 : Capture := ⟨0, true, 0⟩

theorem test_StrobesAndStamps :
    (on.captured 15).length < 2 ∧ (on.captured 35).length < 2 ∧
    (let d : Dev := { on with bell := { captures := [(15, [edge0, edge0])] } }; 2 ≤ (d.captured 15).length) ∧
    ((true : Bool) = on.flag (F.GATE_IMU_CTL_drdy_pol 0) ∨ (false : Bool) = on.flag (F.GATE_IMU_CTL_drdy_pol 0)) ∧
    (true : Bool) ≠ (onWith [(F.GATE_IMU_CTL_drdy_pol 1, 0)]).flag (F.GATE_IMU_CTL_drdy_pol 1) ∧
    on.flag F.BELL_PPS_CTL_in_en = false ∧
    (let d := onWith [(F.BELL_PPS_CTL_in_en, 1), (F.BELL_PPS_CTL_in_pol, 0)]
     d.flag F.BELL_PPS_CTL_in_en = true ∧ (true : Bool) ≠ d.flag F.BELL_PPS_CTL_in_pol) ∧
    (∀ k < 37, on.captured k = []) ∧
    (let d : Dev := { on with bell := { captures := [(7, [edge0])], stampPtr := 8 } }
     (∀ j < 36, d.captured ((d.bell.stampPtr + j) % 37) = []) ∧ d.captured ((d.bell.stampPtr + 36) % 37) = [edge0]) ∧
    (let d : Dev := { on with bell := { captures := [(8, [edge0])], stampPtr := 8 } }
     d.captured ((d.bell.stampPtr + 0) % 37) = [edge0] ∧ d.bell.convT ≠ some d.bell.tEdges) ∧
    ({ on with bell := { convT := some 0 } } : Dev).bell.convT = some 0 ∧ on.bell.tEdges = 0 := by decide +kernel

/-- Slot 15 takes virtual channel 0, data type 0x2A of camera port 7, or another source. -/
def slotted (kind port sel : Nat) (l : List (FieldRef × Nat) := []) : Dev :=
  onWith ((F.GATE_SLOT_MAP_enable 15, 1) :: (F.GATE_SLOT_MAP_kind 15, kind) :: (F.GATE_SLOT_MAP_port 15, port) :: (F.GATE_SLOT_MAP_sel 15, sel) :: l)

/-- The camera source of the tests. -/
def camera : Source := { kind := 1, port := 7, key := 0x2A * 4 }

/-- An open camera frame of port 7. -/
def openFrame : CsiFrame :=
  { port := 7, vc := 0, dt := 0x2A, slot := 15, hdr := { slot := 15, kind := 1, stamp := 0, flags := 128, seq := 0, bytes := 0, src := 168, aux := 0 },
    buf := [], total := 0, lines := 0, partialF := false, started := false }

theorem test_CameraFrames :
    (let d := slotted 1 7 168
     d.csiCut 7 0 = d ∧ (d.takeStamp 15 0 true).1 = d ∧ d.csiSources 7 0 = [camera] ∧ d.takingSlot camera = some 15 ∧
     (d.takeIn camera 0).2 = some 15 ∧ d.getF (F.GATE_CSI_CTL_strobe_mode 7) = 0 ∧ on.csiSources 7 0 = []) ∧
    (let d := slotted 1 7 168 [(F.GATE_SLOT_MAP_id_req 15, 1)]
     d.csiSources 7 0 = [camera] ∧ d.takingSlot camera = some 15 ∧ (d.takeIn camera 0).2 = none) ∧
    (let d := slotted 1 7 168 [(F.GATE_CSI_CTL_strobe_mode 7, 2), (F.GATE_CSI_CTL_strobe_input 7, 7)]
     let e : Dev := { d with gate := { d.gate with strobes := [(7, { pulses := [⟨256, 512, []⟩] })] } }
     let c := d.convertUntil 7 75
     let f := e.convertUntil 7 75
     d.getF (F.GATE_CSI_CTL_strobe_mode 7) = 2 ∧ c.matchPulse 7 7 0 = none ∧ c.csiSources 7 0 = [camera] ∧ c.takingSlot camera = some 15 ∧
     ((c.gateEvent 0x0107 15 0 0).takeIn camera 0).2 = some 15 ∧ f.matchPulse 7 7 513 = some ⟨256, 512, []⟩ ∧
     f.csiSources 7 0 = [camera] ∧ f.takingSlot camera = some 15 ∧ (f.takeIn camera 256).2 = some 15) ∧
    on.gate.csi = [] ∧ csiTypes.contains 0x2A = true ∧ csiTypes.contains 0x18 = false ∧
    ({ on with gate := { csi := [openFrame] } } : Dev).gate.csi.filter (fun f => f.port == 7 && f.vc == 0) = [openFrame] ∧
    openFrame.drop = false ∧ { openFrame with drop := true }.drop = true := by decide +kernel

/-- An Ethernet frame with a UDP datagram of 4 bytes to port 2368. -/
def udpFrame : List Byte :=
  List.replicate 12 0 ++ beBytes 2 0x0800 ++ [0x45, 0] ++ beBytes 2 32 ++ [0, 0, 0, 0, 64, 17, 0, 0] ++ List.replicate 8 0 ++
    beBytes 2 5000 ++ beBytes 2 2368 ++ beBytes 2 12 ++ beBytes 2 0 ++ [1, 2, 3, 4] ++ List.replicate 4 0

theorem test_ethClass :
    ethClass (udpFrame.take (udpFrame.length - 4)) = .udp 5000 2368 [1, 2, 3, 4] ∧ ethClass (List.replicate 12 0 ++ [0x88, 0xF7]) = .ptp ∧
    ethClass (List.replicate 60 0) = .other ∧ udpFrame.length ≤ 1518 := by decide +kernel

theorem test_PortFrames :
    (onWith [(F.GATE_ETH_CTL_mode 3, 4)]).getF (F.GATE_ETH_CTL_mode 3) = 4 ∧ (onWith [(F.GATE_ETH_CTL_mode 3, 5)]).getF (F.GATE_ETH_CTL_mode 3) = 5 ∧
    (∀ n < 16, on.slotMaps n { kind := 2, port := 3, key := 2368 } = false) ∧
    (slotted 2 3 2368).takingSlot { kind := 2, port := 3, key := 2368 } = some 15 ∧
    ((slotted 2 3 2368).takeIn { kind := 2, port := 3, key := 2368 } 0).2 = some 15 ∧ (slotted 2 3 2368).getF (F.GATE_SLOT_PARSE_mode 15) = 0 ∧
    on.getF (F.GATE_IMU_CTL_burst 0) = 0 ∧ (onWith [(F.GATE_IMU_CTL_burst 1, 1)]).getF (F.GATE_IMU_CTL_burst 1) ≠ 0 ∧
    (let d := { slotted 3 1 0 with gate := { imu := [(0, some ⟨5, 0, none⟩), (1, some ⟨5, 0, some 15⟩)] } }
     SMap.get (fun _ => none) d.gate.imu (1 : Nat) = some ⟨5, 0, some 15⟩ ∧ SMap.get (fun _ => none) d.gate.imu (0 : Nat) = some ⟨5, 0, none⟩ ∧
     d.takingSlot { kind := 3, port := 1 } = some 15 ∧ d.takingSlot { kind := 3, port := 0 } = none) ∧
    SMap.get (fun _ => none) on.gate.imu (1 : Nat) = none ∧
    (let d := command 0x70 [(8, 1, 1)] portsUp
     d.runs 0x70 ≠ none ∧ d.flag (F.GATE_CAN_CTL_enable 1) = true ∧ d.flag (F.GATE_CAN_CTL_listen_only 1) = false) ∧
    (let d := iter 32 (command 0x70 [(8, 1, 1)] portsUp) fun _ d => d.canFailed 1
     d.getF (F.GATE_CAN_CTL_state 1) = 2 ∧ d.getF (F.GATE_CAN_CTL_tec 1) = 255 ∧ d.gateStatus.testBit (12 + 1) = false) ∧
    on.flag (F.GATE_CAN_CTL_enable 0) = false ∧
    (let d := onWith [(F.GATE_CAN_CTL_enable 1, 1), (F.GATE_CAN_CTL_listen_only 1, 1)]
     d.flag (F.GATE_CAN_CTL_enable 1) = true ∧ d.getF (F.GATE_CAN_CTL_state 1) ≠ 2 ∧ (d.takeStamp 19 0 false).1.flag (F.GATE_CAN_CTL_listen_only 1) = true) ∧
    (onWith [(F.GATE_CAN_CTL_state 1, 2)]).getF (F.GATE_CAN_CTL_state 1) = 2 ∧
    (onWith [(F.GATE_CAN_CTL_enable 1, 1)]).flag (F.GATE_CAN_CTL_listen_only 1) = false := by decide +kernel

theorem test_EncodersAndTriggers :
    (∀ e ∈ [EncEdge.a true, .b true, .z true, .z false, .both], (on.enc 7).tooSoon e 0 = false) ∧
    ({ seen := [some 0, none, none] } : Enc).tooSoon (.a true) 1 = true ∧
    (onWith [(F.GATE_ENC_CTL_latch 7, 1)]).flag (F.GATE_ENC_CTL_latch 7) = true ∧ on.flag (F.GATE_ENC_CTL_latch 7) = false ∧
    (let d : Dev := { onWith [(F.GATE_ENC_CTL_latch 7, 1)] with plan := { lockedPlan [] with t0 := some 5 }, bell := { t48 := 5 * 2 ^ 48 } }
     d.locked = true ∧ ((d.enc 7).nextLatch.getD (d.plan.t0.getD 0 * 256)) ≤ d.dev256) ∧
    (let d : Dev := { on with plan := { lockedPlan [] with t0 := some 6 }, bell := { t48 := 5 * 2 ^ 48 } }
     d.dev256 < (d.enc 7).nextLatch.getD (d.plan.t0.getD 0 * 256)) ∧
    (let d : Dev := { on with bell := { t48 := 5 * 2 ^ 48 }, gate := { trig := [(0, { level := true, fallAt := 1281 }), (1, { level := true, fallAt := 1280 }),
        (2, { armed := true, next := some 5 }), (3, { armed := true, next := some 6 })] } }
     d.dev256 < (d.trig 0).fallAt ∧ (d.trig 1).fallAt ≤ d.dev256 ∧ (d.trig 2).next = some 5 ∧ 5 * 256 ≤ d.dev256 ∧ (d.trig 2).armed = true ∧
     d.dev256 < 6 * 256 ∧ (d.trig 3).next = some 6 ∧ (d.trig 7).next = none ∧ (d.trig 7).level = false) ∧
    (on.getF F.GATE_STATUS_csi_up).testBit 7 ≠ true ∧ (on.getF F.GATE_STATUS_eth_up).testBit 3 ≠ true := by decide +kernel

/-- A clean first word of trough 15 with a stamp in ns. -/
def firstWord (ns : Nat) (eop abort : Bool) : TWord := ⟨bytesOf 64 [(0, 8, ns), (16, 4, 32)], true, eop, abort, {}, {}⟩

/-- Trough 15 holds a word, which has come into the head chain. -/
def troughed (w : TWord) (l : List (FieldRef × Nat) := []) (head : Bool := false) (lost : Bool := false) : Dev :=
  { onWith l with troughs := [(15, { words := [w], wr := 1, counted := 1, head := head, chain := [⟨w, lost, w.eop, headerStamp w.bytes, 0⟩] })] }

theorem test_Troughs :
    (false : Bool) = on.flag (F.TROUGH_CTL_consumer_hold 15) ∧ (true : Bool) ≠ on.flag (F.TROUGH_CTL_consumer_hold 15) ∧
    (onWith [(F.TROUGH_CTL_consumer_hold 15, 1)]).flag (F.TROUGH_CTL_consumer_hold 15) = true ∧ (on.trough 15).chain = [] ∧
    on.yoke.lastTake ≠ some on.fclk ∧ ({ on with yoke := { lastTake := some 0 } } : Dev).yoke.lastTake = some on.fclk ∧
    (let d := troughed (firstWord 0 false true) [] true true
     (d.trough 15).head = true ∧ (d.trough 15).chain = [⟨firstWord 0 false true, true, false, 0, 0⟩]) ∧
    (let d := troughed (firstWord 0 false false)
     (d.trough 15).head = false ∧ (d.trough 15).discards d.fclk = false ∧ (d.trough 15).chain = [⟨firstWord 0 false false, false, false, 0, 0⟩] ∧
     0 ≤ d.fclk ∧ d.flag (F.TROUGH_CTL_gate_en 15) = false) ∧
    (let d := troughed (firstWord (2 ^ 40) false false) [(F.TROUGH_CTL_gate_en 15, 1)]
     d.flag (F.TROUGH_CTL_gate_en 15) = true ∧ (firstWord (2 ^ 40) false false).sop = true ∧ headerStamp (firstWord (2 ^ 40) false false).bytes = 2 ^ 48 ∧
     ¬ (d.slotNow 15 ≤ 2 ^ 48 + d.getF (F.TROUGH_GATE_past 15) * 256000 ∧ 2 ^ 48 < d.slotNow 15 + d.getF (F.TROUGH_GATE_future 15) * 256000)) := by
  decide +kernel

/-- Queue 19 injects a sample into slot 15. -/
def injecting (x : Inject) (l : List (FieldRef × Nat) := []) : Dev :=
  let d := onWith ((F.GATE_SLOT_MAP_inject 15, 1) :: l)
  { d with host := { d.host with inj := [(19, some x)] } }

theorem test_Injection :
    let x : Inject := { desc := bytesOf 32 [(8, 4, 64), (12, 1, 1)], buf := bytesOf 64 [(16, 4, 32)] }
    (injecting x).injOf 19 = some x ∧ x.taken = false ∧ x.cut = false ∧ leAt x.desc 8 4 ≤ x.buf.length ∧ (injecting x).slotInj 15 = true ∧
    (injecting x).slotOn 15 = false ∧ (injecting x [(F.GATE_SLOT_MAP_enable 15, 1)]).slotOn 15 = true ∧ injBad x.buf = false ∧
    injBad (bytesOf 64 [(16, 4, 33)]) = true ∧ SMap.get (fun _ => 0) (injecting x).gate.lastStamp (15 : Nat) ≤ headerStamp x.buf + 1 ∧
    (injecting x).troughFree 15 ≠ 0 ∧ ({ on with troughs := [(15, { words := List.replicate 2048 (firstWord 0 false false) })] } : Dev).troughFree 15 = 0 ∧
    (let d := injecting { x with taken := true, words := [firstWord 0 true false, firstWord 0 true false] } [(⟨qCtl 19, 0, 1⟩, 1)]
     (d.injOf 19).any (fun y => y.words.length == 2) = true ∧ SMap.get (fun _ => 0) d.host.injAt (19 : Nat) ≠ d.fclk + 1 ∧
     SMap.get (fun _ => 0) (d.injMark 19).host.injAt (19 : Nat) = d.fclk + 1 ∧ d.qOn 19 = true ∧ d.qHalted 19 = false) := by decide +kernel

theorem test_YokeTakes :
    on.intakePick = none ∧
    (let h := fun (eop abort : Bool) => troughed (firstWord 0 eop abort) [] true
     (h false false).intakePick = some (15, firstWord 0 false false) ∧ (h true true).intakePick = some (15, firstWord 0 true true) ∧
     (h true false).intakePick = some (15, firstWord 0 true false) ∧
     (let e := (h true false).intakeTake 15 (firstWord 0 true false)
      SMap.get (fun _ => []) e.yoke.part (15 : Nat) = [firstWord 0 true false] ∧ e.lateFor [] 0 0 = false)) := by decide +kernel

/-! ### Engines -/

/-- Schedule 7 is enabled and its window of a kind is open; device time is T0 + 10 ms. -/
def fusing (kind : Nat) (l : List (FieldRef × Nat)) : Dev :=
  { onWith ((F.YOKE_MARK_CFG_enable 7, 1) :: (F.YOKE_MARK_PERIOD_ns 7, 1000000) :: l) with
    plan := { lockedPlan [(2, 0, calendar kind 0)] with t0 := some 0 }, bell := { t48 := 10000000 * 2 ^ 48 } }

theorem test_YokeFuses :
    on.fuseWindow 0x17 7 = none ∧ on.fuseWindow 0x1F 7 = none ∧
    (let d := fusing 0x17 [(F.YOKE_MARK_CTL_commit_lag 7, 1)]
     (d.fuseWindow 0x17 7).isSome = true ∧ d.noProv 7 = false ∧ d.fuseMark 7 (d.provLag 7) 9999999 (d.sched 7).provDone = some 9 ∧ d.histReads 7 = d ∧
     (d.region (d.getF (F.YOKE_MARK_CFG_region_base 7) + 9 % d.nbuf 7)).state ≠ 1) ∧
    (let d := fusing 0x1F []
     (d.fuseWindow 0x1F 7).isSome = true ∧ d.noProv 7 = true ∧ d.fuseMark 7 (d.commitLag 7) 10000000 (d.sched 7).commitDone = some 10) := by
  decide +kernel

/-- Context 1 has the first 2 MiB of the Barn at 0, and jobs. -/
def working (js : List Job) (l : List (FieldRef × Nat) := []) : Dev :=
  { onWith l with ctxs := [(1, { life := .resident })], jobs := js, hedge := { tables := [(1, [⟨0, 0x200000, mkPte 0x130 2 0⟩])] } }

/-- The same job when its engine has run it. -/
def ran (j : Job) (result : Nat := 0) : Job := { j with ran := true, result := result }

theorem test_ImageJobs_heads :
    on.headToRun 0 0 = none ∧ on.headRan 1 0 = none ∧ (working [job 0 0 0x40]).headToRun 0 0 = some (job 0 0 0x40) ∧
    (working [job 1 0 4]).headToRun 1 0 = some (job 1 0 4) ∧ on.flag F.YOKE_STATUS_recovering = false ∧ on.flag F.SIEVE_STATUS_recovering = false ∧
    (working [ran (job 0 0 0x41) 3]).headRan 0 0 = some (ran (job 0 0 0x41) 3) ∧ (working [ran (job 0 0 0x41) 3]).genOk 1 1 = true ∧
    (working [ran (job 1 0 3)]).headRan 1 0 = some (ran (job 1 0 3)) ∧ ([0, 0, 0].getD 2 0).testBit 0 = false := by decide +kernel

theorem test_ImageJobs_reads : (∃ d b, (working []).jobRead (job 0 0 0x40) 0x10000 576 = (d, some b)) ∧
    (∃ d, (working []).jobRead (job 0 0 0x40) 0x300000 576 = (d, none)) ∧ (∃ d b, (working []).jobRead (job 1 0 1) 0x10000 64 = (d, some b)) ∧
    (∃ e, (working []).jobWrite (job 1 0 1) 0 [0, 0, 0, 0] = (e, true)) :=
  ⟨⟨_, _, rfl⟩, ⟨_, rfl⟩, ⟨_, _, rfl⟩, ⟨_, rfl⟩⟩

/-- A tensor of the projection unit's shape. -/
def cloud : BitVec 512 := descOfBytes (bytesOf 64 [(8, 1, 0x10), (16, 4, 3), (20, 4, 2097152), (24, 4, 1), (28, 4, 1), (32, 4, 1), (36, 4, 1), (40, 4, 1), (44, 4, 3)])

/-- A block that names no camera has no reason against it, one with a reserved bit has reason 1, one with a
reserved word of camera 1 has it with that camera. -/
theorem test_ImageJobs_runs : (working []).projReason { job 0 0 0x40 with dd := cloud } (bytesOf 576 []) = none ∧
    (working []).projReason { job 0 0 0x40 with dd := cloud } (bytesOf 576 [(1, 1, 4)]) = some (1, none) ∧
    (working []).projReason { job 0 0 0x40 with dd := cloud } (bytesOf 576 [(156, 4, 1)]) = some (1, some 1) := by decide +kernel

theorem test_MillJobs :
    on.headToRun 2 4 = none ∧ (working [job 2 4 5]).headToRun 2 4 = some (job 2 4 5) ∧ (∀ o ∈ [0, 1, 2, 3], (working [job 2 4 5]).headRan 2 o = none) ∧
    (working [job 2 3 1]).headRan 2 4 = none ∧ on.flag F.MILL_STATUS_recovering = false ∧ (working []).millReason (job 2 4 5) (bytesOf 128 []) ≠ 0 ∧
    (working [ran (job 2 4 1)]).headRan 2 4 = some (ran (job 2 4 1)) ∧ (ran (job 2 4 1)).notes.getD 1 0 ≤ on.cclk := by decide +kernel

theorem test_MillJobs_reads : (∃ d b, (working []).jobRead (job 2 4 1) 0x10000 128 = (d, some b)) ∧
    (∃ e, (working []).jobWrite (job 2 4 1) (0x10000 + 120) (leBytes 4 0 ++ leBytes 4 1) = (e, true)) := ⟨⟨_, _, rfl⟩, ⟨_, rfl⟩⟩

theorem test_GranaryJobs :
    on.headToRun 3 3 = none ∧ (working [job 3 3 1]).headToRun 3 3 = some (job 3 3 1) ∧ on.flag F.GRAN_STATUS_recovering = false ∧
    on.flag F.GRAN_STATUS_table_bad = false ∧ (working [job 3 3 1]).granWaits (job 3 3 1) = false ∧ on.granLate 3 2 = false ∧
    ({ on with gran := { lastFrames := some (on.fclk, 3) } } : Dev).granLate 2 6 = true ∧
    (let e : Dev := working [{ job 3 0 1 with id := 1, notes := [0, 7] }, { job 3 3 1 with notes := [0, 7] }]
     e.granWaits { job 3 3 1 with notes := [0, 7] } = true) ∧
    (working [ran (job 3 3 1)]).headRan 3 3 = some (ran (job 3 3 1)) ∧ (onWith [(F.GRAN_STATUS_init_busy, 1)]).flag F.GRAN_STATUS_init_busy = true ∧
    on.flag F.GRAN_STATUS_init_busy = false := by decide +kernel

/-! ### Memory controllers, links -/

/-- Open mode, with stack requests. -/
def requesting (rs : List StackReq) (clk : Nat := 100) : Dev :=
  { onWith [(F.MEM_STATUS_open_mode, 1)] with clk := clk, memc := { reqs := rs, arb := [(31, 0x5F)] } }

/-- A STACK_WIN section with one window of stack 1, channel 15, for a requester. -/
def stackWin (req : Nat) : List Byte := bytesOf 96 [(0, 4, 1), (64, 4, 2), (68, 4, 4), (72, 2, 0x8000), (74, 1, req)]

/-- Windowed mode at an M count. -/
def windowed (req mcount : Nat) (rs : List StackReq := []) : Dev :=
  { onWith [(F.MEM_STATUS_open_mode, 0)] with clk := 15 * mcount, plan := lockedPlan [(3, 1, stackWin req)], memc := { reqs := rs } }

theorem test_StackChannelsServe :
    let x : StackReq := ⟨0x5E, 64 * 31, true, 0, false, 0, 0⟩
    let y : StackReq := ⟨0x5E, 64 * 31, false, 0, false, 0, 0⟩
    (requesting []).chanRequester 31 = none ∧ (requesting [x]).chanRequester 31 = some 0x5E ∧ (requesting [x]).openMode = true ∧
    ((requesting [x]).memc.reqs.find? fun x => chanOf x.word == 31 && x.req == 0x5E) = some x ∧ (requesting [y]).badWords (32 * y.word) 32 = [] ∧
    ({ requesting [y] with ecc := [(64 * 31, { poison := true })] } : Dev).badWords (32 * y.word) 32 ≠ [] ∧
    (windowed 0x5E 2).openMode = false ∧ (windowed 0x5E 1).chanWindow 31 = none ∧ ((windowed 0x5E 2).chanWindow 31).isSome = true ∧
    ((windowed 0x5E 5).chanWindow 31).isSome = true ∧ (windowed 0x5E 6).chanWindow 31 = none ∧ (windowed 0x5E 5 [x]).chanRequester 31 = some 0x5E ∧
    (windowed 0xFF 5 [{ x with req := 0xFF }]).chanRequester 31 = none ∧
    (((windowed 0x5E 5).chanWindows 31).filter fun w => decide (w.start + w.len ≤ (windowed 0x5E 5).mcount)) = [] ∧
    (((windowed 0x5E 6).chanWindows 31).filter fun w => decide (w.start + w.len ≤ (windowed 0x5E 6).mcount)).getLast?.isSome = true ∧
    (∀ w ∈ (windowed 0xFF 3).chanWindows 31, w.req = 0xFF → w.start < (windowed 0xFF 3).mcount) ∧
    0 + 3120 ≤ (requesting [] (15 * 3119)).mclk + 1 ∧ (requesting [] (15 * 3118)).mclk + 1 < 0 + 3120 ∧
    ({ requesting [x] with memc := { (requesting [x]).memc with refreshing := [(31, 7)] } } : Dev).refreshing 31 = true := by decide +kernel

theorem test_MaintenanceWorks :
    (windowed 0x60 5).maintOk (.stack 31) = true ∧ (windowed 0x5E 5).maintOk (.stack 31) = false ∧ on.maintOk (.barn 0) = true ∧
    bankOf (bankWord (.barn 7) 24575) = bankNum (.barn 7) ∧ bankOf (bankWord (.ls 15 31) 6143) = bankNum (.ls 15 31) ∧
    (fillStep (bankNum (.ls 0 0)) [⟨[⟨lsKey 0, 64, []⟩], none, false, false⟩]).isSome = true ∧ fillStep (bankNum (.ls 0 0)) [] = none ∧
    on.badWords (32 * bankWord (.ls 15 31) 0) 32 = [] ∧ on.maintCycle (.barn 0) = true ∧
    (on.moveWord (bankNum (.barn 0)) on.fclk).movedNow (bankNum (.barn 0)) on.fclk = true ∧
    ({ on.useBank (.barn 0) true with clk := on.clk + 24 * 15 } : Dev).maintCycle (.barn 0) = false ∧
    ({ on.useBank (.barn 0) true with clk := on.clk + 24 * 16 } : Dev).maintCycle (.barn 0) = true := by decide +kernel

/-- Port 3 in a state. -/
def ported (state : Nat) (l : List (FieldRef × Nat) := []) : Dev := onWith ((F.LINK_PORT_STATE_state 3, state) :: l)

/-- A peer that locks, of a board of four boards. -/
def peer (board : Nat) : LinkPeer := { locked := true, board := BitVec.ofNat 64 board, size := 4, topology := 1, device := 1, port := 0, plan := 0 }

theorem test_LinkPortsWork :
    (let d : Dev := { ported 0 [(F.LINK_PORT_CTL_enable 3, 1)] with links := { ports := [(3, { want := true })] } }
     (d.lport 3).want = true ∧ d.flag (F.LINK_PORT_CTL_enable 3) = true) ∧ (on.lport 3).want = false ∧
    on.lstate 3 ≠ 1 ∧ (ported 1).lstate 3 = 1 ∧ (ported 2).lstate 3 = 2 ∧ (ported 1).peerRight 3 (peer 5) = false ∧
    (∃ p < 4, ∃ q : BitVec 2, (onWith [(F.TOP_DEVICE_NUM_board_size, 4), (F.TOP_DEVICE_NUM_topology, 1)]).peerRight p { peer 0 with port := q } = true) ∧
    (∀ j < 7, (0x80 : BitVec 8).getLsbD j = false) ∧ (0x80 : BitVec 8).getLsbD 7 = true ∧
    (let g : Dev := { ported 2 [(F.LINK_PORT_CTL_fault_thr 3, 1)] with clk := 5 }
     [g.clk].length ≤ max 1 (g.getF (F.LINK_PORT_CTL_fault_thr 3))) := by decide +kernel

/-- A DATA message of 256 bytes for context 1. -/
def dataMsg : DataMsg := { plan := 0, ctx := 1, gen := 1, seq := 4095, tag := none, bytes := List.replicate 256 1 }

/-- An accepted transfer of context 1 on port 3. -/
def xfer (send : Bool) : LinkXfer :=
  { id := 9, port := 3, plough := 0, send := send, ctx := 1, gen := 1, desc := rowDesc, tag := none, issue := 0, accepted := true, sent := none, msg := none, asked := false }

/-- Port 3 is up, context 1 live in a locked plan, with transfers. -/
def linked (xs : List LinkXfer) : Dev :=
  { ported 2 with plan := lockedPlan [], ctxs := [(1, { life := .resident })], links := { xfers := xs },
                  hedge := { tables := [(1, [⟨0, 0x200000, mkPte 0x130 2 0⟩])] } }

theorem test_LinkMessages :
    on.lstate 3 ≠ 2 ∧ (linked []).lstate 3 = 2 ∧ on.genOk 1 1 = false ∧ (linked []).genOk 1 1 = true ∧ (linked []).fenced 1 = false ∧
    (linked []).locked = true ∧ dataMsg.plan.toNat = (linked []).header 0x18 8 ∧ wireBlocks dataMsg.bytes.length ≤ 128 ∧
    128 < wireBlocks 61440 + wireBlocks dataMsg.bytes.length ∧ (linked []).postedRecv 3 1 1 = none ∧
    (linked [xfer false]).postedRecv 3 1 1 = some (xfer false) ∧
    (let y := { xfer true with sent := some 4095 }
     ((linked [y]).links.xfers.find? fun x => x.port == 3 && x.send && x.ctx == 1 && x.sent == some 4095) = some y ∧ (linked [y]).xferHalted y = false) ∧
    (linked []).markSealed ⟨7, 5⟩ ≠ some true ∧
    ({ linked [] with yoke := { scheds := [(7, { sealedMarks := [(5, true)] })] } } : Dev).markSealed ⟨7, 5⟩ = some true := by decide +kernel

/-- A receive whose message has come. -/
def landing : LinkXfer := { xfer false with msg := some dataMsg }

theorem test_ReceiveLanded :
    ((linked [landing]).links.xfers.find? fun x => x.id == 9 && x.port == 3 && !x.send) = some landing ∧
    ((linked [landing]).landMsg landing dataMsg).2 = 0 ∧ ((linked [landing]).landMsg landing { dataMsg with bytes := [] }).2 ≠ 0 := by decide +kernel

/-! ### Time, host, Hitch -/

theorem test_TimeKeeps :
    ({ on with bell := { waitRate := some 5, sinceChange := 1024 } } : Dev).bell.waitRate = some 5 ∧ on.bell.waitRate = none ∧
    (let d : Dev := onWith [(F.BELL_STATUS_servo_state, 2)]
     d.servo = 2 ∧ d.bell.lastUpdate + max 1 (d.getF F.BELL_SERVO_LIMITS_holdover_to) * d.updateInterval ≤ 2 ^ 60 ∧
     d.clk < d.bell.lastUpdate + max 1 (d.getF F.BELL_SERVO_LIMITS_holdover_to) * d.updateInterval) ∧ on.servo ≠ 1 ∧ on.servo ≠ 2 ∧
    ({} : Almanac).stopped = false ∧ ({ on with bell := { seedPend := false } } : Dev).bell.seedPend = false ∧ on.bell.seedPend = true ∧
    on.bell.almHeld = none ∧
    (let d : Dev := { onWith [(F.BELL_STATUS_servo_state, 2), (F.BELL_CTL_alm_rewrite, 1)] with bell := { t48 := 1000000000 * 2 ^ 48 } }
     d.flag F.BELL_CTL_alm_rewrite = true ∧ d.devNs / 1000000000 ≠ d.bell.almSec) ∧
    (let d : Dev := onWith [(F.BELL_PPS_CTL_out_en, 1)]
     d.flag F.BELL_PPS_CTL_out_en = true ∧ d.bell.ppsHigh = false) ∧
    (let b : BellState := { hist := [256000000000, 255999999488], tEdges := 1 }
     b.hist = [256000000000, 255999999488] ∧ b.ppsHigh = false ∧ b.ppsEdge ≠ b.tEdges ∧
     (255999999488 : Nat) / 256000000000 < 256000000000 / 256000000000) ∧ on.bell.hist = [] ∧
    (let d : Dev := { on with clk := 2400, bell := { almHeld := some (7, 0), seedPend := false } }
     d.bell.almHeld = some (7, 0) ∧ 0 + 2400 ≤ d.clk ∧ ({ d with clk := 2399 } : Dev).clk < 0 + 2400) ∧
    on.flag F.BELL_PPS_CTL_out_en = false ∧
    (let d : Dev := { onWith [(F.BELL_STATUS_pps_in_seen, 1)] with clk := 48000000000 }
     d.flag F.BELL_STATUS_pps_in_seen = true ∧ d.bell.ppsSeenT + 48000000000 ≤ d.clk) ∧
    (let d := ported 2 [(F.BELL_CTL_source, 3), (F.BELL_CTL_link_port, 3), (F.LINK_TIME_CTL_enable, 1)]
     d.getF F.BELL_CTL_source = 3 ∧ d.flag F.LINK_TIME_CTL_enable = true ∧ d.linkUp (d.getF F.BELL_CTL_link_port) = true) ∧
    on.linkUp 3 = false := by decide +kernel

/-- Port 3 runs PTP in a role. -/
def ptp (role : Nat) (l : List (FieldRef × Nat) := []) : Dev := onWith ((F.BELL_PTP_CTL_enable, 1) :: (F.BELL_PTP_ROLE_role, role * 64) :: l)

/-- A message of a type. -/
def message (ty sec : Nat) : PtpMsg :=
  { malformed := false, mtype := BitVec.ofNat 4 ty, domain := 0, seq := 1, source := 0, twoStep := false, corr := 0, sec := BitVec.ofNat 48 sec, ns := 0,
    requester := 0, announce := List.replicate 21 0 }

theorem test_PtpDiscards :
    on.ptpRole 3 = 0 ∧ (ptp 1).ptpRole 3 = 1 ∧ (ptp 2).ptpRole 3 = 2 ∧ (message 0 0).domain.toNat = (ptp 1).getF F.BELL_PTP_CTL_domain ∧
    ({ ptp 1 with bell := { ports := [(3, { answered := 1024 })] } } : Dev).ptpMayAnswer 3 = false ∧ (ptp 1).ptpMayAnswer 3 = true ∧
    ptpTime (message 0 (2 ^ 48 - 1)) = none := by decide +kernel

theorem test_PtpWorks :
    ptpTime (message 0 18446744073) = some (18446744073000000000 * 256) ∧ (ptp 2).ptpPeer = false ∧
    (ptp 2 [(F.BELL_PTP_CTL_delay_mech, 1)]).ptpPeer = true ∧ (message 9 0).requester = BitVec.ofNat 64 0 ∧
    (({ ptp 2 with bell := { ports := [(3, { req := some (1, 2), last := some (3, 4, 0), sync := some (1, 5, 0), presp := some (6, 7, 0) })] } } : Dev).ptp 3).req =
      some (1, 2) ∧ 20 ≤ (message 11 0).announce.length ∧
    ((ptp 1 [(F.BELL_PTP_CTL_one_step, 1)]).updPtp 3 fun y => { y with txSeq := 1 }).flag F.BELL_PTP_CTL_one_step = true ∧
    ((ptp 1).ptp 3).syncAt = none ∧ ((ptp 1).ptp 3).annAt = none ∧
    (let d : Dev := { ptp 1 with bell := { ports := [(3, { syncAt := some 0, annAt := some 0 })] } }
     (d.ptp 3).syncAt = some 0 ∧ d.clk < 0 + 24000000000 / 2 ^ d.logSync ∧ (d.ptp 3).annAt = some 0 ∧ d.clk < 0 + d.announceInterval) := by decide +kernel

theorem test_PpsInput :
    let d := onWith [(F.BELL_PPS_CTL_in_en, 1)]
    d.flag F.BELL_PPS_CTL_in_en = true ∧ (d.captured 36).length < 2 ∧ d.bell.ppsLast = none ∧
    ({ d with bell := { ppsLast := some 0 } } : Dev).bell.ppsLast = some 0 ∧
    -128000000000 ≤ ((500000000 * 256 : Int) - 1 * 256000000000) ∧ ((500000000 * 256 : Int) - 1 * 256000000000) < 128000000000 ∧
    (onWith [(F.BELL_CTL_source, 2)]).getF F.BELL_CTL_source = 2 := by decide +kernel

/-- The host's link is up and its space loaded. -/
def hosted (l : List (FieldRef × Nat) := []) (h : HostState := {}) : Dev :=
  { onWith ((F.HOST_STATUS_link_up, 1) :: l) with host := { h with loaded := true, perst := false } }

theorem test_HostLinkAndResets :
    (hosted).host.perst = false ∧ ({ hosted with regs := on.regs } : Dev).flag F.HOST_STATUS_link_up = false ∧ on.flag ⟨R.PWR_DOMAIN_ON, 35, 1⟩ = true ∧
    on.host.perst = true ∧ (hosted).flag F.HOST_STATUS_link_up = true ∧ ({} : Dev).pwr.good = false ∧ on.inStandby = false ∧
    (onWith [(F.PWR_STATUS_state, pwrStandby)]).inStandby = true ∧ on.domainOn 32 = true ∧ on.usbEnabled = true := by decide +kernel

theorem test_HostReadsAndWrites :
    on.host.loaded = false ∧ (hosted).barReaches 0 0 8 = true ∧ (hosted).barReaches 4 (2 ^ 36 - 8) 8 = true ∧ (hosted).barReaches 2 (2 ^ 26 - 7) 8 = false ∧
    (hosted).windowsOn = false ∧
    (let d := hosted [(F.STEW_STATUS_mode, 2), (F.MEM_STATUS_open_mode, 1)]
     d.windowsOn = true ∧ d.host.bars = [] ∧ d.barMayIssue ((d.barWindow 2).1 + 0) 8 = true) ∧
    (let b : BarReq := { tag := 3, va := 0, len := 8, at' := 0, data := none }
     let d : Dev := { hosted [] { bars := [b] } with clk := 240000000 }
     (d.host.bars.find? fun b => b.tag == 3 && b.data.isNone && decide (b.at' + 240000000 ≤ d.clk)) = some b) := by decide +kernel

theorem test_HostWindows : ∃ e r, (hosted [(F.STEW_STATUS_mode, 2), (F.MEM_STATUS_open_mode, 1)]).mgmtRead 21 0x5D true 0 8 = (e, .ok r) := ⟨_, _, rfl⟩

/-- Queue 3 has a descriptor. -/
def queued (h : HostState := {}) : Dev := hosted [(⟨qCtl 3, 0, 1⟩, 1), (F.HOST_Q_TAIL_index 3, 1)] h

theorem test_HostQueues :
    on.flag F.HOST_STATUS_link_up = false ∧ rotPick 20 0 on.qReady = none ∧ rotPick 20 (queued).host.arb (queued).qReady = some 3 ∧
    copyDescBad (bytesOf 32 [(16, 4, 4)]) = false ∧ copyDescBad (bytesOf 32 []) = true ∧ leAt (bytesOf 32 [(16, 4, 4)]) 20 1 % 2 = 0 ∧
    ((queued).mgmtWrite 21 0x5D true 0 [1, 2, 3, 4]).2 = none ∧ (queued).copyWaits 3 (bytesOf 32 [(16, 4, 4)]) = false ∧
    (windowed 0x5E 5).copyWaits 3 (bytesOf 32 [(8, 8, 0xF800), (16, 4, 4)]) = true ∧
    (let d : Dev := { onWith [(F.GATE_SLOT_MAP_inject 15, 1), (F.GATE_SLOT_OWNER_ctx_id 15, 1)] with
        plan := lockedPlan [(5, 1, bytesOf 64 [(2, 1, 8)])], ctxs := [(1, { life := .swapped })] }
     (d.ctxOf 1).active = true ∧ d.virtualCtx 1 = true ∧ d.slotOwner 15 = 1 ∧ d.slotInj 15 = true ∧ 0 < d.qSize 19 ∧ field 0xF0000 16 4 = 15 ∧
     field 0xF0000 20 12 = 0) ∧ (on.ctxOf 1).active = false ∧ ({ on with host := { pba := 2 ^ 255 } } : Dev).host.pba.testBit 255 = true := by decide +kernel

/-- The Hitch port on a ready device with 8 words each way. -/
def hitched (h : HitchState := {}) (l : List (FieldRef × Nat) := []) : Dev :=
  { onWith ((F.TOP_STATUS_steward_ready, 1) :: (F.HITCH_CFG_in_words, 8) :: (F.HITCH_CFG_out_words, 8) :: l) with hitch := h }

theorem test_HitchCycles :
    ((on.groupEdge).bump R.HITCH_READS).flag F.TOP_STATUS_steward_ready = false ∧
    ((hitched).groupEdge.bump R.HITCH_READS).flag F.TOP_STATUS_steward_ready = true ∧
    ((hitched { group := some (5, 6) }).groupEdge.bump R.HITCH_READS).hitch.group = some (5, 6) ∧
    ((hitched).groupEdge.bump R.HITCH_READS).getF F.HITCH_CFG_out_words = 8 ∧
    ((hitched).groupEdge.updHitch fun h => { h with inWrites := 1 }).getF F.HITCH_CFG_in_words = 8 ∧
    (let k := (hitched { post := some 2 }).kEdge.updHitch fun h => { h with group := none }
     k.hitch.post = some 3 ∧ k.hitch.inPost = none) ∧
    (let k := (hitched { inPost := some (2, 9) }).kEdge.updHitch fun h => { h with group := none }
     k.hitch.post = none ∧ k.hitch.inPost = some (3, 9)) := by decide +kernel

theorem test_HitchExchanges :
    (hitched).hitch.copy = none ∧
    (let p : Publication := ⟨0, 0, 1⟩
     ({ hitched { copy := some p } with clk := 1920 } : Dev).hitch.copy = some p ∧
     ((({ hitched { copy := some p } with clk := 1920 } : Dev).updHitch fun h => { h with copy := none }).pubArea) = 0) ∧
    (let d : Dev := { hitched { pubs := [0], ageMark := 1 } [(F.HITCH_CFG_out_en, 1), (F.HITCH_CFG_in_en, 1), (F.YOKE_MARK_PERIOD_ns 0, 1000)] with
        plan := { lockedPlan [] with t0 := some 0 }, bell := { t48 := 1000 * 2 ^ 48 } }
     d.locked = true ∧ d.flag F.HITCH_CFG_out_en = true ∧ d.flag F.HITCH_CFG_in_en = true ∧
     (d.markTime (d.getF F.HITCH_CFG_schedule) 1 + d.getF F.HITCH_DEADLINE_ns) * 256 = 256000 ∧ d.dev256 = 256000 ∧
     (∃ t ∈ d.hitch.pubs, 256000 - d.schedPeriod 0 * 256 ≤ t ∧ t < 256000)) ∧
    (let d := hitched { inAck := some (1, 8) }
     (d.mgmtWrite 21 0x5D false d.inArea (List.replicate 64 0)).2 = none) ∧
    ({ hitched with clk := 24000 } : Dev).hitch.kSeen + 24000 ≤ ({ hitched with clk := 24000 } : Dev).clk := by decide +kernel

theorem test_HitchReads : ∃ e bs, (hitched).mgmtRead 21 0x5D false 0 32 = (e, .ok bs) := ⟨_, _, rfl⟩

/-! ### The whole block -/

/-- The premise of the flash's invariant holds at reset, and a step that takes a command is a step. -/
theorem test_FlashKeepsItsRoot : SMap.wf flashDefault State.reset.kept.flash = true ∧
    ∃ t, step { State.reset with pending := [.hotReset] } = .next t := ⟨rfl, _, rfl⟩

/-! ### A plan that is accepted

A whole image that passes holds 257 refresh windows for each stack and a signature, too much for the kernel to evaluate here: the other checks
are met one by one. -/

/-- The SLICE section: resident slot 0 with 1 MiB of the Barn runs on plough 0. -/
def planSlice : List Byte := bytesOf 1152 [(0, 4, 1), (4, 1, 1), (64, 8, 0x1000000000), (72, 4, 0x100000), (1088, 4, 1000), (1092, 4, 3533)]

/-- The MAPPING section of context 0: 4 KiB of stack memory. -/
def planMapping : List Byte := bytesOf 128 [(2, 1, 3), (8, 2, 1), (10, 2, 1), (64, 8, 0x1000), (72, 8, 0x1000), (88, 4, 0x270)]

/-- The CHECKPOINTS section of plough 0. -/
def planCheckpoints : List Byte := bytesOf 128 [(0, 4, 1), (4, 2, 1), (84, 4, 2000)]

/-- The signed part of a header. -/
def planHead : List Byte :=
  bytesOf 0x130 [(0, 4, 0x4E414C50), (4, 2, 1), (6, 2, 0x200), (8, 2, 0x4816), (0xA, 1, 0xB1), (0xC, 1, 1), (0x10, 8, 0x2C80), (0x18, 8, 1),
    (0x24, 2, 7), (0x28, 8, 0x200), (0x30, 4, 500000), (0x34, 4, 175), (0x38, 4, 1000), (0x3C, 4, 60000), (0x40, 2, 1), (0x44, 2, 1),
    (0x46, 1, 1), (0x47, 1, 1), (0x48, 4, 0x100000)]

/-- The image, with the stack windows left out. -/
def planImage : PlanImg :=
  ⟨planHead, [⟨1, 0, 0, 0, []⟩, ⟨3, 0, 0, 0, []⟩, ⟨3, 1, 0, 0, []⟩, ⟨4, 0, 0, 0, planSlice⟩, ⟨5, 0, 0, 0, planMapping⟩,
    ⟨6, 0, 0, 0, bytesOf 576 [(8, 4, 64)]⟩, ⟨7, 0, 0, 0, planCheckpoints⟩]⟩

theorem test_PlanLoads_sections :
    magicOk planHead = true ∧ on.partOk planHead = true ∧ on.boardOk planHead = true ∧ headerOk planHead = true ∧ planImage.countsOk = true ∧ planImage.schedulesOk = true ∧ planImage.contextsOk (fun _ => 0) = true ∧
    planImage.sliceOk = true ∧ planImage.checkpointsOk 0 planCheckpoints = true ∧ slackOk planHead = true ∧ on.resourcesOk planImage = true ∧
    ¬ on.getF F.PWR_CAP_mw < planImage.hd 0x3C 4 ∧ on.plan.phase = .empty := by decide +kernel
/-! ### Values that the spec's worked examples give -/

/-- The worked example of R63: ADDI s5, s4, -16 guarded by NOT p2. -/
theorem test_R63_word : opcodeOf 0x2128A200FFFFFFF0 = 0x21 ∧ fRd 0x2128A200FFFFFFF0 = 5 ∧ fRa 0x2128A200FFFFFFF0 = 4 ∧
    fImmInt 0x2128A200FFFFFFF0 = -16 ∧ ({ p := 4 } : Plough).guard 0x2128A200FFFFFFF0 = false ∧
    ({ p := 0 } : Plough).guard 0x2128A200FFFFFFF0 = true ∧ (Instr.addi (.plough 0) false 0x2128A200FFFFFFF0).wf = true := by decide

/-- The worked example of R65 and R66: of MUL at clock 10 and ADD at clock 11 to one register, the sum lands first. -/
theorem test_R65_order :
    let pl : Plough := { pend := [⟨13, 10, 1, .scalar 7 6⟩, ⟨12, 11, 1, .scalar 7 5⟩] }
    (pl.view 11).rdS 7 = 0 ∧ (pl.view 12).rdS 7 = 5 ∧ (pl.view 13).rdS 7 = 6 := by decide

/-- The worked examples of R108 and R109: 0.3 and 500.0 to FP8-E4M3, −130.6 and 2.5 to INT8. -/
theorem test_R109_e4m3 : (Fp.encode Fp.e4m3 .rne false (Fp.val 0x3E99999A)).1 = 0x2A ∧ (Fp.encode Fp.e4m3 .rtz false (Fp.val 0x3E99999A)).1 = 0x29 ∧
    (Fp.encode Fp.e4m3 (.sr 0x1234) false (Fp.val 0x3E99999A)).1 = 0x29 ∧ (Fp.encode Fp.e4m3 (.sr 26215) false (Fp.val 0x3E99999A)).1 = 0x2A ∧
    (Fp.encode Fp.e4m3 (.sr 26214) false (Fp.val 0x3E99999A)).1 = 0x29 ∧ Fp.encode Fp.e4m3 .rne false (Fp.val 0x43FA0000) = (0x7E, .sat) := by decide
theorem test_R109_int8 : Fp.encodeInt 8 .rne (Fp.val 0xC302999A) = (0x80, .sat) ∧ (Fp.encodeInt 8 .rne (Fp.val 0x40200000)).1 = 2 ∧
    (Fp.encodeInt 8 .rup (Fp.val 0x40200000)).1 = 3 ∧ (Fp.encodeInt 8 .rtz (Fp.val 0x40200000)).1 = 2 ∧
    (Fp.encodeInt 8 (.sr 0x8000) (Fp.val 0x40200000)).1 = 3 ∧ (Fp.encodeInt 8 (.sr 0x7FFF) (Fp.val 0x40200000)).1 = 2 := by decide

/-- The worked example of R113 and R114 in q4_28, and in q5_27. -/
theorem test_R114_q4_28 : Fp.toFx32 28 0x3FC00000 = (0x18000000, false) ∧ Fp.fxRound (0x18000000 * -603979776) 56 28 = (-905969664, false) ∧
    Fp.fxRound (0x30000000 * 0x30000000) 56 28 = (0x7FFFFFFF, true) ∧ Fp.fxRound (0x30000000 * 0x30000000) 56 27 = (0x48000000, false) := by decide

/-- The worked examples of block scaling: an MXFP4 block of 5.0, −1.7, 0.3, 0.0, and 3.0 and 0.01 in an MXFP8-E4M3 block. -/
theorem test_R106_mx : (Fp.mxBlock 7 (fun _ => .rne) [Fp.val 0x40A00000, .fin ⟨false, 0, 0⟩]).1 = 0x7F ∧
    ((Fp.mxBlock 7 (fun _ => .rne) [Fp.val 0x40A00000, .fin ⟨false, 0, 0⟩]).2.1).head? = some 6 ∧
    (Fp.mxBlock 3 (fun _ => .rne) [Fp.val 0x40400000, Fp.val 0x3C23D70A]).1 = 0x78 ∧
    (Fp.mxBlock 3 (fun _ => .rne) [Fp.val 0x40400000, Fp.val 0x3C23D70A]).2.1 = [0x7C, 0x3A] := by decide

/-- The example of R121: an MXFP8 tile from the Barn takes 34 clocks and is loaded 74 after issue, a plain FP8 tile from the local store 20. -/
theorem test_R121_tile : tileClocks { (tdesc 0) with fmt := 3, mx := true } true = 34 ∧ tileReady { (tdesc 0) with fmt := 3, mx := true } true = 74 ∧
    tileReady { (tdesc 0) with fmt := 3, mx := false } false = 20 := by decide

/-- The worked example of R42: the slack of a period of 40 ms is 6,100 ns. -/
theorem test_R42_slack : slackMin 40000000 = 6100 := by decide

/-- The example of R284: key (2, 1, 0) in a table of 2^20 cells. -/
theorem test_R284_cell : voxelCell 20 [2, 1, 0] = 0x44A1F := by decide

/-- The message "abc" of FIPS 180-4 under SHA-384: its first and last bytes. -/
theorem test_sha384 : (Crypto.sha384 [0x61, 0x62, 0x63]).take 4 = [0xcb, 0x00, 0x75, 0x3f] := by decide +kernel

/-- CRC-32 of the nine digits "123456789", the check value of the polynomial that the spec names. -/
theorem test_crc32 : crc32 [0x31, 0x32, 0x33, 0x34, 0x35, 0x36, 0x37, 0x38, 0x39] = 0xCBF43926 := by decide +kernel


end Sys2Proof.Tests
end

section
/-! PROOFS. Accesses to registers (R10–R14, R206, R427): what each kind of place does with a write and a read of its width, what a read
clears, and, bit by bit, what a software write leaves in a field. -/

namespace Sys2Proof.Machine

/-! ### The commands are the bus accesses -/

/-- REGISTER_WRITE leaves what the write on the bus leaves. -/
theorem exec_registerWrite_of_busWrite {s t : State} {path : Path} {a size : Nat} {v : BitVec 64} (h : s.busWrite path a size v.toNat = t) :
    exec (.registerWrite path a size v) s = .next t := congrArg Host.Outcome.next h

/-- LOW_HALF_WRITE leaves what the 4-byte write on the bus leaves. -/
theorem exec_lowHalfWrite_of_busWrite {s t : State} {path : Path} {a : Nat} {u : BitVec 32} (h : s.busWrite path a 4 u.toNat = t) :
    exec (.lowHalfWrite path a u) s = .next t := congrArg Host.Outcome.next h

/-- REGISTER_READ_CLEAR leaves what the read on the bus leaves, and gives its value out. -/
theorem exec_registerReadClear_of_busRead {s t : State} {path : Path} {a size x : Nat} (h : s.busRead path a size = (t, x)) :
    exec (.registerReadClear path a size) s =
      .next (t.upd fun d => (d.emit (.value path (BitVec.ofNat 64 x))).summaryCheck) := by
  change Host.Outcome.next (s.readOut path a size) = _
  simp [State.readOut, h]

/-- LOW_HALF_READ leaves what the 4-byte read on the bus leaves, and gives its value out. -/
theorem exec_lowHalfRead_of_busRead {s t : State} {path : Path} {a x : Nat} (h : s.busRead path a 4 = (t, x)) :
    exec (.lowHalfRead path a) s = .next (t.upd fun d => (d.emit (.value path (BitVec.ofNat 64 x))).summaryCheck) :=
  exec_registerReadClear_of_busRead h

/-! ### The parts of a register (R13) -/

/-- A 4-byte access at a 64-bit register is its low half. -/
theorem regPart_low {a : Nat} {row : RegRow} (hrow : regRowAt a = some row) (hwide : row.wide = true) :
    regPart a 4 = some (a, .low) := by
  simp [regPart, hrow, hwide, widePart]

/-- A 4-byte access four bytes on, where no register begins, is its high half. -/
theorem regPart_high {a : Nat} {row : RegRow} (hrow : regRowAt a = some row) (hwide : row.wide = true) (hnext : regRowAt (a + 4) = none) :
    regPart (a + 4) 4 = some (a, .high) := by
  simp [regPart, hrow, hwide, hnext, widePart]

/-! ### Places other than registers (R14, R427) -/

/-- A 4-byte write of a word of the MSI-X table writes that word. -/
theorem busWrite_msix {s : State} {path : Path} {a i : Nat} (hon : s.dev.accessOn path a = true) (hbell : doorbellAt a = none)
    (hmsix : msixWordAt a = some i) (v : Nat) : s.busWrite path a 4 v = s.upd fun d => d.msixWrite i (v % 2 ^ 32) := by
  simp [State.busWrite, hon, hbell, hmsix]

/-- A 4-byte read of a word of the MSI-X table reads that word. -/
theorem busRead_msix {s : State} {path : Path} {a i : Nat} (hon : s.dev.accessOn path a = true) (hmsix : msixWordAt a = some i) :
    s.busRead path a 4 = (s, SMap.get msixDefault s.dev.host.msix i) := by
  simp [State.busRead, hon, hmsix]

/-- A write where no register answers takes no effect. -/
theorem busWrite_empty {s : State} {path : Path} {a size : Nat} (hon : s.dev.accessOn path a = true) (hbell : doorbellAt a = none)
    (hmsix : msixWordAt a = none) (hpart : regPart a size = none) (v : Nat) : s.busWrite path a size v = s := by
  simp [State.busWrite, hon, hbell, hmsix, hpart]

/-- A read where no register answers reads zero. -/
theorem busRead_empty {s : State} {path : Path} {a size : Nat} (hon : s.dev.accessOn path a = true) (hmsix : msixWordAt a = none)
    (hpba : pbaWordAt a = none) (hpart : regPart a size = none) : s.busRead path a size = (s, 0) := by
  simp [State.busRead, hon, hmsix, hpba, hpart]

/-! ### Narrow registers -/

/-- In the blocks of the Yoke, the Sieve and the Mill a write has no action of its own: it stores by the types of the fields. -/
theorem regWrite_engines (s : State) (path : Path) {a : Nat} (v : Nat) (ha : a / 0x100000 ∈ [4, 5, 6]) :
    s.regWrite path a v = s.upd fun d => ((d.storeReg a v).afterWrite path a (d.reg a).toNat).summaryCheck := by
  have halm : a ≠ R.BELL_ALM_STATUS := by rintro rfl; revert ha; decide
  have hcmd : a ≠ R.REEVE_CMD := by rintro rfl; revert ha; decide
  have hstore : ∀ d : Dev, d.regWrite path a v = d.storeReg a v := by
    intro d
    simp only [List.mem_cons, List.not_mem_nil, or_false] at ha
    obtain h | h | h := ha <;> simp [Dev.regWrite, h]
  simp [State.regWrite, halm, hcmd, hstore, State.upd]

/-- Reading a register without an RC field gives its value and clears nothing. -/
theorem readWhole_plain {s : State} {path : Path} {a : Nat} {row : RegRow} (hrow : regRowAt a = some row)
    (hplain : ∀ f ∈ row.fields, f.acc ≠ .rc) (hfrac : a ≠ R.BELL_TIME_FRAC) (hcause : a ≠ R.PWR_RESET_CAUSE)
    (hcut : a ≠ R.TOP_CTX_SLICE_CUT) : s.readWhole path a = (s, s.regView a) := by
  have hnone : s.readClears a = none := by simpa [State.readClears, hcause, hcut, hrow] using hplain
  simp [State.readWhole, hfrac, hnone]

/-- A register that nothing has touched in this clock has its present value as the value from before the clock. -/
theorem touchOf_untouched {d : Dev} {a : Nat} (h : ∀ t ∈ d.same, t.addr = a → t.clk ≠ d.regClk a) (v : Nat) :
    d.touchOf a v = { addr := a, clk := d.regClk a, before := v } := by
  have hnone : (d.same.find? fun t => t.addr == a && t.clk == d.regClk a) = none := by simpa using h
  simp [Dev.touchOf, hnone]

/-- Reading an RC register that nothing has touched in this clock gives its value and leaves zero. -/
theorem readWhole_rc {s : State} {path : Path} {a : Nat} {row : RegRow} (hrow : regRowAt a = some row)
    (hrc : ∃ f ∈ row.fields, f.acc = .rc) (hfrac : a ≠ R.BELL_TIME_FRAC) (hcause : a ≠ R.PWR_RESET_CAUSE)
    (hcut : a ≠ R.TOP_CTX_SLICE_CUT) (hpeak : ∀ i < 16, a ≠ R.TROUGH_PEAK i)
    (hquiet : ∀ t ∈ s.dev.same, t.addr = a → t.clk ≠ s.dev.regClk a) :
    s.readWhole path a =
      (s.upd fun d => (d.note { addr := a, clk := d.regClk a, before := 0 }).setReg a 0, (s.dev.reg a).toNat) := by
  have hany : (row.fields.any fun f => f.acc == .rc) = true := by simpa using hrc
  have hnopeak : ((List.range 16).find? fun i => a == R.TROUGH_PEAK i) = none := by simpa using hpeak
  simp [State.readWhole, State.readClears, Dev.takeCount, touchOf_untouched hquiet, hfrac, hcause, hcut, hrow, hany, hnopeak, State.upd]

/-! ### The halves of a wide register (R13, R206) -/

/-- A write of the low half is only held for its path. -/
theorem busWrite_low {s : State} {path : Path} {a : Nat} {row : RegRow} (hon : s.dev.accessOn path a = true) (hbell : doorbellAt a = none)
    (hmsix : msixWordAt a = none) (hrow : regRowAt a = some row) (hwide : row.wide = true) (v : Nat) :
    s.busWrite path a 4 v = { s with dev := { s.dev with lowHeld := heldPut s.dev.lowHeld path a (v % 2 ^ 32) } } := by
  simp [State.busWrite, hon, hbell, hmsix, regPart_low hrow hwide, hrow, hwide, Dev.joinHalves]

/-- A write of the high half acts with both: the low half held for its path, or else the one that the register holds. -/
theorem busWrite_high {s : State} {path : Path} {a : Nat} {row : RegRow} (hon : s.dev.accessOn path (a + 4) = true)
    (hbell : doorbellAt (a + 4) = none) (hmsix : msixWordAt (a + 4) = none) (hrow : regRowAt a = some row) (hwide : row.wide = true)
    (hnext : regRowAt (a + 4) = none) (v : Nat) :
    s.busWrite path (a + 4) 4 v =
      ({ s with dev := { s.dev with lowHeld := heldDrop s.dev.lowHeld path a } } : State).regWrite path a
        ((heldAt s.dev.lowHeld path a).getD (s.regView a % 2 ^ 32) + v % 2 ^ 32 * 2 ^ 32) := by
  simp [State.busWrite, hon, hbell, hmsix, regPart_high hrow hwide hnext, hrow, hwide, Dev.joinHalves]

/-- A read of the low half captures the high half for its path, and that of BELL_TIME the fraction too. -/
theorem busRead_low {s : State} {path : Path} {a : Nat} {row : RegRow} (hon : s.dev.accessOn path a = true) (hmsix : msixWordAt a = none)
    (hpba : pbaWordAt a = none) (hrow : regRowAt a = some row) (hwide : row.wide = true) :
    s.busRead path a 4 =
      (s.upd fun d =>
        let e : Dev := { d with highCap := heldPut d.highCap path a (s.regView a / 2 ^ 32) }
        if a = R.BELL_TIME then { e with highCap := heldPut e.highCap path R.BELL_TIME_FRAC (s.regView R.BELL_TIME_FRAC) } else e,
       s.regView a % 2 ^ 32) := by
  simp only [State.busRead, hon, hmsix, hpba, regPart_low hrow hwide, Bool.not_true, Bool.false_eq_true, if_false]
  by_cases htime : a = R.BELL_TIME
  · simp [htime, State.upd]
  · simp [htime, State.upd]

/-- A read of the high half gives what was captured for its path, or else the present one, and drops what was captured. -/
theorem busRead_high {s : State} {path : Path} {a : Nat} {row : RegRow} (hon : s.dev.accessOn path (a + 4) = true)
    (hmsix : msixWordAt (a + 4) = none) (hpba : pbaWordAt (a + 4) = none) (hrow : regRowAt a = some row) (hwide : row.wide = true)
    (hnext : regRowAt (a + 4) = none) :
    s.busRead path (a + 4) 4 =
      ({ s with dev := { s.dev with highCap := heldDrop s.dev.highCap path a } },
       (heldAt s.dev.highCap path a).getD (s.regView a / 2 ^ 32)) := by
  simp [State.busRead, hon, hmsix, hpba, regPart_high hrow hwide hnext, State.upd]

/-! ### Fields, bit by bit (R10–R12) -/

/-- A bit of a field is the bit of the register at the field's place. -/
theorem testBit_field {i w : Nat} (hi : i < w) (n lsb : Nat) : (field n lsb w).testBit i = n.testBit (lsb + i) := by
  simp [field, Nat.testBit_mod_two_pow, Nat.testBit_shiftRight, hi]

/-- The sum of the powers of two that `p` picks below `w` has exactly the picked bits. -/
theorem testBit_sumBits (p : Nat → Bool) (w i : Nat) :
    ((List.range w).foldl (fun n j => if p j then n + 2 ^ j else n) 0).testBit i = (decide (i < w) && p i) := by
  induction w generalizing i with
  | zero => simp
  | succ w ih =>
    rw [List.range_succ, List.foldl_append]
    simp only [List.foldl_cons, List.foldl_nil]
    generalize (List.range w).foldl (fun n j => if p j then n + 2 ^ j else n) 0 = n at ih
    have hn : n < 2 ^ w := Nat.lt_pow_two_of_testBit n fun j hj => by simp [ih, Nat.not_lt.mpr hj]
    by_cases hp : p w = true
    · have hor : n + 2 ^ w = 2 ^ w ||| n := by simpa [Nat.add_comm] using Nat.two_pow_add_eq_or_of_lt hn 1
      rw [if_pos hp, hor, Nat.testBit_or, Nat.testBit_two_pow, ih]
      grind
    · rw [if_neg hp, ih]
      grind

variable {locked : Bool} {set old v : Nat} {f : RegField} {i : Nat}

/-- An RW field takes what is written. -/
theorem testBit_fieldWrite_rw (hi : i < f.width) (hacc : f.acc = .rw) :
    (fieldWrite locked set old v f).testBit i = v.testBit (f.lsb + i) := by
  simp [fieldWrite, hacc, testBit_field hi]

/-- A W1C bit is cleared by a 1, unless the hardware sets it in the same clock (R11). -/
theorem testBit_fieldWrite_w1c (hi : i < f.width) (hacc : f.acc = .w1c) :
    (fieldWrite locked set old v f).testBit i =
      (old.testBit (f.lsb + i) && (!v.testBit (f.lsb + i) || set.testBit (f.lsb + i))) := by
  simp only [fieldWrite, hacc]
  rw [testBit_sumBits fun j => old.testBit (f.lsb + j) && (!v.testBit (f.lsb + j) || set.testBit (f.lsb + j))]
  simp [hi]

/-- A W1S bit is set by a 1. -/
theorem testBit_fieldWrite_w1s (hi : i < f.width) (hacc : f.acc = .w1s) :
    (fieldWrite locked set old v f).testBit i = (old.testBit (f.lsb + i) || v.testBit (f.lsb + i)) := by
  simp [fieldWrite, hacc, Nat.testBit_or, testBit_field hi]

/-- An RWL field takes what is written, but keeps its value while the plan is locked (R12). -/
theorem testBit_fieldWrite_rwl (hi : i < f.width) (hacc : f.acc = .rwl) :
    (fieldWrite locked set old v f).testBit i = if locked then old.testBit (f.lsb + i) else v.testBit (f.lsb + i) := by
  cases locked <;> simp [fieldWrite, hacc, testBit_field hi]

/-- A field that software only reads keeps its value. -/
theorem testBit_fieldWrite_keeps (hi : i < f.width) (hacc : f.acc = .ro ∨ f.acc = .rc) :
    (fieldWrite locked set old v f).testBit i = old.testBit (f.lsb + i) := by
  obtain hacc | hacc := hacc <;> simp [fieldWrite, hacc, testBit_field hi]

/-! ### The obligation -/

/-- Settles O19: each kind of place by its own lemma about the bus access, and each type of field by its bits. -/
theorem registerAccesses : Obligations.RegisterAccesses := by
  unfold Obligations.RegisterAccesses
  refine ⟨fun s path a v u => ⟨fun size hoff => ?off, fun i hon hbell hmsix => ?msix, fun hon hbell hmsix hpba =>
    ⟨fun size hpart => ?empty, fun row hrow hnarrow => ?narrow, fun row hrow hwide => ?wide⟩⟩, fun locked set old v f i hi => ?bits⟩
  case off =>
    exact ⟨exec_registerWrite_of_busWrite (busWrite_off hoff _ _), exec_registerReadClear_of_busRead (busRead_off hoff _)⟩
  case msix =>
    exact ⟨exec_registerWrite_of_busWrite (busWrite_msix hon hbell hmsix _), exec_registerReadClear_of_busRead (busRead_msix hon hmsix)⟩
  case empty =>
    exact ⟨exec_registerWrite_of_busWrite (busWrite_empty hon hbell hmsix hpart _),
      exec_registerReadClear_of_busRead (busRead_empty hon hmsix hpba hpart)⟩
  case narrow =>
    have hread := busRead_narrow hon hmsix hpba hrow hnarrow
    refine ⟨exec_registerWrite_of_busWrite (busWrite_narrow hon hbell hmsix hrow hnarrow _), regWrite_engines s path _, ?_, ?_⟩
    · intro hfrac hplain hcause hcut
      exact exec_registerReadClear_of_busRead (hread.trans (readWhole_plain hrow hplain hfrac hcause hcut))
    · intro hfrac hrc hcause hcut hpeak hquiet
      exact exec_registerReadClear_of_busRead (hread.trans (readWhole_rc hrow hrc hfrac hcause hcut hpeak hquiet))
  case wide =>
    refine ⟨?_, ?_, ?_, fun hon' hbell' hmsix' hpba' hnext => ?_⟩
    · have hlow := busWrite_low hon hbell hmsix hrow hwide u.toNat
      rw [Nat.mod_eq_of_lt u.isLt] at hlow
      exact exec_lowHalfWrite_of_busWrite hlow
    · have hwhole := busWrite_wide hon hbell hmsix hrow hwide v.toNat
      rw [Nat.mod_eq_of_lt v.isLt] at hwhole
      exact exec_registerWrite_of_busWrite hwhole
    · exact exec_lowHalfRead_of_busRead (busRead_low hon hmsix hpba hrow hwide)
    · have hwrite := busWrite_high hon' hbell' hmsix' hrow hwide hnext v.toNat
      have hread := busRead_high hon' hmsix' hpba' hrow hwide hnext
      refine ⟨fun low hheld => ?_, fun hheld => ?_, fun high hheld => ?_, fun hheld => ?_⟩
      all_goals simp only [hheld, Option.getD_some, Option.getD_none] at hwrite hread
      · exact exec_registerWrite_of_busWrite hwrite
      · exact exec_registerWrite_of_busWrite hwrite
      · exact exec_registerReadClear_of_busRead hread
      · exact exec_registerReadClear_of_busRead hread
  case bits =>
    exact ⟨testBit_fieldWrite_rw hi, testBit_fieldWrite_w1c hi, testBit_fieldWrite_w1s hi, testBit_fieldWrite_rwl hi,
      fun hro => testBit_fieldWrite_keeps hi (.inl hro), fun hrc => testBit_fieldWrite_keeps hi (.inr hrc)⟩

end Sys2Proof.Machine
end

section
/-! PROOFS. The commands that are one register each (R29–R33, R160, R161, R174–R185, R207–R227, R328, R370, R422–R424, R444, R459, R463, R486):
each is the write of its register on the bus, and the write acts as its block says. -/

namespace Sys2Proof.Machine

/-! ### The write of one whole register -/

/-- A place of the bus that is a register of this width and whose write acts in the device alone: no doorbell, no word of the MSI-X table,
and neither of the two registers whose write reaches beyond the device. -/
def deviceRegister (wide : Bool) (a : Nat) : Bool :=
  (doorbellAt a).isNone && (msixWordAt a).isNone && (regRowAt a).any (fun r => r.wide == wide) && a != R.BELL_ALM_STATUS && a != R.REEVE_CMD

/-- What `deviceRegister` says of its place. -/
theorem deviceRegister_spec {wide : Bool} {a : Nat} (h : deviceRegister wide a = true) :
    doorbellAt a = none ∧ msixWordAt a = none ∧ (∃ row, regRowAt a = some row ∧ row.wide = wide) ∧ a ≠ R.BELL_ALM_STATUS ∧ a ≠ R.REEVE_CMD := by
  simpa [deviceRegister, and_assoc, Option.any_eq_true] using h

/-- A write of a register other than those two acts in the device, and then the order of PCIe and USB is kept (R429) and the summary is
judged (R33). -/
theorem regWrite_device (s : State) (path : Path) {a : Nat} (v : Nat) (halm : a ≠ R.BELL_ALM_STATUS) (hcmd : a ≠ R.REEVE_CMD) :
    s.regWrite path a v = s.upd fun d => ((d.regWrite path a v).afterWrite path a (d.reg a).toNat).summaryCheck := by
  simp [State.regWrite, halm, hcmd, State.upd]

section
variable {s : State} {path : Path} {a : Nat} {i : Instr} {f : Dev → Dev}

/-- A command that is a write of a 32-bit register does what the register says, and what follows a write. -/
theorem exec_of_narrowWrite {v : BitVec 32} (hexec : exec i s = .next (s.busWrite path a 4 v.toNat)) (hreg : deviceRegister false a = true)
    (hon : s.dev.accessOn path a = true) (hf : s.dev.regWrite path a v.toNat = f s.dev) :
    exec i s = .next (s.upd fun d => ((f d).afterWrite path a (d.reg a).toNat).summaryCheck) := by
  obtain ⟨hbell, hmsix, ⟨row, hrow, hnarrow⟩, halm, hcmd⟩ := deviceRegister_spec hreg
  rw [hexec, busWrite_narrow hon hbell hmsix hrow hnarrow, Nat.mod_eq_of_lt v.isLt, regWrite_device s path _ halm hcmd]
  simp [State.upd, hf]

/-- A command that is a write of a 64-bit register does what the register says, and what follows a write. -/
theorem exec_of_wideWrite {v : BitVec 64} (hexec : exec i s = .next (s.busWrite path a 8 v.toNat)) (hreg : deviceRegister true a = true)
    (hon : s.dev.accessOn path a = true) (hf : s.dev.regWrite path a v.toNat = f s.dev) :
    exec i s = .next (s.upd fun d => ((f d).afterWrite path a (d.reg a).toNat).summaryCheck) := by
  obtain ⟨hbell, hmsix, ⟨row, hrow, hwide⟩, halm, hcmd⟩ := deviceRegister_spec hreg
  rw [hexec, busWrite_wide hon hbell hmsix hrow hwide, Nat.mod_eq_of_lt v.isLt, regWrite_device s path _ halm hcmd]
  simp [State.upd, hf]

end

/-! ### The registers of arrays -/

/-- The six quotas, the copy queues' tails and controls and the slot maps are 32-bit registers of the device. -/
theorem deviceRegister_quota : ∀ i < 6, deviceRegister false (R.TOP_CTX_QUOTA i) = true := by decide
theorem deviceRegister_qTail : ∀ q < 4, deviceRegister false (R.HOST_Q_TAIL q) = true := by decide
theorem deviceRegister_qCtl : ∀ q < 4, deviceRegister false (R.HOST_Q_CTL q) = true := by decide
theorem deviceRegister_slotMap : ∀ n < 16, deviceRegister false (R.GATE_SLOT_MAP n) = true := by decide

/-- The queue that a copy queue's control register belongs to. -/
theorem find_qCtl : ∀ q < 4, (List.range 20).find? (fun j => R.HOST_Q_CTL q == qCtl j) = some q := by decide
/-- A tail register is no queue's control register. -/
theorem find_qCtl_qTail : ∀ q < 4, (List.range 20).find? (fun j => R.HOST_Q_TAIL q == qCtl j) = none := by decide
/-- The slot that a slot map belongs to. -/
theorem find_slotMap : ∀ n < 16, (List.range 16).find? (fun j => R.GATE_SLOT_MAP n == R.GATE_SLOT_MAP j) = some n := by decide

/-- GATE_DISCOVER is no slot map. -/
theorem find_slotMap_discover : (List.range 16).find? (fun j => R.GATE_DISCOVER == R.GATE_SLOT_MAP j) = none := by decide
/-- Nor does it belong to a trigger. -/
theorem find_trig_discover : (List.range 8).find? (fun t => R.GATE_DISCOVER == R.GATE_TRIG_START t || R.GATE_DISCOVER == R.GATE_TRIG_PERIOD t ||
    R.GATE_DISCOVER == R.GATE_TRIG_WIDTH t) = none := by decide

/-! ### What each register's write does -/

section
variable (d : Dev) (path : Path) (v : Nat)

/-! A write acts by the block of its address (R21). -/

theorem Dev.regWrite_TOP {a : Nat} (h : a / 0x100000 = 0) : d.regWrite path a v = d.topWrite a v := by simp [Dev.regWrite, h]
theorem Dev.regWrite_GATE {a : Nat} (h : a / 0x100000 = 1) : d.regWrite path a v = d.gateWrite a v := by simp [Dev.regWrite, h]
theorem Dev.regWrite_BELL {a : Nat} (h : a / 0x100000 = 3) : d.regWrite path a v = d.bellWrite a v := by simp [Dev.regWrite, h]
theorem Dev.regWrite_HEDGE {a : Nat} (h : a / 0x100000 = 8) : d.regWrite path a v = d.hedgeMemWrite a v := by simp [Dev.regWrite, h]
theorem Dev.regWrite_HOST {a : Nat} (h : a / 0x100000 = 0xB) : d.regWrite path a v = d.hostWrite a v := by simp [Dev.regWrite, h]
theorem Dev.regWrite_STEW {a : Nat} (h : a / 0x100000 = 0xC) : d.regWrite path a v = d.stewWrite path a v := by simp [Dev.regWrite, h]
theorem Dev.regWrite_PWR {a : Nat} (h : a / 0x100000 = 0xE) : d.regWrite path a v = d.pwrWrite a v := by simp [Dev.regWrite, h]

/-! Block TOP. -/

theorem Dev.topWrite_EVT_CTL : d.topWrite R.TOP_EVT_CTL v = d.evtCtlWritten v := by
  simp [Dev.topWrite, R.TOP_EVT_CTL, R.TOP_EVT_RING_BASE, R.TOP_EVT_RING_SIZE]

theorem Dev.topWrite_EVT_RING_RD : d.topWrite R.TOP_EVT_RING_RD v = d.evtRdWritten v := by
  simp [Dev.topWrite, R.TOP_EVT_RING_RD, R.TOP_EVT_CTL, R.TOP_EVT_RING_BASE, R.TOP_EVT_RING_SIZE]

theorem Dev.topWrite_CTX_QUOTA {i : Nat} (hi : i < 6) : d.topWrite (R.TOP_CTX_QUOTA i) v = d.quotaWritten i v := by
  have hplace : R.TOP_CTX_QUOTA 0 ≤ R.TOP_CTX_QUOTA i ∧ R.TOP_CTX_QUOTA i < R.TOP_CTX_QUOTA 6 := by unfold R.TOP_CTX_QUOTA; omega
  have hindex : (R.TOP_CTX_QUOTA i - R.TOP_CTX_QUOTA 0) / 4 = i := by unfold R.TOP_CTX_QUOTA; omega
  have hother : ∀ a < 0x220, R.TOP_CTX_QUOTA i ≠ a := by unfold R.TOP_CTX_QUOTA; omega
  simp only [Dev.topWrite, hplace, hindex, and_self, if_true, hother R.TOP_EVT_RING_BASE (by decide), hother R.TOP_EVT_RING_SIZE (by decide),
    hother R.TOP_EVT_CTL (by decide), hother R.TOP_EVT_RING_RD (by decide), hother R.TOP_CTX_CMD (by decide), or_self, if_false]

/-! Block GATE. -/

theorem Dev.gateWrite_SLOT_MAP {n : Nat} (hn : n < 16) : d.gateWrite (R.GATE_SLOT_MAP n) v = d.writeSlotMap n v := by
  simp [Dev.gateWrite, find_slotMap n hn]

theorem Dev.gateWrite_DISCOVER : d.gateWrite R.GATE_DISCOVER v = d.writeDiscover v := by
  simp [Dev.gateWrite, find_slotMap_discover, find_trig_discover]

/-! Block BELL. -/

theorem Dev.bellWrite_SET : d.bellWrite R.BELL_SET v = d.bellSet v := by
  simp [Dev.bellWrite]

theorem Dev.bellWrite_CTL : d.bellWrite R.BELL_CTL v = d.bellCtl v := by
  simp [Dev.bellWrite, R.BELL_CTL, R.BELL_SET]

theorem Dev.bellWrite_VT_PENDING : d.bellWrite R.BELL_VT_PENDING v = d.vtAdvanceReg (d.getF F.BELL_VT_SEL_ctx_id) v := by
  simp [Dev.bellWrite, R.BELL_VT_PENDING, R.BELL_RATE_MANUAL, R.BELL_CTL, R.BELL_SET]

theorem Dev.bellWrite_ALM_SET : d.bellWrite R.BELL_ALM_SET v = d.almSet v := by
  simp [Dev.bellWrite, R.BELL_ALM_SET, R.BELL_VT_PENDING, R.BELL_RATE_MANUAL, R.BELL_CTL, R.BELL_SET]

/-- A set of the time while no plan is locked is held for the next T edge (R207). -/
theorem Dev.bellSet_unlocked {d : Dev} (hlock : d.locked = false) (v : Nat) :
    d.bellSet v = { d with bell := { d.bell with setPend := some (v * 256, true) } } := by
  simp [Dev.bellSet, hlock, Dev.updBell]

/-- A set of the time while a plan is locked is refused and reported (R207). -/
theorem Dev.bellSet_locked {d : Dev} (hlock : d.locked = true) (v : Nat) :
    d.bellSet v = d.raise 0x0309 0 0 0 (bellDetail (toSigned 64 v) d.servo 0) := by
  simp [Dev.bellSet, hlock]

/-- The Almanac takes a time while the servo is not locked (R227). -/
theorem Dev.almSet_held {d : Dev} (hservo : d.servo ≠ 2) (v : Nat) :
    d.almSet v = { d with bell := { d.bell with almHeld := some (v % 2 ^ 48, d.clk) } } := by
  simp [Dev.almSet, hservo, Dev.updBell]

/-- The Almanac takes no time while the servo is locked (R227). -/
theorem Dev.almSet_refused {d : Dev} (hservo : d.servo = 2) (v : Nat) : d.almSet v = d := by
  simp [Dev.almSet, hservo]

/-! Block GRAN. -/

theorem Dev.regWrite_GRAN_CTL : d.regWrite path R.GRAN_CTL v =
    if v.testBit 0 then (d.storeReg R.GRAN_CTL v).granInitStart else d.storeReg R.GRAN_CTL v := by
  have hblock : R.GRAN_CTL / 0x100000 = 7 := by decide
  simp [Dev.regWrite, hblock]

/-! Block HEDGE. -/

theorem Dev.hedgeMemWrite_INVAL : d.hedgeMemWrite R.HEDGE_INVAL v =
    if v.testBit 31 then (d.storeReg R.HEDGE_INVAL v).invalStart else d.storeReg R.HEDGE_INVAL v := by
  simp [Dev.hedgeMemWrite]

theorem Dev.hedgeMemWrite_FENCE : d.hedgeMemWrite R.HEDGE_FENCE v = d.fenceWrite R.HEDGE_FENCE v := by
  simp [Dev.hedgeMemWrite, R.HEDGE_FENCE, R.HEDGE_INVAL]

/-- A fence register write without go only stores (R161). -/
theorem Dev.fenceWrite_stores {d : Dev} {v : Nat} (hgo : v.testBit 31 = false) (a : Nat) : d.fenceWrite a v = d.storeReg a v := by
  simp [Dev.fenceWrite, hgo]

/-- A fence asked for while one is busy is discarded whole (R161). -/
theorem Dev.fenceWrite_busy {d : Dev} {v : Nat} (hgo : v.testBit 31 = true) (hbusy : d.flag F.HEDGE_FENCE_STATUS_busy = true) (a : Nat) :
    d.fenceWrite a v = d := by
  simp [Dev.fenceWrite, hgo, hbusy]

/-- A fence asked for while none is busy starts (R161). -/
theorem Dev.fenceWrite_starts {d : Dev} {v : Nat} (hgo : v.testBit 31 = true) (hbusy : d.flag F.HEDGE_FENCE_STATUS_busy = false) (a : Nat) :
    d.fenceWrite a v = (d.storeReg a v).fenceStart ((d.storeReg a v).getF F.HEDGE_FENCE_ctx_id) := by
  simp [Dev.fenceWrite, hgo, hbusy]

/-! Block HOST. -/

theorem Dev.hostWrite_Q_TAIL {q : Nat} (hq : q < 4) : d.hostWrite (R.HOST_Q_TAIL q) v = d.storeReg (R.HOST_Q_TAIL q) v := by
  simp [Dev.hostWrite, find_qCtl_qTail q hq]

theorem Dev.hostWrite_Q_CTL {q : Nat} (hq : q < 4) :
    d.hostWrite (R.HOST_Q_CTL q) v = (d.storeReg (R.HOST_Q_CTL q) v).qCtlWritten q := by
  simp [Dev.hostWrite, find_qCtl q hq]

/-! Blocks STEW and PWR. -/

theorem Dev.stewWrite_MBOX_POP : d.stewWrite path R.STEW_MBOX_POP v = d.mboxPop := by
  simp [Dev.stewWrite, R.STEW_MBOX_POP, R.STEW_MBOX_SUBMIT]

theorem Dev.stewWrite_TEL_CTL : d.stewWrite path R.STEW_TEL_CTL v = d.telCtlWritten v := by
  simp [Dev.stewWrite, R.STEW_TEL_CTL, R.STEW_TEL_BASE, R.STEW_MBOX_POP, R.STEW_MBOX_SUBMIT]

theorem Dev.stewWrite_TEL_RD : d.stewWrite path R.STEW_TEL_RD v = (d.storeReg R.STEW_TEL_RD v).telRdWritten := by
  simp [Dev.stewWrite, R.STEW_TEL_RD, R.STEW_TEL_CTL, R.STEW_TEL_BASE, R.STEW_MBOX_POP, R.STEW_MBOX_SUBMIT]

theorem Dev.pwrWrite_DOMAIN_REQ : d.pwrWrite R.PWR_DOMAIN_REQ v = d.domainReq v := by
  simp [Dev.pwrWrite]

end
/-! ### The obligation -/

/-- Settles O20: each command is a write of its register on the bus, and the register's block says what the write does. -/
theorem registerCommands : Obligations.RegisterCommands := by
  intro s path
  refine ⟨fun v hon => ?evtCtl, fun v hon => ?evtRingRd, fun i v hi hon => ?quota, fun v hon => ?inval, fun v hon => ?fence,
    fun q v hon => ?qTail, fun q v hon => ?qCtl, fun n v hon => ?slotMap, fun v hon => ?discover, fun v hon => ?gran,
    fun v hon => ?bellSet, fun v hon => ?bellCtl, fun v hon => ?vtAdvance, fun v hon => ?almSet, fun v hon => ?domainReq,
    fun hon => ?mboxPop, fun v hon => ?telCtl, fun v hon => ?telRd⟩
  case evtCtl =>
    exact exec_of_narrowWrite rfl (by decide) hon ((Dev.regWrite_TOP _ _ _ (by decide)).trans (Dev.topWrite_EVT_CTL _ _))
  case evtRingRd =>
    exact exec_of_narrowWrite rfl (by decide) hon ((Dev.regWrite_TOP _ _ _ (by decide)).trans (Dev.topWrite_EVT_RING_RD _ _))
  case quota =>
    have hexec : exec (.topCtxQuota path i v) s = .next (s.busWrite path (R.TOP_CTX_QUOTA i.toNat) 4 v.toNat) := by
      change Host.Outcome.next (if i.toNat < 6 then _ else _) = _
      rw [if_pos hi]
    have hblock : R.TOP_CTX_QUOTA i.toNat / 0x100000 = 0 := by unfold R.TOP_CTX_QUOTA; omega
    exact exec_of_narrowWrite hexec (deviceRegister_quota _ hi) hon
      ((Dev.regWrite_TOP _ _ _ hblock).trans (Dev.topWrite_CTX_QUOTA _ _ hi))
  case inval =>
    exact exec_of_narrowWrite rfl (by decide) hon ((Dev.regWrite_HEDGE _ _ _ (by decide)).trans (Dev.hedgeMemWrite_INVAL _ _))
  case fence =>
    have hwrite := (Dev.regWrite_HEDGE s.dev path v.toNat (by decide)).trans (Dev.hedgeMemWrite_FENCE _ _)
    refine ⟨fun hgo => ?_, fun hgo hbusy => ?_, fun hgo hbusy => ?_⟩
    · exact exec_of_narrowWrite rfl (by decide) hon (hwrite.trans (Dev.fenceWrite_stores hgo _))
    · exact exec_of_narrowWrite rfl (by decide) hon (hwrite.trans (Dev.fenceWrite_busy hgo hbusy _))
    · exact exec_of_narrowWrite rfl (by decide) hon (hwrite.trans (Dev.fenceWrite_starts hgo hbusy _))
  case qTail =>
    have hblock : R.HOST_Q_TAIL q.toNat / 0x100000 = 0xB := by unfold R.HOST_Q_TAIL; omega
    exact exec_of_narrowWrite rfl (deviceRegister_qTail _ q.isLt) hon
      ((Dev.regWrite_HOST _ _ _ hblock).trans (Dev.hostWrite_Q_TAIL _ _ q.isLt))
  case qCtl =>
    have hblock : R.HOST_Q_CTL q.toNat / 0x100000 = 0xB := by unfold R.HOST_Q_CTL; omega
    exact exec_of_narrowWrite rfl (deviceRegister_qCtl _ q.isLt) hon
      ((Dev.regWrite_HOST _ _ _ hblock).trans (Dev.hostWrite_Q_CTL _ _ q.isLt))
  case slotMap =>
    have hblock : R.GATE_SLOT_MAP n.toNat / 0x100000 = 1 := by unfold R.GATE_SLOT_MAP; omega
    exact exec_of_narrowWrite rfl (deviceRegister_slotMap _ n.isLt) hon
      ((Dev.regWrite_GATE _ _ _ hblock).trans (Dev.gateWrite_SLOT_MAP _ _ n.isLt))
  case discover =>
    exact exec_of_narrowWrite rfl (by decide) hon ((Dev.regWrite_GATE _ _ _ (by decide)).trans (Dev.gateWrite_DISCOVER _ _))
  case gran =>
    exact exec_of_narrowWrite rfl (by decide) hon (Dev.regWrite_GRAN_CTL _ _ _)
  case bellSet =>
    have hwrite := (Dev.regWrite_BELL s.dev path v.toNat (by decide)).trans (Dev.bellWrite_SET _ _)
    refine ⟨fun hlock => ?_, fun hlock => ?_⟩
    · exact exec_of_wideWrite rfl (by decide) hon (hwrite.trans (Dev.bellSet_unlocked hlock _))
    · exact exec_of_wideWrite rfl (by decide) hon (hwrite.trans (Dev.bellSet_locked hlock _))
  case bellCtl =>
    exact exec_of_narrowWrite rfl (by decide) hon ((Dev.regWrite_BELL _ _ _ (by decide)).trans (Dev.bellWrite_CTL _ _))
  case vtAdvance =>
    exact exec_of_wideWrite rfl (by decide) hon ((Dev.regWrite_BELL _ _ _ (by decide)).trans (Dev.bellWrite_VT_PENDING _ _))
  case almSet =>
    have hwrite := (Dev.regWrite_BELL s.dev path v.toNat (by decide)).trans (Dev.bellWrite_ALM_SET _ _)
    refine ⟨fun hservo => ?_, fun hservo => ?_⟩
    · exact exec_of_wideWrite rfl (by decide) hon (hwrite.trans (Dev.almSet_held hservo _))
    · exact exec_of_wideWrite rfl (by decide) hon (hwrite.trans (Dev.almSet_refused hservo _))
  case domainReq =>
    exact exec_of_wideWrite rfl (by decide) hon ((Dev.regWrite_PWR _ _ _ (by decide)).trans (Dev.pwrWrite_DOMAIN_REQ _ _))
  case mboxPop =>
    exact exec_of_narrowWrite (v := 0) rfl (by decide) hon ((Dev.regWrite_STEW _ _ _ (by decide)).trans (Dev.stewWrite_MBOX_POP _ _ _))
  case telCtl =>
    exact exec_of_narrowWrite rfl (by decide) hon ((Dev.regWrite_STEW _ _ _ (by decide)).trans (Dev.stewWrite_TEL_CTL _ _ _))
  case telRd =>
    exact exec_of_narrowWrite rfl (by decide) hon ((Dev.regWrite_STEW _ _ _ (by decide)).trans (Dev.stewWrite_TEL_RD _ _ _))

end Sys2Proof.Machine
end

section
/-! PROOFS. The event collector (R25, R26, R28–R30, R33, R37, R460): the records of one F clock are taken in order; the oldest record goes to
the log and to the ring, or waits, or is lost. -/

namespace Sys2Proof.Machine

open Sys2Proof.Safety

/-- A command gives the device that equals one it gives. -/
theorem gives_of_eq {i : Instr} {s : State} {d e : Dev} (h : Gives i s d) (he : d = e) : Gives i s e := he ▸ h

/-! ### Intake (R25, R26, R37) -/

/-- A record of a generation that has gone is discarded (R37). -/
theorem Dev.takeEvt_stale {d : Dev} {e : Event} (h : d.staleEvt e = true) : d.takeEvt e = d := by
  simp [Dev.takeEvt, h]

/-- A record that finds room is held behind the others (R25). -/
theorem Dev.takeEvt_room {d : Dev} {e : Event} (h : d.staleEvt e = false) (hroom : d.evt.fifo.length < 512) :
    d.takeEvt e = { d with evt := { d.evt with fifo := d.evt.fifo ++ [e] } } := by
  simp [Dev.takeEvt, h, collectorPlaces, hroom, Dev.updEvt]

/-- A record that finds the collector full is lost (R25). -/
theorem Dev.takeEvt_full {d : Dev} {e : Event} (h : d.staleEvt e = false) (hfull : 512 ≤ d.evt.fifo.length) : d.takeEvt e = d.evtLost e := by
  simp [Dev.takeEvt, h, collectorPlaces, Nat.not_lt.mpr hfull]

theorem exec_collectorIntake (s : State) : exec .collectorIntake s = execCollectorIntake s := rfl

/-- Two records that find room are held in turn. -/
theorem Dev.takeEvt_takeEvt_room {d : Dev} {a b : Event} (ha : d.staleEvt a = false) (hb : d.staleEvt b = false)
    (hroom : d.evt.fifo.length < 511) :
    (d.takeEvt a).takeEvt b = { d with evt := { d.evt with fifo := d.evt.fifo ++ [a] ++ [b] } } := by
  rw [Dev.takeEvt_room ha (by omega)]
  exact Dev.takeEvt_room hb (by simp; omega)

/-- Records of one F clock have that clock as their earliest. -/
theorem foldl_min_arrive {n : Nat} {l : List Event} (h : ∀ e ∈ l, e.arrive = n) : l.foldl (fun m e => min m e.arrive) n = n := by
  induction l with
  | nil => rfl
  | cons x xs ih => simpa [h x (by simp)] using ih fun e he => h e (by simp [he])

section
variable {s : State}

/-- With no record on its way the collector takes none. -/
theorem collectorIntake_idle_of_empty (hon : s.dev.domainOn 34 = true) (h : s.dev.evt.arriving = []) : Idle .collectorIntake s := by
  simp [Idle, exec_collectorIntake, execCollectorIntake, State.withDev, hon, h]

variable {n : Nat} {a : Event} {as : List Event}

/-- Records whose F clock is not over wait (R26). -/
theorem collectorIntake_idle_of_open (hon : s.dev.domainOn 34 = true) (h : s.dev.evt.arriving = a :: as) (hn : ∀ e ∈ a :: as, e.arrive = n)
    (hopen : s.dev.fclk ≤ n) : Idle .collectorIntake s := by
  obtain ⟨ha, has⟩ := List.forall_mem_cons.mp hn
  simp [Idle, exec_collectorIntake, execCollectorIntake, State.withDev, hon, h, ha, foldl_min_arrive has, hopen]

/-- The records of one F clock, once it is over, are taken in their order (R26). -/
theorem collectorIntake_of_over (hon : s.dev.domainOn 34 = true) (h : s.dev.evt.arriving = a :: as) (hn : ∀ e ∈ a :: as, e.arrive = n)
    (hover : n < s.dev.fclk) : Gives .collectorIntake s
      (((a :: as).foldl (fun acc e => insertEvt e acc) []).foldl Dev.takeEvt { s.dev with evt := { s.dev.evt with arriving := [] } }) := by
  obtain ⟨ha, has⟩ := List.forall_mem_cons.mp hn
  have hall : (a :: as).filter (fun e => e.arrive == n) = a :: as := List.filter_eq_self.mpr fun e he => by simp [hn e he]
  have hnone : (a :: as).filter (fun e => e.arrive != n) = [] := List.filter_eq_nil_iff.mpr fun e he => by simp [hn e he]
  simp [Gives, exec_collectorIntake, execCollectorIntake, State.withDev, hon, h, ha, foldl_min_arrive has, Nat.not_le.mpr hover, Dev.updEvt, hall, hnone]

end

/-! ### The ring (R28, R30) -/

/-- With the ring off no record is written. -/
theorem Dev.ringPut_off {d : Dev} (hoff : d.flag F.TOP_EVT_CTL_enable = false) (bs : List Byte) : d.ringPut bs = (d, false) := by
  simp [Dev.ringPut, hoff]

/-- With the ring off no record is written, a loss record no more than another. -/
theorem Dev.ringWrite_off {d : Dev} (hoff : d.flag F.TOP_EVT_CTL_enable = false) (bs : List Byte) : d.ringWrite bs = (d, false) := by
  unfold Dev.ringWrite
  split
  · exact ringPut_off hoff bs
  · simp [ringPut_off hoff]

/-- With no loss to report a record goes to the ring at once. -/
theorem Dev.ringWrite_noLoss {d : Dev} (hloss : d.evt.lossCount = 0) (bs : List Byte) : d.ringWrite bs = d.ringPut bs := by
  simp [Dev.ringWrite, hloss]

/-- What follows a record's write to the ring (R30): an armed vector is sent and disarmed, and where none is armed the collector keeps that the
record came without one. -/
def Dev.ringSignal (d : Dev) : Dev :=
  if d.flag F.TOP_EVT_CTL_armed then (d.hwClear F.TOP_EVT_CTL_armed).sendMsix (d.getF F.TOP_EVT_CTL_vector)
  else { d with evt := { d.evt with silent := some d.fclk } }

/-- A record that finds room in the ring is written at WR, WR moves on by one, and the vector follows. -/
theorem Dev.ringPut_written {d t : Dev} {bs : List Byte} (hon : d.flag F.TOP_EVT_CTL_enable = true) (hdef : d.evt.ringUndefined = false)
    (hroom : d.ringUsed ≠ d.ringRecords)
    (hwrite : d.mgmtWrite 23 0x5F false
      (d.getF F.TOP_EVT_RING_BASE_base * 4096 + 32 * (d.getF F.TOP_EVT_RING_WR_count % d.ringRecords)) bs true = (t, none)) :
    d.ringPut bs = ((t.setF F.TOP_EVT_RING_WR_count (d.getF F.TOP_EVT_RING_WR_count + 1)).ringSignal, true) := by
  have hgo : (!d.flag F.TOP_EVT_CTL_enable || d.ringUsed == d.ringRecords) = false := by simp [hon, hroom]
  simp only [Dev.ringPut, hgo, hdef, hwrite, Bool.false_eq_true, if_false]
  unfold Dev.ringSignal
  split <;> rfl

/-- An armed vector is sent and disarmed. -/
theorem Dev.ringSignal_armed {d : Dev} (h : d.flag F.TOP_EVT_CTL_armed = true) :
    d.ringSignal = (d.hwClear F.TOP_EVT_CTL_armed).sendMsix (d.getF F.TOP_EVT_CTL_vector) := by
  simp [Dev.ringSignal, h]

/-- Where no vector is armed none is sent. -/
theorem Dev.ringSignal_unarmed {d : Dev} (h : d.flag F.TOP_EVT_CTL_armed = false) :
    d.ringSignal = { d with evt := { d.evt with silent := some d.fclk } } := by
  simp [Dev.ringSignal, h]

/-! ### A record that the collector has taken out (R28, R373, R460) -/

/-- A record of no queue that the ring has taken. -/
theorem Dev.putRecord_written {d t : Dev} {e : Event} (hq : (d.logEvent e).hasQueue e = false)
    (hring : (d.logEvent e).ringWrite e.bytes = (t, true)) : d.putRecord e = t.summaryCheck := by
  simp [Dev.putRecord, hq, hring]

/-- A record of no queue that the ring has not taken is lost and counted. -/
theorem Dev.putRecord_lost {d t : Dev} {e : Event} (hq : (d.logEvent e).hasQueue e = false)
    (hring : (d.logEvent e).ringWrite e.bytes = (t, false)) : d.putRecord e = (t.evtLost e).summaryCheck := by
  simp [Dev.putRecord, hq, hring]

/-! ### COLLECTOR_WRITE (R25, R28–R30) -/

/-- The device once the collector has taken out its oldest record in this F clock and holds `rest`. -/
def Dev.recordOut (d : Dev) (rest : List Event) : Dev :=
  d.updEvt fun x => { x with fifo := rest, lastWrite := some d.fclk }

theorem exec_collectorWrite (s : State) : exec .collectorWrite s = execCollectorWrite s := rfl

section
variable {s : State}

/-- With nothing held, or a record that waits for room, the collector writes none. -/
theorem collectorWrite_idle_of_none (h : s.dev.evt.fifo = [] ∨ s.dev.evt.waiting.isSome = true) : Idle .collectorWrite s := by
  unfold Idle
  rw [exec_collectorWrite]
  obtain h | h := h
  · simp [execCollectorWrite, State.withDev, h]
  · cases hfifo : s.dev.evt.fifo <;> simp [execCollectorWrite, State.withDev, h, hfifo]

variable {e : Event} {rest : List Event} (hfifo : s.dev.evt.fifo = e :: rest)
include hfifo

/-- The collector writes at most one record in an F clock (R25). -/
theorem collectorWrite_idle_of_written (hlast : s.dev.evt.lastWrite = some s.dev.fclk) : Idle .collectorWrite s := by
  simp [Idle, exec_collectorWrite, execCollectorWrite, State.withDev, hfifo, hlast]

variable (hwait : s.dev.evt.waiting = none) (hlast : s.dev.evt.lastWrite ≠ some s.dev.fclk)
include hwait hlast

/-- The oldest record is taken out; it waits while the ring is short of room (R29), and else is put away. -/
theorem collectorWrite_takes : Gives .collectorWrite s
    (if (s.dev.recordOut rest).ringShort e then (s.dev.recordOut rest).updEvt fun x => { x with waiting := some e }
      else (s.dev.recordOut rest).putRecord e) := by
  have hgo : ¬(s.dev.evt.waiting.isSome = true ∨ s.dev.evt.lastWrite = some s.dev.fclk) := by simp [hwait, hlast]
  unfold Gives
  simp only [exec_collectorWrite, execCollectorWrite, State.withDev, hfifo]
  rw [if_neg hgo]
  rfl

end

/-! ### The obligation -/

/-- Settles O22: the records of one F clock are taken in their order; the oldest record waits, goes to the ring or is lost as the ring stands. -/
theorem collectorWorks : Obligations.CollectorWorks := by
  refine ⟨fun s hon => ⟨collectorIntake_idle_of_empty hon, fun e he hwaits => ?waits, fun e he hover => ?one,
    fun a b hab hsame hover ha hb hroom => ?two⟩,
    fun s e rest hfifo hwait => ⟨collectorWrite_idle_of_written hfifo, fun hlast => ?write⟩, fun s => collectorWrite_idle_of_none⟩
  case waits => exact collectorIntake_idle_of_open hon he (by simp) hwaits
  case one =>
    have htakes := collectorIntake_of_over hon he (by simp) hover
    exact ⟨fun hstale => gives_of_eq htakes (Dev.takeEvt_stale hstale),
      fun hfresh hroom => gives_of_eq htakes (Dev.takeEvt_room hfresh hroom),
      fun hfresh hfull => gives_of_eq htakes (Dev.takeEvt_full hfresh hfull)⟩
  case two =>
    have htakes := collectorIntake_of_over hon hab (by simp [hsame]) (hsame ▸ hover)
    cases hbefore : evtBefore b a with
    | true =>
      simp only [List.foldl_cons, List.foldl_nil, insertEvt, hbefore, if_true] at htakes ⊢
      exact gives_of_eq htakes (Dev.takeEvt_takeEvt_room hb ha hroom)
    | false =>
      simp only [List.foldl_cons, List.foldl_nil, insertEvt, hbefore, Bool.false_eq_true, if_false] at htakes ⊢
      exact gives_of_eq htakes (Dev.takeEvt_takeEvt_room ha hb hroom)
  case write =>
    have htakes := collectorWrite_takes hfifo hwait hlast
    refine ⟨fun hshort => gives_of_eq htakes (if_pos hshort), fun hshort hq => ?_⟩
    have hputs := gives_of_eq htakes (if_neg (Bool.eq_false_iff.mp hshort))
    refine ⟨fun hoff => gives_of_eq hputs (Dev.putRecord_lost hq (Dev.ringWrite_off hoff _)), fun t hen hloss hdef hroom hwrite => ?_⟩
    have hring := (Dev.ringWrite_noLoss hloss e.bytes).trans (Dev.ringPut_written hen hdef hroom hwrite)
    have hwritten := gives_of_eq hputs (Dev.putRecord_written hq hring)
    exact ⟨fun hdis => gives_of_eq hwritten (congrArg Dev.summaryCheck (Dev.ringSignal_unarmed hdis)),
      fun harm => gives_of_eq hwritten (congrArg Dev.summaryCheck (Dev.ringSignal_armed harm))⟩

end Sys2Proof.Machine
end

section
/-! PROOFS. What comes from the host (R417–R421, R498): configuration requests, the BAR accesses, the time limit of a BAR read. -/

namespace Sys2Proof.Machine

open Sys2Proof.Safety

/-! ### Configuration requests (R417, R498) -/

section
variable {s : State}

theorem exec_configurationRequest (req : CfgReq) (s : State) : exec (.configurationRequest req) s = execConfigurationRequest req s := rfl

/-- With the link down no request comes. -/
theorem configurationRequest_idle (hlink : s.dev.flag F.HOST_STATUS_link_up = false) (req : CfgReq) : Idle (.configurationRequest req) s := by
  simp [Idle, exec_configurationRequest, execConfigurationRequest, State.withDev, hlink]

variable (hlink : s.dev.flag F.HOST_STATUS_link_up = true)
include hlink

/-- Before the space is loaded a request gets a retry. -/
theorem configurationRequest_retry (hload : s.dev.host.loaded = false) (req : CfgReq) :
    Gives (.configurationRequest req) s (s.dev.emit (.cfg none)) := by
  simp [Gives, exec_configurationRequest, execConfigurationRequest, State.withDev, hlink, hload]

/-- Once it is loaded a read gives the word out. -/
theorem configurationRequest_read (hload : s.dev.host.loaded = true) (o : BitVec 12) :
    Gives (.configurationRequest (.read o)) s (s.dev.emit (.cfg (some (BitVec.ofNat 32 (s.dev.cfgRead (o.toNat / 4)))))) := by
  simp [Gives, exec_configurationRequest, execConfigurationRequest, State.withDev, hlink, hload]

/-- Once it is loaded a write stores what its word takes. -/
theorem configurationRequest_write (hload : s.dev.host.loaded = true) (o : BitVec 12) (v : BitVec 32) :
    let old := SMap.get (fun _ => 0) s.dev.host.cfg (o.toNat / 4)
    let left := SMap.set (fun _ => 0) s.dev.host.cfg (o.toNat / 4) (cfgStore (o.toNat / 4) old v.toNat)
    Gives (.configurationRequest (.write o v)) s (s.dev.updHost fun h => { h with cfg := left }) := by
  simp [Gives, exec_configurationRequest, execConfigurationRequest, State.withDev, hlink, hload, Dev.updHost]

end

/-! ### BAR accesses (R419–R421, R498) -/

/-- With the link down no access reaches the function. -/
theorem Dev.barReaches_linkDown {d : Dev} (hlink : d.flag F.HOST_STATUS_link_up = false) (bar offset len : Nat) :
    d.barReaches bar offset len = false := by
  simp [Dev.barReaches, hlink]

/-- An access that finds none waiting and its window open is performed at once (R420). -/
theorem Dev.barAccess_performed {d : Dev} {va len : Nat} (hnone : d.host.bars = []) (hopen : d.barMayIssue va len = true)
    (data : Option (List Byte)) : d.barAccess va len data = d.barDo va len data := by
  simp [Dev.barAccess, hnone, hopen]

/-- A read that memory serves gives its bytes out. -/
theorem Dev.barDo_read {d e : Dev} {va len : Nat} {r : List Byte} (hread : d.mgmtRead 21 0x5D true va len = (e, .ok r)) :
    d.barDo va len none = e.emit (.barData r) := by
  simp [Dev.barDo, hread]

section
variable {s : State} {bar : BitVec 3} {off len : Nat} {bs : List Byte}

theorem exec_barRead (bar : BitVec 3) (off len : Nat) (s : State) : exec (.barRead bar off len) s = execBarRead bar off len s := rfl

theorem exec_barWrite (bar : BitVec 3) (off : Nat) (bs : List Byte) (s : State) : exec (.barWrite bar off bs) s = execBarWrite bar off bs s := rfl

/-- A read that does not reach the function has no effect. -/
theorem barRead_idle (hout : s.dev.barReaches bar.toNat off len = false) : Idle (.barRead bar off len) s := by
  simp [Idle, exec_barRead, execBarRead, hout]

/-- A write that does not reach the function has no effect. -/
theorem barWrite_idle (hout : s.dev.barReaches bar.toNat off bs.length = false) : Idle (.barWrite bar off bs) s := by
  simp [Idle, exec_barWrite, execBarWrite, hout]

/-- A read of BAR0 is a read on the register bus. -/
theorem barRead_bar0 (hin : s.dev.barReaches (0 : BitVec 3).toNat off len = true) : exec (.barRead 0 off len) s =
    .next ((s.busRead .pcie off len).1.upd fun d => (d.emit (.barData (leBytes len (s.busRead .pcie off len).2))).summaryCheck) := by
  rw [exec_barRead, execBarRead, hin]
  rfl

/-- A write of BAR0 is a write on the register bus. -/
theorem barWrite_bar0 (hin : s.dev.barReaches (0 : BitVec 3).toNat off bs.length = true) :
    exec (.barWrite 0 off bs) s = .next (s.busWrite .pcie off bs.length (leNat bs)) := by
  rw [exec_barWrite, execBarWrite, hin]
  rfl

variable (hbar : bar.toNat ≠ 0)
include hbar

/-- A read of a window outside mode RUN reads zero. -/
theorem barRead_zero (hin : s.dev.barReaches bar.toNat off len = true) (hoff : s.dev.windowsOn = false) :
    Gives (.barRead bar off len) s (s.dev.emit (.barData (List.replicate len 0))) := by
  simp [Gives, exec_barRead, execBarRead, hin, hbar, State.withDev, hoff]

/-- A read of a window in mode RUN is an access of the place in memory. -/
theorem barRead_window (hin : s.dev.barReaches bar.toNat off len = true) (hon : s.dev.windowsOn = true) :
    Gives (.barRead bar off len) s (s.dev.barAccess ((s.dev.barWindow bar.toNat).1 + off) len none) := by
  simp [Gives, exec_barRead, execBarRead, hin, hbar, State.withDev, hon]

/-- A window takes no write outside mode RUN. -/
theorem barWrite_ignored (hin : s.dev.barReaches bar.toNat off bs.length = true) (hoff : s.dev.windowsOn = false) :
    Idle (.barWrite bar off bs) s := by
  simp [Idle, exec_barWrite, execBarWrite, hin, hbar, State.withDev, hoff]

/-- A write of a window in mode RUN is an access of the place in memory. -/
theorem barWrite_window (hin : s.dev.barReaches bar.toNat off bs.length = true) (hon : s.dev.windowsOn = true) :
    Gives (.barWrite bar off bs) s (s.dev.barAccess ((s.dev.barWindow bar.toNat).1 + off) bs.length (some bs)) := by
  simp [Gives, exec_barWrite, execBarWrite, hin, hbar, State.withDev, hon]

end

/-! ### The time limit (R421) -/

theorem exec_barTimeout (tag : Nat) (s : State) : exec (.barTimeout tag) s = execBarTimeout tag s := rfl

/-- A read that has waited 10 ms is taken out, aborted, counted and reported. -/
theorem barTimeout_aborts {s : State} {tag : Nat} {w : BarReq}
    (hdue : (s.dev.host.bars.find? fun b => b.tag == tag && b.data.isNone && decide (b.at' + 240000000 ≤ s.dev.clk)) = some w) :
    Gives (.barTimeout tag) s ((((s.dev.updHost fun h => { h with bars := h.bars.filter fun x => x.tag != tag }).barAbort).bump
      R.HOST_BAR_TIMEOUT).hostEvent 0x0B85 0 w.va 0) := by
  simp only [Gives, exec_barTimeout, execBarTimeout, State.withDev, hdue]

/-- Where no access of the tag waits, none is aborted. -/
theorem barTimeout_idle {s : State} {tag : Nat} (hnone : ∀ b ∈ s.dev.host.bars, b.tag ≠ tag) : Idle (.barTimeout tag) s := by
  have hfind : (s.dev.host.bars.find? fun b => b.tag == tag && b.data.isNone && decide (b.at' + 240000000 ≤ s.dev.clk)) = none :=
    List.find?_eq_none.mpr fun b hb => by simp [hnone b hb]
  simp only [Idle, exec_barTimeout, execBarTimeout, State.withDev, hfind]

/-! ### The obligation -/

/-- Settles O50: each request by its own lemma; an access of an open window is performed on memory. -/
theorem hostReadsAndWrites : Obligations.HostReadsAndWrites := by
  intro s req bar off len bs w
  have hnat : bar ≠ 0 → bar.toNat ≠ 0 := fun hbar h => hbar (BitVec.eq_of_toNat_eq h)
  refine ⟨fun hlink => ?down, fun hlink => ⟨fun hload => ?retry, fun hload => ⟨fun o ho => ?cfgRead, fun o v hov => ?cfgWrite⟩⟩,
    fun hin => ⟨fun h0 => ?read0, fun hbar hoff => ?readOff, fun e r hbar hon hnone hopen hread => ?readOn⟩,
    fun hin => ⟨fun h0 => ?write0, fun hbar hoff => ?writeOff, fun hbar hon hnone hopen => ?writeOn⟩, barTimeout_aborts, barTimeout_idle⟩
  case down =>
    exact ⟨configurationRequest_idle hlink req, barRead_idle (Dev.barReaches_linkDown hlink _ _ _),
      barWrite_idle (Dev.barReaches_linkDown hlink _ _ _)⟩
  case retry => exact configurationRequest_retry hlink hload req
  case cfgRead => exact ho ▸ configurationRequest_read hlink hload o
  case cfgWrite => exact hov ▸ configurationRequest_write hlink hload o v
  case read0 => subst h0; exact barRead_bar0 hin
  case readOff => exact barRead_zero (hnat hbar) hin hoff
  case readOn => exact gives_of_eq (barRead_window (hnat hbar) hin hon) ((Dev.barAccess_performed hnone hopen _).trans (Dev.barDo_read hread))
  case write0 => subst h0; exact barWrite_bar0 hin
  case writeOff => exact barWrite_ignored (hnat hbar) hin hoff
  case writeOn => exact gives_of_eq (barWrite_window (hnat hbar) hin hon) (Dev.barAccess_performed hnone hopen _)

end Sys2Proof.Machine
end

section
/-! PROOFS. COMMIT and SQUASH (R60, R77): where they start, how they end, and what becomes of one whose mark was resolved before it issued. -/

namespace Sys2Proof.Machine

open Sys2Proof.Safety

/-! ### Commands that change only the device -/

section
variable {i : Instr} {s : State} {f : Dev → Dev}

/-- A command that maps the device gives the device it maps to. -/
theorem gives_of_withDev {d : Dev} (hexec : exec i s = s.withDev f) (hf : f s.dev = d) : Gives i s d := hf ▸ hexec

/-- A command that maps the device to itself changes nothing. -/
theorem idle_of_withDev (hexec : exec i s = s.withDev f) (hf : f s.dev = s.dev) : Idle i s := gives_of_withDev hexec hf

end

/-! ### The start (R77) -/

/-- The mark that a COMMIT or a SQUASH names. -/
def markTag (v : Plough) (w : BitVec 64) : PTag := ⟨wf' w 32 3, (v.rdS (fRa w)).toNat % 2 ^ 32⟩

/-- The window of the Yoke for the mark's schedule that is open for the context now, with flag `bit`: 1 for commits, 2 for squashes. -/
def Dev.markWindow (d : Dev) (v : Plough) (w : BitVec 64) (bit : Nat) : Option CalEntry :=
  d.windowFor 0 v.ctx fun e => e.kind == 0x20 + (markTag v w).sched && e.flags.testBit bit

section
variable {d : Dev} {v : Plough} {w : BitVec 64}

/-- The operation of the mark, to complete `lat` clocks from now. -/
def Dev.markOpFor (d : Dev) (t : PTag) (squash : Bool) (lat : Nat) : MarkOp :=
  ⟨squash, t, d.cclk, d.cclk + lat, (d.markSealed t).isSome⟩

/-- In a commit window a COMMIT starts, to complete 16 clocks after issue. -/
theorem Dev.markStart_commit (hwin : (d.markWindow v w 1).isSome = true) (n : Nat) :
    d.markStart n v w false = d.updPlough n fun pl => { pl with markOps := pl.markOps ++ [d.markOpFor (markTag v w) false 16] } := by
  obtain ⟨e, he⟩ := Option.isSome_iff_exists.mp hwin
  simp only [Dev.markWindow, markTag] at he
  simp only [Dev.markStart, Bool.false_eq_true, if_false, he, Dev.markOpFor, markTag]

/-- In a squash window a SQUASH starts, to complete 64 clocks after issue. -/
theorem Dev.markStart_squash (hwin : (d.markWindow v w 2).isSome = true) (n : Nat) :
    d.markStart n v w true = d.updPlough n fun pl => { pl with markOps := pl.markOps ++ [d.markOpFor (markTag v w) true 64] } := by
  obtain ⟨e, he⟩ := Option.isSome_iff_exists.mp hwin
  simp only [Dev.markWindow, markTag] at he
  simp only [Dev.markStart, if_true, he, Dev.markOpFor, markTag]

/-- Outside a commit window a COMMIT is ENGINE_WINDOW. -/
theorem Dev.markStart_unserved (hwin : d.markWindow v w 1 = none) (n : Nat) :
    d.markStart n v w false = d.plFault n slotK { code := fEngineWindow } := by
  simp only [Dev.markWindow, markTag] at hwin
  simp only [Dev.markStart, Bool.false_eq_true, if_false, hwin]

end

section
variable {s : State} {p : BitVec 4} {w : BitVec 64}

theorem exec_commit (p : Runner) (w : BitVec 64) (s : State) :
    exec (.commit p w) s = s.withDev fun d => d.ploughRun p slotK w (markOk w) fun v d => d.markStart p.toNat v w false := rfl

theorem exec_squash (p : Runner) (w : BitVec 64) (s : State) :
    exec (.squash p w) s = s.withDev fun d => d.ploughRun p slotK w (markOk w) fun v d => d.markStart p.toNat v w true := rfl

variable (hx : Executes s (.plough p) w) (hok : markOk w = true)
include hx hok

/-- A slot of the two that executes starts its operation with the registers its bundle reads. -/
theorem ploughRun_markStart (squash : Bool) :
    (s.dev.ploughRun (.plough p) slotK w (markOk w) fun v d => d.markStart p.toNat v w squash) =
      s.dev.markStart p.toNat (s.dev.pview p.toNat) w squash := by
  rw [ploughRun_executes hx, if_pos hok]

/-- A COMMIT that executes gives what its start leaves. -/
theorem commit_gives_markStart : Gives (.commit (.plough p) w) s (s.dev.markStart p.toNat (s.dev.pview p.toNat) w false) :=
  gives_of_withDev (exec_commit _ w s) (ploughRun_markStart hx hok false)

/-- A SQUASH that executes gives what its start leaves. -/
theorem squash_gives_markStart : Gives (.squash (.plough p) w) s (s.dev.markStart p.toNat (s.dev.pview p.toNat) w true) :=
  gives_of_withDev (exec_squash _ w s) (ploughRun_markStart hx hok true)

end

/-! ### The end (R60, R77) -/

/-- What the marks have come to does not rest on the ploughs. -/
theorem Dev.markSealed_updPlough (d : Dev) (n : Nat) (f : Plough → Plough) (t : PTag) : (d.updPlough n f).markSealed t = d.markSealed t := rfl

section
variable {d : Dev} {n : Nat} {squash : Bool} {o : MarkOp}
  (hdue : ((d.plough n).markOps.find? fun o => o.squash == squash && decide (o.due ≤ d.cclk)) = some o)
include hdue

/-- An operation whose mark was resolved before it issued only leaves the plough. -/
theorem Dev.markEnd_known (hknown : o.known = true) :
    d.markEnd n squash = d.updPlough n fun pl => { pl with markOps := pl.markOps.erase o } := by
  simp only [Dev.markEnd, hdue, hknown, if_true]

/-- One whose mark is still open ends provisional mode of its schedule on the plough and resolves the mark. -/
theorem Dev.markEnd_open (hknown : o.known = false) (hopen : d.markSealed o.tag = none) :
    let ended := (d.updPlough n fun pl => { pl with markOps := pl.markOps.erase o }).updPlough n
      fun pl => { pl with pmode := pl.pmode.filter fun t => t.sched != o.tag.sched }
    d.markEnd n squash = if squash then ended.squashMark o.tag else ended.commitMark o.tag (d.plough n).ctx (d.plough n).gen := by
  intro ended
  simp only [Dev.markEnd, hdue, hknown, Dev.markSealed_updPlough, hopen, Option.isSome_none, Bool.false_eq_true, if_false, ended]

end

theorem exec_commitDone (p : BitVec 4) (s : State) : exec (.commitDone p) s = s.withDev fun d => d.markEnd p.toNat false := rfl
theorem exec_squashDone (p : BitVec 4) (s : State) : exec (.squashDone p) s = s.withDev fun d => d.markEnd p.toNat true := rfl

/-! ### The obligation -/

/-- Settles O8: the slots start their operation as its window says; its end goes by whether the mark was resolved before. -/
theorem markOpsStartAndEnd : Obligations.MarkOpsStartAndEnd := by
  refine ⟨fun s p w hx hok => ⟨fun hwin => ?commit, fun hwin => ?squash, fun hwin => ?unserved⟩,
    fun s p o hknown hopen => ⟨fun hdue => ?commitEnds, fun hdue => ?squashEnds⟩,
    fun s p o hknown => ⟨fun hdue => ?commitKnown, fun hdue => ?squashKnown⟩⟩
  case commit => exact gives_of_eq (commit_gives_markStart hx hok) (Dev.markStart_commit hwin _)
  case squash => exact gives_of_eq (squash_gives_markStart hx hok) (Dev.markStart_squash hwin _)
  case unserved => exact gives_of_eq (commit_gives_markStart hx hok) (Dev.markStart_unserved hwin _)
  case commitEnds => exact gives_of_withDev (exec_commitDone p s) (Dev.markEnd_open hdue hknown hopen)
  case squashEnds => exact gives_of_withDev (exec_squashDone p s) (Dev.markEnd_open hdue hknown hopen)
  case commitKnown => exact gives_of_withDev (exec_commitDone p s) (Dev.markEnd_known hdue hknown)
  case squashKnown => exact gives_of_withDev (exec_squashDone p s) (Dev.markEnd_known hdue hknown)

end Sys2Proof.Machine
end

section
/-! PROOFS. DMA (R37, R85, R91, R148): a transfer takes a place in its queue at issue, DMAWAIT waits for places, and the transfer at the
front of a queue moves its elements and leaves. -/

namespace Sys2Proof.Machine

open Sys2Proof.Safety

/-! ### Issue (R85, R148) -/

theorem exec_dma (p : Runner) (l1 : Bool) (w : BitVec 64) (s : State) : exec (.dma p l1 w) s = execDma p l1 w s := rfl

/-- The transfer that a DMA issues: the copies of its descriptors, the indices read at issue, and what the plough is at issue (R85). -/
def Dev.dmaIssued (d : Dev) (n : Nat) (src dst six dix : BitVec 512) (sv tv : Option (List Int)) : Dma :=
  { src := src, dst := dst, srcIdx := six, dstIdx := dix, srcVals := sv, dstVals := tv, ctx := (d.plough n).ctx, gen := (d.plough n).gen,
    tag := (d.plough n).pmode, issue := d.cclk, held := true }

/-- A transfer takes the last place of its queue and is held until its bundle retires (R91). -/
def Dev.dmaEnqueued (d : Dev) (n slot q : Nat) (x : Dma) : Dev :=
  (d.updPlough n fun pl => pl.setQueue q { pl.queue q with xfers := (pl.queue q).xfers ++ [x] }).holdEff n slot (.dma q)

section
variable {s : State} {p : BitVec 4} {w : BitVec 64} {v : Plough} {q dd : Nat} {src dst six dix : BitVec 512}

/-- A DMA whose queue is not halted and whose descriptors are in order takes a place, or collides when all 16 are taken. -/
theorem dma_gives {d1 d2 : Dev} {sv tv : Option (List Int)} (hx : Executes s (.plough p) w) (hzero : zeros w [(0, 44)] = true)
    (heven : wf' w 44 5 % 2 = 0) (hv : s.dev.pview p.toNat = v) (hq : wf' w 49 2 = q) (hdd : wf' w 44 5 = dd) (hsrc : v.rdD dd = src)
    (hdst : v.rdD (dd + 1) = dst) (hsix : v.rdD (tdesc src).idxReg = six) (hdix : v.rdD (tdesc dst).idxReg = dix)
    (hhalt : ((s.dev.plough p.toNat).queue q).haltOf v.ctx = none)
    (hdesc : dmaDescOk (tdesc src) (tdesc dst) (tdesc six) (tdesc dix) = true)
    (hsv : s.dev.indexSide p.toNat dd (tdesc src) (tdesc six) = (d1, .ok sv))
    (htv : d1.indexSide p.toNat (dd + 1) (tdesc dst) (tdesc dix) = (d2, .ok tv)) (l1 : Bool) :
    Gives (.dma (.plough p) l1 w) s
      (if 16 ≤ ((s.dev.plough p.toNat).queue q).xfers.length then d2.plFault p.toNat (slotL l1) { code := fResource, b25 := 2, b27 := q }
      else d2.dmaEnqueued p.toNat (slotL l1) q (d2.dmaIssued p.toNat src dst six dix sv tv)) := by
  have hok : (zeros w [(0, 44)] && wf' w 44 5 % 2 == 0) = true := by simp [hzero, heven]
  simp only [Gives, exec_dma, execDma, State.withDev, ploughRun_executes hx, if_pos hok]
  generalize hn : (Runner.plough p).toNat = n
  obtain rfl : p.toNat = n := hn
  simp only [hv, hq, hdd, hsrc, hdst, hsix, hdix, hhalt, hdesc, Bool.not_true, Bool.false_eq_true, if_false, hsv, htv, Dev.dmaEnqueued,
    Dev.dmaIssued]

/-! ### DMAWAIT (R85) -/

theorem exec_dmawait (p : Runner) (l1 : Bool) (w : BitVec 64) (s : State) : exec (.dmawait p l1 w) s = execDmawait p l1 w s := rfl

/-- DMAWAIT on a queue that is not halted waits while more than its limit are outstanding. -/
theorem dmawait_gives (hx : Executes s (.plough p) w) (hzero : zeros w [(8, 41)] = true) (hq : wf' w 49 2 = q)
    (hhalt : ((s.dev.plough p.toNat).queue q).haltOf (s.dev.plough p.toNat).ctx = none) (l1 : Bool) :
    Gives (.dmawait (.plough p) l1 w) s
      (if ((s.dev.plough p.toNat).queue q).xfers.length ≤ wf' w 0 8 then s.dev
      else s.dev.updPlough p.toNat fun pl => pl.hold (.dma q (wf' w 0 8))) := by
  simp only [Gives, exec_dmawait, execDmawait, State.withDev, ploughRun_executes hx, if_pos hzero, pview_ctx]
  generalize hn : (Runner.plough p).toNat = n
  obtain rfl : p.toNat = n := hn
  simp only [hq, hhalt]

end

/-! ### The end of a transfer (R37, R85) -/

section
variable {s : State} {p : BitVec 4} {q : BitVec 2} {x : Dma} {rest : List Dma}

theorem exec_dmaTransferDone (p : BitVec 4) (q : BitVec 2) (s : State) : exec (.dmaTransferDone p q) s = execDmaTransferDone p q s := rfl

variable (hhalt : ((s.dev.plough p.toNat).queue q.toNat).halt = none) (hfront : ((s.dev.plough p.toNat).queue q.toNat).xfers = x :: rest)
  (hheld : x.held = false) (hserved : ∀ y ∈ s.dev.memc.reqs, y.req ≠ 4 * p.toNat + q.toNat)
include hhalt hfront hheld hserved

/-- The transfer at the front of a queue, its stack requests served, is discarded and counted when its generation has gone (R37), and else
moves its elements. -/
theorem dmaTransferDone_served :
    Gives (.dmaTransferDone p q) s
      (if s.dev.genOk x.ctx x.gen then
        match s.dev.dmaMove (x.who p.toNat q.toNat) x with
        | (e, none) => e.dmaPop p.toNat q.toNat rest
        | (e, some stop) => e.updPlough p.toNat fun pl => pl.setQueue q.toNat { pl.queue q.toNat with halt := some (dmaHalt stop) }
      else (s.dev.dmaPop p.toNat q.toNat rest).bump R.HEDGE_GEN_DISCARD) := by
  have hnone : (s.dev.memc.reqs.any fun y => y.req == (x.who p.toNat q.toNat).sreq) = false := by
    simpa [Dma.who] using hserved
  simp only [Gives, exec_dmaTransferDone, execDmaTransferDone, State.withDev, hhalt, hfront, hheld, hnone]
  cases s.dev.genOk x.ctx x.gen with
  | false => simp
  | true =>
    obtain ⟨e, stop⟩ := s.dev.dmaMove (x.who p.toNat q.toNat) x
    cases stop <;> simp

end

/-! ### The obligation -/

/-- Settles O14: issue, wait and end of a transfer, each by its own lemma. -/
theorem dmaTransfers : Obligations.DmaTransfers := by
  refine ⟨fun s p l1 w d1 d2 sv tv hx hzero heven => ?issue,
    fun s p l1 w q => ⟨fun hx hzero hhalt => ?wait, fun x rest e hhalt hfront hheld hserved => ?done⟩⟩
  case issue =>
    intro d n v q dd src dst six dix hhalt hdesc hsv htv
    have hgives := dma_gives hx hzero heven rfl rfl rfl rfl rfl rfl rfl hhalt hdesc hsv htv l1
    exact ⟨fun hroom => gives_of_eq hgives (if_neg (Nat.not_le.mpr hroom)), fun hfull => gives_of_eq hgives (if_pos hfull)⟩
  case wait =>
    have hgives := dmawait_gives hx hzero rfl hhalt l1
    exact ⟨fun hfew => gives_of_eq hgives (if_pos hfew), fun hmany => gives_of_eq hgives (if_neg (Nat.not_le.mpr hmany))⟩
  case done =>
    have hgives := dmaTransferDone_served hhalt hfront hheld hserved
    refine ⟨fun hgen hmove => gives_of_eq hgives ?_, fun hgen => gives_of_eq hgives ?_⟩
    · simp [hgen, hmove]
    · simp [hgen]

end Sys2Proof.Machine
end

section
/-! PROOFS. PLAN_LOAD (R50, R446, R499): the checks of an image stand in one order, and the command answers the first that fails. -/

namespace Sys2Proof.Machine

open Sys2Proof.Safety

/-! ### The order of the checks (R50) -/

/-- The result of the first check that fails. -/
def firstFailure (l : List (Bool × Nat)) : Option Nat := (l.find? fun x => !x.1).map (·.2)

theorem firstFailure_nil : firstFailure [] = none := rfl

/-- A check that fails gives its result; one that holds leaves the answer to those after it. -/
theorem firstFailure_cons (ok : Bool) (r : Nat) (l : List (Bool × Nat)) :
    firstFailure ((ok, r) :: l) = if ok then firstFailure l else some r := by
  cases ok <;> simp [firstFailure]

section
variable (d : Dev) (h payload : List Byte)

/-- Checks 1 to 4 of R50, in their order. -/
theorem Dev.headerRefusal_eq_firstFailure :
    d.headerRefusal h = firstFailure [(magicOk h, 1), (d.partOk h, 2), (d.boardOk h, 3),
      (planSigned ((d.stew.record.drop 0x80).take 384) h, 4)] := by
  simp only [Dev.headerRefusal, firstFailure_cons, firstFailure_nil, Bool.not_eq_true', ← Bool.not_eq_true, ite_not]

/-- Checks 5 to 0xB of R50, in their order. -/
theorem Dev.imageRefusal_eq_firstFailure :
    d.imageRefusal h payload = firstFailure [(hashOk h payload, 5), (decide (leAt d.stew.record 0x34 4 ≤ leAt h 0x20 4), 6),
      (sectionsOk (h ++ payload) (fun a => (d.reg a).toNat), 7), (slackOk h, 8), (d.resourcesOk ⟨h, sectionsOf (h ++ payload)⟩, 9),
      (decide ((⟨h, sectionsOf (h ++ payload)⟩ : PlanImg).hd 0x3C 4 ≤ d.getF F.PWR_CAP_mw), 0xA), (d.plan.phase == .empty, 0xB)] := by
  simp only [Dev.imageRefusal, firstFailure_cons, firstFailure_nil, Bool.not_eq_true', ← Bool.not_eq_true, ite_not, decide_eq_true_eq,
    beq_iff_eq, ← Nat.not_le, ne_eq]

end

/-! ### The command (R446, R499) -/

theorem exec_planLoad (s : State) : exec .planLoad s = execPlanLoad s := rfl

section
variable {s s1 s2 : State} {c h payload : List Byte} {addr size : Nat}
  (hserves : s.dev.serves 1 = some c) (haddr : leAt c 8 8 = addr) (hsize : leAt c 16 8 = size)
include hserves haddr hsize

/-- An image smaller than its header or larger than its place has bad arguments. -/
theorem planLoad_badSize (hbad : size < 0x200 ∨ (if addr = 0 then planStoreBytes else 0xA00000000) < size) :
    Gives .planLoad s (s.dev.respond 0xF2) := by
  simp only [Gives, exec_planLoad, execPlanLoad, hserves, haddr, hsize, hbad, if_true, State.upd]

variable (hfits : ¬ (size < 0x200 ∨ (if addr = 0 then planStoreBytes else 0xA00000000) < size))
include hfits

/-- The load waits while the stacks are not ready or discovery is not done. -/
theorem planLoad_waits (hwait : s.dev.flag F.TOP_STATUS_stack_ready = false ∨ s.dev.flag F.GATE_STATUS_discovery_done = false) :
    Idle .planLoad s := by
  have hready : (!(s.dev.flag F.TOP_STATUS_stack_ready && s.dev.flag F.GATE_STATUS_discovery_done)) = true := by
    cases hwait with
    | inl hstack => simp [hstack]
    | inr hdisc => simp [hdisc]
  simp only [Idle, exec_planLoad, execPlanLoad, hserves, haddr, hsize, hfits, if_false, hready, if_true]

variable (hstack : s.dev.flag F.TOP_STATUS_stack_ready = true) (hdisc : s.dev.flag F.GATE_STATUS_discovery_done = true)
  (hread : s.imageRead addr 0 512 = (s1, .ok h))
include hstack hdisc hread

/-- A header that fails a check is answered before the rest is read. -/
theorem planLoad_headerRefused {r : Nat} (hrefused : s1.dev.headerRefusal h = some r) :
    exec .planLoad s = .next (s1.upd fun d => d.respond r) := by
  simp only [exec_planLoad, execPlanLoad, hserves, haddr, hsize, hfits, hstack, hdisc, hread, hrefused, Bool.and_self, Bool.not_true,
    Bool.false_eq_true, if_false]

variable (hheader : s1.dev.headerRefusal h = none) (hleast : 0x200 ≤ leAt h 0x10 8) (hmost : leAt h 0x10 8 ≤ size)
  (hrest : s1.imageRead addr 0x200 (leAt h 0x10 8 - 0x200) = (s2, .ok payload))
include hheader hleast hmost hrest

/-- An image whose header passes is answered by its first check that fails, or else accepted. -/
theorem planLoad_checked :
    exec .planLoad s = .next (s2.upd fun d => match s2.dev.imageRefusal h payload with
      | some r => d.respond r
      | none => d.planAccept addr h payload) := by
  have hlen : ¬ (leAt h 0x10 8 < 0x200 ∨ size < leAt h 0x10 8) := by omega
  simp only [exec_planLoad, execPlanLoad, hserves, haddr, hsize, hfits, hstack, hdisc, hread, hheader, hlen, hrest, Bool.and_self,
    Bool.not_true, Bool.false_eq_true, if_false]
  cases s2.dev.imageRefusal h payload <;> rfl

end

/-! ### The obligation -/

/-- Settles O23: the command goes through its branches in order, and the two lists of checks are those of R50. -/
theorem planLoads : Obligations.PlanLoads := by
  refine ⟨fun s c hserves => ⟨fun hbad => ?badSize, fun hleast hmost => ?fits⟩,
    fun d h payload => ⟨d.headerRefusal_eq_firstFailure h, d.imageRefusal_eq_firstFailure h payload⟩⟩
  case badSize => exact planLoad_badSize hserves rfl rfl hbad
  case fits =>
    have hfits : ¬ (leAt c 16 8 < 0x200 ∨ (if leAt c 8 8 = 0 then planStoreBytes else 0xA00000000) < leAt c 16 8) :=
      not_or.mpr ⟨Nat.not_lt.mpr hleast, Nat.not_lt.mpr hmost⟩
    refine ⟨planLoad_waits hserves rfl rfl hfits, fun s1 h hstack hdisc hread =>
      ⟨fun r => planLoad_headerRefused hserves rfl rfl hfits hstack hdisc hread, fun s2 payload hheader h200 hsize hrest => ?_⟩⟩
    have hgives := planLoad_checked hserves rfl rfl hfits hstack hdisc hread hheader h200 hsize hrest
    exact ⟨fun r hrefused => by simpa only [hrefused] using hgives, fun haccepted => by simpa only [haccepted] using hgives⟩

end Sys2Proof.Machine
end

section
/-! PROOFS. The lock of a plan (R40, R51): of its steps only the first and the last change the plan, and none changes the clock. -/

namespace Sys2Proof.Machine

/-- Time and the plan, which most of the lock's steps leave alone. -/
def Dev.planClock (d : Dev) : Nat × PlanState := (d.clk, d.plan)

/-- What each step of a fold leaves alone, the fold leaves alone. -/
theorem planClock_foldl {α : Type} {f : Dev → α → Dev} (hf : ∀ d x, (f d x).planClock = d.planClock) (l : List α) (d : Dev) :
    (l.foldl f d).planClock = d.planClock :=
  List.foldlRecOn (motive := fun e => e.planClock = d.planClock) l f rfl fun e he x _ => (hf e x).trans he

/-- The same of a counted iteration. -/
theorem planClock_iter {f : Nat → Dev → Dev} (hf : ∀ k d, (f k d).planClock = d.planClock) (n : Nat) (d : Dev) :
    (iter n d f).planClock = d.planClock := planClock_foldl (fun d k => hf k d) _ d

/-- A report leaves both alone. -/
theorem Dev.ReportsTo.planClock {d e : Dev} (h : d.ReportsTo e) : e.planClock = d.planClock := by
  obtain ⟨r, sm, ev, ho, o, rfl⟩ := h
  rfl

/-- What both branches leave alone, a conditional leaves alone. -/
theorem planClock_ite {P : Prop} [Decidable P] {x y d : Dev} (hx : x.planClock = d.planClock) (hy : y.planClock = d.planClock) :
    (if P then x else y).planClock = d.planClock := by
  split
  · exact hx
  · exact hy

theorem planClock_storePendMap (n : Nat) (d : Dev) : (d.storePendMap n).planClock = d.planClock := by
  unfold Dev.storePendMap
  split
  · simp [Dev.planClock]
  · rfl

theorem planClock_camValidate (d : Dev) : d.camValidate.planClock = d.planClock := by
  unfold Dev.camValidate
  refine planClock_foldl (fun d n => ?_) _ d
  refine planClock_ite (by simp [Dev.planClock]) (planClock_ite (by simp [Dev.planClock]) ?_)
  exact (Dev.reportsTo_raiseFor _ _ _ _ _ _ _).planClock

theorem planClock_setAge (d : Dev) (v : Nat) : (d.setAge v).planClock = d.planClock := by
  unfold Dev.setAge
  exact planClock_ite rfl (by simp [Dev.planClock])

theorem planClock_hitchLock (d : Dev) : d.hitchLock.planClock = d.planClock := by
  unfold Dev.hitchLock
  extract_lets h e f
  calc ((f.setB F.HITCH_STATUS_valid false).setB F.HITCH_STATUS_swap_pending false).planClock = f.planClock := by simp [Dev.planClock]
    _ = (e.setF F.HITCH_MARK_value 0).planClock := planClock_setAge _ 0
    _ = d.planClock := by simp [Dev.planClock, e]

theorem planClock_ploughsFresh (d : Dev) : d.ploughsFresh.planClock = d.planClock := by
  unfold Dev.ploughsFresh
  refine planClock_iter (fun _ _ => ?_) _ d
  simp [Dev.planClock]

theorem planClock_vtBoundary (d : Dev) : d.vtBoundary.planClock = d.planClock := by
  unfold Dev.vtBoundary
  refine planClock_foldl (fun _ _ => ?_) _ d
  simp [Dev.planClock]

theorem planClock_linkBoundary (d : Dev) : d.linkBoundary.planClock = d.planClock := by
  unfold Dev.linkBoundary
  refine planClock_foldl (fun _ _ => ?_) _ d
  simp [Dev.planClock]

/-- A period that begins is numbered and counts clocks from the present ones (R40). -/
theorem planClock_periodBegins {d : Dev} {t : Nat} {pl : PlanState} (hd : d.planClock = (t, pl)) (k : Nat) :
    (d.periodBegins k).planClock = (t, { pl with period := k, nextBoundary := k + 1, cBase := t / 20, mBase := t / 15 }) := by
  obtain ⟨rfl, rfl⟩ : d.clk = t ∧ d.plan = pl := Prod.mk.inj hd
  unfold Dev.periodBegins Dev.periodSignal
  extract_lets plan e f
  calc (f.updReeve _).planClock = f.planClock := by simp [Dev.planClock]
    _ = (e.setF F.BELL_PERIOD_BASE_ns (e.boundaryNs k)).vtBoundary.planClock := planClock_linkBoundary _
    _ = (e.setF F.BELL_PERIOD_BASE_ns (e.boundaryNs k)).planClock := planClock_vtBoundary _
    _ = e.planClock := by simp [Dev.planClock]

/-- The lock takes the plan to LOCKED and begins its first period at the present clock. -/
theorem planClock_planLock (d : Dev) :
    d.planLock.planClock = (d.clk, { d.plan with
      phase := .locked, ended := false, stopping := false, lockedAt := d.clk, period := 0, nextBoundary := 1, cBase := d.cclk,
      mBase := d.mclk }) := by
  unfold Dev.planLock
  extract_lets plan d1 d2 d3 d4 d5 d6 hedge evt d7
  have hmaps : d3.planClock = d2.planClock := planClock_iter planClock_storePendMap 16 d2
  have hflush : d4.planClock = d3.planClock := by
    refine planClock_iter (fun _ _ => ?_) 16 d3
    exact planClock_ite (by simp [Dev.planClock]) rfl
  have hlatch : d5.planClock = d4.planClock := by
    refine planClock_iter (fun _ _ => ?_) 8 d4
    simp [Dev.planClock]
  have hcams : d6.planClock = d5.planClock := (planClock_hitchLock _).trans (planClock_camValidate d5)
  have hfresh : d7.ploughsFresh.planClock = d6.planClock := (planClock_ploughsFresh d7).trans (by simp [Dev.planClock, d7])
  have hflags : d2.planClock = d1.planClock := by simp [Dev.planClock, d2]
  exact planClock_periodBegins (hfresh.trans (hcams.trans (hlatch.trans (hflush.trans (hmaps.trans hflags))))) 0

end Sys2Proof.Machine
end

section
/-! PROOFS. The life of a plan (R40, R51–R53, R222, R394, R446): start, lock, major periods, stop, unload, store, and what a locked plan
refuses. -/

namespace Sys2Proof.Machine

open Sys2Proof.Safety

section
variable {s : State} {c : List Byte}

/-! ### PLAN_START (R51) -/

theorem exec_planStart (s : State) : exec .planStart s = execPlanStart s := rfl

/-- A plan that is not LOADED does not start. -/
theorem planStart_notLoaded (hserves : s.dev.serves 2 = some c) (hphase : s.dev.plan.phase ≠ .loaded) :
    Gives .planStart s (s.dev.respond 0x0B) := by
  simp [Gives, exec_planStart, execPlanStart, hserves, hphase, State.upd]

section
variable {t : MboxCmd} (hserves : s.dev.serves 2 = some c) (hphase : s.dev.plan.phase = .loaded) (hnone : s.dev.plan.t0 = none)
  (hrun : s.dev.stew.running = some t)
include hserves hphase hnone hrun

/-- A LOADED plan without a T0 takes one at least 1 ms after the command's receipt. -/
theorem planStart_takes (htime : t.rx + 1000000 ≤ leAt c 8 8) :
    exec .planStart s = .next ((s.planPrepare (leAt c 8 8)).upd fun d => d.respond 0) := by
  simp [exec_planStart, execPlanStart, hserves, hphase, hnone, hrun, Nat.not_lt.mpr htime]

/-- It refuses an earlier one. -/
theorem planStart_late (hlate : leAt c 8 8 < t.rx + 1000000) : Gives .planStart s (s.dev.respond 0x0C) := by
  simp [Gives, exec_planStart, execPlanStart, hserves, hphase, hnone, hrun, hlate, State.upd]

end

/-! ### PLAN_LOCK (R51) -/

theorem exec_planLock (s : State) : exec .planLock s = execPlanLock s := rfl

/-- At T0 a LOADED plan locks, once nothing of an earlier plan is being filled. -/
theorem planLock_due {t0 : Nat} (hphase : s.dev.plan.phase = .loaded) (ht0 : s.dev.plan.t0 = some t0) (hdue : t0 ≤ s.dev.devNs)
    (hfills : ∀ f ∈ s.dev.memc.fills, f.plan = false) : Gives .planLock s s.dev.planLock := by
  have hnone : (s.dev.memc.fills.any (·.plan)) = false := by simpa using hfills
  simp only [Gives, exec_planLock, execPlanLock, State.withDev, ht0, hphase, hdue, hnone, and_self, if_true]

/-- Before T0 nothing locks. -/
theorem planLock_early {t0 : Nat} (ht0 : s.dev.plan.t0 = some t0) (hearly : s.dev.devNs < t0) : Idle .planLock s := by
  have hnot : ¬ (s.dev.plan.phase = .loaded ∧ t0 ≤ s.dev.devNs ∧ (s.dev.memc.fills.any (·.plan)) = false) :=
    fun h => absurd h.2.1 (Nat.not_le.mpr hearly)
  simp only [Idle, exec_planLock, execPlanLock, State.withDev, ht0, hnot, if_false]

/-! ### The major periods (R40, R52, R222) -/

theorem exec_majorPeriodBoundary (s : State) : exec .majorPeriodBoundary s = execMajorPeriodBoundary s := rfl

/-- While the plan runs, a boundary whose instant has come closes the period. -/
theorem majorPeriodBoundary_due (hlocked : s.dev.locked = true) (hended : s.dev.plan.ended = false)
    (hdue : s.dev.boundaryNs s.dev.plan.nextBoundary ≤ s.dev.devNs) : Gives .majorPeriodBoundary s s.dev.boundary := by
  simp only [Gives, exec_majorPeriodBoundary, execMajorPeriodBoundary, State.withDev, hlocked, hended, hdue, decide_true, Bool.not_false,
    Bool.and_self, if_true]

/-- Before its instant it does not come. -/
theorem majorPeriodBoundary_early (hearly : s.dev.devNs < s.dev.boundaryNs s.dev.plan.nextBoundary) : Idle .majorPeriodBoundary s := by
  simp only [Idle, exec_majorPeriodBoundary, execMajorPeriodBoundary, State.withDev, Nat.not_le.mpr hearly, decide_false, Bool.and_false,
    Bool.false_eq_true, if_false]

/-- Unless the plan stops, the next period begins. -/
theorem Dev.boundary_goes {d : Dev} (hgoes : d.sliceBoundary.exchangeBoundary.plan.stopping = false) :
    d.boundary = d.sliceBoundary.exchangeBoundary.periodBegins d.sliceBoundary.exchangeBoundary.plan.nextBoundary := by
  simp only [Dev.boundary, hgoes, Bool.false_eq_true, if_false]

/-- The period of a plan that stops was the last, and the stacks' channels return to open mode. -/
theorem Dev.boundary_last {d : Dev} (hstops : d.sliceBoundary.exchangeBoundary.plan.stopping = true) :
    let closed := d.sliceBoundary.exchangeBoundary
    d.boundary = (({ closed with plan := { closed.plan with ended := true } } : Dev).periodSignal closed.plan.nextBoundary).setB
      F.MEM_STATUS_open_mode true := by
  simp only [Dev.boundary, hstops, if_true]

/-! ### PLAN_STOP (R52) -/

theorem exec_planStop (s : State) : exec .planStop s = execPlanStop s := rfl

/-- PLAN_STOP is taken while the plan is LOCKED and refused otherwise. -/
theorem planStop_gives (hserves : s.dev.serves 3 = some c) :
    Gives .planStop s (if s.dev.locked then { s.dev with plan := { s.dev.plan with stopping := true } } else s.dev.respond 0x0B) := by
  simp only [Gives, exec_planStop, execPlanStop, State.withDev, hserves, Option.isNone_some, Bool.false_eq_true, if_false]
  cases s.dev.locked <;> rfl

theorem exec_planStopEnd (s : State) : exec .planStopEnd s = execPlanStopEnd s := rfl

/-- After the last period the stop goes on. -/
theorem planStopEnd_gives (hlocked : s.dev.locked = true) (hended : s.dev.plan.ended = true) : Gives .planStopEnd s s.dev.planStopGo := by
  simp only [Gives, exec_planStopEnd, execPlanStopEnd, State.withDev, hlocked, hended, Bool.and_self, if_true]

/-- With no live context left and every domain back, the plan has stopped. -/
theorem Dev.planStopGo_stopped {d : Dev} (hdead : ∀ e ∈ d.ctxs, e.2.live = false) (hrestore : d.pwr.restore = 0)
    (hdomain : d.domainNext = none) : d.planStopGo = d.planStopped := by
  have hnone : (d.ctxs.find? fun e => e.2.live) = none := by simpa using hdead
  simp only [Dev.planStopGo, hnone, hrestore, hdomain, ne_eq, not_true_eq_false, Option.isSome_none, Bool.false_eq_true, if_false]

/-- The retirement of the first live context goes on. -/
theorem Dev.planStopGo_retiring {d : Dev} {id : Nat} {x : Ctx} {l : List (Nat × Ctx)} (hctxs : d.ctxs = (id, x) :: l)
    (hlife : x.life = .retiring) : d.planStopGo = d.retireGo id := by
  have hlive : x.live = true := by simp [Ctx.live, hlife]
  have hfirst : (d.ctxs.find? fun e => e.2.live) = some (id, x) := by simp [hctxs, hlive]
  simp only [Dev.planStopGo, hfirst, hlife, if_true]

/-! ### PLAN_UNLOAD, PLAN_STORE and the ends of fills (R52, R394, R446) -/

theorem exec_planUnload (s : State) : exec .planUnload s = execPlanUnload s := rfl

/-- The unload of a LOADED plan starts the fill of its memory, where no such fill runs. -/
theorem planUnload_loaded (hserves : s.dev.serves 4 = some c) (hphase : s.dev.plan.phase = .loaded)
    (hfills : ∀ f ∈ s.dev.memc.fills, f.plan = false) :
    Gives .planUnload s (({ s.dev with plan := { s.dev.plan with t0 := none } } : Dev).startFill s.dev.planMemory none true false) := by
  have hnone : (s.dev.memc.fills.any (·.plan)) = false := by simpa using hfills
  simp only [Gives, exec_planUnload, execPlanUnload, State.withDev, hserves, hphase, hnone, Option.isNone_some, ne_eq, not_true_eq_false,
    Bool.false_eq_true, if_false]

/-- The unload of a plan that is not LOADED is refused. -/
theorem planUnload_refused (hserves : s.dev.serves 4 = some c) (hphase : s.dev.plan.phase ≠ .loaded) :
    Gives .planUnload s (s.dev.respond 0x0B) := by
  simp [Gives, exec_planUnload, execPlanUnload, State.withDev, hserves, hphase]

theorem exec_planStore (s : State) : exec .planStore s = execPlanStore s := rfl

/-- An image that fits the plan store, and that memory serves, replaces what the store held, unless a plan from the store is in use. -/
theorem planStore_gives {e : Dev} {bs : List Byte} (hserves : s.dev.serves 5 = some c) (hsize : leAt c 16 8 ≤ planStoreBytes)
    (hfree : s.dev.plan.phase = .empty ∨ s.dev.plan.fromFlash = false)
    (hread : s.dev.mgmtRead 23 0x5F false (leAt c 8 8) (leAt c 16 8) = (e, .ok bs)) :
    exec .planStore s = .next { s with
      kept := (s.kept.flashErase planStore (ceilDiv (leAt c 16 8) 4096 * 4096)).flashWrite planStore bs, dev := e.respond 0 } := by
  have hused : ¬ (s.dev.plan.phase ≠ .empty ∧ s.dev.plan.fromFlash = true) := fun ⟨hphase, hflash⟩ =>
    hfree.elim hphase fun h => by simp [h] at hflash
  simp only [exec_planStore, execPlanStore, hserves, Nat.not_lt.mpr hsize, hused, hread, if_false]

theorem exec_fillDone (s : State) : exec .fillDone s = execFillDone s := rfl

/-- Once the oldest fill is complete, what waited for it goes on. -/
theorem fillDone_gives {e : Dev} {j : FillJob} (hfill : s.dev.finishFill = (e, some j)) : Gives .fillDone s (e.fillEnds j) := by
  simp only [Gives, exec_fillDone, execFillDone, State.withDev, hfill]

/-! ### What a locked plan refuses (R53) -/

theorem exec_powerCap (s : State) : exec .powerCap s = execPowerCap s := rfl

/-- While the plan is LOCKED a cap below its power_mw is refused. -/
theorem powerCap_belowPlan (hserves : s.dev.serves 0x20 = some c) (hlow : 60000 ≤ leAt c 8 4) (hhigh : leAt c 8 4 ≤ 220000)
    (hlocked : s.dev.locked = true) (hbelow : leAt c 8 4 < s.dev.header 0x3C 4) : Gives .powerCap s (s.dev.respond 0x0A) := by
  have hwithin : within 60000 (leAt c 8 4) 220000 = true := by simp [within, hlow, hhigh]
  simp only [Gives, exec_powerCap, execPowerCap, State.withDev, hserves, hwithin, hlocked, hbelow, decide_true, Bool.and_self, Bool.not_true,
    Bool.false_eq_true, if_false, if_true]

/-- Where a plan stands already, every image fails a check of R50, the last one if no other. -/
theorem Dev.imageRefusal_occupied {d : Dev} (hphase : d.plan.phase ≠ .empty) (h payload : List Byte) :
    (d.imageRefusal h payload).isSome = true := by
  rw [Dev.imageRefusal_eq_firstFailure, firstFailure, Option.isSome_map, List.find?_isSome]
  exact ⟨(d.plan.phase == .empty, 0xB), by simp, by simpa using hphase⟩

end

/-! ### The obligations -/

/-- Settles O24: each command of a plan's life by its own lemma. -/
theorem planRuns : Obligations.PlanRuns := by
  refine ⟨fun s => ⟨fun c t hserves hphase hnone hrun => ?start, fun c => planStart_notLoaded,
      fun t0 hphase ht0 hdue hfills => ?lock, fun t0 => planLock_early⟩,
    fun s hlocked hended => ?boundary,
    fun s => ⟨fun c hserves => ?stop, fun hlocked hended hdead hrestore hdomain => ?stopped, fun id x l hlocked hended hctxs hlife => ?retiring,
      fun c hserves => ⟨planUnload_loaded hserves, planUnload_refused hserves⟩,
      fun c e bs => planStore_gives, fun e j => fillDone_gives⟩⟩
  case start =>
    exact ⟨planStart_takes hserves hphase hnone hrun, planStart_late hserves hphase hnone hrun⟩
  case lock =>
    obtain ⟨-, hplan⟩ := Prod.mk.inj (planClock_planLock s.dev)
    exact ⟨_, planLock_due hphase ht0 hdue hfills, rfl, congrArg PlanState.phase hplan, congrArg PlanState.period hplan,
      congrArg PlanState.cBase hplan⟩
  case boundary =>
    exact ⟨fun hdue hgoes => gives_of_eq (majorPeriodBoundary_due hlocked hended hdue) (Dev.boundary_goes hgoes),
      fun hdue hstops => gives_of_eq (majorPeriodBoundary_due hlocked hended hdue) (Dev.boundary_last hstops),
      majorPeriodBoundary_early⟩
  case stop =>
    have hgives := planStop_gives hserves
    exact ⟨fun hlocked => gives_of_eq hgives (if_pos hlocked), fun hfree => gives_of_eq hgives (if_neg (by simp [hfree]))⟩
  case stopped => exact gives_of_eq (planStopEnd_gives hlocked hended) (Dev.planStopGo_stopped hdead hrestore hdomain)
  case retiring => exact gives_of_eq (planStopEnd_gives hlocked hended) (Dev.planStopGo_retiring hctxs hlife)

/-- Settles O25: a LOCKED plan is neither EMPTY nor LOADED, so that only the stop finds the phase it needs. -/
theorem lockedPlanStands : Obligations.LockedPlanStands := by
  intro s c hphase
  have hlocked : s.dev.locked = true := by simp [Dev.locked, hphase]
  refine ⟨fun hserves hlow hhigh => powerCap_belowPlan hserves hlow hhigh hlocked,
    Dev.imageRefusal_occupied (by simp [hphase]), fun hserves => planUnload_refused hserves (by simp [hphase]),
    fun hserves => gives_of_eq (planStop_gives hserves) (if_pos hlocked)⟩

end Sys2Proof.Machine
end

section
/-! PROOFS. The state at reset (R38): the registers, and the context IDs. -/

namespace Sys2Proof.Machine

/-- At reset every address reads its reset value. -/
theorem reset_reg (a : Nat) : State.reset.dev.reg a = regReset a := rfl

/-- The reset value of a register is that of its fields. -/
theorem regReset_of_row {a : Nat} {row : RegRow} (hrow : regRowAt a = some row) : regReset a = BitVec.ofNat 64 (fieldsReset row.fields) := by
  simp only [regReset, hrow]

/-- At reset every context ID has the defaults of its fields. -/
theorem reset_ctxOf (id : Nat) : State.reset.dev.ctxOf id = {} := rfl

/-- Settles O58: the reset state holds nothing but defaults, and those of the register file are the Reset columns. -/
theorem resetStands : Obligations.ResetStands := by
  obtain ⟨hmem, hflash⟩ := reset_canonical
  refine ⟨rfl, hmem, hflash, fun a row hrow => (reset_reg a).trans (regReset_of_row hrow), fun id => ?_⟩
  rw [reset_ctxOf]
  exact ⟨rfl, rfl⟩

end Sys2Proof.Machine
end

section
/-! PROOFS. The scalar slots (R63–R70): what their operations put in flight, with the latency and the value that the spec gives, and what
becomes of a result aimed at s0 or p0. -/

namespace Sys2Proof.Machine

open Sys2Proof.Safety

/-! ### Fields of a slot word (R63) -/

/-- A field is its low part and, above it, its high part. -/
theorem wf'_add (w : BitVec 64) (lsb m n : Nat) : wf' w lsb (m + n) = wf' w lsb m + 2 ^ m * wf' w (lsb + m) n := by
  simp only [wf', field, Nat.pow_add, Nat.mod_mul, Nat.shiftRight_eq_div_pow, Nat.div_div_eq_div_mul]

/-- MOVI reserves the bits of the other immediate operations, and ra. -/
theorem zeros_movi {w : BitVec 64} (hzero : zeros w [(32, 7)] = true) (hra : fRa w = 0) : zeros w [(32, 13)] = true := by
  have hlow : wf' w 32 7 = 0 := by simpa [zeros] using hzero
  have hsum := wf'_add w 32 7 6
  rw [hlow, show wf' w (32 + 7) 6 = 0 from hra] at hsum
  simpa [zeros] using hsum

/-- The low bits of a word, as a number. -/
theorem toNat_extractLsb'_low (b : BitVec 64) (n : Nat) : (b.extractLsb' 0 n).toNat = b.toNat % 2 ^ n := by
  simp

/-- The sign extension of imm32 keeps its low bits. -/
theorem toNat_fImm_mod {n : Nat} (hn : n ≤ 32) (w : BitVec 64) : (fImm w).toNat % 2 ^ n = (w.extractLsb' 0 n).toNat := by
  rw [← toNat_extractLsb'_low]
  congr 1
  ext i hi
  simp [fImm, BitVec.getElem_signExtend, show i < 64 by omega, show i < 32 by omega]

/-! ### Values (R68, R69) -/

/-- MULHS: the high half of the signed product. -/
theorem mulhs_eq (a b : BitVec 64) : BitVec.ofInt 64 ((a.toInt * b.toInt) / 2 ^ 64) =
    (a.signExtend 128 * b.signExtend 128).extractLsb' 64 64 := by
  rw [BitVec.signExtend, BitVec.signExtend, ← BitVec.ofInt_mul]
  apply BitVec.eq_of_toNat_eq
  simp only [BitVec.extractLsb'_toNat, BitVec.toNat_ofInt, Nat.shiftRight_eq_div_pow]
  omega

/-- MULHU: the high half of the unsigned product. -/
theorem mulhu_eq (a b : BitVec 64) : BitVec.ofNat 64 ((a.toNat * b.toNat) / 2 ^ 64) =
    (a.zeroExtend 128 * b.zeroExtend 128).extractLsb' 64 64 := by
  have ha := a.isLt
  have hb := b.isLt
  have hprod : a.toNat * b.toNat < 2 ^ 128 := by
    have hlt : a.toNat * b.toNat < 2 ^ 64 * 2 ^ 64 := Nat.mul_lt_mul'' ha hb
    rwa [← Nat.pow_add] at hlt
  apply BitVec.eq_of_toNat_eq
  simp only [BitVec.toNat_ofNat, BitVec.extractLsb'_toNat, BitVec.toNat_mul, BitVec.truncate_eq_setWidth, BitVec.toNat_setWidth,
    Nat.shiftRight_eq_div_pow]
  rw [Nat.mod_eq_of_lt (show a.toNat < 2 ^ 128 by omega), Nat.mod_eq_of_lt (show b.toNat < 2 ^ 128 by omega), Nat.mod_eq_of_lt hprod]

/-- CLZ counts the zeros above the highest set bit. -/
theorem clz64_eq (a : BitVec 64) : BitVec.ofNat 64 (clz64 a) = a.clz := by
  unfold clz64
  split
  case isTrue hzero => exact (BitVec.clz_eq_iff_eq_zero.mpr hzero).symm
  case isFalse hne =>
    have hpos : a.toNat ≠ 0 := fun h => hne (BitVec.eq_of_toNat_eq h)
    have hlt : a.clz.toNat < 64 := BitVec.clz_lt_iff_ne_zero.mpr hne
    have hlog : Nat.log2 a.toNat = 63 - a.clz.toNat := (Nat.log2_eq_iff hpos).mpr
      ⟨BitVec.two_pow_sub_clz_le_toNat_of_ne_zero (by decide) hne,
        (show 64 - a.clz.toNat = 63 - a.clz.toNat + 1 by omega) ▸ BitVec.toNat_lt_two_pow_sub_clz⟩
    rw [hlog, show 63 - (63 - a.clz.toNat) = a.clz.toNat by omega, BitVec.ofNat_toNat, BitVec.setWidth_eq]

/-- POPC counts the set bits. -/
theorem popcount_eq_countP (a : BitVec 64) : popcount a.toNat 64 = (List.range 64).countP fun i => a.getLsbD i := by
  simp only [popcount, List.countP_eq_length_filter, BitVec.testBit_toNat]

/-- MOVHI joins imm32 and the low half of ra. -/
theorem movhi_eq (w a : BitVec 64) :
    BitVec.ofNat 64 (((fImm w).toNat % 2 ^ 32) * 2 ^ 32 + a.toNat % 2 ^ 32) = w.extractLsb' 0 32 ++ a.extractLsb' 0 32 := by
  rw [toNat_fImm_mod (by decide), ← toNat_extractLsb'_low]
  apply BitVec.eq_of_toNat_eq
  rw [BitVec.toNat_append, ← Nat.shiftLeft_add_eq_or_of_lt (BitVec.isLt _), Nat.shiftLeft_eq, BitVec.toNat_ofNat]
  have := (w.extractLsb' 0 32).isLt
  have := (a.extractLsb' 0 32).isLt
  omega

/-- The comparisons by their cond codes. -/
theorem condHolds_eq {c : Nat} (hc : c ≤ 9) (a b : BitVec 64) : condHolds c a b =
    [a == b, a != b, a.slt b, a.sle b, b.slt a, b.sle a, a.ult b, a.ule b, b.ult a, b.ule a].getD c false := by
  match c, hc with
  | 0, _ | 1, _ | 2, _ | 3, _ | 4, _ | 5, _ | 6, _ | 7, _ | 8, _ | 9, _ => rfl

/-- The operations of PLOG by their codes. -/
theorem plogOp_eq {op : Nat} (hop : op ≤ 3) (x y : Bool) : plogOp op x y = [x && y, x || y, Bool.xor x y, x && !y].getD op false := by
  match op, hop with
  | 0, _ | 1, _ | 2, _ | 3, _ => rfl

/-! ### What a slot puts in flight -/

/-- On the Steward a slot whose reserved bits are not zero is the illegal-instruction trap (R94, R443). -/
theorem slotRun_steward_illegal {s : State} {w : BitVec 64} (hx : Executes s .steward w) (slot : Nat) (body : Plough → Dev → Dev) :
    s.dev.slotRun .steward slot w false body = (begun s.dev .steward).stewTrap 1 := slotRun_executes hx slot false body rfl

section
variable {s : State} {p : Runner} {w : BitVec 64}

/-- The state with a result in flight, as a change of the device. -/
theorem withResult_eq_withDev (slot lat : Nat) (dst : Dest) :
    withResult s p slot lat dst = s.withDev fun d => (begun d p).result p.toNat slot lat dst := by
  simp only [withResult, State.withDev, Dev.result, begun_coreClock]

variable {i : Instr} {s1 ok : Bool} {lat : Nat} (hx : Executes s p w) (hok : ok = true)
include hx hok

/-- A scalar operation that executes puts its value in flight to rd. -/
theorem withDev_scalarOp (val : Plough → BitVec 64) : s.withDev (scalarOp p s1 w ok lat val) =
    withResult s p (slotS s1) lat (.scalar (fRd w) (val (s.dev.pview p.toNat))) := by
  rw [withResult_eq_withDev, State.withDev, scalarOp, slotRun_executes hx _ _ _ rfl, if_pos hok]
  rfl

/-- A predicate operation that executes puts its value in flight to pd. -/
theorem withDev_predOp (val : Plough → Bool) : s.withDev (predOp p s1 w ok val) =
    withResult s p (slotS s1) 1 (.pred (wf' w 45 4) (val (s.dev.pview p.toNat))) := by
  rw [withResult_eq_withDev, State.withDev, predOp, slotRun_executes hx _ _ _ rfl, if_pos hok]
  rfl

/-- A command that is a scalar operation answers the state with its value in flight. -/
theorem scalarOp_executes {val : Plough → BitVec 64} {x : BitVec 64} (hexec : exec i s = s.withDev (scalarOp p s1 w ok lat val))
    (hval : val (s.dev.pview p.toNat) = x) : exec i s = withResult s p (slotS s1) lat (.scalar (fRd w) x) :=
  hval ▸ hexec.trans (withDev_scalarOp hx hok val)

/-- A command that is a predicate operation answers the state with its value in flight. -/
theorem predOp_executes {val : Plough → Bool} {b : Bool} (hexec : exec i s = s.withDev (predOp p s1 w ok val))
    (hval : val (s.dev.pview p.toNat) = b) : exec i s = withResult s p (slotS s1) 1 (.pred (wf' w 45 4) b) :=
  hval ▸ hexec.trans (withDev_predOp hx hok val)

end

/-! ### The obligations -/

/-- Settles O1: each operation puts in flight the value that its row of R68 gives. -/
theorem scalarSlotResults : Obligations.ScalarSlotResults := by
  refine ⟨?registers, fun s p s1 w hx => ⟨fun hzero => ?counts, fun hzero => ?select⟩, ?immediates⟩
  case registers =>
    intro s p s1 w hx hzero v a b put
    have shift : b.toNat % 64 = (b.extractLsb' 0 6).toNat := (toNat_extractLsb'_low b 6).symm
    refine ⟨?_, ?_, ?_, ?_, ?_, ?shl, ?shr, ?sra, ?_, ?mulhs, ?mulhu, ?min, ?max, ?minu, ?maxu⟩ <;> refine scalarOp_executes hx hzero rfl ?_
    case shl => exact congrArg (a <<< ·) shift
    case shr => exact congrArg (a >>> ·) shift
    case sra => exact congrArg a.sshiftRight shift
    case mulhs => exact mulhs_eq a b
    case mulhu => exact mulhu_eq a b
    case min | max => simp [BitVec.sle, a, b, v]
    case minu | maxu => simp [BitVec.ule, a, b, v]
    all_goals rfl
  case counts =>
    exact ⟨scalarOp_executes hx hzero rfl (clz64_eq _), scalarOp_executes hx hzero rfl (congrArg (BitVec.ofNat 64) (popcount_eq_countP _))⟩
  case select => exact scalarOp_executes hx hzero rfl rfl
  case immediates =>
    intro s p s1 w hx hzero a low imm put
    have shift : (fImm w).toNat % 64 = (w.extractLsb' 0 6).toNat := toNat_fImm_mod (n := 6) (by decide) w
    refine ⟨?_, ?_, ?_, ?_, ?shli, ?shri, ?srai, ?movhi, fun hra => scalarOp_executes hx (zeros_movi hzero hra) rfl rfl⟩ <;>
      refine scalarOp_executes hx hzero rfl ?_
    case shli => exact congrArg (a <<< ·) shift
    case shri => exact congrArg (a >>> ·) shift
    case srai => exact congrArg a.sshiftRight shift
    case movhi => exact movhi_eq w a
    all_goals rfl

/-- Settles O2: CMP, CMPI and PLOG put in flight what the table of R69 gives for their code. -/
theorem predicateResults : Obligations.PredicateResults := by
  intro s p s1 w hx hpd v a b imm put test
  refine ⟨fun hzero hc => ?cmp, fun hzero hc => ?cmpi, fun hzero hop => ?plog⟩
  case cmp => exact predOp_executes hx (by simp_all [zeros]) rfl (condHolds_eq hc a b)
  case cmpi => exact predOp_executes hx (by simp_all [zeros]) rfl (condHolds_eq hc a imm)
  case plog => exact predOp_executes hx (by simp_all [zeros]) rfl (plogOp_eq hop _ _)

/-- Settles O4: a result aimed at s0 or p0 is put in flight like any other, and its landing leaves the plough as it was. -/
theorem zeroRegistersDiscard : Obligations.ZeroRegistersDiscard := by
  refine ⟨fun pl x b => ⟨rfl, rfl, rfl, rfl⟩, fun s p s1 w hx => ⟨fun hzero rd hrd => ?add, fun hzero hc pd hpd => ?cmp⟩⟩
  case add => exact ⟨_, hrd ▸ scalarOp_executes hx hzero rfl rfl⟩
  case cmp => exact ⟨_, hpd ▸ predOp_executes hx (by simp_all [zeros]) rfl rfl⟩

/-! ### MOVS (R70, R94) -/

/-- Index 0 to 3 and 5 of MOVS take no number: [10:8] are zero. -/
theorem movs_index {w : BitVec 64} {k : Nat} (hk : k < 2 ^ 8) (h : wf' w 0 11 = k) : wf' w 0 8 = k ∧ wf' w 8 3 = 0 := by
  have hsum : wf' w 0 11 = wf' w 0 8 + 2 ^ 8 * wf' w 8 3 := wf'_add w 0 8 3
  have hlow : wf' w 0 8 < 2 ^ 8 := Nat.mod_lt _ (by decide)
  omega

/-- The word of a MOVS with an index of R70 has no reserved bit set. -/
theorem movsOk_of_index {w : BitVec 64} (hzero : zeros w [(32, 13), (11, 21)] = true) (hk : wf' w 0 8 ≤ 5) (hm : wf' w 0 8 = 4 ∨ wf' w 8 3 = 0) :
    movsOk w = true := by
  simp [movsOk, hzero, hk, hm]

/-- A word without anything beside its index has no number. -/
theorem zeros_movs {w : BitVec 64} (hzero : zeros w [(32, 13), (8, 24)] = true) : zeros w [(32, 13), (11, 21)] = true ∧ wf' w 8 3 = 0 := by
  have hsum : wf' w 8 24 = wf' w 8 3 + 2 ^ 3 * wf' w 11 21 := wf'_add w 8 3 21
  simp only [zeros, List.all_cons, List.all_nil, Bool.and_true, Bool.and_eq_true, beq_iff_eq] at hzero ⊢
  omega

section
variable {s : State} {p : BitVec 4} {s1 : Bool} {w : BitVec 64}

/-- On a plough MOVS puts the special register in flight as its bundle reads it. -/
theorem movs_plough (hx : Executes s (.plough p) w) (hok : movsOk w = true) {x : Nat}
    (hval : movsValue s.dev p.toNat (s.dev.pview p.toNat) w = x) :
    exec (.movs (.plough p) s1 w) s = withResult s (.plough p) (slotS s1) 1 (.scalar (fRd w) (BitVec.ofNat 64 x)) :=
  scalarOp_executes (val := fun v => BitVec.ofNat 64 (movsValue s.dev p.toNat v w)) hx hok rfl (congrArg (BitVec.ofNat 64) hval)

/-- On the Steward MOVS takes a free value, and is a scalar operation after that (log 96). -/
theorem exec_movs_steward (s1 : Bool) (w : BitVec 64) (s : State) : exec (.movs .steward s1 w) s =
    State.withDev { s with dev := s.dev.fresh.2 }
      (scalarOp .steward s1 w (movsOk w && stewMovs w) 1 fun _ => BitVec.ofNat 64 (Config.freeNat s.dev.free)) := rfl

end

/-- Settles O3: the value of each special register of R70, and on the Steward the two that R94 leaves it, the others being illegal. -/
theorem movsReadsSpecials : Obligations.MovsReadsSpecials := by
  refine ⟨?plough, ?steward⟩
  case plough =>
    intro s p s1 w hx hzero pl put
    have reads : ∀ k ≤ 5, wf' w 0 11 = k → ∀ x, (wf' w 0 8 = k → movsValue s.dev p.toNat (s.dev.pview p.toNat) w = x) →
        exec (.movs (.plough p) s1 w) s = put x := fun k hk hw x hval => by
      obtain ⟨hidx, hnum⟩ := movs_index (by omega) hw
      exact movs_plough hx (movsOk_of_index hzero (by omega) (.inr hnum)) (hval hidx)
    refine ⟨fun hw => reads 0 (by decide) hw _ fun h => ?clock, fun hw => reads 1 (by decide) hw _ fun h => ?_,
      fun hw => reads 2 (by decide) hw _ fun h => ?_, fun hw hctx hgen => reads 3 (by decide) hw _ fun h => ?ids,
      fun h => movs_plough hx (movsOk_of_index hzero (by omega) (.inl h)) ?_, fun hw hmode => reads 5 (by decide) hw _ fun h => ?committed,
      fun hw k m hk hm hmode => reads 5 (by decide) hw _ fun h => ?provisional⟩
    case clock => simp only [movsValue, h, Dev.ccount]
    case ids =>
      simp only [movsValue, h, pview_ctx, pview_gen]
      rw [Nat.mod_eq_of_lt hctx, Nat.mod_eq_of_lt hgen, Nat.mul_comm]
    case committed => simp only [movsValue, h, show (s.dev.plough p.toNat).pmode = none from hmode]
    case provisional =>
      simp only [movsValue, h, show (s.dev.plough p.toNat).pmode = some ⟨k, m⟩ from hmode, Nat.mod_eq_of_lt hk, Nat.mod_eq_of_lt hm]
    all_goals simp only [movsValue, h]
  case steward =>
    intro s s1 w hx hzero t
    have ht : Executes t .steward w := hx
    refine ⟨fun hidx => ?free, fun h2 h3 => ?illegal⟩
    case free =>
      obtain ⟨hres, hnum⟩ := zeros_movs hzero
      have hok : movsOk w = true := movsOk_of_index hres (by omega) (.inr hnum)
      have hstew : stewMovs w = true := by simpa [stewMovs] using hidx
      exact (exec_movs_steward s1 w s).trans (withDev_scalarOp ht (by rw [hok, hstew]; rfl) _)
    case illegal =>
      have hbad : (movsOk w && stewMovs w) = false := by simp [stewMovs, h2, h3]
      exact (hbad ▸ exec_movs_steward s1 w s).trans (congrArg (fun d => Host.Outcome.next { s with dev := d }) (slotRun_steward_illegal ht _ _))

end Sys2Proof.Machine
end

section
/-! PROOFS. The control slot (R71–R78): where a branch and a loop lead the plough bundle by bundle, what the other operations of the slot leave,
and the end of a wait. -/

namespace Sys2Proof.Machine

open Sys2Proof.Safety

/-! ### Addresses of bundles (R72) -/

/-- Addresses on from `pc` count modulo 2^64, as words do. -/
theorem bundleAt_eq_toNat (pc : Nat) (w : BitVec 64) : bundleAt pc (fImmInt w) = (BitVec.ofNat 64 pc + 64#64 * fImm w).toNat := by
  have hoff : fImm w = BitVec.ofInt 64 (fImmInt w) := rfl
  rw [hoff, show (64#64 : BitVec 64) = BitVec.ofInt 64 64 from rfl, ← BitVec.ofInt_mul, ← BitVec.ofInt_natCast, ← BitVec.ofInt_add,
    BitVec.toNat_ofInt, bundleAt]
  rfl

/-- The next bundle, below the end of the address space. -/
theorem bundleAt_one {pc : Nat} (h : pc + 64 < 2 ^ 64) : bundleAt pc 1 = pc + 64 := by
  unfold bundleAt
  omega

/-! ### From one bundle to the next (R72, R74) -/

section
variable {pl : Plough}

/-- After the delay bundles comes the target, which ends the loops whose body it leaves. -/
theorem Plough.advance_target {t : Nat} (h : pl.branch = some (t, 0)) (now : Nat) : pl.advance now =
    { pl with pcAt := now, pc := t, branch := none, loops := pl.loops.filter fun l => decide (l.first ≤ t) && decide (t ≤ l.last) } := by
  simp only [Plough.advance, h]

/-- A delay bundle is followed by the next sequential one. -/
theorem Plough.advance_delay {t n : Nat} (h : pl.branch = some (t, n + 1)) (now : Nat) :
    pl.advance now = { pl with pcAt := now, pc := bundleAt pl.pc 1, branch := some (t, n) } := by
  simp only [Plough.advance, h]

variable (hbranch : pl.branch = none)
include hbranch

/-- A loop with a count that is not 0 begins at the next bundle. -/
theorem Plough.advance_enter {l : LoopLvl} (henter : pl.loopEnter = some l) (hleft : l.left ≠ 0) (now : Nat) :
    pl.advance now = { pl with pcAt := now, pc := bundleAt pl.pc 1, loops := l :: pl.loops, loopEnter := none } := by
  simp only [Plough.advance, hbranch, henter, if_neg hleft]

/-- A loop with count 0 is passed. -/
theorem Plough.advance_pass {l : LoopLvl} (henter : pl.loopEnter = some l) (hleft : l.left = 0) (now : Nat) :
    pl.advance now = { pl with pcAt := now, pc := (stepLoops l.last pl.loops).1, loops := (stepLoops l.last pl.loops).2, loopEnter := none } := by
  simp only [Plough.advance, hbranch, henter, if_pos hleft]

/-- Else the active loops say which bundle follows. -/
theorem Plough.advance_loops (henter : pl.loopEnter = none) (now : Nat) :
    pl.advance now = { pl with pcAt := now, pc := (stepLoops pl.pc pl.loops).1, loops := (stepLoops pl.pc pl.loops).2 } := by
  simp only [Plough.advance, hbranch, henter]

end

/-! ### One loop (R74) -/

/-- The plough `x` is at bundle `i` of the body of its only loop, whose LOOP stands at `pc`; `left` iterations are left, this one included. -/
def InBody (pc len left i : Nat) (x : Plough) : Prop :=
  x.branch = none ∧ x.loopEnter = none ∧ x.loops = [⟨pc + 64, pc + 64 * len, left⟩] ∧ x.pc = pc + 64 + 64 * i

section
variable {pc len left i : Nat} {x : Plough} (hx : InBody pc len left i x) (hend : pc + 64 * len + 64 < 2 ^ 64)
include hx

/-- The last bundle of an iteration that is not the last is followed by the first of the body. -/
theorem inBody_again (hi : i + 1 = len) (hleft : 1 < left) (now : Nat) : InBody pc len (left - 1) 0 (x.advance now) := by
  obtain ⟨hbranch, henter, hloops, hpc⟩ := hx
  have hstep : stepLoops x.pc x.loops = (pc + 64, [⟨pc + 64, pc + 64 * len, left - 1⟩]) := by
    rw [hloops, stepLoops, if_pos (by simp only; omega), if_pos hleft]
  rw [Plough.advance_loops hbranch henter, hstep]
  exact ⟨hbranch, henter, rfl, rfl⟩

include hend

/-- Inside the body the next bundle follows. -/
theorem inBody_next (hi : i + 1 < len) (now : Nat) : InBody pc len left (i + 1) (x.advance now) := by
  obtain ⟨hbranch, henter, hloops, hpc⟩ := hx
  have hstep : stepLoops x.pc x.loops = (x.pc + 64, x.loops) := by
    rw [hloops, stepLoops, if_neg (by simp only; omega), bundleAt_one (by omega)]
  rw [Plough.advance_loops hbranch henter, hstep]
  exact ⟨hbranch, henter, hloops, by simp only; omega⟩

/-- The last bundle of the last iteration is followed by the bundle after the body. -/
theorem inBody_leave (hi : i + 1 = len) (hleft : left = 1) (now : Nat) : (x.advance now).pc = pc + 64 * len + 64 := by
  obtain ⟨hbranch, henter, hloops, hpc⟩ := hx
  have hstep : stepLoops x.pc x.loops = (x.pc + 64, []) := by
    rw [hloops, stepLoops, if_pos (by simp only; omega), if_neg (by simp only; omega), stepLoops, bundleAt_one (by omega)]
  rw [Plough.advance_loops hbranch henter, hstep]
  simp only
  omega

end

/-- The plough after `k` bundles more, of which the first is at clock `c`. -/
def Plough.bundlesOn (pl : Plough) (c k : Nat) : Plough := (List.range k).foldl (fun x i => x.advance (c + i)) pl

theorem Plough.bundlesOn_succ (pl : Plough) (c k : Nat) : pl.bundlesOn c (k + 1) = (pl.bundlesOn c k).advance (c + k) := by
  simp only [Plough.bundlesOn, List.range_succ, List.foldl_append, List.foldl_cons, List.foldl_nil]

/-- An iteration that has begun issues the bundles of the body in turn. -/
theorem inBody_iteration {pl : Plough} {pc len left c k : Nat} (hend : pc + 64 * len + 64 < 2 ^ 64)
    (hstart : InBody pc len left 0 (pl.bundlesOn c k)) {r : Nat} (hr : r < len) : InBody pc len left r (pl.bundlesOn c (k + r)) := by
  induction r with
  | zero => exact hstart
  | succ r ih =>
    rw [← Nat.add_assoc, Plough.bundlesOn_succ]
    exact inBody_next (ih (by omega)) hend hr _

section
variable {pl : Plough} {n len : Nat} (hbranch : pl.branch = none) (hloops : pl.loops = []) (hlen : 1 ≤ len) (hend : pl.pc + 64 * len + 64 < 2 ^ 64)
  (henter : pl.loopEnter = some ⟨pl.pc + 64, pl.pc + 64 * len, n⟩) (c : Nat)
include hbranch hloops hlen hend henter

/-- Iteration `q` begins right after the last bundle of the one before. -/
theorem inBody_begins {q : Nat} (hq : q < n) : InBody pl.pc len (n - q) 0 (pl.bundlesOn c (q * len + 1)) := by
  induction q with
  | zero =>
    rw [Plough.bundlesOn_succ, Nat.zero_mul, show pl.bundlesOn c 0 = pl from rfl, Plough.advance_enter hbranch henter (by simp only; omega),
      bundleAt_one (by omega), hloops]
    exact ⟨hbranch, rfl, rfl, rfl⟩
  | succ q ih =>
    have hlast := inBody_iteration hend (ih (by omega)) (r := len - 1) (by omega)
    rw [show q * len + 1 + (len - 1) = (q + 1) * len by rw [Nat.succ_mul]; omega] at hlast
    rw [Plough.bundlesOn_succ, show n - (q + 1) = n - q - 1 by omega]
    exact inBody_again hlast (by omega) (by omega) _

/-- Bundle `k` of all iterations is bundle `k % len` of the body. -/
theorem bundlesOn_pc {k : Nat} (hk : k < n * len) : (pl.bundlesOn c (k + 1)).pc = pl.pc + 64 + 64 * (k % len) := by
  have hq : k / len < n := (Nat.div_lt_iff_lt_mul (by omega)).mpr hk
  obtain ⟨-, -, -, hpc⟩ := inBody_iteration hend (inBody_begins hbranch hloops hlen hend henter c hq) (Nat.mod_lt k hlen)
  rwa [show k / len * len + 1 + k % len = k + 1 by rw [Nat.add_right_comm, Nat.div_add_mod']] at hpc

/-- After the iterations comes the bundle after the body; with count 0 it comes at once. -/
theorem bundlesOn_pc_end : (pl.bundlesOn c (n * len + 1)).pc = pl.pc + 64 * len + 64 := by
  cases n with
  | zero =>
    rw [Plough.bundlesOn_succ, Nat.zero_mul, show pl.bundlesOn c 0 = pl from rfl, Plough.advance_pass hbranch henter rfl, hloops]
    exact bundleAt_one hend
  | succ m =>
    have hlast := inBody_iteration hend (inBody_begins hbranch hloops hlen hend henter c (q := m) (by omega)) (r := len - 1) (by omega)
    rw [show m * len + 1 + (len - 1) = (m + 1) * len by rw [Nat.succ_mul]; omega] at hlast
    rw [Plough.bundlesOn_succ]
    exact inBody_leave hlast hend (by omega) (by omega) _

end

/-! ### The slots (R71, R73) -/

section
variable {i : Instr} {s : State} {p : Runner} {w : BitVec 64}

/-- A control slot in a place that R73 allows answers what its body leaves. -/
theorem placedRun_gives {ok : Bool} {body : Plough → Dev → Dev} (hexec : exec i s = s.withDev fun d => d.placedRun p w ok body)
    (hx : Executes s p w) (hplace : PlacedWell s p) (hok : ok = true) : Gives i s (body (s.dev.pview p.toNat) (begun s.dev p)) :=
  gives_of_withDev hexec (by rw [placedRun_placedWell hplace hx, if_pos hok])

/-- A slot that R73 does not restrict answers what its body leaves. -/
theorem slotRun_gives {slot : Nat} {ok : Bool} {body : Plough → Dev → Dev} (hexec : exec i s = s.withDev fun d => d.slotRun p slot w ok body)
    (hx : Executes s p w) (hok : ok = true) : Gives i s (body (s.dev.pview p.toNat) (begun s.dev p)) :=
  gives_of_withDev hexec (by rw [slotRun_executes hx slot ok body rfl, if_pos hok])

/-- A slot that the Steward leaves out, on a plough, answers what its body leaves. -/
theorem ploughRun_gives {n : BitVec 4} {slot : Nat} {ok : Bool} {body : Plough → Dev → Dev}
    (hexec : exec i s = s.withDev fun d => d.ploughRun (.plough n) slot w ok body) (hx : Executes s (.plough n) w) (hok : ok = true) :
    Gives i s (body (s.dev.pview n.toNat) s.dev) :=
  gives_of_withDev hexec (by rw [ploughRun_executes hx, if_pos hok])

end

section
variable {d : Dev} {v : Plough} {w : BitVec 64} {count : Nat}

/-- A loop starts below two active levels. -/
theorem Dev.loopStart_enters (h : v.loops.length < 2) (n : Nat) : d.loopStart n v w count =
    d.updPlough n fun pl => { pl with loopEnter := some ⟨bundleAt v.pc 1, bundleAt v.pc (fImmInt w), count⟩ } :=
  if_neg fun ⟨_, h2⟩ => absurd h2 (by omega)

/-- A third active level is ILLEGAL. -/
theorem Dev.loopStart_third (h : v.loops.length = 2) (hcount : 0 < count) (n : Nat) : d.loopStart n v w count = d.plFault n slotK illegalF :=
  if_pos ⟨by omega, by omega⟩

end

/-! ### The obligations of branches and loops -/

/-- Settles O5: the slots name the target, and `advance` counts the two delay bundles down. -/
theorem branchesTake : Obligations.BranchesTake := by
  refine ⟨?slots, ?delay⟩
  case slots =>
    intro s p w hx hplace pc off target ra
    have htarget : bundleAt (s.dev.pview p.toNat).pc (fImmInt w) = target := by rw [bundleAt_eq_toNat, pview_pc]; rfl
    refine ⟨fun hzero => ⟨?b, ?call⟩, fun hzero halign => ?br⟩
    case b => exact gives_of_eq (placedRun_gives rfl hx hplace hzero) (htarget ▸ rfl)
    case call => exact gives_of_eq (placedRun_gives rfl hx hplace hzero) (by rw [htarget, pview_pc])
    case br => exact gives_of_eq (placedRun_gives rfl hx hplace hzero) (if_neg (Decidable.not_not.mpr halign))
  case delay =>
    intro pl target c hbranch hend a b e
    have ha : a = { pl with pcAt := c + 1, pc := pl.pc + 64, branch := some (target, 1) } := by
      rw [← bundleAt_one (by omega)]; exact Plough.advance_delay hbranch _
    have hb : b = { pl with pcAt := c + 2, pc := pl.pc + 128, branch := some (target, 0) } := by
      rw [show pl.pc + 128 = pl.pc + 64 + 64 by omega, ← bundleAt_one (pc := pl.pc + 64) (by omega)]
      simp only [b, ha]
      exact Plough.advance_delay rfl _
    have he := Plough.advance_target (pl := b) (by rw [hb]) (c + 3)
    refine ⟨by rw [ha], by rw [hb], ?_, ?_, ?_⟩ <;> simp only [e, he]

/-- Settles O6: LOOP and LOOPI note the body, `advance` runs it, and a target ends the levels whose body it leaves. -/
theorem loopsRun : Obligations.LoopsRun := by
  refine ⟨?slots, ?body, fun pl t now hbranch => ?leaves⟩
  case slots =>
    intro s p w hx hplace hzero v ra enter
    refine ⟨fun hlevels => ?loopi, fun hlevels hrd => ?loop, fun hlevels hcount => ?third⟩
    case loopi => exact gives_of_eq (placedRun_gives rfl hx hplace hzero) (Dev.loopStart_enters hlevels _)
    case loop => exact gives_of_eq (placedRun_gives rfl hx hplace (by simp_all [zeros, fRd])) (Dev.loopStart_enters hlevels _)
    case third => exact gives_of_eq (placedRun_gives rfl hx hplace hzero) (Dev.loopStart_third hlevels hcount _)
  case body =>
    intro pl n len c hbranch hloops hlen hend henter after
    exact ⟨fun k hk => bundlesOn_pc hbranch hloops hlen hend henter c hk, bundlesOn_pc_end hbranch hloops hlen hend henter c⟩
  case leaves =>
    rw [Plough.advance_target hbranch]
    simp

/-! ### The end of a wait (R75) -/

section
variable {pl : Plough} {c ccount : Nat} (hdue : c ≤ ccount)
include hdue

/-- A clock that has come is waited for no longer. -/
theorem Plough.clockDone_only (h : pl.waits = [.clock c]) : pl.clockDone ccount = { pl with waits := [] } := by
  simp only [Plough.clockDone, h, List.filter_cons, decide_eq_false (Nat.not_lt.mpr hdue), Bool.false_eq_true, if_false, List.filter_nil]

/-- What is waited for beside the clock stays. -/
theorem Plough.clockDone_beside {x : Wait} (h : pl.waits = [.clock c, x]) (hx : ∀ k, x ≠ .clock k) :
    pl.clockDone ccount = { pl with waits := [x] } := by
  simp only [Plough.clockDone, h, List.filter_cons, decide_eq_false (Nat.not_lt.mpr hdue), Bool.false_eq_true, if_false, List.filter_nil]
  cases x with
  | clock k => exact absurd rfl (hx k)
  | _ => rfl

end

section
variable {p : BitVec 4} {s : State}

theorem exec_waitcRelease (p : BitVec 4) (s : State) : exec (.waitcRelease p) s = execWaitcRelease p s := rfl

section
variable {pl : Plough} (hdone : (s.dev.plough p.toNat).clockDone s.dev.ccount = pl)
  (hless : pl.waits.length ≠ (s.dev.plough p.toNat).waits.length)
include hdone hless

/-- When nothing is waited for any more the next bundle issues. -/
theorem waitcRelease_goes_on (hnone : pl.waits.isEmpty = true) :
    Gives (.waitcRelease p) s ((s.dev.updPlough p.toNat fun _ => pl.advance s.dev.cclk).fetchRead p.toNat) :=
  gives_of_withDev (exec_waitcRelease p s) (by simp only [hdone, if_neg hless, hnone, if_true])

/-- When something else is waited for too the plough waits on. -/
theorem waitcRelease_waits_on (hsome : pl.waits.isEmpty = false) : Gives (.waitcRelease p) s (s.dev.updPlough p.toNat fun _ => pl) :=
  gives_of_withDev (exec_waitcRelease p s) (by simp only [hdone, if_neg hless, hsome, Bool.false_eq_true, if_false])

end

/-- Before the clock nothing changes. -/
theorem waitcRelease_idle (h : ∀ k, .clock k ∈ (s.dev.plough p.toNat).waits → s.dev.ccount < k) : Idle (.waitcRelease p) s :=
  idle_of_withDev (exec_waitcRelease p s) (if_pos (by
    refine congrArg List.length (List.filter_eq_self.mpr fun x hx => ?_)
    cases x with
    | clock k => exact decide_eq_true (h k hx)
    | _ => rfl))

end

/-- Settles O7: each operation leaves what its body leaves; a wait ends with its clock, and the plough goes on when nothing else is waited for. -/
theorem controlCompletes : Obligations.ControlCompletes := by
  refine ⟨?ploughs, fun s p w hx => ⟨fun hzero => ?trap, fun slot hzero => ?nop⟩, ?release⟩
  case ploughs =>
    intro s p w hx d pc clock report
    refine ⟨fun hzero hlate => ?waits, fun hzero hdue => ?late, fun hzero => ?chkpt, fun hzero => ?ends⟩
    case waits => exact gives_of_eq (ploughRun_gives rfl hx hzero) (if_neg (Nat.not_le.mpr hlate))
    case late => exact gives_of_eq (ploughRun_gives rfl hx hzero) (if_pos hdue)
    case chkpt => exact gives_of_eq (ploughRun_gives rfl hx hzero) rfl
    case ends => exact gives_of_eq (ploughRun_gives rfl hx hzero) rfl
  case trap => exact gives_of_eq (slotRun_gives rfl hx hzero) rfl
  case nop => exact gives_of_eq (slotRun_gives rfl hx hzero) rfl
  case release =>
    intro s p c d n pl
    refine ⟨fun hwaits hdue => ?goes, fun x hwaits hdue hother => ?waits, waitcRelease_idle⟩
    case goes => exact waitcRelease_goes_on (Plough.clockDone_only hdue hwaits) (by rw [show (s.dev.plough p.toNat).waits = _ from hwaits]; simp) rfl
    case waits =>
      exact waitcRelease_waits_on (Plough.clockDone_beside hdue hwaits hother) (by rw [show (s.dev.plough p.toNat).waits = _ from hwaits]; simp) rfl

end Sys2Proof.Machine
end

section
/-! PROOFS. The memory slots L0 and L1 (R80–R84, R91, R94): a load brings as many bytes as it asks for at most, a scalar one extends them, and an
access off its alignment faults before anything else. -/

namespace Sys2Proof.Machine

open Sys2Proof.Safety

/-! ### How many bytes a read brings -/

/-- Laying a write over bytes keeps their number. -/
theorem length_overlay (key : Nat) (bs : List Byte) (wk : Nat) (wb : List Byte) : (overlay key bs wk wb).length = bs.length := by
  unfold overlay
  split <;> simp

/-- So does laying free data over the words that a code does not cover. -/
theorem length_overlayWrong (key : Nat) (bs : List Byte) (wrong : List (Nat × Nat)) : (overlayWrong key bs wrong).length = bs.length := by
  induction wrong generalizing bs with
  | nil => rfl
  | cons x xs ih => exact (ih _).trans (by simp)

/-- A read under the code brings the bytes asked for, whatever it finds. -/
theorem Dev.length_readKey (d : Dev) (key n : Nat) (who : Who) (kind : Nat) (counts : Bool) : (d.readKey key n who kind counts).2.1.length = n := by
  unfold Dev.readKey
  split
  · simp
  · split
    · simp [Dev.peek, Memory.read]
    · simp [length_overlayWrong, Dev.peek, Memory.read]

/-- A plough's own read too. -/
theorem Dev.length_ploughRead (d : Dev) (p key n : Nat) : (d.ploughRead p key n).2.1.length = n := by
  have laid : ∀ (own : List (Nat × List Byte)) (bs : List Byte), (own.foldl (fun bs w => overlay key bs w.1 w.2) bs).length = bs.length :=
    fun own => by
      induction own with
      | nil => exact fun _ => rfl
      | cons w ws ih => exact fun bs => (ih _).trans (length_overlay ..)
  exact (laid _ _).trans (d.length_readKey ..)

/-- The bytes that translated pieces hold. -/
def Pieces.size (ps : Pieces) : Nat := (ps.map fun x => x.2.1).sum

/-- The read of a range brings the bytes of its pieces. -/
theorem Dev.length_readRange (d : Dev) (p va : Nat) (ps : Pieces) : (d.readRange p va ps).2.1.length = ps.size := by
  induction ps generalizing d va with
  | nil => rfl
  | cons x xs ih =>
    obtain ⟨key, n, pte⟩ := x
    simp [Dev.readRange, Pieces.size, ih, Dev.length_ploughRead]

/-- A translated L-slot access has the bytes asked for. -/
theorem Dev.size_lpieces {d : Dev} {p : Nat} {pl : Plough} {write : Bool} {fuel va n : Nat} {ps : Pieces}
    (h : d.lpieces p pl write fuel va n = .ok ps) : ps.size = n := by
  induction fuel generalizing va n ps with
  | zero => cases h
  | succ fuel ih =>
    simp only [Dev.lpieces] at h
    split at h
    · cases h
    next key left pte _ =>
      split at h
      · cases h
        simp [Pieces.size]
      next hmore =>
        split at h
        · cases h
        next rest hrest =>
          cases h
          have hsize := ih hrest
          simp only [Pieces.size, List.map_cons, List.sum_cons] at hsize ⊢
          omega

theorem Dev.size_lxlate {d : Dev} {p : Nat} {pl : Plough} {va n : Nat} {write : Bool} {ps : Pieces} (h : d.lxlate p pl va n write = .ok ps) :
    ps.size = n := by
  unfold Dev.lxlate at h
  split at h
  · cases h
  · split at h
    · cases h
    · exact Dev.size_lpieces h

/-- A range of the management space translates to at most the bytes asked for: the pages it may take are bounded. -/
theorem Dev.size_xlateRange {d : Dev} {q : XReq} {fuel n : Nat} {ps : Pieces} (h : d.xlateRange q fuel n = .ok ps) : ps.size ≤ n := by
  induction fuel generalizing q n ps with
  | zero => cases h; exact Nat.zero_le n
  | succ fuel ih =>
    simp only [Dev.xlateRange] at h
    split at h
    · cases h; exact Nat.zero_le n
    · split at h
      · cases h
      next key left pte _ =>
        split at h
        · cases h
          simp [Pieces.size]
        next hmore =>
          split at h
          next rest hrest =>
            cases h
            have hsize := ih hrest
            simp only [Pieces.size, List.map_cons, List.sum_cons] at hsize ⊢
            omega
          · cases h

/-- Reads of pieces in turn, each of which brings the bytes of its piece, bring the bytes of all. -/
theorem length_foldl_pieces {f : Dev × List Byte × Option Nat → Nat × Nat × BitVec 64 → Dev × List Byte × Option Nat}
    (hf : ∀ acc x, (f acc x).2.1.length = acc.2.1.length + x.2.1) (ps : Pieces) (acc : Dev × List Byte × Option Nat) :
    (ps.foldl f acc).2.1.length = acc.2.1.length + ps.size := by
  induction ps generalizing acc with
  | nil => rfl
  | cons x xs ih => rw [List.foldl_cons, ih, hf]; simp [Pieces.size, Nat.add_assoc]

/-- A read of the management space that succeeds brings at most the bytes asked for. -/
theorem Dev.length_mgmtRead {d e : Dev} {req sreq : Nat} {ext : Bool} {va n : Nat} {bs : List Byte}
    (h : d.mgmtRead req sreq ext va n = (e, .ok bs)) : bs.length ≤ n := by
  unfold Dev.mgmtRead at h
  dsimp only at h
  split at h
  · cases h
  next ps hps =>
    generalize hr : List.foldl _ _ ps = r at h
    have hlen : r.2.1.length = Pieces.size ps := by
      rw [← hr, length_foldl_pieces]
      · simp
      · intro acc x
        split <;> simp [Dev.length_readKey]
    split at h
    · cases h
    · cases h
      exact hlen ▸ Dev.size_xlateRange hps

/-- A load brings at most the bytes it asks for. -/
theorem length_of_loads {s : State} {p : Runner} {va n al port : Nat} {barn : Bool} {bs : List Byte} {d : Dev}
    (h : Loads s p va n al port barn bs d) : bs.length ≤ n := by
  cases p with
  | plough k =>
    obtain ⟨ps, ⟨-, hxlate, -⟩, -, -, hread⟩ := h
    have hlen := Dev.length_readRange (portTaken s.dev k barn port) k.toNat va ps
    rw [hread, Dev.size_lxlate hxlate] at hlen
    exact Nat.le_of_eq hlen
  | steward =>
    obtain ⟨-, -, hram, hmgmt⟩ := h
    cases hin : inStewRam va n with
    | true => simp [(hram hin).2]
    | false => exact Dev.length_mgmtRead (hmgmt hin)

/-! ### The value of a scalar load (R8, R16, R80) -/

/-- The little-endian value of bytes is below 256 to the power of their number. -/
theorem leNat_lt (bs : List Byte) : leNat bs < 256 ^ bs.length := by
  induction bs with
  | nil => simp [leNat]
  | cons b bs ih =>
    have := b.isLt
    simp only [leNat, List.length_cons, Nat.pow_succ]
    omega

/-- A value of `k` bits, extended with zeros. -/
theorem ofNat_eq_zeroExtend {k x : Nat} (hx : x < 2 ^ k) : BitVec.ofNat 64 x = (BitVec.ofNat k x).zeroExtend 64 := by
  apply BitVec.eq_of_toNat_eq
  simp [Nat.mod_eq_of_lt hx]

/-- A word of `k` bits, as a signed number (R16). -/
theorem toInt_ofNat_eq_toSigned {k : Nat} (hk : 0 < k) (x : Nat) : (BitVec.ofNat k x).toInt = toSigned k x := by
  obtain ⟨m, rfl⟩ : ∃ m, k = m + 1 := ⟨k - 1, by omega⟩
  simp only [BitVec.toInt_eq_toNat_cond, BitVec.toNat_ofNat, toSigned, Nat.add_sub_cancel, Nat.pow_succ]
  split <;> split <;> omega

/-- A value of `k` bits, extended with its sign. -/
theorem ofNat_sext64 {k : Nat} (hk : 0 < k) (x : Nat) : BitVec.ofNat 64 (sext64 k x) = (BitVec.ofNat k x).signExtend 64 := by
  rw [BitVec.signExtend, toInt_ofNat_eq_toSigned hk]
  apply BitVec.eq_of_toNat_eq
  rw [BitVec.toNat_ofInt, BitVec.toNat_ofNat, sext64, ofSigned]
  omega

/-! ### What the slots do -/

section
variable (p : Runner) (l1 : Bool) (w : BitVec 64) (s : State)

theorem exec_ld8u : exec (.ld8u p l1 w) s = s.withDev (loadOp p l1 w 1 id) := rfl
theorem exec_ld8s : exec (.ld8s p l1 w) s = s.withDev (loadOp p l1 w 1 (sext64 8)) := rfl
theorem exec_ld16u : exec (.ld16u p l1 w) s = s.withDev (loadOp p l1 w 2 id) := rfl
theorem exec_ld16s : exec (.ld16s p l1 w) s = s.withDev (loadOp p l1 w 2 (sext64 16)) := rfl
theorem exec_ld32u : exec (.ld32u p l1 w) s = s.withDev (loadOp p l1 w 4 id) := rfl
theorem exec_ld32s : exec (.ld32s p l1 w) s = s.withDev (loadOp p l1 w 4 (sext64 32)) := rfl
theorem exec_ld64 : exec (.ld64 p l1 w) s = s.withDev (loadOp p l1 w 8 id) := rfl
theorem exec_st8 : exec (.st8 p l1 w) s = s.withDev (storeOp p l1 w 1) := rfl
theorem exec_st16 : exec (.st16 p l1 w) s = s.withDev (storeOp p l1 w 2) := rfl
theorem exec_st32 : exec (.st32 p l1 w) s = s.withDev (storeOp p l1 w 4) := rfl
theorem exec_st64 : exec (.st64 p l1 w) s = s.withDev (storeOp p l1 w 8) := rfl
theorem exec_vld : exec (.vld p l1 w) s = execVld p l1 w s := rfl
theorem exec_dld : exec (.dld p l1 w) s = execDld p l1 w s := rfl
theorem exec_vst : exec (.vst p l1 w) s = execVst p l1 w s := rfl
theorem exec_dst : exec (.dst p l1 w) s = execDst p l1 w s := rfl

end

section
variable {i : Instr} {s : State} {p : Runner} {l1 : Bool} {w : BitVec 64} {n : Nat} {barn : Bool} {bs : List Byte} {d : Dev}

section
variable (hx : Executes s p w) (hzero : zeros w [(32, 7)] = true) (hload : Loads s p (lAddr (s.dev.pview p.toNat) w) n n 1 barn bs d)
include hx hzero hload

/-- A scalar load that reaches its bytes puts their value in flight to rd. -/
theorem loadOp_gives {conv : Nat → Nat} (hexec : exec i s = s.withDev (loadOp p l1 w n conv)) {x : BitVec 64}
    (hval : BitVec.ofNat 64 (conv (leNat bs)) = x) :
    Gives i s (d.result p.toNat (slotL l1) (if barn then 40 else 4) (.scalar (fRd w) x)) :=
  gives_of_eq (slotRun_gives hexec hx hzero) ((loadFor_loads hload _ _).trans (hval ▸ rfl))

/-- An unsigned one extends its `8 * n` bits with zeros. -/
theorem loadOp_unsigned (hexec : exec i s = s.withDev (loadOp p l1 w n id)) {k : Nat} (hk : 8 * n = k) :
    Gives i s (d.result p.toNat (slotL l1) (if barn then 40 else 4) (.scalar (fRd w) ((BitVec.ofNat k (leNat bs)).zeroExtend 64))) := by
  have hlt : leNat bs < 2 ^ k :=
    Nat.lt_of_lt_of_le (leNat_lt bs) (by rw [← hk, Nat.pow_mul]; exact Nat.pow_le_pow_right (by decide) (length_of_loads hload))
  exact loadOp_gives hx hzero hload hexec (ofNat_eq_zeroExtend hlt)

end

section
variable {k : BitVec 4} {va al port : Nat} {ps : Pieces}

/-- Holding a store's bytes changes no memory. -/
theorem heldStore_mem (s : State) (k : BitVec 4) (port slot : Nat) (ps : Pieces) (bs : List Byte) :
    (heldStore s k port slot ps bs).mem = s.dev.mem := by
  refine List.foldlRecOn (motive := fun e : Dev => e.mem = s.dev.mem) _ _ ?_ fun e he x _ => he
  unfold portTaken
  split <;> rfl

/-- A store of a plough that reaches its place is held, and changes no memory. -/
theorem storeFor_gives_held (hstore : Stores s k va n al port ps) (h : Gives i s (s.dev.storeFor k.toNat (slotL l1) va n al port bs)) :
    Gives i s (heldStore s k port (slotL l1) ps bs) ∧ (heldStore s k port (slotL l1) ps bs).mem = s.dev.mem :=
  ⟨gives_of_eq h (storeFor_stores hstore _ _), heldStore_mem ..⟩

end

/-- An aligned store of the Steward that its RAM or the management space takes waits for the end of the bundle (R82, R94). -/
theorem Dev.stewStore_kept {d : Dev} {va n : Nat} (halign : va % n = 0) (hroom : inStewRam va n = true ∨
      ∃ ps, d.xlateRange { req := 23, va := va, mgmt := true, write := true } (pagesOf n) n = .ok ps) (slot : Nat) (bs : List Byte) :
    d.stewStore slot va n n bs = d.updStew fun x => { x with stores := x.stores ++ [(slot, va, bs)] } := by
  unfold Dev.stewStore
  rw [if_neg (Decidable.not_not.mpr halign)]
  rcases hroom with hram | ⟨ps, hps⟩
  · rw [if_pos hram]
  · simp only [hps]
    exact ite_self _

end

/-! ### Alignment (R81, R443) -/

section
variable {va al : Nat} (h : va % al ≠ 0) (d : Dev) (p slot n port : Nat)
include h

/-- A load off its alignment faults with ALIGN before it translates. -/
theorem Dev.loadFor_misaligned (k : Bool → List Byte → Dev → Dev) : d.loadFor p slot va n al port k = d.plFault p slot (faultAt fAlign 0 va) := by
  unfold Dev.loadFor
  split
  case isTrue hstew => rw [Dev.stewLoad, if_pos h, hstew]
  case isFalse => exact lAccess_misaligned h ..

/-- So does a store. -/
theorem Dev.storeFor_misaligned (bs : List Byte) : d.storeFor p slot va n al port bs = d.plFault p slot (faultAt fAlign 0 va) := by
  unfold Dev.storeFor
  split
  case isTrue hstew => rw [Dev.stewStore, if_pos h, hstew]
  case isFalse => exact lAccess_misaligned h ..

end

/-- On the Steward ALIGN is the trap of cause 2 (R443). -/
theorem Dev.plFault_align_steward (d : Dev) (slot va : Nat) : d.plFault stewCore slot (faultAt fAlign 0 va) = d.stewTrap 2 := by
  rw [Dev.plFault, Dev.plFaultAt, if_pos rfl, Dev.stewFault, if_pos (show (faultAt fAlign 0 va).code = fAlign from rfl)]

/-! ### The obligations -/

/-- Settles O9: a load that reaches its bytes puts them in flight, a store that reaches its place is held. -/
theorem loadsAndStores : Obligations.LoadsAndStores := by
  refine ⟨?scalar, ?wide, ?stores, ?steward⟩
  case scalar =>
    intro s p l1 w n barn bs d hx hzero va hload
    refine ⟨?byte, ?half, ?word, ?double⟩
    case byte =>
      rintro rfl
      exact ⟨loadOp_unsigned hx hzero hload (exec_ld8u ..) rfl, loadOp_gives hx hzero hload (exec_ld8s ..) (ofNat_sext64 (by decide) _)⟩
    case half =>
      rintro rfl
      exact ⟨loadOp_unsigned hx hzero hload (exec_ld16u ..) rfl, loadOp_gives hx hzero hload (exec_ld16s ..) (ofNat_sext64 (by decide) _)⟩
    case word =>
      rintro rfl
      exact ⟨loadOp_unsigned hx hzero hload (exec_ld32u ..) rfl, loadOp_gives hx hzero hload (exec_ld32s ..) (ofNat_sext64 (by decide) _)⟩
    case double =>
      rintro rfl
      exact loadOp_gives hx hzero hload (exec_ld64 ..) rfl
  case wide =>
    intro s p l1 w barn bs d hx hzero hrd va
    have hok : riVecOk w = true := by simp [riVecOk, riOk, hzero, hrd]
    refine ⟨fun hload => ?vld, fun hload hmode hformat halias => ?dld⟩
    case vld => exact gives_of_eq (ploughRun_gives (exec_vld ..) hx hok) (loadFor_loads hload _ _)
    case dld =>
      refine gives_of_eq (ploughRun_gives (exec_dld ..) hx hok) ((loadFor_loads hload _ _).trans ?_)
      simp [Runner.toNat, hmode, hformat, halias, latOf]
  case stores =>
    intro s p l1 w ps hx hzero v va x
    have hok : fRd w < 32 → riVecOk w = true := fun hrd => by simp [riVecOk, riOk, hzero, hrd]
    exact ⟨fun h => storeFor_gives_held h (slotRun_gives (exec_st8 ..) hx hzero),
      fun h => storeFor_gives_held h (slotRun_gives (exec_st16 ..) hx hzero),
      fun h => storeFor_gives_held h (slotRun_gives (exec_st32 ..) hx hzero),
      fun h => storeFor_gives_held h (slotRun_gives (exec_st64 ..) hx hzero),
      fun hrd h => storeFor_gives_held h (ploughRun_gives (exec_vst ..) hx (hok hrd)),
      fun hrd h => storeFor_gives_held h (ploughRun_gives (exec_dst ..) hx (hok hrd))⟩
  case steward =>
    intro s l1 w hx hzero v va x kept
    have keeps : ∀ n i, exec i s = s.withDev (storeOp .steward l1 w n) → kept i n := fun n i hexec halign hroom =>
      gives_of_eq (slotRun_gives hexec hx hzero) (Dev.stewStore_kept halign hroom _ _)
    exact ⟨keeps 1 _ (exec_st8 ..), keeps 2 _ (exec_st16 ..), keeps 4 _ (exec_st32 ..), keeps 8 _ (exec_st64 ..)⟩

/-- Settles O10: whatever the slot, its access tests the alignment first. -/
theorem misalignedAccessFaults : Obligations.MisalignedAccessFaults := by
  refine ⟨?ploughs, ?steward⟩
  case ploughs =>
    intro s p l1 w hx hzero va
    have load {i : Instr} {n : Nat} {conv} (hexec : exec i s = s.withDev (loadOp (.plough p) l1 w n conv)) (h : va % n ≠ 0) :=
      gives_of_eq (slotRun_gives hexec hx hzero) (Dev.loadFor_misaligned h ..)
    have store {i : Instr} {n : Nat} (hexec : exec i s = s.withDev (storeOp (.plough p) l1 w n)) (h : va % n ≠ 0) :=
      gives_of_eq (slotRun_gives hexec hx hzero) (Dev.storeFor_misaligned h ..)
    refine ⟨fun h => ⟨load (exec_ld16u ..) h, load (exec_ld16s ..) h, store (exec_st16 ..) h⟩,
      fun h => ⟨load (exec_ld32u ..) h, load (exec_ld32s ..) h, store (exec_st32 ..) h⟩,
      fun h => ⟨load (exec_ld64 ..) h, store (exec_st64 ..) h⟩, fun h hrd => ?wide⟩
    have hok : riVecOk w = true := by simp [riVecOk, riOk, hzero, hrd]
    exact ⟨gives_of_eq (ploughRun_gives (exec_vld ..) hx hok) (Dev.loadFor_misaligned h ..),
      gives_of_eq (ploughRun_gives (exec_vst ..) hx hok) (Dev.storeFor_misaligned h ..),
      gives_of_eq (ploughRun_gives (exec_dld ..) hx hok) (Dev.loadFor_misaligned h ..),
      gives_of_eq (ploughRun_gives (exec_dst ..) hx hok) (Dev.storeFor_misaligned h ..)⟩
  case steward =>
    intro s l1 w hx hzero va
    have load {i : Instr} {n : Nat} {conv} (hexec : exec i s = s.withDev (loadOp .steward l1 w n conv)) (h : va % n ≠ 0) :=
      gives_of_eq (slotRun_gives hexec hx hzero) ((Dev.loadFor_misaligned h ..).trans (Dev.plFault_align_steward ..))
    have store {i : Instr} {n : Nat} (hexec : exec i s = s.withDev (storeOp .steward l1 w n)) (h : va % n ≠ 0) :=
      gives_of_eq (slotRun_gives hexec hx hzero) ((Dev.storeFor_misaligned h ..).trans (Dev.plFault_align_steward ..))
    exact ⟨fun h => ⟨load (exec_ld16u ..) h, load (exec_ld16s ..) h, store (exec_st16 ..) h⟩,
      fun h => ⟨load (exec_ld32u ..) h, load (exec_ld32s ..) h, store (exec_st32 ..) h⟩,
      fun h => ⟨load (exec_ld64 ..) h, store (exec_st64 ..) h⟩⟩

end Sys2Proof.Machine
end

section
/-! PROOFS. What reaches a plough's registers and memory after issue (R65, R66, R91, R127): results land at their clock, stores at the retirement of
their bundle. -/

namespace Sys2Proof.Machine

open Sys2Proof.Safety

/-! ### Results (R65, R127) -/

section
variable {d : Dev} {n t : Nat}

/-- With nothing due nothing lands. -/
theorem Dev.landUpTo_none (h : (d.plough n).due t = []) : d.landUpTo n t = d := by
  simp only [Dev.landUpTo, h, List.isEmpty_nil, if_true]

/-- The plough once the results due have landed; the others are still in flight. -/
def Dev.landed (d : Dev) (n t : Nat) : Dev := d.updPlough n fun pl => { pl.view t with pend := pl.pend.filter fun x => decide (t < x.land) }

/-- The accumulate steps that land are counted (R127). -/
def Dev.countRows (d : Dev) (n k : Nat) : Dev := d.setReg (R.PLOUGH_MAT_ROWS n) (d.reg (R.PLOUGH_MAT_ROWS n) + BitVec.ofNat 64 k)

/-- What a result that lands does outside the registers: a drained row is written, the counts of a conversion are added (R115, R127). -/
def Dev.landOutside (d : Dev) (n ctx gen : Nat) : Dest → Dev
  | .memRow k bs _ _ => (d.writeKey k bs ⟨n, 0, ctx, gen⟩).1
  | .counts sat nan tag => (d.bumpFor tag (R.PLOUGH_CVT_SAT n) sat).bumpFor tag (R.PLOUGH_CVT_NAN n) nan
  | _ => d

/-- Results that are due land in the registers, then outside them in order, and the steps among them are counted. -/
theorem Dev.landUpTo_some {due : List Pend} (hdue : (d.plough n).due t = due) (hsome : due ≠ []) : d.landUpTo n t =
    (due.foldl (fun e x => e.landOutside n (d.plough n).ctx (d.plough n).gen x.dst) (d.landed n t)).countRows n
      (due.filter fun x => x.dst.isStep).length := by
  simp only [Dev.landUpTo, hdue, List.isEmpty_iff, if_neg hsome]
  rfl

end

/-! ### The commands (R65, R91) -/

theorem exec_resultLand (p : BitVec 4) (s : State) : exec (.resultLand p) s = s.withDev fun d => d.landUpTo p.toNat d.cclk := rfl
theorem exec_bundleRetire (p : BitVec 4) (s : State) : exec (.bundleRetire p) s = execBundleRetire p s := rfl

section
variable {s : State} {p : BitVec 4}

/-- Before the 48 clocks of a bundle are over nothing that it holds takes effect. -/
theorem bundleRetire_none (h : ∀ x ∈ (s.dev.plough p.toNat).held, s.dev.cclk < x.issue + 48) :
    Gives (.bundleRetire p) s (s.dev.updPlough p.toNat fun pl => { pl with held := pl.held.filter fun h => decide (s.dev.cclk < h.issue + 48) }) := by
  have hnone : ((s.dev.plough p.toNat).held.filter fun x => decide (x.issue + 48 ≤ s.dev.cclk)) = [] :=
    List.filter_eq_nil_iff.mpr fun x hx => by simpa using h x hx
  exact gives_of_withDev (exec_bundleRetire p s) (by simp only [hnone, List.foldl_nil])

/-- One effect whose bundle retires takes effect. -/
theorem bundleRetire_one {h : HeldEff} (hdue : ((s.dev.plough p.toNat).held.filter fun x => decide (x.issue + 48 ≤ s.dev.cclk)) = [h]) :
    Gives (.bundleRetire p) s
      ((s.dev.updPlough p.toNat fun pl => { pl with held := pl.held.filter fun h => decide (s.dev.cclk < h.issue + 48) }).retireEff p.toNat h) :=
  gives_of_withDev (exec_bundleRetire p s) (by simp only [hdue, List.foldl_cons, List.foldl_nil, insertHeld])

end

/-- Settles O16: what is due lands and what it writes is written; a store is written when its bundle retires. -/
theorem ploughEffectsLand : Obligations.PloughEffectsLand := by
  refine ⟨?results, ?stores⟩
  case results =>
    intro s p d n due landed rows
    refine ⟨fun hnone => idle_of_withDev (exec_resultLand p s) (Dev.landUpTo_none hnone), fun hscalar hsome => ?scalars,
      fun x b r z sums hdue hdst => ?step, fun x k bs vis pte hdue hdst => ?row⟩
    case scalars =>
      have hkeep : due.foldl (fun e x => e.landOutside n (d.plough n).ctx (d.plough n).gen x.dst) landed = landed :=
        List.foldlRecOn (motive := fun e => e = landed) due _ rfl fun e he x hx => by
          obtain ⟨r, v, hdst⟩ := hscalar x hx
          rw [he, hdst]
          rfl
      have hsteps : (due.filter fun x => x.dst.isStep) = [] := List.filter_eq_nil_iff.mpr fun x hx => by
        obtain ⟨r, v, hdst⟩ := hscalar x hx
        simp [hdst, Dest.isStep]
      exact gives_of_withDev (exec_resultLand p s) ((Dev.landUpTo_some rfl hsome).trans (congr (congrArg rows hkeep) (congrArg List.length hsteps)))
    case step =>
      refine gives_of_withDev (exec_resultLand p s) ((Dev.landUpTo_some hdue (by simp)).trans ?_)
      simp only [List.foldl_cons, List.foldl_nil, hdst, Dev.landOutside, List.filter_cons, Dest.isStep, if_true, List.filter_nil]
      rfl
    case row =>
      refine gives_of_withDev (exec_resultLand p s) ((Dev.landUpTo_some hdue (by simp)).trans ?_)
      simp only [List.foldl_cons, List.foldl_nil, hdst, Dev.landOutside, List.filter_cons, Dest.isStep, Bool.false_eq_true, if_false, List.filter_nil]
      rfl
  case stores =>
    intro s p d n left
    refine ⟨bundleRetire_none, fun h key bs pte hdue heff => gives_of_eq (bundleRetire_one hdue) ?_⟩
    simp only [Dev.retireEff, heff]
    rfl

end Sys2Proof.Machine
end

section
/-! PROOFS. Jobs of the projection unit and of the Sieve (R89, R265, R266, R271, R273, R276, R277, R288): a run of the job at the head, and
its end. -/

namespace Sys2Proof.Machine

open Sys2Proof.Safety

/-! ### A run of the projection unit (R265, R266) -/

/-- The notes of a job that has run name its camera, where one is concerned. -/
theorem Dev.projRan_eq (d : Dev) (j : Job) (r : Nat) (cam : Option Nat) : d.projRan j r cam = d.jobRan j r cam.toList := by
  cases cam <;> rfl

section
variable {d e f : Dev} {j : Job} {b : List Byte} {kind : Nat} {work : Dev → Job → List Byte → List CamJob → Dev × Option (Option Nat)}

/-- With no job to run the unit does nothing. -/
theorem Dev.projRun_none (hhead : d.headToRun 0 0 = none) : d.projRun kind work = d := by
  simp only [Dev.projRun, hhead]

section
variable (hhead : d.headToRun 0 0 = some j)
include hhead

/-- Nor with a job of another kind. -/
theorem Dev.projRun_other (hkind : j.kind ≠ kind) : d.projRun kind work = d := by
  simp only [Dev.projRun, hhead, decide_eq_true hkind, Bool.true_or, if_true]

/-- Nor under recovery. -/
theorem Dev.projRun_recovering (hrec : d.flag F.YOKE_STATUS_recovering = true) : d.projRun kind work = d := by
  simp only [Dev.projRun, hhead, hrec, Bool.or_true, if_true]

variable (hkind : j.kind = kind) (hrec : d.flag F.YOKE_STATUS_recovering = false)
include hkind hrec

/-- A job whose block cannot be read ends with reason 3. -/
theorem Dev.projRun_unread (hread : d.jobRead j j.addr 576 = (e, none)) : d.projRun kind work = e.jobRan j 3 [] := by
  simp [Dev.projRun, hhead, hkind, hrec, hread, Dev.projRan_eq]

variable (hread : d.jobRead j j.addr 576 = (e, some b))
include hread

/-- A job whose block breaks R266 ends with its reason before its work. -/
theorem Dev.projRun_refused {r : Nat} {cam : Option Nat} (hreason : e.projReason j b = some (r, cam)) :
    d.projRun kind work = e.jobRan j r cam.toList := by
  simp [Dev.projRun, hhead, hkind, hrec, hread, hreason, Dev.projRan_eq]

variable (hreason : e.projReason j b = none)
include hreason

/-- A job whose work goes through ends without an error. -/
theorem Dev.projRun_done (hwork : work (e.projCams j b).1 j b (e.projCams j b).2 = (f, none)) : d.projRun kind work = f.jobRan j 0 [] := by
  simp [Dev.projRun, hhead, hkind, hrec, hread, hreason, hwork, Dev.projRan_eq]

/-- A job whose work fails ends with reason 3 and the camera concerned. -/
theorem Dev.projRun_failed {cam : Option Nat} (hwork : work (e.projCams j b).1 j b (e.projCams j b).2 = (f, some cam)) :
    d.projRun kind work = f.jobRan j 3 cam.toList := by
  simp [Dev.projRun, hhead, hkind, hrec, hread, hreason, hwork, Dev.projRan_eq]

end
end

/-! ### A run of the Sieve (R276) -/

section
variable {d e : Dev} {j : Job} {kind : Nat} {work : Dev → Job → Dev × Nat × List Nat}

/-- With no job to run the Sieve does nothing. -/
theorem Dev.sieveRun_none (hhead : d.headToRun 1 0 = none) : d.sieveRun kind work = d := by
  simp only [Dev.sieveRun, hhead]

variable (hhead : d.headToRun 1 0 = some j)
include hhead

/-- Nor with a job of another kind. -/
theorem Dev.sieveRun_other (hkind : j.kind ≠ kind) : d.sieveRun kind work = d := by
  simp only [Dev.sieveRun, hhead, decide_eq_true hkind, Bool.true_or, if_true]

/-- Nor under recovery. -/
theorem Dev.sieveRun_recovering (hrec : d.flag F.SIEVE_STATUS_recovering = true) : d.sieveRun kind work = d := by
  simp only [Dev.sieveRun, hhead, hrec, Bool.or_true, if_true]

/-- Else the job has run, with the end code and the result words of its work. -/
theorem Dev.sieveRun_ran (hkind : j.kind = kind) (hrec : d.flag F.SIEVE_STATUS_recovering = false) {r : Nat} {words : List Nat}
    (hwork : work d j = (e, r, words)) : d.sieveRun kind work = e.jobRan j r words := by
  simp [Dev.sieveRun, hhead, hkind, hrec, hwork]

end

/-! ### The end of a job (R89, R271, R273, R277, R288) -/

section
variable {d e : Dev} {j : Job} {b : List Byte}

/-- A projection job without an error is counted. -/
theorem Dev.projEnd_done (hres : j.result = 0) : d.projEnd j = (d.bumpFor j.tag R.YOKE_PROJ_JOBS).endJob j := by
  simp only [Dev.projEnd, hres, if_true]

/-- One that failed is reported with its camera. -/
theorem Dev.projEnd_camera {c : Nat} {cs : List Nat} (hres : j.result ≠ 0) (hgen : d.genOk j.ctx j.gen = true) (hnotes : j.notes = c :: cs) :
    d.projEnd j = (d.projEvent j.tag 0x0442 c j.ctx j.gen j.addr j.result 0).endJob j := by
  simp only [Dev.projEnd, if_neg hres, hgen, if_true, hnotes]

/-- One that failed and concerns no camera is reported with a free byte (log 6). -/
theorem Dev.projEnd_free (hres : j.result ≠ 0) (hgen : d.genOk j.ctx j.gen = true) (hnotes : j.notes = []) :
    d.projEnd j = (d.fresh.2.projEvent j.tag 0x0442 (d.fresh.1 % 256) j.ctx j.gen j.addr j.result 0).endJob j := by
  simp only [Dev.projEnd, if_neg hres, hgen, if_true, hnotes]

/-- The job that the Sieve has ended last, with its end code `r` (R298). -/
def Dev.sieveNamed (d : Dev) (j : Job) (r : Nat) : Dev :=
  (d.setF F.SIEVE_LAST_JOB_address j.addr).setReg R.SIEVE_LAST_END (BitVec.ofNat 64 (j.kind % 256 + r * 256))

/-- A job of the Sieve without a result block and without an error is counted. -/
theorem Dev.sieveEnd_done (hres : j.result = 0) (hkind : 2 < j.kind) :
    d.sieveEnd j = ((d.bumpFor j.tag R.SIEVE_JOBS).sieveNamed j 0).endJob j := by
  simp [Dev.sieveEnd, hres, Nat.not_le.mpr hkind, Dev.sieveNamed]

/-- A sweep or a rules job writes its result block and is counted. -/
theorem Dev.sieveEnd_written (hres : j.result = 0) (hkind : j.kind ≤ 2) (hnotes : 1 < j.notes.length) (hread : d.jobRead j j.addr 64 = (e, some b))
    {f : Dev} (hwrite : e.jobWrite j (sieveResultAddr j.kind b) (j.notes.flatMap (leBytes 4)) = (f, true))
    (hwhole : (j.notes.getD 2 0).testBit 0 = false) : d.sieveEnd j = ((f.bumpFor j.tag R.SIEVE_JOBS).sieveNamed j 0).endJob j := by
  simp only [Dev.sieveEnd, hres, hkind, hnotes, hread, hwrite, hwhole, and_self, if_true, Bool.and_false, Bool.false_eq_true, if_false,
    Dev.sieveNamed]

/-- One that failed is reported. -/
theorem Dev.sieveEnd_failed (hres : j.result ≠ 0) (hgen : d.genOk j.ctx j.gen = true) :
    d.sieveEnd j = ((d.sieveNote j 0x0501 j.result).sieveNamed j j.result).endJob j := by
  simp [Dev.sieveEnd, hres, hgen, Dev.sieveNamed]

end

/-! ### The commands -/

section
variable (s : State)

theorem exec_project : exec .project s = s.withDev fun d => d.projRun 0x40 Dev.projectWork := rfl
theorem exec_projClear : exec .projClear s = s.withDev fun d => d.projRun 0x41 Dev.projClearWork := rfl
theorem exec_sweep : exec .sweep s = s.withDev fun d => d.sieveRun 1 Dev.sweepJob := rfl
theorem exec_rules : exec .rules s = s.withDev fun d => d.sieveRun 2 Dev.rulesJob := rfl
theorem exec_gather : exec .gather s = s.withDev fun d => d.sieveRun 3 Dev.gatherJob := rfl
theorem exec_scatterAdd : exec .scatterAdd s = s.withDev fun d => d.sieveRun 4 Dev.scatterJob := rfl
theorem exec_projJobEnd : exec .projJobEnd s = execProjJobEnd s := rfl
theorem exec_sieveJobEnd : exec .sieveJobEnd s = execSieveJobEnd s := rfl

variable {s} {j : Job}

/-- The job that the projection unit has run ends. -/
theorem projJobEnd_gives (hhead : s.dev.headRan 0 0 = some j) : Gives .projJobEnd s (s.dev.projEnd j) :=
  gives_of_withDev (exec_projJobEnd s) (by simp only [hhead])

/-- The job that the Sieve has run ends. -/
theorem sieveJobEnd_gives (hhead : s.dev.headRan 1 0 = some j) : Gives .sieveJobEnd s (s.dev.sieveEnd j) :=
  gives_of_withDev (exec_sieveJobEnd s) (by simp only [hhead])

end

/-- Settles O38: what a run and an end do goes by the head of the queue, the block that is read and the end code. -/
theorem imageJobs : Obligations.ImageJobs := by
  refine ⟨?runs, ?ends⟩
  case runs =>
    intro s j b d e words r cam run0 run1
    have projection : ∀ kind i work, exec i s = s.withDev (fun d => d.projRun kind work) → run0 kind i work := fun kind i work hexec =>
      ⟨fun hhead => idle_of_withDev hexec (Dev.projRun_none hhead), fun hhead =>
        ⟨fun hkind => idle_of_withDev hexec (Dev.projRun_other hhead hkind), fun hrec => idle_of_withDev hexec (Dev.projRun_recovering hhead hrec),
          fun hkind hrec hread => ⟨fun hreason => gives_of_withDev hexec (Dev.projRun_refused hhead hkind hrec hread hreason),
            fun hreason hwork => gives_of_withDev hexec (Dev.projRun_done hhead hkind hrec hread hreason hwork),
            fun hreason hwork => gives_of_withDev hexec (Dev.projRun_failed hhead hkind hrec hread hreason hwork)⟩,
          fun hkind hrec hread => gives_of_withDev hexec (Dev.projRun_unread hhead hkind hrec hread)⟩⟩
    have sieve : ∀ kind i work, exec i s = s.withDev (fun d => d.sieveRun kind work) → run1 kind i work := fun kind i work hexec =>
      ⟨fun hhead => idle_of_withDev hexec (Dev.sieveRun_none hhead), fun hhead =>
        ⟨fun hkind => idle_of_withDev hexec (Dev.sieveRun_other hhead hkind), fun hrec => idle_of_withDev hexec (Dev.sieveRun_recovering hhead hrec),
          fun hkind hrec hwork => gives_of_withDev hexec (Dev.sieveRun_ran hhead hkind hrec hwork)⟩⟩
    exact ⟨projection _ _ _ (exec_project s), projection _ _ _ (exec_projClear s), sieve _ _ _ (exec_sweep s), sieve _ _ _ (exec_rules s),
      sieve _ _ _ (exec_gather s), sieve _ _ _ (exec_scatterAdd s)⟩
  case ends =>
    intro s j b d e named
    refine ⟨fun hnone => idle_of_withDev (exec_projJobEnd s) (by simp only [hnone]), fun hhead => ?projection,
      fun hnone => idle_of_withDev (exec_sieveJobEnd s) (by simp only [hnone]), fun hhead => ?sieve⟩
    case projection =>
      have gives {t : Dev} : s.dev.projEnd j = t → Gives .projJobEnd s t := gives_of_eq (projJobEnd_gives hhead)
      exact ⟨fun hres => gives (Dev.projEnd_done hres), fun c cs hres hgen hnotes => gives (Dev.projEnd_camera hres hgen hnotes),
        fun hres hgen hnotes => gives (Dev.projEnd_free hres hgen hnotes)⟩
    case sieve =>
      have gives {t : Dev} : s.dev.sieveEnd j = t → Gives .sieveJobEnd s t := gives_of_eq (sieveJobEnd_gives hhead)
      exact ⟨fun hres hkind => gives (Dev.sieveEnd_done hres hkind),
        fun hres hkind hnotes hread hwrite hwhole => gives (Dev.sieveEnd_written hres hkind hnotes hread hwrite hwhole),
        fun hres hgen => gives (Dev.sieveEnd_failed hres hgen)⟩

end Sys2Proof.Machine
end

section
/-! PROOFS. Reads of the Steward (R95): what its next bundle reads after a result was put in flight. The read gives the result where the registers
are in canonical form, and only there. -/

namespace Sys2Proof.Machine

/-- A core with a result in flight is no core at rest, so the map of cores holds it. -/
theorem Dev.plough_result (d : Dev) (n slot lat : Nat) (dst : Dest) : (d.result n slot lat dst).plough n =
    { d.plough n with pend := (d.plough n).pend ++ [⟨d.coreClock n + lat, d.coreClock n, slot, dst⟩] } := by
  have hne : ∀ pl : Plough, ∀ x, { pl with pend := pl.pend ++ [x] } ≠ ({} : Plough) := fun pl x h => by
    simpa using congrArg Plough.pend h
  unfold Dev.result Dev.updPlough Dev.plough SMap.modify SMap.set
  dsimp only
  rw [if_neg (hne _ _)]
  exact SMap.get_insert_same _ _ _ _

/-- The Steward's next bundle reads a register as the write of the result leaves it, whatever the result's latency (R95). -/
theorem rdS_pview_result_steward {d : Dev} (hpend : (d.plough stewCore).pend = []) (slot lat r : Nat) (x : BitVec 64) :
    let e := d.result stewCore slot lat (.scalar r x)
    (({ e with stew := { e.stew with idx := e.stew.idx + 1 } } : Dev).pview stewCore).rdS r = ((d.plough stewCore).wrS r x).rdS r := by
  intro e
  have hview : ({ e with stew := { e.stew with idx := e.stew.idx + 1 } } : Dev).pview stewCore = (e.plough stewCore).interlocked (d.stew.idx + 1) := rfl
  have hlands : (e.plough stewCore).interlocked (d.stew.idx + 1) = (e.plough stewCore).wrS r x := by
    have hissue : d.coreClock stewCore = d.stew.idx := rfl
    simp [e, Dev.plough_result, hpend, hissue, Plough.interlocked, sortPend, insertPend, Plough.land]
  rw [hview, hlands, Dev.plough_result]
  unfold Plough.wrS Plough.rdS
  split <;> rfl

/-- Where the register file is in canonical form that is the result: so much of O60's clause on the Steward's reads holds. -/
theorem rdS_pview_result_steward_canonical {d : Dev} (hpend : (d.plough stewCore).pend = []) (hwf : SMap.wf (fun _ => 0) (d.plough stewCore).s = true)
    (slot lat : Nat) {r : Nat} (hr : r ≠ 0) (x : BitVec 64) :
    let e := d.result stewCore slot lat (.scalar r x)
    (({ e with stew := { e.stew with idx := e.stew.idx + 1 } } : Dev).pview stewCore).rdS r = x := by
  refine (rdS_pview_result_steward hpend slot lat r x).trans ?_
  simp only [Plough.wrS, Plough.rdS, if_neg hr]
  exact SMap.get_set_same _ r x hwf

/-- Refutes O60: the statement asks for no canonical form. Where the Steward's register file lists s1 twice, which a write never makes of a
canonical one (`SMap.wf_set`), a zero that lands in s1 removes one entry and the read finds the other. -/
theorem not_stewardSubset : ¬ Obligations.StewardSubset := by
  rintro ⟨-, hreads⟩
  have hzero := (hreads { ploughs := [(stewCore, { s := [(1, 5), (1, 7)] })] } 0 1 1 0 (by decide) (by decide) (by decide)).1 rfl
  have hseven := rdS_pview_result_steward (d := { ploughs := [(stewCore, { s := [(1, 5), (1, 7)] })] }) rfl 0 1 1 0
  exact absurd (hseven.symm.trans hzero) (by decide)

end Sys2Proof.Machine
end

section
/-! PROOFS. The vector slot (R134–R139): what its shared operations put in flight, comparisons, broadcast, reductions, the permutation network
and VCVT. -/

namespace Sys2Proof.Machine

open Sys2Proof.Safety

section
variable {i : Instr} {s : State} {p : BitVec 4} {w : BitVec 64} {lat : Nat}

/-! ### The shared operations -/

/-- The state that a command gives with one more result of a plough in flight. -/
theorem withResult_of_gives {slot : Nat} {dst : Dest} (h : Gives i s (s.dev.result p.toNat slot lat dst)) :
    exec i s = withResult s (.plough p) slot lat dst := by
  rw [withResult_eq_withDev]
  exact h

/-- A lane operation on a lane type it has puts its lanes in flight to vd (R135, R136). -/
theorem vecOp_executes {okT : Nat → Bool} {okW : Bool} {f : Nat → Nat → Nat → Nat → Nat}
    (hexec : exec i s = s.withDev (vecOp (.plough p) w lat okT okW f)) (hx : Executes s (.plough p) w) (hword : okW = true)
    (hlane : laneW (fLt w) ≠ 0) (htype : okT (fLt w) = true) :
    exec i s = withResult s (.plough p) slotV lat (.vec (vVd w) (ofLanes (laneW (fLt w)) ((List.range (8192 / laneW (fLt w))).map fun k =>
      f (fLt w) (Fp.elemAt ((s.dev.pview p.toNat).rdV (vVa w)).toNat (laneW (fLt w)) k)
        (Fp.elemAt ((s.dev.pview p.toNat).rdV (vVb w)).toNat (laneW (fLt w)) k)
        (Fp.elemAt ((s.dev.pview p.toNat).rdV (vVc w)).toNat (laneW (fLt w)) k)))) := by
  have hok : (okW && laneW (fLt w) != 0 && okT (fLt w)) = true := by simp [hword, hlane, htype]
  exact withResult_of_gives (ploughRun_gives hexec hx hok)

/-- An operation that finds the permutation network free in clock issue + 2 takes it for that clock, and puts its lanes in flight to vd
(R129, R131). -/
theorem networkOp_gives_free {okBits : Bool} {f : Plough → List Nat} (hexec : exec i s = s.withDev (networkOp (.plough p) w okBits lat f))
    (hx : Executes s (.plough p) w) (hbits : okBits = true) (hlane : laneW (fLt w) ≠ 0)
    (hfree : (s.dev.plough p.toNat).busy 7 0 (s.dev.cclk + 2) (s.dev.cclk + 3) = false) :
    Gives i s ((s.dev.occupy p.toNat 7 0 (s.dev.cclk + 2) (s.dev.cclk + 3)).result p.toNat slotV lat
      (.vec (vVd w) (ofLanes 64 (f (s.dev.pview p.toNat))))) := by
  have hok : (okBits && laneW (fLt w) != 0) = true := by simp [hbits, hlane]
  exact gives_of_eq (ploughRun_gives hexec hx hok) (if_neg (Bool.eq_false_iff.mp hfree))

theorem exec_vcmp (p : Runner) (w : BitVec 64) (s : State) : exec (.vcmp p w) s = s.withDev (vecOp p w 2
    (fun lt => if Fp.fmtInt lt then decide (wf' w 15 4 ≤ 9) else decide (wf' w 15 4 ≤ 5)) (zeros w [(0, 15)])
    fun lt a b _ => laneCmp lt (wf' w 15 4) a b) := rfl

theorem exec_vperm (p : Runner) (w : BitVec 64) (s : State) : exec (.vperm p w) s =
    s.withDev (networkOp p w (vPlain w) 20 fun v => permLanes (v.rdV (vVa w)) (v.rdV (vVb w))) := rfl

theorem exec_vrot (p : Runner) (w : BitVec 64) (s : State) : exec (.vrot p w) s = s.withDev (networkOp p w (zeros w [(0, 12)]) 15 fun v =>
    (List.range 128).map fun i => Fp.elemAt (v.rdV (vVa w)).toNat 64 ((i + wf' w 12 7) % 128)) := rfl

/-! ### The operations whose reserved bits and codes are their own -/

/-- VCMP has the condition codes of R69 on integer lanes and the first six of them on floating lanes. -/
theorem vcmp_executes (hx : Executes s (.plough p) w) (hzero : zeros w [(0, 15)] = true) (hlane : laneW (fLt w) ≠ 0)
    (hcond : wf' w 15 4 ≤ (if Fp.fmtInt (fLt w) then 9 else 5)) :
    exec (.vcmp (.plough p) w) s = withResult s (.plough p) slotV 2 (.vec (vVd w) (ofLanes (laneW (fLt w))
      ((List.range (8192 / laneW (fLt w))).map fun k => laneCmp (fLt w) (wf' w 15 4)
        (Fp.elemAt ((s.dev.pview p.toNat).rdV (vVa w)).toNat (laneW (fLt w)) k)
        (Fp.elemAt ((s.dev.pview p.toNat).rdV (vVb w)).toNat (laneW (fLt w)) k)))) := by
  refine vecOp_executes (exec_vcmp ..) hx hzero hlane ?_
  split at hcond
  case isTrue hint => exact (if_pos hint).trans (decide_eq_true hcond)
  case isFalse hfloat => exact (if_neg hfloat).trans (decide_eq_true hcond)

/-- VBCAST puts the low bits of its scalar register in flight in every lane. -/
theorem vbcast_executes (hx : Executes s (.plough p) w) (hzero : zeros w [(0, 13)] = true) (hlane : laneW (fLt w) ≠ 0) :
    exec (.vbcast (.plough p) w) s = withResult s (.plough p) slotV 2 (.vec (vVd w) (ofLanes (laneW (fLt w))
      (List.replicate (8192 / laneW (fLt w)) (((s.dev.pview p.toNat).rdS (wf' w 13 6)).toNat % 2 ^ laneW (fLt w))))) := by
  have hok : (zeros w [(0, 13)] && laneW (fLt w) != 0) = true := by simp [hzero, hlane]
  exact withResult_of_gives (gives_of_eq (ploughRun_gives rfl hx hok) rfl)

/-- VRED reduces groups of 2 to 256 lanes of FP32 or INT32, three clocks for each level of the tree (R137). -/
theorem vred_executes (hx : Executes s (.plough p) w) (hzero : zeros w [(0, 13)] = true) (htype : fLt w = 0 ∨ fLt w = 8)
    (hop : wf' w 17 2 ≠ 3) (hlow : 1 ≤ wf' w 13 4) (hhigh : wf' w 13 4 ≤ 8) :
    exec (.vred (.plough p) w) s = withResult s (.plough p) slotV (4 + 3 * wf' w 13 4) (.vec (vVd w) (ofLanes 32
      ((List.range (256 / 2 ^ wf' w 13 4)).map fun k => redTree (redOp (fLt w) (wf' w 17 2)) (wf' w 13 4)
        (((lanesOf 32 ((s.dev.pview p.toNat).rdV (vVa w))).drop (k * 2 ^ wf' w 13 4)).take (2 ^ wf' w 13 4))))) := by
  have hok : (zeros w [(0, 13)] && (fLt w == 0 || fLt w == 8) && wf' w 17 2 != 3 && decide (1 ≤ wf' w 13 4) && decide (wf' w 13 4 ≤ 8)) = true := by
    simp [hzero, htype, hop, hlow, hhigh]
  exact withResult_of_gives (gives_of_eq (ploughRun_gives rfl hx hok) rfl)

/-- The word of a VCVT between two formats that it has, with a rounding mode of R108 and block scaling only into a format that has it
(R138, R139), is legal. -/
theorem vcvt_word_ok (hzero : zeros w [(0, 18)] = true) (hsrc : Fp.fmtValid (fLt w) = true) (hsrc12 : fLt w ≠ 12)
    (hdst : Fp.fmtValid (field (vCc w) 0 4) = true) (hround : field (vCc w) 4 3 ≤ 4)
    (hmx : w.getLsbD 18 = true → Fp.fmtMx (field (vCc w) 0 4) = true) :
    (zeros w [(0, 18)] && Fp.fmtValid (fLt w) && fLt w != 12 && Fp.fmtValid (field (vCc w) 0 4) && decide (field (vCc w) 4 3 ≤ 4) &&
      (!w.getLsbD 18 || Fp.fmtMx (field (vCc w) 0 4))) = true := by
  have hscaled : w.getLsbD 18 = false ∨ Fp.fmtMx (field (vCc w) 0 4) = true := by
    cases hbit : w.getLsbD 18 with
    | false => exact .inl rfl
    | true => exact .inr (hmx hbit)
  simp only [Bool.and_eq_true, Bool.or_eq_true, Bool.not_eq_true', bne_iff_ne, decide_eq_true_eq]
  exact ⟨⟨⟨⟨⟨hzero, hsrc⟩, hsrc12⟩, hdst⟩, hround⟩, hscaled⟩

end

/-! ### The obligation -/

/-- Settles O13: each operation by its shared operation, once its reserved bits and codes are those that the statement names. -/
theorem vectorNetworkAndConversions : Obligations.VectorNetworkAndConversions := by
  refine ⟨fun s p w hx => ⟨fun hzero hlane hcond => ?vcmp, fun hzero hlane => ?vbcast, fun hzero htype hop hlow hhigh => ?vred,
    fun hzero hlane hfree => ?vperm, fun hzero hlane hfree => ?vrot⟩, ?vcvt⟩
  case vcmp => exact vcmp_executes hx hzero hlane hcond
  case vbcast => exact vbcast_executes hx hzero hlane
  case vred => exact vred_executes hx hzero htype hop hlow hhigh
  case vperm => exact (networkOp_gives_free (exec_vperm (.plough p) w s) hx hzero hlane hfree :)
  case vrot => exact (networkOp_gives_free (exec_vrot (.plough p) w s) hx hzero hlane hfree :)
  case vcvt =>
    intro s p w hx hzero d lt fmt rm mx src count vals vals' d' r d1 d2 hsrc hsrc12 hdst hround hmx
    exact gives_of_eq (ploughRun_gives rfl hx (vcvt_word_ok hzero hsrc hsrc12 hdst hround hmx)) rfl

end Sys2Proof.Machine
end

section
/-! PROOFS. The lane operations of the vector slot on integer lanes (R135): each lane is a word of the lane's width, and what the model computes
on the integers of two lanes is the operation on their words. -/

namespace Sys2Proof.Machine

open Sys2Proof.Safety

/-! ### Lanes as words (R16, R134) -/

/-- The elements of a packed register are those of its words. -/
theorem toNat_ofNat_elemAt (x n k : Nat) : (BitVec.ofNat n (Fp.elemAt x n k)).toNat = Fp.elemAt x n k := by
  simp [Fp.elemAt]

/-- Taking an integer modulo the width is taking its word. -/
theorem ofSigned_eq_toNat_ofInt (n : Nat) (i : Int) : ofSigned n i = (BitVec.ofInt n i).toNat :=
  (BitVec.toNat_ofInt i).symm

/-- A lane read as a signed number is its word read so. -/
theorem toSigned_toNat {n : Nat} (hn : n ≠ 0) (x : BitVec n) : toSigned n x.toNat = x.toInt := by
  rw [← toInt_ofNat_eq_toSigned (Nat.pos_of_ne_zero hn), BitVec.ofNat_toNat, BitVec.setWidth_eq]

/-- An operation on signed integer lanes gives the word of its result on the integers of the words. -/
theorem lane2_toNat {lt : Nat} (hint : Fp.fmtInt lt = true) (hlane : laneW lt ≠ 0) (ff : Fp.FVal → Fp.FVal → Fp.FVal) (fi : Int → Int → Int)
    (x y : BitVec (laneW lt)) : lane2 lt ff fi x.toNat y.toNat = (BitVec.ofInt (laneW lt) (fi x.toInt y.toInt)).toNat := by
  rw [lane2, if_pos hint, toSigned_toNat hlane, toSigned_toNat hlane, ofSigned_eq_toNat_ofInt]

section
variable {n : Nat} (x y : BitVec n)

theorem ofInt_toInt_add : BitVec.ofInt n (x.toInt + y.toInt) = x + y := by
  rw [BitVec.ofInt_add, BitVec.ofInt_toInt, BitVec.ofInt_toInt]

theorem ofInt_toInt_sub : BitVec.ofInt n (x.toInt - y.toInt) = x - y := by
  rw [Int.sub_eq_add_neg, BitVec.ofInt_add, BitVec.ofInt_neg, BitVec.ofInt_toInt, BitVec.ofInt_toInt, BitVec.sub_eq_add_neg]

theorem ofInt_toInt_mul : BitVec.ofInt n (x.toInt * y.toInt) = x * y := by
  rw [BitVec.ofInt_mul, BitVec.ofInt_toInt, BitVec.ofInt_toInt]

theorem ofInt_toInt_neg : BitVec.ofInt n (-x.toInt) = -x := by
  rw [BitVec.ofInt_neg, BitVec.ofInt_toInt]

theorem ofInt_min_toInt : BitVec.ofInt n (min x.toInt y.toInt) = if x.sle y then x else y := by
  simp only [Int.min_def, ← BitVec.sle_iff_toInt_le, apply_ite (BitVec.ofInt n), BitVec.ofInt_toInt]

theorem ofInt_max_toInt : BitVec.ofInt n (max x.toInt y.toInt) = if x.sle y then y else x := by
  simp only [Int.max_def, ← BitVec.sle_iff_toInt_le, apply_ite (BitVec.ofInt n), BitVec.ofInt_toInt]

/-- The least integer of the width is its own negation, so its magnitude is the word itself (R135). -/
theorem ofInt_abs_toInt : BitVec.ofInt n (if x.toInt < 0 then -x.toInt else x.toInt) = if x.msb then -x else x := by
  simp only [BitVec.msb_eq_toInt, decide_eq_true_eq, apply_ite (BitVec.ofInt n), BitVec.ofInt_neg, BitVec.ofInt_toInt]

/-- An arithmetic right shift divides and rounds down. -/
theorem ofInt_toInt_div_two_pow (k : Nat) : BitVec.ofInt n (x.toInt / 2 ^ k) = x.sshiftRight k := by
  rw [BitVec.sshiftRight, Int.shiftRight_eq_div_pow]
  norm_cast

end

/-! ### What the operations do -/

section
variable (p : Runner) (w : BitVec 64) (s : State)

theorem exec_vadd : exec (.vadd p w) s = s.withDev (vecOp p w 3 ltAll (vPlain w) fun lt a b _ => lane2 lt Fp.addV (· + ·) a b) := rfl
theorem exec_vsub : exec (.vsub p w) s =
    s.withDev (vecOp p w 3 ltAll (vPlain w) fun lt a b _ => lane2 lt (fun x y => Fp.addV x (Fp.negV y)) (· - ·) a b) := rfl
theorem exec_vmul : exec (.vmul p w) s = s.withDev (vecOp p w 3 ltAll (vPlain w) fun lt a b _ => lane2 lt Fp.mulV (· * ·) a b) := rfl
theorem exec_vmin : exec (.vmin p w) s = s.withDev (vecOp p w 2 ltAll (vPlain w) fun lt a b _ => lane2 lt Fp.minV min a b) := rfl
theorem exec_vmax : exec (.vmax p w) s = s.withDev (vecOp p w 2 ltAll (vPlain w) fun lt a b _ => lane2 lt Fp.maxV max a b) := rfl
theorem exec_vabs : exec (.vabs p w) s =
    s.withDev (vecOp p w 2 ltAll (vPlain w) fun lt a _ _ => lane2 lt (fun x _ => absV x) (fun x _ => if x < 0 then -x else x) a 0) := rfl
theorem exec_vneg : exec (.vneg p w) s =
    s.withDev (vecOp p w 2 ltAll (vPlain w) fun lt a _ _ => lane2 lt (fun x _ => Fp.negV x) (fun x _ => -x) a 0) := rfl
theorem exec_vand : exec (.vand p w) s = s.withDev (vecOp p w 1 ltInt (vPlain w) fun _ a b _ => a &&& b) := rfl
theorem exec_vor : exec (.vor p w) s = s.withDev (vecOp p w 1 ltInt (vPlain w) fun _ a b _ => a ||| b) := rfl
theorem exec_vxor : exec (.vxor p w) s = s.withDev (vecOp p w 1 ltInt (vPlain w) fun _ a b _ => a ^^^ b) := rfl
theorem exec_vshl : exec (.vshl p w) s =
    s.withDev (vecOp p w 1 ltInt (vPlain w) fun lt a b _ => (a <<< (b % laneW lt)) % 2 ^ laneW lt) := rfl
theorem exec_vsra : exec (.vsra p w) s =
    s.withDev (vecOp p w 1 ltInt (vPlain w) fun lt a b _ => ofSigned (laneW lt) (toSigned (laneW lt) a / 2 ^ (b % laneW lt))) := rfl
theorem exec_vsel : exec (.vsel p w) s = s.withDev (vecOp p w 2 ltAll (vPlain w) fun _ a b c => if c = 0 then b else a) := rfl

end

section
variable {i : Instr} {s : State} {p : BitVec 4} {w : BitVec 64} {lat : Nat}

/-- A lane operation that computes a word from the words of its lanes puts those words in flight to vd. -/
theorem vecOp_words {okT : Nat → Bool} {f : Nat → Nat → Nat → Nat → Nat}
    {g : BitVec (laneW (fLt w)) → BitVec (laneW (fLt w)) → BitVec (laneW (fLt w)) → BitVec (laneW (fLt w))}
    (hx : Executes s (.plough p) w) (hzero : zeros w [(0, 19)] = true) (hlane : laneW (fLt w) ≠ 0)
    (hexec : exec i s = s.withDev (vecOp (.plough p) w lat okT (vPlain w) f)) (htype : okT (fLt w) = true)
    (hword : ∀ x y z, f (fLt w) x.toNat y.toNat z.toNat = (g x y z).toNat) :
    let lane := fun (r k : Nat) => BitVec.ofNat (laneW (fLt w)) (Fp.elemAt ((s.dev.pview p.toNat).rdV r).toNat (laneW (fLt w)) k)
    exec i s = withResult s (.plough p) slotV lat (.vec (vVd w) (ofLanes (laneW (fLt w)) ((List.range (8192 / laneW (fLt w))).map fun k =>
      (g (lane (vVa w) k) (lane (vVb w) k) (lane (vVc w) k)).toNat))) := by
  simp only [← hword, toNat_ofNat_elemAt]
  exact vecOp_executes hexec hx hzero hlane htype

end

/-! ### The obligation -/

/-- Settles O11: each operation computes the word of a lane from the words of its lanes. -/
theorem vectorIntegerLanes : Obligations.VectorIntegerLanes := by
  intro s p w hx hzero hint hlane v n lane put
  have words {i : Instr} {lat : Nat} {okT : Nat → Bool} {f : Nat → Nat → Nat → Nat → Nat} {g : BitVec n → BitVec n → BitVec n → BitVec n}
      (hexec : exec i s = s.withDev (vecOp (.plough p) w lat okT (vPlain w) f)) (htype : okT (fLt w) = true)
      (hword : ∀ x y z, f (fLt w) x.toNat y.toNat z.toNat = (g x y z).toNat) : put i lat g := vecOp_words hx hzero hlane hexec htype hword
  have signed {ff : Fp.FVal → Fp.FVal → Fp.FVal} {fi : Int → Int → Int} {x y r : BitVec n} (h : BitVec.ofInt n (fi x.toInt y.toInt) = r) :
      lane2 (fLt w) ff fi x.toNat y.toNat = r.toNat := h ▸ lane2_toNat hint hlane ff fi x y
  clear_value put
  refine ⟨?vadd, ?vsub, ?vmul, ?vmin, ?vmax, ?vabs, ?vneg, ?vand, ?vor, ?vxor, ?vshl, ?vsra, ?vsel⟩
  case vadd => exact words (exec_vadd ..) rfl fun x y _ => signed (ofInt_toInt_add x y)
  case vsub => exact words (exec_vsub ..) rfl fun x y _ => signed (ofInt_toInt_sub x y)
  case vmul => exact words (exec_vmul ..) rfl fun x y _ => signed (ofInt_toInt_mul x y)
  case vmin => exact words (exec_vmin ..) rfl fun x y _ => signed (ofInt_min_toInt x y)
  case vmax => exact words (exec_vmax ..) rfl fun x y _ => signed (ofInt_max_toInt x y)
  case vabs => exact words (exec_vabs ..) rfl fun x _ _ => signed (y := 0) (ofInt_abs_toInt x)
  case vneg => exact words (exec_vneg ..) rfl fun x _ _ => signed (y := 0) (ofInt_toInt_neg x)
  case vand => exact words (exec_vand ..) hint fun x y _ => (BitVec.toNat_and x y).symm
  case vor => exact words (exec_vor ..) hint fun x y _ => (BitVec.toNat_or x y).symm
  case vxor => exact words (exec_vxor ..) hint fun x y _ => (BitVec.toNat_xor x y).symm
  case vshl => exact words (exec_vshl ..) hint fun x y _ => BitVec.toNat_shiftLeft.symm
  case vsra =>
    refine words (exec_vsra ..) hint fun x y _ => ?_
    rw [toSigned_toNat hlane, ofSigned_eq_toNat_ofInt, ofInt_toInt_div_two_pow]
  case vsel =>
    refine words (exec_vsel ..) rfl fun x y z => ?_
    simp only [apply_ite BitVec.toNat, ← BitVec.toNat_inj, BitVec.ofNat_eq_ofNat, BitVec.toNat_ofNat, Nat.zero_mod]

end Sys2Proof.Machine
end

section
/-! PROOFS. The lane operations of the vector slot on floating lanes (R136): each lane is an exact value rounded once. -/

namespace Sys2Proof.Machine

open Sys2Proof.Safety

/-! ### What the operations do that integer lanes do not have -/

section
variable (p : Runner) (w : BitVec 64) (s : State)

theorem exec_vfma : exec (.vfma p w) s = s.withDev (vecOp p w 4 ltFloat (vPlain w) fun lt a b c =>
    laneRound lt (Fp.addV (Fp.mulV (laneVal lt a) (laneVal lt b)) (laneVal lt c))) := rfl
theorem exec_vexp2 : exec (.vexp2 p w) s =
    s.withDev (vecOp p w 12 ltF32 (vPlain w) fun lt a _ _ => laneRound lt (Fp.exp2V (laneVal lt a))) := rfl
theorem exec_vlog2 : exec (.vlog2 p w) s =
    s.withDev (vecOp p w 12 ltF32 (vPlain w) fun lt a _ _ => laneRound lt (Fp.log2V (laneVal lt a))) := rfl
theorem exec_vrcp : exec (.vrcp p w) s =
    s.withDev (vecOp p w 12 ltF32 (vPlain w) fun lt a _ _ => laneRound lt (rcpV (laneVal lt a))) := rfl
theorem exec_vrsqrt : exec (.vrsqrt p w) s =
    s.withDev (vecOp p w 12 ltF32 (vPlain w) fun lt a _ _ => laneRound lt (Fp.rsqrtV (laneVal lt a))) := rfl
theorem exec_vsqrt : exec (.vsqrt p w) s =
    s.withDev (vecOp p w 12 ltF32 (vPlain w) fun lt a _ _ => laneRound lt (Fp.sqrtV (laneVal lt a))) := rfl

end

/-- An operation on floating lanes rounds its exact result. -/
theorem lane2_float {lt : Nat} (hfloat : Fp.fmtInt lt = false) (ff : Fp.FVal → Fp.FVal → Fp.FVal) (fi : Int → Int → Int) (a b : Nat) :
    lane2 lt ff fi a b = laneRound lt (ff (laneVal lt a) (laneVal lt b)) :=
  if_neg (Bool.eq_false_iff.mp hfloat)

section
variable {i : Instr} {s : State} {p : BitVec 4} {w : BitVec 64} {lat : Nat}

/-- A lane operation that rounds an exact value of its lanes puts the rounded values in flight to vd. -/
theorem vecOp_rounds {okT : Nat → Bool} {f : Nat → Nat → Nat → Nat → Nat} {g : Fp.FVal → Fp.FVal → Fp.FVal → Fp.FVal}
    (hx : Executes s (.plough p) w) (hzero : zeros w [(0, 19)] = true) (hlane : laneW (fLt w) ≠ 0)
    (hexec : exec i s = s.withDev (vecOp (.plough p) w lat okT (vPlain w) f)) (htype : okT (fLt w) = true)
    (hround : ∀ a b c, f (fLt w) a b c = laneRound (fLt w) (g (laneVal (fLt w) a) (laneVal (fLt w) b) (laneVal (fLt w) c))) :
    let lane := fun (r k : Nat) => laneVal (fLt w) (Fp.elemAt ((s.dev.pview p.toNat).rdV r).toNat (laneW (fLt w)) k)
    exec i s = withResult s (.plough p) slotV lat (.vec (vVd w) (ofLanes (laneW (fLt w)) ((List.range (8192 / laneW (fLt w))).map fun k =>
      laneRound (fLt w) (g (lane (vVa w) k) (lane (vVb w) k) (lane (vVc w) k))))) := by
  simp only [← hround]
  exact vecOp_executes hexec hx hzero hlane htype

end

/-! ### The obligation -/

/-- Settles O12: each operation rounds an exact value of its lanes, those of a function on lanes of FP32 only. -/
theorem vectorFloatLanes : Obligations.VectorFloatLanes := by
  intro s p w hx hzero hfloat hlane v lt n lane put
  have rounds {i : Instr} {lat : Nat} {okT : Nat → Bool} {f : Nat → Nat → Nat → Nat → Nat} {g : Fp.FVal → Fp.FVal → Fp.FVal → Fp.FVal}
      (hexec : exec i s = s.withDev (vecOp (.plough p) w lat okT (vPlain w) f)) (htype : okT lt = true)
      (hround : ∀ a b c, f lt a b c = laneRound lt (g (laneVal lt a) (laneVal lt b) (laneVal lt c))) : put i lat g :=
    vecOp_rounds hx hzero hlane hexec htype hround
  clear_value put
  have floating : ltFloat lt = true := congrArg not hfloat
  refine ⟨?vadd, ?vsub, ?vmul, ?vfma, ?vmin, ?vmax, ?vabs, ?vneg, fun hfp32 => ?functions⟩
  case vadd => exact rounds (exec_vadd ..) rfl fun a b _ => lane2_float hfloat _ _ a b
  case vsub => exact rounds (exec_vsub ..) rfl fun a b _ => lane2_float hfloat _ _ a b
  case vmul => exact rounds (exec_vmul ..) rfl fun a b _ => lane2_float hfloat _ _ a b
  case vfma => exact rounds (exec_vfma ..) floating fun _ _ _ => rfl
  case vmin => exact rounds (exec_vmin ..) rfl fun a b _ => lane2_float hfloat _ _ a b
  case vmax => exact rounds (exec_vmax ..) rfl fun a b _ => lane2_float hfloat _ _ a b
  case vabs => exact rounds (exec_vabs ..) rfl fun a _ _ => lane2_float hfloat _ _ a 0
  case vneg => exact rounds (exec_vneg ..) rfl fun a _ _ => lane2_float hfloat _ _ a 0
  case functions =>
    have fp32 : ltF32 lt = true := beq_iff_eq.mpr hfp32
    exact ⟨rounds (exec_vexp2 ..) fp32 fun _ _ _ => rfl, rounds (exec_vlog2 ..) fp32 fun _ _ _ => rfl,
      rounds (exec_vrcp ..) fp32 fun _ _ _ => rfl, rounds (exec_vrsqrt ..) fp32 fun _ _ _ => rfl,
      rounds (exec_vsqrt ..) fp32 fun _ _ _ => rfl⟩

end Sys2Proof.Machine
end

section
/-! PROOFS. The matrix unit (R116–R133): tiles and rows that are loaded, the steps of an MMA with the integer sums of INT8, and what an
MDRAIN leaves alone at issue. -/

namespace Sys2Proof.Machine

open Sys2Proof.Safety

section
variable (p : Runner) (l1 : Bool) (w : BitVec 64) (s : State)

theorem exec_vldt : exec (.vldt p l1 w) s = execVldt p l1 w s := rfl
theorem exec_mldw : exec (.mldw p l1 w) s = execMldw p l1 w s := rfl
theorem exec_mma : exec (.mma p w) s = execMma p w s := rfl
theorem exec_mdrain : exec (.mdrain p w) s = execMdrain p w s := rfl

end

/-! ### Loads of several ranges (R119–R121) -/

/-- A load of several ranges takes the Barn port that it needs and changes no mode. -/
theorem takeBarn_loadsAll {s : State} {p : BitVec 4} {ranges : List (Nat × Nat)} {port : Nat} {keys : List (Nat × Pieces)}
    {bss : List (List Byte)} {d : Dev} (h : LoadsAll s p ranges port keys bss d) (slot : Nat) (k : Dev → Dev) :
    (s.dev.takeBarn p.toNat slot (anyBarn keys) port fun e => e.withProvLoads p.toNat slot k (allPtes keys)) =
      k (portTaken s.dev p (anyBarn keys) port) := by
  obtain ⟨-, hfree, hplain, -⟩ := h
  rw [takeBarn_free hfree, withProvLoads_plain hplain]

/-! ### The sums of a step (R110, R117) -/

/-- Adding up in turn is the sum. -/
theorem foldl_add_eq_sum {α : Type} (f : α → Int) (l : List α) : l.foldl (fun s x => s + f x) 0 = (l.map f).sum := by
  rw [List.sum_eq_foldl, List.foldl_map]

/-- A step of INT8 adds the products of the integers of a row with those of each column of the tile. -/
theorem stepSums_int8 {b : WBuf} (hfmt : b.fmt = 10) (arow ascale : Nat) :
    stepSums 10 false arow ascale b = (List.range 128).map fun c =>
      .int ((List.range 128).map fun k => toSigned 8 (Fp.elemAt arow 8 k) * toSigned 8 (b.elems.getD (128 * k + c) 0)).sum := by
  simp only [stepSums, hfmt]
  rw [if_pos (show pairInt 10 false = true from rfl)]
  refine List.map_congr_left fun c _ => ?_
  rw [foldl_add_eq_sum]
  refine congrArg (fun l : List Int => StepSum.int l.sum) (List.map_congr_left fun k hk => ?_)
  have hk : k < 128 := List.mem_range.mp hk
  simp [Array.getD_eq_getD_getElem?, hk, stepK, Fp.fmtBits]

/-! ### What an MDRAIN leaves alone (R125–R127) -/

/-- A device has the memory and the registers of another. -/
def Dev.SameMemRegs (e d : Dev) : Prop := e.mem = d.mem ∧ e.regs = d.regs

namespace Dev.SameMemRegs

theorem refl (d : Dev) : d.SameMemRegs d := ⟨rfl, rfl⟩

/-- Steps that keep memory and the registers keep them together. -/
theorem of_foldl {α : Type} {d e : Dev} {f : Dev → α → Dev} (hf : ∀ e x, e.SameMemRegs d → (f e x).SameMemRegs d) (l : List α)
    (h : e.SameMemRegs d) : (l.foldl f e).SameMemRegs d :=
  List.foldlRecOn (motive := fun e => e.SameMemRegs d) l f h fun e he x _ => hf e x he

section
variable {d e : Dev} (h : e.SameMemRegs d)
include h

/-- A change of a plough keeps them. -/
theorem updPlough (n : Nat) (f : Plough → Plough) : (e.updPlough n f).SameMemRegs d := h

theorem result (n slot lat : Nat) (x : Dest) : (e.result n slot lat x).SameMemRegs d := h.updPlough ..

theorem occupy (n res sub lo hi : Nat) : (e.occupy n res sub lo hi).SameMemRegs d := h.updPlough ..

/-- A region that opens changes the Hedge only. -/
theorem ploughOpen (n : Nat) (pte : BitVec 64) : (e.ploughOpen n pte).SameMemRegs d := by
  unfold Dev.ploughOpen Dev.openRegion
  split
  · split
    · exact h
    · exact h
  · exact h

theorem drainTo (n lat vis : Nat) (range : Nat × Pieces) (bs : List Byte) : (e.drainTo n lat vis range bs).SameMemRegs d :=
  of_foldl (fun _ _ h => h.result ..) _ h

/-- A step that is taken or left keeps them. -/
theorem of_ite {f : Dev} {c : Prop} [Decidable c] (g : f.SameMemRegs d) : (if c then e else f).SameMemRegs d := by
  split
  · exact h
  · exact g

end

end Dev.SameMemRegs

open Dev.SameMemRegs in
/-- What an MDRAIN holds is a plough's. -/
theorem Drain.occupy_sameMemRegs {d e : Dev} (h : e.SameMemRegs d) (x : Drain) (n : Nat) (barn : Bool) : (x.occupy e n barn).SameMemRegs d := by
  unfold Drain.occupy
  extract_lets now first bank input output transposed
  have houtput : output.SameMemRegs d := ((h.occupy ..).occupy ..).occupy ..
  have htransposed : transposed.SameMemRegs d := of_ite ((houtput.occupy ..).occupy ..) houtput
  exact of_ite (htransposed.occupy ..) htransposed

open Dev.SameMemRegs in
/-- The rows, scales, clears and counts of an MDRAIN are put in flight, and change neither memory nor a register at issue. -/
theorem Drain.run_sameMemRegs (x : Drain) (d : Dev) (n : Nat) (v : Plough) (keys : List (Nat × Pieces)) : (x.run d n v keys).SameMemRegs d := by
  unfold Drain.run
  extract_lets barn conv now send opened held rows units cleared sat nan
  have hopened : opened.SameMemRegs d := of_foldl (fun _ _ h => h.ploughOpen ..) _ (refl d)
  have hheld : held.SameMemRegs d := occupy_sameMemRegs hopened ..
  have hrows : rows.SameMemRegs d := of_foldl (fun _ _ h => h.drainTo ..) _ hheld
  have hunits : units.SameMemRegs d := of_foldl (fun _ _ h => h.drainTo ..) _ hrows
  have hcleared : cleared.SameMemRegs d := of_ite (of_foldl (fun _ _ h => h.result ..) _ hunits) hunits
  exact of_ite hcleared (hcleared.result ..)

/-! ### The obligation -/

/-- Settles O15: each operation passes its checks by what the statement assumes; what an MDRAIN puts in flight is no memory and no register. -/
theorem matrixUnitWorks : Obligations.MatrixUnitWorks := by
  refine ⟨fun s p l1 w keys bss d hx => ?loads, ?mma, ?mdrain⟩
  case loads =>
    intro n now v barn
    refine ⟨?vldt, ?mldw⟩
    case vldt =>
      intro hzero t rs pcs hfmt hone hcount hscales hrows hload
      have ⟨hkeys, _, _, hread⟩ := hload
      have hlegal : ¬(stepK t.fmt = 0 ∨ wf' w 31 4 = 0 ∨ rowsPerV t.fmt < wf' w 31 4 ∨ w.getLsbD 30 = true ∧ (!t.mx) = true) := by
        rintro (h | h | h | ⟨hbit, hmx⟩)
        · exact hfmt h
        · omega
        · omega
        · simp [hscales hbit] at hmx
      refine gives_of_eq (ploughRun_gives (exec_vldt ..) hx hzero) ?_
      dsimp only [Runner.toNat]
      rw [if_neg hlegal, if_neg (by simpa using hrows), hkeys]
      refine (takeBarn_loadsAll hload _ _).trans ?_
      rw [hread]
      rfl
    case mldw =>
      intro hzero t rs wb pcs scs clocks hfmt hrows hload _ hpath hunread hunwritten
      have ⟨hkeys, _, _, hread⟩ := hload
      refine gives_of_eq (ploughRun_gives (exec_mldw ..) hx hzero) ?_
      dsimp only [Runner.toNat]
      rw [if_neg hfmt, if_neg (by simpa using hrows), hkeys]
      dsimp only
      rw [if_neg (Bool.eq_false_iff.mp hpath), if_neg (by simpa using ⟨hunread, hunwritten⟩)]
      refine (takeBarn_loadsAll hload _ _).trans ?_
      rw [hread, Nat.add_assoc]
      rfl
  case mma =>
    intro s p w hx hzero d n v now bank wb buf row count fa mx hone hrow hcount hmx hloaded hpoison hpair harray hbuf hbank
    refine ⟨gives_of_eq (ploughRun_gives (exec_mma ..) hx hzero) ?_, fun hfa hmx hb a sc => ?_⟩
    · have hlegal : ¬(128 < row + count ∨ count = 0 ∨ rowsPerV fa < count ∨ mx = true ∧ (!Fp.fmtMx fa) = true) := by
        rintro (h | h | h | ⟨hbit, hnot⟩)
        · omega
        · omega
        · omega
        · simp [hmx hbit] at hnot
      dsimp only [Runner.toNat]
      rw [if_neg hlegal, if_neg (Bool.eq_false_iff.mp harray), if_neg (by simpa using ⟨hbuf, hloaded⟩),
        if_neg (Bool.eq_false_iff.mp hbank), if_neg (show ¬(!pairOk fa mx buf.fmt buf.mx) = true by simp [hpair]), hpoison]
    · rw [hfa, hmx]; exact stepSums_int8 hb a sc
  case mdrain =>
    intro s p w keys hx hzero d x hfield hkeys huse
    have hrun : Gives (.mdrain (.plough p) w) s (x.run d p.toNat (d.pview p.toNat) keys) := by
      refine gives_of_eq (ploughRun_gives (exec_mdrain ..) hx hzero) ?_
      dsimp only [Runner.toNat]
      rw [hfield, hkeys]
      dsimp only
      rw [huse]
    exact ⟨_, hrun, rfl, x.run_sameMemRegs ..⟩

end Sys2Proof.Machine
end

section
/-! PROOFS. The Hedge (R158–R161): which request a walker takes and what becomes of it, the end of a walk, an invalidation's effect, and how
a fence is drained and ends. -/

namespace Sys2Proof.Machine

open Sys2Proof.Safety

section
variable (s : State)

theorem exec_translationWalk : exec .translationWalk s = execTranslationWalk s := rfl
theorem exec_invalComplete : exec .invalComplete s = execInvalComplete s := rfl
theorem exec_fenceDrainEnd : exec .fenceDrainEnd s = execFenceDrainEnd s := rfl
theorem exec_fenceDone : exec .fenceDone s = execFenceDone s := rfl

end

/-! ### The rotating pick -/

section
variable {n start : Nat} {p : Nat → Bool}

/-- With no place that asks there is no pick. -/
theorem rotPick_eq_none (hp : ∀ i, p i = false) : rotPick n start p = none := by
  simp [rotPick, hp]

/-- The rotation passes every place, wherever it starts. -/
theorem mem_rotation {r : Nat} (hr : r < n) : r ∈ (List.range n).map fun i => (start + i) % n := by
  have hstart : start % n < n := Nat.mod_lt _ (by omega)
  refine List.mem_map.mpr ⟨(r + (n - start % n)) % n, List.mem_range.mpr (Nat.mod_lt _ (by omega)), ?_⟩
  calc (start + (r + (n - start % n)) % n) % n
      = (start % n + (r + (n - start % n))) % n := by simp [Nat.add_mod]
    _ = (r + n) % n := by congr 1; omega
    _ = r := by rw [Nat.add_mod_right, Nat.mod_eq_of_lt hr]

/-- The one place that asks is picked, wherever the pointer stands. -/
theorem rotPick_of_only {r : Nat} (hr : r < n) (hp : ∀ i, p i = true ↔ i = r) : rotPick n start p = some r := by
  cases hpick : rotPick n start p with
  | none => exact absurd ((hp r).mpr rfl) (List.find?_eq_none.mp hpick r (mem_rotation hr))
  | some i => rw [(hp i).mp (List.find?_some hpick)]

end

/-! ### A walk begins (R155, R159) -/

/-- Walker `k` walks for a request: the walk is counted, and its table reads become stack requests of the walker. -/
def Dev.walkBegun (d : Dev) (k : Nat) (x : WalkReq) : Dev :=
  let w := d.bump R.HEDGE_WALKS
  let going := w.updHedge fun h => { h with walks := h.walks ++ [⟨k, x.req, x.ctx, x.gen, x.va, w.fclk⟩] }
  going.stackRequest ⟨x.req, 0x58 + k, x.ctx, x.gen⟩ ((going.walkWords x.ctx x.gen x.va).map fun y => (y, false))

/-- What becomes of a request that walker `k` has taken: one of a fenced ID is refused, one of a stale generation is discarded, any other
is walked. -/
def Dev.walkTaken (d : Dev) (k : Nat) (x : WalkReq) : Dev :=
  if x.ctx != mgmtSpace && d.fenced x.ctx then d
  else if x.ctx != mgmtSpace && !d.genOk x.ctx x.gen then d.bump R.HEDGE_GEN_DISCARD
  else d.walkBegun k x

section
variable {d : Dev} {k : Nat} {x : WalkReq}

/-- A request of a fenced ID goes no further. -/
theorem Dev.walkTaken_fenced (hctx : x.ctx ≠ mgmtSpace) (hfenced : d.fenced x.ctx = true) : d.walkTaken k x = d := by
  simp [Dev.walkTaken, hctx, hfenced]

/-- A request of a stale generation is counted as discarded. -/
theorem Dev.walkTaken_stale (hctx : x.ctx ≠ mgmtSpace) (hfree : d.fenced x.ctx = false) (hgen : d.genOk x.ctx x.gen = false) :
    d.walkTaken k x = d.bump R.HEDGE_GEN_DISCARD := by
  simp [Dev.walkTaken, hctx, hfree, hgen]

/-- A request of the management space, or of an ID that is live and not fenced, is walked. -/
theorem Dev.walkTaken_walks (h : x.ctx = mgmtSpace ∨ (d.fenced x.ctx = false ∧ d.genOk x.ctx x.gen = true)) :
    d.walkTaken k x = d.walkBegun k x := by
  obtain hmgmt | ⟨hfree, hgen⟩ := h
  · simp [Dev.walkTaken, hmgmt]
  · simp [Dev.walkTaken, hfree, hgen]

end

section
variable {s : State}

/-- Without a request that waits no walk begins. -/
theorem translationWalk_idle_of_waiting_nil (hnone : s.dev.hedge.waiting = []) : Idle .translationWalk s := by
  refine idle_of_withDev (exec_translationWalk s) ?_
  rw [rotPick_eq_none fun i => by rw [hnone]; rfl]
  cases s.dev.freeWalker <;> rfl

/-- Nor while every walker walks. -/
theorem translationWalk_idle_of_busy (hbusy : s.dev.freeWalker = none) : Idle .translationWalk s :=
  idle_of_withDev (exec_translationWalk s) (by rw [hbusy])

/-- The only request that waits is taken, and the pointer advances past its requester. -/
theorem translationWalk_gives_walkTaken {x : WalkReq} {k : Nat} (hwait : s.dev.hedge.waiting = [x]) (hfree : s.dev.freeWalker = some k)
    (hreq : x.req < 24) :
    Gives .translationWalk s
      (Dev.walkTaken { s.dev.setF F.HEDGE_STATUS_arb_ptr ((x.req + 1) % 24) with hedge := { s.dev.hedge with waiting := [] } } k x) := by
  have hpick : (rotPick 24 (s.dev.getF F.HEDGE_STATUS_arb_ptr) fun r => s.dev.hedge.waiting.any fun w => w.req == r) = some x.req :=
    rotPick_of_only hreq fun i => by rw [hwait]; simpa using eq_comm
  have hfind : (s.dev.hedge.waiting.find? fun w => w.req == x.req) = some x := by simp [hwait]
  have hleft : s.dev.hedge.waiting.erase x = [] := by simp [hwait]
  refine gives_of_withDev (exec_translationWalk s) ?_
  rw [hfree, hpick]
  dsimp only
  rw [hfind, ← hleft]
  rfl

end

/-! ### A walk ends (R158) -/

/-- The walker of a walk is free again. -/
def Dev.walkerFreed (d : Dev) (w : Walk) : Dev :=
  d.updHedge fun h => { h with walks := h.walks.filter fun x => x.walker != w.walker }

section
variable {d : Dev} {w : Walk}

/-- A walk that finds no leaf keeps the table entries that it has read. -/
theorem Dev.walkEnd_error {r : Nat} (hwalk : (d.walkerFreed w).walk w.ctx w.gen w.va = .error r) :
    d.walkEnd w = (d.walkerFreed w).nodeFill w.ctx w.gen w.va := by
  unfold Dev.walkerFreed at *
  simp only [Dev.walkEnd, hwalk]

/-- With no invalidation before it, a walk that finds a leaf caches it, unless it is cached already, and serves every request of its page. -/
theorem Dev.walkEnd_leaf {l : Leaf} (hnone : d.hedge.lastInval = none)
    (hwalk : (d.walkerFreed w).walk w.ctx w.gen w.va = .ok l) :
    d.walkEnd w =
      let e := (d.walkerFreed w).nodeFill w.ctx w.gen w.va
      (if (e.tlbHit w.ctx w.gen w.va).isSome then e else e.tlbFill w.ctx w.gen w.va l).updHedge fun h => { h with
        waiting := h.waiting.filter fun x => !(x.ctx == w.ctx && x.gen == w.gen && l.covers x.va) } := by
  unfold Dev.walkerFreed at *
  simp [Dev.walkEnd, hwalk, hnone]

end

/-! ### Invalidations (R160) -/

/-- The running invalidation drops what it reaches, and none runs after it. -/
theorem invalComplete_gives {s : State} {i : Inval} (hrun : s.dev.hedge.inval = some i) :
    Gives .invalComplete s
      (((s.dev.invalApply i).updHedge fun h => { h with inval := none, lastInval := some (i, s.dev.fclk) }).setB F.HEDGE_STATUS_inval_busy
        false) :=
  gives_of_withDev (exec_invalComplete s) (by rw [hrun])

/-! ### Fences (R161) -/

/-- A fence is drained: what its ID still has outstanding is answered, and the fence goes on with the number of requests answered. -/
def Dev.fenceDrained (d : Dev) (f : Fence) (n : Nat) : Dev :=
  (d.fenceForce f.ctx f.gen).1.updHedge fun h => { h with
    fences := h.fences.map fun x => if x.ctx = f.ctx then { x with step := 3, forced := n } else x }

/-- The answer of a fence counts what was outstanding. -/
theorem Dev.fenceForce_snd (d : Dev) (ctx gen : Nat) : (d.fenceForce ctx gen).2 = d.fenceOutstanding ctx := rfl

section
variable {s : State} {f : Fence} (hfences : s.dev.hedge.fences = [f])
include hfences

section
variable (hstep : f.step = 1)
include hstep

/-- A fence that has nothing outstanding, or whose bound is over, is drained, and shows whether it answered a request. -/
theorem fenceDrainEnd_gives_fenceDrained (hdue : s.dev.fenceOutstanding f.ctx = 0 ∨ f.start + 100016 ≤ s.dev.fclk) :
    Gives .fenceDrainEnd s
      (let drained := s.dev.fenceDrained f (s.dev.fenceOutstanding f.ctx)
       if s.dev.fenceOutstanding f.ctx != 0 then drained.setB F.HEDGE_FENCE_STATUS_forced true else drained) := by
  have hfind : (s.dev.hedge.fences.find? fun f => f.step == 1 && (s.dev.fenceOutstanding f.ctx == 0 || decide (f.start + 100016 ≤ s.dev.fclk)))
      = some f := by
    obtain hzero | hlate := hdue
    · simp [hfences, hstep, hzero]
    · simp [hfences, hstep, hlate]
  refine gives_of_withDev (exec_fenceDrainEnd s) ?_
  rw [hfind]
  dsimp only [Dev.fenceDrained]
  rw [← Dev.fenceForce_snd s.dev f.ctx f.gen]

/-- Before that it waits. -/
theorem fenceDrainEnd_idle (hout : s.dev.fenceOutstanding f.ctx ≠ 0) (hearly : s.dev.fclk < f.start + 100016) : Idle .fenceDrainEnd s := by
  have hfind : (s.dev.hedge.fences.find? fun f => f.step == 1 && (s.dev.fenceOutstanding f.ctx == 0 || decide (f.start + 100016 ≤ s.dev.fclk)))
      = none := by simpa [hfences, hstep] using ⟨hout, hearly⟩
  exact idle_of_withDev (exec_fenceDrainEnd s) (by rw [hfind])

end

/-- A drained fence invalidates what is cached of its ID, is reported, and makes room for the next. -/
theorem fenceDone_gives (hstep : f.step = 3) :
    Gives .fenceDone s
      (let e := (s.dev.invalApply { scope := 0, ctx := f.ctx, va := 0, pages := 1, start := 0 }).updHedge fun h => { h with
        fences := h.fences.map fun x => if x.ctx = f.ctx then { x with step := 4 } else x }
       let g := e.setB F.HEDGE_FENCE_STATUS_busy false
       (({ g with free := g.free + 1 } : Dev).raise 0x0827 (Config.freeNat g.free) f.ctx f.gen
         (hedgeDetail 0 (Config.freeNat g.free) 0 0 0 f.forced)).fenceNext) := by
  have hfind : (s.dev.hedge.fences.find? fun f => f.step == 3) = some f := by simp [hfences, hstep]
  exact gives_of_withDev (exec_fenceDone s) (by rw [hfind]; rfl)

end

/-! ### The obligation -/

/-- Settles O29: each command by its own lemma, a walk's beginning by what becomes of the request taken. -/
theorem hedgeWork : Obligations.HedgeWork := by
  refine ⟨fun s => ⟨translationWalk_idle_of_waiting_nil, translationWalk_idle_of_busy, fun x k hwait hfree hreq _ e he => ?begins,
    fun i hrun => invalComplete_gives hrun, fun f hfences hstep => ?drains, fun f hfences hstep => fenceDone_gives hfences hstep⟩,
    fun d w l hnone => ⟨fun r hwalk => Dev.walkEnd_error hwalk, fun hwalk => Dev.walkEnd_leaf hnone hwalk⟩⟩
  case begins =>
    subst he
    have htakes := translationWalk_gives_walkTaken hwait hfree hreq
    exact ⟨fun hctx hfenced => gives_of_eq htakes (Dev.walkTaken_fenced hctx hfenced),
      fun hctx hclear hgen => gives_of_eq htakes (Dev.walkTaken_stale hctx hclear hgen),
      fun hlive => gives_of_eq htakes (Dev.walkTaken_walks hlive)⟩
  case drains =>
    have hdrains := fenceDrainEnd_gives_fenceDrained hfences hstep
    refine ⟨fun hzero => ?_, fun hout hlate => ?_, fenceDrainEnd_idle hfences hstep⟩
    · exact gives_of_eq (hdrains (.inl hzero)) (by rw [hzero]; rfl)
    · exact gives_of_eq (hdrains (.inr hlate)) (if_pos (by simpa using hout))

end Sys2Proof.Machine
end

section
/-! PROOFS. Captures and the stamp unit (R174, R208): which edges of an input are captured, and which register converts an edge next. -/

namespace Sys2Proof.Machine

open Sys2Proof.Safety

/-! ### An edge of an input (R174, R208) -/

/-- Whether an edge of the input of capture register `r` is the one that is captured: DRDY and 1PPS have an active edge, 1PPS an enable too. -/
def Dev.edgeActive (d : Dev) (r : Nat) (rise : Bool) : Bool :=
  if r = 16 ∨ r = 17 then rise != d.flag (F.GATE_IMU_CTL_drdy_pol (r - 16))
  else if r = 36 then d.flag F.BELL_PPS_CTL_in_en && rise != d.flag F.BELL_PPS_CTL_in_pol
  else true

theorem exec_strobeEdge (input : BitVec 6) (rise : Bool) (s : State) :
    exec (.strobeEdge input rise) s = s.withDev fun d =>
      if 36 < input.toNat ∨ !d.edgeActive input.toNat rise then d
      else (d.capture input.toNat (d.filterEdges input.toNat) rise (d.registerSlot input.toNat)).1 := rfl

section
variable {d : Dev} {r : Nat} {rise : Bool}

/-- Of DRDY the edge that the polarity names is active. -/
theorem Dev.edgeActive_drdy (hr : r = 16 ∨ r = 17) : d.edgeActive r rise = (rise != d.flag (F.GATE_IMU_CTL_drdy_pol (r - 16))) := if_pos hr

/-- Of 1PPS the edge that the polarity names is active while the input is enabled. -/
theorem Dev.edgeActive_pps : d.edgeActive 36 rise = (d.flag F.BELL_PPS_CTL_in_en && rise != d.flag F.BELL_PPS_CTL_in_pol) := rfl

/-- Of any other input every edge is. -/
theorem Dev.edgeActive_other (h16 : r ≠ 16) (h17 : r ≠ 17) (h36 : r ≠ 36) : d.edgeActive r rise = true := by
  simp [Dev.edgeActive, h16, h17, h36]

variable {n : Nat} {slot : Option Nat}

/-- A register with fewer than two waiting edges captures one more. -/
theorem Dev.capture_room (hroom : (d.captured r).length < 2) : (d.capture r n rise slot).1 = d.updBell fun b =>
    { b with captures := SMap.modify (fun _ => []) b.captures r (· ++ [⟨d.edgeTime n, rise, d.holdoverFlag⟩]) } := by
  simp [Dev.capture, Nat.not_le.mpr hroom]

/-- A register with two loses it. -/
theorem Dev.capture_full (hfull : 2 ≤ (d.captured r).length) : (d.capture r n rise slot).1 = d.stampOverrun r slot := by
  simp [Dev.capture, hfull]

end

section
variable {s : State} {input : BitVec 6} {rise : Bool}

/-- An input that does not exist has no edges. -/
theorem strobeEdge_idle_of_above (hr : 36 < input.toNat) : Idle (.strobeEdge input rise) s :=
  idle_of_withDev (exec_strobeEdge input rise s) (if_pos (.inl hr))

/-- An edge that is not active does nothing. -/
theorem strobeEdge_idle_of_inactive (hoff : s.dev.edgeActive input.toNat rise = false) : Idle (.strobeEdge input rise) s :=
  idle_of_withDev (exec_strobeEdge input rise s) (if_pos (.inr (by simp [hoff])))

variable (hr : input.toNat < 37) (hactive : s.dev.edgeActive input.toNat rise = true)
include hr hactive

/-- An active edge goes to its register. -/
theorem strobeEdge_gives_capture : Gives (.strobeEdge input rise) s
    (s.dev.capture input.toNat (s.dev.filterEdges input.toNat) rise (s.dev.registerSlot input.toNat)).1 :=
  gives_of_withDev (exec_strobeEdge input rise s) (if_neg (by simp [hactive]; omega))

/-- It is captured where there is room, and else lost and counted. -/
theorem strobeEdge_captured_or_lost :
    ((s.dev.captured input.toNat).length < 2 → Gives (.strobeEdge input rise) s (s.dev.updBell fun b => { b with
        captures := SMap.modify (fun _ => []) b.captures input.toNat
          (· ++ [⟨s.dev.edgeTime (s.dev.filterEdges input.toNat), rise, s.dev.holdoverFlag⟩]) })) ∧
      (2 ≤ (s.dev.captured input.toNat).length →
        Gives (.strobeEdge input rise) s (s.dev.stampOverrun input.toNat (s.dev.registerSlot input.toNat))) :=
  ⟨fun hroom => gives_of_eq (strobeEdge_gives_capture hr hactive) (Dev.capture_room hroom),
    fun hfull => gives_of_eq (strobeEdge_gives_capture hr hactive) (Dev.capture_full hfull)⟩

end

/-! ### The stamp unit (R208) -/

section
variable {n start : Nat} {p : Nat → Bool}

/-- With no place below `n` that asks there is no pick. -/
theorem rotPick_eq_none_of_lt (hp : ∀ i < n, p i = false) : rotPick n start p = none := by
  simp only [rotPick, List.find?_eq_none, List.mem_map, List.mem_range]
  rintro _ ⟨i, hi, rfl⟩
  simp [hp _ (Nat.mod_lt (start + i) (by omega))]

/-- The first place that asks, from the pointer on, is picked. -/
theorem rotPick_of_first {k : Nat} (hk : k < n) (hbefore : ∀ j < k, p ((start + j) % n) = false) (hp : p ((start + k) % n) = true) :
    rotPick n start p = some ((start + k) % n) := by
  have hfind : (List.range n).find? (p ∘ fun i => (start + i) % n) = some k := by
    simpa [List.find?_range_eq_some, hk, hp] using hbefore
  rw [rotPick, List.find?_map, hfind]
  rfl

end

theorem exec_stampConvert (s : State) : exec .stampConvert s = s.withDev Dev.convertClock := rfl

section
variable {d : Dev} {q : Nat} {c : Capture} {cs : List Capture}

/-- One conversion in a T clock. -/
theorem Dev.convertClock_done (h : d.bell.convT = some d.bell.tEdges) : d.convertClock = d := if_pos h

/-- A T clock without one yet makes one, if an edge waits. -/
theorem Dev.convertClock_free (h : d.bell.convT ≠ some d.bell.tEdges) : d.convertClock = d.convertNext := if_neg h

/-- With no edge waiting nothing is converted. -/
theorem Dev.convertNext_none (hnone : ∀ r < 37, d.captured r = []) : d.convertNext = d := by
  have hpick : rotPick 37 d.bell.stampPtr (fun r => !(d.captured r).isEmpty) = none := rotPick_eq_none_of_lt fun r hr => by simp [hnone r hr]
  simp only [Dev.convertNext, hpick]

/-- The oldest edge of a register of a port becomes a stamp that waits for its user. -/
theorem Dev.convert_stamp (hq : 8 ≤ q) (hcap : d.captured q = c :: cs) :
    d.convert q = d.updBell fun b => { b with
      captures := SMap.set (fun _ => []) b.captures q cs, stamps := SMap.modify (fun _ => []) b.stamps q (· ++ [c]) } := by
  simp only [Dev.convert, hcap, if_neg (Nat.not_lt.mpr hq)]
  rfl

/-- That of a strobe input goes to the input's pulses. -/
theorem Dev.convert_strobe (hq : q < 8) (hcap : d.captured q = c :: cs) :
    d.convert q = (d.updBell fun b => { b with captures := SMap.set (fun _ => []) b.captures q cs }).updGate fun g =>
      { g with strobes := SMap.modify (fun _ => {}) g.strobes q (·.edge c) } := by
  simp only [Dev.convert, hcap, if_pos hq]
  rfl

/-- The first register from the pointer on that has an edge converts it, and the pointer passes it. -/
theorem Dev.convertClock_first {k : Nat} (hfree : d.bell.convT ≠ some d.bell.tEdges) (hk : k < 37)
    (hbefore : ∀ j < k, d.captured ((d.bell.stampPtr + j) % 37) = []) (hcap : d.captured ((d.bell.stampPtr + k) % 37) = c :: cs) :
    d.convertClock = (d.convert ((d.bell.stampPtr + k) % 37)).updBell fun b =>
      { b with stampPtr := ((d.bell.stampPtr + k) % 37 + 1) % 37, convT := some b.tEdges } := by
  have hpick : rotPick 37 d.bell.stampPtr (fun r => !(d.captured r).isEmpty) = some ((d.bell.stampPtr + k) % 37) :=
    rotPick_of_first hk (fun j hj => by simp [hbefore j hj]) (by simp [hcap])
  rw [Dev.convertClock_free hfree]
  simp only [Dev.convertNext, hpick]

end

/-! ### The obligation -/

/-- Settles O32: an edge of each kind of input goes by whether it is active; a conversion by the register that the pointer finds. -/
theorem strobesAndStamps : Obligations.StrobesAndStamps := by
  intro s input rise
  refine ⟨fun hr h16 h17 => ?plain, fun hr => ?drdy, fun hr => ?pps, strobeEdge_idle_of_above,
    fun hnone => ?nothing, fun hdone => idle_of_withDev (exec_stampConvert s) (Dev.convertClock_done hdone),
    fun k c cs hfree hk hbefore hcap => ?converts⟩
  case plain => exact strobeEdge_captured_or_lost (by omega) (Dev.edgeActive_other h16 h17 (by omega))
  case drdy =>
    exact ⟨fun hsame => strobeEdge_idle_of_inactive (by rw [Dev.edgeActive_drdy hr, bne_eq_false_iff_eq]; exact hsame),
      fun hdiff => strobeEdge_captured_or_lost (by omega) (by rw [Dev.edgeActive_drdy hr, bne_iff_ne]; exact hdiff)⟩
  case pps =>
    refine ⟨fun hoff => strobeEdge_idle_of_inactive ?_, fun hon hdiff => strobeEdge_captured_or_lost (by omega) ?_⟩
    · rw [hr, Dev.edgeActive_pps, hoff, Bool.false_and]
    · rw [hr, Dev.edgeActive_pps, hon, Bool.true_and, bne_iff_ne]
      exact hdiff
  case nothing =>
    refine idle_of_withDev (exec_stampConvert s) ?_
    by_cases hdone : s.dev.bell.convT = some s.dev.bell.tEdges
    · exact Dev.convertClock_done hdone
    · exact (Dev.convertClock_free hdone).trans (Dev.convertNext_none hnone)
  case converts =>
    have hclock := Dev.convertClock_first hfree hk hbefore hcap
    refine ⟨fun hq => gives_of_withDev (exec_stampConvert s) (hclock.trans ?_),
      fun hq => gives_of_withDev (exec_stampConvert s) (hclock.trans ?_)⟩
    · rw [Dev.convert_stamp hq hcap]
      rfl
    · rw [Dev.convert_strobe hq hcap]
      rfl

end Sys2Proof.Machine
end

section
/-! PROOFS. The troughs' read side and the injection queues (R183, R195–R199, R425, R529): drops, flushes, what comes to a head, and how an injected
sample reaches its trough. -/

namespace Sys2Proof.Machine

open Sys2Proof.Safety

/-! ### Drops and flushes (R196, R197, R199) -/

section
variable {t : Trough} {g : Stage} {cs : List Stage} {now : Nat}

/-- An abort word that stands at the head for an uncorrectable word ends the drop; the rest of its packet is discarded. -/
theorem Trough.drop_lost (hhead : t.head = true) (hchain : t.chain = g :: cs) (hlost : g.lost = true) :
    t.drop now = { t.pop now with aborting := !g.last } := by
  simp [Trough.drop, hhead, hchain, hlost]

/-- With no such word at the head a drop starts. -/
theorem Trough.drop_starts (h : t.head = false ∨ t.chain = [] ∨ ∀ g cs, t.chain = g :: cs → g.lost = false) : t.drop now = t.startDrop := by
  unfold Trough.drop
  split
  case h_1 hhead hchain =>
    rw [if_neg]
    simpa [hhead, hchain] using h
  case h_2 => rfl

end

/-- The device once a drop has left trough `i` as `u`: the consumer's takes the F clock in which it takes no word. -/
def Dev.dropDone (d : Dev) (i : Nat) (sw : Bool) (u : Trough) : Dev :=
  let e := d.updTrough i fun _ => u
  if sw then e else { e with yoke := { e.yoke with lastTake := some d.fclk } }

section
variable {s : State} {n : BitVec 4} {sw : Bool}

theorem exec_dropPacket (n : BitVec 4) (sw : Bool) (s : State) : exec (.dropPacket n sw) s = execDropPacket n sw s := rfl
theorem exec_troughFlush (n : BitVec 4) (s : State) : exec (.troughFlush n) s = execTroughFlush n s := rfl

/-- A drop acts only for the consumer that has the trough. -/
theorem dropPacket_idle_of_other (h : sw ≠ s.dev.flag (F.TROUGH_CTL_consumer_hold n.toNat)) : Idle (.dropPacket n sw) s :=
  idle_of_withDev (exec_dropPacket n sw s) (if_pos (.inl (by simpa using h)))

/-- The consumer drops in an F clock in which it takes no word. -/
theorem dropPacket_idle_of_taken (hsw : sw = false) (h : s.dev.yoke.lastTake = some s.dev.fclk) : Idle (.dropPacket n sw) s :=
  idle_of_withDev (exec_dropPacket n sw s) (if_pos (.inr ⟨hsw, h⟩))

/-- Otherwise the trough drops. -/
theorem dropPacket_gives_dropDone {u : Trough} (hsw : sw = s.dev.flag (F.TROUGH_CTL_consumer_hold n.toNat))
    (hfree : sw = true ∨ s.dev.yoke.lastTake ≠ some s.dev.fclk) (hu : (s.dev.trough n.toNat).drop s.dev.clk = u) :
    Gives (.dropPacket n sw) s (s.dev.dropDone n.toNat sw u) := by
  have hgo : ¬((sw != s.dev.flag (F.TROUGH_CTL_consumer_hold n.toNat)) = true ∨ (sw = false ∧ s.dev.yoke.lastTake = some s.dev.fclk)) := by
    rintro (hne | ⟨hfalse, htaken⟩)
    · exact bne_iff_ne.mp hne hsw
    · exact hfree.elim (by simp [hfalse]) (· htaken)
  subst hu
  exact gives_of_withDev (exec_dropPacket n sw s) (if_neg hgo)

/-- Software flushes a trough that it holds. -/
theorem troughFlush_gives (h : s.dev.flag (F.TROUGH_CTL_consumer_hold n.toNat) = true) :
    Gives (.troughFlush n) s (s.dev.updTrough n.toNat Trough.flush) := gives_of_withDev (exec_troughFlush n s) (if_pos h)

/-- It flushes no other. -/
theorem troughFlush_idle (h : s.dev.flag (F.TROUGH_CTL_consumer_hold n.toNat) = false) : Idle (.troughFlush n) s :=
  idle_of_withDev (exec_troughFlush n s) (if_neg (by simp [h]))

end

/-! ### What comes to the head (R198, R199) -/

/-- Whether a first word's stamp lies outside the time gate of trough `i`. -/
def Dev.outsideGate (d : Dev) (i : Nat) (g : Stage) : Bool :=
  g.word.sop && d.flag (F.TROUGH_CTL_gate_en i) && !(decide (d.slotNow i ≤ g.stamp + d.getF (F.TROUGH_GATE_past i) * 256000) &&
    decide (g.stamp < d.slotNow i + d.getF (F.TROUGH_GATE_future i) * 256000))

/-- A word has come to the front of trough `i`. -/
def Dev.frontReached (d : Dev) (i : Nat) (g : Stage) : Dev :=
  d.updTrough i fun t => { t with toSop := false, stamp := if g.word.sop then g.stamp else t.stamp }

/-- What becomes of it: an abort word is reported, a first word outside the gate has its packet dropped and counted, any other stands at the head. -/
def Dev.frontJudged (d : Dev) (i : Nat) (g : Stage) : Dev :=
  if g.lost then (d.updTrough i fun t => { t with head := true }).troughEvent 0x0203 i g.stamp 0
  else if d.outsideGate i g then
    let e := (d.updTrough i Trough.startDrop).bump (R.TROUGH_GATE_DROP i)
    e.troughEvent 0x0204 i g.stamp (e.reg (R.TROUGH_GATE_DROP i)).toNat
  else d.updTrough i fun t => { t with head := true }

theorem exec_troughHeadArrival (n : BitVec 4) (s : State) : exec (.troughHeadArrival n) s = execTroughHeadArrival n s := rfl

section
variable {s : State} {n : BitVec 4}

/-- While a word stands at the head, or none has come so far, no other comes. -/
theorem troughHeadArrival_idle_of_none (h : (s.dev.trough n.toNat).head = true ∨ (s.dev.trough n.toNat).chain = []) :
    Idle (.troughHeadArrival n) s := by
  refine idle_of_withDev (exec_troughHeadArrival n s) ?_
  cases hchain : (s.dev.trough n.toNat).chain with
  | nil => simp only [hchain]
  | cons g cs =>
    have hhead : (s.dev.trough n.toNat).head = true := by simpa [hchain] using h
    simp only [hchain, hhead, Bool.true_or, if_true]

variable {g : Stage} {cs : List Stage} (hchain : (s.dev.trough n.toNat).chain = g :: cs)
include hchain

/-- A word on its way, or one that is discarded, does not come to the head. -/
theorem troughHeadArrival_idle_of_waits (h : s.dev.fclk < g.ready ∨ (s.dev.trough n.toNat).discards s.dev.fclk = true) :
    Idle (.troughHeadArrival n) s := by
  refine idle_of_withDev (exec_troughHeadArrival n s) ?_
  simp only [hchain]
  rw [if_pos]
  obtain h | h := h <;> simp [h]

/-- Any other comes, and is judged. -/
theorem troughHeadArrival_gives_frontJudged (hhead : (s.dev.trough n.toNat).head = false) (hready : g.ready ≤ s.dev.fclk)
    (hkept : (s.dev.trough n.toNat).discards s.dev.fclk = false) :
    Gives (.troughHeadArrival n) s ((s.dev.frontReached n.toNat g).frontJudged n.toNat g) := by
  refine gives_of_withDev (exec_troughHeadArrival n s) ?_
  have hgo : ((s.dev.trough n.toNat).head || decide (s.dev.fclk < g.ready) || (s.dev.trough n.toNat).discards s.dev.fclk) = false := by
    simp [hhead, hkept, hready]
  simp only [hchain, hgo, Bool.false_eq_true, if_false]
  rfl

end

section
variable {d : Dev} {i : Nat} {g : Stage}

/-- An abort word stands at the head and is reported. -/
theorem Dev.frontJudged_lost (hlost : g.lost = true) :
    d.frontJudged i g = (d.updTrough i fun t => { t with head := true }).troughEvent 0x0203 i g.stamp 0 := if_pos hlost

/-- A word within the gate stands at the head. -/
theorem Dev.frontJudged_passes (hlost : g.lost = false) (hin : d.outsideGate i g = false) :
    d.frontJudged i g = d.updTrough i fun t => { t with head := true } := by
  simp [Dev.frontJudged, hlost, hin]

/-- The packet of a first word outside it is dropped and counted. -/
theorem Dev.frontJudged_gated (hlost : g.lost = false) (hout : d.outsideGate i g = true) :
    d.frontJudged i g = ((d.updTrough i Trough.startDrop).bump (R.TROUGH_GATE_DROP i)).troughEvent 0x0204 i g.stamp
      (((d.updTrough i Trough.startDrop).bump (R.TROUGH_GATE_DROP i)).reg (R.TROUGH_GATE_DROP i)).toNat := by
  simp [Dev.frontJudged, hlost, hout]

/-- The gate's window, as R198 gives it. -/
theorem Dev.outsideGate_iff : d.outsideGate i g = true ↔ g.word.sop = true ∧ d.flag (F.TROUGH_CTL_gate_en i) = true ∧
    ¬ (d.slotNow i ≤ g.stamp + d.getF (F.TROUGH_GATE_past i) * 256000 ∧ g.stamp < d.slotNow i + d.getF (F.TROUGH_GATE_future i) * 256000) := by
  simp only [Dev.outsideGate, Bool.and_eq_true, Bool.not_eq_true', ← Bool.not_eq_true, decide_eq_true_eq, and_assoc]

end

/-! ### An injected sample (R183, R195, R425, R529) -/

/-- The words of a sample from their bytes: the first carries sop, the last eop. -/
def sampleWords (ws : List (List Byte)) : List TWord :=
  (ws.zip (List.range ws.length)).map fun w => mkWord w.1 (w.2 == 0) (w.2 + 1 == ws.length) false

/-- Only the first word of a sample carries sop, only the last eop, and none is an abort word. -/
theorem sampleWords_marks (ws : List (List Byte)) (k : Nat) (h : k < (sampleWords ws).length) :
    ((sampleWords ws)[k]).sop = (k == 0) ∧ ((sampleWords ws)[k]).eop = (k + 1 == (sampleWords ws).length) ∧ ((sampleWords ws)[k]).abort = false := by
  simp [sampleWords, mkWord]

theorem exec_injectedSample (n : BitVec 4) (s : State) : exec (.injectedSample n) s = execInjectedSample n s := rfl

/-- What becomes of a sample that the queue of slot `i` has read whole: a slot that is not enabled discards it, a stamp that goes back or a bad header
drops it, and else its words wait for the trough. -/
def Dev.sampleRead (d : Dev) (i : Nat) (x : Inject) : Dev :=
  let irq := (leAt x.desc 12 1).testBit 0
  let st := headerStamp x.buf
  if !d.slotOn i then ((d.setInj (i + 4) none).slotDiscard i st 3).qDone (i + 4) irq
  else if injBad x.buf || decide (st + 1 < SMap.get (fun _ => 0) d.gate.lastStamp i) then
    (((d.setInj (i + 4) none).bump (R.GATE_SLOT_ERR i)).gateEvent 0x0105 i st 0).qDone (i + 4) irq
  else
    let head := x.buf.take 9 ++ leBytes 1 (i + 16 * d.slotKind i) ++ (x.buf.drop 10)
    let ws := (chunk64 (head.length / 64 + 1) head).filter fun w => !w.isEmpty
    d.setInj (i + 4) (some { x with taken := true, words := sampleWords ws, stamp := st })

/-- INJECTED_SAMPLE acts on a sample that has been read whole. -/
theorem injectedSample_gives_sampleRead {s : State} {n : BitVec 4} {x : Inject} (hinj : s.dev.injOf (n.toNat + 4) = some x)
    (htaken : x.taken = false) (hcut : x.cut = false) (hlen : leAt x.desc 8 4 ≤ x.buf.length) (hslot : s.dev.slotInj n.toNat = true) :
    Gives (.injectedSample n) s (s.dev.sampleRead n.toNat x) := by
  have hgo : (x.taken || x.cut || decide (x.buf.length < leAt x.desc 8 4) || !s.dev.slotInj n.toNat) = false := by
    simp [htaken, hcut, hlen, hslot]
  refine gives_of_withDev (exec_injectedSample n s) ?_
  simp only [hinj, hgo, Bool.false_eq_true, if_false]
  rfl

section
variable {d : Dev} {i : Nat} {x : Inject}

/-- A slot that is not enabled discards it. -/
theorem Dev.sampleRead_discarded (hoff : d.slotOn i = false) : d.sampleRead i x =
    ((d.setInj (i + 4) none).slotDiscard i (headerStamp x.buf) 3).qDone (i + 4) ((leAt x.desc 12 1).testBit 0) := if_pos (by simp [hoff])

variable (hon : d.slotOn i = true)
include hon

/-- A stamp that goes back, or a bad header, drops it. -/
theorem Dev.sampleRead_dropped (hbad : injBad x.buf = true ∨ headerStamp x.buf + 1 < SMap.get (fun _ => 0) d.gate.lastStamp i) :
    d.sampleRead i x = (((d.setInj (i + 4) none).bump (R.GATE_SLOT_ERR i)).gateEvent 0x0105 i (headerStamp x.buf) 0).qDone (i + 4)
      ((leAt x.desc 12 1).testBit 0) :=
  (if_neg (by simp [hon])).trans (if_pos (by simpa using hbad))

/-- Any other waits for the trough as words. -/
theorem Dev.sampleRead_waits (hgood : injBad x.buf = false) (hstamp : SMap.get (fun _ => 0) d.gate.lastStamp i ≤ headerStamp x.buf + 1) :
    ∃ ws, d.sampleRead i x = d.setInj (i + 4) (some { x with taken := true, words := sampleWords ws, stamp := headerStamp x.buf }) :=
  ⟨_, (if_neg (by simp [hon])).trans (if_neg (by simp [hgood, hstamp]))⟩

end

/-! ### Its words (R195, R425, R529) -/

theorem exec_injectionWord (n : BitVec 4) (s : State) : exec (.injectionWord n) s = execInjectionWord n s := rfl

section
variable {s : State} {n : BitVec 4} {x : Inject} (hinj : s.dev.injOf (n.toNat + 4) = some x)
include hinj

/-- A sample without words passes none. -/
theorem injectionWord_idle_of_nil (hwords : x.words = []) : Idle (.injectionWord n) s :=
  idle_of_withDev (exec_injectionWord n s) (by simp only [hinj, hwords])

/-- A full trough takes none, and a queue passes one at most in an F clock. -/
theorem injectionWord_idle_of_full
    (h : s.dev.troughFree n.toNat = 0 ∨ SMap.get (fun _ => 0) s.dev.host.injAt (n.toNat + 4) = s.dev.fclk + 1) : Idle (.injectionWord n) s := by
  refine idle_of_withDev (exec_injectionWord n s) ?_
  cases hwords : x.words with
  | nil => simp only [hinj, hwords]
  | cons w ws =>
    simp only [hinj, hwords]
    rw [if_pos]
    obtain h | h := h <;> simp [h]

end

/-- The queue of slot `i` passes the word `w` and keeps `ws`: the first one takes the slot's number, and with the last one the sample is complete. -/
def Dev.wordPassed (d : Dev) (i : Nat) (x : Inject) (w : TWord) (ws : List TWord) : Dev :=
  let e := d.injMark (i + 4)
  let p := if x.passed = 0 then ((e.takeSeq i).2.noteStamp i x.stamp).troughPut i (numberWord w (e.takeSeq i).1) else e.troughPut i w
  if ws.isEmpty then ((p.setInj (i + 4) none).applyPendMap i).qDone (i + 4) ((leAt x.desc 12 1).testBit 0)
  else p.setInj (i + 4) (some { x with words := ws, passed := x.passed + 1 })

/-- A queue that runs passes a word where the trough has room and none has passed in this F clock. -/
theorem injectionWord_gives_wordPassed {s : State} {n : BitVec 4} {x : Inject} {w : TWord} {ws : List TWord}
    (hinj : s.dev.injOf (n.toNat + 4) = some x) (hwords : x.words = w :: ws) (hfree : s.dev.troughFree n.toNat ≠ 0)
    (hfresh : SMap.get (fun _ => 0) s.dev.host.injAt (n.toNat + 4) ≠ s.dev.fclk + 1) (hcut : x.cut = false)
    (hslot : s.dev.slotInj n.toNat = true) (hon : s.dev.qOn (n.toNat + 4) = true) (hhalt : s.dev.qHalted (n.toNat + 4) = false) :
    Gives (.injectionWord n) s (s.dev.wordPassed n.toNat x w ws) := by
  have hgo : (decide (s.dev.troughFree n.toNat = 0) || SMap.get (fun _ => 0) s.dev.host.injAt (n.toNat + 4) == s.dev.fclk + 1 ||
      (!x.cut && (!s.dev.slotInj n.toNat || !s.dev.qOn (n.toNat + 4) || s.dev.qHalted (n.toNat + 4)))) = false := by
    simp [hfree, hfresh, hslot, hon, hhalt]
  refine gives_of_withDev (exec_injectionWord n s) ?_
  simp only [hinj, hwords, hgo]
  simp only [hcut, Bool.false_eq_true, if_false, Dev.wordPassed]
  by_cases hfirst : x.passed = 0
  · simp only [hfirst, if_true]
  · simp only [hfirst, if_false]

section
variable {d : Dev} {i : Nat} {x : Inject} {w : TWord} {ws : List TWord}

/-- A word in the middle passes as it is. -/
theorem Dev.wordPassed_middle (hpassed : x.passed ≠ 0) (hmore : ws ≠ []) : d.wordPassed i x w ws =
    ((d.injMark (i + 4)).troughPut i w).setInj (i + 4) (some { x with words := ws, passed := x.passed + 1 }) := by
  simp [Dev.wordPassed, hpassed, hmore]

/-- The last one completes the descriptor. -/
theorem Dev.wordPassed_last (hpassed : x.passed ≠ 0) (hlast : ws = []) : d.wordPassed i x w ws =
    ((((d.injMark (i + 4)).troughPut i w).setInj (i + 4) none).applyPendMap i).qDone (i + 4) ((leAt x.desc 12 1).testBit 0) := by
  simp [Dev.wordPassed, hpassed, hlast]

/-- The first one takes the slot's number. -/
theorem Dev.wordPassed_first (hpassed : x.passed = 0) (hmore : ws ≠ []) : d.wordPassed i x w ws =
    ((((d.injMark (i + 4)).takeSeq i).2.noteStamp i x.stamp).troughPut i (numberWord w ((d.injMark (i + 4)).takeSeq i).1)).setInj (i + 4)
      (some { x with words := ws, passed := 1 }) := by
  simp [Dev.wordPassed, hpassed, hmore]

end

/-! ### The obligation -/

/-- Settles O36: drop, flush and arrival each by what the trough holds; an injected sample and its words by what the queue has read and passed. -/
theorem troughsAndInjection : Obligations.TroughsAndInjection := by
  refine ⟨fun s n sw => ⟨fun hsw hfree => ⟨fun g cs hhead hchain hlost => ?ends, fun h => ?starts⟩, dropPacket_idle_of_other,
      dropPacket_idle_of_taken, troughFlush_gives, troughFlush_idle, troughHeadArrival_idle_of_none, fun g cs hhead hchain =>
        ⟨troughHeadArrival_idle_of_waits hchain, fun hready hkept => ?arrives⟩⟩,
    fun s n x hinj => ⟨fun htaken hcut hlen hslot => ?sample, injectionWord_idle_of_nil hinj, injectionWord_idle_of_full hinj,
      fun w ws hwords hfree hfresh hcut hslot hon hhalt => ?word⟩⟩
  case ends => exact dropPacket_gives_dropDone hsw hfree (Trough.drop_lost hhead hchain hlost)
  case starts => exact dropPacket_gives_dropDone hsw hfree (Trough.drop_starts h)
  case arrives =>
    have harrives := troughHeadArrival_gives_frontJudged hchain hhead hready hkept
    exact ⟨fun hlost => gives_of_eq harrives (Dev.frontJudged_lost hlost),
      fun hlost hin => gives_of_eq harrives (Dev.frontJudged_passes hlost (Bool.eq_false_iff.mpr fun hout => hin (Dev.outsideGate_iff.mp hout))),
      fun hlost hout => gives_of_eq harrives (Dev.frontJudged_gated hlost (Dev.outsideGate_iff.mpr hout))⟩
  case sample =>
    have hreads := injectedSample_gives_sampleRead hinj htaken hcut hlen hslot
    refine ⟨fun hoff => gives_of_eq hreads (Dev.sampleRead_discarded hoff), fun hon hbad => gives_of_eq hreads (Dev.sampleRead_dropped hon hbad),
      fun hon hgood hstamp => ?_⟩
    obtain ⟨ws, hwaits⟩ := Dev.sampleRead_waits hon hgood hstamp
    exact ⟨_, gives_of_eq hreads hwaits, sampleWords ws, rfl, sampleWords_marks ws⟩
  case word =>
    have hpasses := injectionWord_gives_wordPassed hinj hwords hfree hfresh hcut hslot hon hhalt
    exact ⟨fun hpassed hmore => gives_of_eq hpasses (Dev.wordPassed_middle hpassed hmore),
      fun hpassed hlast => gives_of_eq hpasses (Dev.wordPassed_last hpassed hlast),
      fun hpassed hmore => gives_of_eq hpasses (Dev.wordPassed_first hpassed hmore)⟩

end Sys2Proof.Machine
end

section
/-! PROOFS. Encoders, triggers and port links (R174, R177, R178, R188, R515): how an edge counts, when a channel latches, when an output pulses. -/

namespace Sys2Proof.Machine

open Sys2Proof.Safety

/-! ### An edge of an encoder (R177, R178, R515) -/

/-- The count of a channel after a step up or down; invert turns the direction. -/
def Dev.encStep (d : Dev) (c : Nat) (up : Bool) : Nat :=
  if up != d.flag (F.GATE_ENC_CTL_invert c) then ((d.enc c).count + 1) % 2 ^ 32 else ((d.enc c).count + (2 ^ 32 - 1)) % 2 ^ 32

/-- The channel holds an edge of a code with its stamp, its count and the levels after it. -/
def Dev.encHold (d : Dev) (c : Nat) (cap : Capture) (stamp code count : Nat) (a b : Bool) : Dev :=
  (d.updEnc c fun x => { x with
    aLevel := a, bLevel := b, stamp := stamp, count := count, edge := code
    interval := if (d.enc c).any then min ((stamp - (d.enc c).stamp) / 256) 0xFFFFFFFF else 0xFFFFFFFF
    fresh := true, any := true, hold := cap.hold }).setF (F.GATE_ENC_COUNT_count c) count

/-- In mode EDGE the edge that the channel holds is a sample; in mode LATCH it waits for the latch instant. -/
def Dev.encGive (d : Dev) (c : Nat) : Dev := if d.flag (F.GATE_ENC_CTL_latch c) then d else d.encSample c 0

/-- What an edge that its input has accepted does. -/
def Dev.encEdge (d : Dev) (c : Nat) (cap : Capture) (stamp : Nat) : EncEdge → Dev
  | .a rise => (d.encHold c cap stamp (if rise then 0 else 1) (d.encStep c (rise != (d.enc c).bLevel)) rise (d.enc c).bLevel).encGive c
  | .b rise => (d.encHold c cap stamp (if rise then 2 else 3) (d.encStep c (rise == (d.enc c).aLevel)) (d.enc c).aLevel rise).encGive c
  | .z true => (d.encHold c cap stamp 4 (if d.flag (F.GATE_ENC_CTL_z_reset c) then 0 else (d.enc c).count) (d.enc c).aLevel (d.enc c).bLevel).encGive c
  | .z false => d
  | .both => (d.updEnc c fun e => { e with aLevel := !e.aLevel, bLevel := !e.bLevel }).rxError 0x0108 { kind := 5, port := c } stamp

theorem exec_encoderEdge (ch : BitVec 3) (edge : EncEdge) (s : State) : exec (.encoderEdge ch edge) s = execEncoderEdge ch edge s := rfl

/-- A channel in mode EDGE gives its sample, one in mode LATCH waits. -/
theorem gives_encGive {i : Instr} {s : State} {d : Dev} {c : Nat} (h : Gives i s (d.encGive c)) :
    (d.flag (F.GATE_ENC_CTL_latch c) = true → Gives i s d) ∧ (d.flag (F.GATE_ENC_CTL_latch c) = false → Gives i s (d.encSample c 0)) :=
  ⟨fun hlatch => gives_of_eq h (if_pos hlatch), fun hedge => gives_of_eq h (if_neg (by simp [hedge]))⟩

section
variable {s : State} {ch : BitVec 3} {edge : EncEdge} {d : Dev} {cap : Capture}
  (hstamp : s.dev.takeStamp (20 + ch.toNat) (s.dev.filterEdges (20 + ch.toNat)) true = (d, cap))
include hstamp

/-- An edge within 200 ns of the last one of its input is ignored. -/
theorem encoderEdge_ignored (hsoon : (d.enc ch.toNat).tooSoon edge (addStamp cap.time (-(39 * 256))) = true) :
    Gives (.encoderEdge ch edge) s d := by
  refine gives_of_withDev (exec_encoderEdge ch edge s) ?_
  simp only [hstamp, hsoon, if_true]

/-- Any other is accepted by its input, and does what its kind says. -/
theorem encoderEdge_gives_encEdge (hsoon : (d.enc ch.toNat).tooSoon edge (addStamp cap.time (-(39 * 256))) = false) :
    Gives (.encoderEdge ch edge) s
      ((d.updEnc ch.toNat fun e => e.accepts edge (addStamp cap.time (-(39 * 256)))).encEdge ch.toNat cap (addStamp cap.time (-(39 * 256))) edge) := by
  refine gives_of_withDev (exec_encoderEdge ch edge s) ?_
  simp only [hstamp, hsoon, Bool.false_eq_true, if_false]
  cases edge with
  | a rise => rfl
  | b rise => rfl
  | z rise => cases rise <;> rfl
  | both => rfl

end

/-! ### The latch of an encoder (R178) -/

theorem exec_encoderLatch (ch : BitVec 3) (s : State) : exec (.encoderLatch ch) s = execEncoderLatch ch s := rfl

section
variable {s : State} {ch : BitVec 3}

/-- At its instant a latching channel gives a sample, stale when no edge came since the last. -/
theorem encoderLatch_gives {due : Nat} (hlatch : s.dev.flag (F.GATE_ENC_CTL_latch ch.toNat) = true) (hlock : s.dev.locked = true)
    (hdue : (s.dev.enc ch.toNat).nextLatch.getD (s.dev.plan.t0.getD 0 * 256) = due) (hcome : due ≤ s.dev.dev256) :
    Gives (.encoderLatch ch) s ((s.dev.updEnc ch.toNat fun e =>
      { e with nextLatch := some (due + max 1 (s.dev.getF (F.GATE_ENC_CTL_period ch.toNat)) * 256000), fresh := false }).encSample ch.toNat
        (if (s.dev.enc ch.toNat).fresh then 0 else 16)) := by
  have hflags : 16 * b2n (!(s.dev.enc ch.toNat).fresh) = if (s.dev.enc ch.toNat).fresh then 0 else 16 := by
    cases (s.dev.enc ch.toNat).fresh <;> rfl
  refine gives_of_withDev (exec_encoderLatch ch s) ((if_neg ?_).trans ?_)
  · simp [hlatch, hlock, hdue, hcome]
  · rw [hdue, ← hflags]

/-- Before that it gives none. -/
theorem encoderLatch_idle (hearly : s.dev.dev256 < (s.dev.enc ch.toNat).nextLatch.getD (s.dev.plan.t0.getD 0 * 256)) :
    Idle (.encoderLatch ch) s :=
  idle_of_withDev (exec_encoderLatch ch s) (if_pos (.inr (.inr hearly)))

end

/-! ### Triggers (R174) -/

theorem exec_triggerPulse (t : BitVec 3) (s : State) : exec (.triggerPulse t) s = execTriggerPulse t s := rfl

section
variable {s : State} {t : BitVec 3}

section
variable (hlevel : (s.dev.trig t.toNat).level = true)
include hlevel

/-- An output that is active stays so until its width has passed. -/
theorem triggerPulse_idle_of_active (hearly : s.dev.dev256 < (s.dev.trig t.toNat).fallAt) : Idle (.triggerPulse t) s :=
  idle_of_withDev (exec_triggerPulse t s) ((if_pos hlevel).trans (if_pos hearly))

/-- Then it goes back. -/
theorem triggerPulse_falls (hcome : (s.dev.trig t.toNat).fallAt ≤ s.dev.dev256) :
    Gives (.triggerPulse t) s ((s.dev.updTrig t.toNat fun x => { x with level := false }).emit
      (.pin "TRIG" t.toNat (s.dev.flag (F.GATE_TRIG_WIDTH_invert t.toNat)))) :=
  gives_of_withDev (exec_triggerPulse t s) ((if_pos hlevel).trans (if_neg (Nat.not_lt.mpr hcome)))

end

section
variable (hlevel : (s.dev.trig t.toNat).level = false)
include hlevel

/-- A trigger without an instant does nothing. -/
theorem triggerPulse_idle_of_none (hnone : (s.dev.trig t.toNat).next = none) : Idle (.triggerPulse t) s := by
  refine idle_of_withDev (exec_triggerPulse t s) ?_
  simp only [hlevel, hnone, Bool.false_eq_true, if_false]

variable {n : Nat} (hnext : (s.dev.trig t.toNat).next = some n)
include hnext

/-- Nor one before its instant. -/
theorem triggerPulse_idle_of_early (hearly : s.dev.dev256 < n * 256) : Idle (.triggerPulse t) s := by
  refine idle_of_withDev (exec_triggerPulse t s) ?_
  simp only [hlevel, hnext, hearly, or_true, Bool.false_eq_true, if_false, if_true]

/-- An armed one goes to its active level when its instant has come; the next is a period later. -/
theorem triggerPulse_rises (harmed : (s.dev.trig t.toNat).armed = true) (hcome : n * 256 ≤ s.dev.dev256) :
    Gives (.triggerPulse t) s ((s.dev.updTrig t.toNat fun x =>
      { x with level := true, fallAt := (n + s.dev.trigWidth t.toNat) * 256
               next := if s.dev.getF (F.GATE_TRIG_PERIOD_period t.toNat) = 0 then none else some (n + s.dev.getF (F.GATE_TRIG_PERIOD_period t.toNat)) }).emit
      (.pin "TRIG" t.toNat (!s.dev.flag (F.GATE_TRIG_WIDTH_invert t.toNat)))) := by
  refine gives_of_withDev (exec_triggerPulse t s) ?_
  simp only [hlevel, hnext, harmed, Nat.not_lt.mpr hcome, Bool.not_true, Bool.false_eq_true, or_self, if_false]

end

end

/-! ### Port links (R188) -/

/-- The status bits that show the links of a kind of port, the kind's code in PORT_LINK, and the port's number among them. -/
def linkBits (kind : PortKind) (port : BitVec 3) : FieldRef × Nat × Nat :=
  match kind with
  | .csi => (F.GATE_STATUS_csi_up, 1, port.toNat)
  | .eth => (F.GATE_STATUS_eth_up, 2, port.toNat % 4)

section
variable {s : State} {kind : PortKind} {port : BitVec 3} {up : Bool} {f : FieldRef} {k p : Nat} (hbits : linkBits kind port = (f, k, p))
include hbits

/-- A change of a port's link is shown and raised; a link that is as before does nothing. -/
theorem portLink_gives : Gives (.portLink kind port up) s
    (if (s.dev.getF f).testBit p = up then s.dev
      else (s.dev.setF f (putBit (s.dev.getF f) p up)).raise 0x0101 p 0 0 (dAt 24 1 k + dAt 25 1 (b2n up))) := by
  cases kind <;> cases hbits <;> rfl

/-- A link that is as before. -/
theorem portLink_idle (hsame : (s.dev.getF f).testBit p = up) : Idle (.portLink kind port up) s :=
  gives_of_eq (portLink_gives hbits) (if_pos hsame)

/-- A link that has changed. -/
theorem portLink_raises (hdiff : (s.dev.getF f).testBit p ≠ up) : Gives (.portLink kind port up) s
    ((s.dev.setF f (putBit (s.dev.getF f) p up)).raise 0x0101 p 0 0 (dAt 24 1 k + dAt 25 1 (b2n up))) :=
  gives_of_eq (portLink_gives hbits) (if_neg hdiff)

end

/-! ### The obligation -/

/-- Settles O35: an edge by whether its input accepts it and by its kind; latch, trigger and link by whether their instant or change has come. -/
theorem encodersAndTriggers : Obligations.EncodersAndTriggers := by
  refine ⟨fun s ch rise d cap => ⟨fun hstamp => ?edges, fun hlatch hlock hcome => encoderLatch_gives hlatch hlock rfl hcome, encoderLatch_idle⟩,
    fun s t port up => ⟨triggerPulse_idle_of_active, triggerPulse_falls, triggerPulse_idle_of_none, fun n hlevel hnext =>
      ⟨triggerPulse_rises hlevel hnext, triggerPulse_idle_of_early hlevel hnext⟩,
      ⟨portLink_idle rfl, portLink_raises rfl⟩, ⟨portLink_idle rfl, portLink_raises rfl⟩⟩⟩
  case edges =>
    exact ⟨fun edge => encoderEdge_ignored hstamp, fun htakes => gives_encGive (encoderEdge_gives_encEdge hstamp htakes),
      fun htakes => gives_encGive (encoderEdge_gives_encEdge hstamp htakes), fun htakes => gives_encGive (encoderEdge_gives_encEdge hstamp htakes),
      encoderEdge_gives_encEdge hstamp, encoderEdge_gives_encEdge hstamp⟩

end Sys2Proof.Machine
end

section
/-! PROOFS. Samples of the Ethernet ports, the IMU ports and the CAN controllers (R165, R171–R173, R176): what becomes of a frame or of a burst. -/

namespace Sys2Proof.Machine

open Sys2Proof.Safety

/-! ### Ethernet frames (R171, R176) -/

/-- The longest frame that a port takes: its setting, where that lies within the range of R171. -/
def ethLimit (mx : Nat) : Nat := if 1518 ≤ mx ∧ mx ≤ 9216 then mx else 1518

/-- A frame with a wrong FCS, or too long. -/
def ethBad (fcsOk : Bool) (limit len : Nat) : Bool := !fcsOk || decide (limit < len)

/-- A good frame has a right FCS and is not too long. -/
theorem ethBad_eq_false {fcsOk : Bool} {limit len : Nat} : ethBad fcsOk limit len = false ↔ fcsOk = true ∧ len ≤ limit := by
  simp [ethBad]

/-- A good datagram that slot `n` takes becomes its sample, its point stamps rebuilt as GATE_SLOT_PARSE asks. -/
def Dev.udpSample (d : Dev) (n mac hold sport : Nat) (payload : List Byte) : Dev :=
  let stride := max 4 (d.getF (F.GATE_SLOT_PARSE_stride n))
  let count := max 1 (d.getF (F.GATE_SLOT_PARSE_count n))
  let scale := if d.getF (F.GATE_SLOT_PARSE_unit n) = 1 then 256000 else 256
  let r := pointStamps (d.getF (F.GATE_SLOT_PARSE_mode n)) (d.getF (F.GATE_SLOT_PARSE_first n)) stride count scale mac (d.slotOffset n) payload
  let e := match r.2.2.2.2 with
    | some f => d.gateEvent 0x0106 n (ofSigned 72 f) 0
    | none => d
  e.emitSample n r.1 (r.2.1 + hold) sport r.2.2.1 r.2.2.2.1

/-- What becomes of a UDP datagram of a source. -/
def Dev.udpTaken (d : Dev) (x : Source) (bad : Bool) (mac hold sport : Nat) (payload : List Byte) : Dev :=
  if !((List.range 16).any fun n => d.slotMaps n x) then d.bump R.GATE_ETH_UNMATCHED
  else if bad then
    match d.takingSlot x with
    | some _ => d.rxError 0x0102 x mac
    | none => d.bump R.GATE_ETH_UNMATCHED
  else match d.takeIn x mac with
    | (e, none) => e
    | (e, some n) => e.udpSample n mac hold sport payload

/-- What becomes of a frame of port `p`. -/
def Dev.ethTaken (d : Dev) (p : Nat) (bad : Bool) (mac hold : Nat) : EthClass → Dev
  | .ptp => if bad then d.bump R.GATE_ETH_UNMATCHED else d
  | .other => d.bump R.GATE_ETH_UNMATCHED
  | .udp sport dport payload => d.udpTaken { kind := 2, port := p, key := dport } bad mac hold sport payload

theorem exec_ethFrameReceive (port : BitVec 2) (fcsOk : Bool) (frame : List Byte) (s : State) :
    exec (.ethFrameReceive port fcsOk frame) s = execEthFrameReceive port fcsOk frame s := rfl

section
variable {s : State} {port : BitVec 2} {fcsOk : Bool} {frame : List Byte}

/-- A port that is off, or in a mode that does not exist, takes no frame. -/
theorem ethFrameReceive_idle (h : s.dev.getF (F.GATE_ETH_CTL_mode port.toNat) = 0 ∨ 4 < s.dev.getF (F.GATE_ETH_CTL_mode port.toNat)) :
    Idle (.ethFrameReceive port fcsOk frame) s := idle_of_withDev (exec_ethFrameReceive port fcsOk frame s) (if_pos h)

/-- An enabled port stamps the frame with its ingress correction, and its class says what becomes of it. -/
theorem ethFrameReceive_gives_ethTaken {d : Dev} {cap : Capture} {class' : EthClass} (hmode : 1 ≤ s.dev.getF (F.GATE_ETH_CTL_mode port.toNat))
    (hmode' : s.dev.getF (F.GATE_ETH_CTL_mode port.toNat) ≤ 4) (hstamp : s.dev.takeStamp (28 + port.toNat) 0 true = (d, cap))
    (hclass : ethClass (frame.take (frame.length - 4)) = class') :
    Gives (.ethFrameReceive port fcsOk frame) s
      (d.ethTaken port.toNat (ethBad fcsOk (ethLimit (s.dev.getF (F.GATE_ETH_CTL_max_frame port.toNat))) frame.length)
        (addStamp cap.time (-(d.getF (F.GATE_ETH_INGRESS_CORR_corr port.toNat) : Int))) cap.hold class') := by
  subst hclass
  refine gives_of_withDev (exec_ethFrameReceive port fcsOk frame s) ?_
  simp only [hstamp]
  rw [if_neg (by omega)]
  cases ethClass (frame.take (frame.length - 4)) with
  | ptp => rfl
  | other => rfl
  | udp sport dport payload => rfl

end

section
variable {d : Dev} {x : Source} {bad : Bool} {mac hold sport n : Nat} {payload : List Byte}

/-- A datagram of a source that no slot maps is counted as unmatched. -/
theorem Dev.udpTaken_unmatched (hnone : ∀ n < 16, d.slotMaps n x = false) : d.udpTaken x bad mac hold sport payload = d.bump R.GATE_ETH_UNMATCHED :=
  if_pos (by simpa using hnone)

/-- The slot that takes a source maps it. -/
theorem Dev.any_slotMaps_of_takingSlot (htakes : d.takingSlot x = some n) : ((List.range 16).any fun n => d.slotMaps n x) = true := by
  have hmaps := List.find?_some htakes
  simp only [Bool.and_eq_true] at hmaps
  exact List.any_eq_true.mpr ⟨n, List.mem_of_find?_eq_some htakes, hmaps.1.1⟩

variable (htakes : d.takingSlot x = some n)
include htakes

/-- A receive error is counted and reported in the slot that takes the source. -/
theorem Dev.rxError_taken (code stamp : Nat) : d.rxError code x stamp = (d.bump (R.GATE_SLOT_ERR n)).gateEvent code n stamp 0 := by
  simp only [Dev.rxError, htakes]

/-- A bad datagram is an error of its slot. -/
theorem Dev.udpTaken_bad : d.udpTaken x true mac hold sport payload = (d.bump (R.GATE_SLOT_ERR n)).gateEvent 0x0102 n mac 0 := by
  simp only [Dev.udpTaken, Dev.any_slotMaps_of_takingSlot htakes, Bool.not_true, Bool.false_eq_true, if_false, if_true, htakes,
    Dev.rxError_taken htakes]

/-- A good one that the slot takes in is its sample. -/
theorem Dev.udpTaken_good {e : Dev} (hin : d.takeIn x mac = (e, some n)) :
    d.udpTaken x false mac hold sport payload = e.udpSample n mac hold sport payload := by
  simp only [Dev.udpTaken, Dev.any_slotMaps_of_takingSlot htakes, Bool.not_true, Bool.false_eq_true, if_false, hin]

end

/-- Without point stamps the sample has the stamp of its frame, and its payload as it came. -/
theorem Dev.udpSample_plain {d : Dev} {n : Nat} (hmode : d.getF (F.GATE_SLOT_PARSE_mode n) = 0) (mac hold sport : Nat) (payload : List Byte) :
    d.udpSample n mac hold sport payload = d.emitSample n (addStamp mac (d.slotOffset n)) hold sport 0 payload := by
  simp [Dev.udpSample, pointStamps, hmode]

/-! ### IMU transfers (R172) -/

theorem exec_imuDrdyEdge (port : BitVec 1) (s : State) : exec (.imuDrdyEdge port) s = execImuDrdyEdge port s := rfl

theorem exec_imuTransferEnd (port : BitVec 1) (miso : List Byte) (s : State) :
    exec (.imuTransferEnd port miso) s = execImuTransferEnd port miso s := rfl

section
variable {s : State} {port : BitVec 1} {d : Dev} {c : Capture} (hstamp : s.dev.takeStamp (16 + port.toNat) (s.dev.filterEdges (16 + port.toNat))
  (!s.dev.flag (F.GATE_IMU_CTL_drdy_pol port.toNat)) = (d, c))
include hstamp

/-- A port without a burst only takes the edge's stamp. -/
theorem imuDrdyEdge_noBurst (hburst : d.getF (F.GATE_IMU_CTL_burst port.toNat) = 0) : Gives (.imuDrdyEdge port) s d :=
  gives_of_withDev (exec_imuDrdyEdge port s) (by simp only [hstamp, hburst, if_true])

variable (hburst : d.getF (F.GATE_IMU_CTL_burst port.toNat) ≠ 0)
include hburst

/-- An edge lowers CS_N and starts a transfer. -/
theorem imuDrdyEdge_starts (hidle : SMap.get (fun _ => none) d.gate.imu port.toNat = none) : Gives (.imuDrdyEdge port) s
    (((d.updGate fun g => { g with
      imu := SMap.set (fun _ => none) g.imu port.toNat (some ⟨c.time - 256, c.hold, d.takingSlot { kind := 3, port := port.toNat }⟩) }).emit (.pin "IMU_CS_N" port.toNat false)).emit
      (d.imuSends port.toNat)) :=
  gives_of_withDev (exec_imuDrdyEdge port s) (by simp only [hstamp, hburst, hidle, if_false])

/-- One during a transfer is an error. -/
theorem imuDrdyEdge_error (hbusy : SMap.get (fun _ => none) d.gate.imu port.toNat ≠ none) :
    Gives (.imuDrdyEdge port) s (d.rxError 0x0102 { kind := 3, port := port.toNat } (c.time - 256)) := by
  obtain ⟨x, hx⟩ := Option.ne_none_iff_exists'.mp hbusy
  exact gives_of_withDev (exec_imuDrdyEdge port s) (by simp only [hstamp, hburst, hx, if_false])

end

/-- The transfer of port `p` ends, and CS_N rises. -/
def Dev.imuEnded (d : Dev) (p : Nat) : Dev :=
  (d.updGate fun g => { g with imu := SMap.set (fun _ => none) g.imu p none }).emit (.pin "IMU_CS_N" p true)

/-- The bytes of a burst: as many as the port asks for, without those clocked in under the command byte. -/
def Dev.imuBurst (d : Dev) (p : Nat) (miso : List Byte) : List Byte :=
  (if d.flag (F.GATE_IMU_CTL_cmd_en p) then miso.drop 1 else miso).take (d.getF (F.GATE_IMU_CTL_burst p))

section
variable {s : State} {port : BitVec 1} {miso : List Byte}

/-- Without a transfer nothing ends. -/
theorem imuTransferEnd_idle (hnone : SMap.get (fun _ => none) s.dev.gate.imu port.toNat = none) : Idle (.imuTransferEnd port miso) s :=
  idle_of_withDev (exec_imuTransferEnd port miso s) (by simp only [hnone])

variable {st : ImuXfer} (hxfer : SMap.get (fun _ => none) s.dev.gate.imu port.toNat = some st)
include hxfer

/-- A transfer that began under a mapping ends as a sample, and the slot takes a mapping that waited for it. -/
theorem imuTransferEnd_mapped {n : Nat} (hslot : st.slot = some n) : Gives (.imuTransferEnd port miso) s
    (((s.dev.imuEnded port.toNat).portArrival { kind := 3, port := port.toNat } st.stamp st.hold (s.dev.getF (F.GATE_IMU_CTL_burst port.toNat)) 0
      (s.dev.imuBurst port.toNat miso)).applyPendMap n) := by
  refine gives_of_withDev (exec_imuTransferEnd port miso s) ?_
  simp only [hxfer, hslot, Option.isNone_some, Bool.false_eq_true, false_and, if_false]
  rfl

/-- One that began without, and whose source no slot takes at its end either, is discarded as R181 says. -/
theorem imuTransferEnd_unmapped (hslot : st.slot = none) (htakes : (s.dev.imuEnded port.toNat).takingSlot { kind := 3, port := port.toNat } = none) :
    Gives (.imuTransferEnd port miso) s ((s.dev.imuEnded port.toNat).portArrival { kind := 3, port := port.toNat } st.stamp st.hold
      (s.dev.getF (F.GATE_IMU_CTL_burst port.toNat)) 0 (s.dev.imuBurst port.toNat miso)) := by
  unfold Dev.imuEnded at htakes
  refine gives_of_withDev (exec_imuTransferEnd port miso s) ?_
  simp only [hxfer, hslot, htakes, Option.isSome_none, Bool.false_eq_true, and_false, if_false]
  rfl

end

/-! ### CAN frames (R165, R173; log 61) -/

/-- The source of a frame of controller `k`. -/
def canSource (k : Nat) (f : CanFrame) : Source := { kind := 4, port := k, key := f.id.toNat, ext := f.ext }

/-- The stamp of a frame: its captured start less 150 ns. -/
def canStamp (c : Capture) : Nat := addStamp c.time (-(150 * 256))

/-- Controller `k` acknowledges a good frame, unless it only listens. -/
def Dev.canAcks (d : Dev) (k : Nat) : Dev :=
  if d.flag (F.GATE_CAN_CTL_listen_only k) then d
  else (d.setCan k (d.getF (F.GATE_CAN_CTL_tec k)) (if 127 < d.getF (F.GATE_CAN_CTL_rec k) then 127 else d.getF (F.GATE_CAN_CTL_rec k) - 1)).emit
    (.canFlag k false)

/-- Controller `k` signals a bad frame, unless it only listens. -/
def Dev.canFlags (d : Dev) (k : Nat) : Dev :=
  if d.flag (F.GATE_CAN_CTL_listen_only k) then d
  else (d.setCan k (d.getF (F.GATE_CAN_CTL_tec k)) (min 255 (d.getF (F.GATE_CAN_CTL_rec k) + 1))).emit (.canFlag k true)

/-- A data frame becomes a sample. -/
def Dev.canSample (d : Dev) (k : Nat) (f : CanFrame) (c : Capture) : Dev :=
  d.portArrival (canSource k f) (canStamp c) c.hold (f.id.toNat + b2n f.ext * 2 ^ 29 + b2n f.fd * 2 ^ 30 + b2n f.brs * 2 ^ 31) f.dlc.toNat f.data

/-- A frame that ends in an error frame, or of a format that the controller does not take. -/
def Dev.canBad (d : Dev) (k : Nat) (f : CanFrame) : Bool := !f.ok || (f.fd && !d.flag (F.GATE_CAN_CTL_fd k))

/-- What becomes of a frame of another node. -/
def Dev.canTaken (d : Dev) (k : Nat) (f : CanFrame) (c : Capture) : Dev :=
  if d.canBad k f then (d.canFlags k).rxError 0x0102 (canSource k f) (canStamp c)
  else if f.rtr then d.canAcks k
  else (d.canAcks k).canSample k f c

theorem exec_canFrameReceive (ctl : BitVec 1) (f : CanFrame) (s : State) : exec (.canFrameReceive ctl f) s = execCanFrameReceive ctl f s := rfl
theorem exec_canBusOffRecovery (ctl : BitVec 1) (s : State) : exec (.canBusOffRecovery ctl) s = execCanBusOffRecovery ctl s := rfl

section
variable {d : Dev} {k : Nat}

/-- A frame is good when it ends well and the controller takes its format. -/
theorem Dev.canBad_eq_false {f : CanFrame} : d.canBad k f = false ↔ f.ok = true ∧ (f.fd = true → d.flag (F.GATE_CAN_CTL_fd k) = true) := by
  simp [Dev.canBad]

/-- A controller that only listens answers nothing. -/
theorem Dev.canAcks_listening (h : d.flag (F.GATE_CAN_CTL_listen_only k) = true) : d.canAcks k = d := if_pos h
theorem Dev.canFlags_listening (h : d.flag (F.GATE_CAN_CTL_listen_only k) = true) : d.canFlags k = d := if_pos h

/-- No attempt ends in error while the Steward runs no CAN_SEND, or the controller only listens. -/
theorem Dev.canFailed_none (h : d.runs 0x70 = none ∨ d.flag (F.GATE_CAN_CTL_listen_only k) = true) : d.canFailed k = d := by
  unfold Dev.canFailed
  split
  case h_1 cmd hruns => exact if_pos (.inr (h.resolve_left (by simp [hruns])))
  case h_2 => rfl

/-- An attempt of the CAN_SEND that runs is signalled and counted. -/
theorem Dev.canFailed_counted {cmd : List Byte} (hruns : d.runs 0x70 = some cmd) (hctl : leAt cmd 8 1 = k)
    (hlisten : d.flag (F.GATE_CAN_CTL_listen_only k) = false) :
    d.canFailed k = (d.setCan k (d.getF (F.GATE_CAN_CTL_tec k) + 8) (d.getF (F.GATE_CAN_CTL_rec k))).emit (.canFlag k true) := by
  simp [Dev.canFailed, hruns, hctl, hlisten]

end

section
variable {s : State} {ctl : BitVec 1} {f : CanFrame}

/-- A controller that is off, or bus-off, receives nothing. -/
theorem canFrameReceive_idle (h : s.dev.flag (F.GATE_CAN_CTL_enable ctl.toNat) = false ∨ s.dev.getF (F.GATE_CAN_CTL_state ctl.toNat) = 2) :
    Idle (.canFrameReceive ctl f) s :=
  idle_of_withDev (exec_canFrameReceive ctl f s) (if_pos (h.imp_left fun h => by simp [h]))

section
variable (hon : s.dev.flag (F.GATE_CAN_CTL_enable ctl.toNat) = true) (hbus : s.dev.getF (F.GATE_CAN_CTL_state ctl.toNat) ≠ 2)
include hon hbus

/-- A controller receives no frame of its own; an attempt of it that ends in an error frame has failed. -/
theorem canFrameReceive_own (hown : f.own = true) :
    Gives (.canFrameReceive ctl f) s (if f.ok then s.dev else s.dev.canFailed ctl.toNat) :=
  gives_of_withDev (exec_canFrameReceive ctl f s) ((if_neg (by simp [hon, hbus])).trans (if_pos hown))

/-- A frame of another node is stamped, and what becomes of it goes by its end and its format. -/
theorem canFrameReceive_gives_canTaken {d : Dev} {c : Capture} (hown : f.own = false)
    (hstamp : s.dev.takeStamp (18 + ctl.toNat) 0 false = (d, c)) : Gives (.canFrameReceive ctl f) s (d.canTaken ctl.toNat f c) := by
  refine gives_of_withDev (exec_canFrameReceive ctl f s) ((if_neg (by simp [hon, hbus])).trans ((if_neg (by simp [hown])).trans ?_))
  simp only [hstamp]
  rfl

end

/-- A controller in bus-off is error active again, with its counters at zero. -/
theorem canBusOffRecovery_gives (hbus : s.dev.getF (F.GATE_CAN_CTL_state ctl.toNat) = 2) : Gives (.canBusOffRecovery ctl) s
    (((s.dev.setF (F.GATE_CAN_CTL_tec ctl.toNat) 0).setF (F.GATE_CAN_CTL_rec ctl.toNat) 0).setF (F.GATE_CAN_CTL_state ctl.toNat) 0) :=
  gives_of_withDev (exec_canBusOffRecovery ctl s) (if_pos hbus)

/-- No other is. -/
theorem canBusOffRecovery_idle (hbus : s.dev.getF (F.GATE_CAN_CTL_state ctl.toNat) ≠ 2) : Idle (.canBusOffRecovery ctl) s :=
  idle_of_withDev (exec_canBusOffRecovery ctl s) (if_neg hbus)

end

/-! ### The obligation -/

/-- Settles O34: an Ethernet frame by its class, an IMU edge and a transfer's end by the transfer that runs, a CAN frame by its sender and its end. -/
theorem portFrames : Obligations.PortFrames := by
  refine ⟨fun s port fcsOk frame d e cap => ⟨ethFrameReceive_idle, fun hmode hmode' hstamp => ?ethernet⟩,
    fun s port ctl miso f d c => ⟨fun hstamp => ⟨imuDrdyEdge_noBurst hstamp, imuDrdyEdge_starts hstamp, imuDrdyEdge_error hstamp⟩,
      imuTransferEnd_idle, fun st hxfer => ⟨fun n => imuTransferEnd_mapped hxfer, imuTransferEnd_unmapped hxfer⟩,
      canFrameReceive_idle, fun hon hbus hown => ?own, fun hon hbus hown hstamp => ?other, canBusOffRecovery_gives, canBusOffRecovery_idle⟩⟩
  case ethernet =>
    refine ⟨fun hgood hclass => ?ptp, fun hclass => ethFrameReceive_gives_ethTaken hmode hmode' hstamp hclass, fun sport dport payload hclass => ?udp⟩
    case ptp => exact gives_of_eq (ethFrameReceive_gives_ethTaken hmode hmode' hstamp hclass) (if_neg (Bool.eq_false_iff.mp (ethBad_eq_false.mpr hgood)))
    case udp =>
      have htaken := ethFrameReceive_gives_ethTaken (fcsOk := fcsOk) hmode hmode' hstamp hclass
      refine ⟨fun hnone => gives_of_eq htaken (Dev.udpTaken_unmatched hnone), fun n hbad htakes => ?_, fun n hgood htakes hin hplain => ?_⟩
      · have hbad : ethBad fcsOk _ frame.length = true := eq_true_of_ne_false (mt ethBad_eq_false.mp hbad)
        exact gives_of_eq htaken ((congrArg (Dev.udpTaken d _ · _ _ _ _) hbad).trans (Dev.udpTaken_bad htakes))
      · have hgood : ethBad fcsOk _ frame.length = false := ethBad_eq_false.mpr hgood
        exact gives_of_eq htaken ((congrArg (Dev.udpTaken d _ · _ _ _ _) hgood).trans
          ((Dev.udpTaken_good htakes hin).trans (Dev.udpSample_plain hplain _ _ _ _)))
  case own =>
    have hgives := canFrameReceive_own hon hbus hown
    refine ⟨fun hidle => gives_of_eq hgives ?_, fun cmd hruns hctl hbad hlisten => gives_of_eq hgives ?_⟩
    · cases hok : f.ok with
      | true => rfl
      | false => exact Dev.canFailed_none (hidle.resolve_left (by simp [hok]))
    · rw [hbad]
      exact Dev.canFailed_counted hruns hctl hlisten
  case other =>
    have htaken := canFrameReceive_gives_canTaken hon hbus hown hstamp
    refine ⟨fun hgood hdata => ?data, fun hgood hremote => ?remote, fun hbad => ?bad⟩
    case data =>
      have hsample := gives_of_eq htaken ((if_neg (by simp [Dev.canBad_eq_false.mpr hgood])).trans (if_neg (by simp [hdata])))
      exact ⟨fun hlisten => gives_of_eq hsample (by rw [Dev.canAcks_listening hlisten]; rfl),
        fun hlisten => gives_of_eq hsample (by rw [Dev.canAcks, if_neg hlisten]; rfl)⟩
    case remote =>
      have hacks := gives_of_eq htaken ((if_neg (by simp [Dev.canBad_eq_false.mpr hgood])).trans (if_pos hremote))
      exact ⟨fun hlisten => gives_of_eq hacks (if_pos hlisten), fun hlisten => gives_of_eq hacks (if_neg hlisten)⟩
    case bad =>
      have hflags := gives_of_eq htaken (if_pos (eq_true_of_ne_false (mt Dev.canBad_eq_false.mp hbad)))
      exact ⟨fun hlisten => gives_of_eq hflags (by rw [Dev.canFlags_listening hlisten]; rfl),
        fun hlisten => gives_of_eq hflags (by rw [Dev.canFlags, if_neg hlisten]; rfl)⟩

end Sys2Proof.Machine
end

section
/-! PROOFS. Camera frames (R165, R170, R175, R526, R527): the stamp and the opening of a frame, its packets and its end. -/

namespace Sys2Proof.Machine

open Sys2Proof.Safety

/-! ### What conversions and receive errors leave alone -/

/-- A field reads the registers only. -/
theorem Dev.getF_of_regs {d e : Dev} (h : e.regs = d.regs) (f : FieldRef) : e.getF f = d.getF f := by
  simp only [Dev.getF, Dev.reg, h]

/-- A conversion leaves the registers alone (R208). -/
theorem Dev.convert_regs (d : Dev) (r : Nat) : (d.convert r).regs = d.regs := by
  unfold Dev.convert
  split
  · rfl
  · dsimp only
    split <;> rfl

/-- So does the next one of the stamp unit. -/
theorem Dev.convertNext_regs (d : Dev) : d.convertNext.regs = d.regs := by
  unfold Dev.convertNext
  split
  · exact Dev.convert_regs d _
  · rfl

/-- And so do those that a user of stamps waits for. -/
theorem Dev.convertUntil_regs (d : Dev) (r k : Nat) : (d.convertUntil r k).regs = d.regs := by
  induction k generalizing d with
  | zero => rfl
  | succ k ih =>
    unfold Dev.convertUntil
    split
    · rfl
    · rw [ih, Dev.convertNext_regs]

/-- A record of the Gatehouse leaves the ports alone. -/
theorem Dev.gateEvent_gate (d : Dev) (code n stamp b25 : Nat) : (d.gateEvent code n stamp b25).gate = d.gate := by
  have hreports : d.ReportsTo (d.gateEvent code n stamp b25) := d.reportsTo_raise _ _ _ _ _
  obtain ⟨r, sm, ev, ho, o, hraised⟩ := hreports
  rw [hraised]

/-- So does a receive error, which is counted and reported. -/
theorem Dev.rxError_gate (d : Dev) (code : Nat) (x : Source) (stamp : Nat) : (d.rxError code x stamp).gate = d.gate := by
  unfold Dev.rxError
  split
  · exact Dev.gateEvent_gate _ _ _ _ _
  · rfl

/-! ### The stamp of a frame (R165, R175) -/

section
variable {d : Dev} {p c : Nat}

/-- A port without a strobe mode asks for no pulse. -/
theorem Dev.csiStrobe_off (h1 : d.getF (F.GATE_CSI_CTL_strobe_mode p) ≠ 1) (h2 : d.getF (F.GATE_CSI_CTL_strobe_mode p) ≠ 2) :
    d.csiStrobe p c = (d, none, false) := if_pos ⟨h1, h2⟩

/-- Without a pulse a frame has its packet's stamp, less the port's offset. -/
theorem Dev.csiBase_packet {e : Dev} (hregs : e.regs = d.regs) :
    e.csiBase p c none = (addStamp c (-(d.getF (F.GATE_CSI_FS_OFFSET_offset p) * 256 : Nat)), 0) := by
  simp only [Dev.csiBase, Dev.getF_of_regs hregs]

/-- With one it has the pulse's middle in mode 1, its rise in mode 2, and its width in ns. -/
theorem Dev.csiBase_pulse {e : Dev} (hregs : e.regs = d.regs) (q : Pulse) :
    e.csiBase p c (some q) = (if d.getF (F.GATE_CSI_CTL_strobe_mode p) = 1 then (q.rise + q.fall) / 2 else q.rise,
      min ((q.fall - q.rise) / 256) 0xFFFFFFFF) := by
  simp only [Dev.csiBase, Dev.getF_of_regs hregs]

/-- The pulse `q` of an input has been served to port `p`. -/
def Dev.pulseServed (d : Dev) (p input : Nat) (q : Pulse) : Dev :=
  d.updGate fun g => { g with strobes := SMap.modify (fun _ => {}) g.strobes input fun st =>
    { st with pulses := st.pulses.map fun y => if y = q then { y with served := p :: y.served } else y } }

/-- A pulse that is served changes no register, and neither do the conversions before it. -/
theorem Dev.pulseServed_regs (d : Dev) (r k p input : Nat) (q : Pulse) : ((d.convertUntil r k).pulseServed p input q).regs = d.regs :=
  d.convertUntil_regs r k

section
variable {input : Nat} (hmode : d.getF (F.GATE_CSI_CTL_strobe_mode p) = 1 ∨ d.getF (F.GATE_CSI_CTL_strobe_mode p) = 2)
  (hinput : d.getF (F.GATE_CSI_CTL_strobe_input p) = input)
include hmode hinput

/-- In the strobe modes the input's edges are converted; where they hold no pulse for the frame, it falls back. -/
theorem Dev.csiStrobe_unmatched (hpulse : (d.convertUntil input 75).matchPulse p input c = none) :
    d.csiStrobe p c = (d.convertUntil input 75, none, true) := by
  have hgo : ¬(d.getF (F.GATE_CSI_CTL_strobe_mode p) ≠ 1 ∧ d.getF (F.GATE_CSI_CTL_strobe_mode p) ≠ 2) := by omega
  subst hinput
  simp only [Dev.csiStrobe, if_neg hgo, hpulse]

/-- The pulse that they hold is served to the port. -/
theorem Dev.csiStrobe_matched {q : Pulse} (hpulse : (d.convertUntil input 75).matchPulse p input c = some q) :
    d.csiStrobe p c = ((d.convertUntil input 75).pulseServed p input q, some q, false) := by
  have hgo : ¬(d.getF (F.GATE_CSI_CTL_strobe_mode p) ≠ 1 ∧ d.getF (F.GATE_CSI_CTL_strobe_mode p) ≠ 2) := by omega
  subst hinput
  simp only [Dev.csiStrobe, if_neg hgo, hpulse]
  rfl

end

end

/-! ### The opening of a frame (R166, R181, R527) -/

/-- A frame of the source `x` stands open for slot `n`. -/
def Dev.csiOpened (d : Dev) (x : Source) (n base width frame hold fl : Nat) (left : Bool) : Dev :=
  d.updGate fun g => { g with csi := g.csi ++
    [{ port := x.port, vc := x.key % 4, dt := x.key / 4, slot := n,
       hdr := { slot := n, kind := 1, stamp := addStamp base (d.slotOffset n), flags := hold + fl + 128, seq := 0, bytes := 0,
                src := x.key % 256, aux := frame + width * 65536 },
       buf := [], total := 0, lines := 0, partialF := false, started := false, drop := left }] }

section
variable {d e : Dev} {x : Source} {n base width frame hold : Nat} {taken : Option Nat} (htakes : d.takingSlot x = some n)
include htakes

/-- A source concerns the slot that takes it. -/
theorem Dev.slotConcerned_taking : d.slotConcerned x = some n := by
  simp only [Dev.slotConcerned, htakes]

/-- A frame opens for the slot that takes its source; one of a discarded sample is left out. -/
theorem Dev.csiOpen_taking (hin : d.takeIn x base = (e, taken)) :
    d.csiOpen x base width frame hold false = e.csiOpened x n base width frame hold 0 taken.isNone := by
  simp only [Dev.csiOpen, Dev.slotConcerned_taking htakes, Bool.false_eq_true, if_false, hin]
  rfl

/-- One without the pulse that it should match is reported, and carries the fallback flag. -/
theorem Dev.csiOpen_fallback (hin : (d.gateEvent 0x0107 n (addStamp base (d.slotOffset n)) 0).takeIn x base = (e, taken)) :
    d.csiOpen x base width frame hold true = e.csiOpened x n base width frame hold 2 taken.isNone := by
  simp only [Dev.csiOpen, Dev.slotConcerned_taking htakes, if_true, hin]
  rfl

end

/-! ### CSI_FRAME_START -/

theorem exec_csiFrameStart (port : BitVec 3) (vc : BitVec 2) (good : Bool) (frame : BitVec 16) (s : State) :
    exec (.csiFrameStart port vc good frame) s = execCsiFrameStart port vc good frame s := rfl

/-- A packet whose header cannot be corrected starts no frame. -/
theorem csiFrameStart_idle {s : State} {port : BitVec 3} {vc : BitVec 2} (frame : BitVec 16) : Idle (.csiFrameStart port vc false frame) s :=
  idle_of_withDev (exec_csiFrameStart port vc false frame s) rfl

section
variable {s : State} {port : BitVec 3} {vc : BitVec 2} {frame : BitVec 16} {d e : Dev} {cap : Capture} {pulse : Option Pulse} {fallback : Bool}
  {base width : Nat} (hstamp : (s.dev.csiCut port.toNat vc.toNat).takeStamp (8 + port.toNat) 0 true = (d, cap))
  (hstrobe : d.csiStrobe port.toNat cap.time = (e, pulse, fallback)) (hbase : e.csiBase port.toNat cap.time pulse = (base, width))
include hstamp hstrobe hbase

/-- A frame start cuts, is stamped, and opens a frame for each source of its virtual channel. -/
theorem csiFrameStart_gives : Gives (.csiFrameStart port vc true frame) s
    ((e.csiSources port.toNat vc.toNat).foldl (fun d x => d.csiOpen x base width frame.toNat cap.hold fallback) e) := by
  refine gives_of_withDev (exec_csiFrameStart port vc true frame s) ?_
  simp only [Bool.not_true, Bool.false_eq_true, if_false, hstamp, hstrobe, hbase]

/-- Without a source it opens none. -/
theorem csiFrameStart_none (hnone : e.csiSources port.toNat vc.toNat = []) : Gives (.csiFrameStart port vc true frame) s e :=
  gives_of_eq (csiFrameStart_gives hstamp hstrobe hbase) (by rw [hnone]; rfl)

/-- With one it opens its frame. -/
theorem csiFrameStart_one {x : Source} (hone : e.csiSources port.toNat vc.toNat = [x]) :
    Gives (.csiFrameStart port vc true frame) s (e.csiOpen x base width frame.toNat cap.hold fallback) :=
  gives_of_eq (csiFrameStart_gives hstamp hstrobe hbase) (by rw [hone]; rfl)

end

/-! ### The end of frames (R170, R526) -/

/-- The ports once the open frames that satisfy `p` are no longer open. -/
def Dev.csiWithout (d : Dev) (p : CsiFrame → Bool) : Dev := d.updGate fun g => { g with csi := g.csi.filter fun f => !p f }

/-- The open frames of a virtual channel. -/
def onChannel (p vc : Nat) (f : CsiFrame) : Bool := f.port == p && f.vc == vc

section
variable {d : Dev} {p : CsiFrame → Bool} {f : CsiFrame} {cut : Bool}

/-- With no such frame open none ends. -/
theorem Dev.csiClose_none (hnone : d.gate.csi.filter p = []) : d.csiClose p cut = d := by
  have hall : (d.gate.csi.filter fun f => !p f) = d.gate.csi := by
    simpa [List.filter_eq_self, List.filter_eq_nil_iff] using hnone
  simp only [Dev.csiClose, hnone, List.foldl_nil, Dev.updGate, hall]

section
variable (hone : d.gate.csi.filter p = [f])
include hone

/-- The one that is open ends, and its slot takes a mapping that waited for it. -/
theorem Dev.csiClose_ends (hkept : f.drop = false) :
    d.csiClose p cut = ((d.csiWithout p).csiFinish { f with partialF := f.partialF || cut }).applyPendMap f.slot := by
  simp only [Dev.csiClose, hone, List.foldl_cons, List.foldl_nil]
  exact congrArg (Dev.applyPendMap · f.slot) (if_neg (by simp [hkept]))

/-- One that is left out ends without words. -/
theorem Dev.csiClose_drops (hdrop : f.drop = true) : d.csiClose p cut = (d.csiWithout p).applyPendMap f.slot := by
  simp only [Dev.csiClose, hone, List.foldl_cons, List.foldl_nil]
  exact congrArg (Dev.applyPendMap · f.slot) (if_pos hdrop)

end

variable {port vc : Nat}

/-- A frame start that finds no frame open on its virtual channel cuts none. -/
theorem Dev.csiCut_none (hnone : d.gate.csi.filter (onChannel port vc) = []) : d.csiCut port vc = d := by
  have hclose : d.csiClose (onChannel port vc) true = d := Dev.csiClose_none hnone
  unfold onChannel at *
  simp only [Dev.csiCut, hnone, List.foldl_nil, hclose]

/-- One that finds a frame open cuts it: an error of its source, and the frame is partial. -/
theorem Dev.csiCut_one (hone : d.gate.csi.filter (onChannel port vc) = [f]) (hkept : f.drop = false) : d.csiCut port vc =
    (((d.rxError 0x0102 { kind := 1, port := port, key := f.vc + f.dt * 4 } d.dev256).csiWithout (onChannel port vc)).csiFinish
      { f with partialF := true }).applyPendMap f.slot := by
  have hcut : (d.rxError 0x0102 ⟨1, port, f.vc + f.dt * 4, false⟩ d.dev256).gate.csi.filter (onChannel port vc) = [f] := by
    rw [Dev.rxError_gate, hone]
  have hclose := Dev.csiClose_ends (cut := true) hcut hkept
  rw [Bool.or_true] at hclose
  unfold onChannel at *
  simp only [Dev.csiCut, hone, List.foldl_cons, List.foldl_nil]
  exact hclose

end

theorem exec_csiFrameEnd (port : BitVec 3) (vc : BitVec 2) (s : State) :
    exec (.csiFrameEnd port vc) s = s.withDev fun d => d.csiClose (onChannel port.toNat vc.toNat) false := rfl

section
variable {s : State} {port : BitVec 3} {vc : BitVec 2}

/-- A frame end that finds no frame open does nothing. -/
theorem csiFrameEnd_idle (hnone : s.dev.gate.csi.filter (onChannel port.toNat vc.toNat) = []) : Idle (.csiFrameEnd port vc) s :=
  idle_of_withDev (exec_csiFrameEnd port vc s) (Dev.csiClose_none hnone)

variable {f : CsiFrame} (hone : s.dev.gate.csi.filter (onChannel port.toNat vc.toNat) = [f])
include hone

/-- The open frame ends. -/
theorem csiFrameEnd_ends (hkept : f.drop = false) :
    Gives (.csiFrameEnd port vc) s (((s.dev.csiWithout (onChannel port.toNat vc.toNat)).csiFinish f).applyPendMap f.slot) :=
  gives_of_withDev (exec_csiFrameEnd port vc s) ((Dev.csiClose_ends hone hkept).trans (by rw [Bool.or_false]))

/-- One that is left out ends without words. -/
theorem csiFrameEnd_drops (hdrop : f.drop = true) :
    Gives (.csiFrameEnd port vc) s ((s.dev.csiWithout (onChannel port.toNat vc.toNat)).applyPendMap f.slot) :=
  gives_of_withDev (exec_csiFrameEnd port vc s) (Dev.csiClose_drops hone hdrop)

end

/-! ### The packets of a frame (R169, R170, R526) -/

/-- The open frames of a data type of a virtual channel. -/
def ofType (p vc dt : Nat) (f : CsiFrame) : Bool := f.port == p && f.vc == vc && f.dt == dt

/-- An open frame takes the place of the one that `p` finds. -/
def Dev.csiPut (d : Dev) (p : CsiFrame → Bool) (f : CsiFrame) : Dev :=
  d.updGate fun g => { g with csi := g.csi.map fun y => if p y then f else y }

theorem exec_csiLongPacket (port : BitVec 3) (vc : BitVec 2) (dt : BitVec 6) (good : Bool) (payload : List Byte) (s : State) :
    exec (.csiLongPacket port vc dt good payload) s = execCsiLongPacket port vc dt good payload s := rfl

section
variable {s : State} {port : BitVec 3} {vc : BitVec 2} {dt : BitVec 6} {good : Bool} {payload : List Byte}

/-- A packet of a type that the port does not support is ignored. -/
theorem csiLongPacket_unsupported (htype : csiTypes.contains dt.toNat = false) : Idle (.csiLongPacket port vc dt good payload) s :=
  idle_of_withDev (exec_csiLongPacket port vc dt good payload s) (if_pos (by rw [htype]; rfl))

variable (htype : csiTypes.contains dt.toNat = true)
include htype

/-- Without an open frame of its type a good packet does nothing, and a bad one is an error of its source. -/
theorem csiLongPacket_closed (hnone : s.dev.gate.csi.find? (ofType port.toNat vc.toNat dt.toNat) = none) :
    Gives (.csiLongPacket port vc dt good payload) s
      (if good then s.dev else s.dev.rxError 0x0102 { kind := 1, port := port.toNat, key := vc.toNat + dt.toNat * 4 } s.dev.dev256) := by
  unfold ofType at hnone
  refine gives_of_withDev (exec_csiLongPacket port vc dt good payload s) ?_
  simp only [htype, hnone, Bool.not_true, Bool.false_eq_true, if_false]

variable {f : CsiFrame} (hopen : s.dev.gate.csi.find? (ofType port.toNat vc.toNat dt.toNat) = some f)
include hopen

/-- A good packet's payload joins the open frame, whose complete words are written. -/
theorem csiLongPacket_good {e : Dev} {g : CsiFrame} (hkept : f.drop = false)
    (hflush : s.dev.csiFlush (payload.length / 64 + 2)
      { f with buf := f.buf ++ payload, total := f.total + payload.length, lines := f.lines + 1 } = (e, g)) :
    Gives (.csiLongPacket port vc dt true payload) s (e.csiPut (ofType port.toNat vc.toNat dt.toNat) g) := by
  unfold ofType at *
  refine gives_of_withDev (exec_csiLongPacket port vc dt true payload s) ?_
  simp only [htype, hopen, Bool.not_true, Bool.false_eq_true, if_false, Bool.true_and, if_true]
  rw [if_neg (by simp [hkept]), hflush]
  rfl

/-- That of a frame that is left out is ignored. -/
theorem csiLongPacket_dropped (hdrop : f.drop = true) : Idle (.csiLongPacket port vc dt true payload) s := by
  unfold ofType at hopen
  refine idle_of_withDev (exec_csiLongPacket port vc dt true payload s) ?_
  simp only [htype, hopen, hdrop, Bool.not_true, Bool.false_eq_true, if_false, Bool.and_self, if_true]

/-- A bad packet is left out, and the frame is partial. -/
theorem csiLongPacket_bad : Gives (.csiLongPacket port vc dt false payload) s
    ((s.dev.rxError 0x0102 { kind := 1, port := port.toNat, key := vc.toNat + dt.toNat * 4 } s.dev.dev256).csiPut
      (ofType port.toNat vc.toNat dt.toNat) { f with partialF := true }) := by
  unfold ofType at *
  refine gives_of_withDev (exec_csiLongPacket port vc dt false payload s) ?_
  simp only [htype, hopen, Bool.not_true, Bool.false_eq_true, if_false, Bool.false_and]
  rfl

end

/-! ### The obligation -/

/-- Settles O33: a frame start by its strobe mode and the pulse that it finds; a packet and an end by the frame that stands open. -/
theorem cameraFrames : Obligations.CameraFrames := by
  refine ⟨fun s port vc frame d e cap x n hstamp => ?starts, fun s port vc dt payload e => ⟨csiFrameStart_idle,
    fun hnone => ⟨Dev.csiCut_none hnone, csiFrameEnd_idle hnone⟩,
    fun f hone => ⟨fun hkept => ⟨Dev.csiCut_one hone hkept, csiFrameEnd_ends hone hkept⟩, csiFrameEnd_drops hone⟩,
    fun htype good => csiLongPacket_unsupported htype,
    fun htype => ⟨fun hnone => ⟨csiLongPacket_closed htype hnone, csiLongPacket_closed htype hnone⟩, fun f hopen =>
      ⟨fun g => csiLongPacket_good htype hopen, csiLongPacket_dropped htype hopen, csiLongPacket_bad htype hopen⟩⟩⟩⟩
  case starts =>
    refine ⟨fun h1 h2 hnone => ?_, fun h1 h2 hone htakes => ?_, fun hmode => ⟨fun hpulse hone htakes hin => ?_, fun q hpulse hone htakes hin => ?_⟩⟩
    · exact csiFrameStart_none hstamp (Dev.csiStrobe_off h1 h2) (Dev.csiBase_packet rfl) hnone
    · have hopens := csiFrameStart_one (frame := frame) hstamp (Dev.csiStrobe_off h1 h2) (Dev.csiBase_packet rfl) hone
      exact ⟨fun hin => gives_of_eq hopens (Dev.csiOpen_taking htakes hin), fun hin => gives_of_eq hopens (Dev.csiOpen_taking htakes hin)⟩
    · exact gives_of_eq (csiFrameStart_one hstamp (Dev.csiStrobe_unmatched hmode rfl hpulse) (Dev.csiBase_packet (d.convertUntil_regs _ _)) hone)
        (Dev.csiOpen_fallback htakes hin)
    · exact gives_of_eq (csiFrameStart_one hstamp (Dev.csiStrobe_matched hmode rfl hpulse)
        (Dev.csiBase_pulse (d.pulseServed_regs _ _ _ _ _) q) hone) (Dev.csiOpen_taking htakes hin)

end Sys2Proof.Machine
end

section
/-! PROOFS. The Steward's commands on power, log, quotes, ports, recovery and firmware (R173, R446, R450, R452, R455, R457, R488): what each one leaves
when its checks pass. -/

namespace Sys2Proof.Machine

open Sys2Proof.Safety

section
variable (s : State)

theorem exec_logRead : exec .logRead s = execLogRead s := rfl
theorem exec_attest : exec .attest s = execAttest s := rfl
theorem exec_canSend : exec .canSend s = execCanSend s := rfl
theorem exec_ethSend : exec .ethSend s = execEthSend s := rfl
theorem exec_deviceRecover : exec .deviceRecover s = execDeviceRecover s := rfl
theorem exec_updateStage : exec .updateStage s = execUpdateStage s := rfl
theorem exec_updateActivate : exec .updateActivate s = execUpdateActivate s := rfl
theorem exec_updateConfirm : exec .updateConfirm s = execUpdateConfirm s := rfl
theorem exec_configWrite : exec .configWrite s = execConfigWrite s := rfl

end

/-! A match on a signature is taken apart by the two lemmas that follow, whatever function the match is: left to compute, it would evaluate the
signature. -/

section
variable {α β γ : Type}

/-- A match on a command and a key comes to its case for both, where both are there. -/
theorem match_keyed {M : Option α → Option (Nat × Nat × Nat) → β → γ → (α → Nat → Nat → Nat → Dev) → Dev} {i : Option α}
    {k : Option (Nat × Nat × Nat)} {c : α} {key x y : Nat} {f : β} {g : γ} (hi : i = some c) (hk : k = some (key, x, y))
    (hM : ∀ h, M (some c) (some (key, x, y)) f g h = h c key x y) (h : α → Nat → Nat → Nat → Dev) : M i k f g h = h c key x y :=
  hi ▸ hk ▸ hM h

/-- A match on a pair comes to its case. -/
theorem match_pair {M : Nat × Nat → (Nat → Nat → Dev) → Dev} {p : Nat × Nat} {r t : Nat} (hp : p = (r, t)) (hM : ∀ h, M (r, t) h = h r t)
    (h : Nat → Nat → Dev) : M p h = h r t := hp ▸ hM h

end

section
variable {s : State} {c : List Byte}

/-! ### POWER_CAP (R446, R488) -/

/-- A cap that is not below the bound of a locked plan is set. -/
theorem powerCap_sets (hserves : s.dev.serves 0x20 = some c) (hlow : 60000 ≤ leAt c 8 4) (hhigh : leAt c 8 4 ≤ 220000)
    (hbound : s.dev.locked = false ∨ s.dev.header 0x3C 4 ≤ leAt c 8 4) :
    Gives .powerCap s ((s.dev.setF F.PWR_CAP_mw (leAt c 8 4)).respond 0) := by
  have hrange : within 60000 (leAt c 8 4) 220000 = true := by simp [within, hlow, hhigh]
  have hmay : (s.dev.locked && decide (leAt c 8 4 < s.dev.header 0x3C 4)) = false := by
    obtain hfree | hbound := hbound
    · simp [hfree]
    · simp [hbound]
  refine gives_of_withDev (exec_powerCap s) ?_
  simp only [hserves, hrange, hmay, Bool.not_true, Bool.false_eq_true, if_false]

/-! ### LOG_READ, ATTEST and DEVICE_RECOVER (R446, R457, R467) -/

/-- The sequence after the last entry read, or the first one asked for where there is none. -/
def logNext (es : List (Nat × List Byte)) (first : Nat) : Nat :=
  match es.getLast? with
  | some x => x.1 + 1
  | none => first

/-- The entries are written, and their count and the next sequence are answered. -/
theorem logRead_gives {e : Dev} {es : List (Nat × List Byte)} (hserves : s.dev.serves 0x30 = some c)
    (hes : s.kept.logFrom (leAt c 16 8) (s.dev.reg R.STEW_LOG_SEQ).toNat (leAt c 24 4) = es)
    (hwrite : s.dev.mgmtWriteEach 23 0x5F false (leAt c 8 8) (es.flatMap (·.2)) = (e, none)) :
    Gives .logRead s (e.respond 0 (leBytes 4 es.length ++ leBytes 4 0 ++ leBytes 8 (logNext es (leAt c 16 8)))) := by
  refine gives_of_withDev (exec_logRead s) ?_
  simp only [hserves, hes, hwrite]
  rfl

/-- A quote is signed by the identity key and written. -/
theorem attest_gives {e : Dev} {k : Nat × Nat × Nat} {body : List Byte} {sig : Nat × Nat} (hserves : s.dev.serves 0x60 = some c)
    (hkey : s.dev.stew.idKey = some k)
    (hbody : s.dev.quoteBody (fitBytes 32 (c.drop 8)) (leBytes 48 k.2.1 ++ leBytes 48 k.2.2) = body)
    (hsig : Crypto.sign k.1 (Crypto.sha384 body) = sig)
    (hwrite : s.dev.mgmtWriteEach 23 0x5F false (leAt c 40 8) (body ++ leBytes 48 sig.1 ++ leBytes 48 sig.2) = (e, none)) :
    Gives .attest s (e.respond 0) := by
  obtain ⟨key, x, y⟩ := k
  obtain ⟨r, t⟩ := sig
  dsimp only at hbody hsig hwrite
  refine gives_of_withDev (exec_attest s) ((match_keyed hserves hkey (fun _ => rfl) _).trans ?_)
  rw [hbody]
  extract_lets
  refine (match_pair hsig (fun _ => rfl) _).trans ?_
  rw [hwrite]

/-- The answer is given, and then the recovery is requested. -/
theorem deviceRecover_next (hserves : s.dev.serves 0x80 = some c) :
    exec .deviceRecover s = .next ((s.upd fun d => d.respond 0).reeveRequest 31 6 0) :=
  (exec_deviceRecover s).trans (if_pos (by rw [hserves]; rfl))

/-! ### CAN_SEND and ETH_SEND (R173, R446) -/

/-- The frame that a CAN_SEND asks for, with its data. -/
def canSendFrame (c bs : List Byte) : CanFrame :=
  ⟨BitVec.ofNat 29 (leAt c 12 4), (leAt c 9 1).testBit 0, (leAt c 9 1).testBit 1, (leAt c 9 1).testBit 2, false, BitVec.ofNat 4 (leAt c 10 1), bs,
    true, true⟩

section
variable (hctl : leAt c 8 1 < 2) (hflags : leAt c 9 1 < 8) (hdlc : leAt c 10 1 < 16)
  (hid : leAt c 12 4 < (if (leAt c 9 1).testBit 0 then 2 ^ 29 else 2 ^ 11))
include hctl hflags hdlc hid

/-- The arguments of a CAN_SEND are in range. -/
theorem canSend_inRange : (decide (2 ≤ leAt c 8 1) || decide (8 ≤ leAt c 9 1) || decide (16 ≤ leAt c 10 1) ||
    decide ((if (leAt c 9 1).testBit 0 then 2 ^ 29 else 2 ^ 11) ≤ leAt c 12 4)) = false := by
  simp only [Bool.or_eq_false_iff, decide_eq_false_iff_not]
  omega

variable (hserves : s.dev.serves 0x70 = some c)
include hserves

/-- Off the bus the controller sends nothing. -/
theorem canSend_off (hbus : s.dev.gateStatus.testBit (12 + leAt c 8 1) = false) : Gives .canSend s (s.dev.respond 9) := by
  refine gives_of_withDev (exec_canSend s) ?_
  simp only [hserves, canSend_inRange hctl hflags hdlc hid, hbus, Bool.not_false, Bool.false_eq_true, if_false, if_true]

/-- On the bus the frame goes out with its data, and is counted. -/
theorem canSend_sent {e : Dev} {bs : List Byte} (hbus : s.dev.gateStatus.testBit (12 + leAt c 8 1) = true)
    (hread : s.dev.mgmtRead 23 0x5F false (leAt c 16 8) (dlcBytes ((leAt c 9 1).testBit 1) (leAt c 10 1)) = (e, .ok bs)) :
    Gives .canSend s ((e.canSent (leAt c 8 1) (canSendFrame c bs)).respond 0) := by
  refine gives_of_withDev (exec_canSend s) ?_
  simp only [hserves, canSend_inRange hctl hflags hdlc hid, hbus, hread, Bool.not_true, Bool.false_eq_true, if_false]
  rfl

end

/-- A frame of a port whose link is up goes out. -/
theorem ethSend_sent {e : Dev} {bs : List Byte} (hserves : s.dev.serves 0x71 = some c) (hport : leAt c 8 1 < 4) (hlow : 60 ≤ leAt c 12 4)
    (hhigh : leAt c 12 4 ≤ 9216) (hup : (s.dev.getF F.GATE_STATUS_eth_up).testBit (leAt c 8 1) = true)
    (hread : s.dev.mgmtRead 23 0x5F false (leAt c 16 8) (leAt c 12 4) = (e, .ok bs)) :
    Gives .ethSend s ((e.emit (.ethFrame (leAt c 8 1) bs)).respond 0) := by
  have hrange : (decide (4 ≤ leAt c 8 1) || !within 60 (leAt c 12 4) 9216) = false := by simp [within, hport, hlow, hhigh]
  refine gives_of_withDev (exec_ethSend s) ?_
  simp only [hserves, hrange, hup, hread, Bool.not_true, Bool.false_eq_true, if_false]

/-! ### Firmware (R450, R452) -/

section
variable {e : Dev} {img : List Byte} (hserves : s.dev.serves 0x40 = some c) (hsize : leAt c 16 4 ≤ 0x600000)
  (hread : s.dev.mgmtRead 23 0x5F false (leAt c 8 8) (leAt c 16 4) = (e, .ok img))
include hserves hsize hread

/-- An image that fails a check is refused with the check's result. -/
theorem updateStage_refused (hbad : imageResult img (fwFloorOf s.bcbNow e.stew.record) ≠ 0) :
    Gives .updateStage s (e.respond (imageResult img (fwFloorOf s.bcbNow e.stew.record))) := by
  have hfits : ¬slotBytes < leAt c 16 4 := Nat.not_lt.mpr hsize
  simp only [Gives, exec_updateStage, execUpdateStage, hserves, hread, if_neg hfits, if_pos hbad]

/-- One that passes them goes to the slot that is not active, while no trial is set, and is staged when it reads back well. -/
theorem updateStage_stages {k : Kept} (hgood : imageResult img (fwFloorOf s.bcbNow e.stew.record) = 0) (htrial : s.bcbNow.trial = 0xFF)
    (hk : (s.kept.flashErase (slotAt (1 - s.bcbNow.active)) slotBytes).flashWrite (slotAt (1 - s.bcbNow.active)) (img.take (leAt img 0xC 4)) = k)
    (hback : imageResult (k.flashRead (slotAt (1 - s.bcbNow.active)) (leAt img 0xC 4)) (fwFloorOf s.bcbNow e.stew.record) = 0) :
    exec .updateStage s =
      .next { s with kept := k, dev := ((e.updStew fun x => { x with staged := true }).updateNote 0x40 1).respond 0 } := by
  have hfits : ¬slotBytes < leAt c 16 4 := Nat.not_lt.mpr hsize
  simp only [exec_updateStage, execUpdateStage, hserves, hread, if_neg hfits, hgood, htrial, ne_eq, not_true, if_false, hk, hback, beq_self_eq_true,
    if_true]

end

/-- The staged slot gets three trial boots. -/
theorem updateActivate_next (hserves : s.dev.serves 0x41 = some c) (hstaged : s.dev.stew.staged = true) (htrial : s.bcbNow.trial = 0xFF)
    (hkey : s.dev.stew.bootKey ≠ []) : exec .updateActivate s = .next { s with
      kept := s.kept.putBcb s.dev.stew.bootKey { s.bcbNow with trial := 1 - s.bcbNow.active, left := 3 }
      dev := ((s.dev.updStew fun x => { x with staged := false }).updateNote 0x41 2).respond 0 } := by
  have hmay : (!s.dev.stew.staged || s.bcbNow.trial != 0xFF) = false := by simp [hstaged, htrial]
  have hkeyed : s.dev.stew.bootKey.isEmpty = false := by simpa using hkey
  simp only [exec_updateActivate, execUpdateActivate, hserves, hmay, hkeyed, Bool.false_eq_true, if_false]

/-- The running trial slot becomes active, and the floor rises to its version. -/
theorem updateConfirm_next (hserves : s.dev.serves 0x42 = some c) (htrial : s.dev.flag F.STEW_STATUS_trial = true) :
    exec .updateConfirm s = .next { s with
      kept := s.kept.putBcb s.dev.stew.bootKey { s.bcbNow with active := s.dev.getF F.STEW_STATUS_slot, trial := 0xFF, left := 0,
                                                               fwFloor := max s.bcbNow.fwFloor (leAt s.dev.stew.fwHeader 8 4) }
      dev := ((s.dev.setB F.STEW_STATUS_trial false).updateNote 0x42 3).respond 0 } := by
  simp only [exec_updateConfirm, execUpdateConfirm, hserves, htrial, Bool.not_true, Bool.false_eq_true, if_false]

/-! ### CONFIG_WRITE (R455) -/

/-- A checked record that is newer than the one in force goes to the other copy. -/
theorem configWrite_next {e : Dev} {r : List Byte} (hserves : s.dev.serves 0x50 = some c)
    (hread : s.dev.mgmtRead 23 0x5F false (leAt c 8 8) 0x560 = (e, .ok r)) (hgood : recordResult r s.bcbNow.cfgFloor e.identityDigest = 0)
    (hnewer : e.stew.record = [] ∨ leAt e.stew.record 8 4 < leAt r 8 4) :
    exec .configWrite s = .next { s with
      kept := (s.kept.flashErase ((1 - e.getF F.STEW_STATUS_cfg_copy) * 0x10000) 0x10000).flashWrite
        ((1 - e.getF F.STEW_STATUS_cfg_copy) * 0x10000) (r.take 0x560)
      dev := (e.stewNote 4 [leAt r 8 4]).respond 0 } := by
  have hnew : (!e.stew.record.isEmpty && decide (leAt r 8 4 ≤ leAt e.stew.record 8 4)) = false := by
    obtain hnone | hnewer := hnewer
    · simp [hnone]
    · simp [hnewer]
  have hform : ¬((0 : Nat) = 1 ∨ (0 : Nat) = 2) := by decide
  simp only [exec_configWrite, execConfigWrite, hserves, recordBytes, hread, hgood, if_neg hform, hnew, ne_eq, not_true,
    Bool.false_eq_true, if_false]

end

/-! ### The obligation -/

/-- Settles O27: each command by its own lemma. -/
theorem stewardCommandsEffects : Obligations.StewardCommandsEffects := by
  refine ⟨fun s => ⟨fun c hserves hlow hhigh => ⟨powerCap_sets hserves hlow hhigh, powerCap_belowPlan hserves hlow hhigh⟩,
      fun c e hserves hwrite => logRead_gives hserves rfl hwrite, fun c k hserves hkey e hwrite => attest_gives hserves hkey rfl rfl hwrite,
      fun c e bs hserves hctl hflags hdlc hid hbus hread => canSend_sent hctl hflags hdlc hid hserves hbus hread,
      fun c hserves hctl hflags hdlc hid hbus => canSend_off hctl hflags hdlc hid hserves hbus,
      fun c e bs hserves hport hlow hhigh hup hread => ethSend_sent hserves hport hlow hhigh hup hread, fun c hserves => deviceRecover_next hserves⟩,
    fun s => ⟨fun c e img hserves hsize hread => ⟨fun r hr hbad => ?refused, fun hgood htrial hback => ?stages⟩,
      fun c hserves hstaged htrial hkey => updateActivate_next hserves hstaged htrial hkey,
      fun c hserves htrial => updateConfirm_next hserves htrial,
      fun c e r hserves hread hgood hnewer => configWrite_next hserves hread hgood hnewer⟩⟩
  case refused =>
    subst hr
    exact updateStage_refused hserves hsize hread hbad
  case stages => exact updateStage_stages hserves hsize hread hgood htrial rfl hback

end Sys2Proof.Machine
end

section
/-! PROOFS. PTP (R215–R219): the checks that a message passes or is discarded by, what the messages of each type measure or are answered with,
and what a port sends at its intervals. -/

namespace Sys2Proof.Machine

open Sys2Proof.Safety

/-! ### The checks (R219) -/

/-- The checks of R219 on a message for a port with a role: well formed, of the type that is handled, for the port's domain. -/
def PtpPasses (d : Dev) (m : PtpMsg) (ty : Nat) : Prop :=
  m.malformed = false ∧ m.mtype.toNat = ty ∧ m.domain.toNat = d.getF F.BELL_PTP_CTL_domain

section
variable {d : Dev} {p ty : Nat} {m : PtpMsg} {k : Dev → Dev}

/-- A port without a role takes nothing. -/
theorem Dev.ptpAccept_off (hoff : d.ptpRole p = 0) : d.ptpAccept p ty m k = d := if_pos hoff

variable (hrole : d.ptpRole p ≠ 0)
include hrole

theorem Dev.ptpAccept_malformed (hbad : m.malformed = true) : d.ptpAccept p ty m k = d.ptpDiscard p 2 := by
  rw [Dev.ptpAccept, if_neg hrole, if_pos hbad]

variable (hgood : m.malformed = false)
include hgood

theorem Dev.ptpAccept_unsupported (htype : m.mtype.toNat ≠ ty) : d.ptpAccept p ty m k = d.ptpDiscard p 3 := by
  rw [Dev.ptpAccept, if_neg hrole, if_neg (by simp [hgood]), if_pos htype]

theorem Dev.ptpAccept_otherDomain (htype : m.mtype.toNat = ty) (hdomain : m.domain.toNat ≠ d.getF F.BELL_PTP_CTL_domain) :
    d.ptpAccept p ty m k = d.ptpDiscard p 1 := by
  rw [Dev.ptpAccept, if_neg hrole, if_neg (by simp [hgood]), if_neg (not_not_intro htype), if_pos hdomain]

end

/-- A message that passes the checks is handled. -/
theorem Dev.ptpAccept_passes {d : Dev} {p ty : Nat} {m : PtpMsg} {k : Dev → Dev} (hrole : d.ptpRole p ≠ 0) (hok : PtpPasses d m ty) :
    d.ptpAccept p ty m k = k d := by
  obtain ⟨hgood, htype, hdomain⟩ := hok
  rw [Dev.ptpAccept, if_neg hrole, if_neg (by simp [hgood]), if_neg (not_not_intro htype), if_neg (not_not_intro hdomain)]

/-- The messages that arrive, each with its type. -/
def ptpRows (port : BitVec 2) (m : PtpMsg) : List (Nat × Instr) :=
  [(0, .ptpSync port m), (8, .ptpFollowUp port m), (1, .ptpDelayReq port m), (9, .ptpDelayResp port m), (2, .ptpPdelayReq port m),
   (3, .ptpPdelayResp port m), (10, .ptpPdelayRespFollowUp port m), (11, .ptpAnnounce port m)]

section
variable {s : State} {port : BitVec 2} {m : PtpMsg}

/-- Each of them is handled behind the checks. -/
theorem exec_ptpRow {r : Nat × Instr} (hr : r ∈ ptpRows port m) :
    ∃ k, exec r.2 s = s.withDev fun d => d.ptpAccept port.toNat r.1 m k := by
  have hall : ∀ r ∈ ptpRows port m, ∃ k, exec r.2 s = s.withDev fun d => d.ptpAccept port.toNat r.1 m k := by
    simp only [ptpRows, List.forall_mem_cons]
    exact ⟨⟨_, rfl⟩, ⟨_, rfl⟩, ⟨_, rfl⟩, ⟨_, rfl⟩, ⟨_, rfl⟩, ⟨_, rfl⟩, ⟨_, rfl⟩, ⟨_, rfl⟩, List.forall_mem_nil _⟩
  exact hall r hr

variable {i : Instr} {p ty : Nat} {k : Dev → Dev} {e : Dev}

/-- A message that passes the checks gives what its handling leaves. -/
theorem gives_of_ptpAccept (hexec : exec i s = s.withDev fun d => d.ptpAccept p ty m k) (hrole : s.dev.ptpRole p ≠ 0)
    (hok : PtpPasses s.dev m ty) (hk : k s.dev = e) : Gives i s e :=
  gives_of_withDev hexec ((Dev.ptpAccept_passes hrole hok).trans hk)

end

/-! ### Requests that are answered (R216) -/

/-- Answered requests leave the transport of what a port sends. -/
theorem Dev.ptpTransport_ptpAnswered (d : Dev) (p : Nat) : (d.ptpAnswered p).ptpTransport = d.ptpTransport := rfl

section
variable {s : State} {port : BitVec 2} {m : PtpMsg}

/-- A request over the rate of R216 is discarded by a master port. -/
theorem ptpDelayReq_overRate (hmaster : s.dev.ptpRole port.toNat = 1) (hok : PtpPasses s.dev m 1) (hrate : s.dev.ptpMayAnswer port.toNat = false) :
    Gives (.ptpDelayReq port m) s (s.dev.ptpDiscard port.toNat 4) :=
  gives_of_ptpAccept rfl (by simp [hmaster]) hok (by simp [hmaster, hrate])

/-- A master port answers with its ingress stamp, whose fraction the correction is less by. -/
theorem ptpDelayReq_answered (hmaster : s.dev.ptpRole port.toNat = 1) (hok : PtpPasses s.dev m 1) (hrate : s.dev.ptpMayAnswer port.toNat = true) :
    Gives (.ptpDelayReq port m) s ((s.dev.ptpAnswered port.toNat).emit (.ptp port.toNat s.dev.ptpTransport
      { ptpStamped { s.dev.ptpMsg 9 m.seq.toNat with requester := m.source } (s.dev.ingress port.toNat) with
        corr := m.corr - BitVec.ofNat 64 (s.dev.ingress port.toNat % 256 * 256) })) := by
  refine gives_of_ptpAccept rfl (by simp [hmaster]) hok ?_
  simp [hmaster, hrate, Dev.ptpSend, Dev.ptpTransport_ptpAnswered, ptpStamped, Dev.ptpMsg]

/-- A peer's request over the rate is discarded by a port of either role. -/
theorem ptpPdelayReq_overRate (hrole : s.dev.ptpRole port.toNat ≠ 0) (hok : PtpPasses s.dev m 2) (hrate : s.dev.ptpMayAnswer port.toNat = false) :
    Gives (.ptpPdelayReq port m) s (s.dev.ptpDiscard port.toNat 4) :=
  gives_of_ptpAccept rfl hrole hok (by simp [hrate])

/-- A port answers a peer with a Pdelay_Resp and its Follow_Up. -/
theorem ptpPdelayReq_answered (hrole : s.dev.ptpRole port.toNat ≠ 0) (hok : PtpPasses s.dev m 2) (hrate : s.dev.ptpMayAnswer port.toNat = true) :
    Yields (.ptpPdelayReq port m) s fun e => ∃ a b, e = ((s.dev.ptpAnswered port.toNat).emit (.ptp port.toNat s.dev.ptpTransport a)).emit
      (.ptp port.toNat s.dev.ptpTransport b) ∧ a.mtype = 3 ∧ b.mtype = 10 ∧ a.seq = m.seq ∧ b.seq = m.seq ∧ a.requester = m.source := by
  have hseq : BitVec.ofNat 16 m.seq.toNat = m.seq := (BitVec.ofNat_toNat ..).trans (BitVec.setWidth_eq _)
  exact ⟨_, gives_of_ptpAccept rfl hrole hok (if_neg (by simp [hrate])), _, _, rfl, rfl, rfl, hseq, hseq, rfl⟩

end

/-! ### What the messages of a slave port measure (R217, R218) -/

section
variable {s : State} {port : BitVec 2} {m : PtpMsg} {t : Nat} (hslave : s.dev.ptpRole port.toNat = 2)
include hslave

/-- A two-step Sync is kept for its Follow_Up. -/
theorem ptpSync_twoStep (hok : PtpPasses s.dev m 0) (htwo : m.twoStep = true) : Gives (.ptpSync port m) s
    (s.dev.updPtp port.toNat fun x => { x with sync := some (m.seq.toNat, s.dev.ingress port.toNat, corrOf m) }) :=
  gives_of_ptpAccept rfl (by simp [hslave]) hok (by simp [hslave, htwo])

/-- A one-step Sync is an offset measurement. -/
theorem ptpSync_oneStep (hok : PtpPasses s.dev m 0) (hone : m.twoStep = false) (htime : ptpTime m = some t) :
    Gives (.ptpSync port m) s (s.dev.ptpOffset port.toNat t (s.dev.ingress port.toNat) (corrOf m)) :=
  gives_of_ptpAccept rfl (by simp [hslave]) hok (by simp [hslave, hone, htime])

/-- Unless its timestamp is past the range of device time (R217). -/
theorem ptpSync_excluded (hok : PtpPasses s.dev m 0) (hone : m.twoStep = false) (htime : ptpTime m = none) :
    Gives (.ptpSync port m) s (s.dev.ptpDiscard port.toNat 5) :=
  gives_of_ptpAccept rfl (by simp [hslave]) hok (by simp [hslave, hone, htime])

/-- A Follow_Up completes the Sync of its sequence number. -/
theorem ptpFollowUp_measures {t2 : Nat} {c : Int} (hok : PtpPasses s.dev m 8) (hsync : (s.dev.ptp port.toNat).sync = some (m.seq.toNat, t2, c))
    (htime : ptpTime m = some t) : Gives (.ptpFollowUp port m) s (s.dev.ptpOffset port.toNat t t2 (c + corrOf m)) :=
  gives_of_ptpAccept rfl (by simp [hslave]) hok (by simp [hslave, hsync, htime])

/-- A Delay_Resp completes the end-to-end delay. -/
theorem ptpDelayResp_measures {t1 t2 t3 : Nat} {c : Int} (hpeer : s.dev.ptpPeer = false) (hok : PtpPasses s.dev m 9)
    (hmine : m.requester = s.dev.reg R.BELL_PTP_CLOCK_ID) (hreq : (s.dev.ptp port.toNat).req = some (m.seq.toNat, t3))
    (hlast : (s.dev.ptp port.toNat).last = some (t1, t2, c)) (htime : ptpTime m = some t) :
    Gives (.ptpDelayResp port m) s ((s.dev.updPtp port.toNat fun x => { x with req := none }).ptpDelay port.toNat
      ((((t2 : Int) - t1) + ((t : Int) - t3)) * 256 - c - corrOf m)) :=
  gives_of_ptpAccept rfl (by simp [hslave]) hok (by simp [hslave, hpeer, hmine, hreq, hlast, htime])

section
variable (hpeer : s.dev.ptpPeer = true) (hmine : m.requester = s.dev.reg R.BELL_PTP_CLOCK_ID)
include hpeer hmine

/-- A one-step Pdelay_Resp carries the turnaround. -/
theorem ptpPdelayResp_measures {t1 : Nat} (hok : PtpPasses s.dev m 3) (hreq : (s.dev.ptp port.toNat).req = some (m.seq.toNat, t1))
    (hone : m.twoStep = false) : Gives (.ptpPdelayResp port m) s ((s.dev.updPtp port.toNat fun x => { x with req := none }).ptpDelay port.toNat
      (((s.dev.ingress port.toNat : Int) - t1) * 256 - corrOf m)) :=
  gives_of_ptpAccept rfl (by simp [hslave]) hok (by simp [hslave, hpeer, hmine, hreq, hone])

/-- A two-step one waits for its Follow_Up, which carries the peer's egress. -/
theorem ptpPdelayRespFollowUp_measures {t1 t2 t4 : Nat} {c : Int} (hok : PtpPasses s.dev m 10)
    (hreq : (s.dev.ptp port.toNat).req = some (m.seq.toNat, t1)) (hpresp : (s.dev.ptp port.toNat).presp = some (t2, t4, c))
    (htime : ptpTime m = some t) : Gives (.ptpPdelayRespFollowUp port m) s
      ((s.dev.updPtp port.toNat fun x => { x with req := none, presp := none }).ptpDelay port.toNat
        ((((t4 : Int) - t1) - ((t : Int) - t2)) * 256 - c - corrOf m)) :=
  gives_of_ptpAccept rfl (by simp [hslave]) hok (by simp [hslave, hpeer, hmine, hreq, hpresp, htime])

end

/-- An Announce gives the grandmaster's fields and the UTC offset. -/
theorem ptpAnnounce_kept (hok : PtpPasses s.dev m 11) (hlen : 20 ≤ m.announce.length) : Gives (.ptpAnnounce port m) s
    (((s.dev.updBell fun b => { b with grandmaster := m.announce.take 20 }).setF F.BELL_UTC_OFFSET_offset (beAt m.announce 0 2)).setF
      F.BELL_UTC_OFFSET_valid (leAt m.announce 20 1)) :=
  gives_of_ptpAccept rfl (by simp [hslave]) hok (by simp [hslave, Nat.not_lt.mpr hlen])

end

section
variable {s : State} {port : BitVec 2} {m : PtpMsg} (hrole : s.dev.ptpRole port.toNat ≠ 0) (hother : s.dev.ptpRole port.toNat ≠ 2)
include hrole hother

/-- A port that is no slave measures no peer delay. -/
theorem ptpPdelayResp_idle_of_notSlave (hok : PtpPasses s.dev m 3) : Idle (.ptpPdelayResp port m) s := by
  refine gives_of_ptpAccept rfl hrole hok ?_
  dsimp only
  split
  · exact if_pos (.inl hother)
  · rfl

theorem ptpPdelayRespFollowUp_idle_of_notSlave (hok : PtpPasses s.dev m 10) : Idle (.ptpPdelayRespFollowUp port m) s := by
  refine gives_of_ptpAccept rfl hrole hok ?_
  dsimp only
  split
  · exact if_pos (.inl hother)
  · rfl

end

/-- A delay outside 0 to 1 ms is excluded (R217). -/
theorem Dev.ptpDelay_excluded {d : Dev} {p : Nat} {v : Int} (hout : v < 0 ∨ 1000000 * 2 ^ 17 < v) : d.ptpDelay p v = d.ptpDiscard p 5 := by
  rw [Dev.ptpDelay, if_pos hout]

/-! ### What a port sends at its intervals (R216–R218) -/

/-- A message is due once its interval has passed since the last one. -/
theorem Dev.ptpDue_iff {d : Dev} {last : Option Nat} {n : Nat} : d.ptpDue last n = true ↔ ∀ t, last = some t → t + n ≤ d.clk := by
  cases last <;> simp [Dev.ptpDue]

/-- The interval of Sync messages (R216). -/
def Dev.syncInterval (d : Dev) : Nat := 24000000000 / 2 ^ d.logSync

/-- The device once a port has taken the sequence number of a Sync that it sends now. -/
def Dev.syncNumbered (d : Dev) (p : Nat) : Dev :=
  d.updPtp p fun x => { x with txSeq := ((d.ptp p).txSeq + 1) % 65536, syncAt := some d.clk }

theorem exec_ptpSyncInterval (port : BitVec 2) (s : State) :
    exec (.ptpSyncInterval port) s = s.withDev fun d =>
      let p := port.toNat
      let sent := d.syncNumbered p
      let seq := (d.ptp p).txSeq
      if d.ptpRole p ≠ 1 ∨ !d.ptpDue (d.ptp p).syncAt d.syncInterval then d
      else if sent.flag F.BELL_PTP_CTL_one_step then sent.ptpSend p (ptpStamped (sent.ptpMsg 0 seq) (d.egress p))
      else (sent.ptpSend p { sent.ptpMsg 0 seq with twoStep := true }).ptpSend p (ptpStamped (sent.ptpMsg 8 seq) (d.egress p)) := rfl

theorem exec_ptpAnnounceInterval (port : BitVec 2) (s : State) :
    exec (.ptpAnnounceInterval port) s = s.withDev fun d =>
      let p := port.toNat
      let e := d.fresh.2
      let seq := (e.ptp p).annSeq
      if d.ptpRole p ≠ 1 ∨ !d.ptpDue (d.ptp p).annAt d.announceInterval then d
      else (e.updPtp p fun x => { x with annSeq := (seq + 1) % 65536, annAt := some e.clk }).ptpSend p
        { e.ptpMsg 11 seq with announce := e.announceBody d.fresh.1 } := rfl

theorem exec_ptpDelayReqInterval (port : BitVec 2) (s : State) :
    exec (.ptpDelayReqInterval port) s = s.withDev fun d =>
      let p := port.toNat
      let seq := (d.ptp p).reqSeq
      if d.ptpRole p = 0 ∨ (!d.ptpPeer ∧ d.ptpRole p ≠ 2) then d
      else (d.updPtp p fun x => { x with reqSeq := (seq + 1) % 65536, req := some (seq, d.egress p), presp := none }).ptpSend p
        (d.ptpMsg (if d.ptpPeer then 2 else 1) seq) := rfl

section
variable {s : State} {port : BitVec 2}

/-- No other port sends Sync, and none does before it is due. -/
theorem ptpSyncInterval_idle (h : s.dev.ptpRole port.toNat ≠ 1 ∨ s.dev.ptpDue (s.dev.ptp port.toNat).syncAt s.dev.syncInterval ≠ true) :
    Idle (.ptpSyncInterval port) s :=
  idle_of_withDev (exec_ptpSyncInterval port s) (if_pos (by simpa using h))

/-- Nor Announce. -/
theorem ptpAnnounceInterval_idle (h : s.dev.ptpRole port.toNat ≠ 1 ∨ s.dev.ptpDue (s.dev.ptp port.toNat).annAt s.dev.announceInterval ≠ true) :
    Idle (.ptpAnnounceInterval port) s :=
  idle_of_withDev (exec_ptpAnnounceInterval port s) (if_pos (by simpa using h))

section
variable (hmaster : s.dev.ptpRole port.toNat = 1)
include hmaster

section
variable (hdue : s.dev.ptpDue (s.dev.ptp port.toNat).syncAt s.dev.syncInterval = true)
include hdue

/-- In one-step mode a Sync carries its egress stamp. -/
theorem ptpSyncInterval_oneStep (hone : (s.dev.syncNumbered port.toNat).flag F.BELL_PTP_CTL_one_step = true) :
    Gives (.ptpSyncInterval port) s ((s.dev.syncNumbered port.toNat).ptpSend port.toNat
      (ptpStamped ((s.dev.syncNumbered port.toNat).ptpMsg 0 (s.dev.ptp port.toNat).txSeq) (s.dev.egress port.toNat))) :=
  gives_of_withDev (exec_ptpSyncInterval port s) (by simp [hmaster, hdue, hone])

/-- In two-step mode its Follow_Up does. -/
theorem ptpSyncInterval_twoStep (htwo : (s.dev.syncNumbered port.toNat).flag F.BELL_PTP_CTL_one_step = false) :
    Gives (.ptpSyncInterval port) s (((s.dev.syncNumbered port.toNat).ptpSend port.toNat
      { (s.dev.syncNumbered port.toNat).ptpMsg 0 (s.dev.ptp port.toNat).txSeq with twoStep := true }).ptpSend port.toNat
        (ptpStamped ((s.dev.syncNumbered port.toNat).ptpMsg 8 (s.dev.ptp port.toNat).txSeq) (s.dev.egress port.toNat))) :=
  gives_of_withDev (exec_ptpSyncInterval port s) (by simp [hmaster, hdue, htwo])

end

/-- An Announce carries the body of log 50, with a free variance (log 51). -/
theorem ptpAnnounceInterval_sends (hdue : s.dev.ptpDue (s.dev.ptp port.toNat).annAt s.dev.announceInterval = true) :
    Yields (.ptpAnnounceInterval port) s fun e => ∃ v, ∃ y : PtpMsg, y.mtype = 11 ∧ y.announce = (s.dev.fresh).2.announceBody v ∧
      e.out = .ptp port.toNat s.dev.ptpTransport y :: s.dev.out :=
  ⟨_, gives_of_withDev (exec_ptpAnnounceInterval port s) (if_neg (by simp [hmaster, hdue])), s.dev.fresh.1, _, rfl, rfl, rfl⟩

end

/-- A port without a role asks for no delay. -/
theorem ptpDelayReqInterval_idle (hoff : s.dev.ptpRole port.toNat = 0) : Idle (.ptpDelayReqInterval port) s :=
  idle_of_withDev (exec_ptpDelayReqInterval port s) (if_pos (.inl hoff))

/-- The slave port asks for the end-to-end delay, and keeps its egress stamp. -/
theorem ptpDelayReqInterval_sends (hslave : s.dev.ptpRole port.toNat = 2) (hpeer : s.dev.ptpPeer = false) : Gives (.ptpDelayReqInterval port) s
    ((s.dev.updPtp port.toNat fun y => { y with
      reqSeq := ((s.dev.ptp port.toNat).reqSeq + 1) % 65536, req := some ((s.dev.ptp port.toNat).reqSeq, s.dev.egress port.toNat)
      presp := none }).ptpSend port.toNat (s.dev.ptpMsg 1 (s.dev.ptp port.toNat).reqSeq)) :=
  gives_of_withDev (exec_ptpDelayReqInterval port s) (by simp [hslave, hpeer])

end

/-! ### The obligations -/

/-- Settles O46: every message goes through the same checks; the rate and the excluded values are each message's own. -/
theorem ptpDiscards : Obligations.PtpDiscards := by
  intro s port m
  refine ⟨fun r hr => ?checks, fun hrate => ⟨fun hmaster hok => ptpDelayReq_overRate hmaster hok hrate,
    fun hrole hok => ptpPdelayReq_overRate hrole hok hrate⟩, fun hslave hok => ptpSync_excluded hslave hok, fun v => Dev.ptpDelay_excluded⟩
  case checks =>
    obtain ⟨k, hexec⟩ := exec_ptpRow (s := s) hr
    exact ⟨fun hoff => idle_of_withDev hexec (Dev.ptpAccept_off hoff),
      fun hrole hbad => gives_of_withDev hexec (Dev.ptpAccept_malformed hrole hbad),
      fun hrole hgood htype => gives_of_withDev hexec (Dev.ptpAccept_unsupported hrole hgood htype),
      fun hrole hgood htype hdomain => gives_of_withDev hexec (Dev.ptpAccept_otherDomain hrole hgood htype hdomain)⟩

/-- Settles O47: each message and each interval by its own lemma. -/
theorem ptpWorks : Obligations.PtpWorks := by
  intro s port m t
  refine ⟨ptpSync_twoStep, ptpSync_oneStep, fun t2 c hslave => ptpFollowUp_measures hslave, ptpDelayReq_answered,
    fun t1 t2 t3 c hslave => ptpDelayResp_measures hslave, ptpPdelayReq_answered, fun t1 hslave hpeer hok hmine => ptpPdelayResp_measures hslave hpeer hmine hok,
    fun t1 t2 t4 c hslave hpeer hok hmine => ptpPdelayRespFollowUp_measures hslave hpeer hmine hok, ptpAnnounce_kept,
    ⟨fun hmaster hdue => ptpSyncInterval_oneStep hmaster (Dev.ptpDue_iff.mpr hdue),
      fun hmaster hdue => ptpSyncInterval_twoStep hmaster (Dev.ptpDue_iff.mpr hdue)⟩,
    fun hmaster hdue => ptpAnnounceInterval_sends hmaster (Dev.ptpDue_iff.mpr hdue), ptpDelayReqInterval_sends,
    fun h => ptpSyncInterval_idle (h.imp_right (mt Dev.ptpDue_iff.mp)), fun h => ptpAnnounceInterval_idle (h.imp_right (mt Dev.ptpDue_iff.mp)),
    fun hother hrole => ⟨ptpPdelayResp_idle_of_notSlave hrole hother, ptpPdelayRespFollowUp_idle_of_notSlave hrole hother⟩,
    fun hother => ⟨ptpSyncInterval_idle (.inl hother), ptpAnnounceInterval_idle (.inl hother)⟩, ptpDelayReqInterval_idle⟩

end Sys2Proof.Machine
end

section
/-! PROOFS. The 1PPS pulses (R220, R221, R229): the rise and fall of the output, the stamp and offset of an input pulse, and when the input is
no longer seen. -/

namespace Sys2Proof.Machine

open Sys2Proof.Safety

variable {s : State}

/-! ### The output (R220) -/

theorem exec_ppsOutRise (s : State) :
    exec .ppsOutRise s = s.withDev fun d =>
      let w := d.getF F.BELL_PPS_CTL_out_width
      let width := if 1 ≤ w ∧ w ≤ 999999 then w else 100000
      if !d.flag F.BELL_PPS_CTL_out_en ∨ d.bell.ppsHigh ∨ !d.secondEdge ∨ d.bell.ppsEdge = d.bell.tEdges then d
      else (d.updBell fun b =>
        { b with ppsHigh := true, ppsEdge := b.tEdges, ppsFall := d.dev256 + width * 256000 }).emit (.pin "PPS_OUT" 0 true) := rfl

theorem exec_ppsOutFall (s : State) :
    exec .ppsOutFall s = s.withDev fun d =>
      if !d.bell.ppsHigh ∨ d.dev256 < d.bell.ppsFall then d
      else (d.updBell fun b => { b with ppsHigh := false }).emit (.pin "PPS_OUT" 0 false) := rfl

/-- The latest T edge begins a second of device time when the edge before it lay in an earlier one. -/
theorem Dev.secondEdge_cons {d : Dev} {now : Nat} {before : List Nat} (hhist : d.bell.hist = now :: before) :
    d.secondEdge = decide (before.headD 0 / 256000000000 < now / 256000000000) := by
  simp only [Dev.secondEdge, hhist]

/-- Before any T edge none has begun. -/
theorem Dev.secondEdge_nil {d : Dev} (hhist : d.bell.hist = []) : d.secondEdge = false := by
  simp only [Dev.secondEdge, hhist]

/-- An enabled output that is low rises after the edge that begins a second, once for that edge. -/
theorem ppsOutRise_rises (hen : s.dev.flag F.BELL_PPS_CTL_out_en = true) (hlow : s.dev.bell.ppsHigh = false) (hsecond : s.dev.secondEdge = true)
    (hedge : s.dev.bell.ppsEdge ≠ s.dev.bell.tEdges) : Gives .ppsOutRise s ((s.dev.updBell fun b => { b with
      ppsHigh := true, ppsEdge := b.tEdges, ppsFall := s.dev.dev256 +
        (if 1 ≤ s.dev.getF F.BELL_PPS_CTL_out_width ∧ s.dev.getF F.BELL_PPS_CTL_out_width ≤ 999999 then s.dev.getF F.BELL_PPS_CTL_out_width
          else 100000) * 256000 }).emit (.pin "PPS_OUT" 0 true)) :=
  gives_of_withDev (exec_ppsOutRise s) (if_neg (by simp [hen, hlow, hsecond, hedge]))

theorem ppsOutRise_idle_of_blocked (h : s.dev.flag F.BELL_PPS_CTL_out_en = false ∨ s.dev.bell.ppsHigh = true ∨ s.dev.secondEdge = false ∨
    s.dev.bell.ppsEdge = s.dev.bell.tEdges) : Idle .ppsOutRise s :=
  idle_of_withDev (exec_ppsOutRise s) (if_pos (by simpa using h))

/-- The output falls when its width has passed. -/
theorem ppsOutFall_falls (hhigh : s.dev.bell.ppsHigh = true) (hpast : s.dev.bell.ppsFall ≤ s.dev.dev256) :
    Gives .ppsOutFall s ((s.dev.updBell fun b => { b with ppsHigh := false }).emit (.pin "PPS_OUT" 0 false)) :=
  gives_of_withDev (exec_ppsOutFall s) (if_neg (by simp [hhigh, hpast]))

/-- And not before. -/
theorem ppsOutFall_idle (h : s.dev.bell.ppsHigh = false ∨ s.dev.dev256 < s.dev.bell.ppsFall) : Idle .ppsOutFall s :=
  idle_of_withDev (exec_ppsOutFall s) (if_pos (by simpa using h))

/-! ### The input (R221, R229) -/

theorem exec_ppsInSeenExpiry (s : State) :
    exec .ppsInSeenExpiry s = s.withDev fun d =>
      if d.flag F.BELL_STATUS_pps_in_seen ∧ d.bell.ppsSeenT + 48000000000 ≤ d.clk then d.setF F.BELL_STATUS_pps_in_seen 0 else d := rfl

/-- After 2 s without an accepted pulse the input is no longer seen. -/
theorem ppsInSeenExpiry_expires (hseen : s.dev.flag F.BELL_STATUS_pps_in_seen = true) (hlate : s.dev.bell.ppsSeenT + 48000000000 ≤ s.dev.clk) :
    Gives .ppsInSeenExpiry s (s.dev.setF F.BELL_STATUS_pps_in_seen 0) :=
  gives_of_withDev (exec_ppsInSeenExpiry s) (if_pos ⟨hseen, hlate⟩)

/-- Within 2 s it stays as it is. -/
theorem ppsInSeenExpiry_idle (hsoon : s.dev.clk < s.dev.bell.ppsSeenT + 48000000000) : Idle .ppsInSeenExpiry s :=
  idle_of_withDev (exec_ppsInSeenExpiry s) (if_neg fun h => absurd h.2 (Nat.not_le.mpr hsoon))

/-- The filter of the input's capture register is that of BELL_PPS_CTL. -/
theorem Dev.filterEdges_pps (d : Dev) : d.filterEdges 36 = 1 + d.getF F.BELL_PPS_CTL_filter := rfl

/-- A pulse of stamp `st` comes less than 500 ms after the last accepted one. -/
def Dev.ppsEarly (d : Dev) (st : Nat) : Bool := d.bell.ppsLast.any fun t => decide (t ≤ st) && decide (st < t + 128000000000)

/-- The offset of a stamp from the nearest whole second (R221). -/
def ppsOffset (st : Nat) : Int :=
  if st % 256000000000 < 128000000000 then ((st % 256000000000 : Nat) : Int) else ((st % 256000000000 : Nat) : Int) - (256000000000 : Nat)

/-- What an accepted pulse stores and raises. -/
def Dev.ppsShown (d : Dev) (st : Nat) (theta : Int) : Dev :=
  (((d.setF F.BELL_PPS_IN_STAMP_ns (st / 256)).updBell fun b => { b with ppsLast := some st, ppsSeenT := d.clk }).setF
    F.BELL_STATUS_pps_in_seen 1).raise 0x0307 0 0 0 (bellDetail theta 36 0)

/-- What a pulse of stamp `st` leaves. -/
def Dev.ppsTaken (d : Dev) (st : Nat) : Dev :=
  if d.ppsEarly st then d
  else if (d.ppsShown st (ppsOffset st)).getF F.BELL_CTL_source = 2 then (d.ppsShown st (ppsOffset st)).servoUpdate (ppsOffset st)
  else d.ppsShown st (ppsOffset st)

/-- A stamp lies 1 ns before the captured edge. -/
theorem exec_ppsIn (s : State) :
    exec .ppsIn s = s.withDev fun d =>
      let x := d.takeStamp 36 (1 + d.getF F.BELL_PPS_CTL_filter) (!d.flag F.BELL_PPS_CTL_in_pol)
      if !d.flag F.BELL_PPS_CTL_in_en then d else x.1.ppsTaken (x.2.time - 256) := by
  change execPpsIn s = _
  refine congrArg s.withDev (funext fun d => ?_)
  obtain ⟨e, c⟩ := d.takeStamp 36 (1 + d.getF F.BELL_PPS_CTL_filter) (!d.flag F.BELL_PPS_CTL_in_pol)
  dsimp only
  unfold Dev.ppsTaken Dev.ppsEarly
  cases e.bell.ppsLast <;> rfl

/-- The nearest whole second is the only one within half a second. -/
theorem ppsOffset_eq {st sec : Nat} {theta : Int} (hsec : (st : Int) - sec * 256000000000 = theta) (hlow : -128000000000 ≤ theta)
    (hhigh : theta < 128000000000) : ppsOffset st = theta := by
  unfold ppsOffset
  split <;> omega

section
variable {e : Dev} {c : Capture} (hen : s.dev.flag F.BELL_PPS_CTL_in_en = true)
  (hstamp : s.dev.takeStamp 36 (1 + s.dev.getF F.BELL_PPS_CTL_filter) (!s.dev.flag F.BELL_PPS_CTL_in_pol) = (e, c))
include hen hstamp

/-- A pulse goes by its stamp. -/
theorem ppsIn_gives_ppsTaken : Gives .ppsIn s (e.ppsTaken (c.time - 256)) :=
  gives_of_withDev (exec_ppsIn s) (by simp only [hen, hstamp, Bool.not_true, Bool.false_eq_true, if_false])

/-- One less than 500 ms after the last accepted pulse is ignored. -/
theorem ppsIn_ignored (hearly : e.ppsEarly (c.time - 256) = true) : Gives .ppsIn s e :=
  gives_of_eq (ppsIn_gives_ppsTaken hen hstamp) (if_pos hearly)

variable (hlate : e.ppsEarly (c.time - 256) = false)
include hlate

/-- Any other is stored and reported. -/
theorem ppsIn_shown (hsource : (e.ppsShown (c.time - 256) (ppsOffset (c.time - 256))).getF F.BELL_CTL_source ≠ 2) :
    Gives .ppsIn s (e.ppsShown (c.time - 256) (ppsOffset (c.time - 256))) :=
  gives_of_eq (ppsIn_gives_ppsTaken hen hstamp) ((if_neg (by simp [hlate])).trans (if_neg hsource))

/-- With source PPS it is a servo update too. -/
theorem ppsIn_updates (hsource : (e.ppsShown (c.time - 256) (ppsOffset (c.time - 256))).getF F.BELL_CTL_source = 2) :
    Gives .ppsIn s ((e.ppsShown (c.time - 256) (ppsOffset (c.time - 256))).servoUpdate (ppsOffset (c.time - 256))) :=
  gives_of_eq (ppsIn_gives_ppsTaken hen hstamp) ((if_neg (by simp [hlate])).trans (if_pos hsource))

end

theorem Dev.ppsEarly_eq_true {d : Dev} {st t : Nat} (hlast : d.bell.ppsLast = some t) (hfrom : t ≤ st) (hto : st < t + 128000000000) :
    d.ppsEarly st = true := by
  simp [Dev.ppsEarly, hlast, hfrom, hto]

theorem Dev.ppsEarly_eq_false {d : Dev} {st : Nat} (h : ∀ t, d.bell.ppsLast = some t → st < t ∨ t + 128000000000 ≤ st) :
    d.ppsEarly st = false := by
  cases hlast : d.bell.ppsLast with
  | none => simp [Dev.ppsEarly, hlast]
  | some t =>
    have hout := h t hlast
    simp [Dev.ppsEarly, hlast]
    omega

/-- The active edge of an enabled input is captured in register 36, where there is room. -/
theorem strobeEdge_pps (hen : s.dev.flag F.BELL_PPS_CTL_in_en = true) (hroom : (s.dev.captured 36).length < 2) :
    Gives (.strobeEdge 36 (!s.dev.flag F.BELL_PPS_CTL_in_pol)) s (s.dev.updBell fun b =>
      { b with
        captures := SMap.modify (fun _ => []) b.captures 36
          (· ++ [⟨s.dev.edgeTime (1 + s.dev.getF F.BELL_PPS_CTL_filter), (!s.dev.flag F.BELL_PPS_CTL_in_pol), s.dev.holdoverFlag⟩]) }) := by
  have hactive : s.dev.edgeActive 36 (!s.dev.flag F.BELL_PPS_CTL_in_pol) = true := by
    rw [Dev.edgeActive_pps, hen, Bool.true_and]
    exact Bool.not_bne_self _
  exact (strobeEdge_captured_or_lost (input := 36) (by decide) hactive).1 hroom

/-! ### The obligation -/

/-- Settles O48: a pulse goes by its stamp, of which one whole second only is the nearest. -/
theorem ppsInput : Obligations.PpsInput := by
  intro s e c d st hen hstamp
  refine ⟨strobeEdge_pps hen, fun t hlast hfrom hto => ppsIn_ignored hen hstamp (Dev.ppsEarly_eq_true hlast hfrom hto),
    fun hlate theta sec hsec hlow hhigh => ?accepted⟩
  case accepted =>
    have htheta : ppsOffset (c.time - 256) = theta := ppsOffset_eq hsec hlow hhigh
    subst htheta
    exact ⟨ppsIn_shown hen hstamp (Dev.ppsEarly_eq_false hlate), ppsIn_updates hen hstamp (Dev.ppsEarly_eq_false hlate)⟩

end Sys2Proof.Machine
end

section
/-! PROOFS. Device time and the Almanac (R205, R211, R214, R225–R227, R413): when a rate applies and the servo goes to holdover, what an A edge
counts, takes, rewrites and seeds, and the exchange of board time over a link. -/

namespace Sys2Proof.Machine

open Sys2Proof.Safety

variable {s : State}

/-! ### Rate and holdover (R205, R211, R214) -/

theorem exec_rateApply (s : State) : exec .rateApply s = execRateApply s := rfl

/-- A waiting rate applies once 1,024 T clocks have passed since the last change. -/
theorem rateApply_applies {r : Int} (hwait : s.dev.bell.waitRate = some r) (hpast : 1024 ≤ s.dev.bell.sinceChange) : Gives .rateApply s
    ((s.dev.updBell fun b => { b with rate := r, waitRate := none, sinceChange := 0 }).setF F.BELL_RATE_rate (ofSigned 32 r)) :=
  gives_of_withDev (exec_rateApply s) (by simp only [hwait, if_neg (Nat.not_lt.mpr hpast)])

/-- With none waiting, or sooner, nothing changes. -/
theorem rateApply_idle (h : s.dev.bell.waitRate = none ∨ s.dev.bell.sinceChange < 1024) : Idle .rateApply s := by
  refine idle_of_withDev (exec_rateApply s) ?_
  cases hwait : s.dev.bell.waitRate with
  | none => rfl
  | some r =>
    have hsoon : s.dev.bell.sinceChange < 1024 := h.resolve_left (by simp [hwait])
    simp only [if_pos hsoon]

/-- When the servo has gone `holdover_to` intervals without an update. -/
def Dev.holdoverDue (d : Dev) : Nat := d.bell.lastUpdate + max 1 (d.getF F.BELL_SERVO_LIMITS_holdover_to) * d.updateInterval

theorem exec_holdoverTimeout (s : State) :
    exec .holdoverTimeout s = s.withDev fun d =>
      if (d.servo = 1 ∨ d.servo = 2) ∧ d.holdoverDue ≤ d.clk then (d.enterServo 3).requestRate d.bell.acc else d := rfl

/-- A servo that follows its source then holds the rate it has learnt. -/
theorem holdoverTimeout_holds (hfollows : s.dev.servo = 1 ∨ s.dev.servo = 2) (hdue : s.dev.holdoverDue ≤ s.dev.clk) :
    Gives .holdoverTimeout s ((s.dev.enterServo 3).requestRate s.dev.bell.acc) :=
  gives_of_withDev (exec_holdoverTimeout s) (if_pos ⟨hfollows, hdue⟩)

/-- Before that, and in the other states, nothing changes. -/
theorem holdoverTimeout_idle (h : (s.dev.servo ≠ 1 ∧ s.dev.servo ≠ 2) ∨ s.dev.clk < s.dev.holdoverDue) : Idle .holdoverTimeout s := by
  refine idle_of_withDev (exec_holdoverTimeout s) (if_neg ?_)
  rintro ⟨hfollows, hdue⟩
  omega

/-! ### The Almanac (R225–R227) -/

/-- An Almanac one tick later. -/
def Almanac.counted (a : Almanac) : Almanac :=
  { a with sec := (a.sec * 32768 + a.ticks + 1) / 32768 % 2 ^ 48, ticks := (a.sec * 32768 + a.ticks + 1) % 32768 }

/-- A counted Almanac whose count a new one replaces. -/
def Almanac.replaced (a : Almanac) (sec : Nat) : Almanac := { a.counted with sec := sec, ticks := 0, valid := true }

/-- The locked servo has come into another second and rewrites the Almanac (R227). -/
def Dev.almRewrites (d : Dev) : Bool := d.servo == 2 && d.flag F.BELL_CTL_alm_rewrite && d.devNs / 1000000000 != d.bell.almSec

/-- What an A edge leaves of the Almanac: a rewrite replaces the count before a held set does. -/
def Dev.almTicked (d : Dev) (a : Almanac) : Almanac :=
  if d.almRewrites then a.replaced (d.devNs / 1000000000 % 2 ^ 48)
  else match d.almReady with
    | some v => a.replaced v
    | none => a.counted

/-- What is still held of a set after an A edge: one written less than 100 ns ago (R31). -/
def Dev.almLeft (d : Dev) : Option (Nat × Nat) :=
  match d.bell.almHeld with
  | some (v, at') => if at' + 2400 ≤ d.clk then none else some (v, at')
  | none => none

/-- The Belltower after an A edge that does not seed: a set that was taken is held no longer. -/
def Dev.almRest (d : Dev) : Dev := d.updBell fun b =>
  { b with almHeld := if d.almReady.isSome then none else b.almHeld, almSec := d.devNs / 1000000000, seedPend := b.seedPend && !d.pwr.good }

/-- A running Almanac ticks at an A edge. -/
theorem almanacTick_next (hruns : s.kept.alm.stopped = false) :
    exec .almanacTick s = .next { s with
      dev := if !s.dev.bell.seedPend || !s.dev.pwr.good then s.dev.almRest
        else if (s.dev.almTicked s.kept.alm).valid then
          s.dev.almRest.updBell fun b => { b with setPend := some (almSeed (s.dev.almTicked s.kept.alm), true) }
        else (s.dev.almRest.updBell fun b => { b with setPend := some (0, false) }).raise 0x0306 0 0 0 (bellDetail 0 s.dev.almRest.servo 0)
      kept := { s.kept with alm := s.dev.almTicked s.kept.alm } } := by
  change execAlmanacTick s = _
  rw [execAlmanacTick, if_neg (by simp [hruns])]
  rfl

/-- A stopped one does not. -/
theorem almanacTick_idle (hstopped : s.kept.alm.stopped = true) : Idle .almanacTick s := by
  change execAlmanacTick s = _
  rw [execAlmanacTick, if_pos hstopped]

section
variable {d : Dev}

/-- An A edge goes on holding exactly the set that is not ready. -/
theorem Dev.almLeft_eq : (if d.almReady.isSome then none else d.bell.almHeld) = d.almLeft := by
  unfold Dev.almReady Dev.almLeft
  cases d.bell.almHeld with
  | none => rfl
  | some x => by_cases hpast : x.2 + 2400 ≤ d.clk <;> simp [hpast]

theorem Dev.almRest_unseeded (hseed : d.bell.seedPend = false) :
    d.almRest = d.updBell fun b => { b with almHeld := d.almLeft, almSec := d.devNs / 1000000000, seedPend := false } := by
  simp only [Dev.almRest, Dev.updBell, Dev.almLeft_eq, hseed, Bool.false_and]

theorem Dev.almReady_of_none (hheld : d.bell.almHeld = none) : d.almReady = none := by simp only [Dev.almReady, hheld]

variable {v at' : Nat}

theorem Dev.almReady_of_past (hheld : d.bell.almHeld = some (v, at')) (hpast : at' + 2400 ≤ d.clk) : d.almReady = some v := by
  simp only [Dev.almReady, hheld, if_pos hpast]

theorem Dev.almReady_of_soon (hheld : d.bell.almHeld = some (v, at')) (hsoon : d.clk < at' + 2400) : d.almReady = none := by
  simp only [Dev.almReady, hheld, if_neg (Nat.not_le.mpr hsoon)]

theorem Dev.almRewrites_iff : d.almRewrites = true ↔
    d.servo = 2 ∧ d.flag F.BELL_CTL_alm_rewrite = true ∧ d.devNs / 1000000000 ≠ d.bell.almSec := by
  simp [Dev.almRewrites, and_assoc]

variable {a : Almanac}

theorem Dev.almTicked_rewritten (h : d.almRewrites = true) : d.almTicked a = a.replaced (d.devNs / 1000000000 % 2 ^ 48) := if_pos h

theorem Dev.almTicked_set (h : ¬ d.almRewrites = true) (hready : d.almReady = some v) : d.almTicked a = a.replaced v := by
  rw [Dev.almTicked, if_neg h, hready]

theorem Dev.almTicked_counted (h : ¬ d.almRewrites = true) (hready : d.almReady = none) : d.almTicked a = a.counted := by
  rw [Dev.almTicked, if_neg h, hready]

end

section
variable (hruns : s.kept.alm.stopped = false)
include hruns

/-- With no seed pending an A edge gives the ticked Almanac. -/
theorem almanacTick_unseeded {a : Almanac} (hseed : s.dev.bell.seedPend = false) (hticked : s.dev.almTicked s.kept.alm = a) :
    exec .almanacTick s = .next { s with
      dev := s.dev.updBell fun b => { b with almHeld := s.dev.almLeft, almSec := s.dev.devNs / 1000000000, seedPend := false }
      kept := { s.kept with alm := a } } := by
  rw [almanacTick_next hruns, if_pos (by simp [hseed]), Dev.almRest_unseeded hseed, hticked]

/-- The first A edge after a device reset with a valid Almanac seeds device time. -/
theorem almanacTick_seeds (hseed : s.dev.bell.seedPend = true) (hgood : s.dev.pwr.good = true)
    (hvalid : (s.dev.almTicked s.kept.alm).valid = true) :
    ∃ t, exec .almanacTick s = .next t ∧ t.dev.bell.seedPend = false ∧ t.dev.bell.setPend = some (almSeed t.kept.alm, true) := by
  refine ⟨_, almanacTick_next hruns, ?_⟩
  simp [hseed, hgood, hvalid, Dev.almRest]

end

/-! ### Board time over a link (R413) -/

theorem exec_timeRequest (s : State) :
    exec .timeRequest s = s.withDev fun d =>
      let p := d.getF F.BELL_CTL_link_port
      if d.getF F.BELL_CTL_source = 3 ∧ d.flag F.LINK_TIME_CTL_enable ∧ d.linkUp p then
        (d.updBell fun b => { b with timeReq := true }).emit (.link p 3 (leBytes 8 d.dev256))
      else d := rfl

theorem exec_timeAnswer (port : BitVec 2) (t1 : BitVec 64) (s : State) :
    exec (.timeAnswer port t1) s = s.withDev fun d =>
      if d.linkUp port.toNat then d.emit (.timeAnswer port.toNat t1 (BitVec.ofNat 64 d.dev256) (BitVec.ofNat 64 d.dev256)) else d := rfl

/-- The offset of board time that a response measures on its arrival (R413). -/
def Dev.timeOffset (d : Dev) (t1 t2 t3 : BitVec 64) : Int := ((t1 + BitVec.ofNat 64 d.dev256).toInt - (t2 + t3).toInt) / 2

theorem exec_timeResponse (port : BitVec 2) (t1 t2 t3 : BitVec 64) (s : State) :
    exec (.timeResponse port t1 t2 t3) s = s.withDev fun d =>
      let p := port.toNat
      if d.getF F.BELL_CTL_source = 3 ∧ d.getF F.BELL_CTL_link_port = p ∧ d.linkUp p ∧ d.bell.timeReq then
        ((d.updBell fun b => { b with timeReq := false }).setF (F.LINK_PORT_TIME_OFFSET_theta p)
          (ofSigned 64 (d.timeOffset t1 t2 t3))).servoUpdate (d.timeOffset t1 t2 t3)
      else d := rfl

/-- With source LINK an up source port sends a request. -/
theorem timeRequest_sends (hsource : s.dev.getF F.BELL_CTL_source = 3) (hen : s.dev.flag F.LINK_TIME_CTL_enable = true)
    (hup : s.dev.linkUp (s.dev.getF F.BELL_CTL_link_port) = true) : Gives .timeRequest s
      ((s.dev.updBell fun b => { b with timeReq := true }).emit (.link (s.dev.getF F.BELL_CTL_link_port) 3 (leBytes 8 s.dev.dev256))) :=
  gives_of_withDev (exec_timeRequest s) (if_pos ⟨hsource, hen, hup⟩)

theorem timeRequest_idle (h : s.dev.getF F.BELL_CTL_source ≠ 3 ∨ s.dev.flag F.LINK_TIME_CTL_enable = false ∨
    s.dev.linkUp (s.dev.getF F.BELL_CTL_link_port) = false) : Idle .timeRequest s := by
  refine idle_of_withDev (exec_timeRequest s) (if_neg ?_)
  rintro ⟨hsource, hen, hup⟩
  simp [hsource, hen, hup] at h

section
variable {port : BitVec 2} {t1 t2 t3 : BitVec 64}

/-- An up port answers with its arrival and its departure. -/
theorem timeAnswer_answers (hup : s.dev.linkUp port.toNat = true) : Gives (.timeAnswer port t1) s
    (s.dev.emit (.timeAnswer port.toNat t1 (BitVec.ofNat 64 s.dev.dev256) (BitVec.ofNat 64 s.dev.dev256))) :=
  gives_of_withDev (exec_timeAnswer port t1 s) (if_pos hup)

/-- A port that is not up does not. -/
theorem timeAnswer_idle (hdown : s.dev.linkUp port.toNat = false) : Idle (.timeAnswer port t1) s :=
  idle_of_withDev (exec_timeAnswer port t1 s) (if_neg (by simp [hdown]))

/-- Nor does it take a response. -/
theorem timeResponse_idle (hdown : s.dev.linkUp port.toNat = false) : Idle (.timeResponse port t1 t2 t3) s :=
  idle_of_withDev (exec_timeResponse port t1 t2 t3 s) (if_neg (by simp [hdown]))

/-- The response to a request is shown and is a servo update. -/
theorem timeResponse_updates (hsource : s.dev.getF F.BELL_CTL_source = 3) (hport : s.dev.getF F.BELL_CTL_link_port = port.toNat)
    (hup : s.dev.linkUp port.toNat = true) (hreq : s.dev.bell.timeReq = true) : Gives (.timeResponse port t1 t2 t3) s
      (((s.dev.updBell fun b => { b with timeReq := false }).setF (F.LINK_PORT_TIME_OFFSET_theta port.toNat)
        (ofSigned 64 (s.dev.timeOffset t1 t2 t3))).servoUpdate (s.dev.timeOffset t1 t2 t3)) :=
  gives_of_withDev (exec_timeResponse port t1 t2 t3 s) (if_pos ⟨hsource, hport, hup, hreq⟩)

end

/-! ### The obligation -/

/-- Settles O45: each command by its own lemmas; an A edge by whether the servo rewrites the Almanac and whether a set is held. -/
theorem timeKeeps : Obligations.TimeKeeps := by
  refine ⟨fun s r => ⟨rateApply_idle, rateApply_applies, ⟨holdoverTimeout_holds, holdoverTimeout_idle⟩, almanacTick_idle,
      fun hruns hseed => ?ticks, fun hruns hseed hgood hservo hheld hvalid => ?seeds, rfl, rfl, rfl, rfl, rfl, rfl⟩,
    fun s => ⟨fun now before hhist hen hlow hsecond hedge => ?rises, fun h => ?blocked, fun now before hhist hsame => ?within,
      ppsOutFall_falls, ppsOutFall_idle, ppsInSeenExpiry_expires, ppsInSeenExpiry_idle⟩,
    fun s port t1 t2 t3 => ⟨timeRequest_sends, timeRequest_idle, timeAnswer_answers,
      fun hdown => ⟨timeAnswer_idle hdown, timeResponse_idle hdown⟩, timeResponse_updates⟩⟩
  case ticks =>
    exact ⟨fun hkeep hheld => almanacTick_unseeded hruns hseed
        (Dev.almTicked_counted (mt Dev.almRewrites_iff.mp hkeep) (Dev.almReady_of_none hheld)),
      fun v at' hkeep hheld =>
        ⟨fun hpast => almanacTick_unseeded hruns hseed (Dev.almTicked_set (mt Dev.almRewrites_iff.mp hkeep) (Dev.almReady_of_past hheld hpast)),
          fun hsoon => almanacTick_unseeded hruns hseed
            (Dev.almTicked_counted (mt Dev.almRewrites_iff.mp hkeep) (Dev.almReady_of_soon hheld hsoon))⟩,
      fun hrewrite => almanacTick_unseeded hruns hseed (Dev.almTicked_rewritten (Dev.almRewrites_iff.mpr hrewrite))⟩
  case seeds =>
    have hcounted : s.dev.almTicked s.kept.alm = s.kept.alm.counted :=
      Dev.almTicked_counted (fun h => hservo (Dev.almRewrites_iff.mp h).1) (Dev.almReady_of_none hheld)
    exact almanacTick_seeds hruns hseed hgood (by rw [hcounted]; exact hvalid)
  case rises => exact ppsOutRise_rises hen hlow (by rw [Dev.secondEdge_cons hhist]; exact decide_eq_true hsecond) hedge
  case blocked =>
    refine ppsOutRise_idle_of_blocked ?_
    obtain hoff | hhigh | hnone | hedge := h
    · exact .inl hoff
    · exact .inr (.inl hhigh)
    · exact .inr (.inr (.inl (Dev.secondEdge_nil hnone)))
    · exact .inr (.inr (.inr hedge))
  case within =>
    refine ppsOutRise_idle_of_blocked (.inr (.inr (.inl ?_)))
    rw [Dev.secondEdge_cons hhist]
    exact decide_eq_false (Nat.not_lt.mpr hsame)

end Sys2Proof.Machine
end

section
/-! PROOFS. The Yoke's intake and fusion windows (R234–R236, R250–R252, R254, R378, R528): what the word that the intake pointer finds becomes,
what a window issues for the mark it serves, and what a read of a history under its code leaves. -/

namespace Sys2Proof.Machine

open Sys2Proof.Safety

/-! ### Intake (R234–R236, R254) -/

theorem exec_headWordTake (s : State) : exec .headWordTake s = execHeadWordTake s := rfl

theorem exec_sampleIntake (s : State) : exec .sampleIntake s = execSampleIntake s := rfl

/-- The device once the end word of a sample of trough `n` is taken, and its words are gathered no longer. -/
def Dev.sampleEnded (d : Dev) (n : Nat) (w : TWord) : Dev :=
  (d.intakeTake n w).updYoke fun y => { y with part := SMap.set (fun _ => []) y.part n [] }

/-- The stamp in a sample's header, in 1/256 ns. -/
def sampleStamp (b : List Byte) : Nat := leAt b 0 8 * 256 + leAt b 8 1

/-- The history entry of a sample from its bytes, without channels (R235). -/
def sampleHist (b : List Byte) (arrival : Nat) : Hist :=
  { stamp := sampleStamp b, arrival := arrival, seq := leAt b 12 4, flags := leAt b 10 2, bytes := leAt b 16 4,
    aux := leAt b 24 8, ch := [], ring := 0 }

/-- The streams that select a sample of slot `n` by its source word. -/
def Dev.selecting (d : Dev) (n src : Nat) : List Nat :=
  (List.range d.streamCount).filter fun i => (d.streamRec i).slot == n && (src &&& (d.streamRec i).srcMask) == (d.streamRec i).srcVal

/-- The device once every stream that selects a sample has taken it. -/
def Dev.sampleTaken (d : Dev) (n : Nat) (b : List Byte) : Dev :=
  (d.selecting n (leAt b 20 4)).foldl (fun e i => e.streamTake n b (sampleHist b (d.slotNow n)) i) d

section
variable {s : State}

/-- Without a word at a head the intake takes none. -/
theorem headWordTake_idle_of_none (hnone : s.dev.intakePick = none) : Idle .headWordTake s :=
  idle_of_withDev (exec_headWordTake s) (by simp only [hnone])

/-- Nor a sample. -/
theorem sampleIntake_idle_of_none (hnone : s.dev.intakePick = none) : Idle .sampleIntake s :=
  idle_of_withDev (exec_sampleIntake s) (by simp only [hnone])

section
variable {n : Nat} {w : TWord} (hpick : s.dev.intakePick = some (n, w))
include hpick

/-- A word that does not end its sample is taken. -/
theorem headWordTake_takes (hmid : w.eop = false) : Gives .headWordTake s (s.dev.intakeTake n w) :=
  gives_of_withDev (exec_headWordTake s) (by simp only [hpick, hmid, Bool.false_eq_true, if_false])

/-- It is no sample's end. -/
theorem sampleIntake_idle_of_mid (hmid : w.eop = false) : Idle .sampleIntake s :=
  idle_of_withDev (exec_sampleIntake s) (by simp only [hpick, hmid, Bool.not_false, if_true])

section
variable (hend : w.eop = true)
include hend

/-- The word that ends a sample is left to SAMPLE_INTAKE. -/
theorem headWordTake_idle_of_end : Idle .headWordTake s :=
  idle_of_withDev (exec_headWordTake s) (by simp only [hpick, hend, if_true])

/-- An aborted sample leaves no trace. -/
theorem sampleIntake_aborts (habort : w.abort = true) : Gives .sampleIntake s (s.dev.sampleEnded n w) :=
  gives_of_withDev (exec_sampleIntake s) (by
    simp only [hpick, hend, habort, Bool.not_true, Bool.true_or, Bool.false_eq_true, if_false, if_true]; rfl)

/-- A whole sample that is not late goes to the streams that select it. -/
theorem sampleIntake_takes {ws : List TWord} (hgood : w.abort = false)
    (hws : SMap.get (fun _ => []) (s.dev.intakeTake n w).yoke.part n = ws) (hsome : ws ≠ [])
    (hintime : ((s.dev.sampleEnded n w).sampleTaken n (sampleBytes ws)).lateFor
      ((s.dev.sampleEnded n w).selecting n (leAt (sampleBytes ws) 20 4)) (sampleStamp (sampleBytes ws)) ((s.dev.sampleEnded n w).slotNow n) = false) :
    Gives .sampleIntake s ((s.dev.sampleEnded n w).sampleTaken n (sampleBytes ws)) := by
  have hfull : (w.abort || ws.isEmpty) = false := by simp [hgood, hsome]
  refine gives_of_withDev (exec_sampleIntake s) ?_
  simp only [hpick, hend, hws, hfull, Bool.not_true, Bool.false_eq_true, if_false]
  exact if_neg (Bool.eq_false_iff.mp hintime)

end

end

end

/-! ### Fusion windows (R250–R252, R528) -/

theorem exec_fuseProv (sch : BitVec 3) (st : State) : exec (.fuseProv sch) st = execFuseProv sch st := rfl

theorem exec_fuseCommit (sch : BitVec 3) (st : State) : exec (.fuseCommit sch) st = execFuseCommit sch st := rfl

/-- The schedule once mark `m` has had its provisional issue, with the evaluation that was written if one was. -/
def Dev.provNoted (d : Dev) (s m : Nat) (p : Option Eval) : Dev :=
  d.updSched s fun x => { x with provDone := some m, provs := (m, p) :: x.provs }

/-- The region that the provisional copy of a mark goes to. -/
def Dev.provRegion (d : Dev) (s m : Nat) : PRegion := d.region (d.getF (F.YOKE_MARK_CFG_region_base s) + m % d.nbuf s)

/-- The evaluation of a mark at its provisional instant (R250). -/
def Dev.provEval (d : Dev) (s m : Nat) : Eval := d.evaluate s m ((d.markTime s m + d.provLag s) * 256)

/-- The evaluation of a mark at its commit instant (R251). -/
def Dev.commitEval (d : Dev) (s m : Nat) : Eval := d.evaluate s m ((d.markTime s m + d.commitLag s) * 256)

/-- The provisional issue of a mark, complete at `written`: skipped while its region is open for another mark, else a copy (R250). -/
def Dev.provIssued (d : Dev) (s m written : Nat) : Dev :=
  if (d.provRegion s m).state = 1 ∧ (d.provRegion s m).mark ≠ m then (d.provNoted s m none).provSkip s m
  else
    let g := d.provNoted s m (some (d.provEval s m))
    g.writeFrame s m false (g.frame s (d.provEval s m) false 0 0 0 written false)

/-- The committed copy of an evaluation for mark `m` with its verdict, which the Yoke notes (R251). -/
def Dev.committedCopy (d : Dev) (s m : Nat) (c : Eval) (verdict changed written : Nat) (skipped : Bool) : Dev :=
  (d.writeFrame s m true (d.frame s c true verdict (d.windowArrivals s m) changed written skipped)).noteCommitted s c verdict (d.windowArrivals s m)

/-- The streams that have changed between two evaluations (R252). -/
def Dev.changedStreams (d : Dev) (p c : Eval) : List Nat :=
  ((p.streams.zip c.streams).filter fun x => d.streamChanged x.1 x.2).map (·.2.stream)

/-- An evaluation whose changed streams are flagged CHANGED (R252). -/
def Eval.flagChanged (c : Eval) (ch : List Nat) : Eval :=
  { c with streams := c.streams.map fun x => if ch.contains x.stream then { x with flags := x.flags + sfChanged } else x }

/-- The commit of a mark whose provisional copy `p` was written: kept when no stream has changed, else refused (R252). -/
def Dev.judged (d : Dev) (s m : Nat) (p : Eval) (written : Nat) : Dev :=
  let c := d.commitEval s m
  let ch := d.changedStreams p c
  if ch.isEmpty then d.committedCopy s m p 1 0 written false
  else d.committedCopy s m (c.flagChanged ch) 2 (ch.foldl (fun n i => n + 2 ^ i) 0) written false

theorem Dev.provIssued_skips {d : Dev} {s m : Nat} (hopen : (d.provRegion s m).state = 1) (hother : (d.provRegion s m).mark ≠ m) (written : Nat) :
    d.provIssued s m written = (d.provNoted s m none).provSkip s m := if_pos ⟨hopen, hother⟩

theorem Dev.provIssued_writes {d : Dev} {s m : Nat} (hfree : (d.provRegion s m).state ≠ 1 ∨ (d.provRegion s m).mark = m) (written : Nat) :
    d.provIssued s m written = (d.provNoted s m (some (d.provEval s m))).writeFrame s m false
      ((d.provNoted s m (some (d.provEval s m))).frame s (d.provEval s m) false 0 0 0 written false) :=
  if_neg fun ⟨hopen, hother⟩ => hfree.elim (· hopen) hother

section
variable {d : Dev} {s m : Nat} {p : Eval} {written : Nat}

theorem Dev.judged_kept (hsame : d.changedStreams p (d.commitEval s m) = []) :
    d.judged s m p written = d.committedCopy s m p 1 0 written false := if_pos (List.isEmpty_iff.mpr hsame)

theorem Dev.judged_refused (hchanged : d.changedStreams p (d.commitEval s m) ≠ []) :
    d.judged s m p written = d.committedCopy s m ((d.commitEval s m).flagChanged (d.changedStreams p (d.commitEval s m))) 2
      ((d.changedStreams p (d.commitEval s m)).foldl (fun n i => n + 2 ^ i) 0) written false :=
  if_neg (mt List.isEmpty_iff.mp hchanged)

end

section
variable {sch : BitVec 3} {st : State}

/-- Without an open window that has not run there is no provisional issue. -/
theorem fuseProv_idle (hclosed : st.dev.fuseWindow (0x10 + sch.toNat) sch.toNat = none) : Idle (.fuseProv sch) st :=
  idle_of_withDev (exec_fuseProv sch st) (by simp only [hclosed])

/-- Nor a commit. -/
theorem fuseCommit_idle (hclosed : st.dev.fuseWindow (0x18 + sch.toNat) sch.toNat = none) : Idle (.fuseCommit sch) st :=
  idle_of_withDev (exec_fuseCommit sch st) (by simp only [hclosed])

section
variable {w : CalEntry} {start m : Nat} {e : Dev} {written : Nat}

/-- A provisional window issues the mark it serves, once the histories are read and the fusion's time is drawn. -/
theorem fuseProv_issues (hwin : st.dev.fuseWindow (0x10 + sch.toNat) sch.toNat = some (w, start)) (hprov : st.dev.noProv sch.toNat = false)
    (hmark : st.dev.fuseMark sch.toNat (st.dev.provLag sch.toNat) start (st.dev.sched sch.toNat).provDone = some m)
    (hspan : (st.dev.histReads sch.toNat).fuseSpan sch.toNat w false m = (e, written)) :
    Gives (.fuseProv sch) st (e.provIssued sch.toNat m written) :=
  gives_of_withDev (exec_fuseProv sch st) (by simp only [hwin, hprov, hmark, hspan, Bool.false_eq_true, if_false]; rfl)

section
variable (hwin : st.dev.fuseWindow (0x18 + sch.toNat) sch.toNat = some (w, start))
  (hmark : st.dev.fuseMark sch.toNat (st.dev.commitLag sch.toNat) start (st.dev.sched sch.toNat).commitDone = some m)
  (hspan : (st.dev.histReads sch.toNat).fuseSpan sch.toNat w true m = (e, written))
include hwin hmark hspan

/-- A schedule without provisional frames commits the evaluation at the commit instant (R232). -/
theorem fuseCommit_direct (hdirect : e.noProv sch.toNat = true) :
    Gives (.fuseCommit sch) st (e.committedCopy sch.toNat m (e.commitEval sch.toNat m) 1 0 written false) :=
  gives_of_withDev (exec_fuseCommit sch st) (by simp only [hwin, hmark, hspan, hdirect, if_true]; rfl)

/-- Else the provisional copy of the mark is judged. -/
theorem fuseCommit_judges {p : Eval} (hprov : e.noProv sch.toNat = false)
    (hfind : ((e.sched sch.toNat).provs.find? fun x => x.1 == m) = some (m, some p)) :
    Gives (.fuseCommit sch) st (e.judged sch.toNat m p written) :=
  gives_of_withDev (exec_fuseCommit sch st) (by simp only [hwin, hmark, hspan, hprov, hfind, Bool.false_eq_true, if_false]; rfl)

end

end

end

/-! ### Histories under their code (R236, R378) -/

section
variable {d : Dev}

/-- An entry with an uncorrectable error goes. -/
theorem Dev.histEntry_uncorr {x : Hist} (herr : x.err.find false = .uncorr) (i : Nat) : (d.histEntry i x).2 = none := by
  simp only [Dev.histEntry, herr]

/-- One with a correctable error is corrected. -/
theorem Dev.histEntry_corr {x : Hist} (herr : x.err.find false = .corr) (i : Nat) : (d.histEntry i x).2 = some { x with err := {} } := by
  simp only [Dev.histEntry, herr]

/-- A history without errors stays. -/
theorem Dev.histRead_of_clean {i : Nat} (hclean : ∀ x ∈ d.history i, x.err.find false = .clean) : d.histRead i = d :=
  if_pos (List.all_eq_true.mpr fun x hx => beq_iff_eq.mpr (hclean x hx))

/-- So do all that an evaluation uses, however many they are. -/
theorem Dev.foldl_histRead_of_clean (hclean : ∀ i, ∀ x ∈ d.history i, x.err.find false = .clean) (streams : List Nat) :
    streams.foldl (fun d i => d.histRead i) d = d := by
  induction streams with
  | nil => rfl
  | cons i streams ih => rw [List.foldl_cons, Dev.histRead_of_clean (hclean i), ih]

/-- Reading the clean histories of a schedule changes nothing. -/
theorem Dev.histReads_of_clean (hclean : ∀ i, ∀ x ∈ d.history i, x.err.find false = .clean) (s : Nat) : d.histReads s = d :=
  Dev.foldl_histRead_of_clean hclean _

end

/-! ### The obligation -/

/-- Settles O37: the intake by the word that its pointer finds, a window by the mark it serves, a history by what its code finds. -/
theorem yokeTakesAndFuses : Obligations.YokeTakesAndFuses := by
  refine ⟨fun s => ⟨fun hnone => ⟨headWordTake_idle_of_none hnone, sampleIntake_idle_of_none hnone⟩, fun n w hpick => ?intake⟩,
    fun st sch w start m e written => ⟨fuseProv_idle, fuseCommit_idle, fun hwin hprov hmark hspan => ?provisional,
      fun hwin hmark hspan => ?commit⟩,
    fun d s i x => ⟨fun hclean => Dev.histReads_of_clean hclean s, fun herr => Dev.histEntry_uncorr herr i,
      fun herr => Dev.histEntry_corr herr i⟩⟩
  case intake =>
    exact ⟨fun hmid => ⟨headWordTake_takes hpick hmid, sampleIntake_idle_of_mid hpick hmid⟩, headWordTake_idle_of_end hpick,
      sampleIntake_aborts hpick, fun hend hgood ws hws hsome => sampleIntake_takes hpick hend hgood hws hsome⟩
  case provisional =>
    have hissues := fuseProv_issues hwin hprov hmark hspan
    exact ⟨fun hopen hother => gives_of_eq hissues (Dev.provIssued_skips hopen hother written),
      fun hfree => gives_of_eq hissues (Dev.provIssued_writes hfree written)⟩
  case commit =>
    refine ⟨fuseCommit_direct hwin hmark hspan, fun p hprov hfind => ?judged⟩
    have hjudges := fuseCommit_judges hwin hmark hspan hprov hfind
    exact ⟨fun hsame => gives_of_eq hjudges (Dev.judged_kept hsame),
      fun hchanged => ⟨_, gives_of_eq hjudges (Dev.judged_refused hchanged), _, _, rfl, rfl, rfl⟩⟩

end Sys2Proof.Machine
end

section
/-! PROOFS. Jobs of the Mill (R300, R301, R303, R309, R310, R313): the turn of the job at the head of a queue, its run, and its end. -/

namespace Sys2Proof.Machine

open Sys2Proof.Safety

/-! ### The turn of a job (R300) -/

section
variable {d : Dev} {q : Nat} {j : Job}

/-- A batch job has its turn while every lane job waits and was accepted after the clock at which the batch could start. -/
theorem Dev.millTurn_batch : d.millTurn 4 j = true ↔ ∀ l < 4, ∀ x ∈ d.laneJobs 2 l, x.ran = false ∧ d.batchFrom j < x.acceptAt := by
  simp only [Dev.millTurn, if_true, List.all_eq_true, List.mem_range, Bool.and_eq_true, Bool.not_eq_true', decide_eq_true_iff]

/-- A lane job has its turn unless the first batch job runs or could start before the lane job was accepted. -/
theorem Dev.millTurn_lane (hlane : q ≠ 4) :
    d.millTurn q j = true ↔ ∀ y, (d.laneJobs 2 4).head? = some y → y.ran = false ∧ j.acceptAt ≤ d.batchFrom y := by
  rw [Dev.millTurn, if_neg hlane]
  cases d.laneJobs 2 4 with
  | nil => simp
  | cons y ys => simp

/-- The turn of the first job of a queue, as R300 says it. -/
theorem Dev.millTurn_iff : d.millTurn q j = true ↔
    if q = 4 then ∀ l < 4, ∀ x ∈ d.laneJobs 2 l, x.ran = false ∧ d.batchFrom j < x.acceptAt
    else ∀ y, (d.laneJobs 2 4).head? = some y → y.ran = false ∧ j.acceptAt ≤ d.batchFrom y := by
  by_cases hbatch : q = 4
  · subst hbatch
    simpa only [if_true] using Dev.millTurn_batch
  · simpa only [if_neg hbatch] using Dev.millTurn_lane hbatch

end

/-! ### A run (R301, R303, R309) -/

/-- The C clock at which a job is accepted and the lanes of its queue have done their work so far (R300). -/
def Dev.queueFree (d : Dev) (q : Nat) (j : Job) : Nat :=
  (queueLanes q).foldl (fun m l => max m (SMap.get (fun _ => 0) d.mill.laneFree l)) j.acceptAt

section
variable {d e f : Dev} {j : Job} {b : List Byte} {q kind : Nat}

/-- With no job to run the Mill does nothing. -/
theorem Dev.millRun_none (hhead : d.headToRun 2 q = none) : d.millRun q kind = d := by
  simp only [Dev.millRun, hhead]

section
variable (hhead : d.headToRun 2 q = some j)
include hhead

/-- Nor with a job of another kind. -/
theorem Dev.millRun_other (hkind : j.kind ≠ kind) : d.millRun q kind = d := by
  simp only [Dev.millRun, hhead, decide_eq_true hkind, Bool.true_or, if_true]

/-- Nor under recovery. -/
theorem Dev.millRun_recovering (hrec : d.flag F.MILL_STATUS_recovering = true) : d.millRun q kind = d := by
  simp only [Dev.millRun, hhead, hrec, Bool.or_true, Bool.true_or, if_true]

/-- Nor before the job's turn. -/
theorem Dev.millRun_waits (hturn : d.millTurn q j = false) : d.millRun q kind = d := by
  simp only [Dev.millRun, hhead, hturn, Bool.not_false, Bool.or_true, if_true]

variable (hkind : j.kind = kind) (hrec : d.flag F.MILL_STATUS_recovering = false) (hturn : d.millTurn q j = true)
include hkind hrec hturn

/-- A job whose block cannot be read ends with code 3. -/
theorem Dev.millRun_unread (hread : d.jobRead j j.addr 128 = (e, none)) : d.millRun q kind = e.jobRan j 3 [0, e.cclk] := by
  simp [Dev.millRun, hhead, hkind, hrec, hturn, hread]

variable (hread : d.jobRead j j.addr 128 = (e, some b))
include hread

/-- A job whose block has a fault ends with its code before an instance is written. -/
theorem Dev.millRun_refused (hreason : e.millReason j b ≠ 0) : d.millRun q kind = e.jobRan j (e.millReason j b) [0, e.queueFree q j] := by
  simp [Dev.millRun, hhead, hkind, hrec, hturn, hread, hreason, Dev.queueFree]

variable (hreason : e.millReason j b = 0)
include hreason

/-- A job of a kind that feeds no resident slot is worked, and nothing has saturated before. -/
theorem Dev.millRun_works (hdirect : kind ≠ 5) : d.millRun q kind = e.millWork j b q kind 0 (e.queueFree q j) := by
  simp [Dev.millRun, hhead, hkind, hrec, hturn, hread, hreason, hdirect, Dev.queueFree]

variable (hlsq : kind = 5)
include hlsq

/-- A tagged LSQ job may not change its resident slot (R309). -/
theorem Dev.millRun_tagged (htag : j.tag.isSome = true) (hchange : pbReset b = true ∨ leAt b 56 4 ≠ 0) :
    d.millRun q kind = e.jobRan j 3 [0, e.queueFree q j] := by
  simp [Dev.millRun, hhead, hkind, hrec, hturn, hread, hreason, hlsq, htag, hchange, Dev.queueFree]

variable (hmay : j.tag = none ∨ (pbReset b = false ∧ leAt b 56 4 = 0)) {c sat : Nat} (hfeed : e.lsqFeed j b = (f, c, sat))
include hmay hfeed

/-- Any other one is fed its deltas: a failure is its end code, and without one it is worked. -/
theorem Dev.millRun_feeds :
    d.millRun q kind = if c ≠ 0 then f.jobRan j c [0, e.queueFree q j] else f.millWork j b q 5 sat (e.queueFree q j) := by
  have hallowed : ¬ (j.tag.isSome = true ∧ (pbReset b = true ∨ leAt b 56 4 ≠ 0)) := by
    rintro ⟨htag, hchange⟩
    obtain hnone | ⟨hreset, hdeltas⟩ := hmay
    · simp [hnone] at htag
    · simp [hreset, hdeltas] at hchange
  simp only [Dev.millRun, hhead, hkind, hrec, hturn, hread, hreason, hlsq, hallowed, hfeed, Dev.queueFree, ne_eq, not_true_eq_false, decide_false,
    Bool.not_true, Bool.or_self, Bool.false_eq_true, if_false, and_false, if_true]

end
end

/-! ### The end of a job (R300, R303, R313) -/

/-- A job within its quota that ended without an error writes its count and status 1, is counted and named as the last. -/
theorem Dev.millEnd_done {d e : Dev} {j : Job} (hquota : j.notes.getD 2 0 = 0) (hres : j.result = 0)
    (hwrite : d.jobWrite j (j.addr + 120) (millStatusWords (j.notes.getD 0 0) 1) = (e, true)) :
    d.millEnd j = (((e.bumpFor j.tag R.MILL_JOBS).setF F.MILL_LAST_JOB_address j.addr).setReg R.MILL_LAST_END
      (BitVec.ofNat 64 (j.kind % 256))).endJob j := by
  simp only [Dev.millEnd, hquota, hres, hwrite, ne_eq, not_true_eq_false, false_and, if_true, if_false, zero_ne_one, Nat.zero_mul, Nat.add_zero]

/-! ### The commands -/

section
variable {s : State} {q : BitVec 3} {j : Job}

/-- The command of each kind of job (R301). -/
theorem exec_of_millKind {r : Nat × Instr} (hrow : r ∈ [(1, .kin q), (2, .invdyn q), (3, .fwddyn q), (4, .wbik q), (5, .lsq q)]) :
    exec r.2 s = s.withDev fun d => d.millRun q.toNat r.1 := by
  simp only [List.mem_cons, List.not_mem_nil, or_false] at hrow
  rcases hrow with rfl | rfl | rfl | rfl | rfl <;> rfl

theorem exec_millJobEnd (q : BitVec 3) (s : State) : exec (.millJobEnd q) s = execMillJobEnd q s := rfl

/-- A queue whose first job has not run ends none. -/
theorem millJobEnd_none (hhead : s.dev.headRan 2 q.toNat = none) : Idle (.millJobEnd q) s :=
  idle_of_withDev (exec_millJobEnd q s) (by simp only [hhead])

/-- Nor does one before the clock of the job's end. -/
theorem millJobEnd_early (hhead : s.dev.headRan 2 q.toNat = some j) (hearly : s.dev.cclk < j.notes.getD 1 0) : Idle (.millJobEnd q) s :=
  idle_of_withDev (exec_millJobEnd q s) (by simp only [hhead, if_pos hearly])

/-- From that clock on the job ends. -/
theorem millJobEnd_due (hhead : s.dev.headRan 2 q.toNat = some j) (hdue : j.notes.getD 1 0 ≤ s.dev.cclk) :
    Gives (.millJobEnd q) s (s.dev.millEnd j) :=
  gives_of_withDev (exec_millJobEnd q s) (by simp only [hhead, if_neg (Nat.not_lt.mpr hdue)])

end

/-- Settles O39: a run goes by the head of the queue, its turn, its block and its deltas, an end by the clock that the run noted. -/
theorem millJobs : Obligations.MillJobs := by
  intro s q j b d e sat c n rows turn
  have hturn_iff : s.dev.millTurn n j = true ↔ turn := Dev.millTurn_iff
  refine ⟨fun r hrow => ?runs, millJobEnd_none, fun hhead => ⟨millJobEnd_early hhead, fun hdue hquota hres hwrite =>
    gives_of_eq (millJobEnd_due hhead hdue) (Dev.millEnd_done hquota hres hwrite)⟩⟩
  case runs =>
    have hexec : exec r.2 s = s.withDev fun d => d.millRun n r.1 := exec_of_millKind hrow
    refine ⟨fun hnone => idle_of_withDev hexec (Dev.millRun_none hnone), fun hhead =>
      ⟨fun hkind => idle_of_withDev hexec (Dev.millRun_other hhead hkind), fun hrec => idle_of_withDev hexec (Dev.millRun_recovering hhead hrec),
        fun hwaits => idle_of_withDev hexec (Dev.millRun_waits hhead (Bool.eq_false_iff.mpr (mt hturn_iff.mp hwaits))),
        fun hkind hrec hturn hread => gives_of_withDev hexec (Dev.millRun_unread hhead hkind hrec (hturn_iff.mpr hturn) hread),
        fun hkind hrec hturn hread => ?read⟩⟩
    replace hturn := hturn_iff.mpr hturn
    refine ⟨fun hreason => gives_of_withDev hexec (Dev.millRun_refused hhead hkind hrec hturn hread hreason),
      fun hreason hdirect => gives_of_withDev hexec (Dev.millRun_works hhead hkind hrec hturn hread hreason hdirect),
      fun hreason hlsq htag hchange => gives_of_withDev hexec (Dev.millRun_tagged hhead hkind hrec hturn hread hreason hlsq htag hchange),
      fun hreason hlsq hmay => ⟨fun hfeed => ?fed, fun hfail hfeed => ?failed⟩⟩
    case fed =>
      exact gives_of_withDev hexec
        ((Dev.millRun_feeds hhead hkind hrec hturn hread hreason hlsq hmay hfeed).trans (if_neg (not_not_intro rfl)))
    case failed =>
      exact gives_of_withDev hexec ((Dev.millRun_feeds hhead hkind hrec hturn hread hreason hlsq hmay hfeed).trans (if_pos hfail))

end Sys2Proof.Machine
end

section
/-! PROOFS. What every step keeps: it goes on, it takes exactly the front of the queue, and it writes no byte of the PUF's part of the flash
(00_scope.md, R449); and what an empty queue does (log 1, log 3). -/

namespace Sys2Proof.Machine

open Sys2Proof.Safety

/-! ### What a step may do to the queue and to the flash -/

/-- `l` is `k` after writes that keep the flash canonical and leave the PUF's part of it as it was. -/
def Kept.RootStands (k l : Kept) : Prop :=
  SMap.wf flashDefault k.flash = true → SMap.wf flashDefault l.flash = true ∧
    ∀ a, 0x28000 ≤ a → a < 0x30000 → SMap.get flashDefault l.flash a = SMap.get flashDefault k.flash a

/-- `t` has the queue of `s`, and the flash of `s` as far as its canonical form and the PUF's part go. -/
def State.Follows (s t : State) : Prop := t.pending = s.pending ∧ s.kept.RootStands t.kept

/-- An outcome that goes on to a state that follows `s`. -/
def State.LeadsOn (s : State) (o : Host.Outcome State Fault Refusal) : Prop := ∃ t, o = .next t ∧ s.Follows t

section
variable {k l m : Kept} {r s t : State} {o : Host.Outcome State Fault Refusal}

theorem Kept.RootStands.refl (k : Kept) : k.RootStands k := fun h => ⟨h, fun _ _ _ => rfl⟩

theorem Kept.RootStands.trans (hkl : k.RootStands l) (hlm : l.RootStands m) : k.RootStands m := fun hk => by
  obtain ⟨hl, hgetl⟩ := hkl hk
  obtain ⟨hm, hgetm⟩ := hlm hl
  exact ⟨hm, fun a hlow hhigh => (hgetm a hlow hhigh).trans (hgetl a hlow hhigh)⟩

theorem Kept.rootStands_of_flash (h : l.flash = k.flash) : k.RootStands l := fun hk => ⟨h ▸ hk, fun _ _ _ => by rw [h]⟩

theorem State.Follows.refl (s : State) : s.Follows s := ⟨rfl, .refl _⟩

theorem State.Follows.trans (hrs : r.Follows s) (hst : s.Follows t) : r.Follows t := ⟨hst.1.trans hrs.1, hrs.2.trans hst.2⟩

/-- A state of the same queue and the same flash follows. -/
theorem State.follows_of_flash (hq : t.pending = s.pending) (hf : t.kept.flash = s.kept.flash) : s.Follows t :=
  ⟨hq, Kept.rootStands_of_flash hf⟩

/-- So does one in which only the device has changed. -/
theorem State.follows_dev (s : State) (d : Dev) : s.Follows { s with dev := d } := .refl s

theorem State.follows_upd (s : State) (f : Dev → Dev) : s.Follows (s.upd f) := .refl s

/-- Changes of the device come after. -/
theorem State.Follows.upd (h : s.Follows t) (f : Dev → Dev) : s.Follows (t.upd f) := h

/-- Of two branches each follows. -/
theorem State.follows_ite {c : Prop} [Decidable c] (ht : s.Follows r) (he : s.Follows t) : s.Follows (if c then r else t) := by
  split
  · exact ht
  · exact he

theorem State.Follows.leadsOn (h : s.Follows t) : s.LeadsOn (.next t) := ⟨t, rfl, h⟩

/-- A command whose meaning changes the device only leads on. -/
theorem State.leadsOn_of_dev {d : Dev} (h : o = .next { s with dev := d }) : s.LeadsOn o := ⟨_, h, s.follows_dev d⟩

/-- Of two branches each leads on. -/
theorem State.leadsOn_ite {c : Prop} [Decidable c] {p : Host.Outcome State Fault Refusal} (ht : s.LeadsOn o) (he : s.LeadsOn p) :
    s.LeadsOn (if c then o else p) := by
  split
  · exact ht
  · exact he

/-- What happens for each member of a list in turn follows if each does. -/
theorem State.follows_foldl {α : Type} {f : State → α → State} (hf : ∀ (t : State) x, t.Follows (f t x)) (xs : List α) (s : State) :
    s.Follows (xs.foldl f s) := by
  induction xs generalizing s with
  | nil => exact .refl s
  | cons x xs ih => exact (hf s x).trans (ih _)

theorem State.follows_iter {f : Nat → State → State} (hf : ∀ i (t : State), t.Follows (f i t)) (n : Nat) (s : State) :
    s.Follows (iter n s f) := State.follows_foldl (fun t i => hf i t) _ s

end

/-! ### Writes of the flash (R449) -/

section
variable (k : Kept)

/-- An erase that ends below the PUF's part or begins above it leaves that part. -/
theorem Kept.rootStands_flashErase {off n : Nat} (h : off + n ≤ 0x28000 ∨ 0x30000 ≤ off) : k.RootStands (k.flashErase off n) :=
  fun hwf => ⟨Kept.wf_flashErase off n hwf, fun a _ _ => Kept.flashErase_outside off n a hwf (by omega)⟩

/-- So does such a write. -/
theorem Kept.rootStands_flashWrite {off : Nat} {bs : List Byte} (h : off + bs.length ≤ 0x28000 ∨ 0x30000 ≤ off) :
    k.RootStands (k.flashWrite off bs) :=
  fun hwf => ⟨Kept.wf_flashWrite off bs hwf, fun a _ _ => Kept.flashWrite_outside off a bs hwf (by omega)⟩

/-- An area is erased and written anew: below the PUF's part, or above it. -/
theorem Kept.rootStands_rewrite {off n : Nat} {bs : List Byte} (h : (off + n ≤ 0x28000 ∧ off + bs.length ≤ 0x28000) ∨ 0x30000 ≤ off) :
    k.RootStands ((k.flashErase off n).flashWrite off bs) :=
  (k.rootStands_flashErase (by omega)).trans (Kept.rootStands_flashWrite _ (by omega))

theorem length_fitBytes (n : Nat) (bs : List Byte) : (fitBytes n bs).length = n := by
  unfold fitBytes
  rw [List.length_take, List.length_append, List.length_replicate]
  omega

/-- Both boot control blocks lie below the PUF's part. -/
theorem Kept.rootStands_putBcb (key : List Byte) (b : Bcb) : k.RootStands (k.putBcb key b) := by
  have hput : ∀ copy ≤ 1, ∀ seq, k.RootStands ((k.flashErase (bcbAt copy) 4096).flashWrite (bcbAt copy) ({ b with seq := seq }.bytes key)) := by
    intro copy hcopy seq
    have hlen : (Bcb.bytes { b with seq := seq } key).length = 4096 := length_fitBytes _ _
    exact k.rootStands_rewrite (.inl (by unfold bcbAt; omega))
  unfold Kept.putBcb
  cases k.bcb key with
  | none => exact hput 0 (by omega) _
  | some x => exact hput (1 - x.1) (by omega) _

end

section
variable (s : State)

/-- The log lies above it (R460). -/
theorem State.follows_logWrite (kind : Nat) (rec : List Byte) : s.Follows (s.logWrite kind rec) := by
  refine ⟨rfl, ?_⟩
  unfold State.logWrite
  dsimp only
  refine Kept.RootStands.trans ?erase (Kept.rootStands_flashWrite _ (.inr (by unfold logBase; omega)))
  case erase =>
    split
    · exact Kept.rootStands_flashErase _ (.inr (by unfold logBase; omega))
    · exact .refl _

theorem State.follows_logOne : s.Follows s.logOne := by
  unfold State.logOne
  split
  · exact .refl s
  · refine State.Follows.trans ?_ (State.follows_logWrite _ _ _)
    split
    · exact s.follows_dev _
    · exact (s.follows_dev _).trans (State.follows_logWrite _ _ _)

/-! ### The Reeve (R464–R480) -/

theorem State.follows_dumpBegins (summary : Bool) : s.Follows (s.dumpBegins summary) := by
  unfold State.dumpBegins
  split
  · exact .refl s
  · exact State.follows_of_flash rfl rfl

theorem State.follows_recoveryStart (u cause detail : Nat) : s.Follows (s.recoveryStart u cause detail) :=
  (s.follows_dev _).trans (State.follows_dumpBegins _ _)

theorem State.follows_reeveRequest (u cause detail : Nat) : s.Follows (s.reeveRequest u cause detail) := by
  unfold State.reeveRequest
  dsimp only
  split
  · exact .refl s
  · split
    · exact s.follows_upd _
    · split
      · exact s.follows_upd _
      · split
        · exact s.follows_upd _
        · exact s.follows_recoveryStart u cause detail

theorem State.follows_reeveRetry : s.Follows s.reeveRetry :=
  (s.follows_upd _).trans (State.follows_foldl (fun t (x : Nat × Nat × Nat) => t.follows_reeveRequest x.1 x.2.1 x.2.2) _ _)

theorem State.follows_reeveCmd (v : Nat) : s.Follows (s.reeveCmd v) := by
  unfold State.reeveCmd
  dsimp only
  split
  · exact .refl s
  · split
    · exact (s.follows_upd _).trans (State.follows_reeveRetry _)
    · exact s.follows_reeveRequest _ _ _

theorem State.follows_cpMiss (n kind : Nat) : s.Follows (s.cpMiss n kind) := by
  refine State.follows_ite ?_ (s.follows_dev _)
  exact (s.follows_dev _).trans (State.follows_reeveRequest _ _ _ _)

theorem State.follows_cpReport (n num c : Nat) : s.Follows (s.cpReport n num c) := by
  unfold State.cpReport
  dsimp only
  refine (s.follows_upd fun d => d.cpSettle n).trans ?_
  split
  · exact State.follows_cpMiss _ _ _
  · split
    · exact State.follows_cpMiss _ _ _
    · split
      · exact State.follows_cpMiss _ _ _
      · split
        · exact State.follows_upd _ _
        · exact State.follows_cpMiss _ _ _

/-! ### The register bus (R10–R14) -/

theorem State.follows_regWrite (path : Path) (a v : Nat) : s.Follows (s.regWrite path a v) := by
  unfold State.regWrite
  dsimp only
  refine State.Follows.upd ?_ _
  split
  · split
    · exact State.follows_of_flash rfl rfl
    · exact .refl s
  · split
    · split
      · exact (s.follows_upd _).trans (State.follows_reeveCmd _ _)
      · exact s.follows_upd _
    · exact s.follows_upd _

theorem State.follows_busWrite (path : Path) (a size v : Nat) : s.Follows (s.busWrite path a size v) := by
  unfold State.busWrite
  split
  · exact .refl s
  · split
    · exact s.follows_upd _
    · split
      · exact s.follows_upd _
      · split
        · exact .refl s
        · split
          · split
            · exact s.follows_regWrite _ _ _
            · split
              · exact (s.follows_dev _).trans (State.follows_regWrite _ _ _ _)
              · exact s.follows_dev _
          · exact .refl s

theorem State.follows_readClears {a v : Nat} {t : State} (h : s.readClears a = some (t, v)) : s.Follows t := by
  unfold State.readClears at h
  dsimp only at h
  split at h
  · cases h; exact State.follows_of_flash rfl rfl
  · split at h
    · split at h
      · cases h; exact .refl s
      · cases h; exact s.follows_dev _
    · split at h
      · cases h
      · split at h
        · cases h
        · cases h; exact s.follows_dev _

theorem State.follows_readWhole (path : Path) (a : Nat) : s.Follows (s.readWhole path a).1 := by
  unfold State.readWhole
  split
  · exact s.follows_upd _
  · cases hclears : s.readClears a with
    | none => exact .refl s
    | some x => exact s.follows_readClears hclears

theorem State.follows_busRead (path : Path) (a size : Nat) : s.Follows (s.busRead path a size).1 := by
  unfold State.busRead
  split
  · exact .refl s
  · split
    · exact .refl s
    · exact .refl s
    · split
      · exact .refl s
      · exact s.follows_readWhole _ _
      · exact State.follows_ite ((s.follows_upd _).upd _) (s.follows_upd _)
      · exact s.follows_upd _

theorem State.follows_readOut (path : Path) (a size : Nat) : s.Follows (s.readOut path a size) := (s.follows_busRead path a size).upd _

/-! ### Plans, boot, power -/

theorem State.follows_imageRead {addr off n : Nat} {t : State} {r : Except Nat (List Byte)} (h : s.imageRead addr off n = (t, r)) :
    s.Follows t := by
  unfold State.imageRead at h
  split at h
  · cases h; exact .refl s
  · cases h; exact s.follows_dev _

theorem State.follows_planPrepare (t0 : Nat) : s.Follows (s.planPrepare t0) := by
  unfold State.planPrepare
  extract_lets img loaded
  have hloaded : s.Follows loaded := State.follows_foldl (fun t (x : Nat × Nat × Nat) => t.follows_busWrite .steward x.1 x.2.1 x.2.2) _ s
  exact hloaded.upd _

theorem State.follows_bootIdentity : s.Follows s.bootIdentity := by
  unfold State.bootIdentity
  split <;> exact s.follows_upd _

theorem State.follows_bootLog : s.Follows s.bootLog := by
  unfold State.bootLog
  split
  exact s.follows_upd _

theorem State.follows_bootRecord (b : Bcb) (fw : Nat) : s.Follows (s.bootRecord b fw) := by
  unfold State.bootRecord
  extract_lets s1 s2 s3
  have hbound : s.Follows s1 := State.follows_foldl (fun t c => State.follows_ite (t.follows_upd _) (.refl t)) _ s
  have hdev : s.Follows s3 := (hbound.trans s1.follows_bootLog).upd _
  clear_value s3
  split
  · exact hdev.upd _
  · refine hdev.trans ⟨rfl, ?_⟩
    dsimp only
    split
    · exact Kept.rootStands_putBcb _ _ _
    · exact .refl _

theorem State.follows_bootImage : s.Follows s.bootImage := by
  unfold State.bootImage
  split
  · exact s.follows_upd _
  · split
    extract_lets b s1 s2 floor ok run s3
    have hblock : s.Follows s1 := by
      unfold s1
      split
      · exact ⟨rfl, Kept.rootStands_putBcb _ _ _⟩
      · exact .refl s
    have hfell : s.Follows s2 := State.follows_ite (hblock.upd _) hblock
    have hrun : ∀ (t : State) slot, s.Follows t → s.Follows (run t slot) := fun t slot h => (h.upd _).trans (State.follows_bootRecord _ _ _)
    exact State.follows_ite (hrun _ _ hfell) (State.follows_ite (hrun _ _ (hfell.upd _)) ((hfell.upd _).upd _))

theorem State.follows_railsOff (cause : Nat) : s.Follows (s.railsOff cause) := State.follows_of_flash rfl rfl

/-! ### Time (log 1) -/

theorem State.follows_reportsOut (n : Nat) : s.Follows (s.reportsOut n) := by
  unfold State.reportsOut
  extract_lets rs quiet
  refine State.follows_ite (.refl s) ((s.follows_upd _).trans (State.follows_foldl (fun t (r : Report) => ?_) _ _))
  split
  · exact t.follows_cpReport _ _ _
  · exact t.follows_upd _

theorem State.follows_ploughEdge (n : Nat) : s.Follows (s.ploughEdge n) :=
  ((s.follows_upd _).trans (State.follows_reportsOut _ n)).upd _

theorem State.follows_cEdge : s.Follows s.cEdge := by
  unfold State.cEdge
  extract_lets ploughs
  have hploughs : s.Follows ploughs := (s.follows_upd _).trans (State.follows_iter (fun n t => t.follows_ploughEdge n) 16 _)
  exact hploughs.upd _

theorem State.follows_edges : s.Follows s.edges := by
  unfold State.edges
  extract_lets c s0 s1 s2 s3 s4
  have h0 : s.Follows s0 := s.follows_upd _
  have h1 : s.Follows s1 := State.follows_ite (h0.upd _) h0
  have h2 : s.Follows s2 := State.follows_ite (h1.upd _) h1
  have h3 : s.Follows s3 := State.follows_ite (h2.trans s2.follows_cEdge) h2
  have h4 : s.Follows s4 := State.follows_ite (h3.upd _) h3
  exact State.follows_ite (h4.upd _) h4

theorem follows_tick : s.Follows (tick s) :=
  State.follows_ite ((s.follows_upd _).trans (State.follows_edges _)) (s.follows_upd _)

/-! ### Every command -/

/-- A command that does nothing leads on. -/
theorem State.leadsOn_idle : s.LeadsOn (.next s) := (State.Follows.refl s).leadsOn

theorem leadsOn_almanacTick : s.LeadsOn (execAlmanacTick s) := by
  unfold execAlmanacTick
  extract_lets d a
  exact State.leadsOn_ite s.leadsOn_idle (State.follows_of_flash rfl rfl).leadsOn

theorem leadsOn_almanacSupplyChange (supply : AlmSupply) : s.LeadsOn (execAlmanacSupplyChange supply s) := by
  unfold execAlmanacSupplyChange
  extract_lets
  exact (State.follows_of_flash rfl rfl).leadsOn

theorem leadsOn_logSlice : s.LeadsOn (execLogSlice s) :=
  State.leadsOn_ite ((s.follows_dev _).trans (State.follows_iter (fun _ t => t.follows_logOne) 16 _)).leadsOn s.leadsOn_idle

theorem leadsOn_checkpointMiss (p : BitVec 4) : s.LeadsOn (execCheckpointMiss p s) := by
  unfold execCheckpointMiss
  extract_lets n t
  have ht : s.Follows t := s.follows_upd _
  split
  · exact ht.leadsOn
  · exact State.leadsOn_ite (ht.trans (t.follows_cpMiss _ _)).leadsOn ht.leadsOn

theorem leadsOn_engineHang (engine : BitVec 2) : s.LeadsOn (execEngineHang engine s) := by
  unfold execEngineHang
  extract_lets
  split
  · exact s.leadsOn_idle
  · refine State.leadsOn_ite s.leadsOn_idle ?_
    extract_lets
    refine State.leadsOn_ite s.leadsOn_idle ?_
    extract_lets
    split
    extract_lets _ t
    have ht : s.Follows t := s.follows_dev _
    exact (State.follows_ite (ht.trans (t.follows_reeveRequest _ _ _)) ht).leadsOn

theorem leadsOn_heartbeatTimeout (block : BitVec 4) : s.LeadsOn (execHeartbeatTimeout block s) :=
  State.leadsOn_ite (s.follows_reeveRequest _ _ _).leadsOn s.leadsOn_idle

theorem leadsOn_stewardWatchdogExpiry : s.LeadsOn (execStewardWatchdogExpiry s) :=
  State.leadsOn_ite (s.follows_reeveRequest _ _ _).leadsOn s.leadsOn_idle

theorem leadsOn_stackPhy (stack : BitVec 1) : s.LeadsOn (execStackPhy stack s) :=
  State.leadsOn_ite s.leadsOn_idle ((s.follows_dev _).trans (State.follows_reeveRequest _ _ _ _)).leadsOn

theorem leadsOn_dumpDone : s.LeadsOn (execDumpDone s) := by
  unfold execDumpDone
  split
  · exact s.leadsOn_idle
  · extract_lets _need
    refine State.leadsOn_ite s.leadsOn_idle (State.leadsOn_ite ?_ ?_)
    · exact (State.follows_of_flash rfl rfl).leadsOn
    · exact (State.follows_of_flash rfl rfl).leadsOn

theorem leadsOn_recoveryDone (unit : BitVec 5) : s.LeadsOn (execRecoveryDone unit s) := by
  unfold execRecoveryDone
  extract_lets d
  split
  · exact s.leadsOn_idle
  · exact State.leadsOn_ite s.leadsOn_idle ((s.follows_dev _).trans (State.follows_reeveRetry _)).leadsOn

theorem leadsOn_recoveryEscalation (unit : BitVec 5) : s.LeadsOn (execRecoveryEscalation unit s) := by
  unfold execRecoveryEscalation
  split
  · exact s.leadsOn_idle
  · exact State.leadsOn_ite (s.follows_reeveRequest _ _ _).leadsOn s.leadsOn_idle

theorem leadsOn_deviceRecovery : s.LeadsOn (execDeviceRecovery s) := by
  unfold execDeviceRecovery
  split
  · exact s.leadsOn_idle
  · exact State.leadsOn_ite s.leadsOn_idle ((s.follows_dev _).trans (State.follows_dumpBegins _ _)).leadsOn

theorem leadsOn_domainFault (n : BitVec 6) : s.LeadsOn (execDomainFault n s) :=
  State.leadsOn_ite s.leadsOn_idle ((s.follows_upd _).trans (State.follows_reeveRequest _ _ _ _)).leadsOn

theorem leadsOn_overLimit : s.LeadsOn (execOverLimit s) := by
  unfold execOverLimit
  split
  · exact s.leadsOn_idle
  · exact State.leadsOn_ite s.leadsOn_idle ((s.follows_upd _).trans (State.follows_reeveRequest _ _ _ _)).leadsOn

theorem leadsOn_thermalTrip (site : Nat) : s.LeadsOn (execThermalTrip site s) := by
  unfold execThermalTrip
  split
  · exact s.leadsOn_idle
  · refine State.leadsOn_ite s.leadsOn_idle ?_
    exact (State.follows_of_flash rfl rfl).leadsOn

theorem leadsOn_inputStart : s.LeadsOn (execInputStart s) := State.leadsOn_ite s.leadsOn_idle (State.follows_of_flash rfl rfl).leadsOn

theorem leadsOn_inputStop : s.LeadsOn (execInputStop s) := State.leadsOn_ite (s.follows_railsOff 1).leadsOn s.leadsOn_idle

theorem leadsOn_primarySideFault : s.LeadsOn (execPrimarySideFault s) := State.leadsOn_ite (s.follows_railsOff 5).leadsOn s.leadsOn_idle

theorem leadsOn_deviceReset : s.LeadsOn (execDeviceReset s) := by
  unfold execDeviceReset
  split
  · exact s.leadsOn_idle
  · exact (State.follows_of_flash rfl rfl).leadsOn

theorem leadsOn_mboxSubmit (path : Path) (cmd : List Byte) : s.LeadsOn (execMboxSubmit path cmd s) := by
  unfold execMboxSubmit
  refine State.leadsOn_ite (State.follows_ite (s.follows_upd _) (.refl s)).leadsOn ?_
  extract_lets t
  have ht : s.Follows t := State.follows_ite (.refl s) (State.follows_iter (fun _ t => t.follows_busWrite _ _ _ _) 16 _)
  exact (ht.trans (t.follows_busWrite _ _ _ _)).leadsOn

theorem leadsOn_regRead (addr size : Nat) : s.LeadsOn (execRegRead addr size s) :=
  State.leadsOn_ite s.leadsOn_idle (State.leadsOn_ite ((s.follows_busRead _ _ _).upd _).leadsOn (s.follows_upd _).leadsOn)

theorem leadsOn_regWrite (addr size : Nat) (value : BitVec 64) : s.LeadsOn (execRegWrite addr size value s) :=
  State.leadsOn_ite s.leadsOn_idle (State.leadsOn_ite ((s.follows_busWrite _ _ _ _).upd _).leadsOn (s.follows_upd _).leadsOn)

theorem leadsOn_barRead (bar : BitVec 3) (offset len : Nat) : s.LeadsOn (execBarRead bar offset len s) :=
  State.leadsOn_ite s.leadsOn_idle (State.leadsOn_ite ((s.follows_busRead _ _ _).upd _).leadsOn (s.follows_dev _).leadsOn)

theorem leadsOn_barWrite (bar : BitVec 3) (offset : Nat) (bytes : List Byte) : s.LeadsOn (execBarWrite bar offset bytes s) :=
  State.leadsOn_ite s.leadsOn_idle (State.leadsOn_ite (s.follows_busWrite _ _ _ _).leadsOn (s.follows_dev _).leadsOn)

theorem leadsOn_planLoad : s.LeadsOn (execPlanLoad s) := by
  unfold execPlanLoad
  split
  · exact s.leadsOn_idle
  · extract_lets addr size
    refine State.leadsOn_ite (s.follows_upd _).leadsOn (State.leadsOn_ite s.leadsOn_idle ?_)
    split
    next hheader => exact ((s.follows_imageRead hheader).upd _).leadsOn
    next hheader =>
      have hread := s.follows_imageRead hheader
      split
      · exact (hread.upd _).leadsOn
      · refine State.leadsOn_ite (hread.upd _).leadsOn ?_
        split
        next hpayload => exact ((hread.trans (State.follows_imageRead _ hpayload)).upd _).leadsOn
        next hpayload =>
          have hreads := hread.trans (State.follows_imageRead _ hpayload)
          split
          · exact (hreads.upd _).leadsOn
          · exact (hreads.upd _).leadsOn

theorem leadsOn_planStart : s.LeadsOn (execPlanStart s) := by
  unfold execPlanStart
  split
  · exact s.leadsOn_idle
  · exact State.leadsOn_ite (s.follows_upd _).leadsOn (State.leadsOn_ite (s.follows_upd _).leadsOn ((s.follows_planPrepare _).upd _).leadsOn)

theorem leadsOn_planStore : s.LeadsOn (execPlanStore s) := by
  unfold execPlanStore
  split
  · exact s.leadsOn_idle
  · extract_lets n
    refine State.leadsOn_ite (s.follows_upd _).leadsOn (State.leadsOn_ite (s.follows_upd _).leadsOn ?_)
    split
    · exact (s.follows_dev _).leadsOn
    · exact State.Follows.leadsOn ⟨rfl, Kept.rootStands_rewrite _ (.inr (by decide))⟩

theorem leadsOn_updateStage : s.LeadsOn (execUpdateStage s) := by
  unfold execUpdateStage
  split
  · exact s.leadsOn_idle
  · extract_lets n b
    refine State.leadsOn_ite (s.follows_upd _).leadsOn ?_
    split
    · exact (s.follows_dev _).leadsOn
    · extract_lets floor r
      refine State.leadsOn_ite (s.follows_dev _).leadsOn (State.leadsOn_ite (s.follows_dev _).leadsOn ?_)
      have habove : 0x30000 ≤ slotAt (1 - b.active) := by unfold slotAt; omega
      exact State.Follows.leadsOn ⟨rfl, Kept.rootStands_rewrite _ (.inr habove)⟩

theorem leadsOn_updateActivate : s.LeadsOn (execUpdateActivate s) := by
  unfold execUpdateActivate
  split
  · exact s.leadsOn_idle
  · exact State.leadsOn_ite (s.follows_upd _).leadsOn (State.leadsOn_ite (s.follows_upd _).leadsOn
      (State.Follows.leadsOn ⟨rfl, Kept.rootStands_putBcb _ _ _⟩))

theorem leadsOn_updateConfirm : s.LeadsOn (execUpdateConfirm s) := by
  unfold execUpdateConfirm
  split
  · exact s.leadsOn_idle
  · exact State.leadsOn_ite (s.follows_upd _).leadsOn (State.Follows.leadsOn ⟨rfl, Kept.rootStands_putBcb _ _ _⟩)

theorem leadsOn_configWrite : s.LeadsOn (execConfigWrite s) := by
  unfold execConfigWrite
  split
  · exact s.leadsOn_idle
  · split
    · exact (s.follows_dev _).leadsOn
    · rename_i r _
      extract_lets res old
      refine State.leadsOn_ite (s.follows_dev _).leadsOn (State.leadsOn_ite (s.follows_dev _).leadsOn
        (State.leadsOn_ite (s.follows_dev _).leadsOn ?_))
      have hlen : (r.take recordBytes).length ≤ recordBytes := List.length_take_le _ _
      refine State.Follows.leadsOn ⟨rfl, Kept.rootStands_rewrite _ (.inl ?_)⟩
      unfold recordBytes at hlen ⊢
      omega

theorem leadsOn_deviceRecover : s.LeadsOn (execDeviceRecover s) :=
  State.leadsOn_ite ((s.follows_upd _).trans (State.follows_reeveRequest _ _ _ _)).leadsOn s.leadsOn_idle

theorem leadsOn_stewardBoot : s.LeadsOn (execStewardBoot s) :=
  State.leadsOn_ite s.leadsOn_idle (((s.follows_upd _).trans (State.follows_bootIdentity _)).trans (State.follows_bootImage _)).leadsOn

end

/-- Every command leads on: most change the device only. -/
theorem exec_leadsOn (i : Instr) (s : State) : s.LeadsOn (exec i s) := by
  cases i with
  | registerWrite | lowHalfWrite | topEvtCtl | topEvtRingRd | hedgeInval | hedgeFence | hostQTail | hostQCtl | gateSlotMap | gateDiscover | granInit
  | bellSet | bellCtl | vtAdvance | bellAlmSet | pwrDomainReq | standby | recoveryRequest | unpark | stewMboxPop | stewTelCtl | stewTelRd =>
    exact (s.follows_busWrite _ _ _ _).leadsOn
  | topCtxQuota => exact (State.follows_ite (s.follows_busWrite _ _ _ _) (.refl s)).leadsOn
  | registerReadClear | lowHalfRead => exact (s.follows_readOut _ _ _).leadsOn
  | almanacTick => exact leadsOn_almanacTick s
  | almanacSupplyChange supply => exact leadsOn_almanacSupplyChange s supply
  | logSlice => exact leadsOn_logSlice s
  | checkpointMiss p => exact leadsOn_checkpointMiss s p
  | engineHang engine => exact leadsOn_engineHang s engine
  | heartbeatTimeout block => exact leadsOn_heartbeatTimeout s block
  | stewardWatchdogExpiry => exact leadsOn_stewardWatchdogExpiry s
  | stackPhy stack => exact leadsOn_stackPhy s stack
  | dumpDone => exact leadsOn_dumpDone s
  | recoveryDone unit => exact leadsOn_recoveryDone s unit
  | recoveryEscalation unit => exact leadsOn_recoveryEscalation s unit
  | deviceRecovery => exact leadsOn_deviceRecovery s
  | domainFault n => exact leadsOn_domainFault s n
  | overLimit => exact leadsOn_overLimit s
  | thermalTrip site => exact leadsOn_thermalTrip s site
  | inputStart => exact leadsOn_inputStart s
  | inputStop => exact leadsOn_inputStop s
  | primarySideFault => exact leadsOn_primarySideFault s
  | deviceReset => exact leadsOn_deviceReset s
  | mboxSubmit path cmd => exact leadsOn_mboxSubmit s path cmd
  | regRead addr size => exact leadsOn_regRead s addr size
  | regWrite addr size value => exact leadsOn_regWrite s addr size value
  | barRead bar offset len => exact leadsOn_barRead s bar offset len
  | barWrite bar offset bytes => exact leadsOn_barWrite s bar offset bytes
  | planLoad => exact leadsOn_planLoad s
  | planStart => exact leadsOn_planStart s
  | planStore => exact leadsOn_planStore s
  | updateStage => exact leadsOn_updateStage s
  | updateActivate => exact leadsOn_updateActivate s
  | updateConfirm => exact leadsOn_updateConfirm s
  | configWrite => exact leadsOn_configWrite s
  | deviceRecover => exact leadsOn_deviceRecover s
  | stewardBoot => exact leadsOn_stewardBoot s
  | _ => exact State.leadsOn_of_dev rfl

/-- A step takes the command at the front of the queue. -/
theorem step_of_cons {s : State} {c : Instr} {rest : List Instr} (hcons : s.pending = c :: rest) : step s = exec c { s with pending := rest } := by
  unfold step
  split
  next hempty => cases hcons.symm.trans hempty
  next hfront => cases hcons.symm.trans hfront; rfl

/-- On an empty queue time goes on. -/
theorem step_of_nil {s : State} (hempty : s.pending = []) : step s = .next (tick s) := by
  unfold step
  split
  next => rfl
  next hfront => cases hempty.symm.trans hfront

/-- Every step does: the queue loses its front and the flash keeps its root. -/
theorem step_follows (s : State) : ∃ t, step s = .next t ∧ ({ s with pending := s.pending.tail } : State).Follows t := by
  cases hqueue : s.pending with
  | nil =>
    obtain ⟨hticked, hroot⟩ := follows_tick s
    exact ⟨tick s, step_of_nil hqueue, hticked.trans hqueue, hroot⟩
  | cons c rest =>
    obtain ⟨t, hexec, ht⟩ := exec_leadsOn c { s with pending := rest }
    exact ⟨t, (step_of_cons hqueue).trans hexec, ht⟩

/-! ### The next edge (log 1, log 3) -/

theorem lt_nextEdge (t : Nat) : t < nextEdge t := by unfold nextEdge; omega

/-- It is an edge of one of the three clocks. -/
theorem nextEdge_isEdge (t : Nat) : nextEdge t % 20 = 0 ∨ nextEdge t % 24 = 0 ∨ nextEdge t % 15 = 0 := by unfold nextEdge; omega

/-- And none lies before it. -/
theorem no_edge_before_nextEdge {t u : Nat} (ht : t < u) (hu : u < nextEdge t) : u % 20 ≠ 0 ∧ u % 24 ≠ 0 ∧ u % 15 ≠ 0 := by
  unfold nextEdge at hu; omega

/-- With no power only time goes on. -/
theorem tick_unpowered {s : State} (hoff : s.dev.pwr.good = false) : tick s = { s with dev := { s.dev with clk := nextEdge s.dev.clk } } :=
  if_neg (Bool.eq_false_iff.mp hoff)

/-! ### The obligations -/

/-- Settles O54: the queue is taken apart as `step` takes it, and the next edge is the least of three. -/
theorem stepRunsTheFront : Obligations.StepRunsTheFront :=
  ⟨fun _ _ _ => step_of_cons, fun _ hempty => ⟨step_of_nil hempty, tick_unpowered⟩,
    fun t => ⟨lt_nextEdge t, nextEdge_isEdge t, fun _ => no_edge_before_nextEdge⟩⟩

/-- Settles O55: an empty queue lets time go on, and every command leads on. -/
theorem everyStepGoes : Obligations.EveryStepGoes := fun s => by
  obtain ⟨t, hstep, -⟩ := step_follows s
  exact ⟨t, hstep⟩

/-- Settles O56: no meaning touches the queue, which `step` shortens by its front. -/
theorem queueIsFifo : Obligations.QueueIsFifo := by
  intro s t hstep
  obtain ⟨u, hnext, hqueue, -⟩ := step_follows s
  cases hstep.symm.trans hnext
  exact hqueue

/-- Settles O57: every area of the flash that a command erases or writes lies outside the PUF's part. -/
theorem flashKeepsItsRoot : Obligations.FlashKeepsItsRoot := by
  intro s t hwf hstep
  obtain ⟨u, hnext, -, hroot⟩ := step_follows s
  cases hstep.symm.trans hnext
  exact hroot hwf

end Sys2Proof.Machine
end

section
/-! PROOFS. The ports of the Poleino links (R401–R403): training, lane faults, flits that cannot be used, and replays. -/

namespace Sys2Proof.Machine

open Sys2Proof.Safety

theorem exec_portTraining (port : BitVec 2) (s : State) : exec (.portTraining port) s = execPortTraining port s := rfl
theorem exec_trainingDone (port : BitVec 2) (peer : LinkPeer) (s : State) : exec (.trainingDone port peer) s = execTrainingDone port peer s := rfl
theorem exec_laneFault (port : BitVec 2) (lanes : BitVec 8) (s : State) : exec (.laneFault port lanes) s = execLaneFault port lanes s := rfl
theorem exec_flitError (port : BitVec 2) (err : FlitErr) (s : State) : exec (.flitError port err) s = execFlitError port err s := rfl
theorem exec_replay (port : BitVec 2) (seq : BitVec 16) (s : State) : exec (.replay port seq) s = execReplay port seq s := rfl

/-! ### Training (R403) -/

/-- A training of the port is due. -/
def Dev.trainingDue (d : Dev) (p : Nat) : Prop := (d.lport p).want = true ∧ d.flag (F.LINK_PORT_CTL_enable p) = true

/-- The device with what the lanes of port `p` have found out about the peer. -/
def Dev.peerSeen (d : Dev) (p : Nat) (peer : LinkPeer) : Dev :=
  ((d.setF (F.LINK_PORT_STATE_lane_ok p) 0xFF).setF (F.LINK_PORT_STATE_peer_device p) peer.device.toNat).setF
    (F.LINK_PORT_STATE_peer_port p) peer.port.toNat

section
variable {s : State} {port : BitVec 2} {peer : LinkPeer}

/-- The condition that the command tests. -/
theorem Dev.trainingDue_iff {d : Dev} {p : Nat} : ((d.lport p).want && d.flag (F.LINK_PORT_CTL_enable p)) = true ↔ d.trainingDue p :=
  Bool.and_eq_true_iff

/-- A training that is due takes the port down and begins. -/
theorem portTraining_due (hdue : s.dev.trainingDue port.toNat) :
    Gives (.portTraining port) s ((((s.dev.portDown port.toNat 1).setF (F.LINK_PORT_STATE_lane_ok port.toNat) 0).bump
      (R.LINK_PORT_RETRAIN port.toNat)).updLport port.toNat fun l => { l with want := false }) :=
  gives_of_withDev (exec_portTraining port s) (if_pos (Dev.trainingDue_iff.mpr hdue))

theorem portTraining_idle (hnot : ¬ s.dev.trainingDue port.toNat) : Idle (.portTraining port) s :=
  idle_of_withDev (exec_portTraining port s) (if_neg (mt Dev.trainingDue_iff.mp hnot))

/-- A port that does not train ends no training. -/
theorem trainingDone_idle (hstate : s.dev.lstate port.toNat ≠ 1) : Idle (.trainingDone port peer) s :=
  idle_of_withDev (exec_trainingDone port peer s) (if_pos hstate)

section
variable (hstate : s.dev.lstate port.toNat = 1)
include hstate

/-- Lanes that did not lock are tried again. -/
theorem trainingDone_unlocked (hlock : peer.locked = false) : Gives (.trainingDone port peer) s (s.dev.bump (R.LINK_PORT_RETRAIN port.toNat)) :=
  gives_of_withDev (exec_trainingDone port peer s) ((if_neg (not_not_intro hstate)).trans (if_pos (by rw [hlock, Bool.not_false])))

variable (hlock : peer.locked = true)
include hlock

/-- Lanes that locked have seen their peer, which is the right one or not. -/
theorem trainingDone_locked : Gives (.trainingDone port peer) s
    (if !(s.dev.peerSeen port.toNat peer).peerRight port.toNat peer then
      ((s.dev.peerSeen port.toNat peer).setLstate port.toNat 3).linkEvent 0x0A03 port.toNat 0 0 0 peer.device.toNat 0
    else
      ((((s.dev.peerSeen port.toNat peer).setReg (R.LINK_PORT_PEER_PLAN port.toNat) peer.plan).setLstate port.toNat 2).updLport port.toNat
        fun l => { want := l.want, carried := l.carried }).linkEvent 0x0A01 port.toNat 0 0 0 1 0) :=
  gives_of_withDev (exec_trainingDone port peer s) ((if_neg (not_not_intro hstate)).trans (if_neg (by simp [hlock])))

end

end

/-! ### Lanes that lose lock (R402) -/

section
variable {s : State} {port : BitVec 2} {lanes : BitVec 8}

/-- The lowest lane that loses lock is the one that is reported. -/
theorem lowestLane {k : Nat} (hk : k < 8) (hlow : ∀ j < k, lanes.getLsbD j = false) (hset : lanes.getLsbD k = true) :
    ((List.range 8).find? fun i => lanes.getLsbD i) = some k :=
  List.find?_range_eq_some.mpr ⟨hset, List.mem_range.mpr hk, fun j hj => by simp [hlow j hj]⟩

/-- A port that is not up has no lane to lose. -/
theorem laneFault_idle (h : s.dev.lstate port.toNat ≠ 2 ∨ lanes = 0) : Idle (.laneFault port lanes) s :=
  idle_of_withDev (exec_laneFault port lanes s) (if_neg fun ⟨hup, hlanes⟩ => h.elim (· hup) hlanes)

/-- An up port is reported with the lowest lane lost, and held down. -/
theorem laneFault_holds (hup : s.dev.lstate port.toNat = 2) {k : Nat} (hk : k < 8) (hlow : ∀ j < k, lanes.getLsbD j = false)
    (hset : lanes.getLsbD k = true) : Gives (.laneFault port lanes) s (s.dev.laneFault port.toNat k (255 - lanes.toNat)) := by
  have hlanes : lanes ≠ 0 := by rintro rfl; simp at hset
  have hgives := gives_of_withDev (exec_laneFault port lanes s) (if_pos ⟨hup, hlanes⟩)
  rwa [lowestLane hk hlow hset] at hgives

end

/-! ### Flits (R401) -/

/-- The device once a flit that cannot be used is asked for again, counted and reported. -/
def Dev.askedAgain (d : Dev) (p : Nat) : Dev :=
  ((d.emit (.link p 0 (leBytes 2 (d.lport p).rxSeq))).bump (R.LINK_PORT_REPLAY p)).linkEvent 0x0A04 p 0 0 0 0 0

/-- The instants of the replays of the last millisecond, with one now. -/
def Dev.replaysNow (d : Dev) (p : Nat) : List Nat := d.clk :: (d.lport p).replays.filter fun t => decide (d.clk < t + 24000000)

/-- The device with that replay among them. -/
def Dev.replayCounted (d : Dev) (p : Nat) : Dev := (d.askedAgain p).updLport p fun l => { l with replays := (d.askedAgain p).replaysNow p }

/-- What is given out for each member of a list stands newest first. -/
theorem foldl_emit_out {α : Type} (f : α → Output) (l : List α) (d : Dev) :
    (l.foldl (fun d x => d.emit (f x)) d).out = (l.map f).reverse ++ d.out := by
  induction l generalizing d with
  | nil => rfl
  | cons x l ih => rw [List.foldl_cons, ih, List.map_cons, List.reverse_cons, List.append_assoc]; rfl

section
variable {s : State} {port : BitVec 2} {err : FlitErr} {seq : BitVec 16}

theorem flitError_idle (hstate : s.dev.lstate port.toNat ≠ 2) : Idle (.flitError port err) s :=
  idle_of_withDev (exec_flitError port err s) (if_pos hstate)

theorem replay_idle (hstate : s.dev.lstate port.toNat ≠ 2) : Idle (.replay port seq) s :=
  idle_of_withDev (exec_replay port seq s) (if_pos hstate)

section
variable (hup : s.dev.lstate port.toNat = 2)
include hup

theorem flitError_corrected : Gives (.flitError port .fecCorrected) s (s.dev.bump (R.LINK_PORT_FEC_CORR port.toNat)) :=
  gives_of_withDev (exec_flitError port .fecCorrected s) (if_neg (not_not_intro hup))

/-- A flit that cannot be used is asked for again; while the replays stay within the threshold that is all. -/
theorem flitError_asks (herr : err ≠ .fecCorrected)
    (hfew : ((s.dev.askedAgain port.toNat).replaysNow port.toNat).length ≤
      max 1 ((s.dev.replayCounted port.toNat).getF (F.LINK_PORT_CTL_fault_thr port.toNat))) :
    Gives (.flitError port err) s (s.dev.replayCounted port.toNat) := by
  refine gives_of_withDev (exec_flitError port err s) ((if_neg (not_not_intro hup)).trans ?_)
  cases err with
  | fecCorrected => exact absurd rfl herr
  | fec | crc | kind => exact if_neg (Nat.not_lt.mpr hfew)

/-- The flits from the one asked for on leave again in order. -/
theorem replay_sends {pre post : List (Nat × List Byte)} {f : Nat × List Byte} (hbuf : (s.dev.lport port.toNat).buf = pre ++ f :: post)
    (hpre : ∀ x ∈ pre, x.1 ≠ seq.toNat % 4096) (hf : f.1 = seq.toNat % 4096) :
    Gives (.replay port seq) s
      ((f :: post).foldl (fun d f => d.emit (.link port.toNat (field (leAt f.2 0 1) 0 3) f.2)) s.dev) := by
  have hfrom : (s.dev.lport port.toNat).buf.dropWhile (fun f => f.1 != seq.toNat % 4096) = f :: post := by
    rw [hbuf, List.dropWhile_append_of_pos fun x hx => bne_iff_ne.mpr (hpre x hx)]
    exact List.dropWhile_cons_of_neg (by simp [hf])
  have hgives := gives_of_withDev (exec_replay port seq s) (if_neg (not_not_intro hup))
  rwa [hfrom] at hgives

end

end

/-- Settles O43: a training by its end, a lane fault by its lowest lane, a flit by its error, a replay by the flits held. -/
theorem linkPortsWork : Obligations.LinkPortsWork := by
  refine ⟨fun s port peer lanes => ⟨portTraining_due, portTraining_idle, trainingDone_idle, trainingDone_unlocked, fun hstate hlock => ?trained,
    laneFault_idle, fun hup k => laneFault_holds hup⟩,
    fun s port seq err => ⟨fun hdown => ⟨flitError_idle hdown, replay_idle hdown⟩, fun hup => ⟨flitError_corrected hup, flitError_asks hup,
      fun pre f post hbuf hpre hf => ⟨_, replay_sends hup hbuf hpre hf, foldl_emit_out _ _ _⟩⟩⟩⟩
  case trained =>
    have hlocked := trainingDone_locked hstate hlock
    exact ⟨fun hwrong => gives_of_eq hlocked (if_pos (congrArg not hwrong)),
      fun hright => gives_of_eq hlocked (if_neg (Bool.eq_false_iff.mp (congrArg not hright)))⟩

end Sys2Proof.Machine
end

section
/-! PROOFS. The messages of the Poleino links (R407–R412): what becomes of a message that arrives, of a receive, of a send and of a note. -/

namespace Sys2Proof.Machine

open Sys2Proof.Safety

theorem exec_dataMessage (port : BitVec 2) (msg : DataMsg) (s : State) : exec (.dataMessage port msg) s = execDataMessage port msg s := rfl
theorem exec_nackMsg (port : BitVec 2) (msg : NackMsg) (s : State) : exec (.nackMsg port msg) s = execNackMsg port msg s := rfl
theorem exec_noteMsg (port : BitVec 2) (msg : NoteMsg) (s : State) : exec (.noteMsg port msg) s = execNoteMsg port msg s := rfl
theorem exec_receiveLanded (port : BitVec 2) (id : Nat) (s : State) : exec (.receiveLanded port id) s = execReceiveLanded port id s := rfl
theorem exec_sendDone (port : BitVec 2) (id : Nat) (s : State) : exec (.sendDone port id) s = execSendDone port id s := rfl

/-! ### Messages that arrive (R407, R408) -/

/-- The device once the first flit of a message has shown the peer's plan, the next sequence number and the message's tag. -/
def Dev.msgSeen (d : Dev) (p : Nat) (msg : DataMsg) : Dev :=
  (d.setReg (R.LINK_PORT_PEER_PLAN p) msg.plan).updLport p fun l =>
    { l with
      rxSeq := (msg.seq.toNat + flitCount msg.bytes.length) % 4096
      carried := match msgTag msg with
        | some g => if l.carried.contains g then l.carried else l.carried ++ [g]
        | none => l.carried }

/-- The blocks that the messages waiting on a port hold, with one more. -/
def Dev.blocksWith (d : Dev) (p : Nat) (msg : DataMsg) : Nat :=
  (d.lport p).waiting.foldl (fun n m => n + wireBlocks m.bytes.length) 0 + wireBlocks msg.bytes.length

/-- The message is of the plan that is locked. -/
def Dev.ofPlan (d : Dev) (msg : DataMsg) : Prop := d.locked = true ∧ msg.plan.toNat = d.header 0x18 8

/-- The device once a seen message has gone through the checks of R407 and found a receive or a place. -/
def Dev.msgTaken (g : Dev) (p : Nat) (msg : DataMsg) : Dev :=
  if !g.genOk msg.ctx.toNat msg.gen.toNat then g.msgDiscard p msg 1
  else if g.fenced msg.ctx.toNat then g.msgDiscard p msg 2
  else if !g.locked ∨ msg.plan.toNat ≠ g.header 0x18 8 then g.msgDiscard p msg 4
  else match g.postedRecv p msg.ctx.toNat msg.gen.toNat with
    | some x => g.takeMsg x msg
    | none => if g.blocksWith p msg ≤ 128 then g.updLport p fun l => { l with waiting := l.waiting ++ [msg] } else g.msgDiscard p msg 5

section
variable {g : Dev} {p : Nat} {msg : DataMsg}

theorem Dev.msgTaken_stale (hgen : ¬ g.genOk msg.ctx.toNat msg.gen.toNat = true) : g.msgTaken p msg = g.msgDiscard p msg 1 :=
  if_pos (by simpa using hgen)

section
variable (hgen : g.genOk msg.ctx.toNat msg.gen.toNat = true)
include hgen

theorem Dev.msgTaken_fenced (hfence : g.fenced msg.ctx.toNat = true) : g.msgTaken p msg = g.msgDiscard p msg 2 :=
  (if_neg (by simp [hgen])).trans (if_pos hfence)

variable (hfence : g.fenced msg.ctx.toNat = false)
include hfence

theorem Dev.msgTaken_otherPlan (hplan : ¬ g.ofPlan msg) : g.msgTaken p msg = g.msgDiscard p msg 4 := by
  have hother : !g.locked ∨ msg.plan.toNat ≠ g.header 0x18 8 := by simpa [Dev.ofPlan, or_iff_not_imp_left] using hplan
  exact (if_neg (by simp [hgen])).trans ((if_neg (by simp [hfence])).trans (if_pos hother))

variable (hplan : g.ofPlan msg)
include hplan

/-- A message that passes goes to the oldest posted receive, or waits while there is room. -/
theorem Dev.msgTaken_good : g.msgTaken p msg = match g.postedRecv p msg.ctx.toNat msg.gen.toNat with
    | some x => g.takeMsg x msg
    | none => if g.blocksWith p msg ≤ 128 then g.updLport p fun l => { l with waiting := l.waiting ++ [msg] } else g.msgDiscard p msg 5 := by
  have hours : ¬ (!g.locked ∨ msg.plan.toNat ≠ g.header 0x18 8) := by simp [hplan.1, hplan.2]
  exact (if_neg (by simp [hgen])).trans ((if_neg (by simp [hfence])).trans (if_neg hours))

theorem Dev.msgTaken_posted {y : LinkXfer} (hpost : g.postedRecv p msg.ctx.toNat msg.gen.toNat = some y) : g.msgTaken p msg = g.takeMsg y msg := by
  rw [Dev.msgTaken_good hgen hfence hplan, hpost]

variable (hnone : g.postedRecv p msg.ctx.toNat msg.gen.toNat = none)
include hnone

theorem Dev.msgTaken_room (hroom : g.blocksWith p msg ≤ 128) :
    g.msgTaken p msg = g.updLport p fun l => { l with waiting := l.waiting ++ [msg] } := by
  rw [Dev.msgTaken_good hgen hfence hplan, hnone]
  exact if_pos hroom

theorem Dev.msgTaken_full (hfull : ¬ g.blocksWith p msg ≤ 128) : g.msgTaken p msg = g.msgDiscard p msg 5 := by
  rw [Dev.msgTaken_good hgen hfence hplan, hnone]
  exact if_neg hfull

end

end

section
variable {s : State} {port : BitVec 2} {msg : DataMsg} {nack : NackMsg} {note : NoteMsg}

/-! ### On a port that is not up nothing arrives -/

section
variable (hdown : s.dev.lstate port.toNat ≠ 2)
include hdown

theorem dataMessage_idle : Idle (.dataMessage port msg) s := idle_of_withDev (exec_dataMessage port msg s) (if_pos hdown)

theorem nackMsg_idle : Idle (.nackMsg port nack) s := idle_of_withDev (exec_nackMsg port nack s) (if_pos hdown)

theorem noteMsg_idle : Idle (.noteMsg port note) s := idle_of_withDev (exec_noteMsg port note s) (if_pos hdown)

end

/-! ### What an up port does with a message, a NACK and a note (R407–R409, R411) -/

/-- The device once a flit of one message of control has been counted. -/
def Dev.flitCounted (d : Dev) (p : Nat) : Dev := d.updLport p fun l => { l with rxSeq := (l.rxSeq + 1) % 4096 }

/-- The device once a note of a squash is held. -/
def Dev.noteHeld (d : Dev) (p : Nat) (t : PTag) : Dev :=
  { d.flitCounted p with links := { (d.flitCounted p).links with notes := (d.flitCounted p).links.notes ++ [(p, t)] } }

section
variable (hup : s.dev.lstate port.toNat = 2)
include hup

theorem dataMessage_takes : Gives (.dataMessage port msg) s ((s.dev.msgSeen port.toNat msg).msgTaken port.toNat msg) :=
  gives_of_withDev (exec_dataMessage port msg s) (if_neg (not_not_intro hup))

/-- A NACK ends the send that it names, unless its generation has gone. -/
theorem nackMsg_ends {y : LinkXfer} (hfind : ((s.dev.flitCounted port.toNat).links.xfers.find? fun x =>
      x.port == port.toNat && x.send && x.ctx == nack.ctx.toNat && x.sent == some nack.seq.toNat) = some y) :
    Gives (.nackMsg port nack) s (if (s.dev.flitCounted port.toNat).genOk y.ctx y.gen then
      (s.dev.flitCounted port.toNat).xferError y nack.reason.toNat
      else ((s.dev.flitCounted port.toNat).dropXfer y.id).bump R.HEDGE_GEN_DISCARD) := by
  refine gives_of_withDev (exec_nackMsg port nack s) ?_
  unfold Dev.flitCounted at hfind ⊢
  simp only [hup, hfind, ne_eq, not_true_eq_false, if_false]

/-- A note is held; one of a mark that is committed here is reported. -/
theorem noteMsg_holds : Gives (.noteMsg port note) s
    (if (s.dev.noteHeld port.toNat ⟨note.sched.toNat, note.mark.toNat⟩).markSealed ⟨note.sched.toNat, note.mark.toNat⟩ = some true then
      (s.dev.noteHeld port.toNat ⟨note.sched.toNat, note.mark.toNat⟩).peerSquash port.toNat ⟨note.sched.toNat, note.mark.toNat⟩
    else s.dev.noteHeld port.toNat ⟨note.sched.toNat, note.mark.toNat⟩) :=
  gives_of_withDev (exec_noteMsg port note s) (if_neg (not_not_intro hup))

end

/-! ### Ends of receives and sends (R37, R45, R408, R412) -/

variable {id : Nat} {x : LinkXfer} {m : DataMsg}

/-- A transfer that is not there neither lands nor ends. -/
theorem receiveLanded_idle_of_none (hnone : ∀ y ∈ s.dev.links.xfers, y.id ≠ id) : Idle (.receiveLanded port id) s := by
  have hfind : (s.dev.links.xfers.find? fun x => x.id == id && x.port == port.toNat && !x.send) = none :=
    List.find?_eq_none.mpr fun y hy => by simp [hnone y hy]
  exact idle_of_withDev (exec_receiveLanded port id s) (by simp only [hfind])

theorem sendDone_idle_of_none (hnone : ∀ y ∈ s.dev.links.xfers, y.id ≠ id) : Idle (.sendDone port id) s := by
  have hfind : (s.dev.links.xfers.find? fun x => x.id == id && x.port == port.toNat && x.send && x.sent.isSome) = none :=
    List.find?_eq_none.mpr fun y hy => by simp [hnone y hy]
  exact idle_of_withDev (exec_sendDone port id s) (by simp only [hfind])

section
variable (hfind : (s.dev.links.xfers.find? fun x => x.id == id && x.port == port.toNat && !x.send) = some x) (hmsg : x.msg = some m)
  (hruns : s.dev.xferHalted x = false)
include hfind hmsg hruns

theorem receiveLanded_stale (hgen : s.dev.genOk x.ctx x.gen = false) :
    Gives (.receiveLanded port id) s ((s.dev.dropXfer x.id).bump R.HEDGE_GEN_DISCARD) :=
  gives_of_withDev (exec_receiveLanded port id s) (by simp only [hfind, hmsg, hruns, hgen, Bool.false_eq_true, if_false, Bool.not_false, if_true])

section
variable (hgen : s.dev.genOk x.ctx x.gen = true)
include hgen

theorem receiveLanded_waits (hbusy : s.dev.stackBusy 0x5C x.ctx = true) : Idle (.receiveLanded port id) s :=
  idle_of_withDev (exec_receiveLanded port id s)
    (by simp only [hfind, hmsg, hruns, hgen, hbusy, Bool.false_eq_true, if_false, Bool.not_true, if_true])

/-- A message whose stack requests are served lands, without an error or with one. -/
theorem receiveLanded_lands {e : Dev} {r : Nat} (hfree : s.dev.stackBusy 0x5C x.ctx = false) (hland : s.dev.landMsg x m = (e, r)) :
    Gives (.receiveLanded port id) s (if r = 0 then ((e.dropXfer x.id).noteLanded x m).emit (.link x.port 0 (leBytes 2 m.seq.toNat))
      else (e.msgDiscard x.port m r).xferError x r) :=
  gives_of_withDev (exec_receiveLanded port id s)
    (by simp only [hfind, hmsg, hruns, hgen, hfree, hland, Bool.false_eq_true, if_false, Bool.not_true])

end

end

section
variable (hfind : (s.dev.links.xfers.find? fun x => x.id == id && x.port == port.toNat && x.send && x.sent.isSome) = some x)
  (hruns : s.dev.xferHalted x = false)
include hfind hruns

theorem sendDone_ends (hgen : s.dev.genOk x.ctx x.gen = true) : Gives (.sendDone port id) s (s.dev.dropXfer x.id) :=
  gives_of_withDev (exec_sendDone port id s) (by simp only [hfind, hruns, hgen, Bool.false_eq_true, if_false, Bool.not_true])

theorem sendDone_stale (hgen : s.dev.genOk x.ctx x.gen = false) :
    Gives (.sendDone port id) s ((s.dev.dropXfer x.id).bump R.HEDGE_GEN_DISCARD) :=
  gives_of_withDev (exec_sendDone port id s) (by simp only [hfind, hruns, hgen, Bool.false_eq_true, if_false, Bool.not_false, if_true])

end

end

/-- Settles O44: a message by the checks of R407 in order, a receive and a send by their entry and its generation, a note by its mark. -/
theorem linkMessages : Obligations.LinkMessages := by
  intro s port msg nack note id x m e r
  refine ⟨fun hdown => ⟨dataMessage_idle hdown, nackMsg_idle hdown, noteMsg_idle hdown⟩, fun hup => ?up,
    fun hfind hmsg hruns => ⟨receiveLanded_stale hfind hmsg hruns, receiveLanded_waits hfind hmsg hruns, fun hgen hfree hland => ?lands⟩,
    fun hfind hruns => ⟨sendDone_ends hfind hruns, sendDone_stale hfind hruns⟩,
    fun hnone => ⟨receiveLanded_idle_of_none hnone, sendDone_idle_of_none hnone⟩⟩
  case up =>
    have htakes := dataMessage_takes (msg := msg) hup
    have hnote := noteMsg_holds (note := note) hup
    exact ⟨fun hgen => gives_of_eq htakes (Dev.msgTaken_stale hgen),
      fun hgen hfence => gives_of_eq htakes (Dev.msgTaken_fenced hgen hfence),
      fun hgen hfence hplan => gives_of_eq htakes (Dev.msgTaken_otherPlan hgen hfence hplan),
      fun hgen hfence hplan => ⟨fun y hpost => gives_of_eq htakes (Dev.msgTaken_posted hgen hfence hplan hpost),
        fun hnone => ⟨fun hroom => gives_of_eq htakes (Dev.msgTaken_room hgen hfence hplan hnone hroom),
          fun hfull => gives_of_eq htakes (Dev.msgTaken_full hgen hfence hplan hnone hfull)⟩⟩,
      fun y => nackMsg_ends hup, fun hopen => gives_of_eq hnote (if_neg hopen), fun hsealed => gives_of_eq hnote (if_pos hsealed)⟩
  case lands =>
    have hlands := receiveLanded_lands hfind hmsg hruns hgen hfree hland
    exact ⟨fun hok => gives_of_eq hlands (if_pos hok), fun hbad => gives_of_eq hlands (if_neg hbad)⟩

end Sys2Proof.Machine
end

section
/-! PROOFS. The jobs of the Granary (R328, R332–R336, R338, R339, R341, R347, R349, R350): when the job at the head of a lane runs, what its
end leaves, and the end of an initialisation. -/

namespace Sys2Proof.Machine

open Sys2Proof.Safety

/-! ### A run (R332, R333) -/

/-- The device once the job at the head of a lane has its turn: one that may change frames is noted. -/
def Dev.frameNoted (d : Dev) (lane kind : Nat) : Dev :=
  if 2 ≤ kind ∧ kind ≤ 6 then { d with gran := { d.gran with lastFrames := some (d.fclk, lane) } } else d

/-- A job's work: its block is read and checked first. -/
def granProg (kind : Nat) (work : Job → List Byte → GM Nat) (j : Job) : GM Nat :=
  gJobRead j j.addr 128 >>= fun b => gCheck (gBlockBad kind j.addr b) gBadBlock >>= fun _ => work j b

/-- The device once a job's work has ended with an answer or with a code: a refusal changes nothing else. -/
def Dev.granEnded (d : Dev) (j : Job) : Except Nat Nat × Dev → Dev
  | (.ok i, e) => e.jobRan j 0 [i, j.notes.getD 1 0]
  | (.error c, e) => if gRefused c then d.jobRan j c [0, j.notes.getD 1 0] else e.jobRan j c [0, j.notes.getD 1 0]

/-- The kinds that change frames. -/
theorem gFrameKind_iff {kind : Nat} : gFrameKind kind = true ↔ 2 ≤ kind ∧ kind ≤ 6 := by
  simp only [gFrameKind, Bool.and_eq_true, decide_eq_true_iff]

section
variable {d : Dev} {n kind : Nat} {work : Job → List Byte → GM Nat} {j : Job}

/-- A higher lane that has changed frames in this F clock goes before. -/
theorem Dev.granLate_of_higher {l : Nat} (hlow : 2 ≤ kind) (hhigh : kind ≤ 6) (hlast : d.gran.lastFrames = some (d.fclk, l)) (hl : n < l) :
    d.granLate n kind = true := by
  simp [Dev.granLate, gFrameKind_iff.mpr ⟨hlow, hhigh⟩, hlast, hl]

/-- Without a job at the head nothing runs. -/
theorem Dev.granRun_none (hhead : d.headToRun 3 n = none) : d.granRun n kind work = d := by
  simp only [Dev.granRun, hhead]

section
variable (hhead : d.headToRun 3 n = some j)
include hhead

/-- Nor does a job of another kind, under recovery, behind an earlier job of its sequence or behind a higher lane. -/
theorem Dev.granRun_waits (hwait : j.kind ≠ kind ∨ d.flag F.GRAN_STATUS_recovering = true ∨ d.granWaits j = true ∨ d.granLate n kind = true) :
    d.granRun n kind work = d := by
  have htest : (j.kind ≠ kind || d.flag F.GRAN_STATUS_recovering || d.granWaits j || d.granLate n kind) = true := by
    simpa only [Bool.or_eq_true, decide_eq_true_iff, or_assoc] using hwait
  simp only [Dev.granRun, hhead, htest, if_true]

/-- A job that has its turn works. -/
theorem Dev.granRun_works (hkind : j.kind = kind) (hrec : d.flag F.GRAN_STATUS_recovering = false) (hfirst : d.granWaits j = false)
    (hlate : d.granLate n kind = false) (hgood : d.flag F.GRAN_STATUS_table_bad = false) :
    d.granRun n kind work = (d.frameNoted n kind).granEnded j ((granProg kind work j).run.run (d.frameNoted n kind)) := by
  have hnoted : (if gFrameKind kind then { d with gran := { d.gran with lastFrames := some (d.fclk, n) } } else d) = d.frameNoted n kind :=
    ite_congr (propext gFrameKind_iff) (fun _ => rfl) (fun _ => rfl)
  simp only [Dev.granRun, hhead, hkind, hrec, hfirst, hlate, hgood, hnoted, ne_eq, not_true_eq_false, decide_false, Bool.false_and,
    Bool.or_self, Bool.false_eq_true, if_false]
  unfold granProg
  generalize StateT.run _ (d.frameNoted n kind) = ended
  obtain ⟨_ | _, e⟩ := ended <;> rfl

end

end

/-! ### The commands -/

section
variable {s : State} {lane : BitVec 2} {j : Job}

/-- The command of each kind of job. -/
theorem exec_of_granKind {r : Nat × Instr × (Job → List Byte → GM Nat)}
    (hrow : r ∈ [(1, .granOpen lane, gOpen), (2, .granClose lane, gClose), (3, .granFork lane, gFork), (4, .granTrim lane, gTrim),
      (5, .granAppend lane, gAppend), (6, .granFlush lane, gFlushJob), (8, .attend lane, gAttend), (9, .merge lane, gMerge),
      (0xA, .expand lane, gExpand), (0xB, .bwd lane, gBwd)]) :
    exec r.2.1 s = s.withDev fun d => d.granRun lane.toNat r.1 r.2.2 := by
  simp only [List.mem_cons, List.not_mem_nil, or_false] at hrow
  rcases hrow with rfl | rfl | rfl | rfl | rfl | rfl | rfl | rfl | rfl | rfl <;> rfl

theorem exec_granJobEnd (lane : BitVec 2) (s : State) : exec (.granJobEnd lane) s = execGranJobEnd lane s := rfl
theorem exec_granInitDone (s : State) : exec .granInitDone s = execGranInitDone s := rfl

/-- A lane whose first job has not run ends none. -/
theorem granJobEnd_none (hhead : s.dev.headRan 3 lane.toNat = none) : Idle (.granJobEnd lane) s :=
  idle_of_withDev (exec_granJobEnd lane s) (by simp only [hhead])

/-- A job that ended without an error writes its status word with bit 8 set, is counted and named as the last. -/
theorem granJobEnd_done (hhead : s.dev.headRan 3 lane.toNat = some j) (hok : j.result = 0) :
    Gives (.granJobEnd lane) s (((((s.dev.jobWrite j (j.addr + 4) (leBytes 4 (0x100 + j.notes.getD 0 0 % 4096 * 65536))).1.bumpFor j.tag
      R.GRAN_JOBS).setF F.GRAN_LAST_JOB_address j.addr).setReg R.GRAN_LAST_END (BitVec.ofNat 64 (j.kind % 256))).endJob j) :=
  gives_of_withDev (exec_granJobEnd lane s)
    (by simp only [hhead, hok, true_or, if_true, Nat.zero_mul, Nat.add_zero, Nat.zero_add])

/-- An initialisation ends with the Granary ready (R328). -/
theorem granInitDone_ends (hbusy : s.dev.flag F.GRAN_STATUS_init_busy = true) :
    Gives .granInitDone s ((s.dev.setB F.GRAN_STATUS_init_busy false).setB F.GRAN_STATUS_ready true) :=
  gives_of_withDev (exec_granInitDone s) (if_pos hbusy)

theorem granInitDone_idle (hidle : s.dev.flag F.GRAN_STATUS_init_busy = false) : Idle .granInitDone s :=
  idle_of_withDev (exec_granInitDone s) (if_neg (Bool.eq_false_iff.mp hidle))

end

/-- Settles O40: a run goes by the head of the lane, its turn and how its work ends, an end by the head that has run. -/
theorem granaryJobs : Obligations.GranaryJobs := by
  intro s lane j e c d n seq rows
  refine ⟨fun r hrow => ?runs, granJobEnd_none, granJobEnd_done, granInitDone_ends, granInitDone_idle⟩
  have hexec : exec r.2.1 s = s.withDev fun d => d.granRun n r.1 r.2.2 := exec_of_granKind hrow
  have hwaits : d.headToRun 3 n = some j →
      (j.kind ≠ r.1 ∨ d.flag F.GRAN_STATUS_recovering = true ∨ d.granWaits j = true ∨ d.granLate n r.1 = true) → Idle r.2.1 s :=
    fun hhead hwait => idle_of_withDev hexec (Dev.granRun_waits hhead hwait)
  refine ⟨fun hnone => idle_of_withDev hexec (Dev.granRun_none hnone), fun hhead =>
    ⟨fun hkind => hwaits hhead (.inl hkind), fun hrec => hwaits hhead (.inr (.inl hrec)),
      fun hearlier => hwaits hhead (.inr (.inr (.inl hearlier))),
      fun l hlow hhigh hlast hl => hwaits hhead (.inr (.inr (.inr (Dev.granLate_of_higher hlow hhigh hlast hl)))),
      fun hkind hrec hfirst hlate hgood => ?works⟩⟩
  have hworks {res : Except Nat Nat × Dev} (hrun : (granProg r.1 r.2.2 j).run.run (d.frameNoted n r.1) = res) :
      Gives r.2.1 s ((d.frameNoted n r.1).granEnded j res) :=
    gives_of_withDev hexec (hrun ▸ Dev.granRun_works hhead hkind hrec hfirst hlate hgood)
  exact ⟨fun hok => hworks hok, fun hcode hrefused => gives_of_eq (hworks hcode) (if_pos hrefused),
    fun hcode hbad => gives_of_eq (hworks hcode) (if_neg (Bool.eq_false_iff.mp hbad))⟩

end Sys2Proof.Machine
end

section
/-! PROOFS. Slices of the plan (R366, R368, R370): the start of a RUN slice, the save before its end, the SWAP slices of an exchange and its
completion. -/

namespace Sys2Proof.Machine

open Sys2Proof.Safety

theorem exec_runSliceStart (p : BitVec 4) (s : State) : exec (.runSliceStart p) s = execRunSliceStart p s := rfl
theorem exec_sliceSave (p : BitVec 4) (s : State) : exec (.sliceSave p) s = execSliceSave p s := rfl
theorem exec_swapSlice (p : BitVec 4) (s : State) : exec (.swapSlice p) s = execSwapSlice p s := rfl
theorem exec_exchangeComplete (s : State) : exec .exchangeComplete s = execExchangeComplete s := rfl

/-! ### The start of a RUN slice (R366, R370) -/

/-- The device once the slice before entry `i` is saved and the entry has begun. -/
def Dev.entryBegun (d : Dev) (n i : Nat) : Dev := (d.sliceSave n).updPlough n fun pl => { pl with nextEntry := i + 1 }

/-- The device in which a plough idles through entry `i`. -/
def Dev.entryIdle (d : Dev) (n i : Nat) : Dev := d.updPlough n fun pl => { pl with waived := i :: pl.waived }

/-- The device once a slice of a context past its quota is counted as cut. -/
def Dev.cutCounted (d : Dev) (id : Nat) : Dev :=
  (d.noteCount (sliceCutKey id) (d.ctxOf id).sliceCut 1).updCtx id fun c => { c with sliceCut := satAdd32 c.sliceCut 1 }

/-- A change that leaves a context other than it is at reset is what the context then reads, canonical form or not. -/
theorem Dev.ctxOf_updCtx_of_ne {d : Dev} {id : Nat} {f : Ctx → Ctx} (h : f (d.ctxOf id) ≠ {}) : (d.updCtx id f).ctxOf id = f (d.ctxOf id) := by
  have hset : SMap.set (fun _ => ({} : Ctx)) d.ctxs id (f (d.ctxOf id)) = SMap.insert d.ctxs id (f (d.ctxOf id)) := if_neg h
  exact (congrArg (SMap.get _ · id) hset).trans (SMap.get_insert_same _ _ _ _)

/-- The count of slices cut goes up by one. -/
theorem Dev.cutCounted_sliceCut (d : Dev) (id : Nat) : ((d.cutCounted id).ctxOf id).sliceCut = satAdd32 (d.ctxOf id).sliceCut 1 := by
  have hpos : satAdd32 (d.ctxOf id).sliceCut 1 ≠ 0 := by unfold satAdd32; omega
  have hne : ({ d.ctxOf id with sliceCut := satAdd32 (d.ctxOf id).sliceCut 1 } : Ctx) ≠ {} := fun h => hpos (congrArg Ctx.sliceCut h)
  exact congrArg Ctx.sliceCut (Dev.ctxOf_updCtx_of_ne (d := d.noteCount (sliceCutKey id) (d.ctxOf id).sliceCut 1) hne)

section
variable {s : State} {p : BitVec 4} {i : Nat} {e : SliceEntry} (hopen : s.dev.openSlice p.toNat = some (i, e)) (hlock : s.dev.locked = true)
include hopen hlock

/-- A plough without a context to run idles. -/
theorem runSliceStart_idles (hnone : (s.dev.entryBegun p.toNat i).sliceCtx p.toNat e = none) :
    Gives (.runSliceStart p) s ((s.dev.entryBegun p.toNat i).entryIdle p.toNat i) := by
  refine gives_of_withDev (exec_runSliceStart p s) ?_
  unfold Dev.entryBegun at hnone ⊢
  simp only [Dev.sliceStart, hopen, hlock, hnone, Bool.not_true, Bool.false_eq_true, if_false]
  rfl

section
variable {id : Nat} (hctx : (s.dev.entryBegun p.toNat i).sliceCtx p.toNat e = some id)
include hctx

/-- A context within its quota runs. -/
theorem runSliceStart_runs (hquota : (s.dev.entryBegun p.toNat i).sliceOver id e = false) :
    Gives (.runSliceStart p) s ((s.dev.entryBegun p.toNat i).sliceRun p.toNat i e id) := by
  refine gives_of_withDev (exec_runSliceStart p s) ?_
  unfold Dev.entryBegun at hctx hquota ⊢
  simp only [Dev.sliceStart, hopen, hlock, hctx, hquota, Bool.not_true, Bool.false_eq_true, if_false]

/-- One past it is cut, counted and reported, and the plough idles. -/
theorem runSliceStart_cuts (hover : (s.dev.entryBegun p.toNat i).sliceOver id e = true) :
    Gives (.runSliceStart p) s ((((s.dev.entryBegun p.toNat i).cutCounted id).entryIdle p.toNat i).raise 0x0011 0 id
      (((s.dev.entryBegun p.toNat i).cutCounted id).ctxOf id).gen (dAt 28 4 ((s.dev.entryBegun p.toNat i).cutCounted id).plan.period)) := by
  refine gives_of_withDev (exec_runSliceStart p s) ?_
  unfold Dev.entryBegun at hctx hover ⊢
  simp only [Dev.sliceStart, hopen, hlock, hctx, hover, Bool.not_true, Bool.false_eq_true, if_false, if_true]
  rfl

end

end

/-! ### Saves (R366) -/

section
variable {s : State} {p : BitVec 4} {e : SliceEntry} (hrun : s.dev.runningSlice p.toNat = some e)
include hrun

theorem sliceSave_saves (hend : e.start + e.len ≤ s.dev.ccount + 582) : Gives (.sliceSave p) s (s.dev.sliceSave p.toNat) :=
  gives_of_withDev (exec_sliceSave p s) (by simp only [hrun, if_pos hend])

theorem sliceSave_early (hend : s.dev.ccount + 582 < e.start + e.len) : Idle (.sliceSave p) s :=
  idle_of_withDev (exec_sliceSave p s) (by simp only [hrun, if_neg (Nat.not_le.mpr hend)])

end

/-! ### Exchanges (R368) -/

section
variable {s : State} {p : BitVec 4} {x : Exchange}

/-- A SWAP slice in the exchange's period finds a plough of the slot that has not been swapped. -/
structure SwapsNow (d : Dev) (n : Nat) (x : Exchange) (sl : SliceEntry) (o : Nat) : Prop where
  exchange : d.exch = some x
  slice : d.swapEntry n = some sl
  period : x.period = d.plan.period
  begun : sl.start ≤ d.ccount
  once : x.swapped.contains n = false
  ofSlot : (d.slotPloughs x.rslot).testBit n = true
  outgoing : x.out = some o

/-- The outgoing state in provisional mode undoes the exchange; else it moves out and the incoming one in. -/
theorem swapSlice_swaps {sl : SliceEntry} {o : Nat} (h : SwapsNow s.dev p.toNat x sl o) :
    Gives (.swapSlice p) s (if savedProv (s.dev.peek (s.dev.barnSave x.rslot p.toNat + controlAt) 64) then s.dev.exchangeUndo x 0x06
      else { (s.dev.swapMove x o p.toNat true).swapMove x x.id p.toNat false with exch := some { x with swapped := p.toNat :: x.swapped } }) := by
  obtain ⟨hexch, hslice, hperiod, hbegun, honce, hslot, hout⟩ := h
  have htest : ¬ (x.period ≠ s.dev.plan.period ∨ s.dev.ccount < sl.start ∨ x.swapped.contains p.toNat = true ∨
      (!(s.dev.slotPloughs x.rslot).testBit p.toNat) = true) := by
    rw [honce, hslot]
    simp [hperiod, Nat.not_lt.mpr hbegun]
  exact gives_of_withDev (exec_swapSlice p s) (by simp only [hexch, hslice, hout, if_neg htest])

/-- With every plough of the slot swapped and no stack request waiting the exchange is done. -/
theorem exchangeComplete_done (hexch : s.dev.exch = some x) (hperiod : x.period = s.dev.plan.period)
    (hall : ∀ n < 16, (s.dev.slotPloughs x.rslot).testBit n = true → n ∈ x.swapped) (hfree : s.dev.swapBusy x = false) :
    Gives .exchangeComplete s { s.dev with exch := some { x with done := true } } := by
  have hswapped : (List.range 16).all (fun n => !(s.dev.slotPloughs x.rslot).testBit n || x.swapped.contains n) = true := by
    refine List.all_eq_true.mpr fun n hn => ?_
    cases hbit : (s.dev.slotPloughs x.rslot).testBit n with
    | false => rfl
    | true => simpa using hall n (List.mem_range.mp hn) hbit
  exact gives_of_withDev (exec_exchangeComplete s) (by simp only [hexch, if_pos (And.intro hperiod (And.intro hswapped hfree))])

end

/-- Settles O18: an entry goes by the context of its slot and its quota, a save by its clock, an exchange by its ploughs. -/
theorem slicesSwitch : Obligations.SlicesSwitch := by
  refine ⟨fun s p i e => ?run, fun s p => ?swap⟩
  case run =>
    intro n hopen hlock d idle
    refine ⟨runSliceStart_idles hopen hlock, fun id => runSliceStart_runs hopen hlock,
      fun id hctx hover => ⟨_, runSliceStart_cuts hopen hlock hctx hover, ?_⟩⟩
    have hreport := Dev.reportsTo_raise ((d.cutCounted id).entryIdle n i) 0x0011 0 id ((d.cutCounted id).ctxOf id).gen
      (dAt 28 4 (d.cutCounted id).plan.period)
    obtain ⟨-, -, -, -, -, hctxs, -, hploughs, -⟩ := hreport.keeps
    exact ⟨hploughs, (congrArg (fun m => (SMap.get (fun _ => ({} : Ctx)) m id).sliceCut) hctxs).trans (d.cutCounted_sliceCut id)⟩
  case swap =>
    intro d n
    refine ⟨fun e => sliceSave_saves, fun e => sliceSave_early, fun x sl o hexch hslice hperiod hbegun honce hslot hout => ?_,
      fun x => exchangeComplete_done⟩
    have hswaps := swapSlice_swaps ⟨hexch, hslice, hperiod, hbegun, honce, hslot, hout⟩
    exact ⟨fun hcommitted => gives_of_eq hswaps (if_neg (Bool.eq_false_iff.mp hcommitted)), fun hprov => gives_of_eq hswaps (if_pos hprov)⟩

end Sys2Proof.Machine
end

section
/-! PROOFS. The commands of the context manager (R361–R363, R368, R372): the checks they share, and what each then does. -/

namespace Sys2Proof.Machine

open Sys2Proof.Safety

/-! ### The checks that the commands share -/

section
variable {d : Dev} {c : CtxCmd} {cmd : Nat} {body : CtxCmd → Ctx → Dev → Dev} (hrun : d.ctxCmd = some c) (hcmd : c.cmd = cmd)
include hrun hcmd

/-- A command while no plan is locked ends with NOT_LOCKED. -/
theorem Dev.ctxRun_unlocked (hlock : d.locked = false) : d.ctxRun cmd body = d.ctxEnd 0x08 := by
  simp only [Dev.ctxRun, hrun, hcmd, hlock, ne_eq, not_true_eq_false, if_false, Bool.not_false, if_true]

/-- A command on an ID of a locked plan runs. -/
theorem Dev.ctxRun_runs (hlock : d.locked = true) (hid : c.id < d.ctxCount) : d.ctxRun cmd body = body c (d.ctxOf c.id) d := by
  simp only [Dev.ctxRun, hrun, hcmd, hlock, ne_eq, not_true_eq_false, if_false, Bool.not_true, Bool.false_eq_true, if_neg (Nat.not_le.mpr hid)]

end

/-- An active context is not retiring. -/
theorem Ctx.life_ne_retiring_of_active {x : Ctx} (h : x.active = true) : x.life ≠ .retiring := by
  intro hlife
  simp [Ctx.active, hlife] at h

/-- And a retiring one is not active. -/
theorem Ctx.active_of_retiring {x : Ctx} (h : x.life = .retiring) : x.active = false :=
  Bool.eq_false_iff.mpr fun hactive => Ctx.life_ne_retiring_of_active hactive h

/-! ### CREATE, SUSPEND and RESUME (R361–R363) -/

theorem exec_create (s : State) : exec .create s = execCreate s := rfl
theorem exec_suspend (s : State) : exec .suspend s = execSuspend s := rfl
theorem exec_resume (s : State) : exec .resume s = execResume s := rfl
theorem exec_retire (s : State) : exec .retire s = execRetire s := rfl
theorem exec_exchange (s : State) : exec .exchange s = execExchange s := rfl

section
variable {s : State} {c : CtxCmd} (hrun : s.dev.ctxCmd = some c)
include hrun

section
variable (hlock : s.dev.locked = false)
include hlock

theorem create_unlocked (hcmd : c.cmd = 1) : Gives .create s (s.dev.ctxEnd 0x08) :=
  gives_of_withDev (exec_create s) (Dev.ctxRun_unlocked hrun hcmd hlock)

theorem suspend_unlocked (hcmd : c.cmd = 2) : Gives .suspend s (s.dev.ctxEnd 0x08) :=
  gives_of_withDev (exec_suspend s) (Dev.ctxRun_unlocked hrun hcmd hlock)

theorem resume_unlocked (hcmd : c.cmd = 3) : Gives .resume s (s.dev.ctxEnd 0x08) :=
  gives_of_withDev (exec_resume s) (Dev.ctxRun_unlocked hrun hcmd hlock)

theorem retire_unlocked (hcmd : c.cmd = 4) : Gives .retire s (s.dev.ctxEnd 0x08) :=
  gives_of_withDev (exec_retire s) (Dev.ctxRun_unlocked hrun hcmd hlock)

end

variable (hlock : s.dev.locked = true) (hid : c.id < s.dev.ctxCount)
include hlock hid

section
variable (hcmd : c.cmd = 1)
include hcmd

theorem create_live (hlife : (s.dev.ctxOf c.id).life ≠ .retired) : Gives .create s (s.dev.ctxEnd 0x01) :=
  gives_of_withDev (exec_create s) ((Dev.ctxRun_runs hrun hcmd hlock hid).trans (if_pos hlife))

section
variable (hlife : (s.dev.ctxOf c.id).life = .retired)
include hlife

/-- An ID whose generations are spent is not created again (R361). -/
theorem create_spent (hgen : 0xFFFFF ≤ (s.dev.ctxOf c.id).gen) : Gives .create s (s.dev.ctxEnd 0x03) :=
  gives_of_withDev (exec_create s) ((Dev.ctxRun_runs hrun hcmd hlock hid).trans ((if_neg (not_not_intro hlife)).trans (if_pos hgen)))

theorem create_creates (hgen : (s.dev.ctxOf c.id).gen < 0xFFFFF) :
    Gives .create s ((((s.dev.bringUp c.id .swapped 0).writeCtxEntry c.id true).mgmtAttrs).ctxEnd 0) :=
  gives_of_withDev (exec_create s)
    ((Dev.ctxRun_runs hrun hcmd hlock hid).trans ((if_neg (not_not_intro hlife)).trans (if_neg (Nat.not_le.mpr hgen))))

end

end

section
variable (hcmd : c.cmd = 2) (hactive : (s.dev.ctxOf c.id).active = true)
include hcmd hactive

/-- Without a slice that runs the context is suspended at once. -/
theorem suspend_suspends (hrest : s.dev.ctxRunning c.id = false) :
    Gives .suspend s ((s.dev.updCtx c.id fun x => { x with suspended := true }).ctxEnd 0) :=
  gives_of_withDev (exec_suspend s) ((Dev.ctxRun_runs hrun hcmd hlock hid).trans
    ((if_neg (by simp [hactive])).trans (if_neg (Bool.eq_false_iff.mp hrest))))

/-- A slice that runs completes first. -/
theorem suspend_waits (hbusy : s.dev.ctxRunning c.id = true) : Idle .suspend s :=
  idle_of_withDev (exec_suspend s) ((Dev.ctxRun_runs hrun hcmd hlock hid).trans ((if_neg (by simp [hactive])).trans (if_pos hbusy)))

end

section
variable (hcmd : c.cmd = 3)
include hcmd

theorem resume_inactive (hactive : (s.dev.ctxOf c.id).active = false) : Gives .resume s (s.dev.ctxEnd 0x01) :=
  gives_of_withDev (exec_resume s) ((Dev.ctxRun_runs hrun hcmd hlock hid).trans (if_pos (by simp [hactive])))

variable (hactive : (s.dev.ctxOf c.id).active = true)
include hactive

/-- A fault of the same F clock is applied after the command (R372). -/
theorem resume_faulted (hfault : ((s.dev.ctxOf c.id).halted && (s.dev.ctxOf c.id).haltAt == some s.dev.fclk) = true) :
    Gives .resume s ((s.dev.updCtx c.id fun x => { x with suspended := false }).ctxEnd 0) :=
  gives_of_withDev (exec_resume s) ((Dev.ctxRun_runs hrun hcmd hlock hid).trans ((if_neg (by simp [hactive])).trans (if_pos hfault)))

theorem resume_resumes (hfault : ((s.dev.ctxOf c.id).halted && (s.dev.ctxOf c.id).haltAt == some s.dev.fclk) = false) :
    Gives .resume s ((s.dev.updCtx c.id fun x => { x with
      suspended := false, halted := false, entryOn := if (s.dev.ctxOf c.id).halted then List.range 16 else x.entryOn }).ctxEnd 0) :=
  gives_of_withDev (exec_resume s)
    ((Dev.ctxRun_runs hrun hcmd hlock hid).trans ((if_neg (by simp [hactive])).trans (if_neg (Bool.eq_false_iff.mp hfault))))

end

/-! ### RETIRE (R362, R372) -/

section
variable (hcmd : c.cmd = 4)
include hcmd

section
variable (hactive : (s.dev.ctxOf c.id).active = true)
include hactive

theorem retire_owner (howns : s.dev.owns c.id = true) : Gives .retire s (s.dev.ctxEnd 0x04) :=
  gives_of_withDev (exec_retire s) ((Dev.ctxRun_runs hrun hcmd hlock hid).trans
    ((if_neg fun h => Ctx.life_ne_retiring_of_active hactive h.1).trans ((if_neg (by simp [hactive])).trans (if_pos howns))))

theorem retire_retires (howns : s.dev.owns c.id = false) :
    Gives .retire s (((({ s.dev with ctxCmd := some { c with begun := true } } : Dev).updCtx c.id fun y =>
      { y with usage := y.usage.set 1 (b2n ((s.dev.ctxOf c.id).life == .resident)) }).retireStart c.id).retireGo c.id) :=
  gives_of_withDev (exec_retire s) ((Dev.ctxRun_runs hrun hcmd hlock hid).trans ((if_neg fun h => Ctx.life_ne_retiring_of_active hactive h.1).trans
    ((if_neg (by simp [hactive])).trans (if_neg (Bool.eq_false_iff.mp howns)))))

end

/-- A context that retires for another cause is in another state. -/
theorem retire_retiring (hlife : (s.dev.ctxOf c.id).life = .retiring) (hbegun : c.begun = false) : Gives .retire s (s.dev.ctxEnd 0x01) :=
  gives_of_withDev (exec_retire s) ((Dev.ctxRun_runs hrun hcmd hlock hid).trans
    ((if_neg fun h => Bool.eq_false_iff.mp hbegun h.2).trans (if_pos (by simp [Ctx.active_of_retiring hlife]))))

end

/-! ### EXCHANGE (R362, R368) -/

section
variable (hcmd : c.cmd = 5) (hnone : s.dev.exch = none) (hlife : (s.dev.ctxOf c.id).life = .swapped) (hslot : c.rslot < s.dev.slotCount)
  (hswap : s.dev.swappable c.id = true) (hout : ∀ o, s.dev.slotHolder c.rslot = some o → s.dev.swappable o = true)
include hcmd hnone hlife hslot hswap hout

/-- A swappable context for a slot that it can take is checked against its quotas. -/
theorem exchange_checked :
    Gives .exchange s (if s.dev.quotaNow c.id 1 < (s.dev.slotRec c.rslot).2.1 ∨ s.dev.quotaNow c.id 5 < (s.dev.slotRec c.rslot).2.2 then
      s.dev.ctxEnd 0x05
    else { s.dev with exch := some ⟨c.id, c.rslot, s.dev.slotHolder c.rslot, s.dev.plan.period + 1, [], false⟩ }) := by
  have hstate : ¬ ((s.dev.ctxOf c.id).life ≠ .swapped ∨ s.dev.slotCount ≤ c.rslot) := by simp [hlife, Nat.not_le.mpr hslot]
  have hfixed : ¬ ((s.dev.slotHolder c.rslot).any fun o => !s.dev.swappable o) = true := by
    cases hholder : s.dev.slotHolder c.rslot with
    | none => simp
    | some o => simp [hout o hholder]
  exact gives_of_withDev (exec_exchange s) ((if_neg (by simp [hnone])).trans ((Dev.ctxRun_runs hrun hcmd hlock hid).trans
    ((if_neg hstate).trans ((if_neg (by simp [hswap])).trans (if_neg hfixed)))))

end

end

/-- Settles O26: each command by the checks that all share, then by the state of its context. -/
theorem contextLifeCycle : Obligations.ContextLifeCycle := by
  refine ⟨fun s c => ?commands, fun s c => ?residency⟩
  case commands =>
    intro d x hrun
    exact ⟨fun hlock => ⟨create_unlocked hrun hlock, suspend_unlocked hrun hlock, resume_unlocked hrun hlock, retire_unlocked hrun hlock⟩,
      fun hlock hid => ⟨create_creates hrun hlock hid, create_live hrun hlock hid, create_spent hrun hlock hid, suspend_suspends hrun hlock hid,
        suspend_waits hrun hlock hid, resume_faulted hrun hlock hid, resume_resumes hrun hlock hid, resume_inactive hrun hlock hid⟩⟩
  case residency =>
    intro d x hrun hlock hid
    refine ⟨fun hcmd hactive => ⟨retire_owner hrun hlock hid hcmd hactive, retire_retires hrun hlock hid hcmd hactive⟩,
      retire_retiring hrun hlock hid, fun hcmd hnone hlife hslot hswap hout => ?_⟩
    have hchecked := exchange_checked hrun hlock hid hcmd hnone hlife hslot hswap hout
    exact ⟨fun hbarn hstack => gives_of_eq hchecked (if_neg (not_or.mpr ⟨Nat.not_lt.mpr hbarn, Nat.not_lt.mpr hstack⟩)),
      fun hbarn => gives_of_eq hchecked (if_pos (.inl hbarn))⟩

end Sys2Proof.Machine
end

section
/-! PROOFS. Maintenance of the banks (R380, R384, R392–R394) and the temperatures of the stacks (R397, R504). -/

namespace Sys2Proof.Machine

open Sys2Proof.Safety

theorem exec_maintenanceCycle (bank : MaintBank) (s : State) : exec (.maintenanceCycle bank) s = execMaintenanceCycle bank s := rfl
theorem exec_stackTempRead (t0 t1 : BitVec 8) (s : State) : exec (.stackTempRead t0 t1) s = execStackTempRead t0 t1 s := rfl

/-! ### Whether a bank may use its clock -/

section
variable {d : Dev} {bank : MaintBank}

/-- A bank that has moved a word in its clock does no maintenance in it. -/
theorem Dev.maintOk_of_moved (hmoved : d.movedNow (bankNum bank) (d.bankClk bank) = true) : d.maintOk bank = false := by
  simp only [Dev.maintOk, hmoved, Bool.not_true, Bool.false_and]

/-- Nor does a stack channel of a plan outside a maintenance window. -/
theorem Dev.maintOk_of_window {ch : BitVec 5} (hplan : d.openMode = false) (hwin : ∀ w, d.chanWindow ch.toNat = some w → w.req ≠ 0x60) :
    d.maintOk (.stack ch) = false := by
  cases hopen : d.chanWindow ch.toNat with
  | none => simp [Dev.maintOk, hplan, hopen]
  | some w => simp [Dev.maintOk, hplan, hopen, hwin w hopen]

end

/-! ### What a maintenance clock does -/

/-- The device once the scrubber of an on-chip bank stands at word `k`. -/
def Dev.sramScrubAt (d : Dev) (bank : MaintBank) (k : Nat) : Dev :=
  { d with memc := { d.memc with sramScrub := SMap.set (fun _ => 0) d.memc.sramScrub (bankNum bank) k } }

/-- A word without errors is scrubbed by reading it only. -/
theorem Dev.scrubWord_clean {d : Dev} {w : Nat} (hclean : d.badWords (32 * w) 32 = []) : d.scrubWord w = d :=
  if_pos (by rw [hclean]; rfl)

/-- The scrubber of an on-chip bank goes on from a word without errors that is not its last. -/
theorem Dev.scrubSram_next {d : Dev} {bank : MaintBank} {k : Nat} (hk : SMap.get (fun _ => 0) d.memc.sramScrub (bankNum bank) = k)
    (hnext : k + 1 < bankWords bank) (hclean : d.badWords (32 * bankWord bank k) 32 = []) : d.scrubSram bank = d.sramScrubAt bank (k + 1) := by
  simp only [Dev.scrubSram, hk, Dev.scrubWord_clean hclean, Nat.mod_eq_of_lt hnext, if_pos hnext]
  rfl

section
variable {s : State} {bank : MaintBank}

theorem maintenanceCycle_idle (hoff : s.dev.maintOk bank = false) : Idle (.maintenanceCycle bank) s :=
  idle_of_withDev (exec_maintenanceCycle bank s) (if_pos (by rw [hoff]; rfl))

/-- With no word to write back the command finds none, whether the clock is a maintenance cycle or not. -/
theorem noWriteBack
    (hqueue : s.dev.maintCycle bank = true → (s.dev.memc.wb.find? fun x => bankOf x.word == bankNum bank) = none) :
    (if s.dev.maintCycle bank then s.dev.memc.wb.find? fun x => bankOf x.word == bankNum bank else none) = none := by
  split
  next hcycle => exact hqueue hcycle
  next => rfl

section
variable (hok : s.dev.maintOk bank = true)
include hok

/-- A queued word is written back first. -/
theorem maintenanceCycle_writesBack {x : WriteBack} (hcycle : s.dev.maintCycle bank = true)
    (hqueue : (s.dev.memc.wb.find? fun x => bankOf x.word == bankNum bank) = some x) :
    Gives (.maintenanceCycle bank) s ((s.dev.useBank bank true).writeBack x) :=
  gives_of_withDev (exec_maintenanceCycle bank s)
    (by simp only [hok, hcycle, hqueue, Bool.not_true, Bool.false_eq_true, if_false, if_true])

variable (hqueue : s.dev.maintCycle bank = true → (s.dev.memc.wb.find? fun x => bankOf x.word == bankNum bank) = none)
include hqueue

/-- Else a word is filled. -/
theorem maintenanceCycle_fills {w : Nat} {js : List FillJob} (hmay : s.dev.maintCycle bank = true ∨ s.dev.openMode = true)
    (hfill : fillStep (bankNum bank) s.dev.memc.fills = some (w, js)) :
    Gives (.maintenanceCycle bank) s
      (({ s.dev.useBank bank (s.dev.maintCycle bank) with
        memc := { (s.dev.useBank bank (s.dev.maintCycle bank)).memc with fills := js } } : Dev).fillKey (32 * w) 32) := by
  have hmay' : (s.dev.maintCycle bank || s.dev.openMode) = true := Bool.or_eq_true_iff.mpr hmay
  exact gives_of_withDev (exec_maintenanceCycle bank s)
    (by simp only [hok, noWriteBack hqueue, hmay', hfill, Bool.not_true, Bool.false_eq_true, if_false, if_true])

/-- Else the scrubber of an on-chip bank goes on. -/
theorem maintenanceCycle_scrubs (hfill : s.dev.maintCycle bank = true ∨ s.dev.openMode = true → fillStep (bankNum bank) s.dev.memc.fills = none)
    (hchip : ∀ ch, bank ≠ .stack ch) : Gives (.maintenanceCycle bank) s ((s.dev.useBank bank false).scrubSram bank) := by
  have hnofill : (if s.dev.maintCycle bank || s.dev.openMode then fillStep (bankNum bank) s.dev.memc.fills else none) = none := by
    split
    next hmay => exact hfill (Bool.or_eq_true_iff.mp hmay)
    next => rfl
  refine gives_of_withDev (exec_maintenanceCycle bank s) ?_
  simp only [hok, noWriteBack hqueue, hnofill, Bool.not_true, Bool.false_eq_true, if_false]

end

/-! ### Temperatures (R397, R504) -/

/-- Temperatures below 95 °C are shown, and no stack is hot. -/
theorem stackTempRead_cool {t0 t1 : BitVec 8} (h0 : t0.toNat < 95) (h1 : t1.toNat < 95) :
    Gives (.stackTempRead t0 t1) s
      (let e := (s.dev.setF F.MEM_STACK_TEMP_stack0 t0.toNat).setF F.MEM_STACK_TEMP_stack1 t1.toNat
       { e with memc := { e.memc with hot := putBit (putBit e.memc.hot 0 false) 1 false } }) := by
  have hcool0 : decide (95 ≤ t0.toNat) = false := decide_eq_false (Nat.not_le.mpr h0)
  have hcool1 : decide (95 ≤ t1.toNat) = false := decide_eq_false (Nat.not_le.mpr h1)
  exact gives_of_withDev (exec_stackTempRead t0 t1 s) (by simp only [hcool0, hcool1, Bool.false_and, Bool.false_eq_true, if_false])

end

/-- Settles O42: a clock that may not be used is idle; one that may goes by the queue of write-backs, the fills and the scrubber in turn. -/
theorem maintenanceWorks : Obligations.MaintenanceWorks := by
  intro s bank t0 t1 d wb
  refine ⟨?window, fun hmoved => maintenanceCycle_idle (Dev.maintOk_of_moved hmoved), fun hok =>
    ⟨fun x => maintenanceCycle_writesBack hok, fun hqueue => ⟨fun w js => maintenanceCycle_fills hok hqueue, fun hfill hchip => ?scrub⟩⟩, stackTempRead_cool⟩
  case window =>
    rintro ch rfl hplan hwin
    exact maintenanceCycle_idle (Dev.maintOk_of_window hplan hwin)
  case scrub =>
    intro e k hnext hclean next
    exact gives_of_eq (maintenanceCycle_scrubs hok hqueue hfill hchip) (Dev.scrubSram_next rfl hnext hclean)

end Sys2Proof.Machine
end

section
/-! PROOFS. The Hitch: bus cycles, groups, the swap at a K edge (R430–R435), publications, age and inbound captures (R433–R435, R440). -/

namespace Sys2Proof.Machine

open Sys2Proof.Safety

theorem exec_hitchReadCycle (addr : BitVec 16) (s : State) : exec (.hitchReadCycle addr) s = execHitchReadCycle addr s := rfl
theorem exec_hitchWriteCycle (addr : BitVec 16) (word : BitVec 32) (s : State) :
    exec (.hitchWriteCycle addr word) s = execHitchWriteCycle addr word s := rfl
theorem exec_bankSwap (s : State) : exec .bankSwap s = execBankSwap s := rfl
theorem exec_publishCopy (s : State) : exec .publishCopy s = execPublishCopy s := rfl
theorem exec_swapAcknowledge (s : State) : exec .swapAcknowledge s = execSwapAcknowledge s := rfl
theorem exec_ageIncrement (s : State) : exec .ageIncrement s = execAgeIncrement s := rfl
theorem exec_inboundCapture (s : State) : exec .inboundCapture s = execInboundCapture s := rfl
theorem exec_captureAcknowledge (s : State) : exec .captureAcknowledge s = execCaptureAcknowledge s := rfl
theorem exec_hitchClockStopped (s : State) : exec .hitchClockStopped s = execHitchClockStopped s := rfl

/-! ### The words of the read space (R432) -/

section
variable {d : Dev} {a : Nat}

/-- Before the Steward is ready every word reads zero. -/
theorem Dev.hitchWord_unready (hready : d.flag F.TOP_STATUS_steward_ready = false) : d.hitchWord a = 0 := by
  simp only [Dev.hitchWord, hready, Bool.not_false, if_true]

section
variable (hready : d.flag F.TOP_STATUS_steward_ready = true)
include hready

theorem Dev.hitchWord_id : d.hitchWord 0x8000 = 0x481600B1 := by
  simp only [Dev.hitchWord, hready, Bool.not_true, Bool.false_eq_true, if_false, if_true]

/-- The words 1 and 2 are those that the group captured. -/
theorem Dev.hitchWord_age {x y : Nat} (hgroup : d.hitch.group = some (x, y)) : d.hitchWord 1 = x := by
  simp [Dev.hitchWord, hready, hgroup]

theorem Dev.hitchWord_flags {x y : Nat} (hgroup : d.hitch.group = some (x, y)) : d.hitchWord 2 = y := by
  simp [Dev.hitchWord, hready, hgroup]

theorem Dev.hitchWord_published (hfrom : 4 ≤ a) (hto : a < d.getF F.HITCH_CFG_out_words) (hid : a ≠ 0x8000) :
    d.hitchWord a = SMap.get (fun _ => 0) d.activeBank a := by
  have h1 : a ≠ 1 := by omega
  have h2 : a ≠ 2 := by omega
  have hout : a = 0 ∨ a = 3 ∨ (4 ≤ a ∧ a < d.getF F.HITCH_CFG_out_words) := .inr (.inr ⟨hfrom, hto⟩)
  simp only [Dev.hitchWord, hready, Bool.not_true, Bool.false_eq_true, if_false, if_neg hid, if_neg h1, if_neg h2, if_pos hout]

theorem Dev.hitchWord_beyond (hfrom : 4 ≤ a) (hto : d.getF F.HITCH_CFG_out_words ≤ a) (hid : a ≠ 0x8000) : d.hitchWord a = 0 := by
  have h1 : a ≠ 1 := by omega
  have h2 : a ≠ 2 := by omega
  have hout : ¬ (a = 0 ∨ a = 3 ∨ (4 ≤ a ∧ a < d.getF F.HITCH_CFG_out_words)) := by omega
  simp only [Dev.hitchWord, hready, Bool.not_true, Bool.false_eq_true, if_false, if_neg hid, if_neg h1, if_neg h2, if_neg hout]

end

/-- An update of the Hitch depends on what it makes of the present state only. -/
theorem Dev.updHitch_congr {f g : HitchState → HitchState} (h : f d.hitch = g d.hitch) : d.updHitch f = d.updHitch g :=
  congrArg (fun x => ({ d with hitch := x } : Dev)) h

/-! ### What a K edge applies (R434, R435) -/

theorem Dev.applySwap_none (hpost : d.hitch.post = none) : d.applySwap = d := by
  simp only [Dev.applySwap, hpost]

theorem Dev.applyCapture_none (hpost : d.hitch.inPost = none) : d.applyCapture = d := by
  simp only [Dev.applyCapture, hpost]

theorem Dev.applyCapture_due {n m : Nat} (hpost : d.hitch.inPost = some (n, m)) (hdue : 3 ≤ n) :
    d.applyCapture = d.updHitch fun h =>
      { h with inPost := none, inBank := !h.inBank, inAck := some (m, h.inWrites), inWrites := 0 } := by
  simp only [Dev.applyCapture, hpost, if_neg (Nat.not_lt.mpr hdue)]

/-- A new age touches neither the posted capture nor the group. -/
theorem Dev.setAge_hitch (v : Nat) : (d.setAge v).hitch.inPost = d.hitch.inPost ∧ (d.setAge v).hitch.group = d.hitch.group := by
  unfold Dev.setAge
  dsimp only
  split
  · exact ⟨rfl, rfl⟩
  · exact ⟨rfl, rfl⟩

/-- A swap that has waited three K edges is applied and acknowledged. -/
theorem Dev.applySwap_due {n : Nat} (hpost : d.hitch.post = some n) (hdue : 3 ≤ n) :
    d.applySwap.hitch.ack = true ∧ d.applySwap.hitch.post = none ∧ d.applySwap.hitch.group = d.hitch.group ∧
      d.applySwap.hitch.inPost = d.hitch.inPost := by
  simp only [Dev.applySwap, hpost, if_neg (Nat.not_lt.mpr hdue), Dev.updHitch_hitch, Dev.setAge_hitch, Dev.bump_hitch, Dev.setF_hitch,
    Dev.setB_hitch, and_self]

end

/-! ### The cycles -/

section
variable {s : State} {addr : BitVec 16} {word : BitVec 32}

/-- The device once a read cycle has counted. -/
def Dev.hitchRead (d : Dev) : Dev := d.groupEdge.bump R.HITCH_READS

/-- The device once a write cycle has counted. -/
def Dev.hitchWrite (d : Dev) : Dev := d.groupEdge.updHitch fun h => { h with inWrites := h.inWrites + 1 }

/-- The device at a K edge with CS_N high, which ends the group. -/
def Dev.groupEnd (d : Dev) : Dev := d.kEdge.updHitch fun h => { h with group := none }

/-- A read cycle gives the word at its address. -/
theorem hitchReadCycle_gives {w : Nat} (hword : s.dev.hitchRead.hitchWord addr.toNat = w) :
    Gives (.hitchReadCycle addr) s (s.dev.hitchRead.emit (.word (BitVec.ofNat 32 w))) := by
  subst hword
  exact exec_hitchReadCycle addr s

/-- R432: a word outside the inbound words is counted only. -/
theorem hitchWriteCycle_outside
    (hout : ¬ (0x4000 ≤ addr.toNat ∧ addr.toNat - 0x4000 < s.dev.hitchWrite.getF F.HITCH_CFG_in_words)) :
    Gives (.hitchWriteCycle addr word) s s.dev.hitchWrite :=
  gives_of_withDev (exec_hitchWriteCycle addr word s) (if_neg hout)

/-- A word inside enters the bank that the flag names. -/
theorem hitchWriteCycle_inside
    (hin : 0x4000 ≤ addr.toNat ∧ addr.toNat - 0x4000 < s.dev.hitchWrite.getF F.HITCH_CFG_in_words) :
    Gives (.hitchWriteCycle addr word) s (s.dev.hitchWrite.updHitch fun h =>
      if h.inBank then { h with in1 := SMap.set (fun _ => 0) h.in1 (addr.toNat - 0x4000) word.toNat }
      else { h with in0 := SMap.set (fun _ => 0) h.in0 (addr.toNat - 0x4000) word.toNat }) :=
  gives_of_withDev (exec_hitchWriteCycle addr word s) (if_pos hin)

/-- A K edge with CS_N high ends the group and applies what is due. -/
theorem bankSwap_gives : Gives .bankSwap s s.dev.groupEnd.applySwap.applyCapture := exec_bankSwap s

end

/-- Settles O52: a read by the word at its address, a write by its range and the write bank, a K edge by what is posted. -/
theorem hitchCycles : Obligations.HitchCycles := by
  intro s addr word d e g i inside
  have haddr : addr ≠ 0x8000 → addr.toNat ≠ 0x8000 := fun hne heq => hne (BitVec.eq_of_toNat_eq heq)
  refine ⟨fun hready => hitchReadCycle_gives (Dev.hitchWord_unready hready), fun hready => ⟨?id, ?age, ?flags,
    fun hfrom hto hid => hitchReadCycle_gives (Dev.hitchWord_published hready hfrom hto (haddr hid)),
    fun hfrom hto hid => hitchReadCycle_gives (Dev.hitchWord_beyond hready hfrom hto (haddr hid))⟩,
    hitchWriteCycle_outside, fun hin hbank => ?bank1, fun hin hbank => ?bank0, fun hpost hcap => ?none, ?swap, ?capture⟩
  case id =>
    rintro rfl
    exact hitchReadCycle_gives (Dev.hitchWord_id hready)
  case age =>
    rintro a f rfl hgroup
    exact hitchReadCycle_gives (Dev.hitchWord_age hready hgroup)
  case flags =>
    rintro a f rfl hgroup
    exact hitchReadCycle_gives (Dev.hitchWord_flags hready hgroup)
  case bank1 => exact gives_of_eq (hitchWriteCycle_inside hin) (Dev.updHitch_congr (if_pos hbank))
  case bank0 => exact gives_of_eq (hitchWriteCycle_inside hin) (Dev.updHitch_congr (if_neg (Bool.eq_false_iff.mp hbank)))
  case none => exact gives_of_eq bankSwap_gives ((congrArg _ (Dev.applySwap_none hpost)).trans (Dev.applyCapture_none hcap))
  case swap =>
    intro n hpost hdue hcap
    obtain ⟨hack, hdone, hgroup, hkeep⟩ := Dev.applySwap_due hpost hdue
    refine ⟨_, gives_of_eq bankSwap_gives (Dev.applyCapture_none (hkeep.trans hcap)), hack, hdone, hgroup⟩
  case capture =>
    intro n m hpost hcap hdue
    exact gives_of_eq bankSwap_gives ((congrArg _ (Dev.applySwap_none hpost)).trans (Dev.applyCapture_due hcap hdue))

/-! ### Publications (R433, R434) -/

section
variable {s : State}

theorem publishCopy_idle (hcopy : s.dev.hitch.copy = none) : Idle .publishCopy s :=
  idle_of_withDev (exec_publishCopy s) (by simp only [hcopy])

/-- The words are not copied before 80 ns have gone by. -/
theorem publishCopy_waits {p : Publication} (hcopy : s.dev.hitch.copy = some p) (hearly : s.dev.clk < p.at' + 1920) : Idle .publishCopy s :=
  idle_of_withDev (exec_publishCopy s) (by simp only [hcopy, if_pos hearly])

/-- The device once it has taken up the copy. -/
def Dev.copyTaken (d : Dev) : Dev := d.updHitch fun h => { h with copy := none }

/-- The words of the shadow bank: the words of the area `bs`, with the device time `ns` in word 3 and the words 1 and 2 left to the groups. -/
def shadowWords (n ns : Nat) (bs : List Byte) : SMap Nat :=
  (List.range n).foldl (fun m i =>
    SMap.set (fun _ => 0) m i (if i = 3 then ns / 1000 % 2 ^ 32 else if i = 1 ∨ i = 2 then 0 else leAt bs (4 * i) 4)) []

section
variable {p : Publication} {e : Dev} {bs : List Byte}
  (hcopy : s.dev.hitch.copy = some p) (hdue : p.at' + 1920 ≤ s.dev.clk)
  (hread : s.dev.copyTaken.mgmtRead 21 0x5D false s.dev.copyTaken.pubArea (4 * s.dev.copyTaken.getF F.HITCH_CFG_out_words) = (e, .ok bs))
include hcopy hdue hread

/-- The copy goes into the bank that is not active, and its swap is posted. -/
theorem publishCopy_posts : Gives .publishCopy s ((e.updHitch fun h =>
    if e.flag F.HITCH_STATUS_bank then
      { h with post := some 0, postMark := leAt bs 0 4, bank0 := shadowWords (s.dev.copyTaken.getF F.HITCH_CFG_out_words) p.ns bs }
    else { h with post := some 0, postMark := leAt bs 0 4, bank1 := shadowWords (s.dev.copyTaken.getF F.HITCH_CFG_out_words) p.ns bs }).setB
      F.HITCH_STATUS_swap_pending true) := by
  unfold Dev.copyTaken at hread ⊢
  exact gives_of_withDev (exec_publishCopy s) (by simp only [hcopy, if_neg (Nat.not_lt.mpr hdue), hread, shadowWords])

end

/-! ### The acknowledgement of a swap, and the clock (R434, R440) -/

theorem swapAcknowledge_ends (hack : s.dev.hitch.ack = true) :
    Gives .swapAcknowledge s ((s.dev.updHitch fun h => { h with ack := false }).setB F.HITCH_STATUS_swap_pending false) :=
  gives_of_withDev (exec_swapAcknowledge s) (if_pos hack)

theorem swapAcknowledge_idle (hack : s.dev.hitch.ack = false) : Idle .swapAcknowledge s :=
  idle_of_withDev (exec_swapAcknowledge s) (if_neg (Bool.eq_false_iff.mp hack))

theorem hitchClockStopped_clears (hstop : s.dev.hitch.kSeen + 24000 ≤ s.dev.clk) :
    Gives .hitchClockStopped s (s.dev.setB F.HITCH_STATUS_k_active false) :=
  gives_of_withDev (exec_hitchClockStopped s) (if_pos hstop)

theorem hitchClockStopped_idle (hgoes : s.dev.clk < s.dev.hitch.kSeen + 24000) : Idle .hitchClockStopped s :=
  idle_of_withDev (exec_hitchClockStopped s) (if_neg (Nat.not_le.mpr hgoes))

/-! ### The age (R433) -/

/-- A deadline is passed over while the plan is not locked, the exchange is off or the instant has not come. -/
theorem passedOver {locked on : Bool} {early : Prop} [Decidable early] (hoff : locked = false ∨ on = false ∨ early) :
    (!locked || !on || decide early) = true := by
  simpa only [Bool.or_eq_true, Bool.not_eq_true', decide_eq_true_eq, or_assoc] using hoff

/-- Else it is judged. -/
theorem not_passedOver {locked on : Bool} {early : Prop} [Decidable early] (hlocked : locked = true) (hon : on = true) (hdue : ¬ early) :
    ¬ (!locked || !on || decide early) = true := by
  rw [hlocked, hon, decide_eq_false hdue]
  exact Bool.false_ne_true

/-- The deadline of the mark whose age is judged next, in clocks of 1/256 ns. -/
def Dev.ageDue (d : Dev) : Nat := (d.markTime (d.getF F.HITCH_CFG_schedule) d.hitch.ageMark + d.getF F.HITCH_DEADLINE_ns) * 256

/-- The device once a deadline has been judged. -/
def Dev.ageJudged (d : Dev) : Dev :=
  d.updHitch fun h => { h with ageMark := h.ageMark + 1, pubs := h.pubs.filter fun t => decide (d.ageDue ≤ t) }

theorem ageIncrement_idle (hoff : s.dev.locked = false ∨ s.dev.flag F.HITCH_CFG_out_en = false ∨ s.dev.dev256 < s.dev.ageDue) :
    Idle .ageIncrement s :=
  idle_of_withDev (exec_ageIncrement s) (if_pos (passedOver hoff))

section
variable (hlocked : s.dev.locked = true) (hon : s.dev.flag F.HITCH_CFG_out_en = true) (hdue : s.dev.ageDue ≤ s.dev.dev256)
include hlocked hon hdue

/-- A deadline is judged by the publications of the period before it. -/
theorem ageIncrement_judges : Gives .ageIncrement s
    (if (s.dev.hitch.pubs.any fun t =>
        decide (s.dev.ageDue - s.dev.schedPeriod (s.dev.getF F.HITCH_CFG_schedule) * 256 ≤ t) && decide (t < s.dev.ageDue)) then s.dev.ageJudged
     else (s.dev.ageJudged.setAge (min 0xFFFFFFFF (s.dev.ageJudged.getF F.HITCH_AGE_value + 1))).hitchEvent 0x0B02 s.dev.ageJudged.pubArea
       s.dev.hitch.ageMark) :=
  gives_of_withDev (exec_ageIncrement s) (if_neg (not_passedOver hlocked hon (Nat.not_lt.mpr hdue)))

/-- One publication in the period leaves the age. -/
theorem ageIncrement_kept {t : Nat} (ht : t ∈ s.dev.hitch.pubs)
    (hin : s.dev.ageDue - s.dev.schedPeriod (s.dev.getF F.HITCH_CFG_schedule) * 256 ≤ t ∧ t < s.dev.ageDue) :
    Gives .ageIncrement s s.dev.ageJudged :=
  gives_of_eq (ageIncrement_judges hlocked hon hdue) (if_pos (List.any_eq_true.mpr ⟨t, ht, by simpa using hin⟩))

/-- A period without one counts. -/
theorem ageIncrement_counts (hnone : ∀ t ∈ s.dev.hitch.pubs,
      t < s.dev.ageDue - s.dev.schedPeriod (s.dev.getF F.HITCH_CFG_schedule) * 256 ∨ s.dev.ageDue ≤ t) :
    Gives .ageIncrement s ((s.dev.ageJudged.setAge (min 0xFFFFFFFF (s.dev.ageJudged.getF F.HITCH_AGE_value + 1))).hitchEvent 0x0B02
      s.dev.ageJudged.pubArea s.dev.hitch.ageMark) := by
  refine gives_of_eq (ageIncrement_judges hlocked hon hdue) (if_neg fun hany => ?_)
  obtain ⟨t, ht, hin⟩ := List.any_eq_true.mp hany
  obtain ⟨hfrom, hto⟩ := Bool.and_eq_true_iff.mp hin
  rcases hnone t ht with hbefore | hafter
  · exact Nat.not_le.mpr hbefore (of_decide_eq_true hfrom)
  · exact Nat.not_le.mpr (of_decide_eq_true hto) hafter

end

/-! ### Inbound captures (R435) -/

/-- The instant of the next inbound capture, in clocks of 1/256 ns. -/
def Dev.captureDue (d : Dev) : Nat := (d.markTime (d.getF F.HITCH_CFG_schedule) d.hitch.capMark + d.getF F.HITCH_CAPTURE_ns) * 256

/-- The device once the instant of a capture has come. -/
def Dev.captureMarked (d : Dev) : Dev := d.updHitch fun h => { h with capMark := h.capMark + 1 }

theorem inboundCapture_idle (hoff : s.dev.locked = false ∨ s.dev.flag F.HITCH_CFG_in_en = false ∨ s.dev.dev256 < s.dev.captureDue) :
    Idle .inboundCapture s :=
  idle_of_withDev (exec_inboundCapture s) (if_pos (passedOver hoff))

section
variable (hlocked : s.dev.locked = true) (hon : s.dev.flag F.HITCH_CFG_in_en = true) (hdue : s.dev.captureDue ≤ s.dev.dev256)
include hlocked hon hdue

/-- The capture is posted unless an earlier one is still under way. -/
theorem inboundCapture_marks : Gives .inboundCapture s
    (if s.dev.hitch.inPost.isSome || s.dev.hitch.inAck.isSome then s.dev.captureMarked.bump R.HITCH_IN_DROP
     else s.dev.captureMarked.updHitch fun h => { h with inPost := some (0, s.dev.hitch.capMark) }) :=
  gives_of_withDev (exec_inboundCapture s) (if_neg (not_passedOver hlocked hon (Nat.not_lt.mpr hdue)))

theorem inboundCapture_posts (hpost : s.dev.hitch.inPost = none) (hack : s.dev.hitch.inAck = none) :
    Gives .inboundCapture s (s.dev.captureMarked.updHitch fun h => { h with inPost := some (0, s.dev.hitch.capMark) }) :=
  gives_of_eq (inboundCapture_marks hlocked hon hdue) (if_neg (by rw [hpost, hack]; exact Bool.false_ne_true))

theorem inboundCapture_drops (hbusy : s.dev.hitch.inPost ≠ none ∨ s.dev.hitch.inAck ≠ none) :
    Gives .inboundCapture s (s.dev.captureMarked.bump R.HITCH_IN_DROP) :=
  gives_of_eq (inboundCapture_marks hlocked hon hdue)
    (if_pos (Bool.or_eq_true_iff.mpr (hbusy.imp Option.isSome_iff_ne_none.mpr Option.isSome_iff_ne_none.mpr)))

end

theorem captureAcknowledge_idle (hack : s.dev.hitch.inAck = none) : Idle .captureAcknowledge s :=
  idle_of_withDev (exec_captureAcknowledge s) (by simp only [hack])

/-- The block of a capture: the device time, the mark, the writes counted and the words of the captured bank. -/
def Dev.captureBlock (d : Dev) (m w : Nat) : List Byte :=
  leBytes 8 d.devNs ++ leBytes 4 m ++ leBytes 4 w ++ List.replicate 48 0 ++
    (List.range (d.getF F.HITCH_CFG_in_words)).flatMap fun i =>
      leBytes 4 (SMap.get (fun _ => 0) (if d.hitch.inBank then d.hitch.in0 else d.hitch.in1) i)

/-- The captured bank is written to the inbound area and cleared. -/
theorem captureAcknowledge_writes {e : Dev} {m w : Nat} (hack : s.dev.hitch.inAck = some (m, w))
    (hwrite : s.dev.mgmtWrite 21 0x5D false s.dev.inArea (s.dev.captureBlock m w) = (e, none)) :
    Gives .captureAcknowledge s (e.updHitch fun h =>
      if h.inBank then { h with in0 := [], inAck := none } else { h with in1 := [], inAck := none }) := by
  unfold Dev.captureBlock at hwrite
  exact gives_of_withDev (exec_captureAcknowledge s) (by simp only [hack, hwrite, Option.isSome_none, Bool.false_eq_true, if_false])

end

/-- Settles O53: a copy by its time and the bank, an age by the publications of its period, a capture by what is under way. -/
theorem hitchExchanges : Obligations.HitchExchanges := by
  intro s p e bs m w d sc
  refine ⟨publishCopy_idle, publishCopy_waits, fun hcopy hdue => ?copy, swapAcknowledge_ends, swapAcknowledge_idle,
    ⟨ageIncrement_idle, fun hlocked hon hdue => ⟨?kept, ageIncrement_counts hlocked hon hdue⟩⟩,
    ⟨inboundCapture_idle, fun hlocked hon hdue => ⟨inboundCapture_posts hlocked hon hdue, inboundCapture_drops hlocked hon hdue⟩⟩,
    captureAcknowledge_idle, fun hack => ?captured, hitchClockStopped_clears, hitchClockStopped_idle⟩
  case copy =>
    intro g hread bank
    have hposts := publishCopy_posts hcopy hdue hread
    exact ⟨fun hbank => gives_of_eq hposts (congrArg (fun x : Dev => x.setB F.HITCH_STATUS_swap_pending true) (Dev.updHitch_congr (if_pos hbank))),
      fun hbank => gives_of_eq hposts
        (congrArg (fun x : Dev => x.setB F.HITCH_STATUS_swap_pending true) (Dev.updHitch_congr (if_neg (Bool.eq_false_iff.mp hbank))))⟩
  case kept =>
    rintro ⟨t, ht, hin⟩
    exact ageIncrement_kept hlocked hon hdue ht hin
  case captured =>
    intro bank words hwrite
    have hwrites := captureAcknowledge_writes hack hwrite
    exact ⟨fun hbank => gives_of_eq hwrites (Dev.updHitch_congr (if_pos hbank)),
      fun hbank => gives_of_eq hwrites (Dev.updHitch_congr (if_neg (Bool.eq_false_iff.mp hbank)))⟩

end Sys2Proof.Machine
end

section
/-! PROOFS. The host link, its resets and the service port (R417, R418, R428, R441, R491, R498). -/

namespace Sys2Proof.Machine

open Sys2Proof.Safety

theorem exec_pcieLinkUp (speed : BitVec 3) (width : BitVec 5) (s : State) : exec (.pcieLinkUp speed width) s = execPcieLinkUp speed width s := rfl
theorem exec_pcieLinkDown (s : State) : exec .pcieLinkDown s = execPcieLinkDown s := rfl
theorem exec_hotReset (s : State) : exec .hotReset s = execHotReset s := rfl
theorem exec_flr (s : State) : exec .flr s = execFlr s := rfl
theorem exec_perst (low : Bool) (s : State) : exec (.perst low) s = execPerst low s := rfl
theorem exec_usbDetach (s : State) : exec .usbDetach s = execUsbDetach s := rfl
theorem exec_usbAttach (speed : BitVec 2) (s : State) : exec (.usbAttach speed) s = execUsbAttach speed s := rfl

section
variable {s : State}

/-! ### The link (R417, R418) -/

/-- The link comes up while PERST_N is high and its domain has power. -/
theorem pcieLinkUp_rises {speed : BitVec 3} {width : BitVec 5} (hperst : s.dev.host.perst = false)
    (hdown : s.dev.flag F.HOST_STATUS_link_up = false) (hpower : s.dev.flag ⟨R.PWR_DOMAIN_ON, 35, 1⟩ = true) :
    Gives (.pcieLinkUp speed width) s
      (((((s.dev.setF F.HOST_STATUS_link_up 1).setF F.TOP_STATUS_host_link_up 1).setF F.HOST_STATUS_speed speed.toNat).setF F.HOST_STATUS_width
        width.toNat).hostEvent 0x0B83 0 0 1) :=
  gives_of_withDev (exec_pcieLinkUp speed width s) (if_neg (by rw [hperst, hdown, hpower]; exact Bool.false_ne_true))

theorem pcieLinkUp_idle {speed : BitVec 3} {width : BitVec 5} (hoff : s.dev.host.perst = true ∨ s.dev.flag F.HOST_STATUS_link_up = true ∨
    s.dev.flag ⟨R.PWR_DOMAIN_ON, 35, 1⟩ = false) : Idle (.pcieLinkUp speed width) s :=
  idle_of_withDev (exec_pcieLinkUp speed width s)
    (if_pos (by simpa only [Bool.or_eq_true, Bool.not_eq_true', or_assoc] using hoff))

theorem pcieLinkDown_falls (hup : s.dev.flag F.HOST_STATUS_link_up = true) : Gives .pcieLinkDown s s.dev.hostDown :=
  gives_of_withDev (exec_pcieLinkDown s) (if_pos hup)

theorem pcieLinkDown_idle (hdown : s.dev.flag F.HOST_STATUS_link_up = false) : Idle .pcieLinkDown s :=
  idle_of_withDev (exec_pcieLinkDown s) (if_neg (Bool.eq_false_iff.mp hdown))

/-! ### Resets (R428, R441) -/

/-- A falling PERST_N resets the function and unloads its configuration space. -/
theorem perst_falls (hperst : s.dev.host.perst = false) : Gives (.perst true) s
    (((s.dev.hostReset.updHost fun h => { h with perst := true, loaded := false }).standbyLeave false true).wakeRelease) :=
  gives_of_withDev (exec_perst true s) (if_neg (Bool.eq_false_iff.mp hperst))

theorem perst_idle (hperst : s.dev.host.perst = true) : Idle (.perst true) s :=
  idle_of_withDev (exec_perst true s) (if_pos hperst)

/-! ### The service port (R491, R498) -/

section
variable {usb : BitVec 2}

/-- Without power no port answers. -/
theorem usbAttach_dead (hdead : s.dev.pwr.good = false) : Idle (.usbAttach usb) s :=
  idle_of_withDev (exec_usbAttach usb s) (if_pos (by rw [hdead]; rfl))

section
variable (hgood : s.dev.pwr.good = true)
include hgood

/-- An attachment leaves standby. -/
theorem usbAttach_wakes (hstandby : s.dev.inStandby = true) : Gives (.usbAttach usb) s (s.dev.standbyLeave true true) :=
  gives_of_withDev (exec_usbAttach usb s) (by simp only [hgood, hstandby, Bool.not_true, Bool.false_eq_true, if_false, if_true])

/-- An enabled port with power shows its speed. -/
theorem usbAttach_rises (hawake : s.dev.inStandby = false) (hon : s.dev.domainOn 32 = true) (henabled : s.dev.usbEnabled = true) :
    Gives (.usbAttach usb) s ((s.dev.setB F.HOST_STATUS_usb_up true).setF F.HOST_STATUS_usb_speed usb.toNat) :=
  gives_of_withDev (exec_usbAttach usb s)
    (by simp only [hgood, hawake, hon, henabled, Bool.not_true, Bool.and_self, Bool.false_eq_true, if_false, if_true])

end
end
end

/-- Settles O49: the link by its flag, PERST_N and its power; a reset as its command says; the service port by power, standby and its enable. -/
theorem hostLinkAndResets : Obligations.HostLinkAndResets := by
  intro s speed width usb d up up' power
  exact ⟨pcieLinkUp_rises, pcieLinkUp_idle, pcieLinkDown_falls, pcieLinkDown_idle, exec_hotReset s, exec_flr s, perst_falls, perst_idle,
    exec_perst false s, exec_usbDetach s, usbAttach_dead, usbAttach_wakes, usbAttach_rises⟩

end Sys2Proof.Machine
end

section
/-! PROOFS. Host DMA (R422–R425), doorbells (R426) and the MSI-X masks (R427). -/

namespace Sys2Proof.Machine

open Sys2Proof.Safety

theorem exec_hostDmaTransfer (desc data : List Byte) (ok : Bool) (s : State) :
    exec (.hostDmaTransfer desc data ok) s = execHostDmaTransfer desc data ok s := rfl
theorem exec_doorbellTime (ctx : BitVec 12) (v : BitVec 64) (s : State) : exec (.doorbellTime ctx v) s = execDoorbellTime ctx v s := rfl
theorem exec_doorbellTail (ctx : BitVec 12) (v : BitVec 32) (s : State) : exec (.doorbellTail ctx v) s = execDoorbellTail ctx v s := rfl
theorem exec_msixUnmask (vec : BitVec 8) (s : State) : exec (.msixUnmask vec) s = execMsixUnmask vec s := rfl

/-! ### A piece of a copy (R424, R425) -/

section
variable {g : Dev} {q : Nat} {b data : List Byte} {ok : Bool}

/-- The bytes of the descriptor that earlier pieces have moved. -/
def Dev.copyMoved (g : Dev) (q : Nat) : Nat := SMap.get (fun _ => 0) g.host.moved q

/-- The bytes of the next piece. -/
def Dev.copyLen (g : Dev) (q : Nat) (b : List Byte) : Nat := min 512 (leAt b 16 4 - g.copyMoved q)

theorem Dev.copyPiece_eq : g.copyPiece q b = (g.copyMoved q, g.copyLen q b) := rfl

theorem Dev.copyTransfer_bad (hbad : copyDescBad b = true) : g.copyTransfer q b data ok = g.qFail q 0x12 := if_pos hbad

section
variable (hgood : copyDescBad b = false)
include hgood

/-- A piece in a locked plan waits for a window of its requester. -/
theorem Dev.copyTransfer_waits (hwait : g.copyWaits q b = true) : g.copyTransfer q b data ok = g := by
  simp only [Dev.copyTransfer, hgood, hwait, Bool.false_eq_true, if_false, if_true]

section
variable (hgo : g.copyWaits q b = false) (hin : leAt b 20 1 % 2 = 0)
include hgo hin

/-- A copy into the block that the host cannot read from fails. -/
theorem Dev.copyTransfer_hostFail : g.copyTransfer q b data false = g.qFail q 0x13 := by
  simp only [Dev.copyTransfer, hgood, hgo, hin, Bool.not_false, Bool.false_eq_true, if_false, if_true]

variable {e : Dev} (hwrite : g.mgmtWrite 21 0x5D true (leAt b 8 8 + g.copyMoved q)
    ((data ++ List.replicate (g.copyLen q b) 0).take (g.copyLen q b)) = (e, none))
include hwrite

/-- The last piece of a copy into the block completes the descriptor. -/
theorem Dev.copyTransfer_done (hlast : g.copyMoved q + g.copyLen q b = leAt b 16 4) :
    g.copyTransfer q b data true = e.qDone q ((leAt b 20 1).testBit 1) := by
  simp only [Dev.copyTransfer, Dev.copyPiece_eq, hgood, hgo, hin, hwrite, hlast, Bool.not_true, Bool.false_eq_true, if_false, if_true]

/-- Any other piece is counted. -/
theorem Dev.copyTransfer_more (hmore : g.copyMoved q + g.copyLen q b ≠ leAt b 16 4) :
    g.copyTransfer q b data true =
      e.updHost fun h => { h with moved := SMap.set (fun _ => 0) h.moved q (g.copyMoved q + g.copyLen q b) } := by
  simp only [Dev.copyTransfer, Dev.copyPiece_eq, hgood, hgo, hin, hwrite, hmore, Bool.not_true, Bool.false_eq_true, if_false, if_true]

end
end
end

/-! ### The queue of a transfer (R422, R423) -/

section
variable {s : State} {desc data : List Byte} {ok : Bool}

theorem hostDmaTransfer_idle (hoff : s.dev.flag F.HOST_STATUS_link_up = false ∨ rotPick 20 s.dev.host.arb s.dev.qReady = none) :
    Idle (.hostDmaTransfer desc data ok) s := by
  refine idle_of_withDev (exec_hostDmaTransfer desc data ok s) ?_
  rcases hoff with hdown | hpick
  · exact if_pos (by rw [hdown]; rfl)
  · simp only [hpick, ite_self]

/-- The descriptor of a queue: the one held since its first piece, else the one that the host answers. -/
def Dev.dmaDesc (d : Dev) (q : Nat) (desc : List Byte) : List Byte :=
  (SMap.get (fun _ => none) d.host.desc q).getD ((desc ++ List.replicate 32 0).take 32)

/-- The device once the rotating pointer has gone past the queue and its descriptor is held. -/
def Dev.dmaPicked (d : Dev) (q : Nat) (desc : List Byte) : Dev :=
  d.updHost fun h => { h with arb := (q + 1) % 20, desc := SMap.set (fun _ => none) h.desc q (some (d.dmaDesc q desc)) }

section
variable {q : Nat} (hup : s.dev.flag F.HOST_STATUS_link_up = true) (hpick : rotPick 20 s.dev.host.arb s.dev.qReady = some q)
include hup hpick

/-- The transfer is the one of the queue that the pointer finds. -/
theorem hostDmaTransfer_serves : Gives (.hostDmaTransfer desc data ok) s
    (if q < 4 then (s.dev.dmaPicked q desc).copyTransfer q (s.dev.dmaDesc q desc) data ok
     else (s.dev.dmaPicked q desc).injTransfer q (s.dev.dmaDesc q desc) data ok) := by
  refine gives_of_withDev (exec_hostDmaTransfer desc data ok s) ?_
  simp only [hup, hpick, Bool.not_true, Bool.false_eq_true, if_false]
  rfl

theorem hostDmaTransfer_injects (hinj : 4 ≤ q) : Gives (.hostDmaTransfer desc data ok) s
    ((s.dev.dmaPicked q desc).injTransfer q (s.dev.dmaDesc q desc) data ok) :=
  gives_of_eq (hostDmaTransfer_serves hup hpick) (if_neg (Nat.not_lt.mpr hinj))

/-- A copy queue gives what the copy gives. -/
theorem hostDmaTransfer_copies {e : Dev} (hcopy : q < 4)
    (he : (s.dev.dmaPicked q desc).copyTransfer q (s.dev.dmaDesc q desc) data ok = e) : Gives (.hostDmaTransfer desc data ok) s e :=
  gives_of_eq (hostDmaTransfer_serves hup hpick) ((if_pos hcopy).trans he)

end

/-! ### Doorbells (R426) -/

section
variable {ctx : BitVec 12}

theorem doorbellTime_advances {v : BitVec 64} (hactive : (s.dev.ctxOf ctx.toNat).active = true) (hvirtual : s.dev.virtualCtx ctx.toNat = true) :
    Gives (.doorbellTime ctx v) s (s.dev.vtAdvanceBell ctx.toNat v.toNat) :=
  gives_of_withDev (exec_doorbellTime ctx v s) (if_neg (by rw [hactive, hvirtual]; exact Bool.false_ne_true))

/-- A context that is not active, or whose time is not virtual, has no time word. -/
theorem doorbellTime_discards {v : BitVec 64} (hoff : (s.dev.ctxOf ctx.toNat).active = false ∨ s.dev.virtualCtx ctx.toNat = false) :
    Gives (.doorbellTime ctx v) s (s.dev.dbDiscard ctx.toNat) :=
  gives_of_withDev (exec_doorbellTime ctx v s)
    (if_pos (by simpa only [Bool.or_eq_true, Bool.not_eq_true'] using hoff))

/-- The queue of a tail is its context's own, and the tail stands in it. -/
def Dev.TailFits (d : Dev) (k v : Nat) : Prop :=
  field v 20 12 = 0 ∧ (d.ctxOf k).active = true ∧ d.slotOwner (field v 16 4) = k ∧ d.slotInj (field v 16 4) = true ∧
    field v 0 16 < d.qSize (field v 16 4 + 4)

theorem Dev.doorbellTail_refuses_iff {d : Dev} {k v : Nat} :
    (field v 20 12 ≠ 0 || !(d.ctxOf k).active || d.slotOwner (field v 16 4) != k || !d.slotInj (field v 16 4) ||
      decide (d.qSize (field v 16 4 + 4) ≤ field v 0 16)) = true ↔ ¬ d.TailFits k v := by
  simp only [Dev.TailFits, Bool.or_eq_true, decide_eq_true_eq, Bool.not_eq_true', bne_iff_ne, not_and_or, Bool.not_eq_true, Nat.not_lt,
    or_assoc, ne_eq]

theorem doorbellTail_takes {v : BitVec 32} (hfits : s.dev.TailFits ctx.toNat v.toNat) :
    Gives (.doorbellTail ctx v) s (s.dev.updHost fun h =>
      { h with tails := SMap.set (fun _ => 0) h.tails (field v.toNat 16 4 + 4) (field v.toNat 0 16) }) :=
  gives_of_withDev (exec_doorbellTail ctx v s) (if_neg fun h => Dev.doorbellTail_refuses_iff.mp h hfits)

theorem doorbellTail_discards {v : BitVec 32} (hmiss : ¬ s.dev.TailFits ctx.toNat v.toNat) :
    Gives (.doorbellTail ctx v) s (s.dev.dbDiscard ctx.toNat) :=
  gives_of_withDev (exec_doorbellTail ctx v s) (if_pos (Dev.doorbellTail_refuses_iff.mpr hmiss))

end

/-! ### Unmasking a vector (R427) -/

/-- A word whose bit 0 has been cleared reads it as zero. -/
theorem testBit_putBit_zero (n : Nat) : (putBit n 0 false).testBit 0 = false := by
  simp only [putBit, putField, field, Nat.testBit_zero, decide_eq_false_iff_not, Nat.shiftLeft_zero, Nat.shiftRight_zero]
  simp only [Bool.false_eq_true, if_false]
  omega

section
variable {vec : BitVec 8}

/-- The device once the control word of vector `v` is unmasked. -/
def Dev.msixUnmasked (d : Dev) (v : Nat) : Dev :=
  d.updHost fun h => { h with msix := SMap.set msixDefault h.msix (4 * v + 3) (putBit (SMap.get msixDefault h.msix (4 * v + 3)) 0 false % 2 ^ 32) }

/-- Unmasking a vector sends the message that is pending for it. -/
theorem Dev.msixWrite_unmask {d : Dev} {v : Nat} (hv : v < 256) :
    d.msixWrite (4 * v + 3) (putBit (SMap.get msixDefault d.host.msix (4 * v + 3)) 0 false) =
      if d.host.pba.testBit v then ((d.msixUnmasked v).updHost fun h => { h with pba := putBit h.pba v false }).sendMsix v
      else d.msixUnmasked v := by
  have hi : (4 * v + 3) % 1024 = 4 * v + 3 := Nat.mod_eq_of_lt (by omega)
  have hvec : (4 * v + 3) / 4 = v := by omega
  have hword : (4 * v + 3) % 4 = 3 := by omega
  have hclear : (putBit (SMap.get msixDefault d.host.msix (4 * v + 3)) 0 false).testBit 0 = false := testBit_putBit_zero _
  simp only [Dev.msixWrite, hi, hvec, hword, hclear, decide_true, Bool.not_false, Bool.true_and]
  rfl

theorem msixUnmask_gives : Gives (.msixUnmask vec) s
    (if s.dev.host.pba.testBit vec.toNat then
      ((s.dev.msixUnmasked vec.toNat).updHost fun h => { h with pba := putBit h.pba vec.toNat false }).sendMsix vec.toNat
     else s.dev.msixUnmasked vec.toNat) :=
  gives_of_withDev (exec_msixUnmask vec s) (Dev.msixWrite_unmask vec.isLt)

end
end

/-- Settles O51: a transfer by its queue and its copy, a doorbell by what fits, an unmasking by the pending bit. -/
theorem hostQueues : Obligations.HostQueues := by
  intro s desc data ok ctx v64 v32 vec q e d k c
  refine ⟨hostDmaTransfer_idle, fun hup hpick => ?transfer, doorbellTime_advances, doorbellTime_discards,
    ⟨doorbellTail_takes, doorbellTail_discards⟩, fun hidle => ?masked, fun hpending => ?sends⟩
  case transfer =>
    intro b g moved n
    refine ⟨hostDmaTransfer_injects hup hpick, fun hcopy hbad => hostDmaTransfer_copies hup hpick hcopy (Dev.copyTransfer_bad hbad),
      fun hcopy hgood hwait => hostDmaTransfer_copies hup hpick hcopy (Dev.copyTransfer_waits hgood hwait),
      fun hcopy hgood hgo hin => ⟨?fails, ?moves⟩⟩
    case fails =>
      rintro rfl
      exact hostDmaTransfer_copies hup hpick hcopy (Dev.copyTransfer_hostFail hgood hgo hin)
    case moves =>
      rintro rfl hwrite
      exact ⟨fun hlast => hostDmaTransfer_copies hup hpick hcopy (Dev.copyTransfer_done hgood hgo hin hwrite hlast),
        fun hmore => hostDmaTransfer_copies hup hpick hcopy (Dev.copyTransfer_more hgood hgo hin hwrite hmore)⟩
  case masked => exact gives_of_eq msixUnmask_gives (if_neg (Bool.eq_false_iff.mp hidle))
  case sends => exact gives_of_eq msixUnmask_gives (if_pos hpending)

end Sys2Proof.Machine
end

section
/-! PROOFS. The Steward's slices (R442, R445–R447), its traps (R443), its mailbox (R444), the boot (R451, R456), the watchdog (R468) and
discovery (R460). -/

namespace Sys2Proof.Machine

open Sys2Proof.Safety

theorem exec_telemetrySlice (rs : List (Nat × BitVec 32)) (s : State) : exec (.telemetrySlice rs) s = execTelemetrySlice rs s := rfl
theorem exec_logSlice (s : State) : exec .logSlice s = execLogSlice s := rfl
theorem exec_mailboxSlice (s : State) : exec .mailboxSlice s = execMailboxSlice s := rfl
theorem exec_stewTrap (cause : BitVec 4) (s : State) : exec (.stewTrap cause) s = execStewTrap cause s := rfl
theorem exec_stewardBoot (s : State) : exec .stewardBoot s = execStewardBoot s := rfl
theorem exec_housekeepingSlice (s : State) : exec .housekeepingSlice s = execHousekeepingSlice s := rfl
theorem exec_discovery (found : List (Nat × Nat × List Byte)) (s : State) : exec (.discovery found) s = execDiscovery found s := rfl

/-! ### The slices of telemetry and of the log (R445–R447) -/

section
variable {s : State} {rs : List (Nat × BitVec 32)}

theorem telemetrySlice_idle (hoff : s.dev.sliceDue .telemetry = false) : Idle (.telemetrySlice rs) s :=
  idle_of_withDev (exec_telemetrySlice rs s) (if_pos (by rw [hoff]; rfl))

/-- The device once its telemetry slice of this frame has begun. -/
def Dev.telBegun (d : Dev) : Dev := d.sliceDone .telemetry d.frameNo

/-- The enabled sensors whose turn has come. -/
def Dev.telDue (d : Dev) : List (Nat × Nat) :=
  sensors.filter fun x => (d.telBegun.getF F.STEW_TEL_MASK_mask).testBit x.1 && d.frameNo % x.2 == 0

/-- What a slice does with one sensor: a sample of its reading, or a skip without one. -/
def telStep (rs : List (Nat × BitVec 32)) (d : Dev) (x : Nat × Nat) : Dev :=
  match rs.find? fun r => r.1 == x.1 with
  | some r => d.telSample x.1 (d.sampleValue x.1 r.2)
  | none => d.bump R.STEW_TEL_SKIP

theorem telStep_sample (d : Dev) (x : Nat × Nat) (v : BitVec 32) : telStep [(x.1, v)] d x = d.telSample x.1 (d.sampleValue x.1 v) := by
  simp only [telStep, List.find?_cons, beq_self_eq_true]

theorem telStep_skip (d : Dev) (x : Nat × Nat) : telStep [] d x = d.bump R.STEW_TEL_SKIP := rfl

/-- An enabled slice takes the due sensors in order. -/
theorem telemetrySlice_samples (hdue : s.dev.sliceDue .telemetry = true) (hon : s.dev.telBegun.flag F.STEW_TEL_CTL_enable = true)
    {xs : List (Nat × Nat)} (hxs : s.dev.telDue = xs) : Gives (.telemetrySlice rs) s (xs.foldl (telStep rs) s.dev.telBegun) := by
  subst hxs
  unfold Dev.telBegun at hon
  refine gives_of_withDev (exec_telemetrySlice rs s) ?_
  simp only [hdue, hon, Bool.not_true, Bool.false_eq_true, if_false]
  rfl

/-- A due log slice writes up to sixteen entries. -/
theorem logSlice_writes (hdue : s.dev.sliceDue .log = true) :
    exec .logSlice s = .next ((List.range 16).foldl (fun t _ => t.logOne) { s with dev := s.dev.sliceDone .log s.dev.frameNo }) :=
  (exec_logSlice s).trans (if_pos hdue)

/-! ### Traps (R443) -/

/-- The device once the trap has undone the bundle and the code stands at the trap entry. -/
def Dev.trapUndone (d : Dev) : Dev :=
  (d.updPlough stewCore fun pl => { pl with
    pend := pl.pend.filter (fun x => decide (x.issue < d.stew.idx)), branch := none, loopEnter := none, loops := []
    pc := Config.stewRam + leAt d.stew.fwHeader 0x14 4 }).updStew fun x => { x with trapped := true, stores := [] }

/-- A first trap is recorded and raised. -/
theorem Dev.stewTrap_first {d : Dev} (hfirst : d.stew.inTrap = false) (cause : Nat) :
    d.stewTrap cause = ((((d.trapUndone.setF F.STEW_TRAP_cause cause).setB F.STEW_TRAP_done false).updStew fun x =>
      { x with inTrap := true }).raise 0x0C07 0 0 0 (dAt 24 1 0 + dAt 25 1 cause + dAt 28 4 0)) := if_neg (Bool.eq_false_iff.mp hfirst)

/-- A second one in the trap entry halts the Steward. -/
theorem Dev.stewTrap_second {d : Dev} (hsecond : d.stew.inTrap = true) (cause : Nat) :
    d.stewTrap cause = d.trapUndone.updStew fun x => { x with halted := true } := if_pos hsecond

theorem stewTrap_gives (hfw : s.dev.firmware = true) (cause : BitVec 4) : Gives (.stewTrap cause) s (s.dev.stewTrap cause.toNat) :=
  gives_of_withDev (exec_stewTrap cause s) (if_pos hfw)

/-! ### The mailbox (R444) -/

/-- The mailbox is served in its slice. -/
theorem mailboxSlice_takes (hopen : s.dev.sliceOpen .mailbox = true) : Gives .mailboxSlice s s.dev.trapEntryDone.mailboxTake :=
  gives_of_withDev (exec_mailboxSlice s) (if_pos (by rw [Dev.mailboxTime, hopen, Bool.or_true]))

end

section
variable {d : Dev} {c : MboxCmd} {rest : List MboxCmd}

/-- The device once the first command of the queue is the running one. -/
def Dev.mboxTaken (d : Dev) (c : MboxCmd) (rest : List MboxCmd) : Dev :=
  { d with stew := { d.stew with queue := rest, running := some c } }

/-- What the Steward makes of the command that it has taken. -/
def Dev.mboxJudge (d : Dev) (c : MboxCmd) : Dev :=
  match opArgs (leAt c.bytes 0 2) with
  | none => d.respond 0xF1
  | some args =>
    if !modeServes (d.getF F.STEW_STATUS_mode) (leAt c.bytes 0 2) then d.respond 0xF3
    else if reservedSet c.bytes args then d.respond 0xF2
    else if leAt c.bytes 0 2 ≠ 0x10 then d
    else if ctxArgsOk c.bytes then d.ctxCmdStart (leAt c.bytes 10 1) (leAt c.bytes 8 2) (leAt c.bytes 11 1) .mbox
    else d.respond 0xF2

/-- A context command waits while another one runs; any other is taken and judged. -/
theorem Dev.mailboxTake_eq (hidle : d.stew.running = none) (hqueue : d.stew.queue = c :: rest) :
    d.mailboxTake = if (leAt c.bytes 0 2 == 0x10 && d.getF F.STEW_STATUS_mode == 2) && d.ctxCmd.isSome then d
      else (d.mboxTaken c rest).mboxJudge c := by
  simp only [Dev.mailboxTake, hidle, hqueue]
  rfl

/-- Taking a command leaves the mode. -/
theorem Dev.mboxTaken_mode : (d.mboxTaken c rest).getF F.STEW_STATUS_mode = d.getF F.STEW_STATUS_mode := rfl

/-- A context command waits while another one runs. -/
theorem Dev.mailboxTake_waits (hidle : d.stew.running = none) (hqueue : d.stew.queue = c :: rest) (hop : leAt c.bytes 0 2 = 0x10)
    (hmode : d.getF F.STEW_STATUS_mode = 2) (hbusy : d.ctxCmd.isSome = true) : d.mailboxTake = d :=
  (Dev.mailboxTake_eq hidle hqueue).trans (if_pos (by rw [hop, hmode, hbusy]; rfl))

/-- With no context command running every command is taken. -/
theorem Dev.mailboxTake_free (hidle : d.stew.running = none) (hqueue : d.stew.queue = c :: rest) (hfree : d.ctxCmd = none) :
    d.mailboxTake = (d.mboxTaken c rest).mboxJudge c :=
  (Dev.mailboxTake_eq hidle hqueue).trans (if_neg (by rw [hfree, Option.isSome_none, Bool.and_false]; exact Bool.false_ne_true))

/-- A command that is no context command is taken whatever runs. -/
theorem Dev.mailboxTake_other (hidle : d.stew.running = none) (hqueue : d.stew.queue = c :: rest) (hop : leAt c.bytes 0 2 ≠ 0x10) :
    d.mailboxTake = (d.mboxTaken c rest).mboxJudge c :=
  (Dev.mailboxTake_eq hidle hqueue).trans (if_neg (by simp [hop]))

theorem Dev.mboxJudge_unknown (hargs : opArgs (leAt c.bytes 0 2) = none) : d.mboxJudge c = d.respond 0xF1 := by
  simp only [Dev.mboxJudge, hargs]

section
variable {args : List (Nat × Nat)} (hargs : opArgs (leAt c.bytes 0 2) = some args)
include hargs

theorem Dev.mboxJudge_unserved (hmode : modeServes (d.getF F.STEW_STATUS_mode) (leAt c.bytes 0 2) = false) :
    d.mboxJudge c = d.respond 0xF3 := by
  simp only [Dev.mboxJudge, hargs, hmode, Bool.not_false, if_true]

variable (hmode : modeServes (d.getF F.STEW_STATUS_mode) (leAt c.bytes 0 2) = true)
include hmode

theorem Dev.mboxJudge_reserved (hres : reservedSet c.bytes args = true) : d.mboxJudge c = d.respond 0xF2 := by
  simp only [Dev.mboxJudge, hargs, hmode, hres, Bool.not_true, Bool.false_eq_true, if_false, if_true]

variable (hres : reservedSet c.bytes args = false)
include hres

/-- A good command of the mailbox's own runs on. -/
theorem Dev.mboxJudge_runs (hop : leAt c.bytes 0 2 ≠ 0x10) : d.mboxJudge c = d := by
  simp only [Dev.mboxJudge, hargs, hmode, hres, Bool.not_true, Bool.false_eq_true, if_false, if_pos hop]

/-- A good context command starts in the context manager. -/
theorem Dev.mboxJudge_starts (hop : leAt c.bytes 0 2 = 0x10) (hctx : ctxArgsOk c.bytes = true) :
    d.mboxJudge c = d.ctxCmdStart (leAt c.bytes 10 1) (leAt c.bytes 8 2) (leAt c.bytes 11 1) .mbox := by
  simp only [Dev.mboxJudge, hargs, hmode, hres, hctx, Bool.not_true, Bool.false_eq_true, if_false, if_neg (not_not.mpr hop), if_true]

end

/-- Mode 2 serves every command. -/
theorem modeServes_two {mode : Nat} (hmode : mode = 2) (op : Nat) : modeServes mode op = true := by
  rw [modeServes, hmode, beq_self_eq_true, Bool.or_true]

end

/-! ### Boot and housekeeping (R451, R468) -/

section
variable {s : State}

theorem stewardBoot_boots (hgood : s.dev.pwr.good = true) (hstarted : s.dev.pwr.started = true) (hfirst : s.dev.stew.booted = false)
    (hruns : s.dev.stew.halted = false) : exec .stewardBoot s =
      .next (({ s with dev := { s.dev with stew := { s.dev.stew with booted := true } } } : State).bootIdentity).bootImage :=
  (exec_stewardBoot s).trans (if_neg (by rw [hgood, hstarted, hfirst, hruns]; exact Bool.false_ne_true))

/-- A boot follows a reset once. -/
theorem stewardBoot_idle (hbooted : s.dev.stew.booted = true) : Idle .stewardBoot s :=
  (exec_stewardBoot s).trans (if_pos (by simp only [hbooted, Bool.or_true, Bool.true_or]))

theorem Dev.sliceDone_clk (d : Dev) (x : Slice) (n : Nat) : (d.sliceDone x n).clk = d.clk := by
  simp only [Dev.sliceDone, Dev.trapEntryDone]
  split
  · rfl
  · rfl

/-- A housekeeping slice in time, with nothing to renew, kicks the watchdog. -/
theorem housekeepingSlice_kicks {f start : Nat} (hframe : s.dev.hkFrame = some (f, start)) (hfw : s.dev.firmware = true)
    (hdue : SMap.get (fun _ => 0) s.dev.stew.frames 3 ≠ f + 1) (htime : s.dev.devNs < start + 3)
    (hrenew : (s.dev.sliceDone .housekeeping f).stew.renew = []) : Gives .housekeepingSlice s
      { s.dev.sliceDone .housekeeping f with reeve := { (s.dev.sliceDone .housekeeping f).reeve with kick := s.dev.clk } } := by
  have hlate : decide (start + 3 ≤ s.dev.devNs) = false := decide_eq_false (Nat.not_le.mpr htime)
  refine gives_of_withDev (exec_housekeepingSlice s) ?_
  simp only [hframe, hfw, beq_eq_false_iff_ne.mpr hdue, hlate, hrenew, List.foldl_nil, Bool.not_true, Bool.or_self, Bool.false_eq_true, if_false,
    Dev.updReeve, Dev.sliceDone_clk]

/-! ### Discovery (R460) -/

/-- The buses that a discovery probes. -/
def Dev.probedBuses (d : Dev) : List Nat := (List.range 8).filter fun b => d.gate.discovering.testBit b && d.idPolicy b != 0

theorem Dev.probedBuses_none {d : Dev} (hnone : ∀ b < 8, d.gate.discovering.testBit b = false ∨ d.idPolicy b = 0) : d.probedBuses = [] := by
  refine List.filter_eq_nil_iff.mpr fun b hb => ?_
  rcases hnone b (List.mem_range.mp hb) with hoff | hignore
  · simp [hoff]
  · simp [hignore]

theorem Dev.probedBuses_one {d : Dev} {b : Nat} (hb : b < 8)
    (honly : ∀ c < 8, (d.gate.discovering.testBit c = true ∧ d.idPolicy c ≠ 0) ↔ c = b) : d.probedBuses = [b] := by
  have hsame : d.probedBuses = (List.range 8).filter (· == b) := List.filter_congr fun c hc => by
    rw [Bool.eq_iff_iff, Bool.and_eq_true, bne_iff_ne, beq_iff_eq]
    exact honly c (List.mem_range.mp hc)
  rw [hsame, List.filter_beq, List.count_eq_one_of_mem List.nodup_range (List.mem_range.mpr hb), List.replicate_one]

/-- The device once every address of a bus has been probed. -/
def Dev.probeBus (found : List (Nat × Nat × List Byte)) (d : Dev) (b : Nat) : Dev :=
  (List.range 8).foldl (fun (e : Dev) a => e.probeId b a ((found.find? fun x => x.1 == b && x.2.1 == a).map fun x => x.2.2)) d

/-- A discovery in the housekeeping slice probes its buses in order and reports done. -/
theorem discovery_probes {found : List (Nat × Nat × List Byte)} (hbusy : s.dev.flag F.GATE_STATUS_discovery_busy = true)
    (hopen : s.dev.sliceOpen .housekeeping = true) {bs : List Nat} (hbs : s.dev.probedBuses = bs) : Gives (.discovery found) s
      (((bs.foldl (Dev.probeBus found) s.dev).setB F.GATE_STATUS_discovery_busy false).setB F.GATE_STATUS_discovery_done true) := by
  subst hbs
  exact gives_of_withDev (exec_discovery found s) (if_neg (by rw [hbusy, hopen]; exact Bool.false_ne_true))

end

/-- Settles O28: a slice by whether it is due, a trap by whether it is the first, a command by the checks in order, the rest by its condition. -/
theorem stewardFramesAndBoot : Obligations.StewardFramesAndBoot := by
  refine ⟨fun s rs cause => ⟨fun hdue hon => ⟨telemetrySlice_samples hdue hon, ?sample, ?skip⟩, telemetrySlice_idle, logSlice_writes,
    mailboxSlice_takes, fun hfw => ⟨fun hfirst => gives_of_eq (stewTrap_gives hfw cause) (Dev.stewTrap_first hfirst _),
      fun hsecond => gives_of_eq (stewTrap_gives hfw cause) (Dev.stewTrap_second hsecond _)⟩⟩, ?mailbox, fun s found =>
    ⟨stewardBoot_boots, stewardBoot_idle, fun f start => housekeepingSlice_kicks, fun hbusy hopen hnone =>
      discovery_probes hbusy hopen (Dev.probedBuses_none hnone), fun b hb hbusy hopen honly =>
      discovery_probes hbusy hopen (Dev.probedBuses_one hb honly)⟩⟩
  case sample =>
    rintro x v hx rfl
    exact gives_of_eq (telemetrySlice_samples hdue hon hx) (telStep_sample _ x v)
  case skip =>
    rintro x hx rfl
    exact gives_of_eq (telemetrySlice_samples hdue hon hx) (telStep_skip _ x)
  case mailbox =>
    intro d c rest hidle hqueue op taken
    refine ⟨fun hop => ?other, fun hop hmode => ⟨Dev.mailboxTake_waits hidle hqueue hop hmode, ?starts⟩⟩
    case other =>
      have htake := Dev.mailboxTake_other hidle hqueue hop
      exact ⟨fun hargs => htake.trans (Dev.mboxJudge_unknown hargs), fun args hargs hmode => htake.trans (Dev.mboxJudge_unserved hargs hmode),
        fun args hargs hmode hres => htake.trans (Dev.mboxJudge_reserved hargs hmode hres),
        fun args hargs hmode hres => htake.trans (Dev.mboxJudge_runs hargs hmode hres hop)⟩
    case starts =>
      intro hfree hres hctx
      exact (Dev.mailboxTake_free hidle hqueue hfree).trans
        (Dev.mboxJudge_starts (congrArg opArgs hop) (modeServes_two (Dev.mboxTaken_mode.trans hmode) op) hres hop hctx)

end Sys2Proof.Machine
end
